-- ==== Sys2Proof/Word.lean ====
section
/-! DEFINITION. Words of the part and the named values that commands carry as operands. -/

namespace Sys2Proof

/-- A byte of a record or of a frame. -/
abbrev Byte := BitVec 8
/-- A two-byte field. -/
abbrev Half := BitVec 16
/-- A four-byte field, or a byte address of the processor port (R1). -/
abbrev Word := BitVec 32
/-- A frame number, 0 to 65535, wrapping (R47). -/
abbrev FrameNo := BitVec 16
/-- A line of DRAM, named by its byte address divided by 64 (R18). -/
abbrev Line := Nat
/-- One digit of a digit string, 0 to 9, `*` (10) or `#` (11); 12 to 15 are no digits (R197). -/
abbrev Digit := BitVec 4

/-- The blocks that place writes and reads, raise events and hand air messages (R44, R58, formats chapter). -/
inductive Job where
  | binder | conn | cells | mob | calls | speech | texts | sleep | events | link
  deriving DecidableEq, Repr

/-- What the memory port hands over at the completion of an internal read: the line that was read (its byte address divided by 64, 26
bits) and its bytes from DRAM (R28, R31, R38). -/
structure ReadData where
  line : BitVec 26
  bytes : List Byte
  deriving DecidableEq, Repr

/-- The four kinds of radio operation that the radio unit answers (R54). -/
inductive RadioOp where
  | measure | listen | sendSig | switch
  deriving DecidableEq, Repr

/-- What LISTEN-DONE carries (R53, R198). -/
inductive ListenOutcome where
  | noPage | pageCall | pageText
  deriving DecidableEq, Repr

/-- What SEGMENT-ACK carries beside reference and index (R61, R199). -/
inductive AckResult where
  | ok | inboxFull | busy
  deriving DecidableEq, Repr

/-- The connection controller's parameters (R67). -/
inductive ConnParam where
  | inactivity | campThreshold | lossThreshold
  deriving DecidableEq, Repr

/-- The mobility controller's parameters (R103). -/
inductive MobParam where
  | handoverMargin | triggerHold | reselectMargin | reselectRounds
  deriving DecidableEq, Repr

/-- The four host-owned words of a cell slot (R83). -/
inductive CellWord where
  | inUse | carrier | cellCode | areaCode
  deriving DecidableEq, Repr

/-- The sleep controller's parameters, the per-line ones with their line (R172). -/
inductive SleepParam where
  | base | ceiling
  | wakeEnable (line : Fin 4) | polarity (line : Fin 4) | mode (line : Fin 4) | filter (line : Fin 4)
  | answerMap
  deriving DecidableEq, Repr

end Sys2Proof
end

