-- ==== Sys2Proof/Syntax.lean ====
section
/-! DEFINITION. The commands of the part: one constructor for each row of spec/opcode_table.json, in its order. -/

namespace Sys2Proof

/-- A command: one step of the part, whole and indivisible (spec/95_what_each_step_holds.md). A line operand is
the line's number (byte address divided by 64), 26 bits of the 32-bit address space of R1. -/
inductive Instr where
  | powerOnReset (straps : BitVec 2)
  | warmReset
  | warmResetEnd (straps : BitVec 2)
  | resetNRelease
  | frameStrobe (pins : BitVec 4)
  | processorRead (tag : BitVec 4) (line : BitVec 26)
  | processorWrite (tag : BitVec 4) (line : BitVec 26) (bytes : List (BitVec 6 × Byte))
  | hostWriteAccept
  | internalWriteAccept
  | internalWritePlaceWait (job : Job)
  | internalReadPlaceWait (job : Job)
  | enableWordWrite (value : Word)
  | anchorReadDone (k : Fin 4) (data : ReadData) (err : Bool)
  | regionReadDone (k : Fin 19) (data : ReadData) (err : Bool)
  | unbindTimerExpiry
  | arbiterGrant (drainFirst : Bool)
  | drainDone (line : BitVec 26)
  | stagePublish
  | hostReadDone (tag : BitVec 4) (data : List Byte) (err : Bool)
  | selfRefreshEnter
  | exitDelayExpiry
  | settleDelayExpiry
  | responseTimeout (op : RadioOp)
  | recoveryTimerExpiry
  | linkReady
  | badFrame (bytes : List Byte)
  | measureDone (level : Half)
  | listenDone (outcome : ListenOutcome)
  | sigSent
  | airMessageInvalid (payload : List Byte)
  | servingLost
  | switchDone (synced : Bool)
  | speechIn (frame : List Byte)
  | radioRequest (value : Byte)
  | shutdownTimerExpiry
  | connectionParameter (which : ConnParam) (value : Half)
  | connectGrant
  | connectReject
  | connectTimerExpiry
  | areaAccept (area : Half)
  | areaReject (area : Half)
  | areaAnswerTimerExpiry
  | inactivityTimerExpiry
  | reestablishAccept
  | reestablishmentTimerExpiry
  | cellConfigurationNotice (slot : Fin 13) (word : CellWord) (value : Half)
  | reloadReadDone (data : ReadData) (err : Bool)
  | roundTimerExpiry
  | mobilityParameter (which : MobParam) (value : Half)
  | holdTimerExpiry (slot : Fin 13)
  | reportTimerExpiry
  | transferOrder (carrier code activation : Half)
  | activationTimerExpiry
  | requestOriginate (rec : Fin 4)
  | requestAnswer (rec : Fin 4)
  | requestHold (rec : Fin 4)
  | requestResume (rec : Fin 4)
  | requestSwap (rec : Fin 4)
  | requestRelease (rec : Fin 4)
  | requestUnknown (rec : Fin 4) (code : Byte)
  | dialStringCaptured (rec : Fin 4) (data : ReadData) (err : Bool)
  | ringing (ref : Byte)
  | connect (ref : Byte)
  | offer (ref : Byte) (caller : List Digit)
  | holdAccept (ref : Byte)
  | resumeAccept (ref : Byte)
  | release (ref cause : Byte)
  | releaseDone (ref : Byte)
  | dialingTimerExpiry (rec : Fin 4)
  | ringingOutTimerExpiry (rec : Fin 4)
  | incomingTimerExpiry (rec : Fin 4)
  | exchangeTimerExpiry (rec : Fin 4)
  | releasingTimerExpiry (rec : Fin 4)
  | uplinkProducerWrite (value : Byte)
  | downlinkConsumerWrite (value : Byte)
  | speechFetchDone (data : ReadData) (err : Bool)
  | outboxProducerWrite (value : Byte)
  | cancelWordWrite (desc : Fin 16) (value : Byte)
  | descriptorReadDone (data : ReadData) (err : Bool)
  | bodyReadDone (k : Fin 11) (data : ReadData) (err : Bool)
  | segmentAck (ref index : Byte) (result : AckResult)
  | ackTimerExpiry
  | retryTimerExpiry
  | inboxConsumerWrite (value : Byte)
  | textSegment (ref : Byte) (sender : List Digit) (index count : Byte) (payload : List Byte)
  | contextTimerExpiry (ring : Byte)
  | sleepParameter (which : SleepParam) (value : Half)
  | sleepRequest (value : Byte)
  | stopGrant (value : Byte)
  | quiesceTimerExpiry
  | wakeAck (value : Byte)
  | lineAcknowledge (line : Fin 4) (value : Byte)
  | rouseWindowExpiry
  | longPressTimerExpiry
  | eventConsumerWrite (value : Byte)
  deriving DecidableEq, Repr

end Sys2Proof
end

