-- ==== Sys2Proof/Decode.lean ====
section
/-! DEFINITION. The reading of a table word: spec/opcode_table.json gives no row any bits. -/

namespace Sys2Proof

/-- No word spells a command: every row of the table has an empty list of fields. -/
def decodeTableWord (_nbits _w : Nat) : Option Instr := none

end Sys2Proof
end

