-- ==== Sys2Proof/Config.lean ====
section
/-! DEFINITION. What the spec fixes for the part: capacities and lengths of timers. Nothing is left to an implementation
and no rule leaves a value open, so there is no free value here. -/

namespace Sys2Proof.Config

/-- Write queue entries (R23). -/
def queueEntries : Nat := 32
/-- Internal writes the acceptance list holds (R21). -/
def internalWrites : Nat := 16
/-- Internal reads the read queue holds (R28). -/
def internalReads : Nat := 4
/-- Stage lines (R33). -/
def stageLines : Nat := 6
/-- Occupancies at which the arbiter's mode changes, and the read grants before a drain (R39, R40). -/
def drainAt : Nat := 24
def readFirstAt : Nat := 8
def readGrants : Nat := 8
/-- Places of the signalling queue, and messages waiting outside it for one job (R58). -/
def signallingPlaces : Nat := 8
def outsidePlaces : Nat := 8
/-- Pending events (R192), and the number that rouses a part in DEEP (R182, R194). -/
def pendingEvents : Nat := 16
def rousingEvents : Nat := 12
/-- Timeouts that declare the radio unit faulted (R55). -/
def unansweredLimit : Nat := 3

/-! Lengths of the frame timers, in frames. -/

/-- R15, R81, R57. -/
def unbindFrames : Nat := 50
def shutdownFrames : Nat := 50
def recoveryFrames : Nat := 100
/-- R54. -/
def responseFrames : RadioOp → Nat
  | .measure => 5
  | .listen => 2
  | .sendSig => 4
  | .switch => 15
/-- R71, R73, R78. -/
def connectFrames : Nat := 200
def areaAnswerFrames : Nat := 200
def reestablishmentFrames : Nat := 100
/-- R106. -/
def reportFrames : Nat := 100
/-- R137. -/
def dialingFrames : Nat := 3000
def ringingOutFrames : Nat := 6000
def incomingFrames : Nat := 6000
def exchangeFrames : Nat := 400
def releasingFrames : Nat := 400
/-- R159, R166. -/
def ackFrames : Nat := 300
def contextFrames : Nat := 3000
/-- R176, R184, R190. -/
def quiesceFrames : Nat := 100
def rouseFrames : Nat := 20
def longPressFrames : Nat := 600

end Sys2Proof.Config
end

