-- ==== Sys2Proof/Machine/State.lean ====
section
/-! DEFINITION. The state of the part, block by block, and its value after power-on reset. -/

namespace Sys2Proof.Machine

/-- Why a command ends in a fault. No rule of the spec stops the part: every error it names is an effect on the state
(INVENTORY.md, Faults), so nothing raises one (safe). -/
inductive Fault where
  deriving DecidableEq, Repr

/-- Why a command is refused. -/
inductive Refusal where
  /-- Raised by an arm of exec whose command has no meaning yet; no arm does (safe). -/
  | notModelled (mnemonic : String)
  deriving DecidableEq, Repr

/-! ## Named values -/

/-- The causes; their codes stand in the formats chapter. -/
inductive Cause where
  | locl | remote | busy | noAnswer | unanswered | noConnection | radioLoss | radioFault | shutdown | card | unbind
  | reset | badNumber | memory | badLength | noAck | inboxFull | holdFailed | resumeFailed | superseded | unknown
  | sync | busyCall | busyText | busyRadio | noGrant | activity | wake | pageCall | textArrived | line | serviceLost
  | areaRejected | offer | host | badVersion | badCapacity | badBase | badSize | overlap
  deriving DecidableEq, Repr

/-- The region kinds of R3, and the anchor (formats chapter, region kinds). -/
inductive Kind where
  | plan | cell | call | speech | outbox | inbox | event | textBodies | anchor
  deriving DecidableEq, Repr

/-- The event kinds (R193). -/
inductive EventKind where
  | callState | textDone | textArrived | inboxAbandoned | outboxOverrun | handoverDone | handoverFailed
  | transferRefused | reselected | areaUpdated | areaRejected | serviceFound | serviceLost | radioFault
  | radioRecovered | line | shutdown | sleepRefused | sleepAbandoned | wake | memoryError | ownershipBreach
  | configIgnored
  deriving DecidableEq, Repr

/-- The class of an event record (R193). -/
inductive EventClass where
  | none | primary | secondary
  deriving DecidableEq, Repr

/-- An event record (R192). -/
structure Event where
  kind : EventKind
  cls : EventClass
  loss : Bool
  frame : FrameNo
  group : Byte
  subject : Half
  detA : Byte
  detB : Byte
  value : Word
  deriving DecidableEq, Repr

/-- A frame timer (R48): stopped, running with the strobes left, or due (its last strobe has been taken and its
expiry has not). -/
inductive Timer where
  | stopped
  | running (left : Nat)
  | due
  deriving DecidableEq, Repr

/-- The members of the purpose set (R70). -/
inductive Purpose where
  | callOut | callIn | textOut | textIn | area
  deriving DecidableEq, Repr

/-- The air messages (R61, R199), those the part sends and those it receives. -/
inductive AirMsg where
  | connectRequest (p : Purpose)
  | connectGrant | connectReject | leave | detach
  | reestablish (oldCode : Half)
  | reestablishAccept
  | areaUpdate (area : Half) | areaAccept (area : Half) | areaReject (area : Half)
  | setup (ref : Byte) (dial : List Digit)
  | offer (ref : Byte) (caller : List Digit)
  | ringing (ref : Byte) | connect (ref : Byte) | answer (ref : Byte)
  | hold (ref : Byte) | holdAccept (ref : Byte) | resume (ref : Byte) | resumeAccept (ref : Byte)
  | release (ref : Byte) (cause : Cause) | releaseDone (ref : Byte)
  | textSegment (ref : Byte) (party : List Digit) (index count : Byte) (payload : List Byte)
  | segmentAck (ref index : Byte) (result : AckResult)
  | inboxFull | inboxReady
  | levelReport (entries : List (Half × Half × Int))
  | transferOrder (carrier code activation : Half)
  | transferDone
  | transferFail (cause : Cause)
  deriving DecidableEq, Repr

/-- The frames the part sends on the radio link (R52). -/
inductive LinkFrame where
  | tuneMon (carrier : Half) | measure (code : Half) | listen (slot : FrameNo) (identity : BitVec 64)
  | sendSig (m : AirMsg) | sendSpeech (frame : List Byte) | switch (carrier code : Half) | linkReset | standby
  deriving DecidableEq, Repr

/-- The answers at the processor port (R18, R19). -/
inductive Answer where
  | writeDone (tag : BitVec 4) (err : Bool)
  | readData (tag : BitVec 4) (err : Bool) (data : List Byte)
  deriving DecidableEq, Repr

/-- The accesses issued at the memory port (R38, R41). -/
inductive MemAccess where
  | read (line : Line)
  | drain (line : Line) (bytes : List (Nat × Byte))
  | selfRefreshEnter | selfRefreshExit
  deriving DecidableEq, Repr

/-! ## Reset sequence and outputs -/

/-- Where the warm-reset sequence of R46 stands: not running, draining what was there, draining the teardown writes. -/
inductive ResetPhase where
  | idle | draining | teardown
  deriving DecidableEq, Repr

/-- What the part has put out, oldest first. -/
structure Outputs where
  answers : List Answer
  link : List LinkFrame
  mem : List MemAccess
  deriving DecidableEq, Repr

/-! ## Region decoder -/

/-- The binding state (R4). -/
inductive BindState where
  | unbound | capturing | rejected | bound | unbinding
  deriving DecidableEq, Repr

/-- The captured copy of the anchor (R2): the region table holds base and size of the eight entries, in order. -/
structure Captured where
  version : Word
  table : List (Word × Word)
  capacity : Word
  identity : BitVec 64
  deriving DecidableEq, Repr

/-- The region decoder. -/
structure Binder where
  state : BindState
  straps : BitVec 2
  rejection : Option (Cause × Option Kind)
  captured : Option Captured
  anchorLines : List (Nat × List Byte)
  regionLines : List (Nat × List Byte)
  nextRegion : Nat
  heldEvents : List Event
  unbindTimer : Timer
  noDetach : Bool
  ending : Bool
  deriving DecidableEq, Repr

/-! ## Processor port and memory path -/

/-- Bytes of one line, by position 0 to 63. -/
abbrev LineBytes := List (Nat × Byte)

/-- The origin of a valid byte of the write queue (R22, R23). -/
inductive Origin where
  | host | part
  deriving DecidableEq, Repr

/-- A host write recorded in the request table (R18); `arrived` orders the arrivals at the port. -/
structure HostWrite where
  tag : BitVec 4
  line : Line
  bytes : LineBytes
  arrived : Nat
  deriving DecidableEq, Repr

/-- What the placing block learns at the acceptance of one of its writes. -/
inductive WriteNote where
  | none | bound | rejected | unbound | eventHeader (producer : Byte)
  deriving DecidableEq, Repr

/-- Who wrote a write of the acceptance list. -/
inductive Writer where
  | host (tag : BitVec 4) (arrived : Nat)
  | part (note : WriteNote)
  deriving DecidableEq, Repr

/-- A write of the acceptance list (R21); `joined` orders the joining. -/
structure AccWrite where
  writer : Writer
  line : Line
  bytes : LineBytes
  speech : Bool
  joined : Nat
  deriving DecidableEq, Repr

/-- An internal write a job places or waits to place. -/
structure WriteReq where
  line : Line
  bytes : LineBytes
  speech : Bool
  note : WriteNote
  deriving DecidableEq, Repr

/-- Who a read of the read queue is for (R28, R44). -/
inductive ReadFor where
  | host (tag : BitVec 4)
  | anchor (k : Nat)
  | region (k : Nat)
  | reload (slot : Fin 13)
  | dial (rec : Fin 4)
  | descriptor
  | body (k : Nat)
  | speech
  deriving DecidableEq, Repr

/-- Work that a waiting job does when its turn comes (R21): a write, what the job's rule puts behind the write, or one
of the writes whose contents are taken when they are placed (R151, R175, R194). The held frame's slot write has the header
write of its producer behind it, with the uplink consumer where `up` says that it changed (R150, R151). -/
inductive Act where
  | write (w : WriteReq)
  | read (j : Job) (f : ReadFor) (line : Line)
  | raise (e : Event) (primary : Option Cause)
  | msg (id : Nat) (m : AirMsg)
  | placeEvents
  | writeBack
  | speechHeader (up down : Bool)
  | speechSlot (up : Bool)
  | wakeMark
  deriving DecidableEq, Repr

/-- A job that waits to place a write, since when, and its work in order (R21). -/
structure Wait where
  job : Job
  since : Nat
  acts : List Act
  deriving DecidableEq, Repr

/-- How far a read has come (R18, R28 to R31): waiting, needing DRAM, granted, or composed without DRAM. -/
inductive ReadStatus where
  | waiting
  | needsDram
  | inFlight
  | composed (line : List Byte)
  deriving DecidableEq, Repr

/-- A read of the read queue; `arrived` orders the arrivals into the read path, `since` is when it began to wait for
the arbiter. A `quiet` one is discarded with its error too (R16). -/
structure ReadEntry where
  for_ : ReadFor
  line : Line
  arrived : Nat
  since : Nat
  status : ReadStatus
  discard : Bool
  quiet : Bool := false
  deriving DecidableEq, Repr

/-- A job that waits to place internal reads, since when, and the reads in order (R28). -/
structure ReadWait where
  job : Job
  since : Nat
  reads : List (ReadFor × Line)
  deriving DecidableEq, Repr

/-- A write queue entry (R23); `speech` is the speech mark, with the moment it was set. -/
structure QEntry where
  line : Line
  bytes : List (Nat × (Byte × Origin))
  draining : Bool
  age : Nat
  speech : Option Nat
  deriving DecidableEq, Repr

/-- A stage line (R33). -/
structure StageLine where
  line : Line
  bytes : LineBytes
  pub : Nat
  deriving DecidableEq, Repr

/-- What a publication is for (R33), with what takes effect when it is published. -/
inductive PubKind where
  | camping (slot : Fin 13)
  | reselection (target : Fin 13) (old : Option (Fin 13))
  | handover (target : Fin 13) (old : Option (Fin 13)) (area : Option Half)
  | reestablishment (target : Fin 13) (old : Option (Fin 13)) (area : Option Half)
  deriving DecidableEq, Repr

/-- A publication made and not yet published (R34); `live` until its maker's switch or camping is overtaken (R69, R118). -/
structure Publication where
  number : Nat
  kind : PubKind
  live : Bool
  images : List (Line × LineBytes)
  deriving DecidableEq, Repr

/-- The arbiter's mode (R39). -/
inductive ArbMode where
  | readFirst | drain
  deriving DecidableEq, Repr

/-- DRAM as the arbiter sees it (R41). The exit delay of R49 runs exactly in EXITING. -/
inductive MemState where
  | active | selfRefresh | exiting
  deriving DecidableEq, Repr

/-- An access granted and not completed (R38). -/
inductive Access where
  | read (arrived : Nat) (line : Line)
  | drain (line : Line)
  deriving DecidableEq, Repr

/-- The processor port's holds and the writes they hold (R18, R20). -/
structure Port where
  bindHold : Bool
  sleepHold : Bool
  held : List HostWrite
  deriving DecidableEq, Repr

/-- The memory path. -/
structure MemPath where
  clock : Nat
  accept : List AccWrite
  waits : List Wait
  readWaits : List ReadWait
  reads : List ReadEntry
  queue : List QEntry
  stage : List StageLine
  pubs : List Publication
  nextPub : Nat
  mode : ArbMode
  forced : Bool
  count : Nat
  memState : MemState
  inFlight : List Access
  deriving DecidableEq, Repr

/-! ## Radio link controller -/

/-- A message of the signalling queue, or one waiting outside it; `left` marks one that the end of a shutdown left IN-FLIGHT to
its SIG-SENT or its timeout (R58). -/
structure QMsg where
  id : Nat
  msg : AirMsg
  inFlight : Bool
  place : Nat
  attempts : Nat
  left : Bool := false
  deriving DecidableEq, Repr

/-- The radio link controller (R51 to R60). An outstanding operation of a kind is its response timeout and its request; the block
that handed it is the kind's (`RadioOp.block`, R54). -/
structure Link where
  up : Bool
  unanswered : Nat
  opMeasure : Timer
  opListen : Timer
  opSendSig : Timer
  opSwitch : Timer
  askMeasure : Option LinkFrame
  askListen : Option LinkFrame
  askSendSig : Option LinkFrame
  askSwitch : Option LinkFrame
  queue : List QMsg
  outside : List QMsg
  nextPlace : Nat
  nextId : Nat
  hold : Bool
  recovery : Timer
  refused : List QMsg
  deriving DecidableEq, Repr

/-! ## Connection controller -/

/-- The connection state (R65). -/
inductive ConnState where
  | off | noService | camped | connecting | connected | reestablishing
  deriving DecidableEq, Repr

/-- The connection controller (R65, R67). -/
structure Conn where
  state : ConnState
  purposes : List Purpose
  opening : Option Purpose
  attempts : Nat
  area : Option Half
  awaited : Option Half
  connectTimer : Timer
  areaTimer : Timer
  inactTimer : Timer
  reestTimer : Timer
  shutTimer : Timer
  shutdown : Option Cause
  shutNoDetach : Bool
  camping : Bool
  reqMsg : Option Nat
  reqOld : List Nat
  areaMsg : Option Nat
  detachMsg : Option Nat
  inactTime : Nat
  campThr : Int
  lossThr : Int
  deriving DecidableEq, Repr

/-! ## Cell table and measurement scheduler -/

/-- A sample: its level in dB and the frame it was taken at (R89). -/
structure Sample where
  level : Int
  frame : FrameNo
  deriving DecidableEq, Repr

/-- A cell slot: its captured configuration and its part-owned fields (R83, R84). -/
structure Slot where
  inUse : Bool
  carrier : Half
  code : Half
  area : Half
  samples : List Sample
  missed : Nat
  barred : Bool
  unusable : Bool
  candidate : Bool
  since : Option FrameNo
  deriving DecidableEq, Repr

/-- The phase of the monitor receiver (R92). -/
inductive Phase where
  | idle | tune | settle | sample
  deriving DecidableEq, Repr

/-- The position of a RUNNING round (R97): the serving slot not yet taken; or the slot taken first as the serving slot, if
any, and the last of the others taken, if any. -/
inductive RoundPos where
  | serving
  | after (first last : Option (Fin 13))
  deriving DecidableEq, Repr

/-- The cell table and measurement scheduler. -/
structure Cells where
  slots : Vector Slot 13
  serving : Option (Fin 13)
  epoch : Half
  reload : List (Fin 13)
  reloadRead : Option (Fin 13)
  phase : Phase
  settle : Bool
  measSlot : Option (Fin 13)
  measFirst : Bool
  measStray : Bool
  lastCarrier : Option Half
  residue : Bool
  round : Option RoundPos
  roundWaits : Bool
  roundTimer : Timer
  paced : Bool
  deriving DecidableEq, Repr

/-! ## Mobility controller -/

/-- The switch state (R102). -/
inductive SwState where
  | idle | armed | switching | fallback | rebuilding | committing
  deriving DecidableEq, Repr

/-- The armed order (R102). -/
structure Order where
  target : Fin 13
  carrier : Half
  code : Half
  activation : FrameNo
  deriving DecidableEq, Repr

/-- The kind of a switch (R102). -/
inductive SwKind where
  | handover | reestablishment
  deriving DecidableEq, Repr

/-- The switch record (R102). -/
structure SwRec where
  kind : SwKind
  old : Option (Fin 13)
  target : Fin 13
  deriving DecidableEq, Repr

/-- The mobility controller's bookkeeping of one slot (R102). -/
structure MobSlot where
  hold : Timer
  matured : Bool
  better : Nat
  deriving DecidableEq, Repr

/-- The mobility controller. -/
structure Mob where
  state : SwState
  confirming : Bool
  order : Option Order
  actTimer : Timer
  orderDue : Bool
  switch : Option SwRec
  stale : Bool
  reestWaits : Bool
  slots : Vector MobSlot 13
  report : Bool
  reportTimer : Timer
  resel : Bool
  reportMsg : Option Nat
  confirmMsg : Option Nat
  margin : Nat
  holdLen : Nat
  reselMargin : Nat
  reselRounds : Nat
  deriving DecidableEq, Repr

/-! ## Call controller -/

/-- The state of a call record (R126). -/
inductive CallState where
  | free | dialing | ringingOut | incoming | active | held | releasing
  deriving DecidableEq, Repr

/-- The direction of a call (R125). -/
inductive Direction where
  | none | outgoing | incoming
  deriving DecidableEq, Repr

/-- The requests of a call record's request code (R125, R128). -/
inductive Request where
  | originate | answer | hold | resume | swap | release
  deriving DecidableEq, Repr

/-- The result of a request (R128). -/
inductive ReqResult where
  | none | accepted | refusedState | refusedNoService | refusedActive | refusedUnknown | pending
  deriving DecidableEq, Repr

/-- The setup stage (R125). -/
inductive Stage where
  | notPlaced | placed | sent
  deriving DecidableEq, Repr

/-- The exchange of a record (R125). -/
inductive Exchange where
  | none | hold | resume | swapWait
  deriving DecidableEq, Repr

/-- A call record: the part-owned fields of R125 and what the controller keeps beside them. -/
structure CallRec where
  state : CallState
  ref : Byte
  dir : Direction
  reqCode : Byte
  result : ReqResult
  endCause : Option Cause
  start : FrameNo
  gaps : Nat
  caller : List Digit
  dial : Option (List Digit)
  reading : Bool
  stage : Stage
  exch : Exchange
  partner : Option (Fin 4)
  timer : Timer
  pending : Option Request
  relCause : Option Cause
  setupMsg : Option Nat
  exchMsg : Option Nat
  relMsg : Option Nat
  deriving DecidableEq, Repr

/-- The call controller. -/
structure Calls where
  recs : Vector CallRec 4
  lastRef : Byte
  switchOn : Bool
  gapHeld : Bool
  gapOwed : List (Fin 4)
  deriving DecidableEq, Repr

/-! ## Speech mover -/

/-- The fetch state (R143). -/
inductive Fetch where
  | idle | fetching (slot : Byte) | late
  deriving DecidableEq, Repr

/-- The speech mover. -/
structure Speech where
  upProd : Byte
  upCons : Byte
  downProd : Byte
  downCons : Byte
  speaking : Option (Fin 4)
  switchOn : Bool
  fetch : Fetch
  fetchStale : Bool
  heldFrame : Option (List Byte)
  deriving DecidableEq, Repr

/-! ## Text controller -/

/-- The state of an outbox descriptor (R153). -/
inductive DescState where
  | none | queued | sending | sent | failed | cancelled | interrupted
  deriving DecidableEq, Repr

/-- The part-owned fields of an outbox descriptor (R153). -/
structure Desc where
  state : DescState
  attempts : Nat
  fail : Option Cause
  ref : Byte
  deriving DecidableEq, Repr

/-- The status of the sending text's current segment (R157 to R161): descriptor or body being read, placed (in or
outside the signalling queue), awaiting its acknowledgement, kept for the end of a switch. -/
inductive SegStatus where
  | reading | placed (msg : Nat) | awaiting | kept
  deriving DecidableEq, Repr

/-- The send record. -/
structure Send where
  desc : Fin 16
  ref : Byte
  address : Word
  length : Nat
  dest : List Digit
  lines : List (Nat × List Byte)
  body : List Byte
  count : Nat
  cur : Nat
  status : SegStatus
  ackTimer : Timer
  cancel : Bool
  deriving DecidableEq, Repr

/-- The finish of a reservation (R163). -/
inductive Finish where
  | open_ | complete | abandoned
  deriving DecidableEq, Repr

/-- A reservation (R163). -/
structure Resv where
  ring : Byte
  finish : Finish
  deriving DecidableEq, Repr

/-- A reassembly context (R163); `start` is the frame at which it opened. -/
structure Ctx where
  sender : List Digit
  ref : Byte
  count : Nat
  got : List Nat
  length : Nat
  ring : Byte
  start : FrameNo
  timer : Timer
  deriving DecidableEq, Repr

/-- An incoming TEXT-SEGMENT (R61). -/
structure Segment where
  ref : Byte
  sender : List Digit
  index : Byte
  count : Byte
  payload : List Byte
  deriving DecidableEq, Repr

/-- The text controller. -/
structure Texts where
  descs : Vector Desc 16
  prod : Byte
  retire : Byte
  send : Option Send
  lastRef : Byte
  retryTimer : Timer
  inProd : Byte
  inCons : Byte
  full : Bool
  resv : List Resv
  ctxs : List Ctx
  recent : List (List Digit × Byte)
  switchOn : Bool
  arrivals : List Segment
  deriving DecidableEq, Repr

/-! ## Sleep controller -/

/-- The sleep level (R174). -/
inductive Level where
  | awake | quiescing | deep | roused | resuming
  deriving DecidableEq, Repr

/-- The quiesce phase (R174). -/
inductive QPhase where
  | none | waitingGrant | draining
  deriving DecidableEq, Repr

/-- The possible members of the dirty set (R175). -/
inductive DirtyLine where
  | plan (second : Bool) | header | slot (n : Fin 13)
  deriving DecidableEq, Repr

/-- How far the write-back of R183 (a rouse) or R185 (a resume) has gone: the dirty lines, the pending events, or the
WAKE event. -/
inductive WriteBack where
  | none | lines (resume : Bool) | events (resume : Bool) | wakeEvent
  deriving DecidableEq, Repr

/-- A wake line: its line state (R188) and its parameters (R172); `polIn` and `filtIn` are the polarity and the filter
enable as the last strobe applied them. -/
structure WakeLine where
  raw : Bool
  active : Bool
  change : Nat
  flag : Bool
  enable : Bool
  activeLow : Bool
  edgeLevel : Bool
  filter : Bool
  polIn : Bool
  filtIn : Bool
  deriving DecidableEq, Repr

/-- The sleep controller. -/
structure Sleep where
  level : Level
  phase : QPhase
  quiesceTimer : Timer
  base : Nat
  ceiling : Nat
  cycle : Nat
  quiet : Nat
  rouseTimer : Timer
  reentry : Bool
  busy : Bool
  dirty : List DirtyLine
  wakeCause : Option Cause
  wakeLine : Nat
  last : Option Cause
  wake : Bool
  writeBack : WriteBack
  wakeAfter : Option Nat
  lines : Vector WakeLine 4
  longPress : Timer
  answerMap : Bool
  lineSince : Bool
  deriving DecidableEq, Repr

/-! ## Event writer -/

/-- A header write the event writer owes (R194): a new producer, a new overflow flag. -/
structure HeaderOwed where
  producer : Option Byte
  flag : Option Bool
  deriving DecidableEq, Repr

/-- The event writer (R192). -/
structure Events where
  running : Bool
  producer : Byte
  consumer : Byte
  published : Byte
  overflow : Bool
  lossPending : Bool
  pending : List Event
  owed : Option HeaderOwed
  handed : Bool
  deriving DecidableEq, Repr

/-! ## The whole part -/

/-- The state of the part and the queue of commands that wait. -/
structure State where
  pending : List Instr
  resetN : Bool
  resetPhase : ResetPhase
  teardown : List WriteReq
  out : Outputs
  frame : FrameNo
  bind : Binder
  port : Port
  mem : MemPath
  link : Link
  conn : Conn
  cells : Cells
  mob : Mob
  calls : Calls
  speech : Speech
  texts : Texts
  sleep : Sleep
  events : Events
  deriving DecidableEq, Repr

/-! ## Power-on values -/

/-- The region decoder after power-on reset (R4), with the straps as sampled. -/
def Binder.initial (straps : BitVec 2) : Binder :=
  { state := .unbound, straps := straps, rejection := none, captured := none, anchorLines := [], regionLines := [],
    nextRegion := 0, heldEvents := [], unbindTimer := .stopped, noDetach := false, ending := false }

/-- The processor port after power-on reset (R45). -/
def Port.initial : Port := { bindHold := false, sleepHold := false, held := [] }

/-- The memory path after power-on reset (R45). -/
def MemPath.initial : MemPath :=
  { clock := 0, accept := [], waits := [], readWaits := [], reads := [], queue := [], stage := [], pubs := [],
    nextPub := 0, mode := .readFirst, forced := false, count := 0, memState := .active, inFlight := [] }

/-- The radio link controller after power-on reset (R63). -/
def Link.initial : Link :=
  { up := true, unanswered := 0, opMeasure := .stopped, opListen := .stopped, opSendSig := .stopped,
    opSwitch := .stopped, askMeasure := none, askListen := none, askSendSig := none, askSwitch := none, queue := [],
    outside := [], nextPlace := 0, nextId := 0, hold := false, recovery := .stopped, refused := [] }

/-- The connection controller after power-on reset (R82, R67). -/
def Conn.initial : Conn :=
  { state := .off, purposes := [], opening := none, attempts := 0, area := none, awaited := none,
    connectTimer := .stopped, areaTimer := .stopped, inactTimer := .stopped, reestTimer := .stopped,
    shutTimer := .stopped, shutdown := none, shutNoDetach := false, camping := false, reqMsg := none, reqOld := [], areaMsg := none,
    detachMsg := none, inactTime := 1000, campThr := -105, lossThr := -115 }

/-- A cell slot after power-on reset (R84, R101). -/
def Slot.initial : Slot :=
  { inUse := false, carrier := 0, code := 0, area := 0, samples := [], missed := 0, barred := false, unusable := false,
    candidate := false, since := none }

/-- The cell table after power-on reset (R101, R92). -/
def Cells.initial : Cells :=
  { slots := Vector.replicate 13 Slot.initial, serving := none, epoch := 0, reload := [], reloadRead := none,
    phase := .idle, settle := false, measSlot := none, measFirst := false, measStray := false, lastCarrier := none,
    residue := false, round := none, roundWaits := false, roundTimer := .stopped, paced := false }

/-- The mobility controller after power-on reset (R124, R103). -/
def Mob.initial : Mob :=
  { state := .idle, confirming := false, order := none, actTimer := .stopped, orderDue := false, switch := none,
    stale := false, reestWaits := false,
    slots := Vector.replicate 13 { hold := .stopped, matured := false, better := 0 },
    report := false, reportTimer := .stopped, resel := false, reportMsg := none, confirmMsg := none, margin := 3,
    holdLen := 50, reselMargin := 4, reselRounds := 2 }

/-- A call record after power-on reset (R142). -/
def CallRec.initial : CallRec :=
  { state := .free, ref := 0, dir := .none, reqCode := 0, result := .none, endCause := none, start := 0, gaps := 0,
    caller := [], dial := none, reading := false, stage := .notPlaced, exch := .none, partner := none,
    timer := .stopped, pending := none, relCause := none, setupMsg := none, exchMsg := none, relMsg := none }

/-- The call controller after power-on reset (R142). -/
def Calls.initial : Calls :=
  { recs := Vector.replicate 4 CallRec.initial, lastRef := 0, switchOn := false, gapHeld := false, gapOwed := [] }

/-- The speech mover after power-on reset (R152). -/
def Speech.initial : Speech :=
  { upProd := 0, upCons := 0, downProd := 0, downCons := 0, speaking := none, switchOn := false, fetch := .idle,
    fetchStale := false, heldFrame := none }

/-- The text controller after power-on reset (R171). -/
def Texts.initial : Texts :=
  { descs := Vector.replicate 16 { state := .none, attempts := 0, fail := none, ref := 0 }, prod := 0, retire := 0,
    send := none, lastRef := 255, retryTimer := .stopped, inProd := 0, inCons := 0, full := false, resv := [],
    ctxs := [], recent := [], switchOn := false, arrivals := [] }

/-- A wake line after power-on reset (R172, R188). -/
def WakeLine.initial : WakeLine :=
  { raw := false, active := false, change := 0, flag := false, enable := false, activeLow := false, edgeLevel := false,
    filter := true, polIn := false, filtIn := true }

/-- The sleep controller after power-on reset (R191, R172). -/
def Sleep.initial : Sleep :=
  { level := .awake, phase := .none, quiesceTimer := .stopped, base := 64, ceiling := 256, cycle := 64, quiet := 0,
    rouseTimer := .stopped, reentry := false, busy := false, dirty := [], wakeCause := none, wakeLine := 0,
    last := none, wake := false, writeBack := .none, wakeAfter := none,
    lines := Vector.replicate 4 WakeLine.initial, longPress := .stopped, answerMap := false, lineSince := false }

/-- The event writer after power-on reset (R192). -/
def Events.initial : Events :=
  { running := false, producer := 0, consumer := 0, published := 0, overflow := false, lossPending := false,
    pending := [], owed := none, handed := false }

/-- The part right after power-on reset with the straps as given (R1, R4, R45, R63, R82, R101, R124, R142, R152, R171,
R191, R192). -/
def State.powerOn (straps : BitVec 2) : State :=
  { pending := [], resetN := false, resetPhase := .idle, teardown := [], out := { answers := [], link := [], mem := [] },
    frame := 0, bind := Binder.initial straps, port := Port.initial, mem := MemPath.initial, link := Link.initial,
    conn := Conn.initial, cells := Cells.initial, mob := Mob.initial, calls := Calls.initial,
    speech := Speech.initial, texts := Texts.initial, sleep := Sleep.initial, events := Events.initial }

/-- The machine right after reset: both straps low (DESIGN CHOICE, log entry 1). -/
def State.reset : State := State.powerOn 0

end Sys2Proof.Machine
end

