-- ==== Sys2Proof/Machine/Bytes.lean ====
section
/-! DEFINITION. Bytes of a line, little-endian fields, digit strings, frame numbers and frame timers. -/

namespace Sys2Proof.Machine

/-! ## Bytes of a line, by position -/

/-- What a set of bytes holds at a position. -/
def bytesGet {α : Type} (m : List (Nat × α)) (k : Nat) : Option α :=
  (m.find? (fun p => p.1 == k)).map (·.2)

/-- The set covers a position. -/
def bytesCover {α : Type} (m : List (Nat × α)) (k : Nat) : Bool := m.any (fun p => p.1 == k)

/-- Newer bytes laid over older ones (R24, R35). -/
def bytesOver {α : Type} (new old : List (Nat × α)) : List (Nat × α) :=
  new ++ old.filter (fun p => !bytesCover new p.1)

/-- The bytes at positions the other set does not cover (R37). -/
def bytesWithout {α β : Type} (m : List (Nat × α)) (off : List (Nat × β)) : List (Nat × α) :=
  m.filter (fun p => !bytesCover off p.1)

/-- Two sets together cover all 64 positions (R31). -/
def bytesFull {α β : Type} (a : List (Nat × α)) (b : List (Nat × β)) : Bool :=
  (List.range 64).all (fun k => bytesCover a k || bytesCover b k)

/-- Bytes at consecutive positions. -/
def bytesAt (start : Nat) : List Byte → LineBytes
  | [] => []
  | b :: bs => (start, b) :: bytesAt (start + 1) bs

/-! ## Order -/

/-- A list in order, equal elements in their old order. -/
def insertBy {α : Type} (before : α → α → Bool) (x : α) : List α → List α
  | [] => [x]
  | y :: ys => if before x y then x :: y :: ys else y :: insertBy before x ys

def sortBy {α : Type} (before : α → α → Bool) : List α → List α
  | [] => []
  | x :: xs => insertBy before x (sortBy before xs)

/-! ## Little-endian fields (R197) -/

def le16 (v : Half) : List Byte := [v.extractLsb' 0 8, v.extractLsb' 8 8]

def le32 (v : Word) : List Byte :=
  [v.extractLsb' 0 8, v.extractLsb' 8 8, v.extractLsb' 16 8, v.extractLsb' 24 8]

def le64 (v : BitVec 64) : List Byte := le32 (v.extractLsb' 0 32) ++ le32 (v.extractLsb' 32 32)

def byteOf (l : List Byte) (k : Nat) : Byte := l.getD k 0

def halfOf (l : List Byte) (k : Nat) : Half := byteOf l (k + 1) ++ byteOf l k

def wordOf (l : List Byte) (k : Nat) : Word := halfOf l (k + 2) ++ halfOf l k

def quadOf (l : List Byte) (k : Nat) : BitVec 64 := wordOf l (k + 4) ++ wordOf l k

/-- A level or a threshold as its two-byte field (R197). -/
def levelCode (l : Int) : Half := BitVec.ofInt 16 l

/-- A frame of exactly n bytes, short data read as 0 (a well-formed command carries n bytes). -/
def fitTo (n : Nat) (l : List Byte) : List Byte := (List.range n).map (byteOf l)

/-! ## Digit strings (R197) -/

/-- Digit i of a string, 0 beyond its length. -/
def digitOf (d : List Digit) (i : Nat) : Digit := d.getD i 0

/-- The 13 bytes of a digit string: the length, then two digits to a byte, the earlier in the lower half. -/
def digitsBytes (d : List Digit) : List Byte :=
  BitVec.ofNat 8 d.length :: (List.range 12).map (fun j => digitOf d (2 * j + 1) ++ digitOf d (2 * j))

/-- The digit string in the 13 bytes from a position, if its length is at most 24 and each digit within it is a digit. -/
def digitsOf (l : List Byte) (k : Nat) : Option (List Digit) :=
  let n := (byteOf l k).toNat
  let d := (List.range n).map fun i =>
    let b := byteOf l (k + 1 + i / 2)
    if i % 2 = 0 then b.extractLsb' 0 4 else b.extractLsb' 4 4
  if n ≤ 24 ∧ d.all (fun x => x.toNat < 12) then some d else none

/-- A digit string whose length lies in a range and whose digits are digits. -/
def digitsValid (lo : Nat) (d : List Digit) : Bool :=
  lo ≤ d.length && d.length ≤ 24 && d.all (fun x => x.toNat < 12)

/-! ## Frame numbers (Introduction, Conventions) -/

/-- Frame a is not later than frame b. -/
def notLater (a b : FrameNo) : Bool := (b - a).toNat < 32768

/-- A frame has passed: not later than the current frame and different from it. -/
def passed (f now : FrameNo) : Bool := notLater f now && f != now

/-! ## Ring indices -/

/-- The occupancy of a ring (Introduction, Conventions). -/
def occupancy (producer consumer : Byte) : Nat := (producer - consumer).toNat

/-! ## Frame timers (R48) -/

/-- One strobe taken by a timer. -/
def Timer.tick : Timer → Timer
  | .running n => if n ≤ 1 then .due else .running (n - 1)
  | t => t

/-- The timer has been started and neither cancelled nor its expiry taken. -/
def Timer.runs : Timer → Bool
  | .stopped => false
  | _ => true

end Sys2Proof.Machine
end

