-- ==== Sys2Proof/Machine/Operands.lean ====
section
/-! DEFINITION. The codes of named values in records, frames and messages (formats chapter), and the operand forms of
commands that carry a code. -/

namespace Sys2Proof.Machine

def flagCode (b : Bool) : Byte := if b then 1 else 0

/-- The causes' one code space (formats chapter, Causes). -/
def Cause.code : Cause → Byte
  | .locl => 0x01 | .remote => 0x02 | .busy => 0x03 | .noAnswer => 0x04 | .unanswered => 0x05
  | .noConnection => 0x06 | .radioLoss => 0x07 | .radioFault => 0x08 | .shutdown => 0x09 | .card => 0x0A
  | .unbind => 0x0B | .reset => 0x0C | .badNumber => 0x0D | .memory => 0x0E | .badLength => 0x0F | .noAck => 0x10
  | .inboxFull => 0x11 | .holdFailed => 0x12 | .resumeFailed => 0x13 | .superseded => 0x14 | .unknown => 0x15
  | .sync => 0x16 | .busyCall => 0x17 | .busyText => 0x18 | .busyRadio => 0x19 | .noGrant => 0x1A
  | .activity => 0x1B | .wake => 0x1C | .pageCall => 0x1D | .textArrived => 0x1E | .line => 0x1F
  | .serviceLost => 0x20 | .areaRejected => 0x21 | .offer => 0x22 | .host => 0x23 | .badVersion => 0x24
  | .badCapacity => 0x25 | .badBase => 0x26 | .badSize => 0x27 | .overlap => 0x28

/-- A cause or NONE. -/
def causeCode : Option Cause → Byte
  | none => 0
  | some c => c.code

/-- The call end cause with a code; a RELEASE's other codes are taken as REMOTE (R61, R199). -/
def endCauseOf (b : Byte) : Cause :=
  match b.toNat with
  | 1 => .locl | 2 => .remote | 3 => .busy | 4 => .noAnswer | 5 => .unanswered | 6 => .noConnection
  | 7 => .radioLoss | 8 => .radioFault | 9 => .shutdown | 10 => .card | 11 => .unbind | 12 => .reset
  | 13 => .badNumber | 14 => .memory | _ => .remote

/-- Region kinds, PLAN 1 to TEXT BODIES 8, and ANCHOR 9. -/
def Kind.code : Kind → Byte
  | .plan => 1 | .cell => 2 | .call => 3 | .speech => 4 | .outbox => 5 | .inbox => 6 | .event => 7
  | .textBodies => 8 | .anchor => 9

/-- The jobs as subject groups (formats chapter, Event ring); the region decoder has no code. -/
def Job.code : Job → Byte
  | .binder => 0 | .conn => 0x10 | .cells => 0x11 | .mob => 0x12 | .calls => 0x13 | .speech => 0x14
  | .texts => 0x15 | .sleep => 0x16 | .events => 0x17 | .link => 0x18

def EventKind.code : EventKind → Byte
  | .callState => 0x01 | .textDone => 0x02 | .textArrived => 0x03 | .inboxAbandoned => 0x04
  | .outboxOverrun => 0x05 | .handoverDone => 0x06 | .handoverFailed => 0x07 | .transferRefused => 0x08
  | .reselected => 0x09 | .areaUpdated => 0x0A | .areaRejected => 0x0B | .serviceFound => 0x0C
  | .serviceLost => 0x0D | .radioFault => 0x0E | .radioRecovered => 0x0F | .line => 0x10 | .shutdown => 0x11
  | .sleepRefused => 0x12 | .sleepAbandoned => 0x13 | .wake => 0x14 | .memoryError => 0x15
  | .ownershipBreach => 0x16 | .configIgnored => 0x17

def EventClass.code : EventClass → Byte
  | .none => 0 | .primary => 1 | .secondary => 2

def RadioOp.code : RadioOp → Byte
  | .measure => 1 | .listen => 2 | .sendSig => 3 | .switch => 4

def BindState.statusCode : BindState → Byte
  | .bound => 1 | .rejected => 2 | .unbinding => 3 | .unbound => 0 | .capturing => 0

def ConnState.code : ConnState → Byte
  | .off => 0 | .noService => 1 | .camped => 2 | .connecting => 3 | .connected => 4 | .reestablishing => 5

def SwState.code : SwState → Byte
  | .idle => 0 | .armed => 1 | .switching => 2 | .fallback => 3 | .rebuilding => 4 | .committing => 5

def Level.code : Level → Byte
  | .awake => 0 | .quiescing => 1 | .deep => 2 | .roused => 3 | .resuming => 4

def CallState.code : CallState → Byte
  | .free => 0 | .dialing => 1 | .ringingOut => 2 | .incoming => 3 | .active => 4 | .held => 5 | .releasing => 6

def Direction.code : Direction → Byte
  | .none => 0 | .outgoing => 1 | .incoming => 2

def Request.code : Request → Byte
  | .originate => 1 | .answer => 2 | .hold => 3 | .resume => 4 | .swap => 5 | .release => 6

def ReqResult.code : ReqResult → Byte
  | .none => 0 | .accepted => 1 | .refusedState => 2 | .refusedNoService => 3 | .refusedActive => 4
  | .refusedUnknown => 5 | .pending => 6

def DescState.code : DescState → Byte
  | .none => 0 | .queued => 1 | .sending => 2 | .sent => 3 | .failed => 4 | .cancelled => 5 | .interrupted => 6

def Purpose.code : Purpose → Byte
  | .callOut => 1 | .callIn => 2 | .textOut => 3 | .textIn => 4 | .area => 5

/-- The all-ones value of a slot number that is NONE (R197). -/
def slotCode : Option (Fin 13) → Byte
  | none => 0xFF
  | some n => BitVec.ofNat 8 n.val

/-- A four-byte field that holds a frame or an area, NONE as all ones (R197). -/
def optWord : Option Half → Word
  | none => 0xFFFFFFFF
  | some v => v.setWidth 32

/-! ## Operands that carry a code -/

/-- A two-valued operand, codes 0 and 1 (R197); none where the value has no code. -/
def boolOf (v : Nat) : Option Bool :=
  if v = 0 then some false else if v = 1 then some true else none

/-- A number in a range (R67, R103). -/
def natIn (lo hi v : Nat) : Option Nat := if lo ≤ v ∧ v ≤ hi then some v else none

/-- A level, a threshold or a MEASURE-DONE level in −140 to −30 (R53, R67). -/
def levelIn (v : Half) : Option Int :=
  let l := v.toInt
  if -140 ≤ l ∧ l ≤ -30 then some l else none

/-- A listen cycle (R172). -/
def cycleIn (v : Half) : Option Nat :=
  if v.toNat = 64 ∨ v.toNat = 128 ∨ v.toNat = 256 ∨ v.toNat = 512 then some v.toNat else none

/-- The request of a request code; none for NONE (0) and the unknown codes (R128). -/
def requestOf (c : Byte) : Option Request :=
  match c.toNat with
  | 1 => some .originate | 2 => some .answer | 3 => some .hold | 4 => some .resume | 5 => some .swap
  | 6 => some .release | _ => none

/-- The purpose with a code. -/
def purposeOf (c : Byte) : Option Purpose :=
  match c.toNat with
  | 1 => some .callOut | 2 => some .callIn | 3 => some .textOut | 4 => some .textIn | 5 => some .area | _ => none

/-! ## Offsets of the words in their records, the detail of a CONFIG-IGNORED (formats chapter) -/

def ConnParam.offset : ConnParam → Nat
  | .inactivity => 0x44 | .campThreshold => 0x4C | .lossThreshold => 0x4E

def MobParam.offset : MobParam → Nat
  | .handoverMargin => 0x48 | .triggerHold => 0x46 | .reselectMargin => 0x49 | .reselectRounds => 0x4A

def CellWord.offset : CellWord → Nat
  | .inUse => 0x00 | .carrier => 0x02 | .cellCode => 0x04 | .areaCode => 0x06

def SleepParam.offset : SleepParam → Nat
  | .base => 0x40 | .ceiling => 0x42 | .wakeEnable l => 0x08 + l.val | .polarity l => 0x0C + l.val
  | .mode l => 0x10 + l.val | .filter l => 0x14 + l.val | .answerMap => 0x18

end Sys2Proof.Machine
end

