-- ==== Sys2Proof/Machine/Formats.lean ====
section
/-! DEFINITION. Where records lie, who owns each byte, which words are watched, and the images the part writes (R3, R12 to
R14, R197), with the radio frames and the air messages (R198, R199). -/

namespace Sys2Proof.Machine

/-! ## Regions -/

/-- The four anchor addresses, as line numbers (R1). -/
def anchorLine (straps : BitVec 2) : Line :=
  match straps.toNat with
  | 0 => 0x0FF00000 / 64
  | 1 => 0x1FF00000 / 64
  | 2 => 0x3FF00000 / 64
  | _ => 0x7FF00000 / 64

/-- The seven regions with records, in the order of R3. -/
def regionKinds : List Kind := [.plan, .cell, .call, .speech, .outbox, .inbox, .event]

/-- A region's place in the region table. -/
def Kind.index : Kind → Nat
  | .plan => 0 | .cell => 1 | .call => 2 | .speech => 3 | .outbox => 4 | .inbox => 5 | .event => 6
  | .textBodies => 7 | .anchor => 8

/-- Required sizes in lines, for an event capacity (R3). -/
def Kind.lines (capacity : Nat) : Kind → Nat
  | .plan => 2 | .cell => 14 | .call => 4 | .speech => 17 | .outbox => 9 | .inbox => 97
  | .event => 1 + capacity / 4 | .textBodies => 0 | .anchor => 4

def Captured.base (c : Captured) (k : Kind) : Word := (c.table.getD k.index (0, 0)).1
def Captured.size (c : Captured) (k : Kind) : Word := (c.table.getD k.index (0, 0)).2

/-- The event capacity in force; 16 where no copy is captured (never read then). -/
def Binder.capacity (b : Binder) : Nat := (b.captured.map (·.capacity.toNat)).getD 16

/-- The first line of a region or of the anchor block. -/
def Binder.firstLine (b : Binder) : Kind → Line
  | .anchor => anchorLine b.straps
  | k => (b.captured.map (fun c => (c.base k).toNat / 64)).getD 0

/-- Line i of a region or of the anchor block. -/
def Binder.line (b : Binder) (k : Kind) (i : Nat) : Line := b.firstLine k + i

/-- The region (or the anchor block) a line lies in, and which line of it it is (R11). -/
def Binder.locate (b : Binder) (line : Line) : Option (Kind × Nat) :=
  let ks := Kind.anchor :: (if b.captured.isSome then regionKinds else [])
  match ks.find? (fun k => b.firstLine k ≤ line && line < b.firstLine k + k.lines b.capacity) with
  | some k => some (k, line - b.firstLine k)
  | none => none

/-! ## Owners (R12) -/

/-- The part owns the byte at a position of a line of a region (R197's tables; a slot of the inbox wholly, R163). -/
def partOwned (k : Kind) (i pos : Nat) : Bool :=
  match k with
  | .anchor => i == 2 && pos < 3
  | .plan => if i = 0 then 0x20 ≤ pos && pos < 0x28 else 0x10 ≤ pos && pos < 0x1B
  | .cell =>
    if i = 0 then pos == 0 || pos == 2 || pos == 3
    else 0x10 ≤ pos && pos < 0x30 && pos != 0x15 && !(0x1C ≤ pos && pos < 0x20)
  | .call => 0x10 ≤ pos && pos < 0x27
  | .speech => if i = 0 then pos == 1 || pos == 2 else 9 ≤ i
  | .outbox => if i = 0 then pos == 1 else 0x18 ≤ pos % 32 && pos % 32 < 0x1C
  | .inbox => if i = 0 then pos == 0 || pos == 2 else true
  | .event => if i = 0 then pos == 0 || pos == 2 || pos == 3 else pos % 16 != 3 && pos % 16 != 7
  | .textBodies => false

/-- The record index and the offset within the record of a byte (formats chapter, Event ring). A downlink speech slot
gives its own number 0 to 7. -/
def recordOf (k : Kind) (i pos : Nat) : Half × Nat :=
  match k with
  | .anchor | .plan => (0, 64 * i + pos)
  | .call => (BitVec.ofNat 16 i, pos)
  | .textBodies => (0, 0)
  | .cell => if i = 0 then (0xFFFF, pos) else (BitVec.ofNat 16 (i - 1), pos)
  | .speech => if i = 0 then (0xFFFF, pos) else (BitVec.ofNat 16 ((i - 1) % 8), pos)
  | .outbox => if i = 0 then (0xFFFF, pos) else (BitVec.ofNat 16 (2 * (i - 1) + pos / 32), pos % 32)
  | .inbox =>
    if i = 0 then (0xFFFF, pos) else (BitVec.ofNat 16 ((i - 1) / 12), 64 * ((i - 1) % 12) + pos)
  | .event => if i = 0 then (0xFFFF, pos) else (BitVec.ofNat 16 (4 * (i - 1) + pos / 16), pos % 16)

/-- The frozen fields (R14, formats chapter). -/
def frozen (k : Kind) (i pos : Nat) : Bool :=
  match k with
  | .anchor => (i == 0 && (pos < 4 || (8 ≤ pos && pos < 12) || (0x10 ≤ pos && pos < 0x18))) || i == 1
  | _ => false

/-! ## Watched words (R13) -/

/-- A watched word: its first byte, its width in bytes, and the command that is the notice of a value of it. -/
abbrev Watched := Nat × Nat × (Word → Instr)

/-- The low byte and the low half of a notice's value. -/
def lowByte (v : Word) : Byte := v.setWidth 8
def lowHalf (v : Word) : Half := v.setWidth 16

/-- The notice of a call record's request code; the code NONE gives none (R128). -/
def requestNotice (r : Fin 4) (code : Byte) : Instr :=
  match requestOf code with
  | some .originate => .requestOriginate r
  | some .answer => .requestAnswer r
  | some .hold => .requestHold r
  | some .resume => .requestResume r
  | some .swap => .requestSwap r
  | some .release => .requestRelease r
  | none => .requestUnknown r code

/-- A per-line word's four copies (formats chapter, Plan record). -/
def perLine (start : Nat) (f : Fin 4 → Word → Instr) : List Watched :=
  (List.finRange 4).map (fun l => (start + l.val, 1, f l))

/-- The watched words of the first and of the second plan line. -/
def planWatched0 : List Watched :=
  [(0, 1, fun v => .radioRequest (lowByte v)), (1, 1, fun v => .sleepRequest (lowByte v)),
    (2, 1, fun v => .stopGrant (lowByte v)), (3, 1, fun v => .wakeAck (lowByte v))] ++
  perLine 0x04 (fun l v => .lineAcknowledge l (lowByte v)) ++
  perLine 0x08 (fun l v => .sleepParameter (.wakeEnable l) (lowHalf v)) ++
  perLine 0x0C (fun l v => .sleepParameter (.polarity l) (lowHalf v)) ++
  perLine 0x10 (fun l v => .sleepParameter (.mode l) (lowHalf v)) ++
  perLine 0x14 (fun l v => .sleepParameter (.filter l) (lowHalf v)) ++
  [(0x18, 1, fun v => .sleepParameter .answerMap (lowHalf v))]

def planWatched1 : List Watched :=
  [(0x00, 2, fun v => .sleepParameter .base (lowHalf v)), (0x02, 2, fun v => .sleepParameter .ceiling (lowHalf v)),
    (0x04, 2, fun v => .connectionParameter .inactivity (lowHalf v)),
    (0x06, 2, fun v => .mobilityParameter .triggerHold (lowHalf v)),
    (0x08, 1, fun v => .mobilityParameter .handoverMargin (lowHalf v)),
    (0x09, 1, fun v => .mobilityParameter .reselectMargin (lowHalf v)),
    (0x0A, 1, fun v => .mobilityParameter .reselectRounds (lowHalf v)),
    (0x0C, 2, fun v => .connectionParameter .campThreshold (lowHalf v)),
    (0x0E, 2, fun v => .connectionParameter .lossThreshold (lowHalf v))]

/-- The four configuration words of a cell slot. -/
def slotWatched (n : Fin 13) : List Watched :=
  [(0, 1, fun v => .cellConfigurationNotice n .inUse (lowHalf v)),
    (2, 2, fun v => .cellConfigurationNotice n .carrier (lowHalf v)),
    (4, 2, fun v => .cellConfigurationNotice n .cellCode (lowHalf v)),
    (6, 2, fun v => .cellConfigurationNotice n .areaCode (lowHalf v))]

/-- The watched words of a line of a region, in ascending address order (R13). -/
def watchedWords (k : Kind) (i : Nat) : List Watched :=
  match k with
  | .plan => if i = 0 then planWatched0 else planWatched1
  | .cell => if h : 1 ≤ i ∧ i < 14 then slotWatched ⟨i - 1, by omega⟩ else []
  | .call => if h : i < 4 then [(0, 1, fun v => requestNotice ⟨i, h⟩ (lowByte v))] else []
  | .speech =>
    if i = 0 then [(0, 1, fun v => .uplinkProducerWrite (lowByte v)),
      (3, 1, fun v => .downlinkConsumerWrite (lowByte v))] else []
  | .outbox =>
    if i = 0 then [(0, 1, fun v => .outboxProducerWrite (lowByte v))]
    else if h : i < 9 then
      [(0x06, 1, fun v => .cancelWordWrite ⟨2 * (i - 1), by omega⟩ (lowByte v)),
        (0x26, 1, fun v => .cancelWordWrite ⟨2 * (i - 1) + 1, by omega⟩ (lowByte v))]
    else []
  | .inbox => if i = 0 then [(1, 1, fun v => .inboxConsumerWrite (lowByte v))] else []
  | .event => if i = 0 then [(1, 1, fun v => .eventConsumerWrite (lowByte v))] else []
  | .anchor | .textBodies => []

/-- The positions of the enable word in the anchor's first line. -/
def enableStart : Nat := 4

/-- A write covers all of a field. -/
def coversAll (m : LineBytes) (start width : Nat) : Bool := (List.range width).all (fun k => bytesCover m (start + k))

/-- A write covers some byte of a field. -/
def coversSome (m : LineBytes) (start width : Nat) : Bool := (List.range width).any (fun k => bytesCover m (start + k))

/-- The little-endian value a write gives a field of up to four bytes. -/
def fieldValue (m : LineBytes) (start width : Nat) : Word :=
  BitVec.ofNat 32 (((List.range width).map (fun k => ((bytesGet m (start + k)).getD 0).toNat * 256 ^ k)).sum)

/-! ## Part-owned images (R197) -/

/-- Part-owned fields of one line: position and bytes. -/
abbrev Fields := List (Nat × List Byte)

def fieldBytes (f : Fields) : LineBytes := f.flatMap (fun p => bytesAt p.1 p.2)

/-- The bytes of the fields that changed (R197: a part write covers the bytes of the part-owned fields it changes). -/
def changedBytes (old new : Fields) : LineBytes := fieldBytes (new.filter (fun p => !old.contains p))

/-- The anchor status (R2). -/
def statusFields (st : Byte) (rej : Option (Cause × Option Kind)) : Fields :=
  [(0, [st]), (1, [causeCode (rej.map (·.1))]), (2, [((rej.bind (·.2)).map Kind.code).getD 0])]

/-- First plan line: line flags and line levels. -/
def planFields0 (s : State) : Fields :=
  (List.finRange 4).flatMap (fun l =>
    [(0x20 + l.val, [flagCode (s.sleep.lines[l]).flag]), (0x24 + l.val, [flagCode (s.sleep.lines[l]).active])])

/-- Second plan line: the part's status. -/
def planFields1 (s : State) : Fields :=
  [(0x10, [s.conn.state.code]), (0x11, [s.sleep.level.code]), (0x12, le16 (BitVec.ofNat 16 s.sleep.cycle)),
    (0x14, le32 (optWord s.conn.area)), (0x18, [causeCode s.sleep.wakeCause]),
    (0x19, [BitVec.ofNat 8 (if s.sleep.wakeCause = some .line then s.sleep.wakeLine else 0)]),
    (0x1A, [causeCode s.sleep.last])]

def cellHeaderFields (serving : Option (Fin 13)) (epoch : Half) : Fields :=
  [(0, [slotCode serving]), (2, le16 epoch)]

/-- The mean of a sample list's levels, rounded down; none is UNMEASURED (R89). -/
def filteredLevel (l : List Sample) : Option Int :=
  if l.isEmpty then none else some ((l.map Sample.level).sum.fdiv l.length)

def Slot.filtered (x : Slot) : Option Int := filteredLevel x.samples

def sampleBytes : Option Sample → List Byte
  | none => [0, 0, 0, 0]
  | some p => le16 (levelCode p.level) ++ le16 p.frame

/-- Every part-owned field of a cell slot; sample places from the count up are zeros. -/
def slotFields (x : Slot) : Fields :=
  [(0x10, [BitVec.ofNat 8 x.samples.length]), (0x11, [BitVec.ofNat 8 x.missed]), (0x12, [flagCode x.barred]),
    (0x13, [flagCode x.unusable]), (0x14, [flagCode x.candidate]), (0x16, le16 ((x.filtered.map levelCode).getD 0)),
    (0x18, le32 (optWord x.since))] ++
  (List.range 4).map (fun k => (0x20 + 4 * k, sampleBytes x.samples[k]?))

/-- Every part-owned field of a call record (R125). -/
def callFields (r : CallRec) : Fields :=
  [(0x10, [r.state.code]), (0x11, [r.ref]), (0x12, [r.dir.code]), (0x13, [r.reqCode]), (0x14, [r.result.code]),
    (0x15, [causeCode r.endCause]), (0x16, le16 r.start), (0x18, le16 (BitVec.ofNat 16 r.gaps)),
    (0x1A, digitsBytes r.caller)]

/-- Part-owned fields of a descriptor; they start at 32 × (n modulo 2) of its line (R153). -/
def descFields (n : Nat) (d : Desc) : Fields :=
  let o := 32 * (n % 2)
  [(o + 0x18, [d.state.code]), (o + 0x19, [BitVec.ofNat 8 d.attempts]), (o + 0x1A, [causeCode d.fail]),
    (o + 0x1B, [d.ref])]

/-- The line of a descriptor in its region. -/
def descLine (n : Nat) : Nat := 1 + n / 2

/-- Status of an inbox slot (R163). -/
def resvStatus : Finish → Byte
  | .open_ => 1 | .complete => 2 | .abandoned => 3

/-- A slot header of the inbox (R163). -/
def inboxSlotFields (status ref count : Byte) (got : List Nat) (length : Nat) (sender : List Digit) (start : FrameNo) :
    Fields :=
  [(0, [status]), (1, [ref]), (2, [count])] ++
  (List.range 4).map (fun i => (3 + i, [flagCode (got.contains i)])) ++
  [(8, le16 (BitVec.ofNat 16 length)), (0x0A, digitsBytes sender), (0x18, le16 start)]

/-- The line of an inbox slot's header in its region, for a ring index. -/
def inboxSlotLine (ring : Byte) : Nat := 1 + 12 * (ring.toNat % 8)

/-- The bytes of an event record (R192). -/
def eventFields (o : Nat) (e : Event) : Fields :=
  [(o, [e.kind.code]), (o + 1, [e.cls.code]), (o + 2, [flagCode e.loss]), (o + 4, le16 e.frame), (o + 6, [e.group]),
    (o + 8, le16 e.subject), (o + 10, [e.detA]), (o + 11, [e.detB]), (o + 12, le32 e.value)]

/-- Zeros over the part-owned bytes of a line. -/
def partZeros (k : Kind) (i : Nat) : LineBytes :=
  ((List.range 64).filter (partOwned k i)).map (fun p => (p, (0 : Byte)))

/-! ## Air messages (R61, R199) -/

def le16ofNat (n : Nat) : List Byte := le16 (BitVec.ofNat 16 n)

/-- The bytes of an air message the part sends. -/
def airBytes : AirMsg → List Byte
  | .connectRequest p => [0x01, p.code]
  | .connectGrant => [0x02]
  | .connectReject => [0x03]
  | .leave => [0x04]
  | .detach => [0x05]
  | .reestablish c => 0x06 :: le16 c
  | .reestablishAccept => [0x07]
  | .areaUpdate a => 0x08 :: le16 a
  | .areaAccept a => 0x09 :: le16 a
  | .areaReject a => 0x0A :: le16 a
  | .setup r d => 0x10 :: r :: digitsBytes d
  | .offer r d => 0x11 :: r :: digitsBytes d
  | .ringing r => [0x12, r]
  | .connect r => [0x13, r]
  | .answer r => [0x14, r]
  | .hold r => [0x15, r]
  | .holdAccept r => [0x16, r]
  | .resume r => [0x17, r]
  | .resumeAccept r => [0x18, r]
  | .release r c => [0x19, r, c.code]
  | .releaseDone r => [0x1A, r]
  | .textSegment r d i n p => 0x20 :: r :: digitsBytes d ++ i :: n :: p
  | .segmentAck r i a =>
    [0x21, r, i] ++ (match a with | .ok => [0, 0] | .inboxFull => [1, 0x11] | .busy => [1, 0x03])
  | .inboxFull => [0x22]
  | .inboxReady => [0x23]
  | .levelReport es =>
    0x30 :: BitVec.ofNat 8 es.length :: es.flatMap (fun e => le16 e.1 ++ le16 e.2.1 ++ le16 (levelCode e.2.2))
  | .transferOrder c d f => 0x31 :: le16 c ++ le16 d ++ le16 f
  | .transferDone => [0x32]
  | .transferFail c => [0x33, c.code]

/-- The fields of a command that is an air message are in range (R61); other commands pass. -/
def airValid : Instr → Bool
  | .ringing r | .connect r | .holdAccept r | .resumeAccept r | .releaseDone r | .release r _ => r != 0
  | .offer r d => r != 0 && digitsValid 0 d
  | .textSegment _ d i n p =>
    digitsValid 1 d && 1 ≤ n.toNat && n.toNat ≤ 4 && i.toNat < n.toNat && 1 ≤ p.length && p.length ≤ 160
  | .segmentAck _ i _ => i.toNat < 4
  | .transferOrder c d _ => c.toNat ≤ 4095 && d.toNat ≤ 511
  | _ => true

/-- The acknowledgement result and cause, where they pair (R199). -/
def ackOf (result cause : Byte) : Option AckResult :=
  match result.toNat, cause.toNat with
  | 0, 0 => some .ok
  | 1, 0x11 => some .inboxFull
  | 1, 0x03 => some .busy
  | _, _ => none

/-- The command that an incoming air message is, by kind and layout; none where R199 discards it or the network does not
send the kind. -/
def airLayout (l : List Byte) : Option Instr :=
  let n := l.length
  let b := byteOf l
  match (b 0).toNat with
  | 0x02 => if n = 1 then some .connectGrant else none
  | 0x03 => if n = 1 then some .connectReject else none
  | 0x07 => if n = 1 then some .reestablishAccept else none
  | 0x09 => if n = 3 then some (.areaAccept (halfOf l 1)) else none
  | 0x0A => if n = 3 then some (.areaReject (halfOf l 1)) else none
  | 0x11 => if n = 15 then (digitsOf l 2).map (.offer (b 1)) else none
  | 0x12 => if n = 2 then some (.ringing (b 1)) else none
  | 0x13 => if n = 2 then some (.connect (b 1)) else none
  | 0x16 => if n = 2 then some (.holdAccept (b 1)) else none
  | 0x18 => if n = 2 then some (.resumeAccept (b 1)) else none
  | 0x19 => if n = 3 then some (.release (b 1) (b 2)) else none
  | 0x1A => if n = 2 then some (.releaseDone (b 1)) else none
  | 0x20 => if 18 ≤ n then (digitsOf l 2).map (fun d => .textSegment (b 1) d (b 15) (b 16) (l.drop 17)) else none
  | 0x21 => if n = 5 then (ackOf (b 3) (b 4)).map (.segmentAck (b 1) (b 2)) else none
  | 0x31 => if n = 7 then some (.transferOrder (halfOf l 1) (halfOf l 3) (halfOf l 5)) else none
  | _ => none

/-- The command that an incoming air message is, where R61 and R199 keep it. -/
def airDecode (l : List Byte) : Option Instr :=
  match airLayout l with
  | some c => if l ≠ [] ∧ airValid c then some c else none
  | none => none

/-! ## Radio link frames (R50, R198) -/

/-- The two check sums over a frame's type, length and payload. -/
def frameCheck (l : List Byte) : Nat × Nat :=
  l.foldl (fun a b => let x := (a.1 + b.toNat) % 255; (x, (a.2 + x) % 255)) (0, 0)

/-- A frame with its length and check bytes. -/
def frameOf (type : Byte) (payload : List Byte) : List Byte :=
  let body := type :: BitVec.ofNat 8 payload.length :: payload
  let c := frameCheck body
  body ++ [BitVec.ofNat 8 c.1, BitVec.ofNat 8 c.2]

/-- The bytes of a frame the part sends. -/
def frameBytes : LinkFrame → List Byte
  | .tuneMon c => frameOf 0x01 (le16 c)
  | .measure c => frameOf 0x02 (le16 c)
  | .listen f i => frameOf 0x03 (le16 f ++ le64 i)
  | .sendSig m => frameOf 0x04 (airBytes m)
  | .sendSpeech p => frameOf 0x05 p
  | .switch c d => frameOf 0x06 (le16 c ++ le16 d)
  | .linkReset => frameOf 0x07 []
  | .standby => frameOf 0x08 []

/-- The command that a frame's type and payload are, where the type is known, the length is one it allows and every coded
byte has a code. -/
def payloadDecode (type : Nat) (p : List Byte) : Option Instr :=
  match type with
  | 0x81 => if p.length = 2 then some (.measureDone (halfOf p 0)) else none
  | 0x82 =>
    if p.length = 2 then
      match (byteOf p 0).toNat, (byteOf p 1).toNat with
      | 0, 0 => some (.listenDone .noPage)
      | 1, 1 => some (.listenDone .pageCall)
      | 1, 2 => some (.listenDone .pageText)
      | _, _ => none
    else none
  | 0x83 => if p.length = 0 then some .sigSent else none
  | 0x84 => airDecode p
  | 0x85 => if p.length = 64 then some (.speechIn p) else none
  | 0x86 => if p.length = 1 then (boolOf (byteOf p 0).toNat).map .switchDone else none
  | 0x87 => if p.length = 0 then some .servingLost else none
  | 0x88 => if p.length = 0 then some .linkReady else none
  | _ => none

/-- The command that the bytes on the link are; none is a frame discarded under R50. -/
def frameDecode (l : List Byte) : Option Instr :=
  let n := l.length
  let body := l.take (n - 2)
  let c := frameCheck body
  if 4 ≤ n ∧ (byteOf l 1).toNat = n - 4 ∧ (byteOf l (n - 2)).toNat = c.1 ∧ (byteOf l (n - 1)).toNat = c.2 then
    payloadDecode (byteOf l 0).toNat (body.drop 2)
  else none

end Sys2Proof.Machine
end

