-- ==== Sys2Proof/Machine/Flags.lean ====
section
/-! DEFINITION. Conditions over the state that several commands check. -/

namespace Sys2Proof.Machine

/-! ## Who runs -/

/-- The port and the jobs are not held by a warm reset (R46, R64). -/
def portOpen (s : State) : Bool := !s.resetN && s.resetPhase == .idle

/-- Jobs run in BOUND and UNBINDING, until the unbinding's end (R4, R16). -/
def jobsRun (s : State) : Bool :=
  portOpen s && (s.bind.state == .bound || s.bind.state == .unbinding) && !s.bind.ending

/-- Write notices are issued in BOUND, and no host write is accepted under the sleep hold (R13, R20). -/
def noticeOpen (s : State) : Bool := portOpen s && s.bind.state == .bound && !s.port.sleepHold

/-! ## Memory path -/

def AccWrite.isHost (w : AccWrite) : Bool :=
  match w.writer with
  | .host _ _ => true
  | .part _ => false

def AccWrite.hasTag (w : AccWrite) (tag : BitVec 4) : Bool :=
  match w.writer with
  | .host t _ => t == tag
  | .part _ => false

/-- A host write of a line that arrived at the port before a moment. -/
def AccWrite.hostBefore (w : AccWrite) (line : Line) (moment : Nat) : Bool :=
  match w.writer with
  | .host _ a => w.line == line && a < moment
  | .part _ => false

/-- The tag is not FREE (R18). -/
def tagBusy (tag : BitVec 4) (s : State) : Bool :=
  s.port.held.any (fun w => w.tag == tag) || s.mem.accept.any (fun w => w.hasTag tag) ||
    s.mem.reads.any (fun r => r.for_ == .host tag)

/-- Internal writes in the acceptance list (R21). -/
def internalCount (m : MemPath) : Nat := m.accept.countP (fun w => !w.isHost)

def ReadEntry.isHost (r : ReadEntry) : Bool :=
  match r.for_ with
  | .host _ => true
  | _ => false

/-- Internal reads held; the speech fetch has a place of its own (R28). -/
def internalReadCount (m : MemPath) : Nat := m.reads.countP (fun r => !r.isHost && r.for_ != .speech)

/-- A job that places a write now waits: the list is full, or others wait already (R21). -/
def mustWait (s : State) : Bool := !s.mem.waits.isEmpty || Config.internalWrites ≤ internalCount s.mem

/-- A job has work waiting behind a write. -/
def jobWaits (j : Job) (s : State) : Bool := s.mem.waits.any (fun w => w.job == j)

/-- The write queue's entry for a line (R23). -/
def entryOf (m : MemPath) (line : Line) : Option QEntry := m.queue.find? (fun e => e.line == line)

/-- The stage line for a line (R33). -/
def stageOf (m : MemPath) (line : Line) : Option StageLine := m.stage.find? (fun l => l.line == line)

/-- The write queue can take bytes for a line now (R24 to R26). -/
def queueTakes (m : MemPath) (line : Line) : Bool :=
  match entryOf m line with
  | some e => !e.draining
  | none => m.queue.length < Config.queueEntries

/-- Layers 2 and 3 of a read (R31). -/
def upperLayers (m : MemPath) (line : Line) : LineBytes :=
  bytesOver (((stageOf m line).map (·.bytes)).getD [])
    (((entryOf m line).map (fun e => e.bytes.map (fun p => (p.1, p.2.1)))).getD [])

/-- A read is free to proceed (R20, R30). -/
def readFree (s : State) (r : ReadEntry) : Bool :=
  if r.isHost then
    !s.port.sleepHold && !s.port.held.any (fun w => w.line == r.line && w.arrived < r.arrived) &&
      !s.mem.accept.any (fun w => w.hostBefore r.line r.arrived)
  else !s.mem.accept.any (fun w => w.line == r.line && w.joined < r.arrived)

/-- Nothing is held, queued, staged or in flight (R42, R46, R178). -/
def memoryQuiet (m : MemPath) : Bool :=
  m.accept.isEmpty && m.reads.isEmpty && m.queue.isEmpty && m.stage.isEmpty && m.inFlight.isEmpty

/-! ## Radio link -/

/-- A message in the signalling queue, waiting outside it, or in flight (R178). -/
def signallingQuiet (s : State) : Bool :=
  s.link.queue.isEmpty && s.link.outside.isEmpty && !s.link.opSendSig.runs

/-! ## Cells and mobility -/

/-- A usable slot (R83). -/
def Slot.usable (x : Slot) : Bool := x.inUse && !x.barred && !x.unusable

/-- A switch is in progress (R102). -/
def switchOn (s : State) : Bool :=
  match s.mob.state with
  | .idle | .armed => false
  | _ => true

/-- The slot is involved in a switch in progress (R87). -/
def involved (s : State) (n : Fin 13) : Bool :=
  switchOn s && (match s.mob.switch with
    | some w => w.old == some n || w.target == n
    | none => false)

/-- States in which the serving slot is frozen (R86) and measured first, but for REESTABLISHING (R97). -/
def servingHeld (c : ConnState) : Bool :=
  match c with
  | .camped | .connecting | .connected | .reestablishing => true
  | .off | .noService => false

/-- The slot is frozen (R86). -/
def slotFrozen (s : State) (n : Fin 13) : Bool := s.cells.serving == some n && servingHeld s.conn.state

/-- The slot whose samples are the serving slot's. -/
def servingSlot (s : State) : Option Slot := s.cells.serving.map (fun n => s.cells.slots[n])

/-- The serving slot's filtered level (R89). -/
def servingLevel (s : State) : Option Int := (servingSlot s).bind Slot.filtered

/-- Of the slots that pass a test, the one with the highest filtered level, the lowest number among equals (R69). -/
def bestSlot (s : State) (ok : Fin 13 → Bool) : Option (Fin 13) :=
  ((List.finRange 13).foldl (fun (best : Option (Fin 13 × Int)) n =>
    if ok n then
      match (s.cells.slots[n]).filtered, best with
      | none, _ => best
      | some l, none => some (n, l)
      | some l, some (m, k) => if k < l then some (n, l) else some (m, k)
    else best) none).map (·.1)

/-- A usable slot at or above the camp threshold (R69). -/
def campable (s : State) (n : Fin 13) : Bool :=
  (s.cells.slots[n]).usable && (match (s.cells.slots[n]).filtered with
    | some l => s.conn.campThr ≤ l
    | none => false)

/-- The choice of R69, leaving out the serving slot where asked (R77, R116, R123). -/
def campChoice (s : State) (butServing : Bool) : Option (Fin 13) :=
  bestSlot s (fun n => campable s n && !(butServing && s.cells.serving == some n))

/-! ## Connection -/

/-- The connection state as the other jobs' checks find it (R66). -/
def connSeen (s : State) : ConnState := if s.conn.shutdown.isSome then .off else s.conn.state

/-- Every call record is FREE (R75). -/
def callsFree (s : State) : Bool := s.calls.recs.toList.all (fun r => r.state == .free)

/-- The connection is idle (R75); a connection being shut down is not (R80). -/
def connIdle (s : State) : Bool :=
  s.conn.state == .connected && s.conn.shutdown.isNone && callsFree s && s.texts.send.isNone && s.texts.ctxs.isEmpty &&
    s.conn.purposes.isEmpty

/-! ## Sleep -/

/-- Memory is available to the jobs (R175). -/
def memoryAvailable (s : State) : Bool := s.sleep.level != .deep

/-- Inbox memory work (R170). -/
def inboxWork (s : State) : Bool := !s.texts.ctxs.isEmpty || jobWaits .texts s

/-- Memory work is in progress (R175); writes and reads that wait to be placed count with the lists they wait for. -/
def memoryWork (s : State) : Bool :=
  inboxWork s || s.conn.purposes.contains .textIn || !s.cells.reload.isEmpty || s.cells.reloadRead.isSome ||
    !memoryQuiet s.mem || !s.mem.waits.isEmpty || !s.mem.readWaits.isEmpty

/-- The sleep controller wants SELF-REFRESH-ENTER: DRAINING, or the re-entry mark (R178, R184). -/
def enterWanted (s : State) : Bool :=
  (s.sleep.level == .quiescing && s.sleep.phase == .draining) || (s.sleep.level == .roused && s.sleep.reentry)

/-- SELF-REFRESH-ENTER is presented and can be granted (R178, R41). -/
def enterReady (s : State) : Bool :=
  enterWanted s && !memoryWork s && signallingQuiet s && s.mem.pubs.isEmpty && s.mem.memState == .active &&
    s.sleep.writeBack == .none

/-- The larger of ceiling and base (R172). -/
def effectiveCeiling (s : State) : Nat := max s.sleep.base s.sleep.ceiling

/-- The paging offset (R62). -/
def pagingOffset (s : State) : Nat := ((s.bind.captured.map (·.identity.toNat)).getD 0) % 512

/-- A frame is a listen slot of the current cycle (R62). -/
def listenSlot (s : State) (f : FrameNo) : Bool := f.toNat % s.sleep.cycle == pagingOffset s % s.sleep.cycle

/-- Listen slots are kept (R180). -/
def listening (s : State) : Bool :=
  s.bind.state == .bound && s.conn.shutdown.isNone && s.link.up && !s.link.opListen.runs &&
    (s.conn.state == .noService || s.conn.state == .camped || s.conn.state == .connecting)

/-! ## Events -/

/-- The ATTN output (R196). -/
def attn (s : State) : Bool :=
  s.events.running && s.sleep.level == .awake && s.events.published != s.events.consumer

/-- The writer may place events (R194); behind a write-back's dirty lines (R185). -/
def mayPlace (s : State) : Bool :=
  s.events.running && (match s.sleep.level with
    | .awake | .quiescing => (match s.sleep.writeBack with | .lines _ => false | _ => true)
    | .roused | .resuming => s.events.handed
    | .deep => false)

end Sys2Proof.Machine
end

