-- ==== Sys2Proof/Machine/Ops.lean ====
section
/-! DEFINITION. The memory path's shared operations: placing, waiting, accepting, composing, staging, granting (R18 to R44). -/

namespace Sys2Proof.Machine

/-! ## The order of moments -/

/-- The current moment's number, and the next one (log entry 9). -/
def tickClock (s : State) : State := { s with mem := { s.mem with clock := s.mem.clock + 1 } }

/-- What began to wait within a command shares its moment; the next command's waits come later (R21, R28). -/
def closeMoment (s : State) : State :=
  if s.mem.waits.any (fun w => w.since == s.mem.clock) || s.mem.readWaits.any (fun w => w.since == s.mem.clock) then
    tickClock s
  else s

/-! ## Outputs -/

def answer (a : Answer) (s : State) : State := { s with out := { s.out with answers := s.out.answers ++ [a] } }

def memOut (a : MemAccess) (s : State) : State := { s with out := { s.out with mem := s.out.mem ++ [a] } }

/-- A frame leaves on the link (R51): none in FAULTED but LINK-RESET, which `linkOut` sends itself. -/
def linkOut (f : LinkFrame) (s : State) : State := { s with out := { s.out with link := s.out.link ++ [f] } }

def sendFrame (f : LinkFrame) (s : State) : State := if s.link.up then linkOut f s else s

/-! ## Joining the acceptance list (R21) -/

/-- A host write is presented. -/
def presentWrite (w : HostWrite) (s : State) : State :=
  tickClock { s with mem := { s.mem with accept := s.mem.accept ++
    [{ writer := .host w.tag w.arrived, line := w.line, bytes := w.bytes, speech := false, joined := s.mem.clock }] } }

/-- An internal write is placed. -/
def joinWrite (w : WriteReq) (s : State) : State :=
  tickClock { s with mem := { s.mem with accept := s.mem.accept ++
    [{ writer := .part w.note, line := w.line, bytes := w.bytes, speech := w.speech, joined := s.mem.clock }] } }

/-- Work put behind a job's waiting work, or the beginning of its wait. -/
def addWait (ws : List Wait) (j : Job) (now : Nat) (acts : List Act) : List Wait :=
  if ws.any (fun w => w.job == j) then
    ws.map (fun w => if w.job == j then { w with acts := w.acts ++ acts } else w)
  else ws ++ [{ job := j, since := now, acts := acts }]

def waitActs (j : Job) (acts : List Act) (s : State) : State :=
  { s with mem := { s.mem with waits := addWait s.mem.waits j s.mem.clock acts } }

/-- A job places an internal write, or waits with it (R21); an empty write is no write. -/
def emitWrite (j : Job) (w : WriteReq) (s : State) : State :=
  if w.bytes.isEmpty then s
  else if mustWait s then waitActs j [.write w] s
  else joinWrite w s

/-- A plain internal write of a line of a region. -/
def writeAt (s : State) (k : Kind) (i : Nat) (bytes : LineBytes) : WriteReq :=
  { line := s.bind.line k i, bytes := bytes, speech := false, note := .none }

/-- The held host writes join the list in order of arrival (R20). -/
def presentHeld (s : State) : State :=
  s.port.held.foldl (fun t w => presentWrite w t) { s with port := { s.port with held := [] } }

/-! ## Composing reads (R29 to R32) -/

/-- A line laid over its first layer (R31). -/
def composeLine (first : List Byte) (upper : LineBytes) : List Byte :=
  (List.range 64).map (fun k => (bytesGet upper k).getD (byteOf first k))

/-- What serving makes of one read: the entry left, if any, and the answer. -/
def serveRead (s : State) (r : ReadEntry) : Option ReadEntry × List Answer :=
  if r.status != .waiting || !readFree s r then (some r, [])
  else
    let upper := upperLayers s.mem r.line
    if bytesFull upper ([] : LineBytes) then
      match r.for_ with
      | .host tag => (none, [.readData tag false (composeLine [] upper)])
      | _ => (some { r with status := .composed (composeLine [] upper) }, [])
    else (some { r with status := .needsDram, since := s.mem.clock }, [])

/-- The read path serves the reads that are free, oldest first (R29). -/
def serveReads (s : State) : State :=
  { s with
    mem := { s.mem with reads := s.mem.reads.filterMap (fun r => (serveRead s r).1) }
    out := { s.out with answers := s.out.answers ++ s.mem.reads.flatMap (fun r => (serveRead s r).2) } }

/-- A read joins the read path (R28). -/
def joinRead (f : ReadFor) (line : Line) (s : State) : State :=
  serveReads (tickClock { s with mem := { s.mem with reads := s.mem.reads ++
    [{ for_ := f, line := line, arrived := s.mem.clock, since := s.mem.clock, status := .waiting, discard := false }] } })

/-- A job's internal read is placed, or waits for a place (R28). -/
def placeRead (j : Job) (f : ReadFor) (line : Line) (s : State) : State :=
  if s.mem.readWaits.isEmpty && internalReadCount s.mem < Config.internalReads then joinRead f line s
  else
    let ws := s.mem.readWaits
    let new :=
      if ws.any (fun w => w.job == j) then
        ws.map (fun w => if w.job == j then { w with reads := w.reads ++ [(f, line)] } else w)
      else ws ++ [{ job := j, since := s.mem.clock, reads := [(f, line)] }]
    { s with mem := { s.mem with readWaits := new } }

/-- A job reads a line; behind a write it waits to place, the read waits too (R21). -/
def emitRead (j : Job) (f : ReadFor) (line : Line) (s : State) : State :=
  if jobWaits j s then waitActs j [.read j f line] s else placeRead j f line s

/-- Work other than a read that a test names. -/
def Act.notRead (p : ReadFor → Bool) : Act → Bool
  | .read _ f _ => !p f
  | _ => true

/-- Reads that a job no longer wants: those placed are discarded when they complete, those waiting are not placed. -/
def discardReads (p : ReadFor → Bool) (s : State) : State :=
  { s with mem := { s.mem with
    reads := s.mem.reads.map (fun r => if p r.for_ then { r with discard := true } else r)
    waits := s.mem.waits.map (fun w => { w with acts := w.acts.filter (Act.notRead p) })
    readWaits := (s.mem.readWaits.map (fun w => { w with reads := w.reads.filter (fun q => !p q.1) })).filter
      (fun w => !w.reads.isEmpty) } }

/-- A read outstanding at the end of an unbinding: where it is discarded, so is its error (R16). -/
def ReadEntry.hush (r : ReadEntry) : ReadEntry := { r with quiet := true }

/-- An internal read discarded with its error: no MEMORY-ERROR is raised for it (R16). -/
def ReadEntry.silent (r : ReadEntry) : Bool := !r.isHost && r.discard && r.quiet

/-- The first access in flight of an access's line is that access: accesses to one line complete in order (R38). -/
def nextOfLine (m : MemPath) (a : Access) : Bool :=
  let line := fun (x : Access) => match x with | .read _ l => l | .drain l => l
  m.inFlight.find? (fun x => line x == line a) == some a

/-- A completed read: what it composed to, whether its requester is handed an error of DRAM, and whether it is discarded. -/
abbrev Completed := List Byte × Bool × Bool

def ReadStatus.isComposed : ReadStatus → Bool
  | .composed _ => true
  | _ => false

/-- The internal read of a line that a completion is of: one composed without DRAM before one in flight, then the oldest
(R29, R38). -/
def dueRead (p : ReadFor → Bool) (line : Line) (m : MemPath) : Option ReadEntry :=
  let mine := fun (r : ReadEntry) => p r.for_ && r.line == line
  (m.reads.find? (fun r => mine r && r.status.isComposed)).or (m.reads.find? (fun r => mine r && r.status == .inFlight))

/-- A read completes, if it can: composed without DRAM, or its memory read next of its line. -/
def completeRead (r : ReadEntry) (data : List Byte) (err : Bool) (s : State) : Option (Completed × State) :=
  let rest := s.mem.reads.erase r
  match r.status with
  | .composed line => some ((line, false, r.discard), { s with mem := { s.mem with reads := rest } })
  | .inFlight =>
    let a := Access.read r.arrived r.line
    if nextOfLine s.mem a then
      some ((composeLine (if err then [] else fitTo 64 data) (upperLayers s.mem r.line), err && !r.silent, r.discard),
        { s with mem := { s.mem with reads := rest, inFlight := s.mem.inFlight.erase a } })
    else none
  | _ => none

/-! ## The arbiter's mode (R39) -/

def setMode (mode : ArbMode) (m : MemPath) : MemPath :=
  if m.mode = mode then m else { m with mode := mode, count := 0 }

/-- The mode after a change of occupancy; forcing ends with an empty queue. -/
def noteOccupancy (m : MemPath) : MemPath :=
  let n := m.queue.length
  if m.forced then
    if n = 0 then setMode .readFirst { m with forced := false } else m
  else if Config.drainAt ≤ n then setMode .drain m
  else if n ≤ Config.readFirstAt then setMode .readFirst m
  else m

/-- DRAIN mode is forced (R39, R177); with an empty queue the forcing ends at once. -/
def forceDrain (m : MemPath) : MemPath := noteOccupancy (setMode .drain { m with forced := true })

/-- The forcing ends (R39, R179). -/
def endForce (m : MemPath) : MemPath :=
  if m.forced then
    setMode (if Config.readFirstAt < m.queue.length then .drain else .readFirst) { m with forced := false }
  else m

/-! ## The write queue and the stage (R23 to R27, R33 to R37) -/

/-- Bytes merge into a READY entry, or make a new one (R24, R26). The caller has checked `queueTakes`. A speech mark set now is
later than every read that began to wait before, and earlier than every one that begins after (R40). -/
def takeBytes (line : Line) (bytes : LineBytes) (o : Origin) (speech : Bool) (m : MemPath) : MemPath :=
  let new := bytes.map (fun p => (p.1, (p.2, o)))
  let mark := fun (old : Option Nat) => if speech then some (old.getD (m.clock + 1)) else old
  match entryOf m line with
  | some _ =>
    let merge := fun (e : QEntry) =>
      if e.line == line then { e with bytes := bytesOver new e.bytes, speech := mark e.speech } else e
    { m with queue := m.queue.map merge, clock := m.clock + 2 }
  | none =>
    noteOccupancy { m with
      queue := m.queue ++ [{ line := line, bytes := bytesOver new [], draining := false, age := m.clock, speech := mark none }]
      clock := m.clock + 2 }

/-- A stage line leaves if it can (R36). -/
def stageLineLeave (l : StageLine) (m : MemPath) : MemPath :=
  if m.stage.contains l && queueTakes m l.line then
    takeBytes l.line l.bytes .part false { m with stage := m.stage.erase l }
  else m

/-- The order in which waiting stage lines are offered room (R36). -/
def stageOrder (a b : StageLine) : Bool := a.pub < b.pub || (a.pub == b.pub && a.line ≤ b.line)

/-- Every stage line that can leave leaves, in the order of R36. -/
def stageLeave (m : MemPath) : MemPath :=
  (sortBy stageOrder m.stage).foldl (fun m l => stageLineLeave l m) m

/-- Stage lines that a publication's images need (R34). -/
def stageNeeds (m : MemPath) (images : List (Line × LineBytes)) : Nat :=
  images.countP (fun p => (stageOf m p.1).isNone)

/-- A publication fits in the stage now. -/
def stageFits (m : MemPath) (images : List (Line × LineBytes)) : Bool :=
  m.stage.length + stageNeeds m images ≤ Config.stageLines

/-- All line images become visible, and each stage line tries to leave (R35, R36). -/
def publishImages (number : Nat) (images : List (Line × LineBytes)) (m : MemPath) : MemPath :=
  stageLeave (images.foldl (fun m p =>
    if (stageOf m p.1).isSome then
      { m with stage := m.stage.map (fun l =>
          if l.line == p.1 then { l with bytes := bytesOver p.2 l.bytes, pub := number } else l) }
    else { m with stage := m.stage ++ [{ line := p.1, bytes := p.2, pub := number }] }) m)

/-- An internal write accepted updates the bytes that waiting publications cover (R34). -/
def updateImages (line : Line) (bytes : LineBytes) (m : MemPath) : MemPath :=
  { m with pubs := m.pubs.map (fun p => { p with images := p.images.map (fun q =>
      if q.1 == line then (q.1, q.2.map (fun b => (b.1, (bytesGet bytes b.1).getD b.2))) else q) }) }

/-- The bytes of an accepted internal write are taken (R24, R26, R34, R37). -/
def takeInternal (w : AccWrite) (m : MemPath) : MemPath :=
  let m := updateImages w.line w.bytes m
  match stageOf m w.line with
  | some _ =>
    stageLeave { m with stage := m.stage.map (fun l =>
      if l.line == w.line then { l with bytes := bytesOver w.bytes l.bytes } else l) }
  | none => takeBytes w.line w.bytes .part w.speech m

/-- The bytes of an accepted host write are taken, and leave the stage line of the line (R37). -/
def takeHost (line : Line) (bytes : LineBytes) (m : MemPath) : MemPath :=
  if bytes.isEmpty then m
  else
    let m := takeBytes line bytes .host false m
    let cut := fun (l : StageLine) => if l.line == line then { l with bytes := bytesWithout l.bytes bytes } else l
    stageLeave { m with stage := (m.stage.map cut).filter (fun l => !l.bytes.isEmpty) }

/-- An internal write at the head can be accepted (R24 to R26, R37). -/
def internalTakes (m : MemPath) (w : AccWrite) : Bool := (stageOf m w.line).isSome || queueTakes m w.line

/-! ## Grants (R38 to R41) -/

/-- READY entries, oldest first. -/
def oldestReady (m : MemPath) : Option QEntry :=
  (m.queue.filter (fun e => !e.draining)).foldl (fun b e => match b with
    | none => some e
    | some x => if e.age < x.age then some e else some x) none

/-- The speech-marked READY entry that began to wait first. -/
def oldestSpeechDrain (m : MemPath) : Option (Nat × QEntry) :=
  (m.queue.filter (fun e => !e.draining)).foldl (fun b e => match e.speech, b with
    | none, _ => b
    | some t, none => some (t, e)
    | some t, some (u, x) => if t < u then some (t, e) else some (u, x)) none

/-- The speech fetch's memory read, if it waits. -/
def speechRead (m : MemPath) : Option ReadEntry :=
  m.reads.find? (fun r => r.for_ == .speech && r.status == .needsDram)

/-- The oldest other read that waits for DRAM (R29). -/
def oldestRead (m : MemPath) : Option ReadEntry :=
  m.reads.find? (fun r => r.for_ != .speech && r.status == .needsDram)

def grantRead (r : ReadEntry) (s : State) : State :=
  memOut (.read r.line) { s with mem := { s.mem with
    reads := s.mem.reads.map (fun x => if x == r then { x with status := .inFlight } else x)
    inFlight := s.mem.inFlight ++ [.read r.arrived r.line] } }

def grantDrain (e : QEntry) (s : State) : State :=
  memOut (.drain e.line (e.bytes.map (fun p => (p.1, p.2.1)))) { s with mem := { s.mem with
    queue := s.mem.queue.map (fun x => if x == e then { x with draining := true } else x)
    inFlight := s.mem.inFlight ++ [.drain e.line] } }

def setCount (n : Nat) (s : State) : State := { s with mem := { s.mem with count := n } }

/-- A grant among reads and drains that are no speech accesses (R40, points 3 and 4). -/
def grantPlain (s : State) : State :=
  let drain := fun (e : QEntry) => setCount 0 (grantDrain e s)
  let read := fun (r : ReadEntry) => grantRead r (setCount (if (oldestReady s.mem).isSome then s.mem.count + 1 else 0) s)
  match oldestReady s.mem, oldestRead s.mem with
  | none, none => s
  | some e, none => drain e
  | none, some r => read r
  | some e, some r =>
    if s.mem.mode = .drain || Config.readGrants ≤ s.mem.count then drain e else read r

/-- One grant (R40). Of a speech fetch and a speech-marked drain that began to wait at the same moment, the operand says
which goes first. -/
def grant (drainFirst : Bool) (s : State) : State :=
  if s.mem.memState != .active then s
  else
    match speechRead s.mem, oldestSpeechDrain s.mem with
    | none, none => grantPlain s
    | some r, none => grantRead r s
    | none, some (_, e) => grantDrain e s
    | some r, some (t, e) =>
      if t < r.since || (t == r.since && drainFirst) then grantDrain e s else grantRead r s

/-- SELF-REFRESH-EXIT is presented and granted at once; the exit delay runs (R41, R49). -/
def presentExit (s : State) : State :=
  if s.mem.memState = .selfRefresh then memOut .selfRefreshExit { s with mem := { s.mem with memState := .exiting } } else s

/-! ## Signalling queue (R58 to R60) -/

/-- The job whose class a message is of (R58). -/
def msgJob : AirMsg → Job
  | .levelReport _ | .transferDone | .transferFail _ | .reestablish _ => .mob
  | .connectRequest _ | .leave | .areaUpdate _ | .detach => .conn
  | .textSegment .. | .segmentAck .. | .inboxFull | .inboxReady => .texts
  | _ => .calls

/-- The class order of R58. -/
def msgClass (m : AirMsg) : Nat :=
  match msgJob m with
  | .mob => 0 | .conn => 1 | .calls => 2 | _ => 3

/-- Messages a job may hold in the queue (R58). -/
def jobLimit : Job → Nat
  | .texts => 1
  | _ => 2

/-- A message can join the queue. -/
def queueRoom (l : Link) (m : AirMsg) : Bool :=
  l.queue.length < Config.signallingPlaces && l.queue.countP (fun q => msgJob q.msg == msgJob m) < jobLimit (msgJob m)

def joinQueue (q : QMsg) (l : Link) : Link :=
  { l with queue := l.queue ++ [{ q with place := l.nextPlace }], nextPlace := l.nextPlace + 1 }

/-- Messages waiting outside join as soon as they can, in the order in which they began to wait. -/
def joinOutside (l : Link) : Link :=
  l.outside.foldl (fun l q =>
    if queueRoom l q.msg then joinQueue q { l with outside := l.outside.erase q } else l) l

/-- A message is handed to the link controller under an identity of its own (R58). -/
def handMsg (id : Nat) (m : AirMsg) (l : Link) : Link :=
  let q : QMsg := { id := id, msg := m, inFlight := false, place := 0, attempts := 0 }
  let outside := l.outside.countP (fun x => msgJob x.msg == msgJob m)
  if queueRoom l m && outside == 0 then joinQueue q l
  else if outside < Config.outsidePlaces then { l with outside := l.outside ++ [q] }
  else { l with refused := l.refused ++ [q] }

/-- A job hands a message; behind a write it waits to place, the message waits too (R21). -/
def emitMsg (m : AirMsg) (s : State) : State :=
  let id := s.link.nextId
  let s := { s with link := { s.link with nextId := id + 1 } }
  if jobWaits (msgJob m) s then waitActs (msgJob m) [.msg id m] s
  else { s with link := handMsg id m s.link }

/-- A WAITING message leaves the queue, or the list outside it, or the work that waits behind a write (R60). -/
def withdrawMsg (id : Nat) (s : State) : State :=
  let gone := fun (q : QMsg) => q.id == id && !q.inFlight
  { s with
    link := joinOutside { s.link with
      queue := s.link.queue.filter (fun q => !gone q), outside := s.link.outside.filter (fun q => !gone q) }
    mem := { s.mem with waits := s.mem.waits.map (fun w => { w with acts := w.acts.filter (fun a => match a with
      | .msg i _ => i != id
      | _ => true) }) } }

def withdrawOpt : Option Nat → State → State
  | none, s => s
  | some id, s => withdrawMsg id s

/-- The message with an identity is IN-FLIGHT. -/
def msgInFlight (id : Option Nat) (s : State) : Bool :=
  s.link.queue.any (fun q => some q.id == id && q.inFlight)

/-- Set the outstanding operation of a kind: its response timeout and its request (R54). -/
def setOp (op : RadioOp) (t : Timer) (f : Option LinkFrame) (l : Link) : Link :=
  match op with
  | .measure => { l with opMeasure := t, askMeasure := f }
  | .listen => { l with opListen := t, askListen := f }
  | .sendSig => { l with opSendSig := t, askSendSig := f }
  | .switch => { l with opSwitch := t, askSwitch := f }

/-- The operation of a kind has ended. -/
def endOp (op : RadioOp) (l : Link) : Link := setOp op .stopped none l

def Link.op (l : Link) : RadioOp → Timer
  | .measure => l.opMeasure
  | .listen => l.opListen
  | .sendSig => l.opSendSig
  | .switch => l.opSwitch

/-- The request of the outstanding operation of a kind (R54). -/
def Link.ask (l : Link) : RadioOp → Option LinkFrame
  | .measure => l.askMeasure
  | .listen => l.askListen
  | .sendSig => l.askSendSig
  | .switch => l.askSwitch

/-- The block that hands the requests of a kind: a SEND-SIG is the link controller's own, from its signalling queue (R54). -/
def RadioOp.block : RadioOp → Job
  | .measure => .cells
  | .listen => .sleep
  | .sendSig => .link
  | .switch => .mob

/-- A request is sent and becomes the outstanding operation of its kind, unless one is outstanding (R51, R54). -/
def request (op : RadioOp) (f : LinkFrame) (s : State) : State :=
  if s.link.up && !(s.link.op op).runs then
    linkOut f { s with link := setOp op (.running (Config.responseFrames op)) (some f) s.link }
  else s

/-- The eligible message of the highest class with the lowest place number (R59, R60). -/
def nextMsg (l : Link) : Option QMsg :=
  (l.queue.filter (fun q => !q.inFlight && (!l.hold || msgJob q.msg == .mob))).foldl (fun b q => match b with
    | none => some q
    | some x =>
      if msgClass q.msg < msgClass x.msg || (msgClass q.msg == msgClass x.msg && q.place < x.place) then some q
      else some x) none

/-- The link controller sends from the queue when it can (R59). -/
def sendNext (s : State) : State :=
  if s.link.up && !s.link.opSendSig.runs && jobsRun s then
    match nextMsg s.link with
    | none => s
    | some q =>
      request .sendSig (.sendSig q.msg) { s with link := { s.link with
        queue := s.link.queue.map (fun x => if x.id == q.id then { x with inFlight := true } else x) } }
  else s

/-- The in-flight message goes back to WAITING, its SEND-SIG abandoned (R60). -/
def abandonSend (l : Link) : Link :=
  { endOp .sendSig l with queue := l.queue.map (fun q => { q with inFlight := false }) }

end Sys2Proof.Machine
end

