-- ==== Sys2Proof/Machine/Events.lean ====
section
/-! DEFINITION. The event writer, the plan record's writes, the dirty set and the sleep levels' shared operations (R66, R174 to
R186, R192 to R196). -/

namespace Sys2Proof.Machine

/-! ## The plan record and the dirty set (R66, R175) -/

def addDirty (d : DirtyLine) (s : State) : State :=
  if s.sleep.dirty.contains d then s else { s with sleep := { s.sleep with dirty := s.sleep.dirty ++ [d] } }

/-- A write of one plan line, or its place in the dirty set in DEEP. -/
def planLineWrite (j : Job) (i : Nat) (d : DirtyLine) (bytes : LineBytes) (s : State) : State :=
  if bytes.isEmpty then s
  else if memoryAvailable s then emitWrite j (writeAt s .plan i bytes) s
  else addDirty d s

/-- The plan record's fields that changed since an earlier state are written (R66, R174). -/
def notePlan (j : Job) (old s : State) : State :=
  if jobsRun s then
    planLineWrite j 1 (.plan true) (changedBytes (planFields1 old) (planFields1 s))
      (planLineWrite j 0 (.plan false) (changedBytes (planFields0 old) (planFields0 s)) s)
  else s

/-- A slot is mirrored (R100). -/
def mirror (n : Fin 13) (s : State) : State :=
  if memoryAvailable s then
    emitWrite .cells (writeAt s .cell (1 + n.val) (fieldBytes (slotFields s.cells.slots[n]))) s
  else addDirty (.slot n) s

/-- The part rouses for a secondary cause with memory in DEEP (R183, R182). -/
def rouse (s : State) : State :=
  if s.sleep.level = .deep then
    presentExit (notePlan .sleep s { s with
      sleep := { s.sleep with level := .roused, reentry := false, rouseTimer := .stopped, busy := true }
      events := { s.events with handed := false } })
  else s

/-! ## Placing events (R194) -/

def ringFull (s : State) : Bool := s.bind.capacity ≤ occupancy s.events.producer s.events.consumer

/-- Against a full ring every listed event is discarded; the flag is owed a header write if it was clear. -/
def discardFull (s : State) : State :=
  if ringFull s && !s.events.pending.isEmpty && s.events.owed.isNone then
    let owed : Option HeaderOwed := if s.events.overflow then none else some { producer := none, flag := some true }
    { s with events := { s.events with pending := [], overflow := true, lossPending := true, owed := owed } }
  else s

def eventsLeft (s : State) : Bool := s.events.owed.isSome || !s.events.pending.isEmpty

/-- The header write that the event writer owes (R194). -/
def owedReq (s : State) (h : HeaderOwed) : WriteReq :=
  let fields : Fields := (h.producer.map (fun p => (0, [p]))).toList ++ (h.flag.map (fun f => (3, [flagCode f]))).toList
  let note := match h.producer with | some p => WriteNote.eventHeader p | none => .none
  { writeAt s .event 0 (fieldBytes fields) with note := note }

/-- One internal write of the event writer: the header write it owes, or else the oldest event's record. -/
def placeOne (s : State) : State :=
  match s.events.owed with
  | some h =>
    joinWrite (owedReq s h) { s with events := { s.events with
      owed := none, producer := h.producer.getD s.events.producer, overflow := h.flag.getD s.events.overflow } }
  | none =>
    match s.events.pending with
    | [] => s
    | e :: rest =>
      let r := s.events.producer.toNat % s.bind.capacity
      let owed : HeaderOwed := { producer := some (s.events.producer + 1), flag := if e.loss then some false else none }
      joinWrite (writeAt s .event (1 + r / 4) (fieldBytes (eventFields (16 * (r % 4)) e)))
        { s with events := { s.events with pending := rest, owed := some owed } }

/-- The writer places what it may until the acceptance list is full, and then waits; against a full ring it discards only when it
need not wait (R21, R194). -/
def pumpEvents : Nat → State → State
  | 0, s => s
  | n + 1, s =>
    if mayPlace s && eventsLeft s then
      if mustWait s then (if jobWaits .events s then s else waitActs .events [.placeEvents] s)
      else
        let s := discardFull s
        if eventsLeft s then pumpEvents n (placeOne s) else s
    else s

/-- No more than the acceptance list's places are filled at one moment. -/
def placeEvents (s : State) : State := pumpEvents (Config.internalWrites + 2) s

/-- The writer's turn to place has come (R21): against a full ring it discards, and places what that leaves it to place (R194). -/
def forceEvents (s : State) : State :=
  if mayPlace s then
    let t := discardFull s
    if eventsLeft t then placeEvents (placeOne t) else t
  else s

/-- An event handed to the writer is accepted or discarded, and placed if it may be (R192, R194). -/
def raiseNow (e : Event) (s : State) : State :=
  if !s.events.running then s
  else if Config.pendingEvents ≤ s.events.pending.length then
    { s with events := { s.events with overflow := true, lossPending := true } }
  else
    let s := { s with events := { s.events with
      pending := s.events.pending ++ [{ e with loss := s.events.lossPending }], lossPending := false } }
    placeEvents (if Config.rousingEvents ≤ s.events.pending.length then rouse s else s)

/-- An event of a kind at the current frame, with its subject and detail. -/
def event (s : State) (kind : EventKind) (cls : EventClass) (group : Byte) (subject : Half) (detA detB : Byte)
    (value : Word) : Event :=
  { kind := kind, cls := cls, loss := false, frame := s.frame, group := group, subject := subject, detA := detA,
    detB := detB, value := value }

/-- A job raises an event that is no primary cause; behind a write it waits to place, the event waits too (R21). -/
def raise (j : Job) (e : Event) (s : State) : State :=
  if jobWaits j s then waitActs j [.raise e none] s else raiseNow e s

/-- CONFIG-IGNORED with a record as subject and an offset as detail (R14). -/
def configIgnored (s : State) (k : Kind) (record : Half) (offset : Nat) : Event :=
  event s .configIgnored .none k.code record 0 0 (BitVec.ofNat 32 offset)

/-- A job does not take a value: CONFIG-IGNORED, at the notice, whatever the job waits to place (R67, R84, R103, R144, R155, R157,
R164, R172, R173, R195). -/
def ignoreConfig (k : Kind) (record : Half) (offset : Nat) (s : State) : State :=
  raiseNow (configIgnored s k record offset) s

/-! ## Levels (R174 to R186) -/

/-- The lines of the dirty set, in ascending address order (R175). -/
def DirtyLine.write (s : State) : DirtyLine → WriteReq
  | .plan false => writeAt s .plan 0 (fieldBytes (planFields0 s))
  | .plan true => writeAt s .plan 1 (fieldBytes (planFields1 s))
  | .header => writeAt s .cell 0 (fieldBytes (cellHeaderFields s.cells.serving s.cells.epoch))
  | .slot n => writeAt s .cell (1 + n.val) (fieldBytes (slotFields s.cells.slots[n]))

/-- The dirty line with the lowest address. -/
def firstDirty (s : State) : Option DirtyLine :=
  (sortBy (fun a b => decide ((a.write s).line ≤ (b.write s).line)) s.sleep.dirty).head?

/-- One dirty line is placed and leaves the set. -/
def placeDirty (s : State) : State :=
  match firstDirty s with
  | none => s
  | some d => joinWrite (d.write s) { s with sleep := { s.sleep with dirty := s.sleep.dirty.erase d } }

def setWriteBack (w : WriteBack) (s : State) : State := { s with sleep := { s.sleep with writeBack := w } }

/-- The sleep hold is lifted: held writes join the list, held reads become free (R20). -/
def liftSleepHold (s : State) : State := serveReads (presentHeld { s with port := { s.port with sleepHold := false } })

/-- Nothing of the event writer is left to place. -/
def eventsDone (s : State) : Bool := !eventsLeft s || !s.events.running

/-- The write-back of a rouse or a resume, as far as it goes now: dirty lines, pending events, WAKE event, lifting the
hold (R175, R183, R185). -/
def pumpWriteBack : Nat → State → State
  | 0, s => s
  | n + 1, s =>
    match s.sleep.writeBack with
    | .none => s
    | .lines r =>
      if s.sleep.dirty.isEmpty then
        pumpWriteBack n { setWriteBack (.events r) s with events := { s.events with handed := true } }
      else if mustWait s then (if jobWaits .sleep s then s else waitActs .sleep [.writeBack] s)
      else pumpWriteBack n (placeDirty s)
    | .events r =>
      let s := placeEvents s
      if eventsDone s then
        if r then
          pumpWriteBack n (raiseNow (event s .wake .none Kind.plan.code 0
            (BitVec.ofNat 8 (if s.sleep.wakeCause = some .line then s.sleep.wakeLine else 0))
            (causeCode s.sleep.wakeCause) 0) (setWriteBack .wakeEvent s))
        else setWriteBack .none s
      else s
    | .wakeEvent =>
      let s := placeEvents s
      if eventsDone s then
        let after := if s.sleep.wakeCause = some .host then none else some s.mem.clock
        liftSleepHold { s with sleep := { s.sleep with writeBack := .none, wakeAfter := after } }
      else s

/-- At most 16 dirty lines and the three stages after them. -/
def writeBack (s : State) : State := pumpWriteBack 20 s

/-- The sleep controller's turn to place a dirty line has come (R21). -/
def forceWriteBack (s : State) : State :=
  match s.sleep.writeBack with
  | .lines _ => writeBack (placeDirty s)
  | _ => writeBack s

/-- Memory is ACTIVE and the write-back begins: step 2 of R183 or of R185. -/
def beginWriteBack (resume : Bool) (s : State) : State :=
  if resume then
    writeBack (addDirty (.plan true) { s with sleep := { s.sleep with level := .awake, writeBack := .lines true } })
  else writeBack (setWriteBack (.lines false) s)

/-- WAKE is asserted once every write placed before the mark has been accepted (R185, R186). -/
def checkWake (s : State) : State :=
  match s.sleep.wakeAfter with
  | none => s
  | some t =>
    if s.mem.accept.any (fun w => !w.isHost && w.joined < t) then s
    else { s with sleep := { s.sleep with wake := true, wakeAfter := none } }

/-- The current listen cycle returns to the base (R181). -/
def baseCycle (p : Sleep) : Sleep := { p with cycle := p.base, quiet := 0 }

/-- Everything placed so far must be accepted before WAKE (R179). -/
def wakeMark (s : State) : State :=
  if jobWaits .sleep s then waitActs .sleep [.wakeMark] s
  else { s with sleep := { s.sleep with wakeAfter := some s.mem.clock } }

/-- The entry is abandoned with the cause WAKE in phase DRAINING, when a stopped host has to be woken (R179). -/
def wakesHost (cause : Cause) (s : State) : Bool := cause == .wake && s.sleep.phase == .draining

/-- The sleep entry is abandoned with a cause; for WAKE the primary cause is given too (R179). -/
def abandonSleep (cause : Cause) (primary : Cause) (line : Nat) (s : State) : State :=
  let p := { s.sleep with level := .awake, phase := .none, quiesceTimer := .stopped, last := some cause }
  let p := if cause = .wake then baseCycle p else p
  let p := if wakesHost cause s then { p with wakeCause := some primary, wakeLine := line } else p
  let t := notePlan .sleep s { s with sleep := p, mem := endForce s.mem }
  let t := if wakesHost cause s then wakeMark t else t
  raise .sleep (event s .sleepAbandoned .none Kind.plan.code 0 0 cause.code 0) t

/-- The plan line of a change made while a write-back's lines wait to be placed joins the lines still to come; else it is
written (R175, R185; log entry 77). -/
def notePlanBack (old s : State) : State :=
  match old.sleep.writeBack with
  | .lines _ => addDirty (.plan true) s
  | _ => notePlan .sleep old s

/-- A primary cause in DEEP or ROUSED resumes the host (R185). -/
def resume (primary : Cause) (line : Nat) (s : State) : State :=
  let t := notePlanBack s { s with sleep := { baseCycle s.sleep with
    level := .resuming, wakeCause := some primary, wakeLine := line, reentry := false, rouseTimer := .stopped } }
  match s.mem.memState with
  | .active => beginWriteBack true t
  | _ => presentExit t

/-- A primary wake cause is taken (R182). -/
def primaryCause (c : Cause) (line : Nat) (s : State) : State :=
  match s.sleep.level with
  | .awake | .resuming => notePlan .sleep s { s with sleep := baseCycle s.sleep }
  | .quiescing => abandonSleep .wake c line s
  | .deep | .roused => resume c line s

/-- A job raises an event that is the primary cause given, and reports the cause (R182). -/
def raisePrimary (j : Job) (e : Event) (c : Cause) (s : State) : State :=
  if jobWaits j s then waitActs j [.raise e (some c)] s else primaryCause c 0 (raiseNow e s)

/-- The port reports a request's arrival as processor activity (R18, R177, R179, R187). -/
def processorActivity (s : State) : State :=
  match s.sleep.level with
  | .quiescing => if s.sleep.phase = .draining then abandonSleep .activity .activity 0 s else s
  | .deep | .roused => primaryCause .host 0 s
  | .awake | .resuming => s

end Sys2Proof.Machine
end

