-- ==== Sys2Proof/Machine/CellOps.lean ====
section
/-! DEFINITION. Shared operations of the cell table, the monitor receiver and the candidates (R83 to R106), and the images of
the publications (R69, R112, R117, R122). -/

namespace Sys2Proof.Machine

/-! ## Slots -/

def setSlot (n : Fin 13) (f : Slot → Slot) (s : State) : State :=
  { s with cells := { s.cells with slots := s.cells.slots.set n (f s.cells.slots[n]) } }

/-- A slot changes and is mirrored once (R100). -/
def changeSlot (n : Fin 13) (f : Slot → Slot) (s : State) : State := mirror n (setSlot n f s)

/-- A sample joins the list, which keeps the four newest (R89). -/
def Slot.addSample (level : Int) (frame : FrameNo) (x : Slot) : Slot :=
  let l := x.samples ++ [{ level := level, frame := frame }]
  { x with samples := l.drop (l.length - 4), missed := 0 }

/-- A miss; the third empties the list (R90). -/
def Slot.miss (x : Slot) : Slot :=
  if 2 ≤ x.missed then { x with missed := 3, samples := [] } else { x with missed := x.missed + 1 }

/-- A configuration word is taken: samples and flags go, the candidate fields stay (R85, steps 1 and 2). -/
def Slot.take (word : CellWord) (v : Half) (x : Slot) : Slot :=
  let y := { x with samples := [], missed := 0, barred := false, unusable := false }
  match word with
  | .inUse => { y with inUse := v != 0 }
  | .carrier => { y with carrier := v }
  | .cellCode => { y with code := v }
  | .areaCode => { y with area := v }

/-- The value is in the word's range (R84). -/
def cellWordOk (word : CellWord) (v : Half) : Bool :=
  match word with
  | .inUse => v.toNat ≤ 1
  | .carrier => v.toNat ≤ 4095
  | .cellCode => v.toNat ≤ 511
  | .areaCode => true

/-! ## The monitor receiver (R92 to R96) -/

/-- A measurement in flight is aborted (R95): an outstanding MEASURE leaves its residue. -/
def abortMeasure (s : State) : State :=
  if s.cells.phase = .idle then s
  else
    { s with cells := { s.cells with
      phase := .idle, settle := false, measSlot := none, measStray := false, paced := true
      residue := s.cells.residue || (s.cells.phase == .sample && s.link.opMeasure.runs) } }

/-- The round in progress ends without being reported, and none waits but in NO-SERVICE, where the one that is due begins at the
abort (R98, R99). -/
def dropRound (s : State) : State :=
  { s with cells := { s.cells with round := none, roundWaits := s.cells.roundWaits && s.conn.state == .noService } }

/-- The abort of a switch start, DEEP entry, a fault or OFF: the round ends with it (R95). -/
def abortRound (s : State) : State := dropRound (abortMeasure s)

/-- The round takes the measured slot and moves on (R97); a measurement of an ended round moves none (R98). -/
def roundMoves (s : State) : State :=
  if s.cells.measStray || s.cells.round.isNone then s
  else if s.cells.measFirst then { s with cells := { s.cells with round := some (.after s.cells.measSlot none) } }
  else
    let first := match s.cells.round with
      | some (.after f _) => f
      | _ => none
    { s with cells := { s.cells with round := some (.after first s.cells.measSlot) } }

/-- MEASURE is sent with the slot's captured cell code, unless a residue is outstanding (R93, R96). -/
def sendMeasure (s : State) : State :=
  match s.cells.measSlot with
  | some n => if s.cells.residue then s else request .measure (.measure (s.cells.slots[n]).code) s
  | none => s

/-- The phase becomes SAMPLE (R93). -/
def enterSample (s : State) : State := sendMeasure { s with cells := { s.cells with phase := .sample } }

/-- A measurement of a slot starts (R93). -/
def startMeasure (n : Fin 13) (first : Bool) (s : State) : State :=
  let carrier := (s.cells.slots[n]).carrier
  let s := { s with cells := { s.cells with measSlot := some n, measFirst := first, measStray := false } }
  if s.cells.lastCarrier = some carrier then enterSample s
  else
    sendFrame (.tuneMon carrier)
      { s with cells := { s.cells with phase := .settle, settle := true, lastCarrier := some carrier } }

/-- A round is due (R98); at most one waits. -/
def wantRound (s : State) : State := { s with cells := { s.cells with roundWaits := true } }

/-- Entry into NO-SERVICE: a running round ends unreported, its measurement runs on, and a new round is due (R98). -/
def restartRound (s : State) : State :=
  { s with cells := { s.cells with round := none, roundWaits := true, measStray := s.cells.phase != .idle } }

/-! ## The reload set (R87, R88) -/

/-- The next member's read is placed, once no other is outstanding and no switch is in progress. -/
def reloadNext (s : State) : State :=
  if s.cells.reloadRead.isSome || switchOn s then s
  else
    match (List.finRange 13).find? (fun n => s.cells.reload.contains n) with
    | none => s
    | some n =>
      emitRead .cells (.reload n) (s.bind.line .cell (1 + n.val))
        (rouse { s with cells := { s.cells with reloadRead := some n } })

/-- A reload read of the slot is placed. -/
def reloadPlaced (n : Fin 13) (s : State) : Bool := s.mem.reads.any (fun r => r.for_ == .reload n)

/-- The reload read of a slot is not taken: placed, it is discarded when it completes; not placed, it is none. -/
def dropReload (n : Fin 13) (s : State) : State :=
  let s := discardReads (fun f => f == .reload n) s
  if reloadPlaced n s then s else { s with cells := { s.cells with reloadRead := none } }

/-- A slot leaves the reload set; a read of it is not taken (R85, step 4). -/
def leaveReload (n : Fin 13) (s : State) : State :=
  let s := { s with cells := { s.cells with reload := s.cells.reload.filter (fun m => m != n) } }
  if s.cells.reloadRead = some n then reloadNext (dropReload n s) else s

/-- At a switch start the read outstanding is not taken where its slot is involved, and one not yet placed is not placed; the slot
stays in the set (R88). -/
def pauseReload (s : State) : State :=
  match s.cells.reloadRead with
  | some n => if involved s n || !reloadPlaced n s then dropReload n s else s
  | none => s

/-- A switch has ended: frozen members are ignored, the others are reloaded (R88). -/
def processReload (s : State) : State :=
  let hit := (List.finRange 13).filter (fun n => s.cells.reload.contains n && slotFrozen s n)
  let t := { s with cells := { s.cells with reload := s.cells.reload.filter (fun n => !hit.contains n) } }
  reloadNext (hit.foldl (fun t n => ignoreConfig .cell (BitVec.ofNat 16 n.val) 0 t) t)

/-! ## Candidates (R104, R105) -/

def setMobSlot (n : Fin 13) (f : MobSlot → MobSlot) (s : State) : State :=
  { s with mob := { s.mob with slots := s.mob.slots.set n (f s.mob.slots[n]) } }

/-- The conditions of R104. -/
def candidateNow (s : State) (n : Fin 13) : Bool :=
  s.conn.state == .connected && !switchOn s && (s.cells.slots[n]).usable && s.cells.serving != some n &&
    (match servingLevel s, (s.cells.slots[n]).filtered with
      | some a, some b => a + s.mob.margin ≤ b
      | _, _ => false)

def beginCandidate (n : Fin 13) (s : State) : State :=
  setSlot n (fun x => { x with candidate := true, since := some s.frame })
    (setMobSlot n (fun m => { m with hold := .running s.mob.holdLen, matured := false }) s)

def endCandidate (n : Fin 13) (s : State) : State :=
  setSlot n (fun x => { x with candidate := false, since := none })
    (setMobSlot n (fun m => { m with hold := .stopped, matured := false }) s)

def evaluateSlot (s : State) (n : Fin 13) : State :=
  match (s.cells.slots[n]).candidate, candidateNow s n with
  | false, true => beginCandidate n s
  | true, false => endCandidate n s
  | _, _ => s

/-- Every slot is evaluated, and not yet mirrored (R104). -/
def sortCandidates (s : State) : State := (List.finRange 13).foldl evaluateSlot s

/-- Every candidate stops being one, and is not yet mirrored (R104). -/
def endCandidates (s : State) : State :=
  (List.finRange 13).foldl (fun s n => if (s.cells.slots[n]).candidate then endCandidate n s else s) s

/-- The slots that pass a test are mirrored, each once (R100). -/
def mirrorSlots (p : Fin 13 → Bool) (s : State) : State :=
  (List.finRange 13).foldl (fun s n => if p n then mirror n s else s) s

/-- A slot is not as it was in an earlier state. -/
def slotDiffers (old s : State) (n : Fin 13) : Bool := s.cells.slots[n] != old.cells.slots[n]

/-- Every slot is evaluated, and those that changed are mirrored (R104, R100). -/
def evaluateCandidates (s : State) : State := mirrorSlots (slotDiffers s (sortCandidates s)) (sortCandidates s)

/-- Every candidate stops being one, and those that changed are mirrored (R104, R100). -/
def clearCandidates (s : State) : State := mirrorSlots (slotDiffers s (endCandidates s)) (endCandidates s)

/-- The slot becomes serving through a publication or the dirty set and is a candidate no longer (R104). -/
def clearTarget (n : Fin 13) (s : State) : State :=
  setSlot n (fun x => { x with candidate := false, since := none })
    (setMobSlot n (fun m => { m with hold := .stopped, matured := false }) s)

/-! ## Level reports (R106) -/

/-- The candidates with the highest levels, at most three. -/
def reportEntries (s : State) : List (Half × Half × Int) :=
  let level := fun (n : Fin 13) => ((s.cells.slots[n]).filtered).getD (-141)
  let ns := (List.finRange 13).filter (fun n => (s.cells.slots[n]).candidate)
  ((sortBy (fun a b => decide (level b ≤ level a)) ns).take 3).map
    (fun n => ((s.cells.slots[n]).carrier, (s.cells.slots[n]).code, level n))

/-- A LEVEL-REPORT is placed if the conditions hold. -/
def considerReport (s : State) : State :=
  let matured := (List.finRange 13).any (fun n => (s.cells.slots[n]).candidate && (s.mob.slots[n]).matured)
  if matured && s.mob.state == .idle && !s.mob.report && !s.mob.reportTimer.runs then
    emitMsg (.levelReport (reportEntries s))
      { s with mob := { s.mob with report := true, reportMsg := some s.link.nextId } }
  else s

/-- An armed order is dropped (R108). -/
def dropOrder (s : State) : State :=
  if s.mob.state = .armed then
    { s with mob := { s.mob with state := .idle, order := none, actTimer := .stopped, orderDue := false } }
  else s

/-! ## Publications (R33 to R35) -/

abbrev Image := Line × LineBytes

/-- The header image of a change of serving cell: its epoch is one above that of the change before it, be that taken or a publication
that still waits (R69, R83, R112; log entry 69). -/
def headerImage (target : Fin 13) (s : State) : Image :=
  (s.bind.line .cell 0,
    fieldBytes (cellHeaderFields (some target) (s.cells.epoch + 1 + BitVec.ofNat 16 s.mem.pubs.length)))

def slotImage (n : Fin 13) (s : State) : Image :=
  (s.bind.line .cell (1 + n.val), fieldBytes (slotFields s.cells.slots[n]))

def targetImage (n : Fin 13) (s : State) : Image :=
  (s.bind.line .cell (1 + n.val),
    fieldBytes (slotFields { s.cells.slots[n] with candidate := false, since := none }))

/-- The ACTIVE record's line, if a record is ACTIVE (R112). -/
def activeRec (s : State) : Option (Fin 4) := (List.finRange 4).find? (fun r => (s.calls.recs[r]).state == .active)

def callImage (s : State) : List Image :=
  (activeRec s).toList.map (fun r => (s.bind.line .call r.val, fieldBytes (callFields s.calls.recs[r])))

/-- The registered area a change of serving cell sets: the target's, if it differs (R112, R117). -/
def newArea (target : Fin 13) (s : State) : Option Half :=
  if s.conn.area = some (s.cells.slots[target]).area then none else some (s.cells.slots[target]).area

def areaField (a : Option Half) : Fields := (a.map (fun v => (0x14, le32 (v.setWidth 32)))).toList

def planImage (state : Option ConnState) (area : Option Half) (s : State) : List Image :=
  let f : Fields := (state.map (fun c => (0x10, [c.code]))).toList ++ areaField area
  if f.isEmpty then [] else [(s.bind.line .plan 1, fieldBytes f)]

/-- A publication is made: published at once if it fits and none waits, else it waits (R34). True: published. -/
def makePub (kind : PubKind) (images : List Image) (s : State) : State × Bool :=
  let m := { s.mem with nextPub := s.mem.nextPub + 1 }
  if m.pubs.isEmpty && stageFits m images then
    (serveReads { s with mem := publishImages s.mem.nextPub images m }, true)
  else
    let pub : Publication := { number := s.mem.nextPub, kind := kind, live := true, images := images }
    ({ s with mem := { m with pubs := m.pubs ++ [pub] } }, false)

/-- The cell table takes a new serving index and raises the epoch (R83); every better-round count becomes 0 (R121). -/
def takeServing (target : Fin 13) (s : State) : State :=
  clearTarget target { s with
    cells := { s.cells with serving := some target, epoch := s.cells.epoch + 1 }
    mob := { s.mob with slots := s.mob.slots.map (fun m => { m with better := 0 }) } }

/-- Waiting publications of some kinds act no more for their maker (R69, R118). -/
def unlivePubs (p : PubKind → Bool) (s : State) : State :=
  { s with mem := { s.mem with pubs := s.mem.pubs.map (fun q => if p q.kind then { q with live := false } else q) } }

def PubKind.isCamping : PubKind → Bool
  | .camping _ => true
  | _ => false

def PubKind.isSwitch : PubKind → Bool
  | .handover .. | .reestablishment .. => true
  | _ => false

/-- The lines of a change of serving cell made in DEEP join the dirty set (R69, R112, R117, R122). -/
def dirtyServing (target : Fin 13) (old : Option (Fin 13)) (plan : Bool) (s : State) : State :=
  let ds := [.header] ++ (old.toList.map .slot) ++ [.slot target] ++ (if plan then [DirtyLine.plan true] else [])
  ds.foldl (fun s d => addDirty d s) s

end Sys2Proof.Machine
end

