-- ==== Sys2Proof/Machine/CallOps.lean ====
section
/-! DEFINITION. Shared operations of the speech mover and the call controller (R125 to R152). -/

namespace Sys2Proof.Machine

/-! ## Connection activity (R75) -/

/-- Signalling or speech activity reloads the inactivity timer of an idle connection. -/
def activity (s : State) : State :=
  if connIdle s then { s with conn := { s.conn with inactTimer := .running s.conn.inactTime } } else s

/-! ## Speech mover (R143 to R151) -/

def silence : List Byte := List.replicate 64 0

def upOccupancy (p : Speech) : Nat := occupancy p.upProd p.upCons

/-- The downlink occupancy, a held frame counted (R150). -/
def downOccupancy (p : Speech) : Nat := occupancy p.downProd p.downCons + (if p.heldFrame.isSome then 1 else 0)

/-- The header write with the indices asked for, at their values on chip. -/
def speechHeaderReq (s : State) (up down : Bool) : WriteReq :=
  writeAt s .speech 0 ((if up then [(1, s.speech.upCons)] else []) ++ (if down then [(2, s.speech.downProd)] else []))

/-- A waiting header write takes up a further change, the one behind a held frame too (R151). -/
def mergeHeader (up down : Bool) : List Act → Option (List Act)
  | [] => none
  | .speechHeader u d :: rest => some (.speechHeader (u || up) (d || down) :: rest)
  | .speechSlot u :: rest => some (.speechSlot (u || up) :: rest)
  | a :: rest => (mergeHeader up down rest).map (a :: ·)

/-- A header write waits to be placed: a change of an index made already (R151). -/
def headerWaits (s : State) : Bool :=
  s.mem.waits.any (fun w => w.acts.any (fun a => match a with
    | .speechHeader _ _ | .speechSlot true => true
    | _ => false))

/-- The changed indices are written, or carried by the one waiting write (R151). -/
def writeHeader (up down : Bool) (s : State) : State :=
  if mustWait s then
    match ((s.mem.waits.find? (fun w => w.job == .speech)).map (·.acts)).bind (mergeHeader up down) with
    | some acts =>
      { s with mem := { s.mem with waits := s.mem.waits.map (fun w => if w.job == .speech then { w with acts := acts } else w) } }
    | none => waitActs .speech [.speechHeader up down] s
  else joinWrite (speechHeaderReq s up down) s

/-- The uplink consumer rises by one (R147, R148). -/
def advanceUp (s : State) : State :=
  writeHeader true false { s with speech := { s.speech with upCons := s.speech.upCons + 1 } }

/-- The downlink slot write, marked as speech (R150). -/
def downSlotReq (s : State) (frame : List Byte) : WriteReq :=
  { line := s.bind.line .speech (9 + s.speech.downProd.toNat % 8), bytes := bytesAt 0 (fitTo 64 frame), speech := true,
    note := .none }

/-- The slot write of a downlink frame and behind it the header write, with the uplink consumer's change if one waits (R150,
R151). -/
def placeDown (frame : List Byte) (up : Bool) (s : State) : State :=
  let t := joinWrite (downSlotReq s frame) s
  writeHeader up true { t with speech := { t.speech with downProd := t.speech.downProd + 1, heldFrame := none } }

/-- The held frame no longer waits; a change of the uplink consumer that waited with it still does (R150, R151). -/
def Act.unheld : Act → Option Act
  | .speechSlot true => some (.speechHeader true false)
  | .speechSlot false => none
  | a => some a

/-- A held frame is dropped (R150). -/
def dropHeld (s : State) : State :=
  let ws := s.mem.waits.map (fun w => { w with acts := w.acts.filterMap Act.unheld })
  { s with
    speech := { s.speech with heldFrame := none }
    mem := { s.mem with waits := ws.filter (fun w => !w.acts.isEmpty) } }

/-- A speech frame leaves, and is reported as activity (R147, R75). -/
def sendSpeech (frame : List Byte) (s : State) : State := activity (sendFrame (.sendSpeech frame) s)

/-- A record becomes ACTIVE: the uplink ring is resynchronised (R145). -/
def speechStart (r : Fin 4) (s : State) : State :=
  let moved := s.speech.upCons != s.speech.upProd
  let t := { s with speech := { s.speech with
    speaking := some r, upCons := s.speech.upProd, fetchStale := s.speech.fetchStale || s.speech.fetch != .idle } }
  if moved then writeHeader true false t else t

/-- The speaking record stops being ACTIVE (R145, R150). -/
def speechStop (s : State) : State :=
  let t := dropHeld s
  { t with speech := { t.speech with
    speaking := none, fetchStale := t.speech.fetchStale || t.speech.fetch != .idle } }

/-! ## Call records (R125 to R127) -/

/-- A record changes; the fields that changed are written, the gap count left out while it is held (R127). -/
def setRec (r : Fin 4) (f : CallRec → CallRec) (s : State) : State :=
  let old := s.calls.recs[r]
  let new := f old
  let keep := fun (l : Fields) => if s.calls.gapHeld then l.filter (fun p => p.1 != 0x18) else l
  let owed := if s.calls.gapHeld && old.gaps != new.gaps then s.calls.gapOwed ++ [r] else s.calls.gapOwed
  emitWrite .calls (writeAt s .call r.val (changedBytes (keep (callFields old)) (keep (callFields new))))
    { s with calls := { s.calls with recs := s.calls.recs.set r new, gapOwed := owed } }

/-- CALL-STATE with a cause, the record's state as detail (R127). -/
def callEvent (r : Fin 4) (cause : Option Cause) (s : State) : State :=
  raise .calls (event s .callState .none Kind.call.code (BitVec.ofNat 16 r.val) (s.calls.recs[r]).state.code
    (causeCode cause) 0) s

/-- A record changes its state: the write, the event, and the speech mover told (R127, R145). -/
def changeState (r : Fin 4) (f : CallRec → CallRec) (s : State) : State :=
  let was := (s.calls.recs[r]).state == .active
  let t := setRec r f s
  let cause := if (t.calls.recs[r]).state == .free then (t.calls.recs[r]).endCause else none
  let t := callEvent r cause t
  let now := (t.calls.recs[r]).state == .active
  if now && !was then speechStart r t else if was && !now then speechStop t else t

/-- One gap for the speaking record, held at 65535 (R148). -/
def countGap (s : State) : State :=
  match s.speech.speaking with
  | none => s
  | some r => setRec r (fun c => { c with gaps := min 65535 (c.gaps + 1) }) s

/-- A gap: a frame of the ring consumed, if it holds one, and counted (R148). -/
def speechGap (s : State) : State := countGap (if upOccupancy s.speech = 0 then s else advanceUp s)

/-! ## Call messages -/

/-- The reference of a call message that a release withdraws; the answer to a network RELEASE stays. -/
def callRef : AirMsg → Option Byte
  | .setup r _ | .answer r | .hold r | .resume r | .release r _ => some r
  | _ => none

/-- A record's WAITING messages are withdrawn, and those waiting outside dropped (R135, R136, R140): every SETUP, ANSWER, HOLD, RESUME
and RELEASE with its reference (log entry 82). -/
def withdrawCall (ref : Byte) (s : State) : State :=
  let gone := fun (q : QMsg) => callRef q.msg == some ref && !q.inFlight
  { s with
    link := joinOutside { s.link with
      queue := s.link.queue.filter (fun q => !gone q), outside := s.link.outside.filter (fun q => !gone q) }
    mem := { s.mem with waits := s.mem.waits.map (fun w => { w with acts := w.acts.filter (fun a => match a with
      | .msg _ m => callRef m != some ref
      | _ => true) }) } }

/-- The record holds the active claim (R126). -/
def holdsClaim (c : CallRec) : Bool :=
  match c.state with
  | .dialing | .ringingOut | .active => true
  | .held => c.exch == .resume
  | _ => false

/-- Another record holds the claim. -/
def claimElsewhere (r : Fin 4) (s : State) : Bool :=
  (List.finRange 4).any (fun q => q != r && holdsClaim s.calls.recs[q])

/-- The record that is not FREE and has a reference (R131, R136). -/
def recByRef (ref : Byte) (s : State) : Option (Fin 4) :=
  (List.finRange 4).find? (fun r => (s.calls.recs[r]).state != .free && (s.calls.recs[r]).ref == ref)

/-- RESUME is placed for a record (R133, R134). -/
def placeResume (r : Fin 4) (s : State) : State :=
  let id := s.link.nextId
  emitMsg (.resume (s.calls.recs[r]).ref)
    (setRec r (fun c => { c with exch := .resume, partner := none, exchMsg := some id }) s)

/-- HOLD is placed for a record, with a partner in a swap (R133, R134). -/
def placeHold (r : Fin 4) (partner : Option (Fin 4)) (s : State) : State :=
  let id := s.link.nextId
  emitMsg (.hold (s.calls.recs[r]).ref)
    (setRec r (fun c => { c with exch := .hold, partner := partner, exchMsg := some id }) s)

/-- SETUP is placed for a DIALING record whose dial string is captured (R129, R131). -/
def placeSetup (r : Fin 4) (s : State) : State :=
  let c := s.calls.recs[r]
  match c.state, c.stage, c.dial with
  | .dialing, .notPlaced, some d =>
    let id := s.link.nextId
    emitMsg (.setup c.ref d) (setRec r (fun c => { c with stage := .placed, setupMsg := some id }) s)
  | _, _, _ => s

/-- The call controller is told CONNECTED (R70, R131). -/
def placeSetups (s : State) : State := (List.finRange 4).foldl (fun s r => placeSetup r s) s

/-- A record as it stands once its exchange and its timer are gone, and what it waits for of its messages (R135, R136, R140). -/
def CallRec.clear (c : CallRec) : CallRec :=
  { c with
    timer := .stopped, exch := .none, partner := none, exchMsg := none, setupMsg := none, relMsg := none,
    relCause := none, dial := none, reading := false, stage := .notPlaced }

/-- A pending request is dropped: the request result is that request with REFUSED-STATE (R136, R138, R140). -/
def CallRec.dropPending (c : CallRec) : CallRec :=
  match c.pending with
  | some q => { c with pending := none, reqCode := q.code, result := .refusedState }
  | none => c

/-- The record made FREE with a cause. -/
def CallRec.free (cause : Cause) (c : CallRec) : CallRec := { c.clear.dropPending with state := .free, endCause := some cause }

/-- The capture read of a record is not taken when it completes (R130). -/
def dropCapture (r : Fin 4) (s : State) : State :=
  if (s.calls.recs[r]).reading then discardReads (fun f => f == .dial r) s else s

/-- A record becomes FREE. -/
def freeRec (r : Fin 4) (cause : Cause) (s : State) : State :=
  changeState r (CallRec.free cause) (dropCapture r s)

/-- A local release of a record that is not FREE, its swap partner left as it is (R140). -/
def localRelease (r : Fin 4) (cause : Cause) (s : State) : State :=
  if (s.calls.recs[r]).state == .free then s
  else freeRec r cause (withdrawCall (s.calls.recs[r]).ref s)

/-- Local releases of several records, in record order (R140). -/
def localReleaseAll (p : CallRec → Bool) (cause : Cause) (s : State) : State :=
  (List.finRange 4).foldl (fun s r => if p s.calls.recs[r] then localRelease r cause s else s) s

/-- The exchange of a record that leaves it passes to its swap partner, or ends (R134): `old` is the record before. -/
def partnerLeft (old : CallRec) (s : State) : State :=
  match old.exch, old.partner with
  | .hold, some x => placeResume x s
  | .swapWait, some y => setRec y (fun c => { c with partner := none }) s
  | _, _ => s

/-- A local release of one record alone; its swap partner goes on (R134, R140). -/
def localReleaseOne (r : Fin 4) (cause : Cause) (s : State) : State :=
  partnerLeft s.calls.recs[r] (localRelease r cause s)

/-- The network may know of the call: its SETUP has been sent or is IN-FLIGHT (R135, R141). -/
def setupKnown (c : CallRec) (s : State) : Bool :=
  c.state != .dialing || c.stage == .sent || (c.stage == .placed && msgInFlight c.setupMsg s)

/-- RELEASE is placed and the record becomes RELEASING (R135). A SETUP that is IN-FLIGHT then is the record's no longer, and its report
changes nothing (log entry 81). -/
def placeRelease (r : Fin 4) (cause : Cause) (s : State) : State :=
  let old := s.calls.recs[r]
  let s := dropCapture r (withdrawCall old.ref s)
  let id := s.link.nextId
  let t := emitMsg (.release old.ref cause) s
  partnerLeft old (changeState r (fun c => { c.clear with
    state := .releasing, relCause := some cause, relMsg := some id, timer := .running Config.releasingFrames }) t)

/-- A release by the host or by a call timer, with a cause (R135). -/
def releaseRec (r : Fin 4) (cause : Cause) (s : State) : State :=
  let c := s.calls.recs[r]
  match c.state with
  | .free | .releasing => s
  | _ => if setupKnown c s then placeRelease r cause s else localReleaseOne r cause s

/-- A network RELEASE with a reference (R136). -/
def networkRelease (ref : Byte) (cause : Cause) (s : State) : State :=
  match recByRef ref s with
  | none => emitMsg (.releaseDone ref) s
  | some r =>
    let old := s.calls.recs[r]
    partnerLeft old (freeRec r cause (emitMsg (.releaseDone ref) (withdrawCall ref s)))

/-- A HOLD or RESUME has failed (R133, R134). -/
def exchangeFailed (r : Fin 4) (s : State) : State :=
  let c := s.calls.recs[r]
  let clear := fun (c : CallRec) => { c with exch := Exchange.none, partner := none, exchMsg := none, timer := .stopped }
  let s := setRec r clear s
  match c.exch, c.partner with
  | .hold, some x => callEvent x (some .holdFailed) (setRec x clear s)
  | .hold, none => callEvent r (some .holdFailed) s
  | .resume, _ => callEvent r (some .resumeFailed) s
  | _, _ => s

/-- One record of a radio shutdown (R141). -/
def shutdownRec (r : Fin 4) (cause : Cause) (s : State) : State :=
  let c := s.calls.recs[r]
  if c.state == .free then s
  else
    let known := setupKnown c s
    let s := withdrawCall c.ref s
    freeRec r cause (if known then emitMsg (.release c.ref cause) s else s)

/-- Step 1 of a radio shutdown (R80, R141). -/
def shutdownCalls (cause : Cause) (s : State) : State :=
  (List.finRange 4).foldl (fun s r => shutdownRec r cause s) s

/-- Gap counts are written again; where no publication carried them, now (R127). -/
def writeGaps (s : State) : State :=
  let write := fun (t : State) (r : Fin 4) =>
    emitWrite .calls (writeAt t .call r.val (bytesAt 0x18 (le16ofNat (t.calls.recs[r]).gaps))) t
  ((List.finRange 4).filter (fun r => s.calls.gapHeld && s.calls.gapOwed.contains r)).foldl write
    { s with calls := { s.calls with gapHeld := false, gapOwed := [] } }

/-- A publication with the ACTIVE record has been made: the gap count is written as usual again (R127). -/
def gapsCarried (s : State) : State := { s with calls := { s.calls with gapHeld := false, gapOwed := [] } }

/-- The call and speech controllers are told that a switch has started (R109, steps 5 and 6). -/
def tellSwitchStart (s : State) : State :=
  { s with
    speech := { s.speech with switchOn := true }
    calls := { s.calls with switchOn := true, gapHeld := true, gapOwed := [] } }

end Sys2Proof.Machine
end

