-- ==== Sys2Proof/Machine/TextOps.lean ====
section
/-! DEFINITION. Shared operations of the text controller (R153 to R170). -/

namespace Sys2Proof.Machine

/-! ## Descriptors (R153, R154) -/

def Send.descNo (x : Send) : Nat := x.desc.val

/-- The descriptor a ring index refers to. -/
def descOf (i : Byte) : Fin 16 := ⟨i.toNat % 16, by omega⟩

def DescState.final : DescState → Bool
  | .sent | .failed | .cancelled | .interrupted => true
  | _ => false

/-- A descriptor changes; the fields that changed are written (R154). -/
def setDesc (n : Fin 16) (f : Desc → Desc) (s : State) : State :=
  let old := s.texts.descs[n]
  emitWrite .texts (writeAt s .outbox (descLine n.val)
      (changedBytes (descFields n.val old) (descFields n.val (f old))))
    { s with texts := { s.texts with descs := s.texts.descs.set n (f old) } }

/-- How far the retire index goes: past final descriptors, up to the producer. -/
def retireTo (t : Texts) : Nat → Byte → Byte
  | 0, i => i
  | k + 1, i => if i != t.prod && (t.descs[descOf i]).state.final then retireTo t k (i + 1) else i

/-- The retire index advances and is written (R154). -/
def retire (s : State) : State :=
  let i := retireTo s.texts 16 s.texts.retire
  if i = s.texts.retire then s
  else emitWrite .texts (writeAt s .outbox 0 [(1, i)]) { s with texts := { s.texts with retire := i } }

/-- A descriptor becomes final, with the attempts given: its write, the retire index, TEXT-DONE (R154). -/
def finishDesc (n : Fin 16) (st : DescState) (cause : Option Cause) (attempts : Nat) (s : State) : State :=
  let s := retire (setDesc n (fun d => { d with state := st, fail := cause, attempts := attempts }) s)
  raise .texts (event s .textDone .none Kind.outbox.code (BitVec.ofNat 16 n.val) st.code (causeCode cause) 0) s

/-! ## Sending (R156 to R162) -/

def setSend (f : Send → Send) (s : State) : State := { s with texts := { s.texts with send := s.texts.send.map f } }

def sendReads (f : ReadFor) : Bool :=
  match f with
  | .descriptor | .body _ => true
  | _ => false

/-- The identity of the current segment's message. -/
def Send.msgId (x : Send) : Option Nat :=
  match x.status with
  | .placed id => some id
  | _ => none

/-- The send record ends: outstanding reads are discarded, a WAITING segment is withdrawn (R157, R162). -/
def dropSend (s : State) : State :=
  match s.texts.send with
  | none => s
  | some x =>
    { discardReads sendReads (withdrawOpt x.msgId s) with
      texts := { s.texts with send := none } }

/-- The sending text ends with a final state (R160). -/
def endSend (st : DescState) (cause : Option Cause) (s : State) : State :=
  match s.texts.send with
  | none => s
  | some x => finishDesc x.desc st cause (s.texts.descs[x.desc]).attempts (dropSend s)

/-- One attempt more, at most 3 (R153). -/
def attemptsAfter (n : Fin 16) (s : State) : Nat := min 3 ((s.texts.descs[n]).attempts + 1)

/-- Bytes i×160 on of the body (R159). -/
def Send.segment (x : Send) (i : Nat) : List Byte := (x.body.drop (160 * i)).take 160

/-- The current segment is placed, or kept while a switch is in progress (R159). -/
def placeSegment (s : State) : State :=
  match s.texts.send with
  | none => s
  | some x =>
    if s.texts.switchOn then setSend (fun x => { x with status := .kept }) s
    else
      let id := s.link.nextId
      emitMsg (.textSegment x.ref x.dest (BitVec.ofNat 8 x.cur) (BitVec.ofNat 8 x.count) (x.segment x.cur))
        (setSend (fun x => { x with status := .placed id, ackTimer := .stopped }) s)

/-- The acknowledgement timer's expiry, or a segment dropped: one attempt (R160). -/
def segmentFailed (s : State) : State :=
  match s.texts.send with
  | none => s
  | some x =>
    if x.cancel then endSend .cancelled none s
    else
      let k := attemptsAfter x.desc s
      if 3 ≤ k then finishDesc x.desc .failed (some .noAck) k (dropSend s)
      else placeSegment (setDesc x.desc (fun d => { d with attempts := k }) s)

/-- A send begins with the head (R158). -/
def beginSend (n : Fin 16) (s : State) : State :=
  let ref := s.texts.lastRef + 1
  let x : Send := { desc := n, ref := ref, address := 0, length := 0, dest := [], lines := [], body := [], count := 0, cur := 0,
                    status := .reading, ackTimer := .stopped, cancel := false }
  emitRead .texts .descriptor (s.bind.line .outbox (descLine n.val))
    (setDesc n (fun d => { d with state := .sending, ref := ref })
      { s with texts := { s.texts with send := some x, lastRef := ref } })

/-- The connection leaves service under a sending text (R162). -/
def textLost (cause : Cause) (s : State) : State :=
  match s.texts.send with
  | none => s
  | some x =>
    let k := attemptsAfter x.desc s
    let s := dropSend s
    if 3 ≤ k then finishDesc x.desc .failed (some cause) k s
    else setDesc x.desc (fun d => { d with state := .queued, attempts := k }) s

/-- The head of the outbox, if a descriptor is submitted (R154). -/
def headDesc (s : State) : Option (Fin 16) :=
  if s.texts.retire = s.texts.prod then none else some (descOf s.texts.retire)

/-- A connect has failed with TEXT-OUT in the set (R156); with no QUEUED head left no timer starts (log entry 87). -/
def textConnectFailed (s : State) : State :=
  match headDesc s with
  | none => s
  | some n =>
    if (s.texts.descs[n]).state == .queued then
      let k := attemptsAfter n s
      let s := { s with texts := { s.texts with retryTimer := .running s.sleep.base } }
      if 3 ≤ k then finishDesc n .failed (some .noConnection) k s else setDesc n (fun d => { d with attempts := k }) s
    else s

/-- The head is ready to send (R156). -/
def headReady (s : State) : Bool :=
  match headDesc s with
  | none => false
  | some n =>
    (s.texts.descs[n]).state == .queued && s.texts.send.isNone && s.sleep.level == .awake && s.conn.shutdown.isNone &&
      !s.texts.retryTimer.runs && !jobWaits .texts s

/-- The current segment is IN-FLIGHT (R157). -/
def segmentInFlight (x : Send) (s : State) : Bool :=
  match x.status with
  | .placed id => msgInFlight (some id) s
  | _ => false

/-- The current segment is set aside for a switch, or the text cancelled by its mark (R161). -/
def keepSegment (s : State) : State :=
  match s.texts.send with
  | none => s
  | some x =>
    if x.cancel then endSend .cancelled none s
    else setSend (fun x => { x with status := .kept, ackTimer := .stopped }) (withdrawOpt x.msgId s)

/-- Step 3 of R109: the text controller is told that a switch has started (R161). -/
def textSwitchStart (s : State) : State :=
  let s := { s with texts := { s.texts with switchOn := true } }
  match s.texts.send with
  | none => s
  | some x =>
    match x.status with
    | .awaiting => keepSegment s
    | .placed _ => if segmentInFlight x s then s else keepSegment s
    | .reading | .kept => s

/-- Step 7 of R109: the segment's SEND-SIG has been abandoned (R161). -/
def textSendAbandoned (s : State) : State :=
  match s.texts.send with
  | some { status := .placed _, .. } => keepSegment s
  | _ => s

/-- Step 3 of R113: the kept segment is placed (R161). -/
def textSwitchEnd (s : State) : State :=
  let s := { s with texts := { s.texts with switchOn := false } }
  match s.texts.send with
  | some { status := .kept, .. } => placeSegment s
  | _ => s

/-! ## Inbox (R163 to R169) -/

def delivered (t : Texts) : Nat := occupancy t.inProd t.inCons

/-- The free slot count (R163). -/
def freeSlots (t : Texts) : Nat := 8 - delivered t - t.resv.length

def ackMsg (ref index : Byte) (r : AckResult) (s : State) : State := emitMsg (.segmentAck ref index r) s

/-- The inbox-full flag changes and is written (R164, R166). -/
def setFull (b : Bool) (s : State) : State :=
  if s.texts.full = b then s
  else emitWrite .texts (writeAt s .inbox 0 [(2, flagCode b)]) { s with texts := { s.texts with full := b } }

def ctxFields (c : Ctx) (status : Byte) : Fields :=
  inboxSlotFields status c.ref (BitVec.ofNat 8 c.count) c.got c.length c.sender c.start

/-- A write of the slot header's changed fields (R167 to R169). -/
def writeSlotHeader (c : Ctx) (bytes : LineBytes) (s : State) : State :=
  emitWrite .texts (writeAt s .inbox (inboxSlotLine c.ring) bytes) s

/-- The finished entries at the producer are delivered in order (R168). -/
def deliver : List Resv → State → State
  | [], s => s
  | e :: rest, s =>
    if e.finish == .open_ then s
    else
      let prod := s.texts.inProd + 1
      let s := emitWrite .texts (writeAt s .inbox 0 [(0, prod)])
        { s with texts := { s.texts with inProd := prod, resv := rest } }
      let s := raisePrimary .texts (event s .textArrived .primary Kind.inbox.code
        (BitVec.ofNat 16 (e.ring.toNat % 8)) (resvStatus e.finish) 0 0) .textArrived s
      deliver rest s

def deliverAll (s : State) : State := deliver s.texts.resv s

/-- A context closes with a finish: its reservation, its key, the delivery (R168, R169). -/
def closeCtx (c : Ctx) (f : Finish) (s : State) : State :=
  let recent := s.texts.recent ++ [(c.sender, c.ref)]
  { s with texts := { s.texts with
    ctxs := s.texts.ctxs.filter (fun x => x.ring != c.ring)
    resv := s.texts.resv.map (fun e => if e.ring == c.ring then { e with finish := f } else e)
    recent := recent.drop (recent.length - 4) } }

/-- A text finishes COMPLETE (R168). -/
def finishCtx (c : Ctx) (s : State) : State :=
  deliverAll (closeCtx c .complete (writeSlotHeader c (changedBytes (ctxFields c 1) (ctxFields c 2)) s))

/-- A context is abandoned (R169). -/
def abandonCtx (c : Ctx) (s : State) : State :=
  let s := closeCtx c .abandoned (writeSlotHeader c (changedBytes (ctxFields c 1) (ctxFields c 3)) s)
  deliverAll (raise .texts (event s .inboxAbandoned .none Kind.inbox.code (BitVec.ofNat 16 (c.ring.toNat % 8)) 0 0
    (c.ref.setWidth 32)) s)

/-- Step 3 of a radio shutdown: every open context in ascending order of ring index (R169): the reservation order. -/
def abandonAll (s : State) : State :=
  s.texts.resv.foldl (fun s e =>
    match s.texts.ctxs.find? (fun c => c.ring == e.ring) with
    | some c => abandonCtx c s
    | none => s) s

/-- The writes of a payload at its offset, one for each line touched (R167). -/
def payloadWrites (s : State) (ring : Byte) (i : Nat) (p : List Byte) : List WriteReq :=
  let start := 64 + 160 * i
  let all := bytesAt start p
  ((List.range 12).filter (fun j => start / 64 ≤ j && j ≤ (start + p.length - 1) / 64)).map (fun j =>
    writeAt s .inbox (inboxSlotLine ring + j)
      ((all.filter (fun b => b.1 / 64 == j)).map (fun b => (b.1 % 64, b.2))))

/-- A segment of an open context is taken (R167). -/
def takeSegment (c : Ctx) (g : Segment) (s : State) : State :=
  let i := g.index.toNat
  if g.count.toNat != c.count then s
  else if c.got.contains i then ackMsg g.ref g.index .ok s
  else
    let c' := { c with got := c.got ++ [i], length := c.length + g.payload.length }
    let s := (payloadWrites s c.ring i g.payload).foldl (fun s w => emitWrite .texts w s) s
    let s := writeSlotHeader c (changedBytes (ctxFields c 1) (ctxFields c' 1)) s
    let s := { s with texts := { s.texts with ctxs := s.texts.ctxs.map (fun x => if x.ring == c.ring then c' else x) } }
    let s := ackMsg g.ref g.index .ok s
    if c'.got.length = c.count then finishCtx c' s else s

/-- The first segment of a new text (R166); with 4 contexts open it is BUSY, whatever is free (log entry 86). -/
def openSegment (g : Segment) (s : State) : State :=
  if 4 ≤ s.texts.ctxs.length then ackMsg g.ref g.index .busy s
  else if freeSlots s.texts = 0 then
    let was := s.texts.full
    let s := ackMsg g.ref g.index .inboxFull (setFull true s)
    if was then s else emitMsg .inboxFull s
  else
    let ring := s.texts.inProd + BitVec.ofNat 8 s.texts.resv.length
    let c : Ctx := { sender := g.sender, ref := g.ref, count := g.count.toNat, got := [], length := 0, ring := ring,
                     start := s.frame, timer := .running Config.contextFrames }
    let s := { s with texts := { s.texts with
      ctxs := s.texts.ctxs ++ [c], resv := s.texts.resv ++ [{ ring := ring, finish := .open_ }] } }
    takeSegment c g (writeSlotHeader c (fieldBytes (ctxFields c 1)) s)

/-- A segment that memory can take is checked in the order of R165. -/
def checkSegment (g : Segment) (s : State) : State :=
  if g.index.toNat + 1 < g.count.toNat && g.payload.length != 160 then s
  else if s.texts.recent.contains (g.sender, g.ref) then ackMsg g.ref g.index .ok s
  else
    match s.texts.ctxs.find? (fun c => c.sender == g.sender && c.ref == g.ref) with
    | some c => takeSegment c g s
    | none => openSegment g s

end Sys2Proof.Machine
end

