-- ==== Sys2Proof/Machine/ConnOps.lean ====
section
/-! DEFINITION. Shared operations of the connection controller up to CONNECTED, and the host's call requests (R65 to R76, R128
to R134, R138). -/

namespace Sys2Proof.Machine

/-! ## The connection state (R65, R66) -/

/-- What leaving or entering a state brings with it (R95, R98, R104, R108). -/
def afterConn (old st : ConnState) (s : State) : State :=
  let s := if old = .noService ∧ st ≠ .noService then { s with cells := { s.cells with roundTimer := .stopped } } else s
  let s := if old = .connected ∧ st ≠ .connected then dropOrder (clearCandidates s) else s
  if st = .connected then { s with cells := { s.cells with paced := true } }
  else if st = .off then abortRound s
  else s

/-- The state changes with a publication or in DEEP: no write of its own (R66). -/
def setConnQuiet (st : ConnState) (s : State) : State :=
  afterConn s.conn.state st { s with conn := { s.conn with state := st } }

/-- The state changes and is written (R66). -/
def setConn (st : ConnState) (s : State) : State :=
  afterConn s.conn.state st (notePlan .conn s { s with conn := { s.conn with state := st } })

/-- The registered area changes and is written (R66). -/
def setArea (a : Option Half) (s : State) : State := notePlan .conn s { s with conn := { s.conn with area := a } }

/-- The conn timers but the shutdown timer are cancelled (R77, R79, R80). -/
def stopConnTimers (c : Conn) : Conn :=
  { c with
    connectTimer := .stopped, areaTimer := .stopped, inactTimer := .stopped, reestTimer := .stopped, areaMsg := none }

/-! ## Connecting and purposes (R70 to R72) -/

/-- CONNECT-REQUEST is placed with the opening purpose and the connect timer started (R71, R72). -/
def placeRequest (p : Purpose) (attempts : Nat) (s : State) : State :=
  emitMsg (.connectRequest p) { s with conn := { s.conn with
    attempts := attempts, opening := some p, connectTimer := .running Config.connectFrames,
    reqMsg := some s.link.nextId, reqOld := s.conn.reqOld ++ [s.link.nextId] } }

/-- CONNECTING begins (R71). -/
def connectStart (p : Purpose) (s : State) : State :=
  setConn .connecting (placeRequest p 1 { s with conn := { s.conn with reqOld := [] } })

/-- AREA-UPDATE is placed with the serving slot's area code (R73). -/
def placeAreaUpdate (s : State) : State :=
  match servingSlot s with
  | none => s
  | some x =>
    emitMsg (.areaUpdate x.area)
      { s with conn := { s.conn with awaited := some x.area, areaMsg := some s.link.nextId } }

/-- A purpose is added (R70). -/
def addPurpose (p : Purpose) (s : State) : State :=
  if s.conn.state == .off || s.conn.shutdown.isSome || s.conn.purposes.contains p then s
  else
    let t := { s with conn := { s.conn with purposes := s.conn.purposes ++ [p] } }
    match s.conn.state with
    | .camped => connectStart p t
    | .connected => if p = .area then placeAreaUpdate t else s
    | _ => t

/-- A non-empty set starts CONNECTING at the moment the state becomes CAMPED (R70). -/
def startWaiting (s : State) : State :=
  match s.conn.purposes with
  | p :: _ => connectStart p s
  | [] => s

/-- The area check (R73). -/
def areaCheck (s : State) : State :=
  match servingSlot s with
  | none => s
  | some x => if s.conn.area = some x.area then s else addPurpose .area s

/-- The state has become CONNECTED: the purposes are served (R70, R73, R104, R156). -/
def serveConnected (s : State) : State :=
  let s := { s with
    conn := { s.conn with purposes := s.conn.purposes.filter (· == .area) }
    texts := { s.texts with retryTimer := .stopped } }
  let s := placeSetups s
  let s := if s.conn.purposes.contains .area then placeAreaUpdate s else s
  evaluateCandidates s

/-- The connect has failed: every purpose fails and the state becomes CAMPED (R72). -/
def failConnect (s : State) : State :=
  let ps := s.conn.purposes
  let s := if ps.contains .callOut then localReleaseAll (fun c => c.state == .dialing) .noConnection s else s
  let s := if ps.contains .textOut then textConnectFailed s else s
  setConn .camped { s with conn := { s.conn with
    purposes := [], attempts := 0, opening := none, connectTimer := .stopped, reqMsg := none } }

/-- The attempt's CONNECT-REQUEST is withdrawn if WAITING, and its report ignored (R71, R72). -/
def dropRequest (s : State) : State :=
  let s := withdrawOpt s.conn.reqMsg s
  { s with conn := { s.conn with reqMsg := none, connectTimer := .stopped } }

/-- Every CONNECT-REQUEST of this connect still WAITING is withdrawn (R71). -/
def dropRequests (s : State) : State :=
  dropRequest (s.conn.reqOld.foldl (fun s id => withdrawMsg id s) s)

/-- An attempt fails (R72). -/
def connectFail (s : State) : State :=
  let s := dropRequest s
  match s.conn.opening with
  | some p => if s.conn.attempts < 3 then placeRequest p (s.conn.attempts + 1) s else failConnect s
  | none => failConnect s

/-- AREA leaves the set (R73). -/
def areaServed (s : State) : State :=
  { s with conn := { s.conn with
    purposes := s.conn.purposes.filter (· != .area), awaited := none, areaTimer := .stopped, areaMsg := none } }

/-! ## Host requests (R128 to R134, R138) -/

/-- The result of a request, with its code (R128). -/
def CallRec.answered (req : Request) (res : ReqResult) (c : CallRec) : CallRec :=
  { c with reqCode := req.code, result := res }

def writeResult (r : Fin 4) (req : Request) (res : ReqResult) (s : State) : State := setRec r (CallRec.answered req res) s

/-- The next reference in the cycle 1 to 255 that no record outside FREE holds (R129). -/
def nextRef (s : State) : Nat → Byte → Byte
  | 0, v => v
  | k + 1, v =>
    let n := BitVec.ofNat 8 (v.toNat % 255 + 1)
    if (recByRef n s).isSome then nextRef s k n else n

/-- An ORIGINATE taken (R129, R130, R177). -/
def originate (r : Fin 4) (s : State) : State :=
  let s := if s.sleep.level = .quiescing then abandonSleep .activity .activity 0 s else s
  let ref := nextRef s 5 s.calls.lastRef
  let s := { s with calls := { s.calls with lastRef := ref } }
  let fresh := fun (c : CallRec) => { c.answered .originate .accepted with
    state := CallState.dialing, ref := ref, dir := .outgoing, start := s.frame, gaps := 0, endCause := none, caller := [],
    stage := .notPlaced, dial := none, reading := true, timer := .running Config.dialingFrames }
  emitRead .calls (.dial r) (s.bind.line .call r.val) (addPurpose .callOut (changeState r fresh s))

/-- An ANSWER taken (R132). -/
def answerCall (r : Fin 4) (s : State) : State :=
  changeState r (fun c => { c.answered .answer .accepted with state := .active, timer := .stopped })
    (emitMsg (.answer (s.calls.recs[r]).ref) s)

/-- The record that is ACTIVE with exchange NONE, other than one (R128). -/
def swapPartner (r : Fin 4) (s : State) : Option (Fin 4) :=
  (List.finRange 4).find? (fun q => q != r && (s.calls.recs[q]).state == .active && (s.calls.recs[q]).exch == .none)

/-- A SWAP taken (R134). -/
def swapCalls (r y : Fin 4) (s : State) : State :=
  placeHold y (some r) (setRec r (fun c => { c.answered .swap .accepted with exch := .swapWait, partner := some y }) s)

/-- A request is taken against the state as it stands, or refused (R128). A RELEASE taken places two writes, its result's and then the
change of state's (log entry 83). -/
def takeRequest (r : Fin 4) (req : Request) (s : State) : State :=
  let c := s.calls.recs[r]
  let refuse := fun (res : ReqResult) => writeResult r req res s
  match req with
  | .originate =>
    if c.state != .free then refuse .refusedState
    else if connSeen s == .off || connSeen s == .noService then refuse .refusedNoService
    else if claimElsewhere r s then refuse .refusedActive
    else originate r s
  | .answer =>
    if c.state != .incoming then refuse .refusedState
    else if claimElsewhere r s then refuse .refusedActive
    else answerCall r s
  | .hold =>
    if c.state != .active || c.exch != .none then refuse .refusedState
    else placeHold r none (writeResult r .hold .accepted s)
  | .resume =>
    if c.state != .held || c.exch != .none then refuse .refusedState
    else if claimElsewhere r s then refuse .refusedActive
    else placeResume r (writeResult r .resume .accepted s)
  | .swap =>
    if c.state != .held || c.exch != .none then refuse .refusedState
    else
      match swapPartner r s with
      | none => refuse .refusedState
      | some y => swapCalls r y s
  | .release =>
    if c.state == .free then refuse .refusedState
    else releaseRec r .locl (writeResult r .release .accepted s)

/-- A request stored during a switch (R138). -/
def storePending (r : Fin 4) (req : Request) (s : State) : State :=
  let was := (s.calls.recs[r]).pending.isSome
  let s := setRec r (fun c => { c.answered req .pending with pending := some req }) s
  if was then callEvent r (some .superseded) s else s

/-- A request of R128 arrives: stored during a switch, else taken. -/
def callRequest (r : Fin 4) (req : Request) (s : State) : State :=
  if s.calls.switchOn then storePending r req s else takeRequest r req s

/-- The pending requests run in record order (R138). -/
def runPending (s : State) : State :=
  (List.finRange 4).foldl (fun s r =>
    match (s.calls.recs[r]).pending with
    | some req => takeRequest r req (setRec r (fun c => { c with pending := none }) s)
    | none => s) s

/-- The accessory answer (R139). -/
def accessoryAnswer (s : State) : State :=
  match (List.finRange 4).filter (fun r => (s.calls.recs[r]).state == .incoming) with
  | [r] => callRequest r .answer s
  | _ => s

end Sys2Proof.Machine
end

