-- ==== Sys2Proof/Machine/MobOps.lean ====
section
/-! DEFINITION. Switches, reestablishment, leaving service, publications taking effect, reselection, camping and the radio
shutdown (R66 to R81, R107 to R123). -/

namespace Sys2Proof.Machine

/-! ## Starting and ending a switch (R109, R113) -/

/-- SWITCH is sent to a slot's captured carrier and cell code; a SEND-SIG outstanding is abandoned first (R60, R109). -/
def sendSwitch (n : Fin 13) (s : State) : State :=
  let x := s.cells.slots[n]
  let busy := s.link.opSendSig.runs
  let mine := s.mob.report && msgInFlight s.mob.reportMsg s
  let seg := match s.texts.send with | some y => segmentInFlight y s | none => false
  let s := if busy then { s with link := abandonSend s.link } else s
  let s := if mine then withdrawOpt s.mob.reportMsg { s with mob := { s.mob with report := false } } else s
  let s := if seg then textSendAbandoned s else s
  request .switch (.switch x.carrier x.code) s

/-- A LEVEL-REPORT still WAITING is withdrawn, outside the queue too (R109, step 2; log entry 68). -/
def withdrawReport (s : State) : State :=
  if s.mob.report && !msgInFlight s.mob.reportMsg s then
    withdrawOpt s.mob.reportMsg { s with mob := { s.mob with report := false } }
  else s

/-- A switch starts from IDLE or ARMED: steps 1 to 7 of R109. -/
def switchStart (kind : SwKind) (st : SwState) (target : Fin 13) (s : State) : State :=
  let s := { s with mob := { s.mob with
    state := st, confirming := false, order := none, actTimer := .stopped, orderDue := false,
    switch := some { kind := kind, old := s.cells.serving, target := target } } }
  let s := textSwitchStart (withdrawReport (clearCandidates (pauseReload (abortRound s))))
  sendSwitch target (tellSwitchStart { s with link := { s.link with hold := true } })

/-- A switch ends: steps 2 to 6 of R113. -/
def endSwitch (s : State) : State :=
  let s := runPending (writeGaps { s with calls := { s.calls with switchOn := false } })
  let s := textSwitchEnd { s with speech := { s.speech with switchOn := false } }
  let s := { s with
    link := { s.link with hold := false }
    cells := { s.cells with paced := true }
    mob := { s.mob with state := .idle, confirming := false, switch := none, confirmMsg := none } }
  let s := processReload s
  if s.conn.state = .connected then considerReport (evaluateCandidates s) else s

/-! ## Leaving service (R79) -/

/-- The connection leaves service with a cause; `told` when AREA-REJECTED or RADIO-FAULT has told the host. -/
def leaveService (cause : Cause) (told : Bool) (s : State) : State :=
  let s := unlivePubs PubKind.isCamping { s with
    conn := { stopConnTimers s.conn with camping := false, reqMsg := none }
    mob := { s.mob with reestWaits := false } }
  let s := textLost cause (localReleaseAll (fun c => c.state != .free) cause s)
  let s := setConn .noService
    { s with conn := { s.conn with purposes := [], attempts := 0, opening := none, awaited := none } }
  let s := if told then s
    else raisePrimary .conn (event s .serviceLost .primary 0 0 0 0 0) .serviceLost s
  let s := if s.mob.state = .rebuilding then endSwitch s else s
  if cause = .radioLoss then restartRound s else s

/-! ## Reestablishment (R77, R116) -/

/-- The mobility controller starts a reestablishment, or waits for a stale SWITCH (R116, R119). -/
def startReestablish (fromFallback : Bool) (s : State) : State :=
  if s.mob.stale then { s with mob := { s.mob with reestWaits := true } }
  else
    let s := { s with mob := { s.mob with reestWaits := false } }
    match campChoice s true with
    | none =>
      let s := leaveService .radioLoss false s
      if fromFallback then endSwitch s else s
    | some t =>
      if fromFallback then
        sendSwitch t (pauseReload { s with mob := { s.mob with
          state := .rebuilding, confirming := false,
          switch := some { kind := .reestablishment, old := s.cells.serving, target := t } } })
      else switchStart .reestablishment .rebuilding t s

/-- The serving cell is lost in CONNECTED (R77). -/
def loseServing (fromFallback : Bool) (s : State) : State :=
  startReestablish fromFallback (setConn .reestablishing { s with conn := stopConnTimers s.conn })

/-- A change of a slot's filtered level loses the serving cell (R77). -/
def levelLost (n : Fin 13) (s : State) : Bool :=
  s.cells.serving == some n && s.conn.state == .connected && s.conn.shutdown.isNone && !switchOn s &&
    (match servingLevel s with
      | some l => l < s.conn.lossThr
      | none => true)

/-- What one event's change of a slot since an earlier state brings with it: the mobility controller evaluates the slots, then for
the serving slot the connection controller may lose its cell, which ends every candidate; the slot and those that changed with
it are mirrored once each (R77, R89, R100, R104). -/
def slotEvent (n : Fin 13) (old s : State) : State :=
  let lost := (s.cells.slots[n]).filtered != (old.cells.slots[n]).filtered && levelLost n s
  let t := if lost then endCandidates (sortCandidates s) else sortCandidates s
  let u := mirrorSlots (fun m => m == n || slotDiffers old t m) t
  if lost then loseServing false u else u

/-! ## Changes of serving cell (R69, R112, R117, R122) -/

/-- A reselection takes effect (R122). -/
def reselected (target : Fin 13) (old : Option (Fin 13)) (s : State) : State :=
  let s := takeServing target { s with mob := { s.mob with resel := false } }
  let s := raise .mob (event s .reselected .secondary Kind.cell.code (BitVec.ofNat 16 target.val) 0 0
    ((slotCode old).setWidth 32)) s
  areaCheck s

/-- A camping takes effect (R69, R70). -/
def camped (target : Fin 13) (s : State) : State :=
  let s := setConnQuiet .camped (takeServing target { s with conn := { s.conn with camping := false } })
  let s := raise .conn (event s .serviceFound .secondary Kind.cell.code (BitVec.ofNat 16 target.val) 0 0 0) (startWaiting s)
  areaCheck s

/-- HANDOVER-DONE and the end of the switch (R113, R117); 0x100 is the detail REESTABLISH. -/
def switchDone (target : Fin 13) (detail : Word) (s : State) : State :=
  endSwitch (raise .mob (event s .handoverDone .none Kind.cell.code (BitVec.ofNat 16 target.val) 0 0 detail) s)

/-- A handover takes effect; overtaken, only the cell table and the area are taken (R113, R118). -/
def handedOver (target : Fin 13) (old : Option (Fin 13)) (area : Option Half) (live : Bool) (s : State) : State :=
  let s := takeServing target s
  let s := { s with conn := { s.conn with area := area.orElse (fun _ => s.conn.area) } }
  if live then switchDone target ((slotCode old).setWidth 32) s else s

/-- A reestablishment takes effect (R78, R117). -/
def rebuilt (target : Fin 13) (area : Option Half) (live : Bool) (s : State) : State :=
  let s := takeServing target s
  let s := { s with conn := { s.conn with area := area.orElse (fun _ => s.conn.area) } }
  if live then switchDone target 0x100 (serveConnected (setConnQuiet .connected s)) else s

/-- What a publication's maker does at the moment it is published. -/
def published (kind : PubKind) (live : Bool) (s : State) : State :=
  match kind with
  | .camping t => if live then camped t s else takeServing t s
  | .reselection t old => reselected t old s
  | .handover t old area => handedOver t old area live s
  | .reestablishment t _ area => rebuilt t area live s

/-- A publication is made, and takes effect at once if it is published at once (R34). -/
def publish (kind : PubKind) (images : List Image) (s : State) : State :=
  match makePub kind images s with
  | (t, true) => published kind true t
  | (t, false) => t

/-- Reselection to a target (R122). -/
def reselect (t : Fin 13) (s : State) : State :=
  let old := s.cells.serving
  if memoryAvailable s then
    publish (.reselection t old) ([headerImage t s] ++ (old.toList.map (fun o => slotImage o s)) ++ [targetImage t s])
      { s with mob := { s.mob with resel := true } }
  else reselected t old (dirtyServing t old false s)

/-- Camping on a chosen slot (R69). -/
def camp (t : Fin 13) (s : State) : State :=
  if memoryAvailable s then
    publish (.camping t) ([headerImage t s, targetImage t s] ++ planImage (some .camped) none s)
      { s with conn := { s.conn with camping := true } }
  else camped t (dirtyServing t none true s)

/-- The switch commits: the publication of R112 or R117, or the dirty set in DEEP. -/
def commit (w : SwRec) (state : Option ConnState) (kind : Option Half → PubKind) (s : State) : State :=
  let area := newArea w.target s
  let s := { s with mob := { s.mob with state := .committing } }
  if memoryAvailable s then
    publish (kind area)
      ([headerImage w.target s] ++ (w.old.toList.map (fun o => slotImage o s)) ++ [targetImage w.target s] ++
        callImage s ++ planImage state area s) (gapsCarried s)
  else
    published (kind area) true (dirtyServing w.target w.old (state.isSome || area.isSome) s)

def commitHandover (w : SwRec) (s : State) : State := commit w none (.handover w.target w.old) s

def commitReestablish (w : SwRec) (s : State) : State :=
  commit w (some .connected) (.reestablishment w.target w.old) s

/-- SERVING-LOST in CAMPED (R123, R77). -/
def forcedReselect (s : State) : State :=
  if s.mob.resel then s
  else
    match campChoice s true with
    | some t => reselect t s
    | none => leaveService .radioLoss false s

/-! ## Switch outcomes (R111 to R119) -/

def handoverFailed (w : SwRec) (s : State) : State :=
  raise .mob (event s .handoverFailed .none Kind.cell.code (BitVec.ofNat 16 w.target.val) 0 Cause.sync.code 0) s

/-- Fallback begins (R114). -/
def beginFallback (w : SwRec) (s : State) : State :=
  let s := { s with mob := { s.mob with state := .fallback, confirming := false, confirmMsg := none } }
  match w.old with
  | some o => sendSwitch o s
  | none => s

/-- The fallback's SWITCH has failed: both cells are lost (R115). -/
def fallbackFailed (w : SwRec) (s : State) : State :=
  let s := handoverFailed w s
  match s.conn.state with
  | .connected => loseServing true s
  | .camped => forcedReselect (endSwitch s)
  | _ => endSwitch s

/-- The handover's target is a usable slot that still has the order's carrier and cell code (R108). -/
def orderHolds (o : Order) (s : State) : Bool :=
  let x := s.cells.slots[o.target]
  x.usable && x.carrier == o.carrier && x.code == o.code

/-- TRANSFER-FAIL with cause UNKNOWN, and IDLE (R107, R108). -/
def refuseOrder (s : State) : State :=
  emitMsg (.transferFail .unknown)
    { s with mob := { s.mob with state := .idle, order := none, actTimer := .stopped, orderDue := false } }

/-- The armed order is due: checked and started, unless a stale SWITCH is outstanding (R108, R109, R119). -/
def orderDue (s : State) : State :=
  match s.mob.order with
  | none => s
  | some o =>
    if s.mob.stale then { s with mob := { s.mob with orderDue := true } }
    else if orderHolds o s then switchStart .handover .switching o.target s
    else refuseOrder s

/-- The stale-switch flag is cleared, and what waited on it starts (R119). -/
def clearStale (s : State) : State :=
  let s := { s with mob := { s.mob with stale := false } }
  if s.mob.orderDue then orderDue s
  else if s.mob.reestWaits then startReestablish false s
  else s

/-- The outcome of a SWITCH, true for SYNCED; TIMED-OUT is taken as FAILED (R111, R114 to R116, R119). -/
def switchOutcome (synced : Bool) (s : State) : State :=
  if s.mob.stale then clearStale s
  else
    match s.mob.state, s.mob.switch with
    | .switching, some w =>
      if s.mob.confirming then s
      else if synced then
        emitMsg .transferDone { s with mob := { s.mob with confirming := true, confirmMsg := some s.link.nextId } }
      else beginFallback w s
    | .fallback, some w =>
      if synced then endSwitch (handoverFailed w (emitMsg (.transferFail .sync) s)) else fallbackFailed w s
    | .rebuilding, some w =>
      if s.mob.confirming then s
      else if synced then
        let code := (w.old.map (fun o => (s.cells.slots[o]).code)).getD 0
        emitMsg (.reestablish code) { s with
          mob := { s.mob with confirming := true, confirmMsg := some s.link.nextId }
          conn := { s.conn with reestTimer := .running Config.reestablishmentFrames } }
      else leaveService .radioLoss false s
    | _, _ => s

/-! ## Radio shutdown (R80, R81) -/

/-- Step 4 of R80: switch, reestablishment and armed order are dropped (R119, R108). -/
def dropSwitch (s : State) : State :=
  let s := dropOrder { s with mob := { s.mob with reestWaits := false } }
  if switchOn s then
    let stale := s.link.opSwitch.runs
    endSwitch (unlivePubs PubKind.isSwitch { s with mob := { s.mob with stale := stale, confirmMsg := none } })
  else s

/-- A radio shutdown is requested with a cause (R80). -/
def requestShutdown (cause : Cause) (s : State) : State :=
  if s.conn.state == .off || s.conn.shutdown.isSome then s
  else
    let s := { s with conn := { s.conn with shutdown := some cause, shutNoDetach := s.conn.state == .noService } }
    let s := abandonAll (endSend .failed (some cause) (shutdownCalls cause s))
    let s := unlivePubs PubKind.isCamping (dropSwitch s)
    let s := { s with conn := { stopConnTimers s.conn with
      camping := false, purposes := [], attempts := 0, opening := none, awaited := none, reqMsg := none } }
    if s.conn.shutNoDetach then s
    else
      emitMsg .detach { s with conn := { s.conn with
        detachMsg := some s.link.nextId, shutTimer := .running Config.shutdownFrames } }

/-- The signalling queue is emptied at the end of a shutdown; an IN-FLIGHT message is left to its SIG-SENT or its timeout
(R58, R81). -/
def emptyQueue (s : State) : State :=
  let mine := s.mob.report && !msgInFlight s.mob.reportMsg s
  { s with
    link := { s.link with
      queue := (s.link.queue.filter (·.inFlight)).map (fun q => { q with left := true }), outside := [] }
    mob := { s.mob with report := s.mob.report && !mine }
    mem := { s.mem with waits := s.mem.waits.map (fun w => { w with acts := w.acts.filter (fun a => match a with
      | .msg _ _ => false
      | _ => true) }) } }

/-- A shutdown ends (R81). In UNBINDING its DETACH, if it is IN-FLIGHT, is still the one whose SIG-SENT ends the unbinding (R16; log
entry 65). -/
def shutdownEnd (s : State) : State :=
  if s.conn.shutdown.isSome then
    emptyQueue (setConn .off { s with conn := { s.conn with
      shutdown := none, shutTimer := .stopped, shutNoDetach := false
      detachMsg := if s.bind.state = .unbinding then s.conn.detachMsg else none } })
  else s

/-! ## The end of an unbinding (R16) -/

/-- The anchor status write (R2, R8, R10, R15, R16). -/
def statusWrite (s : State) (st : Byte) (rej : Option (Cause × Option Kind)) (note : WriteNote) : WriteReq :=
  { writeAt s .anchor 2 (fieldBytes (statusFields st rej)) with note := note }

/-- The writes that a waiting job's work places, with the values of this moment: at an unbinding's end they are placed, and the rest
of the work is dropped (R16, R194; log entry 15). -/
def Act.writes (s : State) : Act → List WriteReq
  | .write w => [w]
  | .placeEvents => s.events.owed.toList.map (fun h => { owedReq s h with note := .none })
  | .speechHeader up down => [speechHeaderReq s up down]
  | .speechSlot true => [speechHeaderReq s true false]
  | _ => []

def ReadFor.isInternal : ReadFor → Bool
  | .host _ => false
  | _ => true

/-- Every job at its power-on value, its outstanding reads discarded with no MEMORY-ERROR for them (R16, R82, R101, R124, R142, R152,
R171, R191, R192). The radio link controller is taken as one of the jobs, so that the consecutive-unanswered count is 0 after an
unbinding (log entry 80). -/
def resetJobs (s : State) : State :=
  let s := discardReads ReadFor.isInternal s
  { s with
    link := { Link.initial with nextId := s.link.nextId }
    conn := Conn.initial, cells := Cells.initial, mob := Mob.initial, calls := Calls.initial, speech := Speech.initial
    texts := Texts.initial, sleep := Sleep.initial, events := Events.initial
    mem := { s.mem with pubs := [], waits := [], reads := s.mem.reads.map ReadEntry.hush } }

/-- With the sleep controller at its power-on values neither its hold nor self-refresh stays: the held requests go on, and DRAM
leaves self-refresh (R20, R41; log entry 64). -/
def wakeMemory (s : State) : State := presentExit (if s.port.sleepHold then liftSleepHold s else s)

/-- The unbinding ends: the jobs are reset at once, UNBOUND once its write is accepted (R16). Writes that jobs still wait
to place keep their place before the status write. -/
def unbindEnd (s : State) : State :=
  let acts := (s.mem.waits.flatMap (fun w => w.acts.flatMap (Act.writes s))).map Act.write
  let t := resetJobs { s with mem := endForce s.mem, bind := { s.bind with ending := true, unbindTimer := .stopped, noDetach := false } }
  let w := statusWrite s BindState.unbound.statusCode none .unbound
  wakeMemory (if acts.isEmpty then emitWrite .binder w t else waitActs .binder (acts ++ [.write w]) t)

end Sys2Proof.Machine
end

