-- ==== Sys2Proof/Machine/Settle.lean ====
section
/-! DEFINITION. Rounds, message outcomes, the fault declaration, and what the part does by itself at the end of every command
(R28, R56, R59, R69, R75, R81, R97 to R99, R121, R122, R156, R184). -/

namespace Sys2Proof.Machine

/-! ## Rounds (R97 to R99, R121, R122) -/

/-- The better-round count of a slot after a round (R121). -/
def betterAfter (s : State) (n : Fin 13) : Nat :=
  let x := s.cells.slots[n]
  if x.usable && s.cells.serving != some n then
    match servingLevel s, x.filtered with
    | some a, some b => if a + s.mob.reselMargin ≤ b then min 4 ((s.mob.slots[n]).better + 1) else 0
    | _, _ => 0
  else 0

def setCounts (f : Fin 13 → Nat) (s : State) : State :=
  { s with mob := { s.mob with slots := Vector.ofFn (fun n => { s.mob.slots[n] with better := f n }) } }

/-- A slot is eligible for reselection (R122). -/
def eligible (s : State) (n : Fin 13) : Bool :=
  campable s n && s.cells.serving != some n &&
    (s.mob.reselRounds ≤ (s.mob.slots[n]).better ||
      (match servingLevel s with
        | some l => l < s.conn.campThr
        | none => true))

/-- The mobility controller's part of a reported round; outside CAMPED the counts become 0 while a reselection is committing too
(R121, R122; log entry 71). -/
def roundReselect (s : State) : State :=
  if s.conn.state != .camped then setCounts (fun _ => 0) s
  else if s.mob.resel then s
  else
    let t := setCounts (betterAfter s) s
    match bestSlot t (eligible t) with
    | some n => reselect n t
    | none => t

/-- A round taken in full is reported to the mobility controller and then to the connection controller (R99, R69, R73). -/
def reportRound (s : State) : State :=
  let s := roundReselect s
  match s.conn.state with
  | .noService =>
    if s.conn.camping || s.conn.shutdown.isSome then s
    else
      match campChoice s false with
      | some n => camp n s
      | none => s
  | .camped => areaCheck s
  | _ => s

/-- Rounds may begin and go on (R93, R98, R100). -/
def roundOpen (s : State) : Bool :=
  portOpen s && s.bind.state == .bound && s.link.up && !switchOn s && s.conn.state != .off &&
    s.conn.state != .reestablishing && !jobWaits .cells s

/-- In CONNECTED a round or its next measurement waits for a strobe (R98). -/
def heldBack (s : State) : Bool := s.conn.state == .connected && s.cells.paced

/-- The serving slot is measured first (R97). -/
def servingFirst (c : ConnState) : Bool :=
  match c with
  | .camped | .connecting | .connected => true
  | _ => false

/-- The round's next slot, and whether it is taken as the serving slot; a slot that became the serving one in mid-round is passed by
(R97, R123; log entry 73). -/
def nextSlot (s : State) (pos : RoundPos) : Option (Fin 13 × Bool) :=
  let first := servingFirst s.conn.state
  let plain := fun (above : Fin 13 → Bool) =>
    ((List.finRange 13).find? (fun n =>
      (s.cells.slots[n]).usable && above n && !(first && s.cells.serving == some n))).map (fun n => (n, false))
  match pos with
  | .serving =>
    match s.cells.serving with
    | some n => if first && (s.cells.slots[n]).usable then some (n, true) else plain (fun _ => true)
    | none => plain (fun _ => true)
  | .after f last => plain (fun n => f != some n && (match last with
      | some m => decide (m < n)
      | none => true))

/-- A round begins; in NO-SERVICE the round timer with it (R97, R98). -/
def beginRound (s : State) : State :=
  let timer := if s.conn.state = .noService then .running s.sleep.base else s.cells.roundTimer
  { s with cells := { s.cells with round := some .serving, roundWaits := false, roundTimer := timer } }

/-- A round is due to begin: waiting, or in CONNECTED at the strobe (R98). -/
def roundDue (s : State) : Bool := if s.conn.state = .connected then !s.cells.paced else s.cells.roundWaits

/-- The rounds as far as they go now. -/
def pumpRound : Nat → State → State
  | 0, s => s
  | k + 1, s =>
    if !roundOpen s then s
    else
      match s.cells.round with
      | none => if roundDue s then pumpRound k (beginRound s) else s
      | some pos =>
        if s.cells.phase != .idle then s
        else
          match nextSlot s pos with
          | none => pumpRound k (reportRound { s with cells := { s.cells with round := none, paced := true } })
          | some (n, first) => if heldBack s then s else startMeasure n first s

/-- The outcome of a MEASURE: a level, or a miss (R94, R96). -/
def measureOutcome (level : Option Int) (s : State) : State :=
  if s.cells.residue then
    let s := { s with cells := { s.cells with residue := false } }
    if s.cells.phase = .sample then sendMeasure s else s
  else
    match s.cells.phase, s.cells.measSlot with
    | .sample, some n =>
      let t := roundMoves (setSlot n (fun x => match level with
        | some l => x.addSample l s.frame
        | none => x.miss) s)
      let t := { t with cells := { t.cells with phase := .idle, measSlot := none, measStray := false, paced := true } }
      if (t.cells.slots[n]).filtered = (s.cells.slots[n]).filtered then mirror n t else slotEvent n s t
    | _, _ => s

/-! ## Messages sent and dropped (R59) -/

/-- The record whose message of some kind has an identity. -/
def recWith (f : CallRec → Option Nat) (id : Nat) (s : State) : Option (Fin 4) :=
  (List.finRange 4).find? (fun r => f s.calls.recs[r] == some id)

/-- A call message has been SENT (R131, R133). -/
def callSent (id : Nat) (s : State) : State :=
  match recWith CallRec.setupMsg id s, recWith CallRec.exchMsg id s with
  | some r, _ => setRec r (fun c => { c with stage := .sent }) s
  | none, some r => setRec r (fun c => { c with timer := .running Config.exchangeFrames }) s
  | none, none => s

/-- A call message has been DROPPED (R131, R133, R135). -/
def callDropped (id : Nat) (s : State) : State :=
  match recWith CallRec.setupMsg id s, recWith CallRec.exchMsg id s, recWith CallRec.relMsg id s with
  | some r, _, _ => localReleaseOne r .noConnection s
  | none, some r, _ => exchangeFailed r s
  | none, none, some r => freeRec r ((s.calls.recs[r]).relCause.getD .locl) s
  | none, none, none => s

/-- The sending text's current segment is the message. -/
def segmentIs (id : Nat) (s : State) : Bool := (s.texts.send.bind Send.msgId) == some id

/-- The shutdown's DETACH has been SENT: the shutdown ends, and an unbinding with it; a shutdown with cause UNBIND is ended by the end
of the unbinding alone, with no OFF written (R16, R81; log entry 66). -/
def detachSent (s : State) : State :=
  let t := if s.conn.shutdown = some .unbind then s else shutdownEnd s
  if t.bind.state = .unbinding then unbindEnd t else t

/-- A job is told SENT (R59): signalling activity first (R61), then what its chapter does. -/
def toldSent (q : QMsg) (s : State) : State :=
  let s := activity s
  match msgJob q.msg with
  | .mob =>
    if s.mob.report && s.mob.reportMsg == some q.id then
      { s with mob := { s.mob with report := false, reportTimer := .running Config.reportFrames } }
    else if s.mob.confirming && s.mob.confirmMsg == some q.id then
      match s.mob.state, s.mob.switch with
      | .switching, some w => commitHandover w { s with mob := { s.mob with confirmMsg := none } }
      | _, _ => s
    else s
  | .conn =>
    if s.conn.areaMsg == some q.id then
      { s with conn := { s.conn with areaMsg := none, areaTimer := .running Config.areaAnswerFrames } }
    else if s.conn.detachMsg == some q.id then detachSent s
    else s
  | .texts =>
    if segmentIs q.id s then
      setSend (fun x => { x with status := .awaiting, ackTimer := .running Config.ackFrames }) s
    else s
  | _ => callSent q.id s

/-- A job is told DROPPED (R59). -/
def toldDropped (q : QMsg) (s : State) : State :=
  match msgJob q.msg with
  | .mob =>
    if s.mob.report && s.mob.reportMsg == some q.id then considerReport { s with mob := { s.mob with report := false } }
    else if s.mob.confirming && s.mob.confirmMsg == some q.id then
      match s.mob.state, s.mob.switch with
      | .switching, some w => beginFallback w s
      | .rebuilding, some _ => leaveService .radioLoss false s
      | _, _ => s
    else s
  | .conn =>
    if s.conn.reqMsg == some q.id then (if s.conn.state = .connecting then connectFail s else s)
    else if s.conn.areaMsg == some q.id then areaServed s
    else if s.conn.detachMsg == some q.id then shutdownEnd s
    else s
  | .texts => if segmentIs q.id s then segmentFailed s else s
  | _ => callDropped q.id s

/-- Messages refused at handing: their jobs are told DROPPED at once (R58). -/
def pumpRefused : Nat → State → State
  | 0, s => s
  | k + 1, s =>
    match s.link.refused with
    | [] => s
    | q :: rest => pumpRefused k (toldDropped q { s with link := { s.link with refused := rest } })

/-! ## Fault declaration (R56) -/

/-- Every operation abandoned, the queue emptied, LINK-RESET sent (R56, points 1 to 4). A stale SWITCH so abandoned clears its flag, and
starts nothing that waited on it (R119; log entry 72). -/
def linkDown (s : State) : State :=
  linkOut .linkReset { s with
    link := { s.link with
      up := false, unanswered := 0, opMeasure := .stopped, opListen := .stopped, opSendSig := .stopped,
      opSwitch := .stopped, askMeasure := none, askListen := none, askSendSig := none, askSwitch := none, queue := [],
      outside := [], refused := [], recovery := .running Config.recoveryFrames }
    mem := { s.mem with waits := s.mem.waits.map (fun w => { w with acts := w.acts.filter (fun a => match a with
      | .msg _ _ => false
      | _ => true) }) }
    cells := { s.cells with residue := false }
    mob := { s.mob with report := false, stale := false } }

/-- NO-SERVICE is written again where a camping is cancelled, so that its waiting plan image carries it (R69, R79). -/
def noServiceWrite (s : State) : State :=
  planLineWrite .conn 1 (.plan true) (fieldBytes [(0x10, [ConnState.noService.code])]) s

/-- The connection controller is told RADIO-FAULT (R79, R81). -/
def connFault (s : State) : State :=
  match s.conn.state with
  | .off => s
  | .noService =>
    if s.conn.shutdown.isSome || !s.conn.camping then s
    else
      noServiceWrite (unlivePubs PubKind.isCamping { s with conn := { s.conn with camping := false } })
  | _ =>
    if s.conn.shutdown.isSome then shutdownEnd s else leaveService .radioFault true s

/-- The radio unit is declared faulted at an operation's third timeout in a row (R56, R118); the event's subject number is 0 (log entry
89). -/
def declareFault (op : RadioOp) (s : State) : State :=
  let s := connFault (abortRound (linkDown s))
  let s := if switchOn s then endSwitch (unlivePubs PubKind.isSwitch s) else s
  raisePrimary .link (event s .radioFault .primary (Job.code .link) 0 (RadioOp.code op) 0 0) .radioFault s

/-! ## The end of every command -/

/-- A connection that takes segments, with no shutdown in progress (R165). -/
def segmentUp (s : State) : Bool :=
  (s.conn.state == .connected || s.conn.state == .reestablishing) && s.conn.shutdown.isNone

/-- A segment is taken, or discarded for want of a connection or of memory, which then rouses the part (R165). -/
def segmentIn (g : Segment) (s : State) : State :=
  if !segmentUp s then s
  else if memoryAvailable s then checkSegment g s
  else rouse s

/-- Segments that arrived while a write waited to be placed are taken after it (R167). -/
def pumpArrivals : List Segment → State → State
  | [], s => s
  | g :: rest, s =>
    if jobWaits .texts s then s
    else pumpArrivals rest (segmentIn g { s with texts := { s.texts with arrivals := rest } })

/-- A ready head of the outbox is acted on (R156). -/
def pumpText (s : State) : State :=
  if headReady s && jobsRun s then
    match headDesc s, s.conn.state with
    | some n, .connected => beginSend n s
    | some _, .camped | some _, .connecting => addPurpose .textOut s
    | _, _ => s
  else s

/-- The inactivity timer follows the idleness of the connection (R75). -/
def pumpIdle (s : State) : State :=
  match connIdle s, s.conn.inactTimer.runs with
  | true, false => { s with conn := { s.conn with inactTimer := .running s.conn.inactTime } }
  | false, true => { s with conn := { s.conn with inactTimer := .stopped } }
  | _, _ => s

/-- No job whose writes a shutdown makes still waits to place one (R16, R81). -/
def shutdownPlaced (s : State) : Bool := !(jobWaits .calls s || jobWaits .texts s || jobWaits .cells s)

/-- A shutdown and an unbinding without a DETACH end at their last write; a shutdown with cause UNBIND is ended by the end of the
unbinding alone (R16, R81; log entry 66). -/
def pumpShutdown (s : State) : State :=
  let own := s.conn.shutdown.isSome && s.conn.shutdown != some .unbind
  let s := if own && s.conn.shutNoDetach && shutdownPlaced s then shutdownEnd s else s
  if s.bind.state == .unbinding && s.bind.noDetach && !s.bind.ending && shutdownPlaced s then unbindEnd s else s

/-- The rouse window follows the memory work in ROUSED (R184). -/
def pumpWindow (s : State) : State :=
  if s.sleep.level = .roused then
    match s.sleep.busy, memoryWork s with
    | true, false =>
      { s with sleep := { s.sleep with busy := false, rouseTimer := .running Config.rouseFrames } }
    | false, true => { s with sleep := { s.sleep with busy := true, rouseTimer := .stopped, reentry := false } }
    | _, _ => s
  else s

/-- The last things of a moment: pending events placed, the next message sent, WAKE, the rouse window. -/
def finish (s : State) : State := closeMoment (pumpWindow (checkWake (sendNext (placeEvents s))))

/-- What the part does by itself once a command has had its effect. -/
def settle (s : State) : State :=
  let s := pumpShutdown (pumpRefused 8 s)
  let s := pumpRound 6 (writeBack s)
  let s := pumpText (pumpArrivals s.texts.arrivals s)
  finish (pumpIdle (pumpRefused 8 s))

end Sys2Proof.Machine
end

