-- ==== Sys2Proof/Machine/ExecRadio.lean ====
section
/-! DEFINITION. Commands of the radio link, the connection, the cell table, measurement and mobility (R47 to R124). -/

namespace Sys2Proof.Machine

/-- What a command makes: settled where its occasion is there, nothing where it is not (log entry 3). -/
def runIf (occasion : Bool) (f : State → State) (s : State) : Host.Outcome State Fault Refusal :=
  .next (if occasion then settle (f s) else s)

/-- Frames from the radio unit are taken: the jobs run and the link is UP (R51, R53). -/
def linkOpen (s : State) : Bool := jobsRun s && s.link.up

/-- An air message in range is handed to its job, reported as signalling activity first (R61). -/
def runAir (c : Instr) (f : State → State) (s : State) : Host.Outcome State Fault Refusal :=
  runIf (linkOpen s && airValid c) (fun s => f (activity s)) s

/-- An answer against its outstanding operation (R54, R55). -/
def runAnswer (op : RadioOp) (f : State → State) (s : State) : Host.Outcome State Fault Refusal :=
  runIf (linkOpen s && (s.link.op op).runs)
    (fun s => f { s with link := { endOp op s.link with unanswered := 0 } }) s

/-! ## Listening for pages (R180, R181) -/

/-- The quiet-cycle count after a NO-PAGE, and the stretch of the cycle (R181). -/
def quietCycle (s : State) : State :=
  let q := if s.sleep.lineSince || (s.sleep.lines[(3 : Fin 4)]).active then 0 else s.sleep.quiet + 1
  let p :=
    if q < 16 then { s.sleep with quiet := q }
    else if s.sleep.cycle < effectiveCeiling s then { s.sleep with quiet := 0, cycle := 2 * s.sleep.cycle }
    else { s.sleep with quiet := 0 }
  notePlan .sleep s { s with sleep := p }

/-- A listen slot's outcome taken (R180); none is TIMED-OUT. -/
def listenTaken (o : Option ListenOutcome) (s : State) : State :=
  let s := match o with
    | some .noPage => quietCycle s
    | some .pageCall => addPurpose .callIn (primaryCause .pageCall 0 s)
    | some .pageText =>
      let s := rouse (addPurpose .textIn s)
      notePlan .sleep s { s with sleep := baseCycle s.sleep }
    | none => s
  let s := { s with sleep := { s.sleep with lineSince := false } }
  match s.conn.state with
  | .camped | .connecting => wantRound s
  | _ => s

/-- A listen slot's outcome; in OFF its result is not used (R81). -/
def listenOutcome (o : Option ListenOutcome) (s : State) : State :=
  if s.conn.state = .off then s else listenTaken o s

def execListenDone (o : ListenOutcome) (s : State) : Host.Outcome State Fault Refusal :=
  runAnswer .listen (listenOutcome (some o)) s

/-! ## The radio link (R54 to R59) -/

/-- The in-flight message after SIG-SENT: it leaves, its job is told, outside messages join (R58, R59). -/
def sigSent (s : State) : State :=
  match s.link.queue.find? (·.inFlight) with
  | none => s
  | some q => toldSent q { s with link := joinOutside { s.link with queue := s.link.queue.filter (fun x => x.id != q.id) } }

def execSigSent (s : State) : Host.Outcome State Fault Refusal := runAnswer .sendSig sigSent s

/-- The in-flight message after a SEND-SIG timeout: WAITING again, or dropped at its third, or at once where the end of a shutdown
left it (R58, R59). -/
def sendTimedOut (s : State) : State :=
  match s.link.queue.find? (·.inFlight) with
  | none => s
  | some q =>
    if q.left || 2 ≤ q.attempts then
      toldDropped q
        { s with link := joinOutside { s.link with queue := s.link.queue.filter (fun x => x.id != q.id) } }
    else
      let again := fun (x : QMsg) => if x.id == q.id then { x with inFlight := false, attempts := x.attempts + 1 } else x
      { s with link := { s.link with queue := s.link.queue.map again } }

/-- TIMED-OUT is told to the operation's block (R54); a SEND-SIG timeout that declares the fault is told there (R59). -/
def timedOut (op : RadioOp) (s : State) : State :=
  match op with
  | .measure => measureOutcome none s
  | .listen => listenOutcome none s
  | .sendSig => if 2 ≤ s.link.unanswered then s else sendTimedOut s
  | .switch => switchOutcome false s

/-- A response timeout is taken: the block is told, then the count rises, and at 3 the fault is declared (R54 to R56). What the rounds do
at a MEASURE's or a LISTEN's timeout comes before the fault: a round taken in full is reported (R97 to R99; log entry 16). -/
def responseTimeout (op : RadioOp) (s : State) : State :=
  let n := s.link.unanswered + 1
  let s := timedOut op { s with link := endOp op s.link }
  if Config.unansweredLimit ≤ n then declareFault op (pumpRound 6 s)
  else { s with link := { s.link with unanswered := n } }

def execResponseTimeout (op : RadioOp) (s : State) : Host.Outcome State Fault Refusal :=
  runIf (linkOpen s && s.link.op op == .due) (responseTimeout op) s

/-- LINK-RESET is sent again (R57). -/
def execRecoveryTimerExpiry (s : State) : Host.Outcome State Fault Refusal :=
  runIf (jobsRun s && !s.link.up && s.link.recovery == .due)
    (fun s => linkOut .linkReset { s with link := { s.link with recovery := .running Config.recoveryFrames } }) s

/-- The radio unit has recovered (R57); the event's subject number is 0 (log entry 89). -/
def linkReady (s : State) : State :=
  let s := { s with
    link := { s.link with up := true, recovery := .stopped, unanswered := 0 }
    cells := { s.cells with lastCarrier := none } }
  let s := if s.conn.state = .noService then wantRound s else s
  raise .link (event s .radioRecovered .none (Job.code .link) 0 0 0 0) s

def execLinkReady (s : State) : Host.Outcome State Fault Refusal := runIf (jobsRun s && !s.link.up) linkReady s

/-! ## The connection (R67 to R81) -/

/-- A parameter in range replaces the value in force (R67). -/
def takeConnParam (p : ConnParam) (v : Half) (c : Conn) : Option Conn :=
  match p with
  | .inactivity => (natIn 100 6000 v.toNat).map (fun n => { c with inactTime := n })
  | .campThreshold => (levelIn v).map (fun l => { c with campThr := l })
  | .lossThreshold => (levelIn v).map (fun l => { c with lossThr := l })

def connectionParameter (p : ConnParam) (v : Half) (s : State) : State :=
  match takeConnParam p v s.conn with
  | some c => { s with conn := c }
  | none => ignoreConfig .plan 0 (ConnParam.offset p) s

def execConnectionParameter (p : ConnParam) (v : Half) (s : State) : Host.Outcome State Fault Refusal :=
  runIf (noticeOpen s) (connectionParameter p v) s

/-- The radio request (R68). -/
def radioRequest (v : Byte) (s : State) : State :=
  match boolOf v.toNat with
  | none => ignoreConfig .plan 0 0x00 s
  | some true =>
    if s.conn.state == .off && s.conn.shutdown.isNone then wantRound (setConn .noService s) else s
  | some false => requestShutdown .locl s

def execRadioRequest (v : Byte) (s : State) : Host.Outcome State Fault Refusal := runIf (noticeOpen s) (radioRequest v) s

/-- CONNECT-GRANT (R71, R72, R80). -/
def connectGrant (s : State) : State :=
  if s.conn.shutdown.isSome then s
  else
    match s.conn.state with
    | .connecting =>
      let s := dropRequests s
      serveConnected (setConn .connected { s with conn := { s.conn with attempts := 0, opening := none } })
    | .camped => emitMsg .leave s
    | _ => s

def execConnectGrant (s : State) : Host.Outcome State Fault Refusal := runAir .connectGrant connectGrant s

/-- CONNECT-REJECT (R72, R80). -/
def connectReject (s : State) : State :=
  if s.conn.state == .connecting && s.conn.shutdown.isNone then connectFail s else s

def execConnectReject (s : State) : Host.Outcome State Fault Refusal := runAir .connectReject connectReject s

def execConnectTimerExpiry (s : State) : Host.Outcome State Fault Refusal :=
  runIf (jobsRun s && s.conn.connectTimer == .due && s.conn.state == .connecting) connectFail s

/-- An answer to AREA-UPDATE is taken (R73, R80). -/
def areaAnswered (area : Half) (s : State) : Bool :=
  s.conn.state == .connected && s.conn.shutdown.isNone && s.conn.purposes.contains .area && s.conn.awaited == some area

/-- AREA-ACCEPT (R73). -/
def areaAccept (area : Half) (s : State) : State :=
  if areaAnswered area s then
    raise .conn (event s .areaUpdated .secondary Kind.plan.code 0 0 0 (area.setWidth 32))
      (areaServed (setArea (some area) s))
  else s

def execAreaAccept (area : Half) (s : State) : Host.Outcome State Fault Refusal :=
  runAir (.areaAccept area) (areaAccept area) s

/-- AREA-REJECT (R74). -/
def areaReject (area : Half) (s : State) : State :=
  if areaAnswered area s then
    let s := { s with conn := { s.conn with areaTimer := .stopped } }
    let s := match s.cells.serving with
      | some n => changeSlot n (fun x => { x with barred := true }) s
      | none => s
    leaveService .radioLoss true
      (raisePrimary .conn (event s .areaRejected .primary Kind.plan.code 0 0 0 (area.setWidth 32)) .areaRejected s)
  else s

def execAreaReject (area : Half) (s : State) : Host.Outcome State Fault Refusal :=
  runAir (.areaReject area) (areaReject area) s

def execAreaAnswerTimerExpiry (s : State) : Host.Outcome State Fault Refusal :=
  runIf (jobsRun s && s.conn.areaTimer == .due) areaServed s

/-- LEAVE, and CAMPED (R76). -/
def leaveIdle (s : State) : State :=
  setConn .camped (emitMsg .leave { s with conn := { s.conn with inactTimer := .stopped } })

def execInactivityTimerExpiry (s : State) : Host.Outcome State Fault Refusal :=
  runIf (jobsRun s && s.conn.inactTimer == .due && s.conn.state == .connected) leaveIdle s

/-- REESTABLISH-ACCEPT (R78, R80, R117). -/
def reestablishAccept (s : State) : State :=
  match s.conn.state, s.mob.state, s.mob.switch with
  | .reestablishing, .rebuilding, some w =>
    if s.conn.reestTimer.runs && s.conn.shutdown.isNone then
      commitReestablish w { s with conn := { s.conn with reestTimer := .stopped } }
    else s
  | _, _, _ => s

def execReestablishAccept (s : State) : Host.Outcome State Fault Refusal :=
  runAir .reestablishAccept reestablishAccept s

def execReestablishmentTimerExpiry (s : State) : Host.Outcome State Fault Refusal :=
  runIf (jobsRun s && s.conn.reestTimer == .due && s.conn.state == .reestablishing) (leaveService .radioLoss false) s

def execShutdownTimerExpiry (s : State) : Host.Outcome State Fault Refusal :=
  runIf (jobsRun s && s.conn.shutTimer == .due && s.conn.shutdown.isSome) shutdownEnd s

/-- SERVING-LOST (R72, R77, R80, R110, R123). -/
def servingLost (s : State) : State :=
  if s.conn.shutdown.isSome || switchOn s then s
  else
    match s.conn.state with
    | .connected => loseServing false s
    | .camped => forcedReselect s
    | .connecting => forcedReselect (failConnect (dropRequest s))
    | _ => s

def execServingLost (s : State) : Host.Outcome State Fault Refusal := runIf (linkOpen s) servingLost s

/-! ## The cell table and measurement (R84 to R100) -/

/-- A configuration value is taken into the captured configuration (R84, R85). -/
def takeConfig (n : Fin 13) (word : CellWord) (v : Half) (s : State) : State :=
  if cellWordOk word v then
    let t := setSlot n (Slot.take word v) s
    let t := if t.cells.measSlot = some n then abortMeasure (roundMoves t) else t
    slotEvent n s (leaveReload n t)
  else ignoreConfig .cell (BitVec.ofNat 16 n.val) (CellWord.offset word) s

/-- A configuration notice (R85 to R87). -/
def cellNotice (n : Fin 13) (word : CellWord) (v : Half) (s : State) : State :=
  if involved s n then
    { s with cells := { s.cells with
      reload := if s.cells.reload.contains n then s.cells.reload else s.cells.reload ++ [n] } }
  else if slotFrozen s n then ignoreConfig .cell (BitVec.ofNat 16 n.val) (CellWord.offset word) s
  else takeConfig n word v s

def execCellConfigurationNotice (n : Fin 13) (word : CellWord) (v : Half) (s : State) :
    Host.Outcome State Fault Refusal :=
  runIf (noticeOpen s) (cellNotice n word v) s

/-- MEMORY-ERROR with the requesting job as subject, its number 0 (log entry 89), and the line address as detail, raised by the read path
whatever the job waits to place (R44). -/
def memoryError (j : Job) (line : Line) (s : State) : State :=
  raiseNow (event s .memoryError .none (Job.code j) 0 0 0 (BitVec.ofNat 32 (64 * line))) s

/-- A reload has failed: the slot is unusable (R88, R91). -/
def reloadFailed (n : Fin 13) (s : State) : State :=
  slotEvent n s (setSlot n (fun x => { x with samples := [], unusable := true })
    (memoryError .cells (s.bind.line .cell (1 + n.val)) s))

/-- The four words a reload read carries are taken as notices, in ascending address order (R88, R86). -/
def takeSlotLine (n : Fin 13) (line : List Byte) (s : State) : State :=
  cellNotice n .areaCode (halfOf line 6) (cellNotice n .cellCode (halfOf line 4) (cellNotice n .carrier (halfOf line 2)
    (cellNotice n .inUse ((byteOf line 0).setWidth 16) s)))

/-- A reload read completes (R88). -/
def reloadDone (n : Fin 13) (r : Completed) (s : State) : State :=
  let s := { s with cells := { s.cells with reloadRead := none } }
  if r.2.2 || involved s n then reloadNext s
  else
    let s := { s with cells := { s.cells with reload := s.cells.reload.filter (fun m => m != n) } }
    reloadNext (if r.2.1 then reloadFailed n s else takeSlotLine n r.1 s)

/-- A completed internal read is handed to its requester. -/
def runRead (e : Option ReadEntry) (data : List Byte) (err : Bool) (g : Completed → State → State) (s : State) :
    Host.Outcome State Fault Refusal :=
  match e.bind (fun e => completeRead e data err s) with
  | some (r, t) => .next (settle (g r t))
  | none => .next s

def ReadFor.isReload : ReadFor → Bool
  | .reload _ => true
  | _ => false

def execReloadReadDone (data : ReadData) (err : Bool) (s : State) : Host.Outcome State Fault Refusal :=
  match dueRead ReadFor.isReload data.line.toNat s.mem with
  | some r =>
    match r.for_ with
    | .reload n => runRead (some r) data.bytes err (reloadDone n) s
    | _ => .next s
  | none => .next s

def execRoundTimerExpiry (s : State) : Host.Outcome State Fault Refusal :=
  runIf (jobsRun s && s.cells.roundTimer == .due && s.conn.state == .noService)
    (fun s => wantRound { s with cells := { s.cells with roundTimer := .stopped } }) s

def execSettleDelayExpiry (s : State) : Host.Outcome State Fault Refusal :=
  runIf (jobsRun s && s.cells.settle) (fun s => enterSample { s with cells := { s.cells with settle := false } }) s

def execMeasureDone (level : Half) (s : State) : Host.Outcome State Fault Refusal :=
  runAnswer .measure (measureOutcome (levelIn level)) s

/-! ## Mobility (R103 to R119) -/

/-- A parameter in range replaces the value in force (R103). -/
def takeMobParam (p : MobParam) (v : Half) (m : Mob) : Option Mob :=
  match p with
  | .handoverMargin => (natIn 0 15 v.toNat).map (fun n => { m with margin := n })
  | .triggerHold => (natIn 10 500 v.toNat).map (fun n => { m with holdLen := n })
  | .reselectMargin => (natIn 0 15 v.toNat).map (fun n => { m with reselMargin := n })
  | .reselectRounds => (natIn 1 4 v.toNat).map (fun n => { m with reselRounds := n })

def mobilityParameter (p : MobParam) (v : Half) (s : State) : State :=
  match takeMobParam p v s.mob with
  | some m => if p = .handoverMargin then evaluateCandidates { s with mob := m } else { s with mob := m }
  | none => ignoreConfig .plan 0 (MobParam.offset p) s

def execMobilityParameter (p : MobParam) (v : Half) (s : State) : Host.Outcome State Fault Refusal :=
  runIf (noticeOpen s) (mobilityParameter p v) s

/-- A candidate matures (R105). -/
def candidateMatures (n : Fin 13) (s : State) : State :=
  considerReport (setMobSlot n (fun m => { m with hold := .stopped, matured := true }) s)

def execHoldTimerExpiry (n : Fin 13) (s : State) : Host.Outcome State Fault Refusal :=
  runIf (jobsRun s && (s.mob.slots[n]).hold == .due) (candidateMatures n) s

def execReportTimerExpiry (s : State) : Host.Outcome State Fault Refusal :=
  runIf (jobsRun s && s.mob.reportTimer == .due)
    (fun s => considerReport { s with mob := { s.mob with reportTimer := .stopped } }) s

/-- The slot an order names (R107). -/
def orderMatch (carrier code : Half) (s : State) : Option (Fin 13) :=
  (List.finRange 13).find? (fun n =>
    (s.cells.slots[n]).usable && s.cells.serving != some n && (s.cells.slots[n]).carrier == carrier &&
      (s.cells.slots[n]).code == code)

/-- An order taken in CONNECTED is matched (R107). -/
def matchOrder (carrier code activation : Half) (s : State) : State :=
  match orderMatch carrier code s with
  | none => refuseOrder s
  | some n =>
    let o : Order := { target := n, carrier := carrier, code := code, activation := activation }
    let armed := { s.mob with state := .armed, order := some o, actTimer := .stopped, orderDue := false }
    if notLater activation s.frame then orderDue { s with mob := armed }
    else { s with mob := { armed with actTimer := .running (activation - s.frame).toNat } }

/-- TRANSFER-ORDER (R107). -/
def transferOrder (carrier code activation : Half) (s : State) : State :=
  if switchOn s then
    raise .mob (event s .transferRefused .none 0 code s.mob.state.code 0 0) s
  else if s.conn.state == .connected && s.conn.shutdown.isNone then matchOrder carrier code activation s
  else s

def execTransferOrder (carrier code activation : Half) (s : State) : Host.Outcome State Fault Refusal :=
  runAir (.transferOrder carrier code activation) (transferOrder carrier code activation) s

def execActivationTimerExpiry (s : State) : Host.Outcome State Fault Refusal :=
  runIf (jobsRun s && s.mob.actTimer == .due && s.mob.state == .armed)
    (fun s => orderDue { s with mob := { s.mob with actTimer := .stopped } }) s

def execSwitchDone (synced : Bool) (s : State) : Host.Outcome State Fault Refusal :=
  runAnswer .switch (switchOutcome synced) s

end Sys2Proof.Machine
end

