-- ==== Sys2Proof/Machine/ExecCalls.lean ====
section
/-! DEFINITION. Commands of the calls, the speech rings and the texts (R125 to R171). -/

namespace Sys2Proof.Machine

/-! ## Call requests (R128) -/

def execRequestOriginate (r : Fin 4) (s : State) : Host.Outcome State Fault Refusal :=
  runIf (noticeOpen s) (callRequest r .originate) s
def execRequestAnswer (r : Fin 4) (s : State) : Host.Outcome State Fault Refusal :=
  runIf (noticeOpen s) (callRequest r .answer) s
def execRequestHold (r : Fin 4) (s : State) : Host.Outcome State Fault Refusal :=
  runIf (noticeOpen s) (callRequest r .hold) s
def execRequestResume (r : Fin 4) (s : State) : Host.Outcome State Fault Refusal :=
  runIf (noticeOpen s) (callRequest r .resume) s
def execRequestSwap (r : Fin 4) (s : State) : Host.Outcome State Fault Refusal :=
  runIf (noticeOpen s) (callRequest r .swap) s
def execRequestRelease (r : Fin 4) (s : State) : Host.Outcome State Fault Refusal :=
  runIf (noticeOpen s) (callRequest r .release) s

/-- A notice of a request code that is no request: NONE is left alone, an unknown code refused (R128). -/
def requestUnknown (r : Fin 4) (code : Byte) (s : State) : State :=
  if code = 0 ∨ (requestOf code).isSome then s
  else setRec r (fun c => { c with reqCode := code, result := .refusedUnknown }) s

def execRequestUnknown (r : Fin 4) (code : Byte) (s : State) : Host.Outcome State Fault Refusal :=
  runIf (noticeOpen s) (requestUnknown r code) s

/-! ## The dial string (R130, R131) -/

/-- The capture read's outcome (R130). -/
def dialCaptured (r : Fin 4) (c : Completed) (s : State) : State :=
  if c.2.2 then s
  else
    let s := setRec r (fun c => { c with reading := false }) s
    if c.2.1 then localReleaseOne r .memory (memoryError .calls (s.bind.line .call r.val) s)
    else
      match digitsOf c.1 1 with
      | some (d :: ds) =>
        let s := setRec r (fun c => { c with dial := some (d :: ds) }) s
        if s.conn.state = .connected then placeSetup r s else s
      | _ => localReleaseOne r .badNumber s

def execDialStringCaptured (r : Fin 4) (data : ReadData) (err : Bool) (s : State) :
    Host.Outcome State Fault Refusal :=
  runRead (dueRead (· == .dial r) data.line.toNat s.mem) data.bytes err (dialCaptured r) s

/-! ## Call messages (R131 to R136) -/

/-- RINGING (R131); a capture read still outstanding is not taken (R130). -/
def ringing (ref : Byte) (s : State) : State :=
  match recByRef ref s with
  | some r =>
    if (s.calls.recs[r]).state = .dialing then
      changeState r (fun c => { c with state := .ringingOut, reading := false, timer := .running Config.ringingOutFrames })
        (dropCapture r s)
    else s
  | none => s

def execRinging (ref : Byte) (s : State) : Host.Outcome State Fault Refusal := runAir (.ringing ref) (ringing ref) s

/-- CONNECT (R131); a capture read still outstanding is not taken (R130). -/
def connected (ref : Byte) (s : State) : State :=
  match recByRef ref s with
  | some r =>
    if (s.calls.recs[r]).state = .dialing ∨ (s.calls.recs[r]).state = .ringingOut then
      changeState r (fun c => { c with state := .active, reading := false, timer := .stopped }) (dropCapture r s)
    else s
  | none => s

def execConnect (ref : Byte) (s : State) : Host.Outcome State Fault Refusal := runAir (.connect ref) (connected ref) s

/-- An OFFER taken where no record has its reference (R136). -/
def newOffer (ref : Byte) (caller : List Digit) (s : State) : State :=
  match (List.finRange 4).find? (fun r => (s.calls.recs[r]).state == .free) with
  | some r =>
    changeState r (fun c => { c with
      state := .incoming, ref := ref, dir := .incoming, caller := caller, start := s.frame, gaps := 0, endCause := none,
      timer := .running Config.incomingFrames }) s
  | none => emitMsg (.release ref .busy) s

/-- OFFER (R136). -/
def offer (ref : Byte) (caller : List Digit) (s : State) : State :=
  if (s.conn.state == .connected || s.conn.state == .reestablishing) && s.conn.shutdown.isNone then
    let s := match s.sleep.level with
      | .quiescing | .deep | .roused => primaryCause .offer 0 s
      | _ => s
    if (recByRef ref s).isSome then s else newOffer ref caller s
  else s

def execOffer (ref : Byte) (caller : List Digit) (s : State) : Host.Outcome State Fault Refusal :=
  runAir (.offer ref caller) (offer ref caller) s

/-- HOLD-ACCEPT (R133, R134). -/
def holdAccept (ref : Byte) (s : State) : State :=
  match recByRef ref s with
  | some r =>
    let c := s.calls.recs[r]
    if c.state = .active ∧ c.exch = .hold then
      let s := changeState r (fun c => { c with
        state := .held, exch := .none, partner := none, exchMsg := none, timer := .stopped }) s
      match c.partner with
      | some x => placeResume x s
      | none => s
    else s
  | none => s

def execHoldAccept (ref : Byte) (s : State) : Host.Outcome State Fault Refusal :=
  runAir (.holdAccept ref) (holdAccept ref) s

/-- RESUME-ACCEPT (R133). -/
def resumeAccept (ref : Byte) (s : State) : State :=
  match recByRef ref s with
  | some r =>
    if (s.calls.recs[r]).state = .held ∧ (s.calls.recs[r]).exch = .resume then
      changeState r (fun c => { c with state := .active, exch := .none, exchMsg := none, timer := .stopped }) s
    else s
  | none => s

def execResumeAccept (ref : Byte) (s : State) : Host.Outcome State Fault Refusal :=
  runAir (.resumeAccept ref) (resumeAccept ref) s

def execRelease (ref cause : Byte) (s : State) : Host.Outcome State Fault Refusal :=
  runAir (.release ref cause) (networkRelease ref (endCauseOf cause)) s

/-- A RELEASING record becomes FREE with its release cause (R135). -/
def releasingEnds (r : Fin 4) (s : State) : State := freeRec r ((s.calls.recs[r]).relCause.getD .locl) s

/-- RELEASE-DONE (R135, R136). -/
def releaseDone (ref : Byte) (s : State) : State :=
  match recByRef ref s with
  | some r => if (s.calls.recs[r]).state = .releasing then releasingEnds r s else s
  | none => s

def execReleaseDone (ref : Byte) (s : State) : Host.Outcome State Fault Refusal :=
  runAir (.releaseDone ref) (releaseDone ref) s

/-! ## Call timers (R137) -/

/-- The record's call timer is due in a state. -/
def callDue (r : Fin 4) (st : CallState) (s : State) : Bool :=
  jobsRun s && (s.calls.recs[r]).timer == .due && (s.calls.recs[r]).state == st

def execDialingTimerExpiry (r : Fin 4) (s : State) : Host.Outcome State Fault Refusal :=
  runIf (callDue r .dialing s) (releaseRec r .noAnswer) s
def execRingingOutTimerExpiry (r : Fin 4) (s : State) : Host.Outcome State Fault Refusal :=
  runIf (callDue r .ringingOut s) (releaseRec r .noAnswer) s
def execIncomingTimerExpiry (r : Fin 4) (s : State) : Host.Outcome State Fault Refusal :=
  runIf (callDue r .incoming s) (releaseRec r .unanswered) s
def execExchangeTimerExpiry (r : Fin 4) (s : State) : Host.Outcome State Fault Refusal :=
  runIf (callDue r .active s || callDue r .held s) (exchangeFailed r) s
def execReleasingTimerExpiry (r : Fin 4) (s : State) : Host.Outcome State Fault Refusal :=
  runIf (callDue r .releasing s) (releasingEnds r) s

/-! ## Speech rings (R144 to R150) -/

/-- A notice of the uplink producer (R144): above an occupancy of 8 no value is taken, the captured one neither (log entry 85). -/
def uplinkProducer (v : Byte) (s : State) : State :=
  if s.speech.speaking.isNone || occupancy v s.speech.upCons ≤ 8 then { s with speech := { s.speech with upProd := v } }
  else ignoreConfig .speech 0xFFFF 0x00 s

def execUplinkProducerWrite (v : Byte) (s : State) : Host.Outcome State Fault Refusal :=
  runIf (noticeOpen s) (uplinkProducer v) s

/-- A notice of the downlink consumer (R144): above an occupancy of 8 no value is taken, the captured one neither (log entry 85). -/
def downlinkConsumer (v : Byte) (s : State) : State :=
  if occupancy s.speech.downProd v ≤ 8 then { s with speech := { s.speech with downCons := v } }
  else ignoreConfig .speech 0xFFFF 0x03 s

def execDownlinkConsumerWrite (v : Byte) (s : State) : Host.Outcome State Fault Refusal :=
  runIf (noticeOpen s) (downlinkConsumer v) s

/-- A speech fetch has completed for the speaking record that placed it, in time (R147). -/
def fetchInTime (r : Completed) (s : State) : State :=
  if s.speech.switchOn then speechGap s
  else advanceUp (sendSpeech (if r.2.1 then silence else r.1) s)

/-- The speech fetch of a line completes (R147). -/
def speechFetched (line : Line) (r : Completed) (s : State) : State :=
  if r.2.2 then s
  else
    let was := s.speech
    let s := if r.2.1 then memoryError .speech line s else s
    let s := { s with speech := { s.speech with fetch := .idle, fetchStale := false } }
    if was.fetchStale then s
    else
      match was.fetch with
      | .fetching _ => fetchInTime r s
      | .late => advanceUp s
      | .idle => s

def execSpeechFetchDone (data : ReadData) (err : Bool) (s : State) : Host.Outcome State Fault Refusal :=
  runRead (dueRead (· == .speech) data.line.toNat s.mem) data.bytes err (speechFetched data.line.toNat) s

/-- SPEECH-IN (R149 to R151). -/
def speechIn (frame : List Byte) (s : State) : State :=
  if s.speech.speaking.isNone then s
  else
    let s := activity s
    if 8 ≤ downOccupancy s.speech || jobWaits .speech s then s
    else if mustWait s then
      waitActs .speech [.speechSlot false] { s with speech := { s.speech with heldFrame := some (fitTo 64 frame) } }
    else placeDown frame false s

def execSpeechIn (frame : List Byte) (s : State) : Host.Outcome State Fault Refusal :=
  runIf (linkOpen s) (speechIn frame) s

/-! ## The outbox (R155 to R160) -/

/-- The descriptors from the old producer to the new one become QUEUED (R155). -/
def submit : Nat → Byte → State → State
  | 0, _, s => s
  | k + 1, i, s => submit k (i + 1) (setDesc (descOf i) (fun _ => { state := .queued, attempts := 0, fail := none, ref := 0 }) s)

/-- A notice of the outbox producer (R155). -/
def outboxProducer (v : Byte) (s : State) : State :=
  let count := occupancy v s.texts.retire
  let now := occupancy s.texts.prod s.texts.retire
  if 16 < count then
    raiseNow (event s .outboxOverrun .none Kind.outbox.code 0xFFFF 0 0 (BitVec.ofNat 32 count)) s
  else if count < now then ignoreConfig .outbox 0xFFFF 0x00 s
  else
    let t := submit (count - now) s.texts.prod s
    { t with texts := { t.texts with prod := v } }

def execOutboxProducerWrite (v : Byte) (s : State) : Host.Outcome State Fault Refusal :=
  runIf (noticeOpen s) (outboxProducer v) s

/-- A cancel of a descriptor (R157). -/
def cancelDesc (n : Fin 16) (s : State) : State :=
  match (s.texts.descs[n]).state, s.texts.send with
  | .queued, _ => finishDesc n .cancelled none (s.texts.descs[n]).attempts s
  | .sending, some x =>
    if x.status == .awaiting || segmentInFlight x s then setSend (fun x => { x with cancel := true }) s
    else endSend .cancelled none s
  | _, _ => s

/-- A notice of a cancel word (R157). -/
def cancelWord (n : Fin 16) (v : Byte) (s : State) : State :=
  if v = 0 then s
  else if v = 1 then cancelDesc n s
  else ignoreConfig .outbox (BitVec.ofNat 16 n.val) 0x06 s

def execCancelWordWrite (n : Fin 16) (v : Byte) (s : State) : Host.Outcome State Fault Refusal :=
  runIf (noticeOpen s) (cancelWord n v) s

/-- The lines a body touches (R158). -/
def bodyFirst (x : Send) : Nat := x.address.toNat / 64
def bodyLines (x : Send) : Nat := (x.address.toNat + x.length - 1) / 64 - bodyFirst x + 1

/-- The reads of a body, in ascending address order (R158). -/
def readBody (x : Send) (s : State) : State :=
  (List.range (bodyLines x)).foldl (fun s k => emitRead .texts (.body k) (bodyFirst x + k) s) s

/-- What a descriptor's line says is captured and checked (R158). -/
def takeDescriptor (x : Send) (line : List Byte) (s : State) : State :=
  let o := 32 * (x.desc.val % 2)
  let address := wordOf line o
  let length := (halfOf line (o + 4)).toNat
  if length < 1 ∨ 640 < length ∨ 0x100000000 < address.toNat + length then endSend .failed (some .badLength) s
  else
    match digitsOf line (o + 7) with
    | some (d :: ds) =>
      let y := { x with address := address, length := length, dest := d :: ds, lines := [] }
      readBody y { s with texts := { s.texts with send := some y } }
    | _ => endSend .failed (some .badNumber) s

/-- A read of a line for the sending text completes: an error raises MEMORY-ERROR, whether the text still wants the read or has
discarded it (R44, R158), and fails the text that wants it. -/
def textRead (line : Line) (take : Send → List Byte → State → State) (r : Completed) (s : State) : State :=
  let t := if r.2.1 then memoryError .texts line s else s
  match r.2.2, t.texts.send with
  | false, some x => if r.2.1 then endSend .failed (some .memory) t else take x r.1 t
  | _, _ => t

def execDescriptorReadDone (data : ReadData) (err : Bool) (s : State) :
    Host.Outcome State Fault Refusal :=
  runRead (dueRead (· == .descriptor) data.line.toNat s.mem) data.bytes err (textRead data.line.toNat takeDescriptor) s

/-- The body is captured, and the first segment placed (R158, R159). -/
def bodyCaptured (x : Send) (s : State) : State :=
  let all := (sortBy (fun a b => decide (a.1 ≤ b.1)) x.lines).flatMap (·.2)
  let body := (all.drop (x.address.toNat % 64)).take x.length
  placeSegment { s with texts := { s.texts with
    send := some { x with body := body, lines := [], count := (x.length + 159) / 160, cur := 0 } } }

/-- A line of the body is captured (R158). -/
def takeBody (k : Nat) (x : Send) (line : List Byte) (s : State) : State :=
  let y := { x with lines := x.lines ++ [(k, line)] }
  if y.lines.length = bodyLines y then bodyCaptured y s
  else { s with texts := { s.texts with send := some y } }

def execBodyReadDone (k : Fin 11) (data : ReadData) (err : Bool) (s : State) :
    Host.Outcome State Fault Refusal :=
  runRead (dueRead (· == .body k.val) data.line.toNat s.mem) data.bytes err (textRead data.line.toNat (takeBody k.val)) s

/-- The current segment's acknowledgement (R160). -/
def segmentAcked (x : Send) (res : AckResult) (s : State) : State :=
  let s := withdrawOpt x.msgId (setSend (fun x => { x with ackTimer := .stopped }) s)
  match res with
  | .ok =>
    if x.cur + 1 = x.count then endSend .sent none s
    else if x.cancel then endSend .cancelled none s
    else placeSegment (setSend (fun x => { x with cur := x.cur + 1 }) s)
  | .inboxFull => if x.cancel then endSend .cancelled none s else endSend .failed (some .inboxFull) s
  | .busy => if x.cancel then endSend .cancelled none s else endSend .failed (some .busy) s

/-- SEGMENT-ACK (R160). -/
def segmentAck (ref index : Byte) (res : AckResult) (s : State) : State :=
  match s.texts.send with
  | some x =>
    if x.ref = ref ∧ x.cur = index.toNat ∧ x.status ≠ .reading then segmentAcked x res s else s
  | none => s

/-- The index lies below the count of the send it names (R61). -/
def ackInRange (ref index : Byte) (s : State) : Bool :=
  match s.texts.send with
  | some x => !(x.ref == ref && x.status != .reading) || index.toNat < x.count
  | none => true

def execSegmentAck (ref index : Byte) (res : AckResult) (s : State) : Host.Outcome State Fault Refusal :=
  if ackInRange ref index s then runAir (.segmentAck ref index res) (segmentAck ref index res) s else .next s

def execAckTimerExpiry (s : State) : Host.Outcome State Fault Refusal :=
  runIf (jobsRun s && (s.texts.send.map (·.ackTimer)) == some .due) segmentFailed s

def execRetryTimerExpiry (s : State) : Host.Outcome State Fault Refusal :=
  runIf (jobsRun s && s.texts.retryTimer == .due)
    (fun s => { s with texts := { s.texts with retryTimer := .stopped } }) s

/-! ## The inbox (R164 to R169) -/

/-- A notice of the inbox consumer (R164). -/
def inboxConsumer (v : Byte) (s : State) : State :=
  if occupancy v s.texts.inCons ≤ delivered s.texts then
    let moved := v != s.texts.inCons && s.texts.full
    let s := { s with texts := { s.texts with inCons := v } }
    if moved then emitMsg .inboxReady (setFull false s) else s
  else ignoreConfig .inbox 0xFFFF 0x01 s

def execInboxConsumerWrite (v : Byte) (s : State) : Host.Outcome State Fault Refusal :=
  runIf (noticeOpen s) (inboxConsumer v) s

/-- TEXT-SEGMENT: taken now, or after the write that the controller waits to place; without what R165 asks it is discarded at its
arrival either way (R165, R167). -/
def textSegment (g : Segment) (s : State) : State :=
  if segmentUp s && memoryAvailable s && (jobWaits .texts s || !s.texts.arrivals.isEmpty) then
    { s with texts := { s.texts with arrivals := s.texts.arrivals ++ [g] } }
  else segmentIn g s

def execTextSegment (ref : Byte) (sender : List Digit) (index count : Byte) (payload : List Byte) (s : State) :
    Host.Outcome State Fault Refusal :=
  runAir (.textSegment ref sender index count payload)
    (textSegment { ref := ref, sender := sender, index := index, count := count, payload := payload }) s

/-- The context with a ring index whose timer is due (R169). -/
def dueContext (ring : Byte) (s : State) : Option Ctx := s.texts.ctxs.find? (fun c => c.ring == ring && c.timer == .due)

def execContextTimerExpiry (ring : Byte) (s : State) : Host.Outcome State Fault Refusal :=
  match dueContext ring s with
  | some c => runIf (jobsRun s) (abandonCtx c) s
  | none => .next s

end Sys2Proof.Machine
end

