-- ==== Sys2Proof/Machine/ExecSleep.lean ====
section
/-! DEFINITION. Commands of the frame strobe, sleep and wake, the wake lines and the event ring (R47, R172 to R196). -/

namespace Sys2Proof.Machine

/-! ## Parameters and requests of the plan record (R172, R173) -/

def setLine (l : Fin 4) (f : WakeLine → WakeLine) (p : Sleep) : Sleep := { p with lines := p.lines.set l (f p.lines[l]) }

/-- A new base or ceiling in the cycle and the count (R172). -/
def takeBase (c : Nat) (p : Sleep) : Sleep := { p with base := c, cycle := c, quiet := 0 }
def takeCeiling (c : Nat) (p : Sleep) : Sleep :=
  if max p.base c < p.cycle then { p with ceiling := c, cycle := max p.base c, quiet := 0 } else { p with ceiling := c }

/-- A parameter with a value of its column replaces the value in force (R172). -/
def takeSleepParam (q : SleepParam) (v : Half) (p : Sleep) : Option Sleep :=
  match q with
  | .base => (cycleIn v).map (fun c => takeBase c p)
  | .ceiling => (cycleIn v).map (fun c => takeCeiling c p)
  | .wakeEnable l => (boolOf v.toNat).map (fun b => setLine l (fun x => { x with enable := b }) p)
  | .polarity l => (boolOf v.toNat).map (fun b => setLine l (fun x => { x with activeLow := b }) p)
  | .mode l => (boolOf v.toNat).map (fun b => setLine l (fun x => { x with edgeLevel := b }) p)
  | .filter l => (boolOf v.toNat).map (fun b => setLine l (fun x => { x with filter := b }) p)
  | .answerMap => (boolOf v.toNat).map (fun b => { p with answerMap := b })

def sleepParameter (q : SleepParam) (v : Half) (s : State) : State :=
  match takeSleepParam q v s.sleep with
  | some p => notePlan .sleep s { s with sleep := p }
  | none => ignoreConfig .plan 0 (SleepParam.offset q) s

def execSleepParameter (q : SleepParam) (v : Half) (s : State) : Host.Outcome State Fault Refusal :=
  runIf (noticeOpen s) (sleepParameter q v) s

/-- The first check of R176 that fails. -/
def sleepRefusal (s : State) : Option Cause :=
  if !callsFree s then some .busyCall
  else if s.texts.send.isSome || !s.texts.ctxs.isEmpty then some .busyText
  else
    let idle := match connSeen s with
      | .off | .camped | .noService => true
      | _ => false
    if !idle || !s.conn.purposes.isEmpty then some .busyRadio else none

/-- A wake pulse that still waits behind a write is given up (R176, R186). -/
def dropWakeMark (s : State) : State :=
  { s with mem := { s.mem with waits := s.mem.waits.map (fun w => { w with acts := w.acts.filter (· != .wakeMark) }) } }

/-- A sleep request DEEP taken in AWAKE (R176). -/
def askSleep (s : State) : State :=
  match sleepRefusal s with
  | some c =>
    raise .sleep (event s .sleepRefused .none Kind.plan.code 0 0 c.code 0)
      (notePlan .sleep s { s with sleep := { s.sleep with last := some c } })
  | none =>
    notePlan .sleep s { dropWakeMark s with sleep := { s.sleep with
      level := .quiescing, phase := .waitingGrant, quiesceTimer := .running Config.quiesceFrames, wake := false,
      wakeAfter := none } }

/-- A notice of the sleep request (R173, R176). -/
def sleepRequest (v : Byte) (s : State) : State :=
  match boolOf v.toNat with
  | none => ignoreConfig .plan 0 0x01 s
  | some true => if s.sleep.level = .awake then askSleep s else s
  | some false =>
    if s.sleep.level = .quiescing ∧ s.sleep.phase = .waitingGrant then abandonSleep .activity .activity 0 s else s

def execSleepRequest (v : Byte) (s : State) : Host.Outcome State Fault Refusal := runIf (noticeOpen s) (sleepRequest v) s

/-- A notice of the stop grant (R173, R177). -/
def stopGrant (v : Byte) (s : State) : State :=
  if v ≠ 1 then ignoreConfig .plan 0 0x02 s
  else if s.sleep.level = .quiescing ∧ s.sleep.phase = .waitingGrant then
    { s with sleep := { s.sleep with quiesceTimer := .stopped, phase := .draining }, mem := forceDrain s.mem }
  else s

def execStopGrant (v : Byte) (s : State) : Host.Outcome State Fault Refusal := runIf (noticeOpen s) (stopGrant v) s

def execQuiesceTimerExpiry (s : State) : Host.Outcome State Fault Refusal :=
  runIf (jobsRun s && s.sleep.quiesceTimer == .due && s.sleep.phase == .waitingGrant) (abandonSleep .noGrant .noGrant 0) s

/-- A notice of the wake ack (R173, R186). -/
def wakeAck (v : Byte) (s : State) : State :=
  if v = 1 then { s with sleep := { s.sleep with wake := false } } else ignoreConfig .plan 0 0x03 s

def execWakeAck (v : Byte) (s : State) : Host.Outcome State Fault Refusal := runIf (noticeOpen s) (wakeAck v) s

/-! ## Self-refresh (R41, R178, R183 to R185) -/

/-- The grant of SELF-REFRESH-ENTER: DEEP, the hold, the abort, STANDBY (R178, R184). -/
def enterDeep (s : State) : State :=
  let t := memOut .selfRefreshEnter { s with
    mem := { s.mem with memState := .selfRefresh }
    sleep := { s.sleep with
      level := .deep, phase := .none, quiesceTimer := .stopped, rouseTimer := .stopped, reentry := false, busy := false }
    events := { s.events with handed := false }
    port := { s.port with sleepHold := true } }
  sendFrame .standby (abortRound (notePlan .sleep s t))

def execSelfRefreshEnter (s : State) : Host.Outcome State Fault Refusal :=
  runIf (jobsRun s && enterReady s) enterDeep s

/-- The exit delay expires (R41, R183, R185). -/
def exitDone (s : State) : State :=
  let t := { s with mem := { s.mem with memState := .active } }
  match s.sleep.level with
  | .resuming => beginWriteBack true t
  | .roused => beginWriteBack false t
  | _ => t

def execExitDelayExpiry (s : State) : Host.Outcome State Fault Refusal :=
  runIf (s.mem.memState == .exiting) exitDone s

def execRouseWindowExpiry (s : State) : Host.Outcome State Fault Refusal :=
  runIf (jobsRun s && s.sleep.rouseTimer == .due && s.sleep.level == .roused)
    (fun s => { s with sleep := { s.sleep with rouseTimer := .stopped, reentry := true } }) s

/-! ## Wake lines (R188 to R190) -/

/-- LINE is raised, and is the primary cause where the line's wake enable is ON (R189). -/
def raiseLine (l : Fin 4) (detail : Byte) (s : State) : State :=
  let on := (s.sleep.lines[l]).enable
  let s := raise .sleep (event s .line (if on then .primary else .none) Kind.plan.code (BitVec.ofNat 16 l.val) detail 0 0)
    { s with sleep := { s.sleep with lineSince := true } }
  if on then primaryCause .line l.val s else s

/-- The three steps of R190 with a cause. -/
def lineShutdown (cause : Cause) (s : State) : State :=
  requestShutdown cause (primaryCause cause 0
    (raise .sleep (event s .shutdown .primary Kind.plan.code 0 0 cause.code 0) s))

/-- The duties of the four lines at an active edge (R189, R190, R139). -/
def lineDuty (l : Fin 4) (s : State) : State :=
  match l.val with
  | 0 => { s with sleep := { s.sleep with longPress := .running Config.longPressFrames } }
  | 1 => lineShutdown .card s
  | 2 => if s.sleep.answerMap then accessoryAnswer s else s
  | _ => notePlan .sleep s { s with sleep := baseCycle s.sleep }

/-- An active edge (R189). -/
def activeEdge (l : Fin 4) (s : State) : State :=
  let t := { s with sleep := setLine l (fun x => { x with active := true, change := 0 }) s.sleep }
  if jobsRun s then
    lineDuty l (raiseLine l 1 (notePlan .sleep s
      { t with sleep := setLine l (fun x => { x with flag := true }) t.sleep }))
  else t

/-- An inactive edge (R188, R189). -/
def inactiveEdge (l : Fin 4) (s : State) : State :=
  let t := { s with sleep := setLine l (fun x => { x with active := false, change := 0 }) s.sleep }
  let t := if l.val = 0 then { t with sleep := { t.sleep with longPress := .stopped } } else t
  notePlan .sleep s t

/-- The filtered state inverted to a new sense (R188). -/
def invertLine (l : Fin 4) (s : State) : State :=
  let t := { s with sleep := setLine l (fun x => { x with active := !x.active, change := 0 }) s.sleep }
  let t := if l.val = 0 then { t with sleep := { t.sleep with longPress := .stopped } } else t
  notePlan .sleep s t

/-- One line's pin is sampled at a strobe (R188). -/
def sampleLine (l : Fin 4) (pin : Bool) (s : State) : State :=
  let x := s.sleep.lines[l]
  let y := { x with raw := pin, polIn := x.activeLow, filtIn := x.filter, change := if x.filter != x.filtIn then 0 else x.change }
  let s := { s with sleep := setLine l (fun _ => y) s.sleep }
  if x.activeLow != x.polIn then invertLine l s
  else
    let sample := if x.activeLow then !pin else pin
    if sample = y.active then { s with sleep := setLine l (fun z => { z with change := 0 }) s.sleep }
    else if y.filter && y.change == 0 then { s with sleep := setLine l (fun z => { z with change := 1 }) s.sleep }
    else if sample then activeEdge l s
    else inactiveEdge l s

/-- The four lines are sampled (R188). -/
def sampleLines (pins : BitVec 4) (s : State) : State :=
  (List.finRange 4).foldl (fun s l => sampleLine l (pins.getLsbD l.val) s) s

/-- A notice of a per-line acknowledge (R173, R189). -/
def lineAcknowledge (l : Fin 4) (v : Byte) (s : State) : State :=
  let x := s.sleep.lines[l]
  if v ≠ 1 then ignoreConfig .plan 0 (0x04 + l.val) s
  else if x.edgeLevel && x.active then raiseLine l 2 s
  else notePlan .sleep s { s with sleep := setLine l (fun x => { x with flag := false }) s.sleep }

def execLineAcknowledge (l : Fin 4) (v : Byte) (s : State) : Host.Outcome State Fault Refusal :=
  runIf (noticeOpen s) (lineAcknowledge l v) s

def execLongPressTimerExpiry (s : State) : Host.Outcome State Fault Refusal :=
  runIf (jobsRun s && s.sleep.longPress == .due)
    (fun s => lineShutdown .shutdown { s with sleep := { s.sleep with longPress := .stopped } }) s

/-! ## The frame strobe (R47, R48) -/

def tickLink (l : Link) : Link :=
  { l with
    opMeasure := l.opMeasure.tick, opListen := l.opListen.tick, opSendSig := l.opSendSig.tick
    opSwitch := l.opSwitch.tick, recovery := l.recovery.tick }

def tickConn (c : Conn) : Conn :=
  { c with
    connectTimer := c.connectTimer.tick, areaTimer := c.areaTimer.tick, inactTimer := c.inactTimer.tick
    reestTimer := c.reestTimer.tick, shutTimer := c.shutTimer.tick }

def tickMob (m : Mob) : Mob :=
  { m with
    actTimer := m.actTimer.tick, reportTimer := m.reportTimer.tick
    slots := m.slots.map (fun x => { x with hold := x.hold.tick }) }

def tickTexts (t : Texts) : Texts :=
  { t with
    retryTimer := t.retryTimer.tick
    send := t.send.map (fun x => { x with ackTimer := x.ackTimer.tick })
    ctxs := t.ctxs.map (fun c => { c with timer := c.timer.tick }) }

def tickSleep (p : Sleep) : Sleep :=
  { p with
    quiesceTimer := p.quiesceTimer.tick, rouseTimer := p.rouseTimer.tick, longPress := p.longPress.tick }

/-- Every frame timer takes the strobe (R48). -/
def tickTimers (s : State) : State :=
  { s with
    bind := { s.bind with unbindTimer := s.bind.unbindTimer.tick }
    link := tickLink s.link
    conn := tickConn s.conn
    cells := { s.cells with roundTimer := s.cells.roundTimer.tick }
    mob := tickMob s.mob
    calls := { s.calls with recs := s.calls.recs.map (fun r => { r with timer := r.timer.tick }) }
    texts := tickTexts s.texts
    sleep := tickSleep s.sleep }

/-- LISTEN for the next frame, if it is a slot kept (R62, R180). -/
def sendListen (s : State) : State :=
  if listening s && listenSlot s (s.frame + 1) then
    request .listen (.listen (s.frame + 1) ((s.bind.captured.map (·.identity)).getD 0)) s
  else s

/-- The speech fetch is placed (R146), beside one that an unbinding discarded and that is still outstanding (log entry 79). -/
def placeFetch (s : State) : State :=
  joinRead .speech (s.bind.line .speech (1 + s.speech.upCons.toNat % 8))
    { s with speech := { s.speech with fetch := .fetching s.speech.upCons, fetchStale := false } }

/-- An uplink frame is due at an even frame with a speaking record (R146, R151); at an occupancy above 8 the slot is fetched as at 1 to 8
(log entry 84). -/
def uplinkDue (s : State) : State :=
  if s.speech.speaking.isNone || s.frame.getLsbD 0 then s
  else if s.speech.switchOn then speechGap s
  else if s.conn.state != .connected || !s.link.up then s
  else if s.speech.fetch != .idle then
    sendSpeech silence { s with speech := { s.speech with fetch := .late } }
  else if upOccupancy s.speech = 0 || headerWaits s then sendSpeech silence s
  else placeFetch s

/-- The frame activities of the jobs at a strobe (R62, R98, R146). -/
def frameWork (s : State) : State :=
  let s := uplinkDue (sendListen s)
  { s with cells := { s.cells with paced := false } }

/-- A frame strobe (R47): the frame number, the timers, the wake lines, then the jobs' frame activities. -/
def frameStrobe (pins : BitVec 4) (s : State) : State :=
  let s := sampleLines pins (tickTimers { s with frame := s.frame + 1 })
  if jobsRun s then frameWork s else s

/-- During the warm-reset sequence the frame number alone is counted; after its end, nothing until release (R46, R64). -/
def execFrameStrobe (pins : BitVec 4) (s : State) : Host.Outcome State Fault Refusal :=
  if s.resetPhase ≠ .idle then .next { s with frame := s.frame + 1 }
  else runIf (!s.resetN) (frameStrobe pins) s

/-! ## The event ring (R195) -/

/-- A notice of the consumer (R195). -/
def eventConsumer (v : Byte) (s : State) : State :=
  if occupancy v s.events.consumer ≤ occupancy s.events.producer s.events.consumer then
    placeEvents { s with events := { s.events with consumer := v } }
  else raiseNow (configIgnored s .event 0xFFFF 0x01) s

def execEventConsumerWrite (v : Byte) (s : State) : Host.Outcome State Fault Refusal :=
  runIf (noticeOpen s) (eventConsumer v) s

end Sys2Proof.Machine
end

