-- ==== Sys2Proof/Machine/Binding.lean ====
section
/-! DEFINITION. Capture, validation, the taking of host values, the initial writes, unbinding, and the enable word (R4 to R10,
R15 to R17). -/

namespace Sys2Proof.Machine

/-! ## Rejection (R8) -/

/-- The binding ends REJECTED: the status write, whose acceptance ends the hold. -/
def rejectBinding (cause : Cause) (kind : Option Kind) (s : State) : State :=
  let s := discardReads ReadFor.isInternal s
  let s := { s with bind := { s.bind with
    state := .rejected, rejection := some (cause, kind), captured := none, anchorLines := [], regionLines := [],
    nextRegion := 0 } }
  emitWrite .binder (statusWrite s BindState.rejected.statusCode s.bind.rejection .rejected) s

/-! ## Capture (R5, R6) -/

/-- A presented host write not yet accepted, as the port holds it again (log entry 11). -/
def AccWrite.toHeld (w : AccWrite) : Option HostWrite :=
  match w.writer with
  | .host tag arrived => some { tag := tag, line := w.line, bytes := w.bytes, arrived := arrived }
  | .part _ => none

/-- The binding hold: no host write is presented or accepted from here on (R6, R20). -/
def raiseBindHold (s : State) : State :=
  { s with
    port := { s.port with bindHold := true, held := s.mem.accept.filterMap AccWrite.toHeld ++ s.port.held }
    mem := { s.mem with accept := s.mem.accept.filter (fun w => !w.isHost) } }

/-- The four anchor reads (R6). -/
def readAnchor (s : State) : State :=
  (List.range 4).foldl (fun s k => emitRead .binder (.anchor k) (s.bind.line .anchor k) s) s

def beginCapture (s : State) : State :=
  readAnchor (raiseBindHold { s with bind := { s.bind with
    state := .capturing, rejection := none, captured := none, anchorLines := [], regionLines := [], nextRegion := 0,
    heldEvents := [] } })

/-- The captured copy in the four anchor lines (R2). -/
def captureOf (lines : List (Nat × List Byte)) : Captured :=
  let line := fun k => ((lines.find? (fun p => p.1 == k)).map (·.2)).getD []
  let l0 := line 0
  { version := wordOf l0 0, capacity := wordOf l0 8, identity := quadOf l0 0x10,
    table := (List.range 8).map (fun n => (wordOf (line 1) (8 * n), wordOf (line 1) (8 * n + 4))) }

/-! ## Validation (R7) -/

def capacityOk (c : Captured) : Bool := [16, 32, 64, 128].contains c.capacity.toNat

/-- The size R3 asks of a region. -/
def requiredSize (c : Captured) (k : Kind) : Nat := 64 * k.lines c.capacity.toNat

def baseOk (c : Captured) (k : Kind) : Bool :=
  (c.base k).toNat % 64 == 0 && (c.base k).toNat + requiredSize c k ≤ 0x100000000

/-- First byte and size of a region or of the anchor block. -/
def extent (straps : BitVec 2) (c : Captured) (k : Kind) : Nat × Nat :=
  match k with
  | .anchor => (64 * anchorLine straps, 256)
  | k => ((c.base k).toNat, requiredSize c k)

def overlaps (straps : BitVec 2) (c : Captured) (a b : Kind) : Bool :=
  let x := extent straps c a
  let y := extent straps c b
  a != b && x.1 < y.1 + y.2 && y.1 < x.1 + x.2

/-- The first check of R7 that fails, with the cause and the kind. -/
def validate (straps : BitVec 2) (c : Captured) : Option (Cause × Option Kind) :=
  if c.version ≠ 1 then some (.badVersion, none)
  else if !capacityOk c then some (.badCapacity, none)
  else
    match regionKinds.find? (fun k => !baseOk c k) with
    | some k => some (.badBase, some k)
    | none =>
      match (regionKinds ++ [Kind.textBodies]).find? (fun k => (c.size k).toNat != requiredSize c k) with
      | some k => some (.badSize, some k)
      | none =>
        match regionKinds.find? (fun k => (Kind.anchor :: regionKinds).any (fun j => overlaps straps c k j)) with
        | some k => some (.overlap, some k)
        | none => none

/-! ## The region reads (R9) -/

/-- The line that region read k reads. -/
def regionRead (k : Nat) : Kind × Nat :=
  if k < 2 then (.plan, k)
  else if k < 15 then (.cell, k - 1)
  else if k = 15 then (.speech, 0)
  else if k = 16 then (.outbox, 0)
  else if k = 17 then (.inbox, 0)
  else (.event, 0)

/-- The next group of at most four region reads. -/
def readGroup (s : State) : State :=
  let from_ := s.bind.nextRegion
  let n := min 4 (19 - from_)
  (List.range n).foldl (fun s j =>
      let k := regionRead (from_ + j)
      emitRead .binder (.region (from_ + j)) (s.bind.line k.1 k.2) s)
    { s with bind := { s.bind with nextRegion := from_ + n } }

/-- Validation passes and the regions are read, or the binding is rejected (R7 to R9). -/
def anchorCaptured (s : State) : State :=
  let c := captureOf s.bind.anchorLines
  match validate s.bind.straps c with
  | some (cause, kind) => rejectBinding cause kind s
  | none => readGroup { s with bind := { s.bind with captured := some c, anchorLines := [] } }

/-- An anchor read completes (R6, R7). -/
def anchorRead (k : Nat) (r : Completed) (s : State) : State :=
  if r.2.2 || s.bind.state != .capturing then s
  else if r.2.1 then rejectBinding .memory none s
  else
    let t := { s with bind := { s.bind with anchorLines := s.bind.anchorLines ++ [(k, r.1)] } }
    if t.bind.anchorLines.length = 4 then anchorCaptured t else t

/-! ## Taking the values (R9) -/

def holdEvent (e : Event) (s : State) : State := { s with bind := { s.bind with heldEvents := s.bind.heldEvents ++ [e] } }

/-- The bytes of a line, by position. -/
def lineBytes (l : List Byte) : LineBytes := bytesAt 0 (fitTo 64 l)

/-- A parameter word is taken as if written while bound; the request words are not (R9). -/
def takeParam (c : Instr) (s : State) : State :=
  let bad := fun (o : Nat) => holdEvent (configIgnored s .plan 0 o) s
  match c with
  | .sleepParameter q v =>
    match takeSleepParam q v s.sleep with
    | some p => { s with sleep := p }
    | none => bad (SleepParam.offset q)
  | .connectionParameter q v =>
    match takeConnParam q v s.conn with
    | some p => { s with conn := p }
    | none => bad (ConnParam.offset q)
  | .mobilityParameter q v =>
    match takeMobParam q v s.mob with
    | some p => { s with mob := p }
    | none => bad (MobParam.offset q)
  | _ => s

def takePlanLine (ws : List Watched) (l : List Byte) (s : State) : State :=
  ws.foldl (fun s w => takeParam (w.2.2 (fieldValue (lineBytes l) w.1 w.2.1)) s) s

/-- A slot's configuration word is taken as a notice for a slot that is not serving (R9, R84). -/
def takeSlotWord (n : Fin 13) (word : CellWord) (v : Half) (s : State) : State :=
  if cellWordOk word v then setSlot n (Slot.take word v) s
  else holdEvent (configIgnored s .cell (BitVec.ofNat 16 n.val) (CellWord.offset word)) s

def takeSlotConfig (n : Fin 13) (l : List Byte) (s : State) : State :=
  takeSlotWord n .areaCode (halfOf l 6) (takeSlotWord n .cellCode (halfOf l 4) (takeSlotWord n .carrier (halfOf l 2)
    (takeSlotWord n .inUse ((byteOf l 0).setWidth 16) s)))

/-- The line of a region read. -/
def regionLine (s : State) (k : Nat) : List Byte := ((s.bind.regionLines.find? (fun p => p.1 == k)).map (·.2)).getD []

/-- Every value of R9 is taken, plan first, then the slots, then the rings. -/
def takeValues (s : State) : State :=
  let at_ := fun k i => byteOf (regionLine s k) i
  let t := takePlanLine planWatched1 (regionLine s 1) (takePlanLine planWatched0 (regionLine s 0) s)
  let t := (List.finRange 13).foldl (fun t n => takeSlotConfig n (regionLine s (2 + n.val)) t) t
  { t with
    speech := { t.speech with upProd := at_ 15 0, upCons := at_ 15 0, downProd := at_ 15 3, downCons := at_ 15 3 }
    texts := { t.texts with prod := at_ 16 0, retire := at_ 16 0, inProd := at_ 17 1, inCons := at_ 17 1 }
    events := { t.events with producer := at_ 18 1, consumer := at_ 18 1 } }

/-! ## The initial writes (R10) -/

/-- The initial values of a line's fields; its other part-owned bytes are 0. -/
def initialFields (s : State) (k : Kind) (i : Nat) : Fields :=
  match k with
  | .plan => if i = 0 then planFields0 s else planFields1 s
  | .cell =>
    if h : 1 ≤ i ∧ i < 14 then slotFields s.cells.slots[i - 1] else cellHeaderFields s.cells.serving s.cells.epoch
  | .speech => if i = 0 then [(1, [s.speech.upCons]), (2, [s.speech.downProd])] else []
  | .outbox => if i = 0 then [(1, [s.texts.retire])] else []
  | .inbox => if i = 0 then [(0, [s.texts.inProd]), (2, [0])] else []
  | .event => if i = 0 then [(0, [s.events.producer]), (2, [BitVec.ofNat 8 s.bind.capacity]), (3, [0])] else []
  | _ => []

/-- The initial write of a line; a line without part-owned bytes has none. -/
def initialWrite (s : State) (k : Kind) (i : Nat) : Option WriteReq :=
  let bytes := bytesOver (fieldBytes (initialFields s k i)) (partZeros k i)
  if bytes.isEmpty then none else some (writeAt s k i bytes)

/-- The regions in ascending address order. -/
def regionsByAddress (b : Binder) : List Kind := sortBy (fun x y => decide (b.firstLine x ≤ b.firstLine y)) regionKinds

/-- Every initial write, in ascending address order (R10). -/
def initialWrites (s : State) : List WriteReq :=
  (regionsByAddress s.bind).flatMap (fun k => (List.range (k.lines s.bind.capacity)).filterMap (initialWrite s k))

/-- The binding's writes: the initial values and then the status BOUND. -/
def bindingWrites (s : State) : List WriteReq :=
  initialWrites s ++ [statusWrite s BindState.bound.statusCode none .bound]

/-- All region reads are complete: values taken, initial writes placed as far as they can be (R9, R10, R21). -/
def regionsRead (s : State) : State :=
  let t := takeValues s
  let t := { t with bind := { t.bind with regionLines := [], nextRegion := 0 } }
  (bindingWrites t).foldl (fun t w => emitWrite .binder w t) t

/-- A region read completes (R9). -/
def regionDone (k : Nat) (r : Completed) (s : State) : State :=
  if r.2.2 || s.bind.state != .capturing then s
  else if r.2.1 then rejectBinding .memory none s
  else
    let t := { s with bind := { s.bind with regionLines := s.bind.regionLines ++ [(k, r.1)] } }
    if t.bind.regionLines.length = 19 then regionsRead t
    else if t.bind.regionLines.length = t.bind.nextRegion then readGroup t
    else t

/-- The status write BOUND is accepted: jobs and event writer start, the hold ends, the held events are handed (R10, R192). -/
def bindComplete (s : State) : State :=
  let held := s.bind.heldEvents
  let s := { s with
    bind := { s.bind with state := .bound, heldEvents := [] }
    events := { s.events with running := true, published := s.events.producer }
    port := { s.port with bindHold := false } }
  held.foldl (fun s e => raiseNow e s) (presentHeld s)

/-! ## Unbinding and the enable word (R5, R15) -/

/-- The unbinding begins (R15). -/
def beginUnbind (s : State) : State :=
  let s := emitWrite .binder (statusWrite s BindState.unbinding.statusCode none .none)
    { s with bind := { s.bind with state := .unbinding, unbindTimer := .running Config.unbindFrames } }
  let s := requestShutdown .unbind s
  placeEvents { s with bind := { s.bind with noDetach := s.conn.state == .off || s.conn.shutNoDetach } }

/-- A full write of the enable word (R5); the CONFIG-IGNORED of R14 is the caller's. -/
def enableWord (v : Word) (s : State) : State :=
  match s.bind.state with
  | .unbound => if v = 1 then beginCapture s else s
  | .rejected =>
    if v = 1 then beginCapture s
    else if v = 0 then
      let s := { s with bind := { s.bind with state := .unbound, rejection := none } }
      emitWrite .binder (statusWrite s BindState.unbound.statusCode none .none) s
    else s
  | .bound => if v = 0 then beginUnbind s else s
  | .capturing | .unbinding => s

/-- The value is one R14 ignores with an event. -/
def enableBad (v : Word) (s : State) : Bool := s.bind.state == .bound && v != 0 && v != 1

/-- The enable word written by itself (R5, R14). -/
def enableWritten (v : Word) (s : State) : State :=
  enableWord v (if enableBad v s then raiseNow (configIgnored s .anchor 0 enableStart) s else s)

def execEnableWordWrite (v : Word) (s : State) : Host.Outcome State Fault Refusal :=
  runIf (portOpen s && !s.port.bindHold && !s.port.sleepHold) (enableWritten v) s

def execAnchorReadDone (k : Fin 4) (data : ReadData) (err : Bool) (s : State) :
    Host.Outcome State Fault Refusal :=
  runRead (dueRead (· == .anchor k.val) data.line.toNat s.mem) data.bytes err (anchorRead k.val) s

def execRegionReadDone (k : Fin 19) (data : ReadData) (err : Bool) (s : State) :
    Host.Outcome State Fault Refusal :=
  runRead (dueRead (· == .region k.val) data.line.toNat s.mem) data.bytes err (regionDone k.val) s

def execUnbindTimerExpiry (s : State) : Host.Outcome State Fault Refusal :=
  runIf (jobsRun s && s.bind.unbindTimer == .due && s.bind.state == .unbinding) unbindEnd s

/-- The status write UNBOUND at an unbinding's end is accepted (R16). -/
def unbindComplete (s : State) : State :=
  { s with bind := { Binder.initial s.bind.straps with state := .unbound } }

end Sys2Proof.Machine
end

