-- ==== Sys2Proof/Machine/Path.lean ====
section
/-! DEFINITION. Commands of the processor port, the acceptance list, the arbiter, the stage and the two resets (R11 to R46). -/

namespace Sys2Proof.Machine

/-! ## The processor port (R18 to R20) -/

/-- A request arrives: recorded, then reported as activity; an error answer where its tag is not FREE (R18, R19). -/
def arrive (tag : BitVec 4) (err : Answer) (record : State → State) (s : State) : State :=
  processorActivity (if tagBusy tag s then answer err s else record s)

/-- A READ is recorded (R18, R28). -/
def recordRead (tag : BitVec 4) (line : Line) (s : State) : State := joinRead (.host tag) line s

def execProcessorRead (tag : BitVec 4) (line : BitVec 26) (s : State) : Host.Outcome State Fault Refusal :=
  runIf (portOpen s)
    (arrive tag (.readData tag true (List.replicate 64 0)) (recordRead tag line.toNat)) s

/-- The bytes of a WRITE by position, each position once (R18). -/
def byteSet (bytes : List (BitVec 6 × Byte)) : LineBytes :=
  bytes.foldl (fun m p => bytesOver [(p.1.toNat, p.2)] m) []

/-- A WRITE is recorded: presented, or held (R18, R20). -/
def recordWrite (tag : BitVec 4) (line : Line) (bytes : LineBytes) (s : State) : State :=
  let w : HostWrite := { tag := tag, line := line, bytes := bytes, arrived := s.mem.clock }
  let s := tickClock s
  if s.port.bindHold || s.port.sleepHold then { s with port := { s.port with held := s.port.held ++ [w] } }
  else presentWrite w s

def execProcessorWrite (tag : BitVec 4) (line : BitVec 26) (bytes : List (BitVec 6 × Byte)) (s : State) :
    Host.Outcome State Fault Refusal :=
  runIf (portOpen s) (arrive tag (.writeDone tag true) (recordWrite tag line.toNat (byteSet bytes))) s

/-! ## Write notices (R13) -/

/-- What the owning job does with a notice. -/
def takeNotice (c : Instr) (s : State) : State :=
  match c with
  | .radioRequest v => radioRequest v s
  | .sleepRequest v => sleepRequest v s
  | .stopGrant v => stopGrant v s
  | .wakeAck v => wakeAck v s
  | .lineAcknowledge l v => lineAcknowledge l v s
  | .sleepParameter q v => sleepParameter q v s
  | .connectionParameter q v => connectionParameter q v s
  | .mobilityParameter q v => mobilityParameter q v s
  | .cellConfigurationNotice n w v => cellNotice n w v s
  | .requestOriginate r => callRequest r .originate s
  | .requestAnswer r => callRequest r .answer s
  | .requestHold r => callRequest r .hold s
  | .requestResume r => callRequest r .resume s
  | .requestSwap r => callRequest r .swap s
  | .requestRelease r => callRequest r .release s
  | .requestUnknown r code => requestUnknown r code s
  | .uplinkProducerWrite v => uplinkProducer v s
  | .downlinkConsumerWrite v => downlinkConsumer v s
  | .outboxProducerWrite v => outboxProducer v s
  | .cancelWordWrite n v => cancelWord n v s
  | .inboxConsumerWrite v => inboxConsumer v s
  | .eventConsumerWrite v => eventConsumer v s
  | _ => s

/-! ## Acceptance of a host write (R11 to R14, R22) -/

/-- Ownership and frozen fields are in force (R4). -/
def filtering (s : State) : Bool := s.bind.state == .bound || s.bind.state == .unbinding

/-- The line's region, where filtering is in force (R11). -/
def filterPlace (s : State) (line : Line) : Option (Kind × Nat) := if filtering s then s.bind.locate line else none

/-- The bytes left after the ownership filter (R12). -/
def keptBytes (s : State) (line : Line) (bytes : LineBytes) : LineBytes :=
  match filterPlace s line with
  | some (k, i) => bytes.filter (fun p => !partOwned k i p.1)
  | none => bytes

/-- The first byte in address order of a write that passes a test. -/
def firstByte (bytes : LineBytes) (p : Nat → Bool) : Option Nat :=
  (List.range 64).find? (fun k => bytesCover bytes k && p k)

/-- OWNERSHIP-BREACH, once, for the first removed byte (R12). -/
def breach (k : Kind) (i : Nat) (bytes : LineBytes) (s : State) : State :=
  match firstByte bytes (partOwned k i) with
  | some p =>
    let r := recordOf k i p
    raiseNow (event s .ownershipBreach .none k.code r.1 0 0 (BitVec.ofNat 32 r.2)) s
  | none => s

/-- The write covers some but not all of a watched word that holds the byte; in UNBINDING the enable word alone, as R14 has it against
R5 (log entry 70). -/
def partlyWatched (s : State) (k : Kind) (i : Nat) (bytes : LineBytes) (p : Nat) : Bool :=
  let part := fun (start width : Nat) => start ≤ p && p < start + width && !coversAll bytes start width
  (k == .anchor && i == 0 && part enableStart 4) ||
    (s.bind.state == .bound && (watchedWords k i).any (fun w => part w.1 w.2.1))

/-- The byte belongs to an enable word whose value is neither 0 nor 1, written in BOUND (R14). -/
def badEnable (s : State) (k : Kind) (i : Nat) (bytes : LineBytes) (p : Nat) : Bool :=
  k == .anchor && i == 0 && enableStart ≤ p && p < enableStart + 4 && coversAll bytes enableStart 4 &&
    enableBad (fieldValue bytes enableStart 4) s

/-- CONFIG-IGNORED, once, for the first byte concerned (R14). -/
def ignored (k : Kind) (i : Nat) (bytes : LineBytes) (s : State) : State :=
  match firstByte bytes (fun p => frozen k i p || partlyWatched s k i bytes p || badEnable s k i bytes p) with
  | some p => raiseNow (configIgnored s k (recordOf k i p).1 (recordOf k i p).2) s
  | none => s

/-- The enable word, if the write covers it in full (R5). -/
def acceptEnable (line : Line) (bytes : LineBytes) (s : State) : State :=
  if line = s.bind.line .anchor 0 ∧ coversAll bytes enableStart 4 then enableWord (fieldValue bytes enableStart 4) s else s

/-- The notices of the watched words covered in full, in ascending address order (R13). -/
def acceptNotices (k : Kind) (i : Nat) (bytes : LineBytes) (s : State) : State :=
  (watchedWords k i).foldl (fun s w =>
    if s.bind.state == .bound && coversAll bytes w.1 w.2.1 then takeNotice (w.2.2 (fieldValue bytes w.1 w.2.1)) s else s) s

/-- What the region decoder does with a write at its acceptance (R5, R11 to R14). -/
def decode (line : Line) (bytes : LineBytes) (s : State) : State :=
  match filterPlace s line with
  | some (k, i) => acceptNotices k i bytes (acceptEnable line bytes (ignored k i bytes (breach k i bytes s)))
  | none => acceptEnable line bytes s

/-- A host write that can be accepted: wholly filtered away, or taken by the queue (R22, R24 to R26). -/
def hostTakes (s : State) (line : Line) (bytes : LineBytes) : Bool :=
  (keptBytes s line bytes).isEmpty || queueTakes s.mem line

/-- A host write at the head is accepted (R22). -/
def acceptHost (tag : BitVec 4) (line : Line) (bytes : LineBytes) (s : State) : State :=
  let t := { s with mem := takeHost line (keptBytes s line bytes) { s.mem with accept := s.mem.accept.tail } }
  serveReads (decode line bytes (answer (.writeDone tag false) t))

/-! ## Acceptance of an internal write (R22, R8, R10, R16, R192) -/

/-- What the placing block does when its write has been accepted. -/
def accepted (note : WriteNote) (s : State) : State :=
  match note with
  | .none => s
  | .bound => bindComplete s
  | .rejected => presentHeld { s with port := { s.port with bindHold := false } }
  | .unbound => unbindComplete s
  | .eventHeader p => { s with events := { s.events with published := p } }

/-- An internal write at the head is accepted (R22). -/
def acceptInternal (note : WriteNote) (w : AccWrite) (s : State) : State :=
  serveReads (accepted note { s with mem := takeInternal w { s.mem with accept := s.mem.accept.tail } })

/-- The head of the list can be accepted now (R21). -/
def headTakes (s : State) : Bool :=
  match s.mem.accept with
  | [] => false
  | w :: _ => if w.isHost then hostTakes s w.line w.bytes else internalTakes s.mem w

/-- The head of the list is accepted. -/
def acceptHead (s : State) : State :=
  match s.mem.accept with
  | [] => s
  | w :: _ =>
    match w.writer with
    | .host tag _ => acceptHost tag w.line w.bytes s
    | .part note => acceptInternal note w s

/-- The head is a host write. -/
def headIsHost (s : State) : Bool :=
  match s.mem.accept with
  | w :: _ => w.isHost
  | [] => false

def execHostWriteAccept (s : State) : Host.Outcome State Fault Refusal :=
  runIf (headIsHost s && headTakes s) acceptHead s

/-- The oldest internal write is accepted (R24 to R26, R34); in EXITING too, where the arbiter alone holds back (R41; log entry 88). -/
def execInternalWriteAccept (s : State) : Host.Outcome State Fault Refusal :=
  runIf (!headIsHost s && headTakes s) acceptHead s

/-! ## The turn of a waiting job (R21, R28) -/

/-- Work that places a write. -/
def Act.places : Act → Bool
  | .raise _ _ | .msg _ _ | .wakeMark | .read _ _ _ => false
  | _ => true

/-- One piece of a waiting job's work is done. -/
def doAct (a : Act) (s : State) : State :=
  match a with
  | .write w => joinWrite w s
  | .raise e none => raiseNow e s
  | .raise e (some c) => primaryCause c 0 (raiseNow e s)
  | .msg id m => { s with link := handMsg id m s.link }
  | .placeEvents => forceEvents s
  | .writeBack => forceWriteBack s
  | .speechHeader up down => joinWrite (speechHeaderReq s up down) s
  | .read j f line => placeRead j f line s
  | .speechSlot up =>
    match s.speech.heldFrame with
    | some f => placeDown f up s
    | none => s
  | .wakeMark => { s with sleep := { s.sleep with wakeAfter := some s.mem.clock } }

/-- The rest of a job's work, until it has to wait again. -/
def runActs (j : Job) : List Act → State → State
  | [], s => s
  | a :: rest, s => if a.places && mustWait s then waitActs j (a :: rest) s else runActs j rest (doAct a s)

/-- The wait of a job whose turn it is: no other began before it. -/
def turnOf (j : Job) (s : State) : Option Wait :=
  s.mem.waits.find? (fun w => w.job == j && s.mem.waits.all (fun x => w.since ≤ x.since))

/-- The job's first write is placed, and its work goes on. -/
def takeTurn (w : Wait) (s : State) : State :=
  let t := { s with mem := { s.mem with waits := s.mem.waits.erase w } }
  match w.acts with
  | [] => t
  | a :: rest => runActs w.job rest (doAct a t)

def execInternalWritePlaceWait (j : Job) (s : State) : Host.Outcome State Fault Refusal :=
  match turnOf j s with
  | some w => runIf (internalCount s.mem < Config.internalWrites) (takeTurn w) s
  | none => .next s

/-- The reads a waiting job places, until it has to wait again (R28). -/
def placeReads (j : Job) : List (ReadFor × Line) → State → State
  | [], s => s
  | (f, l) :: rest, s => placeReads j rest (placeRead j f l s)

def readTurnOf (j : Job) (s : State) : Option ReadWait :=
  s.mem.readWaits.find? (fun w => w.job == j && s.mem.readWaits.all (fun x => w.since ≤ x.since))

/-- The job's first read is placed, and the rest as far as it goes. -/
def takeReadTurn (w : ReadWait) (s : State) : State :=
  let t := { s with mem := { s.mem with readWaits := s.mem.readWaits.erase w } }
  match w.reads with
  | [] => t
  | (f, l) :: rest => placeReads w.job rest (joinRead f l t)

def execInternalReadPlaceWait (j : Job) (s : State) : Host.Outcome State Fault Refusal :=
  match readTurnOf j s with
  | some w => runIf (internalReadCount s.mem < Config.internalReads) (takeReadTurn w) s
  | none => .next s

/-! ## The memory port (R27, R34, R38, R40) -/

def execArbiterGrant (drainFirst : Bool) (s : State) : Host.Outcome State Fault Refusal :=
  runIf (s.mem.memState == .active) (grant drainFirst) s

/-- A drain's entry is freed, and stage lines are offered room first (R26, R27, R36). -/
def freeEntry (line : Line) (m : MemPath) : MemPath :=
  stageLeave (noteOccupancy { m with
    queue := m.queue.filter (fun e => !(e.line == line && e.draining))
    inFlight := m.inFlight.erase (.drain line) })

/-- The drain completes; a head write that waited is accepted if it now can be (R25 to R27). -/
def drainDone (line : Line) (s : State) : State :=
  let waited := !headTakes s
  let t := serveReads { s with mem := freeEntry line s.mem }
  if waited && headTakes t then acceptHead t else t

def execDrainDone (line : BitVec 26) (s : State) : Host.Outcome State Fault Refusal :=
  runIf (nextOfLine s.mem (.drain line.toNat)) (drainDone line.toNat) s

/-- The first waiting publication is published (R34, R35). -/
def publishNext (p : Publication) (rest : List Publication) (s : State) : State :=
  published p.kind p.live (serveReads { s with mem := publishImages p.number p.images { s.mem with pubs := rest } })

def execStagePublish (s : State) : Host.Outcome State Fault Refusal :=
  match s.mem.pubs with
  | p :: rest => runIf (stageFits s.mem p.images) (publishNext p rest) s
  | [] => .next s

/-- A host read is answered (R32, R43). -/
def hostReadDone (tag : BitVec 4) (r : Completed) (s : State) : State := answer (.readData tag r.2.1 r.1) s

def execHostReadDone (tag : BitVec 4) (data : List Byte) (err : Bool) (s : State) :
    Host.Outcome State Fault Refusal :=
  runRead (s.mem.reads.find? (fun r => r.for_ == .host tag)) data err (hostReadDone tag) s

/-! ## Frames and messages that fail their checks (R50, R61) -/

/-- A good frame or air message, taken as what it is (log entry 33). -/
def received (c : Instr) (s : State) : Host.Outcome State Fault Refusal :=
  match c with
  | .measureDone l => execMeasureDone l s
  | .listenDone o => execListenDone o s
  | .sigSent => execSigSent s
  | .speechIn p => execSpeechIn p s
  | .switchDone b => execSwitchDone b s
  | .servingLost => execServingLost s
  | .linkReady => execLinkReady s
  | .connectGrant => execConnectGrant s
  | .connectReject => execConnectReject s
  | .reestablishAccept => execReestablishAccept s
  | .areaAccept a => execAreaAccept a s
  | .areaReject a => execAreaReject a s
  | .offer r d => execOffer r d s
  | .ringing r => execRinging r s
  | .connect r => execConnect r s
  | .holdAccept r => execHoldAccept r s
  | .resumeAccept r => execResumeAccept r s
  | .release r c => execRelease r c s
  | .releaseDone r => execReleaseDone r s
  | .textSegment r d i n p => execTextSegment r d i n p s
  | .segmentAck r i a => execSegmentAck r i a s
  | .transferOrder c d f => execTransferOrder c d f s
  | _ => .next s

def execBadFrame (bytes : List Byte) (s : State) : Host.Outcome State Fault Refusal :=
  match frameDecode bytes with
  | some c => received c s
  | none => .next s

def execAirMessageInvalid (payload : List Byte) (s : State) : Host.Outcome State Fault Refusal :=
  match airDecode payload with
  | some c => received c s
  | none => .next s

/-! ## Resets (R17, R45, R46, R64) -/

def execPowerOnReset (straps : BitVec 2) (s : State) : Host.Outcome State Fault Refusal :=
  .next { State.powerOn straps with pending := s.pending }

/-- The teardown writes of R17, by what is on chip: a record already FREE has none (log entry 67). -/
def teardownWrites (s : State) : List WriteReq :=
  if filtering s then
    (List.finRange 4).filterMap (fun r =>
      if (s.calls.recs[r]).state == .free then none
      else some (writeAt s .call r.val (fieldBytes [(0x10, [CallState.free.code]), (0x15, [Cause.reset.code])]))) ++
    (s.texts.send.toList.map (fun x =>
      writeAt s .outbox (descLine x.desc.val)
        (fieldBytes [(32 * (x.desc.val % 2) + 0x18, [DescState.interrupted.code])]))) ++
    [statusWrite s BindState.unbound.statusCode none .none]
  else []

/-- The error answers of step 1 of R46, in order of arrival. -/
def errorAnswers (s : State) : List Answer :=
  ((s.mem.accept.filterMap AccWrite.toHeld ++ s.port.held).map (fun w => .writeDone w.tag true))

/-- The acceptance list, the queue and the stage are empty, nothing is in flight, every read answered, DRAM out of
self-refresh (R46). -/
def drained (s : State) : Bool := memoryQuiet s.mem && s.mem.memState == .active

/-- The teardown writes are placed (R46, step 5). -/
def placeTeardown (s : State) : State :=
  s.teardown.foldl (fun s w => joinWrite w s) { s with resetPhase := .teardown, teardown := [] }

/-- What a write of the acceptance list is once RESET_N is asserted: host writes are gone, and of a capture the status write BOUND, so
that the anchor status keeps its value; the others are accepted with nothing more to bring about (R17, R46; log entry 67). -/
def AccWrite.atReset (w : AccWrite) : Option AccWrite :=
  match w.writer with
  | .host _ _ | .part .bound => none
  | .part _ => some { w with writer := .part .none }

/-- RESET_N is asserted: steps 1 to 4 of R46, with the jobs and the link cleared (R64). Writes that jobs still wait to place are
dropped (log entry 67). -/
def beginWarmReset (s : State) : State :=
  let td := teardownWrites s
  let t := resetJobs { s with
    resetN := true, resetPhase := .draining, teardown := td
    out := { s.out with answers := s.out.answers ++ errorAnswers s }
    port := Port.initial
    mem := { s.mem with accept := s.mem.accept.filterMap AccWrite.atReset, readWaits := [] }
    bind := { s.bind with
      unbindTimer := .stopped, noDetach := false, heldEvents := [], anchorLines := [], regionLines := [] } }
  serveReads (presentExit t)

/-- The warm reset as far as it goes at once: with nothing to answer or drain, the teardown writes are placed (R17, R46). -/
def warmReset (s : State) : State :=
  let t := beginWarmReset s
  if drained t then placeTeardown t else t

/-- A second assertion while the sequence runs finds it running (log entry 28). -/
def execWarmReset (s : State) : Host.Outcome State Fault Refusal :=
  if s.resetPhase = .idle then .next (warmReset s) else .next { s with resetN := true }

/-- The values of R45, R63 and every other reset; the straps are sampled (R1, R17). -/
def resetDone (straps : BitVec 2) (s : State) : State :=
  { State.powerOn straps with pending := s.pending, out := s.out, resetN := s.resetN }

def execWarmResetEnd (straps : BitVec 2) (s : State) : Host.Outcome State Fault Refusal :=
  if !drained s then .next s
  else
    match s.resetPhase with
    | .idle => .next s
    | .draining => if s.teardown.isEmpty then .next (resetDone straps s) else .next (placeTeardown s)
    | .teardown => .next (resetDone straps s)

def execResetNRelease (s : State) : Host.Outcome State Fault Refusal := .next { s with resetN := false }

end Sys2Proof.Machine
end

