-- ==== Sys2Proof/Machine/Dispatch.lean ====
section
/-! DEFINITION. What each command does: one arm for each command, one call of its meaning. -/

namespace Sys2Proof.Machine

/-- The effect of a command on everything but the queue. -/
def exec (i : Instr) (s : State) : Host.Outcome State Fault Refusal :=
  match i with
  | .powerOnReset straps => Sys2Proof.Machine.execPowerOnReset straps s
  | .warmReset => Sys2Proof.Machine.execWarmReset s
  | .warmResetEnd straps => Sys2Proof.Machine.execWarmResetEnd straps s
  | .resetNRelease => Sys2Proof.Machine.execResetNRelease s
  | .frameStrobe pins => Sys2Proof.Machine.execFrameStrobe pins s
  | .processorRead tag line => Sys2Proof.Machine.execProcessorRead tag line s
  | .processorWrite tag line bytes => Sys2Proof.Machine.execProcessorWrite tag line bytes s
  | .hostWriteAccept => Sys2Proof.Machine.execHostWriteAccept s
  | .internalWriteAccept => Sys2Proof.Machine.execInternalWriteAccept s
  | .internalWritePlaceWait job => Sys2Proof.Machine.execInternalWritePlaceWait job s
  | .internalReadPlaceWait job => Sys2Proof.Machine.execInternalReadPlaceWait job s
  | .enableWordWrite value => Sys2Proof.Machine.execEnableWordWrite value s
  | .anchorReadDone k data err => Sys2Proof.Machine.execAnchorReadDone k data err s
  | .regionReadDone k data err => Sys2Proof.Machine.execRegionReadDone k data err s
  | .unbindTimerExpiry => Sys2Proof.Machine.execUnbindTimerExpiry s
  | .arbiterGrant drainFirst => Sys2Proof.Machine.execArbiterGrant drainFirst s
  | .drainDone line => Sys2Proof.Machine.execDrainDone line s
  | .stagePublish => Sys2Proof.Machine.execStagePublish s
  | .hostReadDone tag data err => Sys2Proof.Machine.execHostReadDone tag data err s
  | .selfRefreshEnter => Sys2Proof.Machine.execSelfRefreshEnter s
  | .exitDelayExpiry => Sys2Proof.Machine.execExitDelayExpiry s
  | .settleDelayExpiry => Sys2Proof.Machine.execSettleDelayExpiry s
  | .responseTimeout op => Sys2Proof.Machine.execResponseTimeout op s
  | .recoveryTimerExpiry => Sys2Proof.Machine.execRecoveryTimerExpiry s
  | .linkReady => Sys2Proof.Machine.execLinkReady s
  | .badFrame bytes => Sys2Proof.Machine.execBadFrame bytes s
  | .measureDone level => Sys2Proof.Machine.execMeasureDone level s
  | .listenDone outcome => Sys2Proof.Machine.execListenDone outcome s
  | .sigSent => Sys2Proof.Machine.execSigSent s
  | .airMessageInvalid payload => Sys2Proof.Machine.execAirMessageInvalid payload s
  | .servingLost => Sys2Proof.Machine.execServingLost s
  | .switchDone synced => Sys2Proof.Machine.execSwitchDone synced s
  | .speechIn frame => Sys2Proof.Machine.execSpeechIn frame s
  | .radioRequest value => Sys2Proof.Machine.execRadioRequest value s
  | .shutdownTimerExpiry => Sys2Proof.Machine.execShutdownTimerExpiry s
  | .connectionParameter which value => Sys2Proof.Machine.execConnectionParameter which value s
  | .connectGrant => Sys2Proof.Machine.execConnectGrant s
  | .connectReject => Sys2Proof.Machine.execConnectReject s
  | .connectTimerExpiry => Sys2Proof.Machine.execConnectTimerExpiry s
  | .areaAccept area => Sys2Proof.Machine.execAreaAccept area s
  | .areaReject area => Sys2Proof.Machine.execAreaReject area s
  | .areaAnswerTimerExpiry => Sys2Proof.Machine.execAreaAnswerTimerExpiry s
  | .inactivityTimerExpiry => Sys2Proof.Machine.execInactivityTimerExpiry s
  | .reestablishAccept => Sys2Proof.Machine.execReestablishAccept s
  | .reestablishmentTimerExpiry => Sys2Proof.Machine.execReestablishmentTimerExpiry s
  | .cellConfigurationNotice slot word value => Sys2Proof.Machine.execCellConfigurationNotice slot word value s
  | .reloadReadDone data err => Sys2Proof.Machine.execReloadReadDone data err s
  | .roundTimerExpiry => Sys2Proof.Machine.execRoundTimerExpiry s
  | .mobilityParameter which value => Sys2Proof.Machine.execMobilityParameter which value s
  | .holdTimerExpiry slot => Sys2Proof.Machine.execHoldTimerExpiry slot s
  | .reportTimerExpiry => Sys2Proof.Machine.execReportTimerExpiry s
  | .transferOrder carrier code activation => Sys2Proof.Machine.execTransferOrder carrier code activation s
  | .activationTimerExpiry => Sys2Proof.Machine.execActivationTimerExpiry s
  | .requestOriginate rec => Sys2Proof.Machine.execRequestOriginate rec s
  | .requestAnswer rec => Sys2Proof.Machine.execRequestAnswer rec s
  | .requestHold rec => Sys2Proof.Machine.execRequestHold rec s
  | .requestResume rec => Sys2Proof.Machine.execRequestResume rec s
  | .requestSwap rec => Sys2Proof.Machine.execRequestSwap rec s
  | .requestRelease rec => Sys2Proof.Machine.execRequestRelease rec s
  | .requestUnknown rec code => Sys2Proof.Machine.execRequestUnknown rec code s
  | .dialStringCaptured rec data err => Sys2Proof.Machine.execDialStringCaptured rec data err s
  | .ringing ref => Sys2Proof.Machine.execRinging ref s
  | .connect ref => Sys2Proof.Machine.execConnect ref s
  | .offer ref caller => Sys2Proof.Machine.execOffer ref caller s
  | .holdAccept ref => Sys2Proof.Machine.execHoldAccept ref s
  | .resumeAccept ref => Sys2Proof.Machine.execResumeAccept ref s
  | .release ref cause => Sys2Proof.Machine.execRelease ref cause s
  | .releaseDone ref => Sys2Proof.Machine.execReleaseDone ref s
  | .dialingTimerExpiry rec => Sys2Proof.Machine.execDialingTimerExpiry rec s
  | .ringingOutTimerExpiry rec => Sys2Proof.Machine.execRingingOutTimerExpiry rec s
  | .incomingTimerExpiry rec => Sys2Proof.Machine.execIncomingTimerExpiry rec s
  | .exchangeTimerExpiry rec => Sys2Proof.Machine.execExchangeTimerExpiry rec s
  | .releasingTimerExpiry rec => Sys2Proof.Machine.execReleasingTimerExpiry rec s
  | .uplinkProducerWrite value => Sys2Proof.Machine.execUplinkProducerWrite value s
  | .downlinkConsumerWrite value => Sys2Proof.Machine.execDownlinkConsumerWrite value s
  | .speechFetchDone data err => Sys2Proof.Machine.execSpeechFetchDone data err s
  | .outboxProducerWrite value => Sys2Proof.Machine.execOutboxProducerWrite value s
  | .cancelWordWrite desc value => Sys2Proof.Machine.execCancelWordWrite desc value s
  | .descriptorReadDone data err => Sys2Proof.Machine.execDescriptorReadDone data err s
  | .bodyReadDone k data err => Sys2Proof.Machine.execBodyReadDone k data err s
  | .segmentAck ref index result => Sys2Proof.Machine.execSegmentAck ref index result s
  | .ackTimerExpiry => Sys2Proof.Machine.execAckTimerExpiry s
  | .retryTimerExpiry => Sys2Proof.Machine.execRetryTimerExpiry s
  | .inboxConsumerWrite value => Sys2Proof.Machine.execInboxConsumerWrite value s
  | .textSegment ref sender index count payload => Sys2Proof.Machine.execTextSegment ref sender index count payload s
  | .contextTimerExpiry ring => Sys2Proof.Machine.execContextTimerExpiry ring s
  | .sleepParameter which value => Sys2Proof.Machine.execSleepParameter which value s
  | .sleepRequest value => Sys2Proof.Machine.execSleepRequest value s
  | .stopGrant value => Sys2Proof.Machine.execStopGrant value s
  | .quiesceTimerExpiry => Sys2Proof.Machine.execQuiesceTimerExpiry s
  | .wakeAck value => Sys2Proof.Machine.execWakeAck value s
  | .lineAcknowledge line value => Sys2Proof.Machine.execLineAcknowledge line value s
  | .rouseWindowExpiry => Sys2Proof.Machine.execRouseWindowExpiry s
  | .longPressTimerExpiry => Sys2Proof.Machine.execLongPressTimerExpiry s
  | .eventConsumerWrite value => Sys2Proof.Machine.execEventConsumerWrite value s

end Sys2Proof.Machine
end

