-- ==== Sys2Proof/Machine/Step.lean ====
section
/-! DEFINITION. One step: the command at the front of the queue of waiting commands. -/

namespace Sys2Proof.Machine

/-- The command at the front is carried out on the state with the queue's rest; with no command waiting the part idles
(log entry 6). -/
def step (s : State) : Host.Outcome State Fault Refusal :=
  match s.pending with
  | [] => .next s
  | c :: rest => exec c { s with pending := rest }

/-- A command put at the front of the queue. -/
def State.withCommand (c : Instr) (s : State) : State := { s with pending := c :: s.pending }

/-- The command that a word spells, put at the front of the queue; the table gives no row any bits, so no word spells a
command (log entry 41). -/
def State.withFetchWord (s : State) (nbits w : Nat) : State :=
  match decodeTableWord nbits w with
  | none => s
  | some c => s.withCommand c

end Sys2Proof.Machine
end

