-- ==== Sys2Proof/Safety.lean ====
section
/-! DEFINITION. What is to hold of every state the part passes through, and what a command leaves alone. -/

namespace Sys2Proof.Machine

/-- The write queue holds at most 32 entries, no two for one line (R23). -/
def QueueLaw (q : List QEntry) : Prop := q.length ≤ Config.queueEntries ∧ (q.map (·.line)).Nodup

/-- The memory path within its places: write queue (R23), stage (R33), internal writes (R21), internal reads (R28) and the
consecutive-read-grant count (R39). -/
def MemLimits (m : MemPath) : Prop :=
  QueueLaw m.queue ∧ m.stage.length ≤ Config.stageLines ∧ internalCount m ≤ Config.internalWrites ∧
    internalReadCount m ≤ Config.internalReads ∧ m.count ≤ Config.readGrants

/-- The signalling queue within its places (R58), and fewer timeouts in a row than declare the fault (R55, R56). -/
def LinkLimits (l : Link) : Prop := l.queue.length ≤ Config.signallingPlaces ∧ l.unanswered < Config.unansweredLimit

/-- Every block within the places the spec gives it; the pending events (R192) and the reassembly contexts (R163) too. -/
def Limits (s : State) : Prop :=
  MemLimits s.mem ∧ LinkLimits s.link ∧ s.events.pending.length ≤ Config.pendingEvents ∧ s.texts.ctxs.length ≤ 4

/-- The invariant of every step: within the limits, and no more teardown writes than R17 places. -/
def Safe (s : State) : Prop := Limits s ∧ s.teardown.length ≤ 6

/-- Since a state b the memory port has issued nothing, or, out of self-refresh, the exit command alone (R41). -/
def PortQuiet (b s : State) : Prop :=
  (s.mem.memState = b.mem.memState ∧ s.out.mem = b.out.mem) ∨
    (b.mem.memState = .selfRefresh ∧ s.mem.memState = .exiting ∧ s.out.mem = b.out.mem ++ [.selfRefreshExit])

/-- A state within its limits whose queue of commands, frame number and resets are another state's, with no access granted
since. -/
def Tame (b s : State) : Prop :=
  s.pending = b.pending ∧ s.frame = b.frame ∧ s.resetN = b.resetN ∧
    (s.resetPhase = b.resetPhase ∧ s.teardown = b.teardown ∧ PortQuiet b s) ∧ Limits s

/-- Nothing is due that the part would do by itself at the end of a command: no refused message (R58), no shutdown or
unbinding about to end (R16, R81), no write-back (R175), no round to begin or go on (R97, R98), no deferred segment (R167) and
no head of the outbox to act on (R156). -/
def steady (s : State) : Bool :=
  s.link.refused.isEmpty && !(s.conn.shutdown.isSome && s.conn.shutNoDetach) &&
    !(s.bind.state == .unbinding && s.bind.noDetach) && s.sleep.writeBack == .none &&
    (match s.cells.round with
      | none => !roundDue s
      | some _ => s.cells.phase != .idle) &&
    s.texts.arrivals.isEmpty && (s.texts.send.isSome || s.texts.retire == s.texts.prod)

/-- Nothing waits and nothing is due: a state in which a moment that has ended leaves everything as it is. -/
def Resting (s : State) : Prop :=
  steady s = true ∧ s.events.pending = [] ∧ s.events.owed = none ∧
    (s.link.queue = [] ∨ s.link.opSendSig.runs = true) ∧ s.mem.waits = [] ∧ s.mem.readWaits = [] ∧
    s.sleep.wakeAfter = none ∧ s.sleep.level ≠ .roused ∧ s.conn.inactTimer.runs = connIdle s

/-- The acceptance list has places for n internal writes more (R21). -/
def Room (n : Nat) (s : State) : Prop := internalCount s.mem + n ≤ Config.internalWrites

/-- The link controller can send a message at the moment it is handed (R58, R59). -/
def LinkClear (s : State) : Prop :=
  linkOpen s = true ∧ s.link.queue = [] ∧ s.link.outside = [] ∧ s.link.opSendSig = .stopped ∧ s.link.hold = false

/-- A message handed and sent at the same moment: its place in the queue, IN-FLIGHT, the outstanding operation with its response
timeout, the frame on the link (R52, R54, R58, R59). -/
def sent (m : AirMsg) (s : State) : State :=
  { s with
    link := { s.link with
      nextId := s.link.nextId + 1, nextPlace := s.link.nextPlace + 1, opSendSig := .running 4
      askSendSig := some (.sendSig m)
      queue := [{ id := s.link.nextId, msg := m, inFlight := true, place := s.link.nextPlace, attempts := 0 }] }
    out := { s.out with link := s.out.link ++ [.sendSig m] } }

/-- The one message in the signalling queue, IN-FLIGHT, with what its response timeout has come to (R54, R59). -/
def onAir (q : QMsg) (t : Timer) (s : State) : State :=
  { s with link := { s.link with queue := [q], opSendSig := t, askSendSig := some (.sendSig q.msg) } }

/-- The event writer can place an event at once: it may place, its ring is not full, no event has been lost, and the acceptance
list has room for the record and the header (R194). -/
def EventClear (s : State) : Prop :=
  mayPlace s = true ∧ ringFull s = false ∧ s.events.lossPending = false ∧ Room 2 s

/-- An event placed at once: its 16 bytes in the ring's record for the producer, then the producer, one higher, in the ring's
header (R192, R194). -/
def eventPlaced (e : Event) (s : State) : State :=
  let r := s.events.producer.toNat % s.bind.capacity
  let p := s.events.producer + 1
  joinWrite { writeAt s .event 0 [(0, p)] with note := .eventHeader p }
    (joinWrite (writeAt s .event (1 + r / 4) (fieldBytes (eventFields (16 * (r % 4)) e)))
      { s with events := { s.events with producer := p } })

/-- The part as power-on reset leaves it, but for the commands that wait, RESET_N, the frame number, the straps, the wake lines
as sampled and what has left the port and the link; the memory port has issued nothing. -/
def Untouched (s : State) : Prop :=
  ∃ (x : BitVec 2) (p : List Instr) (n : Bool) (ph : ResetPhase) (f : FrameNo) (a : List Answer) (k : List LinkFrame)
    (l : Vector WakeLine 4),
    s = { State.powerOn x with
      pending := p, resetN := n, resetPhase := ph, frame := f, out := { answers := a, link := k, mem := [] }
      sleep := { Sleep.initial with lines := l } }

/-- Each pin is as its line was last sampled, in the sense in force, and no change is pending (R188). -/
def LinesStill (pins : BitVec 4) (s : State) : Prop :=
  ∀ l : Fin 4, (s.sleep.lines[l]).raw = pins.getLsbD l.val ∧ (s.sleep.lines[l]).polIn = (s.sleep.lines[l]).activeLow ∧
    (s.sleep.lines[l]).filtIn = (s.sleep.lines[l]).filter ∧ (s.sleep.lines[l]).change = 0 ∧
    (s.sleep.lines[l]).active = ((s.sleep.lines[l]).raw != (s.sleep.lines[l]).activeLow)

/-- Every read that is free to proceed has been served as far as it goes (R29). -/
def ReadsServed (s : State) : Prop := ∀ r ∈ s.mem.reads, r.status = .waiting → readFree s r = false

/-- A bound part in AWAKE with nothing under way: at rest, its link clear, room for internal writes and events, no read, no
publication, no measurement, no candidate, no switch. The call records, the connection and the texts are as they may be. -/
def Calm (s : State) : Prop :=
  jobsRun s = true ∧ s.bind.state = .bound ∧ s.port.sleepHold = false ∧ Resting s ∧ LinkClear s ∧ EventClear s ∧ Room 12 s ∧
    s.sleep.level = .awake ∧ s.sleep.cycle = s.sleep.base ∧ s.mem.reads = [] ∧ s.mem.pubs = [] ∧ s.cells.phase = .idle ∧
    s.cells.round = none ∧ s.cells.roundWaits = false ∧ (∀ n : Fin 13, (s.cells.slots[n]).candidate = false) ∧
    s.mob.state = .idle ∧ s.mob.report = false ∧ s.mob.stale = false ∧ s.calls.gapHeld = false ∧
    s.calls.switchOn = false ∧ s.speech.switchOn = false ∧ s.texts.switchOn = false

/-- A round of NO-SERVICE begun, with its timer (R97, R98). -/
def roundBegun (s : State) : State :=
  { s with cells := { s.cells with round := some .serving, roundTimer := .running s.sleep.base } }

/-- A call record replaced. -/
def withRec (r : Fin 4) (c : CallRec) (s : State) : State :=
  { s with calls := { s.calls with recs := s.calls.recs.set r c } }

/-- An outbox descriptor replaced. -/
def withDesc (n : Fin 16) (d : Desc) (s : State) : State :=
  { s with texts := { s.texts with descs := s.texts.descs.set n d } }

/-- A cell slot replaced, and its part-owned fields written (R100). -/
def slotWritten (n : Fin 13) (x : Slot) (s : State) : State :=
  joinWrite (writeAt s .cell (1 + n.val) (fieldBytes (slotFields x)))
    { s with cells := { s.cells with slots := s.cells.slots.set n x } }

/-- The connection state replaced, and written (R66). -/
def connWritten (st : ConnState) (s : State) : State :=
  joinWrite (writeAt s .plan 1 [(0x10, st.code)]) { s with conn := { s.conn with state := st } }

/-- CALL-STATE of a record (R127). -/
def callStateEvent (s : State) (r : Fin 4) (st : CallState) (cause : Option Cause) : Event :=
  event s .callState .none Kind.call.code (BitVec.ofNat 16 r.val) st.code (causeCode cause) 0

/-- A write placed; one that carries no byte is no write. -/
def wrote (w : WriteReq) (s : State) : State := if w.bytes.isEmpty then s else joinWrite w s

/-- A call record replaced, and the fields that changed written (R127). -/
def recWritten (r : Fin 4) (c : CallRec) (s : State) : State :=
  wrote (writeAt s .call r.val (changedBytes (callFields s.calls.recs[r]) (callFields c))) (withRec r c s)

/-- A record's new state: its write, and CALL-STATE (R127). -/
def recMoved (r : Fin 4) (c : CallRec) (s : State) : State :=
  eventPlaced (callStateEvent s r c.state (if c.state = .free then c.endCause else none)) (recWritten r c s)

/-- An outbox descriptor replaced, and the fields that changed written (R154). -/
def descWritten (n : Fin 16) (d : Desc) (s : State) : State :=
  wrote (writeAt s .outbox (descLine n.val) (changedBytes (descFields n.val s.texts.descs[n]) (descFields n.val d)))
    (withDesc n d s)

/-- A descriptor that becomes final: its write, the retire index past the final descriptors, TEXT-DONE (R154). -/
def textDone (n : Fin 16) (d : Desc) (s : State) : State :=
  let t := descWritten n d s
  let i := retireTo t.texts 16 t.texts.retire
  let u := if i = t.texts.retire then t
    else joinWrite (writeAt s .outbox 0 [(1, i)]) { t with texts := { t.texts with retire := i } }
  eventPlaced (event s .textDone .none Kind.outbox.code (BitVec.ofNat 16 n.val) d.state.code (causeCode d.fail) 0) u

/-- What a radio shutdown leaves of the connection and the mobility controller (R80, steps 4 to 6). -/
def shuttingDown (cause : Cause) (s : State) : State :=
  { s with
    mob := { s.mob with reestWaits := false }
    conn := { s.conn with
      shutdown := some cause, shutNoDetach := false, shutTimer := .running 50, detachMsg := some s.link.nextId
      connectTimer := .stopped, areaTimer := .stopped, inactTimer := .stopped, reestTimer := .stopped, areaMsg := none
      camping := false, purposes := [], attempts := 0, opening := none, awaited := none, reqMsg := none } }

/-- What leaving service leaves of the connection where there is no call and no sending text (R79, steps 1, 4 and 5). -/
def leftService (s : State) : State :=
  connWritten .noService { s with
    mob := { s.mob with reestWaits := false }
    conn := { s.conn with
      connectTimer := .stopped, areaTimer := .stopped, inactTimer := .stopped, reestTimer := .stopped, areaMsg := none
      camping := false, purposes := [], attempts := 0, opening := none, awaited := none, reqMsg := none } }

/-- A switch begun to a slot, with no text being sent and no reload read placed (R88, R109). -/
def switchBegun (kind : SwKind) (st : SwState) (n : Fin 13) (s : State) : State :=
  { s with
    mob := { s.mob with
      state := st, confirming := false, order := none, actTimer := .stopped, orderDue := false
      switch := some { kind := kind, old := s.cells.serving, target := n } }
    cells := { s.cells with reloadRead := none }
    link := { s.link with
      hold := true, opSwitch := .running 15
      askSwitch := some (.switch (s.cells.slots[n]).carrier (s.cells.slots[n]).code) }
    calls := { s.calls with switchOn := true, gapHeld := true, gapOwed := [] }
    speech := { s.speech with switchOn := true }
    texts := { s.texts with switchOn := true }
    out := { s.out with link := s.out.link ++ [.switch (s.cells.slots[n]).carrier (s.cells.slots[n]).code] } }

/-- A switch of a kind under way, its SWITCH outstanding or answered (R102, R109). -/
def switchUnder (kind : SwKind) (st : SwState) (n : Fin 13) (op : Timer) (s : State) : State :=
  { switchBegun kind st n s with
    link := { s.link with hold := true, opSwitch := op }, cells := s.cells, out := s.out }

end Sys2Proof.Machine
end

