-- ==== Sys2Proof/WellFormed.lean ====
section
/-! DEFINITION. Which commands are well formed: operands in the shapes that the spec gives them. -/

namespace Sys2Proof

/-- A digit string of at most 24 digits, each 0 to 9, `*` or `#` (R197), with at least a number of them. -/
def digitsWf (least : Nat) (d : List Digit) : Bool :=
  least ≤ d.length && d.length ≤ 24 && d.all (fun x => x.toNat < 12)

/-- Positions in a WRITE's byte set, each at most once; none at all is a byte set too (R18). -/
def byteSetWf (bytes : List (BitVec 6 × Byte)) : Bool :=
  decide (bytes.map (·.1)).Nodup

/-- A line of memory or a speech frame: 64 bytes (R18, R143). -/
def lineWf (data : List Byte) : Bool := data.length == 64

/-- A command's operands have the shapes of the spec: data of one line are 64 bytes, digit strings and payloads keep their
lengths, a frame is no longer than its length byte can say (R50). A value that a rule checks and ignores or discards is well
formed: checking it is the command's meaning. -/
def Instr.wf : Instr → Bool
  | .processorWrite _ _ bytes => byteSetWf bytes
  | .hostReadDone _ data _ => lineWf data
  | .anchorReadDone _ data _ | .regionReadDone _ data _ | .reloadReadDone data _ | .dialStringCaptured _ data _
  | .speechFetchDone data _ | .descriptorReadDone data _ | .bodyReadDone _ data _ => lineWf data.bytes
  | .speechIn frame => lineWf frame
  | .offer _ caller => digitsWf 0 caller
  | .textSegment _ sender _ _ payload => digitsWf 1 sender && 1 ≤ payload.length && payload.length ≤ 160
  | .airMessageInvalid payload => payload.length ≤ 255
  | .badFrame bytes => bytes.length ≤ 259
  | _ => true

end Sys2Proof
end

