-- ==== Sys2Proof/Certificates/Slice0/Obligations.lean ====
section
/-! DEFINITION. The statements for the provers. -/

open Sys2Proof Sys2Proof.Machine

/-! ## The part as a whole -/

/-- One step is the command at the front of the queue, carried out on the state with the queue's rest. -/
def Obligations.StepRunsTheFrontCommand : Prop :=
  (∀ (s : State) (c : Instr) (rest : List Instr), s.pending = c :: rest → step s = exec c { s with pending := rest }) ∧
    ∀ (s : State) (c : Instr), step (s.withCommand c) = exec c s

/-- The model's choice (log entry 6): with no command waiting the part idles. -/
def Obligations.EmptyQueueIdles : Prop :=
  ∀ s : State, s.pending = [] → step s = .next s

/-- Every command is carried out: none faults and none is refused. That a command without its occasion changes nothing is the
model's choice (log entry 3). -/
def Obligations.NoCommandStops : Prop :=
  ∀ (c : Instr) (s : State), ∃ t, exec c s = .next t

/-- No command takes another from the queue, or puts one there. That power-on reset too leaves the commands that wait in it is the
model's choice (log entry 39). -/
def Obligations.ExecKeepsTheQueue : Prop :=
  ∀ (c : Instr) (s t : State), Safe s → exec c s = .next t → t.pending = s.pending

/-- The write queue's law, the stage's, the acceptance list's and the read queue's places, the arbiter's count, the signalling
queue's places, the consecutive-unanswered count, the pending events and the reassembly contexts: every step keeps them
(R21, R23, R28, R33, R39, R55, R58, R163, R192). -/
def Obligations.LimitsKeptByEveryStep : Prop :=
  ∀ s t : State, Safe s → step s = .next t → Safe t

/-- The law of `LimitsKeptByEveryStep` holds at reset, in the state that R45, R63, R171 and R192 give (its straps and its link are the
model's choice, log entries 1, 63). -/
def Obligations.LimitsHoldAtReset : Prop := Safe State.reset

/-- R47: only a strobe and a reset change the frame number. That the strobes of a warm-reset sequence are counted, and those after its
end while RESET_N is still asserted are not, is the model's choice (log entry 43). -/
def Obligations.FrameNumberOnlyByStrobe : Prop :=
  ∀ (c : Instr) (s t : State), Safe s → exec c s = .next t →
    match c with
    | .powerOnReset _ => t.frame = 0
    | .frameStrobe _ => t.frame = if s.resetPhase = .idle ∧ s.resetN = true then s.frame else s.frame + 1
    | .warmResetEnd _ => t.frame = s.frame ∨ t.frame = 0
    | _ => t.frame = s.frame

/-- R41: in self-refresh the part issues no memory access but the exit command, and while the exit delay runs none at all. -/
def Obligations.SelfRefreshLaw : Prop :=
  ∀ (c : Instr) (s t : State), Safe s → s.mem.memState ≠ .active → (∀ x, c ≠ .powerOnReset x) → exec c s = .next t →
    t.out.mem = s.out.mem ∨ (s.mem.memState = .selfRefresh ∧ t.out.mem = s.out.mem ++ [.selfRefreshExit])

/-! ## The resets -/

/-- R45: what power-on reset leaves of the memory path, and no memory access until a request of the host. An enable word given as a
command of its own stands for the host write that carries it; it, a read and a write are the only requests of a host (log entry
39). -/
def Obligations.PowerOnMemoryPath : Prop :=
  (∀ (s : State) (x : BitVec 2), ∃ t, exec (.powerOnReset x) s = .next t ∧ t.pending = s.pending ∧
    (∀ tag, tagBusy tag t = false) ∧ t.port.bindHold = false ∧ t.port.sleepHold = false ∧ t.mem.accept = [] ∧
    t.mem.queue = [] ∧ t.mem.reads = [] ∧ t.mem.stage = [] ∧ t.mem.pubs = [] ∧ t.mem.nextPub = 0 ∧
    t.mem.mode = .readFirst ∧ t.mem.count = 0 ∧ t.mem.memState = .active ∧ t.mem.inFlight = [] ∧ t.out.mem = [] ∧
    Untouched t) ∧
  ∀ (c : Instr) (s t : State), Untouched s → exec c s = .next t →
    (match c with
      | .processorRead .. | .processorWrite .. | .enableWordWrite _ => True
      | _ => Untouched t ∧ t.out.mem = [])

/-- The other blocks after power-on reset: the region decoder, frame time, the link, the connection, the cell table, mobility,
the calls, the speech mover, the texts, the sleep controller, the event writer. -/
def Obligations.PowerOnBlocks : Prop :=
  ∀ (s : State) (x : BitVec 2), ∃ t, exec (.powerOnReset x) s = .next t ∧
    (t.bind.state = .unbound ∧ t.bind.captured = none ∧ t.bind.straps = x ∧ t.bind.unbindTimer = .stopped ∧
      t.frame = 0) ∧
    (t.link.up = true ∧ t.link.unanswered = 0 ∧ (∀ op, t.link.op op = .stopped) ∧ t.link.queue = [] ∧
      t.link.outside = [] ∧ t.link.hold = false ∧ t.link.recovery = .stopped ∧ ∀ op, t.link.ask op = none) ∧
    (t.conn.state = .off ∧ t.conn.purposes = [] ∧ t.conn.opening = none ∧ t.conn.attempts = 0 ∧ t.conn.area = none ∧
      t.conn.awaited = none ∧ t.conn.shutdown = none ∧ t.conn.connectTimer = .stopped ∧ t.conn.areaTimer = .stopped ∧
      t.conn.inactTimer = .stopped ∧ t.conn.reestTimer = .stopped ∧ t.conn.shutTimer = .stopped ∧
      t.conn.inactTime = 1000 ∧ t.conn.campThr = -105 ∧ t.conn.lossThr = -115) ∧
    ((∀ n : Fin 13, t.cells.slots[n] = Slot.initial) ∧ t.cells.serving = none ∧ t.cells.epoch = 0 ∧
      t.cells.reload = [] ∧ t.cells.phase = .idle ∧ t.cells.lastCarrier = none ∧ t.cells.residue = false ∧
      t.cells.round = none ∧ t.cells.roundTimer = .stopped) ∧
    (t.mob.state = .idle ∧ t.mob.order = none ∧ t.mob.switch = none ∧ t.mob.stale = false ∧ t.mob.report = false ∧
      t.mob.reportTimer = .stopped ∧ t.mob.actTimer = .stopped ∧ t.mob.resel = false ∧
      (∀ n : Fin 13, t.mob.slots[n] = { hold := .stopped, matured := false, better := 0 }) ∧ t.mob.margin = 3 ∧
      t.mob.holdLen = 50 ∧ t.mob.reselMargin = 4 ∧ t.mob.reselRounds = 2) ∧
    ((∀ r : Fin 4, t.calls.recs[r] = CallRec.initial) ∧ t.calls.lastRef = 0) ∧
    (t.speech.upProd = 0 ∧ t.speech.upCons = 0 ∧ t.speech.downProd = 0 ∧ t.speech.downCons = 0 ∧
      t.speech.speaking = none ∧ t.speech.switchOn = false ∧ t.speech.fetch = .idle ∧ t.speech.heldFrame = none) ∧
    ((∀ n : Fin 16, t.texts.descs[n] = { state := .none, attempts := 0, fail := none, ref := 0 }) ∧ t.texts.send = none ∧
      t.texts.prod = 0 ∧ t.texts.retire = 0 ∧ t.texts.inProd = 0 ∧ t.texts.inCons = 0 ∧ t.texts.lastRef = 255 ∧
      t.texts.retryTimer = .stopped ∧ t.texts.full = false ∧ t.texts.resv = [] ∧ t.texts.ctxs = [] ∧ t.texts.recent = []) ∧
    (t.sleep.level = .awake ∧ t.sleep.phase = .none ∧ t.sleep.base = 64 ∧ t.sleep.ceiling = 256 ∧ t.sleep.cycle = 64 ∧
      t.sleep.quiet = 0 ∧ t.sleep.quiesceTimer = .stopped ∧ t.sleep.rouseTimer = .stopped ∧ t.sleep.longPress = .stopped ∧
      t.sleep.reentry = false ∧ t.sleep.dirty = [] ∧ t.sleep.wakeCause = none ∧ t.sleep.last = none ∧ t.sleep.wake = false ∧
      t.sleep.answerMap = false ∧ ∀ l : Fin 4, (t.sleep.lines[l]).active = false ∧ (t.sleep.lines[l]).flag = false ∧
        (t.sleep.lines[l]).enable = false ∧ (t.sleep.lines[l]).activeLow = false ∧
        (t.sleep.lines[l]).edgeLevel = false ∧ (t.sleep.lines[l]).filter = true ∧ (t.sleep.lines[l]).change = 0) ∧
    (t.events.running = false ∧ t.events.pending = [] ∧ t.events.overflow = false ∧ t.events.lossPending = false ∧
      t.events.producer = 0 ∧ t.events.published = 0 ∧ t.events.consumer = 0 ∧ attn t = false)

/-- R46, R64: RESET_N asserted with power present; the command completes in every state. Host writes that wait are answered with an
error and go nowhere, internal writes of the acceptance list stay, the holds are lifted, publications that wait are gone, DRAM
leaves self-refresh, and every job is as after power-on reset. R17: the teardown writes when RESET_N is asserted in BOUND or
UNBINDING, and none in the other states; they are placed, in this order, once all is drained, at once where it is so already. That
the jobs and the link are cleared at once, what becomes of writes that jobs wait to place and of the status write BOUND, and that
a second assertion finds the sequence running are the model's choice (log entries 28, 67). -/
def Obligations.WarmResetBegins : Prop :=
  (∀ s : State, ∃ t, exec .warmReset s = .next t ∧ t.resetN = true ∧ t.resetPhase ≠ .idle) ∧
  (∀ s : State, s.resetPhase = .idle → ∃ t, exec .warmReset s = .next t ∧ t.resetN = true ∧ t.resetPhase ≠ .idle ∧
    t.port = Port.initial ∧ (∀ w ∈ t.mem.accept, w.isHost = false) ∧ t.mem.waits = [] ∧ t.mem.readWaits = [] ∧
    t.mem.pubs = [] ∧ t.mem.queue = s.mem.queue ∧ t.mem.stage = s.mem.stage ∧ t.mem.inFlight = s.mem.inFlight ∧
    (s.out.answers ++ errorAnswers s) <+: t.out.answers ∧ t.out.link = s.out.link ∧
    (t.mem.memState, t.out.mem) = (if s.mem.memState = .selfRefresh then (.exiting, s.out.mem ++ [.selfRefreshExit])
      else (s.mem.memState, s.out.mem)) ∧
    (let left := s.mem.accept.filterMap (fun w => match w.writer with
        | .host _ _ | .part .bound => none
        | .part _ => some { w with writer := .part .none })
     (t.resetPhase = .draining ∧ drained t = false ∧ t.teardown = teardownWrites s ∧ t.mem.accept = left) ∨
      (t.resetPhase = .teardown ∧ left = [] ∧ t.mem.reads = [] ∧ s.mem.queue = [] ∧ s.mem.stage = [] ∧ s.mem.inFlight = [] ∧
        s.mem.memState = .active ∧ t.teardown = [] ∧ t.mem.accept.map (fun w => (w.writer, w.line, w.bytes)) =
          (teardownWrites s).map (fun w => (.part w.note, w.line, w.bytes)))) ∧
    t.link = { Link.initial with nextId := s.link.nextId } ∧ t.conn = Conn.initial ∧ t.cells = Cells.initial ∧
    t.mob = Mob.initial ∧ t.calls = Calls.initial ∧ t.speech = Speech.initial ∧ t.texts = Texts.initial ∧
    t.sleep = Sleep.initial ∧ t.events = Events.initial) ∧
  ((∀ s : State, s.bind.state ≠ .bound → s.bind.state ≠ .unbinding → teardownWrites s = []) ∧
  ∀ s : State, s.bind.state = .bound ∨ s.bind.state = .unbinding → teardownWrites s =
    ((List.finRange 4).filter (fun r => (s.calls.recs[r]).state != .free)).map (fun r =>
      writeAt s .call r.val [(0x10, CallState.free.code), (0x15, Cause.reset.code)]) ++
    s.texts.send.toList.map (fun x =>
      writeAt s .outbox (descLine x.desc.val) [(32 * (x.desc.val % 2) + 0x18, DescState.interrupted.code)]) ++
    [writeAt s .anchor 2 [(0, 0), (1, 0), (2, 0)]])

/-- R17, R46: once all is drained the teardown writes are placed, and once they are drained every value is as after power-on reset
and the straps are sampled; before that the command finds the sequence unfinished. While RESET_N is asserted, or the sequence has
not ended, a request is neither recorded nor answered; RESET_N's release lets the port take requests. The end in two commands and
a second assertion during the sequence are the model's choice (log entries 28, 29). -/
def Obligations.WarmResetEnds : Prop :=
  ((∀ (s : State) (x : BitVec 2), exec (.warmResetEnd x) s = .next (
    if drained s = false ∨ s.resetPhase = .idle then s
    else if s.resetPhase = .draining ∧ s.teardown ≠ [] then
      s.teardown.foldl (fun u w => joinWrite w u) { s with resetPhase := .teardown, teardown := [] }
    else { State.powerOn x with pending := s.pending, out := s.out, resetN := s.resetN })) ∧
  (∀ s : State, exec .resetNRelease s = .next { s with resetN := false }) ∧
  ∀ s : State, s.resetPhase ≠ .idle → exec .warmReset s = .next { s with resetN := true }) ∧
  (∀ (s : State) (tag : BitVec 4) (line : BitVec 26) (bytes : List (BitVec 6 × Byte)), portOpen s = false →
    exec (.processorRead tag line) s = .next s ∧ exec (.processorWrite tag line bytes) s = .next s)

/-! ## Frame time -/

/-- R48: a frame timer of N frames is due after exactly N strobes, and stays so until its expiry is taken. R47: a strobe counts the
frame, every frame timer of every block takes it, the wake lines are sampled, and the jobs do their frame activities: LISTEN for a slot kept (R62, R180),
the uplink frame due (R146), and a round of CONNECTED may go on (R98). With the wake lines still and no connection the whole state
after it is given. R188: a wake line is sampled against its filter; a change of polarity inverts it. R189, R190: an active edge
sets the flag and raises LINE, and has the duties of its line; R139: the accessory line answers the one INCOMING record. R146, R148,
R151: the uplink frame due is fetched, or is silence, or during a switch a gap. Strobes while RESET_N is still asserted after
the sequence's end count nothing (the model's choice, log entry 43). So are these: a timer stays due until the command of its expiry
(log entry 4); an inversion of polarity compares no sample (log entry 24); the timers come first, then the lines 0 to 3, LISTEN, the
uplink frame and the pace (log entry 27); a line's level and flag that change together are one write (log entry 32). -/
def Obligations.FrameTime : Prop :=
  ((∀ n k : Nat, 0 < n → (Timer.tick^[k]) (.running n) = if k < n then .running (n - k) else .due) ∧
    ∀ k : Nat, (Timer.tick^[k]) .stopped = .stopped) ∧
  (∀ s : State, tickTimers s = { s with
    bind := { s.bind with unbindTimer := s.bind.unbindTimer.tick }
    link := { s.link with
      opMeasure := s.link.opMeasure.tick, opListen := s.link.opListen.tick, opSendSig := s.link.opSendSig.tick
      opSwitch := s.link.opSwitch.tick, recovery := s.link.recovery.tick }
    conn := { s.conn with
      connectTimer := s.conn.connectTimer.tick, areaTimer := s.conn.areaTimer.tick, inactTimer := s.conn.inactTimer.tick
      reestTimer := s.conn.reestTimer.tick, shutTimer := s.conn.shutTimer.tick }
    cells := { s.cells with roundTimer := s.cells.roundTimer.tick }
    mob := { s.mob with
      actTimer := s.mob.actTimer.tick, reportTimer := s.mob.reportTimer.tick
      slots := s.mob.slots.map (fun x => { x with hold := x.hold.tick }) }
    calls := { s.calls with recs := s.calls.recs.map (fun c => { c with timer := c.timer.tick }) }
    texts := { s.texts with
      retryTimer := s.texts.retryTimer.tick, send := s.texts.send.map (fun x => { x with ackTimer := x.ackTimer.tick })
      ctxs := s.texts.ctxs.map (fun c => { c with timer := c.timer.tick }) }
    sleep := { s.sleep with
      quiesceTimer := s.sleep.quiesceTimer.tick, rouseTimer := s.sleep.rouseTimer.tick
      longPress := s.sleep.longPress.tick } }) ∧
  ((∀ (s : State) (pins : BitVec 4), s.resetPhase ≠ .idle →
    exec (.frameStrobe pins) s = .next { s with frame := s.frame + 1 }) ∧
  (∀ (s : State) (pins : BitVec 4), s.resetPhase = .idle → s.resetN = true → exec (.frameStrobe pins) s = .next s) ∧
  (∀ (s : State) (pins : BitVec 4), portOpen s = true → exec (.frameStrobe pins) s = .next (settle (
    let t := (List.finRange 4).foldl (fun u l => sampleLine l (pins.getLsbD l.val) u) (tickTimers { s with frame := s.frame + 1 })
    if jobsRun t then
      let u := uplinkDue (if listening t && listenSlot t (t.frame + 1) then
        request .listen (.listen (t.frame + 1) ((t.bind.captured.map (·.identity)).getD 0)) t else t)
      { u with cells := { u.cells with paced := false } }
    else t))) ∧
  (∀ (s : State) (pins : BitVec 4), portOpen s = true → jobsRun s = false → Resting s → LinesStill pins s →
    exec (.frameStrobe pins) s = .next (tickTimers { s with frame := s.frame + 1 })) ∧
  ∀ (s : State) (pins : BitVec 4), jobsRun s = true → Resting s → LinesStill pins s → s.conn.state ≠ .connected →
    s.speech.speaking = none →
    exec (.frameStrobe pins) s = .next (
      let t := tickTimers { s with frame := s.frame + 1, cells := { s.cells with paced := false } }
      if listening t && listenSlot t (t.frame + 1) then
        let f := LinkFrame.listen (t.frame + 1) ((t.bind.captured.map (·.identity)).getD 0)
        { t with
          link := { t.link with opListen := .running 2, askListen := some f }
          out := { t.out with link := t.out.link ++ [f] } }
      else t)) ∧
  (∀ (s : State) (l : Fin 4),
    let x := s.sleep.lines[l]
    let put : WakeLine → State := fun y => { s with sleep := { s.sleep with lines := s.sleep.lines.set l y } }
    let level : WakeLine → State := fun y =>
      let t := put y
      if l = 0 then { t with sleep := { t.sleep with longPress := .stopped } } else t
    (∀ pin : Bool,
      let y := { x with
        raw := pin, polIn := x.activeLow, filtIn := x.filter, change := if x.filter = x.filtIn then x.change else 0 }
      let sample := pin != x.activeLow
      sampleLine l pin s =
        if x.activeLow ≠ x.polIn then notePlan .sleep (put y) (level { y with active := !x.active, change := 0 })
        else if sample = x.active then put { y with change := 0 }
        else if x.filter = true ∧ y.change = 0 then put { y with change := 1 }
        else if sample = true then activeEdge l (put y)
        else notePlan .sleep (put y) (level { y with active := false, change := 0 })) ∧
    (activeEdge l s = if jobsRun s = true then
        let t := notePlan .sleep s (put { x with active := true, change := 0, flag := true })
        let on := (t.sleep.lines[l]).enable
        let u := raise .sleep (event t .line (if on then .primary else .none) Kind.plan.code (BitVec.ofNat 16 l.val) 1 0 0)
          { t with sleep := { t.sleep with lineSince := true } }
        lineDuty l (if on then primaryCause .line l.val u else u)
      else put { x with active := true, change := 0 }) ∧
    (l = 0 → lineDuty l s = { s with sleep := { s.sleep with longPress := .running 600 } }) ∧
    (l = 1 → lineDuty l s = requestShutdown .card (primaryCause .card 0
      (raise .sleep (event s .shutdown .primary Kind.plan.code 0 0 Cause.card.code 0) s))) ∧
    (l = 2 → lineDuty l s = if s.sleep.answerMap then
        match (List.finRange 4).filter (fun r => (s.calls.recs[r]).state == .incoming) with
        | [r] => callRequest r .answer s
        | _ => s
      else s) ∧
    (l = 3 → lineDuty l s = notePlan .sleep s { s with sleep := { s.sleep with cycle := s.sleep.base, quiet := 0 } })) ∧
  ∀ s : State,
    let silence := activity { s with out := { s.out with link := s.out.link ++ [.sendSpeech (List.replicate 64 0)] } }
    (s.speech.speaking = none ∨ s.frame.toNat % 2 = 1 → uplinkDue s = s) ∧
    (s.speech.speaking ≠ none → s.frame.toNat % 2 = 0 →
      (∀ r, s.speech.speaking = some r → s.speech.switchOn = true → uplinkDue s =
        let t := if s.speech.upProd = s.speech.upCons then s
          else writeHeader true false { s with speech := { s.speech with upCons := s.speech.upCons + 1 } }
        setRec r (fun c => { c with gaps := min 65535 (c.gaps + 1) }) t) ∧
      (s.speech.switchOn = false →
        (s.conn.state ≠ .connected ∨ s.link.up = false → uplinkDue s = s) ∧
        (s.conn.state = .connected → s.link.up = true →
          (s.speech.fetch ≠ .idle → uplinkDue s = { silence with speech := { s.speech with fetch := .late } }) ∧
          (s.speech.fetch = .idle → s.speech.upProd = s.speech.upCons ∨ headerWaits s = true → uplinkDue s = silence) ∧
          (s.speech.fetch = .idle → s.speech.upProd ≠ s.speech.upCons → headerWaits s = false → uplinkDue s =
            joinRead .speech (s.bind.line .speech (1 + s.speech.upCons.toNat % 8))
              { s with speech := { s.speech with fetch := .fetching s.speech.upCons, fetchStale := false } }))))

/-! ## The processor port and the read path -/

/-- R19: a request whose tag is not FREE is answered with an error at once, whatever hold is in force; nothing is recorded, and
its arrival is still processor activity. -/
def Obligations.TagInUse : Prop :=
  ∀ (s : State) (tag : BitVec 4) (line : BitVec 26) (bytes : List (BitVec 6 × Byte)), portOpen s = true →
    tagBusy tag s = true →
    exec (.processorRead tag line) s = .next (settle (processorActivity { s with out := { s.out with
      answers := s.out.answers ++ [.readData tag true (List.replicate 64 0)] } })) ∧
    exec (.processorWrite tag line bytes) s = .next (settle (processorActivity { s with out := { s.out with
      answers := s.out.answers ++ [.writeDone tag true] } })) ∧
    (Resting s → s.sleep.level = .awake →
      exec (.processorRead tag line) s = .next { s with out := { s.out with
        answers := s.out.answers ++ [.readData tag true (List.replicate 64 0)] } } ∧
      exec (.processorWrite tag line bytes) s = .next { s with out := { s.out with
        answers := s.out.answers ++ [.writeDone tag true] } })

/-- R18, R20, R21: a write with a FREE tag is recorded; it joins the acceptance list, or is held while a hold is in force. Its byte set
has, at each position, the byte given for it. -/
def Obligations.WriteRecorded : Prop :=
  (∀ (s : State) (tag : BitVec 4) (line : BitVec 26) (bytes : List (BitVec 6 × Byte)), portOpen s = true →
    tagBusy tag s = false → Resting s → s.sleep.level = .awake →
    exec (.processorWrite tag line bytes) s = .next (
      if s.port.bindHold || s.port.sleepHold then
        { s with
          mem := { s.mem with clock := s.mem.clock + 1 }
          port := { s.port with held := s.port.held ++
            [{ tag := tag, line := line.toNat, bytes := byteSet bytes, arrived := s.mem.clock }] } }
      else
        let w : AccWrite :=
          { writer := .host tag s.mem.clock, line := line.toNat, bytes := byteSet bytes, speech := false,
            joined := s.mem.clock + 1 }
        { s with mem := { s.mem with clock := s.mem.clock + 1 + 1, accept := s.mem.accept ++ [w] } })) ∧
  (∀ (bytes : List (BitVec 6 × Byte)) (p : BitVec 6) (b : Byte), byteSetWf bytes = true →
    ((p, b) ∈ bytes ↔ bytesGet (byteSet bytes) p.toNat = some b))

/-- R18, R28 to R32: a read with a FREE tag. Free to proceed and wholly covered it is answered at once; free and not covered it
waits for DRAM; not free it waits (R20, R30). -/
def Obligations.ReadRecorded : Prop :=
  ∀ (s : State) (tag : BitVec 4) (line : BitVec 26), portOpen s = true → tagBusy tag s = false → Resting s →
    s.sleep.level = .awake → ReadsServed s →
    let r : ReadEntry :=
      { for_ := .host tag, line := line.toNat, arrived := s.mem.clock, since := s.mem.clock, status := .waiting,
        discard := false }
    let u := { s with mem := { s.mem with clock := s.mem.clock + 1 } }
    exec (.processorRead tag line) s = .next (
      if readFree s r = false then { u with mem := { u.mem with reads := s.mem.reads ++ [r] } }
      else if bytesFull (upperLayers s.mem line.toNat) ([] : LineBytes) = true then
        { u with out := { s.out with answers := s.out.answers ++
          [.readData tag false (composeLine [] (upperLayers s.mem line.toNat))] } }
      else { u with mem := { u.mem with reads := s.mem.reads ++
        [{ r with status := .needsDram, since := s.mem.clock + 1 }] } })

/-- R31: each byte of a composed line is the stage line's, or else the write queue entry's, or else DRAM's; no memory read is
needed exactly when the upper layers have all 64. -/
def Obligations.CompositionLayers : Prop :=
  (∀ (m : MemPath) (line : Line) (first : List Byte) (k : Nat), k < 64 →
    (composeLine first (upperLayers m line))[k]? = some (
      match (stageOf m line).bind (fun l => bytesGet l.bytes k) with
      | some b => b
      | none =>
        match (entryOf m line).bind (fun e => bytesGet e.bytes k) with
        | some b => b.1
        | none => first.getD k 0)) ∧
  ∀ (m : MemPath) (line : Line), bytesFull (upperLayers m line) ([] : LineBytes) = true ↔
    ∀ k, k < 64 → ((stageOf m line).bind (fun l => bytesGet l.bytes k)).isSome = true ∨
      ((entryOf m line).bind (fun e => bytesGet e.bytes k)).isSome = true

/-- R32, R43: a host read completes: answered with its tag and the composed line; after an error of the memory port with the error
indication, over a first layer of zeros. R29, R38: the completion of an internal read of a line is of one composed without DRAM, or
else of the oldest in flight; it gives its requester the line, the error indication and whether the read is discarded. Without its
occasion a command changes nothing (the model's choice, log entry 3), and so is that of several reads of one line the one composed
without DRAM completes first (log entry 76). -/
def Obligations.HostReadAnswered : Prop :=
  (∀ (s : State) (tag : BitVec 4) (data : List Byte) (err : Bool) (r : ReadEntry), Resting s →
    s.mem.reads.find? (fun x => x.for_ == .host tag) = some r → r.status = .inFlight →
    nextOfLine s.mem (.read r.arrived r.line) = true →
    exec (.hostReadDone tag data err) s = .next { s with
      mem := { s.mem with reads := s.mem.reads.erase r, inFlight := s.mem.inFlight.erase (.read r.arrived r.line) }
      out := { s.out with answers := s.out.answers ++
        [.readData tag err (composeLine (if err then [] else fitTo 64 data) (upperLayers s.mem r.line))] } }) ∧
  (∀ (s : State) (tag : BitVec 4) (data : List Byte) (err : Bool),
    s.mem.reads.find? (fun x => x.for_ == .host tag) = none → exec (.hostReadDone tag data err) s = .next s) ∧
  (∀ (p : ReadFor → Bool) (line : Line) (m : MemPath), dueRead p line m =
    match m.reads.find? (fun r => p r.for_ && r.line == line && r.status.isComposed) with
    | some r => some r
    | none => m.reads.find? (fun r => p r.for_ && r.line == line && r.status == .inFlight)) ∧
  ∀ (r : ReadEntry) (data : List Byte) (err : Bool) (s : State),
    (∀ line, r.status = .composed line → completeRead r data err s =
      some ((line, false, r.discard), { s with mem := { s.mem with reads := s.mem.reads.erase r } })) ∧
    (r.status = .inFlight → nextOfLine s.mem (.read r.arrived r.line) = true → completeRead r data err s =
      some ((composeLine (if err then [] else fitTo 64 data) (upperLayers s.mem r.line), err && !r.silent, r.discard), { s with mem :=
        { s.mem with reads := s.mem.reads.erase r, inFlight := s.mem.inFlight.erase (.read r.arrived r.line) } })) ∧
    (r.status = .inFlight → nextOfLine s.mem (.read r.arrived r.line) = false → completeRead r data err s = none) ∧
    (r.status = .waiting ∨ r.status = .needsDram → completeRead r data err s = none)

/-! ## Acceptance, the write queue and the stage -/

/-- R21, R22, R25, R26: the head of the acceptance list, a host write that can be taken, is accepted: its answer, its bytes but
those the ownership filter removes, and what the region decoder makes of it. R22, R24, R26, R37: the bytes taken reach the READY entry
of the line, of host origin, the bytes they cover leave its stage line, and what is left of that merges into the entry; of a write
with no bytes left nothing is taken, and no other line's bytes change. One that cannot be taken, and any command whose head
is the other kind, waits. R5, R13: the acceptance takes the enable word that it covers in full, and in BOUND, in ascending address
order, the notice of every watched word that it covers in full; the watched words of each line, with the notice of each. Without
its occasion a command changes nothing (the model's choice, log entry 3). -/
def Obligations.HostWriteAccepted : Prop :=
  (∀ (s : State) (w : AccWrite) (ws : List AccWrite) (tag : BitVec 4) (arrived : Nat), s.mem.accept = w :: ws →
    w.writer = .host tag arrived → hostTakes s w.line w.bytes = true →
    exec .hostWriteAccept s = .next (settle (serveReads (decode w.line w.bytes { s with
      mem := takeHost w.line (keptBytes s w.line w.bytes) { s.mem with accept := ws }
      out := { s.out with answers := s.out.answers ++ [.writeDone tag false] } })))) ∧
  (∀ (m : MemPath) (line : Line) (bytes : LineBytes), takeHost line [] m = m ∧
    (bytes ≠ [] → QueueLaw m.queue → (m.stage.map (·.line)).Nodup → queueTakes m line = true →
      let n := takeHost line bytes m
      (∃ e, entryOf n line = some e ∧ e.draining = false ∧
        ∀ k, bytesGet e.bytes k =
          match bytesGet bytes k, (stageOf m line).bind (fun l => bytesGet l.bytes k) with
          | some b, _ => some (b, .host)
          | none, some b => some (b, .part)
          | none, none => (entryOf m line).bind (fun x => bytesGet x.bytes k)) ∧
      stageOf n line = none ∧ n.pubs = m.pubs ∧
      ∀ x k, x ≠ line → bytesGet (upperLayers n x) k = bytesGet (upperLayers m x) k)) ∧
  (∀ (s : State) (w : AccWrite) (ws : List AccWrite) (tag : BitVec 4) (arrived : Nat), s.mem.accept = w :: ws →
    w.writer = .host tag arrived → (keptBytes s w.line w.bytes).isEmpty = false →
    (∃ e, entryOf s.mem w.line = some e ∧ e.draining = true) ∨ (entryOf s.mem w.line = none ∧ 32 ≤ s.mem.queue.length) →
    exec .hostWriteAccept s = .next s) ∧
  (∀ (s : State) (w : AccWrite) (ws : List AccWrite) (note : WriteNote), s.mem.accept = w :: ws →
    w.writer = .part note → exec .hostWriteAccept s = .next s) ∧
  ((∀ (line : Line) (bytes : LineBytes) (s : State), acceptEnable line bytes s =
    if line = s.bind.line .anchor 0 ∧ coversAll bytes 4 4 = true then enableWord (fieldValue bytes 4 4) s else s) ∧
  (∀ (k : Kind) (i : Nat) (bytes : LineBytes) (s : State), acceptNotices k i bytes s = (watchedWords k i).foldl (fun u w =>
    if u.bind.state = .bound ∧ coversAll bytes w.1 w.2.1 = true then takeNotice (w.2.2 (fieldValue bytes w.1 w.2.1)) u else u) s) ∧
  (∀ (bytes : LineBytes) (a n : Nat), coversAll bytes a n = true ↔ ∀ p, a ≤ p → p < a + n → bytesCover bytes p = true) ∧
  (∀ a b c d : Byte, fieldValue [(4, a), (5, b), (6, c), (7, d)] 4 4 = d ++ c ++ b ++ a) ∧
  (∀ (k : Kind) (i : Nat), List.Pairwise (fun a b => a.1 + a.2.1 ≤ b.1) (watchedWords k i)) ∧
  ∀ v : Word,
    let b : Byte := v.setWidth 8
    let h : Half := v.setWidth 16
    let words : Kind → Nat → List (Nat × Nat × Instr) := fun k i => (watchedWords k i).map (fun w => (w.1, w.2.1, w.2.2 v))
    let lines : Nat → (Fin 4 → Instr) → List (Nat × Nat × Instr) :=
      fun o f => [(o, 1, f 0), (o + 1, 1, f 1), (o + 2, 1, f 2), (o + 3, 1, f 3)]
    words .plan 0 = [(0, 1, .radioRequest b), (1, 1, .sleepRequest b), (2, 1, .stopGrant b), (3, 1, .wakeAck b)] ++
      lines 0x04 (fun l => .lineAcknowledge l b) ++ lines 0x08 (fun l => .sleepParameter (.wakeEnable l) h) ++
      lines 0x0C (fun l => .sleepParameter (.polarity l) h) ++ lines 0x10 (fun l => .sleepParameter (.mode l) h) ++
      lines 0x14 (fun l => .sleepParameter (.filter l) h) ++ [(0x18, 1, .sleepParameter .answerMap h)] ∧
    words .plan 1 = [(0x00, 2, .sleepParameter .base h), (0x02, 2, .sleepParameter .ceiling h),
      (0x04, 2, .connectionParameter .inactivity h), (0x06, 2, .mobilityParameter .triggerHold h),
      (0x08, 1, .mobilityParameter .handoverMargin h), (0x09, 1, .mobilityParameter .reselectMargin h),
      (0x0A, 1, .mobilityParameter .reselectRounds h), (0x0C, 2, .connectionParameter .campThreshold h),
      (0x0E, 2, .connectionParameter .lossThreshold h)] ∧
    words .cell 0 = [] ∧
    (∀ n : Fin 13, words .cell (n.val + 1) = [(0, 1, .cellConfigurationNotice n .inUse h),
      (2, 2, .cellConfigurationNotice n .carrier h), (4, 2, .cellConfigurationNotice n .cellCode h),
      (6, 2, .cellConfigurationNotice n .areaCode h)]) ∧
    (∀ r : Fin 4, words .call r.val = [(0, 1, match b.toNat with
      | 1 => .requestOriginate r
      | 2 => .requestAnswer r
      | 3 => .requestHold r
      | 4 => .requestResume r
      | 5 => .requestSwap r
      | 6 => .requestRelease r
      | _ => .requestUnknown r b)]) ∧
    words .speech 0 = [(0, 1, .uplinkProducerWrite b), (3, 1, .downlinkConsumerWrite b)] ∧
    words .outbox 0 = [(0, 1, .outboxProducerWrite b)] ∧
    (∀ n : Fin 8, words .outbox (n.val + 1) =
      [(0x06, 1, .cancelWordWrite ⟨2 * n.val, by omega⟩ b), (0x26, 1, .cancelWordWrite ⟨2 * n.val + 1, by omega⟩ b)]) ∧
    words .inbox 0 = [(1, 1, .inboxConsumerWrite b)] ∧ words .event 0 = [(1, 1, .eventConsumerWrite b)] ∧
    ∀ i : Nat, words .anchor i = [] ∧ words .textBodies i = [] ∧
      (0 < i → words .speech i = [] ∧ words .inbox i = [] ∧ words .event i = []))

/-- R21, R22, R24 to R26, R37: the head of the acceptance list, an internal write: its bytes are laid over what every read sees of the
line, of part origin; they reach the stage line of the line where it has one, which keeps its publication's number, and else its READY
entry. R34: they are laid over the same bytes of the images of the publications that wait. R8, R20: at the acceptance of the status write
REJECTED the hold of the capture ends, and the writes it held join the list in the order of their arrival. Without its occasion a command changes nothing
(the model's choice, log entry 3). -/
def Obligations.InternalWriteAccepted : Prop :=
  (∀ (s : State) (w : AccWrite) (ws : List AccWrite), s.mem.accept = w :: ws → w.writer = .part .none →
    internalTakes s.mem w = true → Resting s → s.mem.reads = [] →
    exec .internalWriteAccept s = .next { s with mem := takeInternal w { s.mem with accept := ws } }) ∧
  (∀ (m : MemPath) (w : AccWrite), QueueLaw m.queue → (m.stage.map (·.line)).Nodup → internalTakes m w = true →
    let n := takeInternal w m
    (∀ x k, bytesGet (upperLayers n x) k = match (if x = w.line then bytesGet w.bytes k else none) with
      | some b => some b
      | none => bytesGet (upperLayers m x) k) ∧
    (stageOf m w.line = none → ∃ e, entryOf n w.line = some e ∧ e.draining = false ∧
      ∀ k, bytesGet e.bytes k = match bytesGet w.bytes k with
        | some b => some (b, .part)
        | none => (entryOf m w.line).bind (fun x => bytesGet x.bytes k)) ∧
    (∀ l, stageOf m w.line = some l → queueTakes m w.line = false → entryOf n w.line = entryOf m w.line ∧
      stageOf n w.line = some { l with bytes := bytesOver w.bytes l.bytes }) ∧
    n.pubs = m.pubs.map (fun p => { p with images := p.images.map (fun q =>
      if q.1 = w.line then (q.1, q.2.map (fun b => (b.1, (bytesGet w.bytes b.1).getD b.2))) else q) })) ∧
  (∀ (s : State) (w : AccWrite) (ws : List AccWrite) (note : WriteNote), s.mem.accept = w :: ws →
    w.writer = .part note → stageOf s.mem w.line = none →
    (∃ e, entryOf s.mem w.line = some e ∧ e.draining = true) ∨ (entryOf s.mem w.line = none ∧ 32 ≤ s.mem.queue.length) →
    exec .internalWriteAccept s = .next s) ∧
  (∀ (s : State) (w : AccWrite) (ws : List AccWrite), s.mem.accept = w :: ws → w.writer = .part .rejected →
    internalTakes s.mem w = true → Resting s → s.mem.reads = [] →
    ∃ t, exec .internalWriteAccept s = .next t ∧ t.port = { s.port with bindHold := false, held := [] } ∧
      t.mem.accept.map (fun x => (x.writer, x.line, x.bytes)) = ws.map (fun x => (x.writer, x.line, x.bytes)) ++
        s.port.held.map (fun h => (.host h.tag h.arrived, h.line, h.bytes)) ∧
      t.bind = s.bind ∧ { t with mem := s.mem, port := s.port } = s) ∧
  ∀ (s : State) (w : AccWrite) (ws : List AccWrite) (tag : BitVec 4) (arrived : Nat), s.mem.accept = w :: ws →
    w.writer = .host tag arrived → exec .internalWriteAccept s = .next s

/-- R24, R26: what the write queue makes of bytes it takes. Into a READY entry they merge, the rest of the entry, its age, the
occupancy and every other entry left as they were; on a miss they make a new READY entry. R39: the mode follows the occupancy unless
DRAIN is forced: DRAIN from 24 entries on, READ-FIRST down from 8, and a change of mode clears the count. -/
def Obligations.QueueTakesBytes : Prop :=
  ∀ (m : MemPath) (line : Line) (bytes : LineBytes) (o : Origin) (speech : Bool), QueueLaw m.queue →
    queueTakes m line = true →
    let n := takeBytes line bytes o speech m
    (∀ l, l ≠ line → entryOf n l = entryOf m l) ∧
    ∃ e, entryOf n line = some e ∧ e.draining = false ∧
      (∀ k, bytesGet e.bytes k = match bytesGet bytes k with
        | some b => some (b, o)
        | none => (entryOf m line).bind (fun x => bytesGet x.bytes k)) ∧
      (match entryOf m line with
        | some x => e.age = x.age ∧ n.queue.length = m.queue.length ∧
            (e.speech.isSome = (speech || x.speech.isSome)) ∧ n.mode = m.mode ∧ n.count = m.count
        | none => e.age = m.clock ∧ n.queue.length = m.queue.length + 1 ∧ e.speech.isSome = speech ∧
            n.forced = m.forced ∧
            n.mode = (if m.forced = true then m.mode else if 24 ≤ n.queue.length then .drain
              else if n.queue.length ≤ 8 then .readFirst else m.mode) ∧
            n.count = (if n.mode = m.mode then m.count else 0))

/-- R35, R36: all of a publication's images are what every read sees from the moment it is published, and nothing else that a read
sees changes, wherever the stage lines then go. R34: the first waiting publication is published once it fits; one that does not
fit keeps it and those behind it waiting. Without its occasion a command changes nothing (the model's choice, log entry 3). -/
def Obligations.Publications : Prop :=
  (∀ (m : MemPath) (number : Nat) (images : List (Line × LineBytes)), QueueLaw m.queue → (m.stage.map (·.line)).Nodup →
    (images.map (·.1)).Nodup →
    ∀ (line : Line) (k : Nat), bytesGet (upperLayers (publishImages number images m) line) k =
      match (images.find? (fun p => p.1 == line)).bind (fun p => bytesGet p.2 k) with
      | some b => some b
      | none => bytesGet (upperLayers m line) k) ∧
  ((∀ (s : State) (p : Publication) (rest : List Publication), s.mem.pubs = p :: rest → stageFits s.mem p.images = true →
    exec .stagePublish s = .next (settle (published p.kind p.live (serveReads { s with
      mem := publishImages p.number p.images { s.mem with pubs := rest } })))) ∧
  (∀ (s : State) (p : Publication) (rest : List Publication), s.mem.pubs = p :: rest →
    stageFits s.mem p.images = false → exec .stagePublish s = .next s) ∧
  ∀ (s : State), s.mem.pubs = [] → exec .stagePublish s = .next s)

/-- R21: a write is placed at once where the list holds fewer than 16 internal writes and no job waits, and else waits; one that
carries no byte is none. Of the jobs that wait to place a write, the one that began to wait first places it once the list holds fewer than 16
internal writes; the others wait, and one that has more work waits again behind those that wait. R28: the same for internal reads, of which the read queue holds at
most 4. Without its occasion a command changes nothing (the model's choice, log entry 3). So are these: further work of a waiting job
joins its list of acts, in order behind the write it waits for (log entry 9), and the command of a turn names its job (log entry
10). -/
def Obligations.PlacedInTurn : Prop :=
  ((∀ (s : State) (j : Job) (t0 : Nat) (x : WriteReq), s.mem.waits = [{ job := j, since := t0, acts := [.write x] }] →
    internalCount s.mem < 16 → Resting { s with mem := { s.mem with waits := [] } } →
    let w : AccWrite :=
      { writer := .part x.note, line := x.line, bytes := x.bytes, speech := x.speech, joined := s.mem.clock }
    exec (.internalWritePlaceWait j) s =
      .next { s with mem := { s.mem with waits := [], clock := s.mem.clock + 1, accept := s.mem.accept ++ [w] } }) ∧
  (∀ (s : State) (j : Job) (w : Wait), s.mem.waits.find? (fun v => v.job == j) = some w →
    (∀ v ∈ s.mem.waits, w.since ≤ v.since) → internalCount s.mem < 16 →
    exec (.internalWritePlaceWait j) s = .next (settle (
      let t := { s with mem := { s.mem with waits := s.mem.waits.erase w } }
      match w.acts with
      | [] => t
      | a :: rest => runActs j rest (doAct a t)))) ∧
  (∀ (j : Job) (a : Act) (rest : List Act) (s : State), runActs j [] s = s ∧
    (a.places = true → s.mem.waits ≠ [] ∨ 16 ≤ internalCount s.mem → (∀ v ∈ s.mem.waits, v.job ≠ j) →
      runActs j (a :: rest) s = { s with mem := { s.mem with
        waits := s.mem.waits ++ [{ job := j, since := s.mem.clock, acts := a :: rest }] } }) ∧
    (a.places = false ∨ (s.mem.waits = [] ∧ internalCount s.mem < 16) →
      runActs j (a :: rest) s = runActs j rest (doAct a s))) ∧
  (∀ (s : State) (j : Job) (v : Wait) (t0 : Nat) (x y : WriteReq), steady s = true → s.events.pending = [] →
    s.events.owed = none → s.link.queue = [] → s.mem.readWaits = [] → s.sleep.wakeAfter = none → s.sleep.level ≠ .roused →
    s.conn.inactTimer.runs = connIdle s → v.job ≠ j → v.since < s.mem.clock →
    s.mem.waits = [{ job := j, since := t0, acts := [.write x, .write y] }, v] → t0 ≤ v.since → internalCount s.mem < 16 →
    let w : AccWrite :=
      { writer := .part x.note, line := x.line, bytes := x.bytes, speech := x.speech, joined := s.mem.clock }
    exec (.internalWritePlaceWait j) s = .next { s with mem := { s.mem with
      clock := s.mem.clock + 2, accept := s.mem.accept ++ [w]
      waits := [v, { job := j, since := s.mem.clock + 1, acts := [.write y] }] } }) ∧
  (∀ (s : State) (j : Job) (w v : Wait), (s.mem.waits.map (·.job)).Nodup → w ∈ s.mem.waits → w.job = j →
    v ∈ s.mem.waits → v.since < w.since → exec (.internalWritePlaceWait j) s = .next s) ∧
  (∀ (s : State) (j : Job), 16 ≤ internalCount s.mem → exec (.internalWritePlaceWait j) s = .next s) ∧
  ∀ (s : State) (j : Job) (w : WriteReq),
    (w.bytes = [] → emitWrite j w s = s) ∧
    (w.bytes ≠ [] → s.mem.waits = [] → internalCount s.mem < 16 → emitWrite j w s = joinWrite w s) ∧
    (w.bytes ≠ [] → s.mem.waits ≠ [] ∨ 16 ≤ internalCount s.mem → (∀ v ∈ s.mem.waits, v.job ≠ j) →
      emitWrite j w s = { s with mem := { s.mem with
        waits := s.mem.waits ++ [{ job := j, since := s.mem.clock, acts := [.write w] }] } }) ∧
    (∀ pre v post, w.bytes ≠ [] → s.mem.waits = pre ++ v :: post → v.job = j → (∀ x ∈ pre ++ post, x.job ≠ j) →
      emitWrite j w s = { s with mem := { s.mem with waits := pre ++ { v with acts := v.acts ++ [.write w] } :: post } }) ∧
    joinWrite w s = { s with mem := { s.mem with clock := s.mem.clock + 1, accept := s.mem.accept ++
      [{ writer := .part w.note, line := w.line, bytes := w.bytes, speech := w.speech, joined := s.mem.clock }] } }) ∧
  ((∀ (s : State) (j : Job) (t0 : Nat) (f : ReadFor) (line : Line),
    s.mem.readWaits = [{ job := j, since := t0, reads := [(f, line)] }] → internalReadCount s.mem < 4 →
    Resting { s with mem := { s.mem with readWaits := [] } } →
    let r : ReadEntry :=
      { for_ := f, line := line, arrived := s.mem.clock, since := s.mem.clock, status := .waiting, discard := false }
    exec (.internalReadPlaceWait j) s = .next (serveReads { s with mem := { s.mem with
      readWaits := [], clock := s.mem.clock + 1, reads := s.mem.reads ++ [r] } })) ∧
  (∀ (s : State) (j : Job) (w v : ReadWait), (s.mem.readWaits.map (·.job)).Nodup → w ∈ s.mem.readWaits → w.job = j →
    v ∈ s.mem.readWaits → v.since < w.since → exec (.internalReadPlaceWait j) s = .next s) ∧
  (∀ (s : State) (j : Job), 4 ≤ internalReadCount s.mem → exec (.internalReadPlaceWait j) s = .next s))

/-! ## The arbiter -/

/-- R27, R38: a grant issues one access: a read of the line, or the drain of an entry's valid bytes, which is DRAINING from then
on. R40: the choice. Nothing while DRAM is in self-refresh or leaving it; a speech access before all else, the one that began to
wait first; then reads or drains by the mode, with a drain after eight reads; and the count. Without its occasion a command
changes nothing (log entry 3), and of two speech accesses that began to wait together the operand chooses (log entry 10): the
model's choices. -/
def Obligations.ArbiterChooses : Prop :=
  ((∀ (s : State) (r : ReadEntry), grantRead r s = { s with
    mem := { s.mem with
      reads := s.mem.reads.map (fun x => if x == r then { x with status := .inFlight } else x)
      inFlight := s.mem.inFlight ++ [.read r.arrived r.line] }
    out := { s.out with mem := s.out.mem ++ [.read r.line] } }) ∧
  ∀ (s : State) (e : QEntry), grantDrain e s = { s with
    mem := { s.mem with
      queue := s.mem.queue.map (fun x => if x == e then { x with draining := true } else x)
      inFlight := s.mem.inFlight ++ [.drain e.line] }
    out := { s.out with mem := s.out.mem ++ [.drain e.line (e.bytes.map (fun p => (p.1, p.2.1)))] } }) ∧
  ((∀ (s : State) (d : Bool), s.mem.memState ≠ .active → exec (.arbiterGrant d) s = .next s) ∧
  ∀ (s : State) (d : Bool), s.mem.memState = .active → Resting s →
    (∀ r, speechRead s.mem = some r → oldestSpeechDrain s.mem = none →
      exec (.arbiterGrant d) s = .next (grantRead r s)) ∧
    (∀ t e, speechRead s.mem = none → oldestSpeechDrain s.mem = some (t, e) →
      exec (.arbiterGrant d) s = .next (grantDrain e s)) ∧
    (∀ r t e, speechRead s.mem = some r → oldestSpeechDrain s.mem = some (t, e) →
      (r.since < t ∨ (r.since = t ∧ d = false) → exec (.arbiterGrant d) s = .next (grantRead r s)) ∧
      (t < r.since ∨ (r.since = t ∧ d = true) → exec (.arbiterGrant d) s = .next (grantDrain e s))) ∧
    (speechRead s.mem = none → oldestSpeechDrain s.mem = none →
      (oldestReady s.mem = none → oldestRead s.mem = none → exec (.arbiterGrant d) s = .next s) ∧
      (∀ e, oldestReady s.mem = some e → oldestRead s.mem = none →
        exec (.arbiterGrant d) s = .next (setCount 0 (grantDrain e s))) ∧
      (∀ r, oldestReady s.mem = none → oldestRead s.mem = some r →
        exec (.arbiterGrant d) s = .next (grantRead r (setCount 0 s))) ∧
      (∀ e r, oldestReady s.mem = some e → oldestRead s.mem = some r →
        (s.mem.mode = .drain ∨ 8 ≤ s.mem.count → exec (.arbiterGrant d) s = .next (setCount 0 (grantDrain e s))) ∧
        (s.mem.mode = .readFirst → s.mem.count < 8 →
          exec (.arbiterGrant d) s = .next (grantRead r (setCount (s.mem.count + 1) s))))))

/-- R27, R39: a drain completes with nothing staged and nothing to accept: the entry is freed, and the mode follows the occupancy.
R25, R26, R36: with a stage line or a head write that waited for it, the entry is freed, the stage lines are offered room first,
in the order of their publications, and then a head write that could not be accepted before is accepted if it can be now. Without its occasion a command changes nothing (the model's choice, log entry 3). -/
def Obligations.DrainFreesItsEntry : Prop :=
  (∀ (s : State) (line : BitVec 26), nextOfLine s.mem (.drain line.toNat) = true → Resting s → s.mem.stage = [] →
    s.mem.accept = [] → s.mem.reads = [] →
    ∃ t, exec (.drainDone line) s = .next t ∧
      t.mem.queue = s.mem.queue.filter (fun e => !(e.line == line.toNat && e.draining)) ∧
      t.mem.inFlight = s.mem.inFlight.erase (.drain line.toNat) ∧
      (t.mem.forced = (s.mem.forced && !t.mem.queue.isEmpty)) ∧
      (s.mem.forced = false → t.mem.mode = (if 24 ≤ t.mem.queue.length then .drain
        else if t.mem.queue.length ≤ 8 then .readFirst else s.mem.mode)) ∧
      (t.mem.mode = s.mem.mode → t.mem.count = s.mem.count) ∧ (t.mem.mode ≠ s.mem.mode → t.mem.count = 0) ∧
      { t with mem := s.mem } = s) ∧
  (∀ (s : State) (line : BitVec 26), nextOfLine s.mem (.drain line.toNat) = true → exec (.drainDone line) s = .next (settle (
    let t := serveReads { s with mem := stageLeave (noteOccupancy { s.mem with
      queue := s.mem.queue.filter (fun e => !(e.line == line.toNat && e.draining))
      inFlight := s.mem.inFlight.erase (.drain line.toNat) }) }
    if headTakes s = false ∧ headTakes t = true then acceptHead t else t))) ∧
  (∀ (m : MemPath), stageLeave m = (sortBy (fun a b => a.pub < b.pub || (a.pub == b.pub && a.line ≤ b.line)) m.stage).foldl
    (fun n l => if l ∈ n.stage ∧ queueTakes n l.line = true then
      takeBytes l.line l.bytes .part false { n with stage := n.stage.erase l } else n) m) ∧
  (∀ (s : State) (w : AccWrite) (ws : List AccWrite), s.mem.accept = w :: ws →
    (∀ note, w.writer = .part note → headTakes s = internalTakes s.mem w ∧ acceptHead s = acceptInternal note w s) ∧
    ∀ tag arrived, w.writer = .host tag arrived →
      headTakes s = hostTakes s w.line w.bytes ∧ acceptHead s = acceptHost tag w.line w.bytes s) ∧
  ∀ (s : State) (line : BitVec 26), nextOfLine s.mem (.drain line.toNat) = false → exec (.drainDone line) s = .next s

/-! ## The region decoder -/

/-- R11: what the region decoder does with a host write at its acceptance, in its order: ownership, frozen fields and partial watched
words, the enable word, notices. R12: in BOUND and UNBINDING a host write loses exactly the bytes the part owns, in lines of the
anchor block and of the bound regions; elsewhere, and in the other states, it loses none; a write that lost bytes raises one
OWNERSHIP-BREACH for the first of them. R12, R197: the bytes the part owns, by the kind of the region and the line within it, are those
of the part's fields of the record tables. R14: one that touches a frozen field of the anchor block, covers part of a watched word, or
gives the enable word another value than 0 or 1 raises one CONFIG-IGNORED, for the first byte concerned; any other raises none, and
no byte of a region is frozen. In UNBINDING a partial enable word alone is concerned (log entries 14, 47, 70). -/
def Obligations.OwnershipFilter : Prop :=
  ((∀ (s : State) (line : Line) (bytes : LineBytes) (k : Kind) (i : Nat), s.bind.state = .bound ∨ s.bind.state = .unbinding →
    s.bind.locate line = some (k, i) →
    ∀ p, p ∈ keptBytes s line bytes ↔ (p ∈ bytes ∧ partOwned k i p.1 = false)) ∧
  (∀ (s : State) (line : Line) (bytes : LineBytes),
    (s.bind.state ≠ .bound ∧ s.bind.state ≠ .unbinding) ∨ s.bind.locate line = none → keptBytes s line bytes = bytes) ∧
  (∀ i p : Nat, p < 64 →
    (partOwned .anchor i p = true ↔ i = 2 ∧ p < 3) ∧
    (partOwned .plan 0 p = true ↔ 0x20 ≤ p ∧ p < 0x28) ∧
    (0 < i → (partOwned .plan i p = true ↔ 0x10 ≤ p ∧ p < 0x1B)) ∧
    (partOwned .cell 0 p = true ↔ p ∈ [0, 2, 3]) ∧
    (0 < i → (partOwned .cell i p = true ↔ (0x10 ≤ p ∧ p < 0x15) ∨ (0x16 ≤ p ∧ p < 0x1C) ∨ (0x20 ≤ p ∧ p < 0x30))) ∧
    (partOwned .call i p = true ↔ 0x10 ≤ p ∧ p < 0x27) ∧
    (partOwned .speech 0 p = true ↔ p ∈ [1, 2]) ∧ (0 < i → (partOwned .speech i p = true ↔ 9 ≤ i)) ∧
    (partOwned .outbox 0 p = true ↔ p = 1) ∧
    (0 < i → (partOwned .outbox i p = true ↔ (0x18 ≤ p ∧ p < 0x1C) ∨ (0x38 ≤ p ∧ p < 0x3C))) ∧
    (partOwned .inbox 0 p = true ↔ p ∈ [0, 2]) ∧ (0 < i → partOwned .inbox i p = true) ∧
    (partOwned .event 0 p = true ↔ p ∈ [0, 2, 3]) ∧ (0 < i → (partOwned .event i p = true ↔ p % 16 ≠ 3 ∧ p % 16 ≠ 7)) ∧
    partOwned .textBodies i p = false) ∧
  (∀ (k : Kind) (i : Nat) (bytes : LineBytes) (s : State),
    (∀ p, p < 64 → bytesCover bytes p = true → partOwned k i p = false) → breach k i bytes s = s) ∧
  ∀ (k : Kind) (i p : Nat) (bytes : LineBytes) (s : State), p < 64 → bytesCover bytes p = true → partOwned k i p = true →
    (∀ q, q < p → bytesCover bytes q = true → partOwned k i q = false) →
    breach k i bytes s =
      raiseNow (event s .ownershipBreach .none k.code (recordOf k i p).1 0 0 (BitVec.ofNat 32 (recordOf k i p).2)) s) ∧
  (∀ (k : Kind) (i : Nat) (bytes : LineBytes) (s : State),
    let part : Nat → Nat → Nat → Prop := fun start width p => start ≤ p ∧ p < start + width ∧ coversAll bytes start width = false
    let concerned : Nat → Prop := fun p =>
      (k = .anchor ∧ i = 0 ∧ (p < 4 ∨ (8 ≤ p ∧ p < 0x0C) ∨ (0x10 ≤ p ∧ p < 0x18))) ∨ (k = .anchor ∧ i = 1) ∨
      (k = .anchor ∧ i = 0 ∧ part 4 4 p) ∨
      (s.bind.state = .bound ∧ ∃ w ∈ watchedWords k i, part w.1 w.2.1 p) ∨
      (k = .anchor ∧ i = 0 ∧ 4 ≤ p ∧ p < 8 ∧ coversAll bytes 4 4 = true ∧ s.bind.state = .bound ∧
        fieldValue bytes 4 4 ≠ 0 ∧ fieldValue bytes 4 4 ≠ 1)
    (∀ p, p < 64 → bytesCover bytes p = true → concerned p → (∀ q, q < p → bytesCover bytes q = true → ¬ concerned q) →
      ignored k i bytes s = raiseNow (configIgnored s k (recordOf k i p).1 (recordOf k i p).2) s) ∧
    ((∀ p, p < 64 → bytesCover bytes p = true → ¬ concerned p) → ignored k i bytes s = s)) ∧
  ∀ (s : State) (w : AccWrite) (ws : List AccWrite) (tag : BitVec 4) (arrived : Nat), s.mem.accept = w :: ws →
    w.writer = .host tag arrived → hostTakes s w.line w.bytes = true →
    let t := { s with
      mem := takeHost w.line (keptBytes s w.line w.bytes) { s.mem with accept := ws }
      out := { s.out with answers := s.out.answers ++ [.writeDone tag false] } }
    (s.bind.state = .bound ∨ s.bind.state = .unbinding → ∀ k i, s.bind.locate w.line = some (k, i) →
      exec .hostWriteAccept s = .next (settle (serveReads (acceptNotices k i w.bytes (acceptEnable w.line w.bytes
        (ignored k i w.bytes (breach k i w.bytes t))))))) ∧
    ((s.bind.state ≠ .bound ∧ s.bind.state ≠ .unbinding) ∨ s.bind.locate w.line = none →
      exec .hostWriteAccept s = .next (settle (serveReads (acceptEnable w.line w.bytes t))))

/-- R13, R20: a notice is taken in BOUND, and only there, and not while the sleep hold keeps host writes from acceptance; what the
command of the notice does is what the acceptance of the write makes the owning job do. A notice command by itself, and one
without its occasion, are the model's choice (log entries 3, 5, 40). -/
def Obligations.NoticesAreTakenInBound : Prop :=
  ∀ (s : State) (c : Instr),
    (match c with
      | .radioRequest _ | .sleepRequest _ | .stopGrant _ | .wakeAck _ | .lineAcknowledge .. | .sleepParameter ..
      | .connectionParameter .. | .mobilityParameter .. | .cellConfigurationNotice .. | .requestOriginate _
      | .requestAnswer _ | .requestHold _ | .requestResume _ | .requestSwap _ | .requestRelease _ | .requestUnknown ..
      | .uplinkProducerWrite _ | .downlinkConsumerWrite _ | .outboxProducerWrite _ | .cancelWordWrite ..
      | .inboxConsumerWrite _ | .eventConsumerWrite _ => True
      | _ => False) →
    exec c s = .next (if portOpen s = true ∧ s.bind.state = .bound ∧ s.port.sleepHold = false then settle (takeNotice c s)
      else s)

/-- R4, R5, R6: enable = 1 in UNBOUND or REJECTED begins the capture: the hold, with the host writes not yet accepted held behind
it, and four internal reads of the anchor's lines. R14, R15: the other cases of the enable word, in a part with nothing in motion.
Where presented host writes go at the capture, and an enable word by itself, are the model's inference (log entries 11, 54). -/
def Obligations.EnableWord : Prop :=
  (∀ s : State, portOpen s = true → s.port.bindHold = false → s.port.sleepHold = false →
    s.bind.state = .unbound ∨ s.bind.state = .rejected → Resting s → (∀ r ∈ s.mem.reads, r.isHost = true) →
    ∃ t, exec (.enableWordWrite 1) s = .next t ∧ t.bind.state = .capturing ∧ t.bind.captured = none ∧
      t.port.bindHold = true ∧ t.port.held = s.mem.accept.filterMap AccWrite.toHeld ++ s.port.held ∧
      t.mem.accept = s.mem.accept.filter (fun w => !w.isHost) ∧
      (t.mem.reads.filter (fun r => !r.isHost)).map (fun r => (r.for_, r.line)) =
        [(.anchor 0, s.bind.line .anchor 0), (.anchor 1, s.bind.line .anchor 1), (.anchor 2, s.bind.line .anchor 2),
          (.anchor 3, s.bind.line .anchor 3)]) ∧
  (∀ (s : State) (v : Word), portOpen s = true → s.port.bindHold = false → s.port.sleepHold = false → Resting s →
    (s.bind.state = .unbound → v ≠ 1 → exec (.enableWordWrite v) s = .next s) ∧
    (s.bind.state = .rejected → v ≠ 0 → v ≠ 1 → exec (.enableWordWrite v) s = .next s) ∧
    (s.bind.state = .rejected → Room 1 s → exec (.enableWordWrite 0) s = .next
      (joinWrite (statusWrite s 0 none .none) { s with bind := { s.bind with state := .unbound, rejection := none } })) ∧
    (s.bind.state = .bound → exec (.enableWordWrite 1) s = .next s) ∧
    (s.bind.state = .bound → v ≠ 0 → v ≠ 1 → EventClear s →
      exec (.enableWordWrite v) s = .next (eventPlaced (configIgnored s .anchor 0 4) s)) ∧
    (s.bind.state = .capturing ∨ s.bind.state = .unbinding → exec (.enableWordWrite v) s = .next s))

/-- R3, R7: validation, its checks in order. R6, R7, R9: an anchor read completes. The first three are kept; with the fourth the copy is
captured and checked, and the first four region lines are read, or the binding is rejected; an error rejects it at once. -/
def Obligations.BindingValidation : Prop :=
  (∀ (x : BitVec 2) (c : Captured),
    let size : Kind → Nat := fun k => match k with
      | .plan => 128 | .cell => 896 | .call => 256 | .speech => 1088 | .outbox => 576 | .inbox => 6208
      | .event => 64 + 16 * c.capacity.toNat | _ => 0
    let kinds : List Kind := [.plan, .cell, .call, .speech, .outbox, .inbox, .event]
    let good : Kind → Prop := fun k => (c.base k).toNat % 64 = 0 ∧ (c.base k).toNat + size k ≤ 0x100000000
    let meet : Kind → Kind → Prop := fun j k => j ≠ k ∧ ∃ b : Nat, (c.base j).toNat ≤ b ∧ b < (c.base j).toNat + size j ∧
      (c.base k).toNat ≤ b ∧ b < (c.base k).toNat + size k
    let clash : Kind → Prop := fun k => (∃ j ∈ kinds, meet k j) ∨ ∃ b : Nat, (c.base k).toNat ≤ b ∧
      b < (c.base k).toNat + size k ∧ 64 * anchorLine x ≤ b ∧ b < 64 * anchorLine x + 256
    (c.version ≠ 1 → validate x c = some (.badVersion, none)) ∧
    (c.version = 1 → c.capacity.toNat ∉ [16, 32, 64, 128] → validate x c = some (.badCapacity, none)) ∧
    (c.version = 1 → c.capacity.toNat ∈ [16, 32, 64, 128] →
      (∀ pre k post, kinds = pre ++ k :: post → (∀ j ∈ pre, good j) → ¬ good k → validate x c = some (.badBase, some k)) ∧
      ((∀ k ∈ kinds, good k) →
        (∀ pre k post, kinds ++ [Kind.textBodies] = pre ++ k :: post → (∀ j ∈ pre, (c.size j).toNat = size j) →
          (c.size k).toNat ≠ size k → validate x c = some (.badSize, some k)) ∧
        ((∀ k ∈ kinds ++ [Kind.textBodies], (c.size k).toNat = size k) →
          (∀ pre k post, kinds = pre ++ k :: post → (∀ j ∈ pre, ¬ clash j) → clash k →
            validate x c = some (.overlap, some k)) ∧
          ((∀ k ∈ kinds, ¬ clash k) → validate x c = none))))) ∧
  (∀ (s : State) (k : Fin 4) (line : BitVec 26) (data : List Byte) (r : ReadEntry), Resting s → s.bind.state = .capturing →
    dueRead (fun f => f == .anchor k.val) line.toNat s.mem = some r → r.status = .inFlight → r.discard = false →
    nextOfLine s.mem (.read r.arrived r.line) = true →
    let u := { s with mem := { s.mem with
      reads := s.mem.reads.erase r, inFlight := s.mem.inFlight.erase (.read r.arrived r.line) } }
    let lines := s.bind.anchorLines ++ [(k.val, composeLine (fitTo 64 data) (upperLayers s.mem r.line))]
    (s.bind.anchorLines.length < 3 →
      exec (.anchorReadDone k ⟨line, data⟩ false) s = .next { u with bind := { s.bind with anchorLines := lines } }) ∧
    (s.bind.anchorLines.length = 3 → ∀ cause kind, validate s.bind.straps (captureOf lines) = some (cause, kind) →
      exec (.anchorReadDone k ⟨line, data⟩ false) s = .next (settle (rejectBinding cause kind
        { u with bind := { s.bind with anchorLines := lines } }))) ∧
    (s.bind.anchorLines.length = 3 → validate s.bind.straps (captureOf lines) = none → s.bind.nextRegion = 0 →
      (∀ x ∈ u.mem.reads, x.isHost = true) →
      ∃ t, exec (.anchorReadDone k ⟨line, data⟩ false) s = .next t ∧ t.bind.state = .capturing ∧
        t.bind.captured = some (captureOf lines) ∧ t.bind.nextRegion = 4 ∧
        (t.mem.reads.filter (fun x => !x.isHost)).map (fun x => (x.for_, x.line)) =
          [(.region 0, t.bind.line .plan 0), (.region 1, t.bind.line .plan 1), (.region 2, t.bind.line .cell 1),
            (.region 3, t.bind.line .cell 2)]) ∧
    exec (.anchorReadDone k ⟨line, data⟩ true) s = .next (settle (rejectBinding .memory none u)))

/-- R8: what a rejection leaves, and its status write. -/
def Obligations.RejectionWritesItsCause : Prop :=
  ∀ (s : State) (cause : Cause) (kind : Option Kind), s.mem.waits = [] → Room 1 s →
    ∃ t, rejectBinding cause kind s = t ∧ t.bind.state = .rejected ∧ t.bind.rejection = some (cause, kind) ∧
      t.bind.captured = none ∧ t.port = s.port ∧ t.events = s.events ∧
      (∀ r ∈ t.mem.reads, r.isHost = false → r.discard = true) ∧
      t.mem.accept.map (fun w => (w.line, w.bytes)) = s.mem.accept.map (fun w => (w.line, w.bytes)) ++
        [(s.bind.line .anchor 2, [(0, 2), (1, cause.code), (2, (kind.map Kind.code).getD 0)])] ∧
      t.mem.queue = s.mem.queue ∧ t.mem.stage = s.mem.stage

/-- R9, R10: a region read completes. While others are outstanding its line is kept, and after each four the next four are read;
with the nineteenth the values are taken and the initial writes and the status write are placed, in order, as far as the
acceptance list has room; an error rejects the binding. A parameter or a configuration word whose value is in its range is in force
from then on; one out of its range is not taken, and its CONFIG-IGNORED is held. That the values are taken together at the end is the model's inference
(log entry 12). -/
def Obligations.RegionReads : Prop :=
  ∀ (s : State) (k : Fin 19) (line : BitVec 26) (data : List Byte) (r : ReadEntry), Resting s → s.bind.state = .capturing →
    dueRead (fun f => f == .region k.val) line.toNat s.mem = some r → r.status = .inFlight → r.discard = false →
    nextOfLine s.mem (.read r.arrived r.line) = true →
    let u := { s with mem := { s.mem with
      reads := s.mem.reads.erase r, inFlight := s.mem.inFlight.erase (.read r.arrived r.line) } }
    let lines := s.bind.regionLines ++ [(k.val, composeLine (fitTo 64 data) (upperLayers s.mem r.line))]
    let v := { u with bind := { s.bind with regionLines := lines } }
    (lines.length < 19 → lines.length < s.bind.nextRegion → exec (.regionReadDone k ⟨line, data⟩ false) s = .next v) ∧
    (lines.length < 19 → lines.length = s.bind.nextRegion → (∀ x ∈ u.mem.reads, x.isHost = true) →
      ∃ t, exec (.regionReadDone k ⟨line, data⟩ false) s = .next t ∧ t.bind = { v.bind with nextRegion := min 19 (lines.length + 4) } ∧
        (t.mem.reads.filter (fun x => !x.isHost)).map (fun x => (x.for_, x.line)) =
          (List.range (min 4 (19 - lines.length))).map (fun j =>
            (.region (lines.length + j),
              s.bind.line (regionRead (lines.length + j)).1 (regionRead (lines.length + j)).2))) ∧
    (lines.length = 19 →
      ∃ t, exec (.regionReadDone k ⟨line, data⟩ false) s = .next t ∧ t.bind.state = .capturing ∧
        t.speech.upProd = byteOf (regionLine v 15) 0 ∧ t.speech.upCons = byteOf (regionLine v 15) 0 ∧
        t.speech.downProd = byteOf (regionLine v 15) 3 ∧ t.speech.downCons = byteOf (regionLine v 15) 3 ∧
        t.texts.prod = byteOf (regionLine v 16) 0 ∧ t.texts.retire = byteOf (regionLine v 16) 0 ∧
        t.texts.inProd = byteOf (regionLine v 17) 1 ∧ t.texts.inCons = byteOf (regionLine v 17) 1 ∧
        t.events.producer = byteOf (regionLine v 18) 1 ∧ t.events.consumer = byteOf (regionLine v 18) 1 ∧
        (let l0 := regionLine v 0
         let l1 := regionLine v 1
         let num : Nat → Nat → Nat → Nat → Nat := fun lo hi x old => if lo ≤ x ∧ x ≤ hi then x else old
         let level : Half → Int → Int := fun x old => if -140 ≤ x.toInt ∧ x.toInt ≤ -30 then x.toInt else old
         let cycle : Half → Nat → Nat := fun x old => if x.toNat ∈ [64, 128, 256, 512] then x.toNat else old
         let flag : Byte → Bool → Bool := fun x old => if x = 0 then false else if x = 1 then true else old
         t.conn.inactTime = num 100 6000 (halfOf l1 4).toNat s.conn.inactTime ∧
         t.conn.campThr = level (halfOf l1 0x0C) s.conn.campThr ∧ t.conn.lossThr = level (halfOf l1 0x0E) s.conn.lossThr ∧
         t.mob.holdLen = num 10 500 (halfOf l1 6).toNat s.mob.holdLen ∧ t.mob.margin = num 0 15 (byteOf l1 8).toNat s.mob.margin ∧
         t.mob.reselMargin = num 0 15 (byteOf l1 9).toNat s.mob.reselMargin ∧
         t.mob.reselRounds = num 1 4 (byteOf l1 0x0A).toNat s.mob.reselRounds ∧
         t.sleep.base = cycle (halfOf l1 0) s.sleep.base ∧ t.sleep.ceiling = cycle (halfOf l1 2) s.sleep.ceiling ∧
         t.sleep.answerMap = flag (byteOf l0 0x18) s.sleep.answerMap ∧
         (∀ l : Fin 4, t.sleep.lines[l] = { s.sleep.lines[l] with
           enable := flag (byteOf l0 (0x08 + l.val)) (s.sleep.lines[l]).enable
           activeLow := flag (byteOf l0 (0x0C + l.val)) (s.sleep.lines[l]).activeLow
           edgeLevel := flag (byteOf l0 (0x10 + l.val)) (s.sleep.lines[l]).edgeLevel
           filter := flag (byteOf l0 (0x14 + l.val)) (s.sleep.lines[l]).filter }) ∧
         ∀ n : Fin 13,
           let l := regionLine v (2 + n.val)
           let x := s.cells.slots[n]
           (t.cells.slots[n]).inUse = flag (byteOf l 0) x.inUse ∧
           (t.cells.slots[n]).carrier = (if (halfOf l 2).toNat ≤ 4095 then halfOf l 2 else x.carrier) ∧
           (t.cells.slots[n]).code = (if (halfOf l 4).toNat ≤ 511 then halfOf l 4 else x.code) ∧
           (t.cells.slots[n]).area = halfOf l 6) ∧
        ∃ ws, t.mem.accept.map (fun w => (w.line, w.bytes)) = s.mem.accept.map (fun w => (w.line, w.bytes)) ++
            (ws.take (16 - internalCount s.mem)).map (fun w : WriteReq => (w.line, w.bytes)) ∧
          t.mem.waits.flatMap (·.acts) = (ws.drop (16 - internalCount s.mem)).map Act.write ∧
          ws = bindingWrites { t with bind := { t.bind with regionLines := [], nextRegion := 0 } }) ∧
    exec (.regionReadDone k ⟨line, data⟩ true) s = .next (settle (rejectBinding .memory none u)) ∧
    (∀ (q : SleepParam) (x : Half), takeSleepParam q x s.sleep = none → takeParam (.sleepParameter q x) s =
      { s with bind := { s.bind with heldEvents := s.bind.heldEvents ++ [configIgnored s .plan 0 (SleepParam.offset q)] } }) ∧
    (∀ (q : ConnParam) (x : Half), takeConnParam q x s.conn = none → takeParam (.connectionParameter q x) s =
      { s with bind := { s.bind with heldEvents := s.bind.heldEvents ++ [configIgnored s .plan 0 (ConnParam.offset q)] } }) ∧
    (∀ (q : MobParam) (x : Half), takeMobParam q x s.mob = none → takeParam (.mobilityParameter q x) s =
      { s with bind := { s.bind with heldEvents := s.bind.heldEvents ++ [configIgnored s .plan 0 (MobParam.offset q)] } }) ∧
    ∀ (n : Fin 13) (w : CellWord) (x : Half), cellWordOk w x = false → takeSlotWord n w x s =
      { s with bind := { s.bind with heldEvents :=
        s.bind.heldEvents ++ [configIgnored s .cell (BitVec.ofNat 16 n.val) (CellWord.offset w)] } }

/-- R10: the initial writes come in ascending address order, the anchor status BOUND after them all, and each gives every part-owned byte
of its line a value and no other byte: the values on chip of its fields, and 0 elsewhere (which bytes are part-owned, OwnershipFilter spells out). R20, R192:
the status write BOUND is accepted: the part is bound, the event writer runs, the hold ends and the held writes join the acceptance
list in their order. That two bytes of an event record belong to no field and are not the part's is the model's inference (log
entry 14). -/
def Obligations.BindingCompletes : Prop :=
  (∀ s : State, (∃ c, s.bind.captured = some c ∧ validate s.bind.straps c = none) →
    ∃ ws, bindingWrites s = ws ++
        [{ line := s.bind.line .anchor 2, bytes := [(0, 1), (1, 0), (2, 0)], speech := false, note := .bound }] ∧
      List.Pairwise (fun a b : WriteReq => a.line < b.line) ws ∧
      ∀ (k : Kind) (i pos : Nat), k ∈ regionKinds → i < k.lines s.bind.capacity → pos < 64 → partOwned k i pos = true →
        ∃ w ∈ ws, w.line = s.bind.line k i ∧ bytesCover w.bytes pos = true ∧
          (∀ p ∈ w.bytes, partOwned k i p.1 = true) ∧
          bytesGet w.bytes pos = some ((bytesGet (fieldBytes (initialFields s k i)) pos).getD 0)) ∧
  (∀ s : State,
    initialFields s .plan 0 = (List.finRange 4).flatMap (fun l =>
      [(0x20 + l.val, [flagCode (s.sleep.lines[l]).flag]), (0x24 + l.val, [flagCode (s.sleep.lines[l]).active])]) ∧
    initialFields s .plan 1 = [(0x10, [s.conn.state.code]), (0x11, [s.sleep.level.code]),
      (0x12, le16 (BitVec.ofNat 16 s.sleep.cycle)), (0x14, le32 (optWord s.conn.area)), (0x18, [causeCode s.sleep.wakeCause]),
      (0x19, [BitVec.ofNat 8 (if s.sleep.wakeCause = some .line then s.sleep.wakeLine else 0)]),
      (0x1A, [causeCode s.sleep.last])] ∧
    initialFields s .cell 0 = [(0, [slotCode s.cells.serving]), (2, le16 s.cells.epoch)] ∧
    (∀ n : Fin 13, initialFields s .cell (n.val + 1) =
      (let x := s.cells.slots[n]
       [(0x10, [BitVec.ofNat 8 x.samples.length]), (0x11, [BitVec.ofNat 8 x.missed]), (0x12, [flagCode x.barred]),
          (0x13, [flagCode x.unusable]), (0x14, [flagCode x.candidate]), (0x16, le16 ((x.filtered.map levelCode).getD 0)),
          (0x18, le32 (optWord x.since))] ++
        (List.range 4).map (fun k => (0x20 + 4 * k, sampleBytes x.samples[k]?)))) ∧
    (∀ i, initialFields s .call i = []) ∧
    initialFields s .speech 0 = [(1, [s.speech.upCons]), (2, [s.speech.downProd])] ∧
    initialFields s .outbox 0 = [(1, [s.texts.retire])] ∧
    initialFields s .inbox 0 = [(0, [s.texts.inProd]), (2, [0])] ∧
    initialFields s .event 0 = [(0, [s.events.producer]), (2, [BitVec.ofNat 8 s.bind.capacity]), (3, [0])] ∧
    ∀ i, 0 < i → initialFields s .speech i = [] ∧ initialFields s .outbox i = [] ∧ initialFields s .inbox i = [] ∧
      initialFields s .event i = []) ∧
  (∀ (s : State) (w : AccWrite) (ws : List AccWrite), s.mem.accept = w :: ws → w.writer = .part .bound →
    internalTakes s.mem w = true → Resting s → s.bind.heldEvents = [] → s.conn.state = .off →
    ∃ t, exec .internalWriteAccept s = .next t ∧ t.bind = { s.bind with state := .bound, heldEvents := [] } ∧
      t.port = { s.port with bindHold := false, held := [] } ∧
      t.events = { s.events with running := true, published := s.events.producer } ∧
      t.mem.accept.map (fun x => (x.writer, x.line, x.bytes)) = ws.map (fun x => (x.writer, x.line, x.bytes)) ++
        s.port.held.map (fun h => (.host h.tag h.arrived, h.line, h.bytes)))

/-- R15, R80: enable = 0 in BOUND, with the connection CAMPED and nothing else going on: UNBINDING, its status write and its timer of 50,
and the shutdown with cause UNBIND, whose DETACH goes out. With calls, a text being sent or open contexts the shutdown is the one that
RadioRequests spells out. R15, R16: at the fiftieth strobe, or at the SIG-SENT of that DETACH, the unbinding ends: every job is as
after power-on reset, the status write UNBOUND is placed, and once that is accepted the part is UNBOUND with no captured copy. R16: the
reads still outstanding are discarded, and no MEMORY-ERROR is raised for them. That the sleep hold ends then, with the writes it held,
and DRAM leaves self-refresh, is the model's inference (log entry 64); the numbering of messages goes on (log entry 35), and the
count of unanswered requests does not (log entry 80). -/
def Obligations.Unbinding : Prop :=
  (∀ s : State, portOpen s = true → s.port.bindHold = false → s.port.sleepHold = false → s.bind.state = .bound →
    exec (.enableWordWrite 0) s = .next (settle (
      let t := requestShutdown .unbind (emitWrite .binder (statusWrite s 3 none .none)
        { s with bind := { s.bind with state := .unbinding, unbindTimer := .running 50 } })
      placeEvents { t with bind := { t.bind with noDetach := t.conn.state == .off || t.conn.shutNoDetach } }))) ∧
  (∀ s : State, jobsRun s = true → s.bind.state = .bound → s.port.bindHold = false → s.port.sleepHold = false → Resting s →
    Room 1 s → LinkClear s → s.conn.state = .camped → s.conn.shutdown = none → callsFree s = true → s.texts.send = none →
    s.texts.resv = [] → s.mob.state = .idle → s.mem.pubs = [] →
    exec (.enableWordWrite 0) s = .next (sent .detach (joinWrite (statusWrite s 3 none .none) { s with
      bind := { s.bind with state := .unbinding, unbindTimer := .running 50, noDetach := false }
      mob := { s.mob with reestWaits := false }
      conn := { s.conn with
        shutdown := some .unbind, shutNoDetach := false, shutTimer := .running 50, detachMsg := some s.link.nextId
        connectTimer := .stopped, areaTimer := .stopped, inactTimer := .stopped, reestTimer := .stopped, areaMsg := none
        camping := false, purposes := [], attempts := 0, opening := none, awaited := none, reqMsg := none } }))) ∧
  ((∀ (s : State) (c : Instr), jobsRun s = true → s.bind.state = .unbinding → Resting s → Room 1 s →
    (c = .unbindTimerExpiry ∧ s.bind.unbindTimer = .due) ∨ (c = .sigSent ∧ s.link.up = true ∧ s.link.opSendSig.runs = true ∧
      s.conn.shutdown = some .unbind ∧ s.conn.areaMsg = none ∧
      ∃ q, s.link.queue.find? (·.inFlight) = some q ∧ msgJob q.msg = .conn ∧ s.conn.detachMsg = some q.id) →
    ∃ t, exec c s = .next t ∧ t.bind.state = .unbinding ∧ t.bind.ending = true ∧
      t.link = { Link.initial with nextId := s.link.nextId } ∧ t.conn = Conn.initial ∧ t.cells = Cells.initial ∧
      t.mob = Mob.initial ∧ t.calls = Calls.initial ∧ t.speech = Speech.initial ∧ t.texts = Texts.initial ∧
      t.sleep = Sleep.initial ∧ t.events = Events.initial ∧ t.frame = s.frame ∧ t.mem.queue = s.mem.queue ∧
      t.mem.stage = s.mem.stage ∧ t.mem.pubs = [] ∧ t.port.sleepHold = false ∧
      (t.mem.memState, t.out.mem) = (if s.mem.memState = .selfRefresh then (.exiting, s.out.mem ++ [.selfRefreshExit])
        else (s.mem.memState, s.out.mem)) ∧
      (∀ r ∈ t.mem.reads, r.isHost = false → r.silent = true) ∧
      t.mem.accept.map (fun w => (w.writer, w.line, w.bytes)) = s.mem.accept.map (fun w => (w.writer, w.line, w.bytes)) ++
        [(.part .unbound, s.bind.line .anchor 2, [(0, 0), (1, 0), (2, 0)])] ++
        (if s.port.sleepHold then s.port.held.map (fun h => (.host h.tag h.arrived, h.line, h.bytes)) else [])) ∧
  ∀ (s : State) (w : AccWrite) (ws : List AccWrite), s.mem.accept = w :: ws → w.writer = .part .unbound →
    internalTakes s.mem w = true → Resting s → s.mem.reads = [] →
    exec .internalWriteAccept s = .next { s with
      bind := { Binder.initial s.bind.straps with state := .unbound }, mem := takeInternal w { s.mem with accept := ws } })

/-! ## Parameters and the event ring -/

/-- R67, R103, R172: a parameter whose value lies in its range replaces the value in force; a new base takes the listen cycle with it,
and the cycle is written where it changed. One whose value lies outside its range is not taken, and CONFIG-IGNORED names its
offset. -/
def Obligations.Parameters : Prop :=
  (∀ s : State, Calm s →
    (∀ v : Half, 100 ≤ v.toNat → v.toNat ≤ 6000 → exec (.connectionParameter .inactivity v) s =
      .next { s with conn := { s.conn with inactTime := v.toNat } }) ∧
    (∀ v : Half, -140 ≤ v.toInt → v.toInt ≤ -30 →
      exec (.connectionParameter .campThreshold v) s = .next { s with conn := { s.conn with campThr := v.toInt } } ∧
      exec (.connectionParameter .lossThreshold v) s = .next { s with conn := { s.conn with lossThr := v.toInt } }) ∧
    (∀ v : Half, v.toNat ≤ 15 → s.conn.state ≠ .connected → exec (.mobilityParameter .handoverMargin v) s =
      .next { s with mob := { s.mob with margin := v.toNat } }) ∧
    (∀ v : Half, 10 ≤ v.toNat → v.toNat ≤ 500 → exec (.mobilityParameter .triggerHold v) s =
      .next { s with mob := { s.mob with holdLen := v.toNat } }) ∧
    (∀ v : Half, v.toNat ≤ 15 → exec (.mobilityParameter .reselectMargin v) s =
      .next { s with mob := { s.mob with reselMargin := v.toNat } }) ∧
    (∀ v : Half, 1 ≤ v.toNat → v.toNat ≤ 4 → exec (.mobilityParameter .reselectRounds v) s =
      .next { s with mob := { s.mob with reselRounds := v.toNat } }) ∧
    (∀ v : Half, v.toNat = 64 ∨ v.toNat = 128 ∨ v.toNat = 256 ∨ v.toNat = 512 →
      exec (.sleepParameter .base v) s = .next (
        let t := { s with sleep := { s.sleep with base := v.toNat, cycle := v.toNat, quiet := 0 } }
        if BitVec.ofNat 16 s.sleep.cycle = v then t
        else joinWrite (writeAt s .plan 1 [(0x12, v.extractLsb' 0 8), (0x13, v.extractLsb' 8 8)]) t) ∧
      exec (.sleepParameter .ceiling v) s = .next { s with sleep := { s.sleep with ceiling := v.toNat } }) ∧
    (∀ (l : Fin 4) (v : Half), v = 0 ∨ v = 1 →
      let with_ := fun (x : WakeLine) => { s with sleep := { s.sleep with lines := s.sleep.lines.set l x } }
      exec (.sleepParameter (.wakeEnable l) v) s = .next (with_ { s.sleep.lines[l] with enable := v == 1 }) ∧
      exec (.sleepParameter (.polarity l) v) s = .next (with_ { s.sleep.lines[l] with activeLow := v == 1 }) ∧
      exec (.sleepParameter (.mode l) v) s = .next (with_ { s.sleep.lines[l] with edgeLevel := v == 1 }) ∧
      exec (.sleepParameter (.filter l) v) s = .next (with_ { s.sleep.lines[l] with filter := v == 1 }) ∧
      exec (.sleepParameter .answerMap v) s = .next { s with sleep := { s.sleep with answerMap := v == 1 } })) ∧
  (∀ (s : State) (v : Half), Calm s →
    let gone : Nat → Host.Outcome State Fault Refusal := fun o => .next (eventPlaced (configIgnored s .plan 0 o) s)
    (v.toNat < 100 ∨ 6000 < v.toNat → exec (.connectionParameter .inactivity v) s = gone 0x44) ∧
    (v.toInt < -140 ∨ -30 < v.toInt → exec (.connectionParameter .campThreshold v) s = gone 0x4C ∧
      exec (.connectionParameter .lossThreshold v) s = gone 0x4E) ∧
    (15 < v.toNat → exec (.mobilityParameter .handoverMargin v) s = gone 0x48 ∧
      exec (.mobilityParameter .reselectMargin v) s = gone 0x49) ∧
    (v.toNat < 10 ∨ 500 < v.toNat → exec (.mobilityParameter .triggerHold v) s = gone 0x46) ∧
    (v.toNat < 1 ∨ 4 < v.toNat → exec (.mobilityParameter .reselectRounds v) s = gone 0x4A) ∧
    (v.toNat ∉ [64, 128, 256, 512] → exec (.sleepParameter .base v) s = gone 0x40 ∧
      exec (.sleepParameter .ceiling v) s = gone 0x42) ∧
    (1 < v.toNat → ∀ l : Fin 4, exec (.sleepParameter (.wakeEnable l) v) s = gone (0x08 + l.val) ∧
      exec (.sleepParameter (.polarity l) v) s = gone (0x0C + l.val) ∧
      exec (.sleepParameter (.mode l) v) s = gone (0x10 + l.val) ∧
      exec (.sleepParameter (.filter l) v) s = gone (0x14 + l.val) ∧
      exec (.sleepParameter .answerMap v) s = gone 0x18))

/-- R192, R194, R195, R196: the consumer's notices; the published producer; the ATTN output; an event against a full ring. An event
handed to a running writer is accepted onto the 16 places of the pending list, with the loss mark if an event has been lost since
the last one accepted, or else lost; a twelfth one rouses a part in DEEP. While the writer may place, the oldest event's record is
placed and then its header write, which clears the overflow flag behind a marked record; against a full ring the list is discarded
and the flag set, and so it is when the writer has waited for its turn. An advance of the consumer resumes placing. -/
def Obligations.EventRingRules : Prop :=
  (∀ (s : State) (v : Byte), Calm s →
    ((v - s.events.consumer).toNat ≤ (s.events.producer - s.events.consumer).toNat →
      exec (.eventConsumerWrite v) s = .next { s with events := { s.events with consumer := v } }) ∧
    ((s.events.producer - s.events.consumer).toNat < (v - s.events.consumer).toNat →
      exec (.eventConsumerWrite v) s = .next (eventPlaced (configIgnored s .event 0xFFFF 0x01) s))) ∧
  (∀ (s : State) (w : AccWrite) (ws : List AccWrite) (p : Byte), Resting s → s.mem.reads = [] → s.mem.accept = w :: ws →
    w.writer = .part (.eventHeader p) → internalTakes s.mem w = true →
    exec .internalWriteAccept s = .next { s with
      mem := takeInternal w { s.mem with accept := ws }, events := { s.events with published := p } }) ∧
  (∀ s : State, attn s = true ↔
    s.events.running = true ∧ s.sleep.level = .awake ∧ s.events.published ≠ s.events.consumer) ∧
  (∀ (s : State) (e : Event), Resting s → mayPlace s = true → s.bind.capacity ≤ occupancy s.events.producer s.events.consumer →
    Room 1 s →
    raiseNow e s =
      let t := { s with events := { s.events with overflow := true, lossPending := true } }
      if s.events.overflow then t else joinWrite (writeAt s .event 0 [(3, 1)]) t) ∧
  (∀ (e : Event) (s : State),
    (s.events.running = false → raiseNow e s = s) ∧
    (s.events.running = true → 16 ≤ s.events.pending.length →
      raiseNow e s = { s with events := { s.events with overflow := true, lossPending := true } }) ∧
    (s.events.running = true → s.events.pending.length < 16 →
      let t := { s with events := { s.events with
        pending := s.events.pending ++ [{ e with loss := s.events.lossPending }], lossPending := false } }
      raiseNow e s = placeEvents (if 12 ≤ t.events.pending.length ∧ s.sleep.level = .deep then rouse t else t))) ∧
  (∀ s : State,
    (mayPlace s = false ∨ (s.events.pending = [] ∧ s.events.owed = none) → placeEvents s = s) ∧
    (mayPlace s = true → s.events.pending ≠ [] → s.mem.waits = [] → 16 ≤ internalCount s.mem →
      placeEvents s = { s with mem := { s.mem with waits := [{ job := .events, since := s.mem.clock, acts := [.placeEvents] }] } }) ∧
    (mayPlace s = true → s.events.owed = none → s.mem.waits = [] → Room 1 s → s.events.pending ≠ [] →
      s.bind.capacity ≤ occupancy s.events.producer s.events.consumer →
      let t := { s with events := { s.events with pending := [], overflow := true, lossPending := true } }
      placeEvents s = if s.events.overflow then t else joinWrite (writeAt s .event 0 [(3, 1)]) t) ∧
    ∀ e : Event, mayPlace s = true → s.events.owed = none → s.mem.waits = [] → Room 2 s → s.events.pending = [e] →
      occupancy s.events.producer s.events.consumer < s.bind.capacity →
      let r := s.events.producer.toNat % s.bind.capacity
      let p := s.events.producer + 1
      let w := writeAt s .event (1 + r / 4) (fieldBytes (eventFields (16 * (r % 4)) e))
      let t := { s with events := { s.events with
        producer := p, pending := [], overflow := if e.loss then false else s.events.overflow } }
      placeEvents s = joinWrite { writeAt s .event 0 ([(0, p)] ++ (if e.loss then [(3, 0)] else [])) with note := .eventHeader p }
        (joinWrite w t)) ∧
  (∀ s : State, mayPlace s = true → s.events.owed = none → s.events.pending ≠ [] →
    s.bind.capacity ≤ occupancy s.events.producer s.events.consumer →
    let t := { s with events := { s.events with pending := [], overflow := true, lossPending := true } }
    (s.events.overflow = true → forceEvents s = t) ∧
    (s.events.overflow = false → forceEvents s = placeEvents (joinWrite (writeAt s .event 0 [(3, 1)]) t))) ∧
  ∀ (s : State) (v : Byte), noticeOpen s = true →
    (v - s.events.consumer).toNat ≤ (s.events.producer - s.events.consumer).toNat →
    exec (.eventConsumerWrite v) s = .next (settle (placeEvents { s with events := { s.events with consumer := v } }))

/-! ## Sleep -/

/-- R176: a sleep request in AWAKE. The first check that fails refuses it, with the cause written and SLEEP-REFUSED; if none does,
QUIESCING begins, with the quiesce timer of 100 and WAKE negated. NONE changes nothing; another value is ignored. R176, R177,
R179: WAITING-GRANT ends with the stop grant, or is abandoned by a sleep request NONE or by the quiesce timer. A further request
DEEP is ignored. DRAIN mode is forced until the write queue is empty (R39). That a WAKE still waiting is given up is the model's
inference (log entry 45). -/
def Obligations.SleepRequest : Prop :=
  (∀ s : State, Calm s →
    let refusal : Option Cause :=
      if callsFree s = false then some .busyCall
      else if s.texts.send.isSome = true ∨ s.texts.ctxs ≠ [] then some .busyText
      else if (connSeen s ≠ .off ∧ connSeen s ≠ .camped ∧ connSeen s ≠ .noService) ∨ s.conn.purposes ≠ [] then
        some .busyRadio
      else none
    (∀ c, refusal = some c →
      exec (.sleepRequest 1) s = .next (eventPlaced (event s .sleepRefused .none Kind.plan.code 0 0 c.code 0) (
        let t := { s with sleep := { s.sleep with last := some c } }
        if causeCode s.sleep.last = c.code then t else joinWrite (writeAt s .plan 1 [(0x1A, c.code)]) t))) ∧
    (refusal = none → exec (.sleepRequest 1) s = .next (joinWrite (writeAt s .plan 1 [(0x11, 1)]) { s with sleep :=
      { s.sleep with
        level := .quiescing, phase := .waitingGrant, quiesceTimer := .running 100, wake := false, wakeAfter := none } })) ∧
    exec (.sleepRequest 0) s = .next s ∧
    (∀ v : Byte, 1 < v.toNat → exec (.sleepRequest v) s = .next (eventPlaced (configIgnored s .plan 0 0x01) s)) ∧
    (∀ v : Byte, v ≠ 1 → exec (.stopGrant v) s = .next (eventPlaced (configIgnored s .plan 0 0x02) s)) ∧
    exec (.stopGrant 1) s = .next s ∧
    exec (.wakeAck 1) s = .next { s with sleep := { s.sleep with wake := false } } ∧
    ∀ v : Byte, v ≠ 1 → exec (.wakeAck v) s = .next (eventPlaced (configIgnored s .plan 0 0x03) s)) ∧
  (∀ s : State, jobsRun s = true → s.bind.state = .bound → s.port.sleepHold = false → Resting s → EventClear s → Room 3 s →
    s.sleep.level = .quiescing → s.sleep.phase = .waitingGrant → s.mem.forced = false →
    let abandoned : Cause → State := fun c =>
      eventPlaced (event s .sleepAbandoned .none Kind.plan.code 0 0 c.code 0)
        (joinWrite (writeAt s .plan 1 ([(0x11, 0)] ++ (if causeCode s.sleep.last = c.code then [] else [(0x1A, c.code)])))
          { s with sleep := { s.sleep with level := .awake, phase := .none, quiesceTimer := .stopped, last := some c } })
    exec (.stopGrant 1) s = .next { s with
      sleep := { s.sleep with quiesceTimer := .stopped, phase := .draining }, mem := forceDrain s.mem } ∧
    exec (.sleepRequest 0) s = .next (abandoned .activity) ∧
    exec (.sleepRequest 1) s = .next s ∧
    (s.sleep.quiesceTimer = .due → exec .quiesceTimerExpiry s = .next (abandoned .noGrant)) ∧
    (s.mem.queue ≠ [] → (forceDrain s.mem).mode = .drain ∧ (forceDrain s.mem).forced = true) ∧
    (s.mem.queue = [] → (forceDrain s.mem).mode = .readFirst ∧ (forceDrain s.mem).forced = false) ∧
    { forceDrain s.mem with mode := s.mem.mode, forced := false, count := s.mem.count } = s.mem)

/-- R41, R178: SELF-REFRESH-ENTER is granted when everything has drained: DEEP, its plan line dirty, the sleep hold, STANDBY. Not
before. R41, R175, R183, R185, R186: the exit delay ends. With the level AWAKE memory is ACTIVE, and no more. In ROUSED and RESUMING
the write-back goes on: the dirty lines in ascending address order, then the pending events; in RESUMING the level becomes AWAKE
first, and then the WAKE event is placed, the sleep hold lifted and the held host writes placed, and WAKE waits for what was placed
unless the wake cause is HOST. R184: in ROUSED the window that ends with no memory work marks the re-entry. R182: a primary cause at
each level. R179: an abandonment of the entry, by a primary cause or by a processor request in DRAINING. R183, R187: what rouses a
part in DEEP, and what a processor request does there. R186: WAKE is asserted when every write placed before its mark has been
accepted. R175: in DEEP the lines that would be written join the dirty set. Without its occasion a command changes nothing (the
model's choice, log entry 3); a plan line that changes while a write-back's lines wait joins them (log entry 77). -/
def Obligations.DeepSleep : Prop :=
  ((∀ s : State, jobsRun s = true → Resting s → s.link.up = true → s.conn.state ≠ .connected → s.cells.phase = .idle →
    s.sleep.level = .quiescing → s.sleep.phase = .draining → s.mem.forced = false → s.mem.memState = .active →
    memoryQuiet s.mem = true → s.link.queue = [] → s.link.outside = [] → s.link.opSendSig = .stopped → s.mem.pubs = [] →
    s.texts.ctxs = [] → s.conn.purposes = [] → s.cells.reload = [] → s.cells.reloadRead = none →
    exec .selfRefreshEnter s = .next { s with
      mem := { s.mem with memState := .selfRefresh }
      port := { s.port with sleepHold := true }
      events := { s.events with handed := false }
      cells := { s.cells with round := none, roundWaits := s.cells.roundWaits && s.conn.state == .noService }
      sleep := { s.sleep with
        level := .deep, phase := .none, quiesceTimer := .stopped, rouseTimer := .stopped, reentry := false, busy := false
        dirty := if s.sleep.dirty.contains (.plan true) then s.sleep.dirty else s.sleep.dirty ++ [.plan true] }
      out := { s.out with mem := s.out.mem ++ [.selfRefreshEnter], link := s.out.link ++ [.standby] } }) ∧
  ∀ s : State, memoryQuiet s.mem = false ∨ s.link.queue ≠ [] ∨ s.link.outside ≠ [] ∨ s.mem.memState ≠ .active →
    exec .selfRefreshEnter s = .next s) ∧
  ((∀ s : State, s.mem.memState = .exiting → s.sleep.level = .awake → Resting s →
    exec .exitDelayExpiry s = .next { s with mem := { s.mem with memState := .active } }) ∧
  (∀ s : State, s.mem.memState ≠ .exiting → exec .exitDelayExpiry s = .next s) ∧
  ∀ s : State, s.mem.memState = .exiting → s.sleep.level = .resuming → Resting s → s.events.running = true →
    s.events.lossPending = false → s.bind.capacity > occupancy s.events.producer s.events.consumer → s.sleep.dirty = [] →
    s.mem.accept = [] → s.mem.reads = [] → s.port.bindHold = false → s.sleep.wakeCause ≠ some .line →
    ∃ t, exec .exitDelayExpiry s = .next t ∧ t.mem.memState = .active ∧ t.sleep.level = .awake ∧ t.sleep.dirty = [] ∧
      t.port.sleepHold = false ∧ t.port.held = [] ∧ t.sleep.writeBack = .none ∧
      (s.sleep.wakeCause = some .host → t.sleep.wake = s.sleep.wake ∧ t.sleep.wakeAfter = none) ∧
      (s.sleep.wakeCause ≠ some .host → t.sleep.wakeAfter.isSome = true) ∧
      t.events.producer = s.events.producer + 1 ∧
      t.mem.accept.map (fun w => (w.writer, w.line, w.bytes)) =
        (let r := s.events.producer.toNat % s.bind.capacity
         let e := event s .wake .none Kind.plan.code 0 0 (causeCode s.sleep.wakeCause) 0
         [(.part .none, s.bind.line .plan 1, fieldBytes (planFields1 { s with sleep := { s.sleep with level := .awake } })),
          (.part .none, s.bind.line .event (1 + r / 4), fieldBytes (eventFields (16 * (r % 4)) e)),
          (.part (.eventHeader (s.events.producer + 1)), s.bind.line .event 0, [(0, s.events.producer + 1)])]) ++
        s.port.held.map (fun h => (.host h.tag h.arrived, h.line, h.bytes))) ∧
  (∀ s : State, jobsRun s = true → s.sleep.level = .roused → s.sleep.rouseTimer = .due → s.sleep.busy = false →
    memoryWork s = false → Resting { s with sleep := { s.sleep with level := .awake } } →
    exec .rouseWindowExpiry s = .next { s with sleep := { s.sleep with rouseTimer := .stopped, reentry := true } }) ∧
  ((∀ (c : Cause) (line : Nat) (s : State),
    (s.sleep.level = .awake ∨ s.sleep.level = .resuming →
      primaryCause c line s = notePlan .sleep s { s with sleep := { s.sleep with cycle := s.sleep.base, quiet := 0 } }) ∧
    (s.sleep.level = .quiescing → primaryCause c line s = abandonSleep .wake c line s) ∧
    (s.sleep.level = .deep ∨ s.sleep.level = .roused → primaryCause c line s =
      let t := { s with sleep := { s.sleep with
        level := .resuming, wakeCause := some c, wakeLine := line, reentry := false, rouseTimer := .stopped
        cycle := s.sleep.base, quiet := 0 } }
      let u := if s.sleep.writeBack = .lines true ∨ s.sleep.writeBack = .lines false then addDirty (.plan true) t
        else notePlan .sleep s t
      if s.mem.memState = .active then beginWriteBack true u else presentExit u)) ∧
  (∀ (cause primary : Cause) (line : Nat) (s : State), abandonSleep cause primary line s =
    let waking := cause = .wake ∧ s.sleep.phase = .draining
    let p := { s.sleep with level := .awake, phase := .none, quiesceTimer := .stopped, last := some cause }
    let q := if cause = .wake then { p with cycle := p.base, quiet := 0 } else p
    let t := notePlan .sleep s { s with
      sleep := if waking then { q with wakeCause := some primary, wakeLine := line } else q, mem := endForce s.mem }
    raise .sleep (event s .sleepAbandoned .none Kind.plan.code 0 0 cause.code 0) (if waking then wakeMark t else t)) ∧
  (∀ s : State,
    (s.sleep.level = .quiescing → s.sleep.phase = .draining → processorActivity s = abandonSleep .activity .activity 0 s) ∧
    (s.sleep.level = .quiescing → s.sleep.phase ≠ .draining → processorActivity s = s) ∧
    (s.sleep.level = .deep ∨ s.sleep.level = .roused → processorActivity s = primaryCause .host 0 s) ∧
    (s.sleep.level = .awake ∨ s.sleep.level = .resuming → processorActivity s = s)) ∧
  (∀ (s : State) (tag : BitVec 4) (line : BitVec 26) (bytes : List (BitVec 6 × Byte)), portOpen s = true →
    tagBusy tag s = false →
    exec (.processorRead tag line) s = .next (settle (processorActivity (joinRead (.host tag) line.toNat s))) ∧
    exec (.processorWrite tag line bytes) s =
      .next (settle (processorActivity (recordWrite tag line.toNat (byteSet bytes) s)))) ∧
  (∀ s : State,
    (s.sleep.level ≠ .deep → rouse s = s) ∧
    (s.sleep.level = .deep → rouse s = presentExit (notePlan .sleep s { s with
      sleep := { s.sleep with level := .roused, reentry := false, rouseTimer := .stopped, busy := true }
      events := { s.events with handed := false } })) ∧
    (s.mem.memState = .selfRefresh → presentExit s = { s with
      mem := { s.mem with memState := .exiting }, out := { s.out with mem := s.out.mem ++ [.selfRefreshExit] } }) ∧
    (s.mem.memState ≠ .selfRefresh → presentExit s = s) ∧
    (s.mem.memState = .exiting → exec .exitDelayExpiry s = .next (settle (
      let t := { s with mem := { s.mem with memState := .active } }
      if s.sleep.level = .resuming then beginWriteBack true t
      else if s.sleep.level = .roused then beginWriteBack false t else t))) ∧
    beginWriteBack true s =
      writeBack (addDirty (.plan true) { s with sleep := { s.sleep with level := .awake, writeBack := .lines true } }) ∧
    beginWriteBack false s = writeBack { s with sleep := { s.sleep with writeBack := .lines false } } ∧
    (s.sleep.writeBack = .none → writeBack s = s)) ∧
  (∀ (n : Nat) (b : Bool) (s : State),
    (s.sleep.writeBack = .lines b → s.sleep.dirty = [] → pumpWriteBack (n + 1) s = pumpWriteBack n { s with
      sleep := { s.sleep with writeBack := .events b }, events := { s.events with handed := true } }) ∧
    (∀ d, s.sleep.writeBack = .lines b → d ∈ s.sleep.dirty → (∀ e ∈ s.sleep.dirty, e ≠ d → (d.write s).line < (e.write s).line) →
      s.mem.waits = [] → internalCount s.mem < 16 → pumpWriteBack (n + 1) s =
        pumpWriteBack n (joinWrite (d.write s) { s with sleep := { s.sleep with dirty := s.sleep.dirty.erase d } })) ∧
    (s.sleep.writeBack = .lines b → s.sleep.dirty ≠ [] → s.mem.waits = [] → 16 ≤ internalCount s.mem →
      pumpWriteBack (n + 1) s = { s with mem := { s.mem with
        waits := [{ job := .sleep, since := s.mem.clock, acts := [.writeBack] }] } }) ∧
    (s.sleep.writeBack = .events b →
      let t := placeEvents s
      (eventsDone t = false → pumpWriteBack (n + 1) s = t) ∧
      (eventsDone t = true → b = false → pumpWriteBack (n + 1) s = { t with sleep := { t.sleep with writeBack := .none } }) ∧
      (eventsDone t = true → b = true → pumpWriteBack (n + 1) s = pumpWriteBack n (raiseNow
        (event t .wake .none Kind.plan.code 0
          (BitVec.ofNat 8 (if t.sleep.wakeCause = some .line then t.sleep.wakeLine else 0)) (causeCode t.sleep.wakeCause) 0)
        { t with sleep := { t.sleep with writeBack := .wakeEvent } }))) ∧
    (s.sleep.writeBack = .wakeEvent →
      let t := placeEvents s
      (eventsDone t = false → pumpWriteBack (n + 1) s = t) ∧
      (eventsDone t = true → pumpWriteBack (n + 1) s = liftSleepHold { t with sleep := { t.sleep with
        writeBack := .none, wakeAfter := if t.sleep.wakeCause = some .host then none else some t.mem.clock } }))) ∧
  (∀ s : State, liftSleepHold s = serveReads (s.port.held.foldl (fun u w => presentWrite w u)
    { s with port := { s.port with sleepHold := false, held := [] } })) ∧
  (∀ (s : State) (t : Nat), s.sleep.wakeAfter = some t →
    ((∃ w ∈ s.mem.accept, w.isHost = false ∧ w.joined < t) → checkWake s = s) ∧
    ((∀ w ∈ s.mem.accept, w.isHost = false → t ≤ w.joined) →
      checkWake s = { s with sleep := { s.sleep with wake := true, wakeAfter := none } })) ∧
  ∀ (s old : State) (j : Job) (i : Nat) (n : Fin 13) (d : DirtyLine) (bytes : LineBytes),
    (d ∈ s.sleep.dirty → addDirty d s = s) ∧
    (d ∉ s.sleep.dirty → addDirty d s = { s with sleep := { s.sleep with dirty := s.sleep.dirty ++ [d] } }) ∧
    mirror n s = (if s.sleep.level = .deep then addDirty (.slot n) s
      else emitWrite .cells (writeAt s .cell (1 + n.val) (fieldBytes (slotFields s.cells.slots[n]))) s) ∧
    planLineWrite j i d bytes s = (if bytes = [] then s else if s.sleep.level = .deep then addDirty d s
      else emitWrite j (writeAt s .plan i bytes) s) ∧
    (jobsRun s = false → notePlan j old s = s) ∧
    (jobsRun s = true → notePlan j old s = planLineWrite j 1 (.plan true) (changedBytes (planFields1 old) (planFields1 s))
      (planLineWrite j 0 (.plan false) (changedBytes (planFields0 old) (planFields0 s)) s)))

/-- R173, R189, R190: an acknowledge of a line clears its flag, and the flag alone is written; of a line still ACTIVE in
EDGE-AND-LEVEL mode it raises LINE again; a value but 1 is ignored. The long press, in CAMPED with no call and no text, raises
SHUTDOWN and has DETACH sent. Without its occasion a command changes nothing (the model's choice, log entry 3). -/
def Obligations.LineCommands : Prop :=
  ∀ s : State, Calm s →
    (∀ (l : Fin 4) (v : Byte),
      let x := s.sleep.lines[l]
      (v ≠ 1 → exec (.lineAcknowledge l v) s = .next (eventPlaced (configIgnored s .plan 0 (0x04 + l.val)) s)) ∧
      (x.edgeLevel = false ∨ x.active = false →
        let t := { s with sleep := { s.sleep with lines := s.sleep.lines.set l { x with flag := false } } }
        exec (.lineAcknowledge l 1) s = .next (if x.flag then joinWrite (writeAt s .plan 0 [(0x20 + l.val, 0)]) t else t)) ∧
      (x.edgeLevel = true → x.active = true → exec (.lineAcknowledge l 1) s = .next (
        let t := eventPlaced (event s .line (if x.enable then .primary else .none) Kind.plan.code (BitVec.ofNat 16 l.val) 2 0 0) s
        { t with sleep := { t.sleep with lineSince := true, quiet := if x.enable then 0 else s.sleep.quiet } }))) ∧
    (s.sleep.longPress ≠ .due → exec .longPressTimerExpiry s = .next s) ∧
    (s.sleep.longPress = .due → s.conn.state = .camped → s.conn.shutdown = none → callsFree s = true → s.texts.send = none →
      s.texts.resv = [] → exec .longPressTimerExpiry s = .next (sent .detach (shuttingDown .shutdown (
        let t := eventPlaced (event s .shutdown .primary Kind.plan.code 0 0 Cause.shutdown.code 0) s
        { t with sleep := { t.sleep with longPress := .stopped, quiet := 0 } }))))

/-! ## The cell table and measurement -/

/-- R84 to R87, R100: a configuration notice outside CONNECTED. A value in range of a slot that is not frozen is taken, the
samples and flags go, and the slot is mirrored; any other value, and one for a frozen slot, is ignored; during a switch an
involved slot joins the reload set. R88, R91, R44: the reload read of the one slot in the reload set. Its four configuration words
are taken, each mirrored; an error of the memory port makes the slot unusable, with its event. That a reload's words are taken one
by one as notices is the model's inference (log entry 59). -/
def Obligations.CellConfiguration : Prop :=
  (∀ (s : State) (n : Fin 13) (w : CellWord) (v : Half), Calm s → s.conn.state ≠ .connected →
    let run := exec (.cellConfigurationNotice n w v)
    let ignored := eventPlaced (configIgnored s .cell (BitVec.ofNat 16 n.val) (CellWord.offset w)) s
    (slotFrozen s n = true → run s = .next ignored) ∧
    (slotFrozen s n = false → cellWordOk w v = false → run s = .next ignored) ∧
    (slotFrozen s n = false → cellWordOk w v = true → n ∉ s.cells.reload → s.cells.reloadRead ≠ some n →
      run s = .next (slotWritten n (Slot.take w v s.cells.slots[n]) s)) ∧
    ∀ m : Mob, m.state = .switching ∨ m.state = .fallback ∨ m.state = .rebuilding ∨ m.state = .committing →
      (∃ r, m.switch = some r ∧ (r.old = some n ∨ r.target = n)) → n ∉ s.cells.reload →
      run { s with mob := m } = .next { s with mob := m, cells := { s.cells with reload := s.cells.reload ++ [n] } }) ∧
  (∀ (u : State) (n : Fin 13) (e : ReadEntry) (l : BitVec 26) (data : List Byte), Calm u → u.mem.inFlight = [] →
    u.conn.state ≠ .connected → slotFrozen u n = false → u.cells.reload = [n] → u.cells.reloadRead = some n →
    e.for_ = .reload n → e.line = l.toNat → e.status = .inFlight → e.discard = false →
    let s := { u with mem := { u.mem with reads := [e], inFlight := [.read e.arrived e.line] } }
    let line := composeLine (fitTo 64 data) (upperLayers u.mem e.line)
    let x := u.cells.slots[n]
    let t := { u with cells := { u.cells with reload := [], reloadRead := none } }
    let words : List (CellWord × Half) := [(.inUse, (byteOf line 0).setWidth 16), (.carrier, halfOf line 2),
      (.cellCode, halfOf line 4), (.areaCode, halfOf line 6)]
    ((∀ p ∈ words, cellWordOk p.1 p.2 = true) → exec (.reloadReadDone ⟨l, data⟩ false) s = .next
      (words.foldl (fun t p => slotWritten n (Slot.take p.1 p.2 t.cells.slots[n]) t) t)) ∧
    exec (.reloadReadDone ⟨l, data⟩ true) s = .next (slotWritten n { x with samples := [], unusable := true }
      (eventPlaced (event u .memoryError .none (Job.code .cells) 0 0 0 (BitVec.ofNat 32 (64 * u.bind.line .cell (1 + n.val)))) t)))

/-- R93, R94, R96, R97, R98: the monitor receiver in NO-SERVICE. At the end of the settle delay MEASURE is sent for the slot, or waits
for the residue; its answer is a sample or a miss, mirrored, and the round goes on with its next slot at once, or ends; the answer
of a residue is no sample, and MEASURE goes out behind it. R57, R68: in NO-SERVICE a round begins with the radio request, with the
recovery of the link and with each expiry of the round timer, which it starts anew; it measures its first slot, or ends at once
where no slot is usable. R93: a measurement tunes the monitor receiver unless it stands on the slot's carrier. R97: the serving slot
comes first where the state holds it, then the usable slots in ascending order. R98: in CONNECTED a round, and each measurement of
it, waits for a strobe. R89, R90: samples, misses and the filtered level. R69, R99: the choice of the slot with the highest level,
and the report of a round. Without its occasion a command changes nothing (the model's choice, log entry 3); a slot that becomes
the serving one in the middle of a round is passed by (log entry 73). -/
def Obligations.Measurement : Prop :=
  (∀ (u : State) (n : Fin 13) (pos : RoundPos), Calm u → u.conn.state = .noService → u.link.opMeasure = .stopped →
    let x := u.cells.slots[n]
    (let s := { u with cells := { u.cells with phase := .settle, settle := true, measSlot := some n, round := some pos } }
      let t := { s with cells := { s.cells with phase := .sample, settle := false } }
      (u.cells.residue = false → exec .settleDelayExpiry s = .next { t with
        link := { u.link with opMeasure := .running 5, askMeasure := some (.measure x.code) }
        out := { u.out with link := u.out.link ++ [.measure x.code] } }) ∧
      (u.cells.residue = true → exec .settleDelayExpiry s = .next t)) ∧
    ∀ (v : Half) (o : Timer), o.runs = true → u.cells.residue = false →
      let s := { u with
        link := { u.link with opMeasure := o }
        cells := { u.cells with phase := .sample, measSlot := some n, measFirst := false, measStray := false, round := some pos } }
      let x' := match levelIn v with
        | some l => x.addSample l u.frame
        | none => x.miss
      let pos' := RoundPos.after (match pos with | .after a _ => a | .serving => none) (some n)
      let t := slotWritten n x' { u with
        link := { u.link with unanswered := 0, askMeasure := none }
        cells := { u.cells with measSlot := none, measFirst := false, measStray := false, paced := true, round := some pos' } }
      (∀ m f, nextSlot t pos' = some (m, f) → exec (.measureDone v) s = .next (startMeasure m f t)) ∧
      (nextSlot t pos' = none → campChoice t false = none →
        exec (.measureDone v) s = .next (setCounts (fun _ => 0) { t with cells := { t.cells with round := none } }))) ∧
  (∀ u : State, Calm u → u.conn.shutdown = none →
    let begun : State → State := fun s =>
      { s with cells := { s.cells with round := some .serving, roundTimer := .running u.sleep.base } }
    (u.conn.state = .noService →
      (u.cells.roundTimer = .due →
        (∀ n f, nextSlot (begun u) .serving = some (n, f) → exec .roundTimerExpiry u = .next (startMeasure n f (begun u))) ∧
        (nextSlot (begun u) .serving = none → campChoice u false = none → exec .roundTimerExpiry u = .next (setCounts (fun _ => 0)
          { u with cells := { u.cells with paced := true, roundTimer := .running u.sleep.base } }))) ∧
      (u.cells.roundTimer ≠ .due → exec .roundTimerExpiry u = .next u) ∧
      ∀ n f r, nextSlot (begun u) .serving = some (n, f) →
        exec .linkReady { u with link := { u.link with up := false, recovery := r } } = .next (startMeasure n f (eventPlaced
          (event u .radioRecovered .none (Job.code .link) 0 0 0 0) (begun { u with
            link := { u.link with recovery := .stopped, unanswered := 0 }, cells := { u.cells with lastCarrier := none } })))) ∧
    (u.conn.state = .off → ∀ n f, nextSlot (begun (connWritten .noService u)) .serving = some (n, f) →
      exec (.radioRequest 1) u = .next (startMeasure n f (begun (connWritten .noService u))))) ∧
  (∀ (u : State) (n : Fin 13) (v : Half) (o : Timer), Calm u → u.conn.state = .noService → o.runs = true →
    let s : Phase → State := fun p => { u with
      link := { u.link with opMeasure := o }
      cells := { u.cells with phase := p, residue := true, measSlot := some n, round := some .serving } }
    let t : Phase → State := fun p => { s p with
      link := { u.link with opMeasure := .stopped, askMeasure := none, unanswered := 0 }
      cells := { (s p).cells with residue := false } }
    let f := LinkFrame.measure (u.cells.slots[n]).code
    exec (.measureDone v) (s .settle) = .next (t .settle) ∧
    exec (.measureDone v) (s .sample) = .next { t .sample with
      link := { (t .sample).link with opMeasure := .running 5, askMeasure := some f }
      out := { u.out with link := u.out.link ++ [f] } }) ∧
  (∀ (s : State) (n : Fin 13) (first : Bool),
    let x := s.cells.slots[n]
    let t : Phase → State := fun p => { s with cells := { s.cells with
      measSlot := some n, measFirst := first, measStray := false, phase := p } }
    (s.cells.lastCarrier = some x.carrier → s.cells.residue = true → startMeasure n first s = t .sample) ∧
    (s.cells.lastCarrier = some x.carrier → s.cells.residue = false → startMeasure n first s =
      if s.link.up = true ∧ s.link.opMeasure.runs = false then { t .sample with
        link := { s.link with opMeasure := .running 5, askMeasure := some (.measure x.code) }
        out := { s.out with link := s.out.link ++ [.measure x.code] } }
      else t .sample) ∧
    (s.cells.lastCarrier ≠ some x.carrier → startMeasure n first s =
      let u := { t .settle with cells := { (t .settle).cells with settle := true, lastCarrier := some x.carrier } }
      if s.link.up then { u with out := { s.out with link := s.out.link ++ [.tuneMon x.carrier] } } else u)) ∧
  (∀ (s : State) (pos : RoundPos),
    let held := s.conn.state = .camped ∨ s.conn.state = .connecting ∨ s.conn.state = .connected
    let fit : Fin 13 → Prop := fun n => (s.cells.slots[n]).usable = true ∧ ¬ (held ∧ s.cells.serving = some n) ∧
      match pos with
      | .serving => True
      | .after f last => f ≠ some n ∧ ∀ m, last = some m → m < n
    let lead : Fin 13 → Prop := fun n => pos = .serving ∧ held ∧ s.cells.serving = some n ∧ (s.cells.slots[n]).usable = true
    (∀ n, lead n → nextSlot s pos = some (n, true)) ∧
    ((∀ n, ¬ lead n) →
      (∀ n, fit n → (∀ m, m < n → ¬ fit m) → nextSlot s pos = some (n, false)) ∧
      ((∀ n, ¬ fit n) → nextSlot s pos = none))) ∧
  (∀ (s : State) (k : Nat), roundOpen s = true → s.conn.state = .connected → s.cells.phase = .idle →
    let begun := { s with cells := { s.cells with round := some .serving, roundWaits := false } }
    (s.cells.round = none → s.cells.paced = true → pumpRound (k + 1) s = s) ∧
    (s.cells.round = none → s.cells.paced = false → ∀ n f, nextSlot begun .serving = some (n, f) →
      pumpRound (k + 2) s = startMeasure n f begun) ∧
    (∀ pos n f, s.cells.round = some pos → nextSlot s pos = some (n, f) →
      (s.cells.paced = true → pumpRound (k + 1) s = s) ∧ (s.cells.paced = false → pumpRound (k + 1) s = startMeasure n f s)) ∧
    ∀ pos, s.cells.round = some pos → nextSlot s pos = none →
      pumpRound (k + 1) s = pumpRound k (reportRound { s with cells := { s.cells with round := none, paced := true } })) ∧
  (∀ (x : Slot) (l : Int) (f : FrameNo),
    (x.addSample l f).samples = (x.samples ++ [({ level := l, frame := f } : Sample)]).drop (x.samples.length + 1 - 4) ∧
    (x.addSample l f).missed = 0 ∧
    (x.missed < 2 → x.miss = { x with missed := x.missed + 1 }) ∧ (2 ≤ x.missed → x.miss = { x with missed := 3, samples := [] }) ∧
    (x.samples = [] → x.filtered = none) ∧
    (x.samples ≠ [] → ∃ m : Int, x.filtered = some m ∧ m * x.samples.length ≤ (x.samples.map (·.level)).sum ∧
      (x.samples.map (·.level)).sum < (m + 1) * x.samples.length)) ∧
  (∀ (s : State) (ok : Fin 13 → Bool),
    (∀ n l, ok n = true → (s.cells.slots[n]).filtered = some l →
      (∀ m k, ok m = true → (s.cells.slots[m]).filtered = some k → k < l ∨ (k = l ∧ n ≤ m)) → bestSlot s ok = some n) ∧
    ((∀ m, ok m = true → (s.cells.slots[m]).filtered = none) → bestSlot s ok = none)) ∧
  ∀ (s : State) (b : Bool), campChoice s b = bestSlot s (fun n => (s.cells.slots[n]).usable &&
    (match (s.cells.slots[n]).filtered with
      | some l => s.conn.campThr ≤ l
      | none => false) && !(b && s.cells.serving == some n))

/-- R180 to R182: the outcome of a listen slot in NO-SERVICE, where no round follows it: NO-PAGE counts, from the sixteenth in a
row on with the cycle doubled up to the effective ceiling; a page returns the cycle to its base and adds its purpose. In OFF it is
not used, and with no LISTEN outstanding it is nothing. R98: in CAMPED and CONNECTING a round follows the outcome, here of a
NO-PAGE in CAMPED; what a page makes in each state is its purpose's addition (R70) and its cause. Where the mark of a LINE event
is cleared, and what OFF leaves, are the model's inference (log entries 25, 60). -/
def Obligations.ListenOutcomes : Prop :=
  ∀ (u : State) (o : Timer), Calm u → u.conn.shutdown = none → o.runs = true →
    let s := { u with link := { u.link with opListen := o } }
    let t := { u with
      link := { u.link with opListen := .stopped, askListen := none, unanswered := 0 }
      sleep := { u.sleep with lineSince := false } }
    let woken := u.sleep.lineSince = true ∨ (u.sleep.lines[(3 : Fin 4)]).active = true
    let paged : Purpose → State := fun p =>
      { t with sleep := { t.sleep with quiet := 0 }, conn := { u.conn with purposes := u.conn.purposes ++ [p] } }
    (∀ x, u.conn.state = .off →
      exec (.listenDone x) s = .next { u with link :=
        { u.link with opListen := .stopped, askListen := none, unanswered := 0 } }) ∧
    (u.conn.state = .noService →
      (woken → exec (.listenDone .noPage) s = .next { t with sleep := { t.sleep with quiet := 0 } }) ∧
      (¬ woken → u.sleep.quiet < 15 →
        exec (.listenDone .noPage) s = .next { t with sleep := { t.sleep with quiet := u.sleep.quiet + 1 } }) ∧
      (¬ woken → 15 ≤ u.sleep.quiet → effectiveCeiling u ≤ u.sleep.base →
        exec (.listenDone .noPage) s = .next { t with sleep := { t.sleep with quiet := 0 } }) ∧
      (¬ woken → 15 ≤ u.sleep.quiet → u.sleep.base < effectiveCeiling u → u.sleep.base ∈ [64, 128, 256] →
        exec (.listenDone .noPage) s = .next (joinWrite (writeAt u .plan 1 (bytesAt 0x12 (le16 (BitVec.ofNat 16 (2 * u.sleep.base)))))
          { t with sleep := { t.sleep with quiet := 0, cycle := 2 * u.sleep.base } })) ∧
      (.callIn ∉ u.conn.purposes → exec (.listenDone .pageCall) s = .next (paged .callIn)) ∧
      (.textIn ∉ u.conn.purposes → exec (.listenDone .pageText) s = .next (paged .textIn))) ∧
    (∀ n f, u.conn.state = .camped ∨ u.conn.state = .connecting → ¬ woken → u.sleep.quiet < 15 →
      let v := { t with
        sleep := { t.sleep with quiet := u.sleep.quiet + 1 }, cells := { u.cells with round := some .serving } }
      nextSlot v .serving = some (n, f) → exec (.listenDone .noPage) s = .next (startMeasure n f v)) ∧
    (∀ x, exec (.listenDone x) s = .next (settle (listenOutcome (some x) { u with link :=
      { u.link with opListen := .stopped, askListen := none, unanswered := 0 } }))) ∧
    (∀ (x : Option ListenOutcome) (v : State), v.conn.state ≠ .off → listenOutcome x v =
      let w := match x with
        | some .noPage => quietCycle v
        | some .pageCall => addPurpose .callIn (primaryCause .pageCall 0 v)
        | some .pageText =>
          let w := rouse (addPurpose .textIn v)
          notePlan .sleep w { w with sleep := { w.sleep with cycle := w.sleep.base, quiet := 0 } }
        | none => v
      let w := { w with sleep := { w.sleep with lineSince := false } }
      if w.conn.state = .camped ∨ w.conn.state = .connecting then { w with cells := { w.cells with roundWaits := true } } else w) ∧
    ∀ x, u.link.opListen = .stopped → exec (.listenDone x) u = .next u

/-! ## The connection and mobility -/

/-- R68, R80, R81: the radio request and the end of a shutdown. A request for what is so already, or during a shutdown, is
nothing, and a value outside 0 and 1 is ignored. OFF in CAMPED, with no call and no text, has DETACH sent; in NO-SERVICE it ends
at once. The shutdown timer ends a shutdown. R141, R162, R169: a shutdown frees every call, with a RELEASE for each that the network may
know of, DETACH chosen first; the text being sent is FAILED with the shutdown's cause; every open context is abandoned. R79, R140,
R162: leaving service releases every call locally, and the text being sent is QUEUED again, or FAILED at its third attempt. Without its
occasion a command changes nothing (the model's choice, log entry 3). -/
def Obligations.RadioRequests : Prop :=
  (∀ s : State, Calm s →
    (s.conn.state ≠ .off ∨ s.conn.shutdown.isSome = true → exec (.radioRequest 1) s = .next s) ∧
    (s.conn.state = .off ∨ s.conn.shutdown.isSome = true → exec (.radioRequest 0) s = .next s) ∧
    (∀ v : Byte, 1 < v.toNat → exec (.radioRequest v) s = .next (eventPlaced (configIgnored s .plan 0 0x00) s)) ∧
    (callsFree s = true → s.texts.send = none → s.texts.resv = [] → s.conn.shutdown = none →
      (s.conn.state = .camped → exec (.radioRequest 0) s = .next (sent .detach (shuttingDown .locl s))) ∧
      (s.conn.state = .noService → exec (.radioRequest 0) s = .next (connWritten .off { s with
        mob := { s.mob with reestWaits := false }
        cells := { s.cells with roundTimer := .stopped }
        conn := { s.conn with
          connectTimer := .stopped, areaTimer := .stopped, inactTimer := .stopped, reestTimer := .stopped, shutTimer := .stopped
          shutNoDetach := false, detachMsg := none, areaMsg := none, camping := false, purposes := [], attempts := 0
          opening := none, awaited := none, reqMsg := none } }))) ∧
    (s.conn.state = .camped → s.conn.shutdown.isSome = true → s.conn.shutTimer = .due →
      exec .shutdownTimerExpiry s = .next (connWritten .off { s with conn := { s.conn with
        shutdown := none, shutTimer := .stopped, detachMsg := none, shutNoDetach := false } })) ∧
    (s.conn.shutTimer ≠ .due → exec .shutdownTimerExpiry s = .next s) ∧
    (s.conn.state = .connected → s.conn.shutdown = none →
      (∀ r : Fin 4, (∀ q : Fin 4, q ≠ r → (s.calls.recs[q]).state = .free) →
        let c := s.calls.recs[r]
        c.state ≠ .free → (c.state = .dialing → c.stage = .sent) → c.reading = false → s.texts.send = none → s.texts.resv = [] →
        let t := recMoved r (c.free .locl) s
        let u := shuttingDown .locl (if c.state = .active then speechStop t else t)
        exec (.radioRequest 0) s = .next { u with
          conn := { u.conn with detachMsg := some (s.link.nextId + 1) }
          link := { s.link with
            nextId := s.link.nextId + 2, nextPlace := s.link.nextPlace + 2, opSendSig := .running 4
            askSendSig := some (.sendSig .detach)
            queue := [{ id := s.link.nextId, msg := .release c.ref .locl, inFlight := false, place := s.link.nextPlace
                        attempts := 0 },
              { id := s.link.nextId + 1, msg := .detach, inFlight := true, place := s.link.nextPlace + 1, attempts := 0 }] }
          out := { u.out with link := s.out.link ++ [.sendSig .detach] } }) ∧
      (∀ x, callsFree s = true → s.texts.resv = [] → s.texts.send = some x → x.status = .awaiting →
        exec (.radioRequest 0) s = .next (sent .detach (shuttingDown .locl (textDone x.desc
          { s.texts.descs[x.desc] with state := .failed, fail := some .locl }
          { s with texts := { s.texts with send := none } })))) ∧
      (∀ c : Ctx, callsFree s = true → s.texts.send = none → s.texts.ctxs = [c] →
        s.texts.resv = [{ ring := c.ring, finish := .open_ }] →
        occupancy (s.events.producer + 1) s.events.consumer < s.bind.capacity →
        exec (.radioRequest 0) s = .next (sent .detach (shuttingDown .locl (eventPlaced
          (event s .textArrived .primary Kind.inbox.code (BitVec.ofNat 16 (c.ring.toNat % 8)) 3 0 0)
          (joinWrite (writeAt s .inbox 0 [(0, s.texts.inProd + 1)]) (
            let u := eventPlaced (event s .inboxAbandoned .none Kind.inbox.code (BitVec.ofNat 16 (c.ring.toNat % 8)) 0 0
                (c.ref.setWidth 32))
              (wrote (writeAt s .inbox (inboxSlotLine c.ring) (changedBytes (ctxFields c 1) (ctxFields c 3))) s)
            { u with
              sleep := { s.sleep with quiet := 0 }
              texts := { s.texts with
                ctxs := [], resv := [], inProd := s.texts.inProd + 1
                recent := (s.texts.recent ++ [(c.sender, c.ref)]).drop (s.texts.recent.length + 1 - 4) } })))))))) ∧
  (∀ s : State, noticeOpen s = true → exec (.radioRequest 0) s = .next (settle (requestShutdown .locl s))) ∧
  (∀ (s : State) (cause : Cause),
    (s.conn.state = .off ∨ s.conn.shutdown.isSome = true → requestShutdown cause s = s) ∧
    (s.conn.state ≠ .off → s.conn.shutdown = none → requestShutdown cause s =
      let t := (List.finRange 4).foldl (fun t r => shutdownRec r cause t) { s with conn := { s.conn with
        shutdown := some cause, shutNoDetach := decide (s.conn.state = .noService) } }
      let u := unlivePubs PubKind.isCamping (dropSwitch (abandonAll (endSend .failed (some cause) t)))
      let v := { u with conn := { u.conn with
        connectTimer := .stopped, areaTimer := .stopped, inactTimer := .stopped, reestTimer := .stopped, areaMsg := none
        camping := false, purposes := [], attempts := 0, opening := none, awaited := none, reqMsg := none } }
      if v.conn.shutNoDetach then v
      else emitMsg .detach { v with conn := { v.conn with
        detachMsg := some v.link.nextId, shutTimer := .running 50 } })) ∧
  (∀ (s : State) (r : Fin 4) (cause : Cause),
    let c := s.calls.recs[r]
    let w := withdrawCall c.ref s
    let known : Prop := c.state ≠ .dialing ∨ c.stage = .sent ∨
      (c.stage = .placed ∧ ∃ q ∈ s.link.queue, q.inFlight = true ∧ c.setupMsg = some q.id)
    (c.state = .free → shutdownRec r cause s = s ∧ localRelease r cause s = s) ∧
    (c.state ≠ .free →
      (known → shutdownRec r cause s = freeRec r cause (emitMsg (.release c.ref cause) w)) ∧
      (¬ known → shutdownRec r cause s = freeRec r cause w) ∧ localRelease r cause s = freeRec r cause w)) ∧
  (∀ (s : State) (r : Fin 4) (cause : Cause),
    freeRec r cause s = changeState r (CallRec.free cause) (dropCapture r s)) ∧
  (∀ s : State, abandonAll s = s.texts.resv.foldl (fun t e =>
    match t.texts.ctxs.find? (fun c => c.ring == e.ring) with
    | some c => abandonCtx c t
    | none => t) s) ∧
  (∀ f : ReadFor, sendReads f = true ↔ f = .descriptor ∨ ∃ k, f = .body k) ∧
  (∀ (s : State) (st : DescState) (cause : Option Cause) (lost : Cause),
    (s.texts.send = none → endSend st cause s = s ∧ textLost lost s = s) ∧
    ∀ x, s.texts.send = some x →
      let n := (s.texts.descs[x.desc]).attempts
      dropSend s = { discardReads sendReads (match x.status with | .placed id => withdrawMsg id s | _ => s) with
        texts := { s.texts with send := none } } ∧
      endSend st cause s = finishDesc x.desc st cause n (dropSend s) ∧
      (2 ≤ n → textLost lost s = finishDesc x.desc .failed (some lost) 3 (dropSend s)) ∧
      (n < 2 → textLost lost s =
        setDesc x.desc (fun d => { d with state := .queued, attempts := n + 1 }) (dropSend s))) ∧
  (∀ (s : State) (cause : Cause) (told : Bool),
    let t := unlivePubs PubKind.isCamping { s with
      mob := { s.mob with reestWaits := false }
      conn := { s.conn with
        connectTimer := .stopped, areaTimer := .stopped, inactTimer := .stopped, reestTimer := .stopped, areaMsg := none
        camping := false, reqMsg := none } }
    let u := textLost cause ((List.finRange 4).foldl (fun u r => localRelease r cause u) t)
    let v := setConn .noService { u with conn := { u.conn with purposes := [], attempts := 0, opening := none, awaited := none } }
    let w := if told then v else raisePrimary .conn (event v .serviceLost .primary 0 0 0 0 0) .serviceLost v
    let x := if w.mob.state = .rebuilding then endSwitch w else w
    leaveService cause told s = if cause = .radioLoss then restartRound x else x) ∧
  ∀ s : State, jobsRun s = true → s.conn.reestTimer = .due → s.conn.state = .reestablishing →
    exec .reestablishmentTimerExpiry s = .next (settle (leaveService .radioLoss false s))

/-- R71 to R73, R75: a connect. The grant makes the state CONNECTED, written, and serves the purposes, an AREA by AREA-UPDATE; a
failed attempt is made again, and the third ends the connect in CAMPED; a grant in CAMPED is answered with LEAVE. R70, R71: a
purpose added in CAMPED starts a connect, and in CONNECTED an AREA is served at once. R73: the area check. R69, R70: camping makes
its publication, and when it takes effect the state is CAMPED, SERVICE-FOUND is raised, a waiting purpose starts a connect and the
area is checked. R33, R34, R83: a publication made is published at once where it fits and none waits; a new serving slot raises
the epoch. R75, R61: the inactivity timer is loaded when the connection becomes idle, reloaded by each activity while it is, and
cancelled when it no longer is: at the end of every command it runs exactly while the connection is idle. Without its occasion a
command changes nothing (the model's choice, log entry 3); the epoch of an image stands behind the publications that wait (log entry
69). -/
def Obligations.ConnectOutcomes : Prop :=
  (∀ s : State, Calm s → s.conn.shutdown = none →
    let c := s.conn
    (c.state = .connecting → (∀ n, candidateNow { s with conn := { c with state := .connected } } n = false) →
      let t := connWritten .connected { s with
        texts := { s.texts with retryTimer := .stopped }
        cells := { s.cells with paced := true }
        conn := { c with
          attempts := 0, opening := none, reqMsg := none, connectTimer := .stopped
          purposes := c.purposes.filter (· == Purpose.area) } }
      (∀ r : Fin 4, (s.calls.recs[r]).state ≠ .dialing) →
      (.area ∉ c.purposes → exec .connectGrant s = .next (pumpIdle t)) ∧
      (∀ x, .area ∈ c.purposes → servingSlot s = some x → exec .connectGrant s = .next (sent (.areaUpdate x.area)
        { t with conn := { t.conn with awaited := some x.area, areaMsg := some s.link.nextId } }))) ∧
    (c.state = .camped → exec .connectGrant s = .next (sent .leave s)) ∧
    (c.state ≠ .connecting → c.state ≠ .camped → exec .connectGrant s = .next (activity s)) ∧
    (c.state ≠ .connecting → exec .connectReject s = .next (activity s)) ∧
    (c.state = .connecting →
      (∀ p, c.opening = some p → c.attempts < 3 →
        let t := sent (.connectRequest p) { s with conn := { c with
          attempts := c.attempts + 1, opening := some p, connectTimer := .running 200, reqMsg := some s.link.nextId
          reqOld := c.reqOld ++ [s.link.nextId] } }
        exec .connectReject s = .next t ∧ (c.connectTimer = .due → exec .connectTimerExpiry s = .next t)) ∧
      (.callOut ∉ c.purposes → .textOut ∉ c.purposes → 3 ≤ c.attempts →
        let t := connWritten .camped { s with conn := { c with
          purposes := [], attempts := 0, opening := none, connectTimer := .stopped, reqMsg := none } }
        exec .connectReject s = .next t ∧ (c.connectTimer = .due → exec .connectTimerExpiry s = .next t))) ∧
    (c.connectTimer ≠ .due → exec .connectTimerExpiry s = .next s) ∧
    (c.state = .connected → c.inactTimer = .due → exec .inactivityTimerExpiry s = .next (sent .leave
      (connWritten .camped { s with conn := { c with inactTimer := .stopped } }))) ∧
    (c.inactTimer ≠ .due → exec .inactivityTimerExpiry s = .next s)) ∧
  (∀ s : State,
    (connIdle s = true ↔ s.conn.state = .connected ∧ s.conn.shutdown = none ∧
      (∀ r : Fin 4, (s.calls.recs[r]).state = .free) ∧ s.texts.send = none ∧ s.texts.ctxs = [] ∧ s.conn.purposes = []) ∧
    (connIdle s = true → s.conn.inactTimer.runs = true → pumpIdle s = s) ∧
    (connIdle s = true → s.conn.inactTimer.runs = false →
      pumpIdle s = { s with conn := { s.conn with inactTimer := .running s.conn.inactTime } }) ∧
    (connIdle s = false → pumpIdle s = { s with conn := { s.conn with inactTimer := .stopped } }) ∧
    (connIdle s = true → activity s = { s with conn := { s.conn with inactTimer := .running s.conn.inactTime } }) ∧
    (connIdle s = false → activity s = s) ∧
    (settle s).conn.inactTimer.runs = connIdle (settle s)) ∧
  (∀ (p : Purpose) (s : State),
    let t := { s with conn := { s.conn with purposes := s.conn.purposes ++ [p] } }
    (s.conn.state = .off ∨ s.conn.shutdown.isSome = true ∨ p ∈ s.conn.purposes → addPurpose p s = s) ∧
    (s.conn.state ≠ .off → s.conn.shutdown = none → p ∉ s.conn.purposes →
      (s.conn.state = .camped → addPurpose p s = connectStart p t) ∧
      (s.conn.state = .connected → addPurpose p s = if p = .area then placeAreaUpdate t else s) ∧
      (s.conn.state ≠ .camped → s.conn.state ≠ .connected → addPurpose p s = t)) ∧
    connectStart p s = setConn .connecting (emitMsg (.connectRequest p) { s with conn := { s.conn with
      attempts := 1, opening := some p, connectTimer := .running 200, reqMsg := some s.link.nextId
      reqOld := [s.link.nextId] } }) ∧
    (∀ x, servingSlot s = some x → placeAreaUpdate s = emitMsg (.areaUpdate x.area)
      { s with conn := { s.conn with awaited := some x.area, areaMsg := some s.link.nextId } }) ∧
    (∀ x, servingSlot s = some x → areaCheck s = if s.conn.area = some x.area then s else addPurpose .area s) ∧
    (servingSlot s = none → placeAreaUpdate s = s ∧ areaCheck s = s)) ∧
  (∀ (s : State) (n : Fin 13), s.sleep.level ≠ .deep →
    camp n s = publish (.camping n)
      [(s.bind.line .cell 0, fieldBytes (cellHeaderFields (some n) (s.cells.epoch + 1 + BitVec.ofNat 16 s.mem.pubs.length))),
        (s.bind.line .cell (1 + n.val), fieldBytes (slotFields { s.cells.slots[n] with candidate := false, since := none })),
        (s.bind.line .plan 1, [(0x10, 2)])]
      { s with conn := { s.conn with camping := true } }) ∧
  (∀ (s : State) (n : Fin 13), s.sleep.level = .deep →
    camp n s = camped n (addDirty (.plan true) (addDirty (.slot n) (addDirty .header s)))) ∧
  (∀ (kind : PubKind) (images : List (Line × LineBytes)) (s : State),
    (s.mem.pubs = [] → stageFits s.mem images = true → publish kind images s = published kind true (serveReads { s with
      mem := publishImages s.mem.nextPub images { s.mem with nextPub := s.mem.nextPub + 1 } })) ∧
    (s.mem.pubs ≠ [] ∨ stageFits s.mem images = false → publish kind images s = { s with mem := { s.mem with
      nextPub := s.mem.nextPub + 1
      pubs := s.mem.pubs ++ [{ number := s.mem.nextPub, kind := kind, live := true, images := images }] } })) ∧
  (∀ (s : State) (n : Fin 13),
    published (.camping n) false s = takeServing n s ∧
    published (.camping n) true s = areaCheck (
      let t := takeServing n { s with conn := { s.conn with camping := false } }
      let u := afterConn t.conn.state .camped { t with conn := { t.conn with state := .camped } }
      let v := match u.conn.purposes with
        | p :: _ => connectStart p u
        | [] => u
      raise .conn (event u .serviceFound .secondary Kind.cell.code (BitVec.ofNat 16 n.val) 0 0 0) v)) ∧
  (∀ (s : State) (n m : Fin 13),
    (takeServing n s).cells.serving = some n ∧ (takeServing n s).cells.epoch = s.cells.epoch + 1 ∧
    (takeServing n s).cells.slots[m] =
      (if m = n then { s.cells.slots[n] with candidate := false, since := none } else s.cells.slots[m]) ∧
    (takeServing n s).mob.slots[m] = (if m = n then { hold := .stopped, matured := false, better := 0 }
      else { s.mob.slots[m] with better := 0 })) ∧
  ∀ s : State, reportRound s =
    let t := roundReselect s
    if t.conn.state = .noService ∧ t.conn.camping = false ∧ t.conn.shutdown = none then
      match campChoice t false with
      | some n => camp n t
      | none => t
    else if t.conn.state = .camped then areaCheck t else t

/-- R73, R74, R79: the answers to AREA-UPDATE. AREA-ACCEPT registers the area and tells the host; AREA-REJECT bars the serving
slot, tells the host and leaves service, where a round begins; without an answer AREA leaves the set; any other answer is
discarded. Without its occasion a command changes nothing (the model's choice, log entry 3). -/
def Obligations.AreaAnswers : Prop :=
  ∀ (s : State) (a : Half), Calm s → s.conn.shutdown = none → s.conn.state = .connected → s.conn.purposes = [.area] →
    let served : State → State := fun t =>
      { t with conn := { t.conn with purposes := [], awaited := none, areaTimer := .stopped, areaMsg := none } }
    (s.conn.awaited ≠ some a → exec (.areaAccept a) s = .next s ∧ exec (.areaReject a) s = .next s) ∧
    (s.conn.awaited = some a →
      (let t := { s with conn := { s.conn with area := some a } }
      exec (.areaAccept a) s = .next (pumpIdle (eventPlaced (event s .areaUpdated .secondary Kind.plan.code 0 0 0 (a.setWidth 32))
        (served (wrote (writeAt s .plan 1 (changedBytes (planFields1 s) (planFields1 t))) t))))) ∧
      ∀ (n : Fin 13), s.cells.serving = some n → callsFree s = true → s.texts.send = none →
        let t := slotWritten n { s.cells.slots[n] with barred := true } s
        let u := eventPlaced (event s .areaRejected .primary Kind.plan.code 0 0 0 (a.setWidth 32)) t
        let v := roundBegun (leftService { u with sleep := { u.sleep with quiet := 0 } })
        ∀ m f, nextSlot v .serving = some (m, f) → exec (.areaReject a) s = .next (startMeasure m f v)) ∧
    (s.conn.areaTimer = .due → exec .areaAnswerTimerExpiry s = .next (pumpIdle (served s))) ∧
    (s.conn.areaTimer ≠ .due → exec .areaAnswerTimerExpiry s = .next s)

/-- R107 to R109, R111, R114, R118: a transfer order and its switch. In CONNECTED an order that names no slot is refused, and one
that does is armed, or begins its switch at once; during a switch it raises TRANSFER-REFUSED; in any other state it is discarded.
A due order begins its switch. SYNCED places TRANSFER-DONE, and FAILED falls back. R112, R113: the handover commits by its
publication, and when that takes effect the serving slot and the area are taken, HANDOVER-DONE is raised and the switch ends, with
its steps. R114, R115: the outcome of a FALLBACK. R119: the outcome of a stale SWITCH clears the flag and starts what waited on it.
Without its occasion a command changes nothing (the model's choice, log entry 3). So is the discard in REESTABLISHING (log entry
23); a stale SWITCH that a fault abandons starts nothing (log entry 72). The model's inferences too: an overtaken handover
publication takes the registered area (log entry 52), and the epoch and gap bytes of the images written (log entries 69 and 50). -/
def Obligations.TransferOrders : Prop :=
  (∀ (s : State) (c d f : Half), Calm s → s.conn.shutdown = none → s.texts.send = none → s.link.opSwitch = .stopped →
    c.toNat ≤ 4095 → d.toNat ≤ 511 →
    let t := activity s
    let refused : State → State := fun u => sent (.transferFail .unknown)
      { u with mob := { u.mob with state := .idle, order := none, actTimer := .stopped, orderDue := false } }
    let order : Fin 13 → Order := fun n => { target := n, carrier := c, code := d, activation := f }
    (s.conn.state ≠ .connected → exec (.transferOrder c d f) s = .next t) ∧
    (s.conn.state = .connected →
      (orderMatch c d s = none → exec (.transferOrder c d f) s = .next (refused t)) ∧
      ∀ n, orderMatch c d s = some n →
        (notLater f s.frame = false → exec (.transferOrder c d f) s = .next { t with mob := { t.mob with
          state := .armed, order := some (order n), actTimer := .running (f - s.frame).toNat, orderDue := false } }) ∧
        (notLater f s.frame = true → exec (.transferOrder c d f) s = .next (switchBegun .handover .switching n t)) ∧
        let u := { s with mob := { s.mob with state := .armed, order := some (order n), actTimer := .due } }
        exec .activationTimerExpiry u = .next (switchBegun .handover .switching n u)) ∧
    (s.mob.actTimer ≠ .due → exec .activationTimerExpiry s = .next s) ∧
    (∀ n o, let u := { s with mob := { s.mob with state := .armed, order := some o, actTimer := .due } }
      o.target = n → orderHolds o s = false → exec .activationTimerExpiry u = .next (refused u)) ∧
    ∀ (n m : Fin 13) (o : Timer), s.cells.serving = some m → o.runs = true →
      let u := switchUnder .handover .switching n o s
      let v := { switchUnder .handover .switching n .stopped s with
        link := { s.link with hold := true, opSwitch := .stopped, askSwitch := none, unanswered := 0 } }
      exec (.transferOrder c d f) u = .next (eventPlaced (event s .transferRefused .none 0 d SwState.switching.code 0 0)
        { u with conn := (activity s).conn }) ∧
      exec (.switchDone true) u = .next (sent .transferDone
        { v with mob := { v.mob with confirming := true, confirmMsg := some s.link.nextId } }) ∧
      exec (.switchDone false) u = .next { v with
        mob := { v.mob with state := .fallback, confirmMsg := none }
        link := { v.link with
          opSwitch := .running 15, askSwitch := some (.switch (s.cells.slots[m]).carrier (s.cells.slots[m]).code) }
        out := { s.out with link := s.out.link ++ [.switch (s.cells.slots[m]).carrier (s.cells.slots[m]).code] } }) ∧
  (∀ (s : State) (b : Bool), linkOpen s = true → s.link.opSwitch.runs = true → exec (.switchDone b) s = .next (settle (
    switchOutcome b { s with link := { s.link with opSwitch := .stopped, askSwitch := none, unanswered := 0 } }))) ∧
  (∀ (s : State) (b : Bool) (w : SwRec),
    (s.mob.stale = true → switchOutcome b s =
      let t := { s with mob := { s.mob with stale := false } }
      if s.mob.orderDue then orderDue t else if s.mob.reestWaits then startReestablish false t else t) ∧
    (s.mob.stale = false → s.mob.state = .fallback → s.mob.switch = some w →
      let failed : State → State := fun t =>
        raise .mob (event t .handoverFailed .none Kind.cell.code (BitVec.ofNat 16 w.target.val) 0 Cause.sync.code 0) t
      (b = true → switchOutcome b s = endSwitch (failed (emitMsg (.transferFail .sync) s))) ∧
      (b = false → s.conn.state = .connected → switchOutcome b s = loseServing true (failed s)) ∧
      (b = false → s.conn.state = .camped → switchOutcome b s = forcedReselect (endSwitch (failed s))) ∧
      (b = false → s.conn.state ≠ .connected → s.conn.state ≠ .camped →
        switchOutcome b s = endSwitch (failed s)))) ∧
  (∀ (s : State) (w : SwRec), s.sleep.level ≠ .deep →
    commitHandover w s =
      let t := { s with mob := { s.mob with state := .committing } }
      publish (.handover w.target w.old (newArea w.target s))
        ([headerImage w.target t] ++ (w.old.toList.map (fun o => slotImage o t)) ++ [targetImage w.target t] ++ callImage t ++
          planImage none (newArea w.target s) t)
        { t with calls := { t.calls with gapHeld := false, gapOwed := [] } }) ∧
  (∀ (s : State) (n : Fin 13) (old : Option (Fin 13)) (area : Option Half) (live : Bool),
    let t := takeServing n s
    let u := { t with conn := { t.conn with area := match area with | some a => some a | none => t.conn.area } }
    published (.handover n old area) live s = if live then endSwitch (raise .mob (event u .handoverDone .none Kind.cell.code
      (BitVec.ofNat 16 n.val) 0 0 ((slotCode old).setWidth 32)) u) else u) ∧
  ∀ s : State, endSwitch s =
    let t := runPending (writeGaps { s with calls := { s.calls with switchOn := false } })
    let t := textSwitchEnd { t with speech := { t.speech with switchOn := false } }
    let t := processReload { t with
      link := { t.link with hold := false }
      cells := { t.cells with paced := true }
      mob := { t.mob with state := .idle, confirming := false, switch := none, confirmMsg := none } }
    if t.conn.state = .connected then considerReport (evaluateCandidates t) else t

/-- R77, R116, R109: SERVING-LOST in CONNECTED with a cell to go to begins a reestablishment switch to it; in OFF and NO-SERVICE,
during a shutdown and during a switch it is nothing. R117: REESTABLISH-ACCEPT makes the publication, here behind another; when it
takes effect the state is CONNECTED and the switch ends with HANDOVER-DONE. R78, R79, R113: the reestablishment timer's expiry leaves
service, the switch ends and a round begins. R121, R122: in CAMPED a round that is taken in full counts the rounds in which a slot
was better, and reselects to the best eligible slot; R123: SERVING-LOST in CAMPED reselects to the best slot at once, or leaves
service. Without its occasion a command changes nothing (the model's choice, log entry 3); outside CAMPED the counts are 0 while a
reselection commits too (log entry 71). The model's inferences too: an overtaken publication takes the registered area (log entry
52), the area is checked whenever a reselection takes effect (log entry 42), SERVING-LOST is discarded during any switch (log entry
22), and the epoch of the images written (log entry 69). -/
def Obligations.Reestablishment : Prop :=
  (∀ u : State, Calm u →
    (u.conn.state = .off ∨ u.conn.state = .noService ∨ u.conn.shutdown.isSome = true → exec .servingLost u = .next u) ∧
    (∀ n, u.conn.state = .connected → u.conn.shutdown = none → u.texts.send = none → u.link.opSwitch = .stopped →
      campChoice u true = some n →
      exec .servingLost u = .next (switchBegun .reestablishment .rebuilding n (connWritten .reestablishing { u with
        mob := { u.mob with reestWaits := false }
        conn := { u.conn with
          connectTimer := .stopped, areaTimer := .stopped, inactTimer := .stopped, reestTimer := .stopped, areaMsg := none } }))) ∧
    ∀ (n : Fin 13) (o : Timer), u.conn.state = .reestablishing → u.conn.reestTimer = o → u.conn.shutdown = none →
      u.link.opSwitch = .stopped →
      let s := switchUnder .reestablishment .rebuilding n .stopped u
      exec .servingLost s = .next s ∧
      (o ≠ .due → exec .reestablishmentTimerExpiry s = .next s) ∧
      (o = .stopped → exec .reestablishAccept s = .next s) ∧
      (∀ p, o.runs = true → exec .reestablishAccept { s with mem := { u.mem with pubs := [p] } } = .next { s with
        conn := { s.conn with reestTimer := .stopped }
        mob := { s.mob with state := .committing }
        calls := { s.calls with gapHeld := false }
        mem := { u.mem with
          nextPub := u.mem.nextPub + 1
          pubs := [p, {
            number := u.mem.nextPub, kind := .reestablishment n u.cells.serving (newArea n u), live := true
            images := [headerImage n { u with mem := { u.mem with pubs := [p] } }] ++ (u.cells.serving.toList.map (fun m => slotImage m u)) ++ [targetImage n u] ++
              callImage u ++ planImage (some .connected) (newArea n u) u }] } }) ∧
      (o = .due → callsFree u = true → (∀ r : Fin 4, (u.calls.recs[r]).pending = none) → u.texts.send = none →
        u.cells.reload = [] →
        let w := eventPlaced (event u .serviceLost .primary 0 0 0 0 0) (leftService u)
        let v := roundBegun { w with
          sleep := { u.sleep with quiet := 0 }
          calls := { u.calls with gapOwed := [] }
          cells := { u.cells with paced := true }
          mob := { s.mob with state := .idle, reestWaits := false, switch := none, confirmMsg := none } }
        ∀ m f, nextSlot v .serving = some (m, f) → exec .reestablishmentTimerExpiry s = .next (startMeasure m f v))) ∧
  (∀ (s : State) (n : Fin 13) (old : Option (Fin 13)) (area : Option Half),
    let t := takeServing n s
    let u := { t with conn := { t.conn with area := match area with | some a => some a | none => t.conn.area } }
    let v := serveConnected (afterConn u.conn.state .connected { u with conn := { u.conn with state := .connected } })
    published (.reestablishment n old area) false s = u ∧
    published (.reestablishment n old area) true s = endSwitch (raise .mob (event v .handoverDone .none Kind.cell.code
      (BitVec.ofNat 16 n.val) 0 0 0x100) v)) ∧
  (∀ (s : State) (n : Fin 13), betterAfter s n =
    if (s.cells.slots[n]).usable = true ∧ s.cells.serving ≠ some n then
      match servingLevel s, (s.cells.slots[n]).filtered with
      | some a, some b => if a + s.mob.reselMargin ≤ b then min 4 ((s.mob.slots[n]).better + 1) else 0
      | _, _ => 0
    else 0) ∧
  (∀ (s : State) (n : Fin 13), eligible s n = true ↔ campable s n = true ∧ s.cells.serving ≠ some n ∧
    (s.mob.reselRounds ≤ (s.mob.slots[n]).better ∨ servingLevel s = none ∨ ∃ l, servingLevel s = some l ∧ l < s.conn.campThr)) ∧
  (∀ s : State,
    (s.conn.state ≠ .camped → roundReselect s = setCounts (fun _ => 0) s) ∧
    (s.conn.state = .camped → s.mob.resel = true → roundReselect s = s) ∧
    (s.conn.state = .camped → s.mob.resel = false →
      let t := setCounts (betterAfter s) s
      (∀ n, bestSlot t (eligible t) = some n → roundReselect s = reselect n t) ∧
      (bestSlot t (eligible t) = none → roundReselect s = t)) ∧
    (s.mob.resel = true → forcedReselect s = s) ∧
    (s.mob.resel = false →
      (∀ n, campChoice s true = some n → forcedReselect s = reselect n s) ∧
      (campChoice s true = none → forcedReselect s = leaveService .radioLoss false s)) ∧
    (linkOpen s = true → s.conn.shutdown = none → switchOn s = false → s.conn.state = .camped →
      exec .servingLost s = .next (settle (forcedReselect s)))) ∧
  ∀ (s : State) (n : Fin 13) (old : Option (Fin 13)),
    (s.sleep.level ≠ .deep → reselect n s = publish (.reselection n s.cells.serving)
      ([headerImage n s] ++ (s.cells.serving.toList.map (fun o => slotImage o s)) ++ [targetImage n s])
      { s with mob := { s.mob with resel := true } }) ∧
    (s.sleep.level = .deep → reselect n s = reselected n s.cells.serving (dirtyServing n s.cells.serving false s)) ∧
    (∀ live, published (.reselection n old) live s = reselected n old s) ∧
    reselected n old s = areaCheck (
      let t := takeServing n { s with mob := { s.mob with resel := false } }
      raise .mob (event t .reselected .secondary Kind.cell.code (BitVec.ofNat 16 n.val) 0 0 ((slotCode old).setWidth 32)) t)

/-- R104: a slot is a candidate in CONNECTED while it is usable, not serving, and at or above the serving slot's level and the margin,
outside a switch; becoming one sets its frame and starts the hold timer, and ceasing to be one clears both. R105, R106: the hold and
report timers in CONNECTED. A candidate whose hold timer expires matures, and a LEVEL-REPORT with its
carrier, cell code and level is sent unless the report timer runs; at the report timer's expiry a matured candidate is reported.
Without its occasion a command changes nothing (the model's choice, log entry 3). That one event mirrors each slot it changed once,
in ascending slot order, is the model's inference (log entry 75). -/
def Obligations.LevelReports : Prop :=
  (∀ (u : State) (n : Fin 13) (l : Int), Calm u → (u.cells.slots[n]).filtered = some l →
    let x := u.cells.slots[n]
    let s : MobSlot → Timer → State := fun k r => { u with
      cells := { u.cells with slots := u.cells.slots.set n { x with candidate := true } }
      mob := { u.mob with slots := u.mob.slots.set n k, reportTimer := r } }
    let reported : State → State := fun t => sent (.levelReport [(x.carrier, x.code, l)])
      { t with mob := { t.mob with report := true, reportMsg := some u.link.nextId } }
    (∀ k : MobSlot, k.hold = .due →
      exec (.holdTimerExpiry n) (s k .stopped) = .next (reported (s { k with hold := .stopped, matured := true } .stopped)) ∧
      ∀ r : Timer, r.runs = true →
        exec (.holdTimerExpiry n) (s k r) = .next (s { k with hold := .stopped, matured := true } r)) ∧
    (∀ (k : MobSlot) (r : Timer), k.hold ≠ .due → exec (.holdTimerExpiry n) (s k r) = .next (s k r)) ∧
    (∀ k : MobSlot, k.matured = true → exec .reportTimerExpiry (s k .due) = .next (reported (s k .stopped))) ∧
    (u.mob.reportTimer = .due →
      exec .reportTimerExpiry u = .next { u with mob := { u.mob with reportTimer := .stopped } }) ∧
    (u.mob.reportTimer ≠ .due → exec .reportTimerExpiry u = .next u)) ∧
  (∀ (s : State) (n : Fin 13), candidateNow s n = true ↔ s.conn.state = .connected ∧ switchOn s = false ∧
    (s.cells.slots[n]).usable = true ∧ s.cells.serving ≠ some n ∧
    ∃ a b, servingLevel s = some a ∧ (s.cells.slots[n]).filtered = some b ∧ a + s.mob.margin ≤ b) ∧
  (∀ (s : State) (n : Fin 13),
    let was := (s.cells.slots[n]).candidate
    let put : Bool → Option FrameNo → Timer → State := fun c f k => { s with
      cells := { s.cells with slots := s.cells.slots.set n { s.cells.slots[n] with candidate := c, since := f } }
      mob := { s.mob with slots := s.mob.slots.set n { s.mob.slots[n] with hold := k, matured := false } } }
    (was = candidateNow s n → evaluateSlot s n = s) ∧
    (was = false → candidateNow s n = true → evaluateSlot s n = put true (some s.frame) (.running s.mob.holdLen)) ∧
    (was = true → candidateNow s n = false → evaluateSlot s n = put false none .stopped)) ∧
  ∀ s t : State, t = (List.finRange 13).foldl evaluateSlot s →
    evaluateCandidates s = (List.finRange 13).foldl (fun (u : State) (n : Fin 13) =>
      if t.cells.slots[n] = s.cells.slots[n] then u else mirror n u) t

/-! ## Calls and speech -/

/-- R128 to R135: a host request of a call record outside a switch, with nothing else going on: taken, its result written with its
code, the record's new state written and reported, its message placed; or refused with the result; a NONE is no request. R70, R71: an
ORIGINATE in CAMPED starts a connect. R135: a RELEASE of a DIALING record whose SETUP has not gone out makes it FREE at once; one of a
record whose SETUP is IN-FLIGHT, or with an exchange running, places RELEASE behind it, the exchange cleared and a swap partner going
on. R138: during a switch a request is stored as PENDING, an earlier one superseded, and at the end of the switch the stored requests
are taken in record order; a record that becomes FREE drops its stored request with REFUSED-STATE. No write is placed where no field
changed (the model's inference, log entry 31). Which messages a release withdraws, and what becomes of a SETUP IN-FLIGHT then, are the
model's choices (log entries 82, 81), as is that a notice of a known code under the unknown one's command is nothing (log entry 3). -/
def Obligations.CallRequests : Prop :=
  (∀ (s : State) (r : Fin 4), Calm s →
    let c := s.calls.recs[r]
    let told : Request → ReqResult → CallRec := fun q x => { c with reqCode := q.code, result := x }
    let refused : Request → ReqResult → State := fun q x => recWritten r (told q x) s
    (∀ n : Byte, n = BitVec.ofNat 8 (s.calls.lastRef.toNat % 255 + 1) → recByRef n s = none → c.state = .free →
      claimElsewhere r s = false → s.conn.state = .connected → s.conn.shutdown = none →
      exec (.requestOriginate r) s = .next (pumpIdle (joinRead (.dial r) (s.bind.line .call r.val) (recMoved r
        { told .originate .accepted with
          state := .dialing, ref := n, dir := .outgoing, start := s.frame, gaps := 0, endCause := none, caller := []
          stage := .notPlaced, dial := none, reading := true, timer := .running 3000 }
        { s with calls := { s.calls with lastRef := n } })))) ∧
    (∀ n : Byte, n = BitVec.ofNat 8 (s.calls.lastRef.toNat % 255 + 1) → recByRef n s = none → c.state = .free →
      claimElsewhere r s = false → s.conn.state = .camped → s.conn.shutdown = none → s.conn.purposes = [] →
      let t := recMoved r { told .originate .accepted with
          state := .dialing, ref := n, dir := .outgoing, start := s.frame, gaps := 0, endCause := none, caller := []
          stage := .notPlaced, dial := none, reading := true, timer := .running 3000 }
        { s with calls := { s.calls with lastRef := n } }
      exec (.requestOriginate r) s = .next (sent (.connectRequest .callOut) (joinRead (.dial r) (s.bind.line .call r.val)
        (connWritten .connecting { t with conn := { s.conn with
          purposes := [.callOut], attempts := 1, opening := some .callOut, connectTimer := .running 200
          reqMsg := some s.link.nextId, reqOld := [s.link.nextId] } })))) ∧
    (c.state ≠ .free → exec (.requestOriginate r) s = .next (refused .originate .refusedState)) ∧
    (c.state = .free → connSeen s = .off ∨ connSeen s = .noService →
      exec (.requestOriginate r) s = .next (refused .originate .refusedNoService)) ∧
    (c.state = .incoming → claimElsewhere r s = false → exec (.requestAnswer r) s = .next (pumpIdle (sent (.answer c.ref)
      (speechStart r (recMoved r { told .answer .accepted with state := .active, timer := .stopped } s))))) ∧
    (c.state = .incoming → claimElsewhere r s = true → exec (.requestAnswer r) s = .next (refused .answer .refusedActive)) ∧
    (c.state ≠ .incoming → exec (.requestAnswer r) s = .next (refused .answer .refusedState)) ∧
    (c.state = .active → c.exch = .none → exec (.requestHold r) s = .next (sent (.hold c.ref) (withRec r
      { told .hold .accepted with exch := .hold, partner := none, exchMsg := some s.link.nextId }
      (refused .hold .accepted)))) ∧
    (c.state ≠ .active ∨ c.exch ≠ .none → exec (.requestHold r) s = .next (refused .hold .refusedState)) ∧
    (c.state = .held → c.exch = .none → claimElsewhere r s = false →
      exec (.requestResume r) s = .next (sent (.resume c.ref) (withRec r
        { told .resume .accepted with exch := .resume, partner := none, exchMsg := some s.link.nextId }
        (refused .resume .accepted)))) ∧
    (c.state = .held → c.exch = .none → claimElsewhere r s = true →
      exec (.requestResume r) s = .next (refused .resume .refusedActive)) ∧
    (c.state ≠ .held ∨ c.exch ≠ .none → exec (.requestResume r) s = .next (refused .resume .refusedState)) ∧
    (∀ y, c.state = .held → c.exch = .none → swapPartner r s = some y →
      exec (.requestSwap r) s = .next (sent (.hold (s.calls.recs[y]).ref) (withRec y
        { s.calls.recs[y] with exch := .hold, partner := some r, exchMsg := some s.link.nextId }
        (recWritten r { told .swap .accepted with exch := .swapWait, partner := some y } s)))) ∧
    (c.state ≠ .held ∨ c.exch ≠ .none ∨ swapPartner r s = none →
      exec (.requestSwap r) s = .next (refused .swap .refusedState)) ∧
    (c.state = .dialing → c.stage = .notPlaced → c.exch = .none → c.reading = false → exec (.requestRelease r) s = .next (
      pumpIdle (recMoved r ((told .release .accepted).free .locl) (refused .release .accepted)))) ∧
    (c.state ≠ .free → c.state ≠ .releasing → (c.state = .dialing → c.stage = .sent) → c.reading = false →
      let left := { (told .release .accepted).clear with
        state := .releasing, relCause := some .locl, relMsg := some s.link.nextId, timer := .running 400 }
      let t := recMoved r left (refused .release .accepted)
      let u := if c.state = .active then speechStop t else t
      (c.exch = .none ∨ c.exch = .resume ∨ c.partner = none →
        exec (.requestRelease r) s = .next (sent (.release c.ref .locl) u)) ∧
      (∀ x, c.exch = .hold → c.partner = some x → x ≠ r →
        let y := s.calls.recs[x]
        exec (.requestRelease r) s = .next (
          let v := sent (.release c.ref .locl) (withRec x
            { y with exch := .resume, partner := none, exchMsg := some (s.link.nextId + 1) } u)
          { v with link := { v.link with
            nextId := s.link.nextId + 2, nextPlace := s.link.nextPlace + 2
            queue := v.link.queue ++ [{ id := s.link.nextId + 1, msg := .resume y.ref, inFlight := false
                                        place := s.link.nextPlace + 1, attempts := 0 }] } })) ∧
      (∀ x, c.exch = .swapWait → c.partner = some x → x ≠ r →
        exec (.requestRelease r) s = .next (sent (.release c.ref .locl)
          (withRec x { s.calls.recs[x] with partner := none } u)))) ∧
    (∀ (q : QMsg) (o : Timer), q.inFlight = true → o.runs = true → c.state = .dialing → c.stage = .placed →
      c.setupMsg = some q.id → c.exch = .none → c.reading = false →
      let t := recMoved r { (told .release .accepted).clear with
        state := .releasing, relCause := some .locl, relMsg := some s.link.nextId, timer := .running 400 }
        (refused .release .accepted)
      exec (.requestRelease r) (onAir q o s) = .next { t with link := { s.link with
        nextId := s.link.nextId + 1, nextPlace := s.link.nextPlace + 1, opSendSig := o, askSendSig := some (.sendSig q.msg)
        queue := [q, { id := s.link.nextId, msg := .release c.ref .locl, inFlight := false
                       place := s.link.nextPlace, attempts := 0 }] } }) ∧
    (c.state = .free → exec (.requestRelease r) s = .next (refused .release .refusedState)) ∧
    (c.state = .releasing → exec (.requestRelease r) s = .next (refused .release .accepted)) ∧
    exec (.requestUnknown r 0) s = .next s ∧
    ∀ code : Byte,
      (6 < code.toNat → exec (.requestUnknown r code) s = .next (recWritten r
        { c with reqCode := code, result := .refusedUnknown } s)) ∧
      (code.toNat ≤ 6 → exec (.requestUnknown r code) s = .next s)) ∧
  (∀ (s : State) (r : Fin 4) (cause : Cause),
    let c := s.calls.recs[r]
    let w := dropCapture r (withdrawCall c.ref s)
    let partner : State → State := fun t => match c.exch, c.partner with
      | .hold, some x => placeResume x t
      | .swapWait, some y => setRec y (fun y => { y with partner := none }) t
      | _, _ => t
    let gone : Prop := c.state = .dialing ∧ c.stage ≠ .sent ∧
      (c.stage = .placed → ∀ q ∈ s.link.queue, q.inFlight = true → c.setupMsg ≠ some q.id)
    (c.state ≠ .free → takeRequest r .release s = releaseRec r .locl
      (setRec r (fun x => { x with reqCode := 6, result := .accepted }) s)) ∧
    (c.state = .free ∨ c.state = .releasing → releaseRec r cause s = s) ∧
    (gone → releaseRec r cause s = partner (changeState r (CallRec.free cause) w)) ∧
    (c.state ≠ .free → c.state ≠ .releasing → ¬ gone → releaseRec r cause s = partner (changeState r (fun x => { x.clear with
      state := .releasing, relCause := some cause, relMsg := some w.link.nextId, timer := .running 400 })
      (emitMsg (.release c.ref cause) w)))) ∧
  (∀ (s : State) (ref : Byte),
    let gone : QMsg → Bool := fun q => !q.inFlight && (match q.msg with
      | .setup n _ | .answer n | .hold n | .resume n | .release n _ => n == ref
      | _ => false)
    withdrawCall ref s = { s with
      link := joinOutside { s.link with
        queue := s.link.queue.filter (fun q => !gone q), outside := s.link.outside.filter (fun q => !gone q) }
      mem := { s.mem with waits := s.mem.waits.map (fun w => { w with acts := w.acts.filter (fun a => match a with
        | .msg i m => !gone { id := i, msg := m, inFlight := false, place := 0, attempts := 0 }
        | _ => true) }) } }) ∧
  (∀ (c : CallRec) (cause : Cause), c.free cause = { c with
    state := .free, endCause := some cause, timer := .stopped, exch := .none, partner := none, exchMsg := none, setupMsg := none
    relMsg := none, relCause := none, dial := none, reading := false, stage := .notPlaced, pending := none
    reqCode := match c.pending with | some q => q.code | none => c.reqCode
    result := if c.pending.isSome then .refusedState else c.result }) ∧
  (∀ (s : State) (r : Fin 4) (q : Request), s.calls.switchOn = true → callRequest r q s =
    let c := s.calls.recs[r]
    let t := setRec r (fun x => { x with reqCode := q.code, result := .pending, pending := some q }) s
    if c.pending.isSome then raise .calls (event t .callState .none Kind.call.code (BitVec.ofNat 16 r.val)
      (t.calls.recs[r]).state.code Cause.superseded.code 0) t else t) ∧
  (∀ (s : State) (r : Fin 4) (q : Request), s.calls.switchOn = false → callRequest r q s = takeRequest r q s) ∧
  (∀ (s : State) (r : Fin 4), noticeOpen s = true →
    exec (.requestOriginate r) s = .next (settle (callRequest r .originate s)) ∧
    exec (.requestAnswer r) s = .next (settle (callRequest r .answer s)) ∧
    exec (.requestHold r) s = .next (settle (callRequest r .hold s)) ∧
    exec (.requestResume r) s = .next (settle (callRequest r .resume s)) ∧
    exec (.requestSwap r) s = .next (settle (callRequest r .swap s)) ∧
    exec (.requestRelease r) s = .next (settle (callRequest r .release s))) ∧
  ∀ s : State, runPending s = (List.finRange 4).foldl (fun t r =>
    match (t.calls.recs[r]).pending with
    | some q => takeRequest r q (setRec r (fun x => { x with pending := none }) t)
    | none => t) s

/-- R131, R133 to R136: the network's messages about a record that holds their reference, outside a switch. A message that does not fit
the record's state changes nothing. R136: an OFFER whose reference no record holds is taken by the first FREE record in CONNECTED,
refused as BUSY where no record is FREE, and not taken without a connection; a RELEASE whose reference no record holds is answered all
the same. R130: a capture read still outstanding when RINGING or CONNECT moves its record on is not taken when it completes. -/
def Obligations.CallMessages : Prop :=
  (∀ (s : State) (r : Fin 4) (ref : Byte), Calm s → ref ≠ 0 → recByRef ref s = some r →
    let c := s.calls.recs[r]
    let ended := { c with exch := .none, partner := none, exchMsg := none, timer := .stopped }
    let freed : Cause → State := fun cause =>
      let t := recMoved r (c.free cause) s
      if c.state = .active then speechStop t else t
    (c.state = .dialing → exec (.ringing ref) s =
      .next (recMoved r { c with state := .ringingOut, reading := false, timer := .running 6000 } s)) ∧
    (c.state ≠ .dialing → exec (.ringing ref) s = .next s) ∧
    (c.state = .dialing ∨ c.state = .ringingOut → exec (.connect ref) s =
      .next (speechStart r (recMoved r { c with state := .active, reading := false, timer := .stopped } s))) ∧
    (c.state ≠ .dialing → c.state ≠ .ringingOut → exec (.connect ref) s = .next s) ∧
    (c.state = .active → c.exch = .hold → c.partner = none →
      exec (.holdAccept ref) s = .next (speechStop (recMoved r { ended with state := .held } s))) ∧
    (∀ x, c.state = .active → c.exch = .hold → c.partner = some x → x ≠ r →
      exec (.holdAccept ref) s = .next (sent (.resume (s.calls.recs[x]).ref) (withRec x
        { s.calls.recs[x] with exch := .resume, partner := none, exchMsg := some s.link.nextId }
        (speechStop (recMoved r { ended with state := .held } s))))) ∧
    (c.state ≠ .active ∨ c.exch ≠ .hold → exec (.holdAccept ref) s = .next s) ∧
    (c.state = .held → c.exch = .resume → exec (.resumeAccept ref) s =
      .next (speechStart r (recMoved r { c with state := .active, exch := .none, exchMsg := none, timer := .stopped } s))) ∧
    (c.state ≠ .held ∨ c.exch ≠ .resume → exec (.resumeAccept ref) s = .next s) ∧
    (∀ code : Byte, c.exch = .none → c.reading = false →
      exec (.release ref code) s = .next (pumpIdle (sent (.releaseDone ref) (freed (endCauseOf code))))) ∧
    (c.state = .releasing → c.reading = false →
      exec (.releaseDone ref) s = .next (pumpIdle (freed (c.relCause.getD .locl)))) ∧
    (c.state ≠ .releasing → exec (.releaseDone ref) s = .next s)) ∧
  (∀ (s : State) (ref : Byte) (caller : List Digit), Calm s → ref ≠ 0 → digitsValid 0 caller = true → recByRef ref s = none →
    (∀ r : Fin 4, s.conn.state = .connected → s.conn.shutdown = none → (s.calls.recs[r]).state = .free →
      (∀ q : Fin 4, q < r → (s.calls.recs[q]).state ≠ .free) →
      exec (.offer ref caller) s = .next (pumpIdle (recMoved r { s.calls.recs[r] with
        state := .incoming, ref := ref, dir := .incoming, caller := caller, start := s.frame, gaps := 0
        endCause := none, timer := .running 6000 } (activity s)))) ∧
    (s.conn.state = .connected → s.conn.shutdown = none → (∀ r : Fin 4, (s.calls.recs[r]).state ≠ .free) →
      exec (.offer ref caller) s = .next (sent (.release ref .busy) s)) ∧
    (s.conn.state ≠ .connected → s.conn.state ≠ .reestablishing → exec (.offer ref caller) s = .next s) ∧
    ∀ code : Byte, exec (.release ref code) s = .next (sent (.releaseDone ref) (activity s))) ∧
  (∀ (s : State) (r : Fin 4) (ref : Byte), linkOpen s = true → ref ≠ 0 → recByRef ref (activity s) = some r →
    let u := activity s
    let c := u.calls.recs[r]
    (c.state = .dialing → exec (.ringing ref) s = .next (settle (changeState r
      (fun c => { c with state := .ringingOut, reading := false, timer := .running 6000 }) (dropCapture r u)))) ∧
    (c.state = .dialing ∨ c.state = .ringingOut → exec (.connect ref) s = .next (settle (changeState r
      (fun c => { c with state := .active, reading := false, timer := .stopped }) (dropCapture r u))))) ∧
  (∀ (s : State) (r : Fin 4),
    let t := dropCapture r s
    ((s.calls.recs[r]).reading = false → t = s) ∧
    ((s.calls.recs[r]).reading = true → t.mem.reads =
      s.mem.reads.map (fun e => if e.for_ = .dial r then { e with discard := true } else e)) ∧
    t = { s with mem := { s.mem with reads := t.mem.reads, waits := t.mem.waits, readWaits := t.mem.readWaits } }) ∧
  ∀ (s t : State) (r : Fin 4) (l : BitVec 26) (e : ReadEntry) (data : List Byte) (err : Bool) (c : Completed),
    dueRead (· == .dial r) l.toNat s.mem = some e → e.discard = true → completeRead e data err s = some (c, t) →
    exec (.dialStringCaptured r ⟨l, data⟩ err) s = .next (settle t)

/-- R130, R131: the capture of a dial string in CONNECTED. A number with at least one digit is captured and SETUP placed; another
frees the record with BAD-NUMBER; an error of the memory port frees it with MEMORY, after MEMORY-ERROR. R133, R135, R137: the call
timers. A DIALING record whose SETUP has gone out, and a RINGING-OUT or INCOMING record, is released with the timer's cause; an
exchange fails; a RELEASING record becomes FREE. A timer that is not due does nothing. Without its occasion a command changes
nothing (the model's choice, log entry 3). -/
def Obligations.CallTimers : Prop :=
  (∀ (u : State) (r : Fin 4) (e : ReadEntry) (l : BitVec 26) (data : List Byte), Calm u → u.mem.inFlight = [] →
    e.for_ = .dial r → e.line = l.toNat → e.status = .inFlight → e.discard = false → (u.calls.recs[r]).state = .dialing →
    (u.calls.recs[r]).reading = true → (u.calls.recs[r]).stage = .notPlaced → u.conn.state = .connected →
    let c := u.calls.recs[r]
    let s := { u with mem := { u.mem with reads := [e], inFlight := [.read e.arrived e.line] } }
    let line := composeLine (fitTo 64 data) (upperLayers u.mem e.line)
    (∀ d ds, digitsOf line 1 = some (d :: ds) → exec (.dialStringCaptured r ⟨l, data⟩ false) s =
      .next (sent (.setup c.ref (d :: ds)) (withRec r
        { c with reading := false, dial := some (d :: ds), stage := .placed, setupMsg := some u.link.nextId } u))) ∧
    (digitsOf line 1 = none ∨ digitsOf line 1 = some [] → exec (.dialStringCaptured r ⟨l, data⟩ false) s =
      .next (pumpIdle (recMoved r (c.free .badNumber) (withRec r { c with reading := false } u)))) ∧
    (occupancy (u.events.producer + 1) u.events.consumer < u.bind.capacity → exec (.dialStringCaptured r ⟨l, data⟩ true) s =
      .next (pumpIdle (recMoved r (c.free .memory) (eventPlaced (event u .memoryError .none (Sys2Proof.Machine.Job.code .calls) 0 0 0
        (BitVec.ofNat 32 (64 * (u.bind.line .call r.val)))) (withRec r { c with reading := false } u)))))) ∧
  (∀ (s : State) (r : Fin 4), Calm s →
    let c := s.calls.recs[r]
    let ended := { c with exch := .none, partner := none, exchMsg := none, timer := .stopped }
    let released : Cause → State := fun cause => sent (.release c.ref cause) (recMoved r { c.clear with
      state := .releasing, relCause := some cause, relMsg := some s.link.nextId, timer := .running 400 } s)
    (c.timer = .due → c.exch = .none → c.reading = false →
      (c.state = .dialing → c.stage = .sent → exec (.dialingTimerExpiry r) s = .next (released .noAnswer)) ∧
      (c.state = .dialing → c.stage = .notPlaced →
        exec (.dialingTimerExpiry r) s = .next (pumpIdle (recMoved r (c.free .noAnswer) s))) ∧
      (c.state = .ringingOut → exec (.ringingOutTimerExpiry r) s = .next (released .noAnswer)) ∧
      (c.state = .incoming → exec (.incomingTimerExpiry r) s = .next (released .unanswered)) ∧
      (c.state = .releasing →
        exec (.releasingTimerExpiry r) s = .next (pumpIdle (recMoved r (c.free (c.relCause.getD .locl)) s)))) ∧
    (c.timer = .due → c.state = .active ∨ c.state = .held →
      (∀ x, c.exch = .hold → c.partner = some x → x ≠ r → exec (.exchangeTimerExpiry r) s =
        .next (eventPlaced (callStateEvent s x (s.calls.recs[x]).state (some .holdFailed)) (withRec x
          { s.calls.recs[x] with exch := .none, partner := none, exchMsg := none, timer := .stopped } (withRec r ended s)))) ∧
      (c.exch = .hold → c.partner = none → exec (.exchangeTimerExpiry r) s =
        .next (eventPlaced (callStateEvent s r c.state (some .holdFailed)) (withRec r ended s))) ∧
      (c.exch = .resume → exec (.exchangeTimerExpiry r) s =
        .next (eventPlaced (callStateEvent s r c.state (some .resumeFailed)) (withRec r ended s)))) ∧
    (c.timer ≠ .due → exec (.dialingTimerExpiry r) s = .next s ∧ exec (.ringingOutTimerExpiry r) s = .next s ∧
      exec (.incomingTimerExpiry r) s = .next s ∧ exec (.exchangeTimerExpiry r) s = .next s ∧
      exec (.releasingTimerExpiry r) s = .next s))

/-- R144, R145, R147, R149, R150: the notices of the speech rings; a speech frame from the air, stored and marked as speech, or dropped
against a full ring; and the start and stop of the speaking record, where the uplink ring is resynchronised. R147, R44: the speech
fetch completes for the record that placed it: the frame leaves in time, silence in its place after an error of the memory port, and
the uplink consumer rises; a frame that comes late, or for a record that speaks no more, is not sent. -/
def Obligations.Speech : Prop :=
  ((∀ (s : State) (v : Byte), Calm s →
    (s.speech.speaking = none ∨ occupancy v s.speech.upCons ≤ 8 →
      exec (.uplinkProducerWrite v) s = .next { s with speech := { s.speech with upProd := v } }) ∧
    (s.speech.speaking ≠ none → 8 < occupancy v s.speech.upCons →
      exec (.uplinkProducerWrite v) s = .next (eventPlaced (configIgnored s .speech 0xFFFF 0x00) s)) ∧
    (occupancy s.speech.downProd v ≤ 8 →
      exec (.downlinkConsumerWrite v) s = .next { s with speech := { s.speech with downCons := v } }) ∧
    (8 < occupancy s.speech.downProd v →
      exec (.downlinkConsumerWrite v) s = .next (eventPlaced (configIgnored s .speech 0xFFFF 0x03) s))) ∧
  (∀ (s : State) (frame : List Byte), Calm s →
    (s.speech.speaking = none → exec (.speechIn frame) s = .next s) ∧
    (s.speech.speaking ≠ none → 8 ≤ downOccupancy s.speech → exec (.speechIn frame) s = .next (activity s)) ∧
    (s.speech.speaking ≠ none → downOccupancy s.speech < 8 → frame.length = 64 → exec (.speechIn frame) s = .next (
      joinWrite (writeAt s .speech 0 [(2, s.speech.downProd + 1)]) (joinWrite
        { line := s.bind.line .speech (9 + s.speech.downProd.toNat % 8), bytes := bytesAt 0 frame, speech := true
          note := .none }
        { activity s with speech := { s.speech with downProd := s.speech.downProd + 1, heldFrame := none } })))) ∧
  ∀ (s : State) (r : Fin 4), s.mem.waits = [] → Room 1 s →
    let stale := s.speech.fetchStale || s.speech.fetch != .idle
    let t := { s with speech := { s.speech with speaking := some r, upCons := s.speech.upProd, fetchStale := stale } }
    (s.speech.upCons = s.speech.upProd → speechStart r s = t) ∧
    (s.speech.upCons ≠ s.speech.upProd → speechStart r s = joinWrite (writeAt s .speech 0 [(1, s.speech.upProd)]) t) ∧
    speechStop s = { s with speech := { s.speech with speaking := none, heldFrame := none, fetchStale := stale } }) ∧
  (∀ (u : State) (e : ReadEntry) (l : BitVec 26) (data : List Byte), Calm u → u.mem.inFlight = [] → e.for_ = .speech →
    e.line = l.toNat → e.status = .inFlight → e.discard = false → u.speech.fetch ≠ .idle →
    let s := { u with mem := { u.mem with reads := [e], inFlight := [.read e.arrived e.line] } }
    let line := composeLine (fitTo 64 data) (upperLayers u.mem e.line)
    let idle : Byte → State := fun up =>
      { u with speech := { u.speech with fetch := .idle, fetchStale := false, upCons := up } }
    let out : List Byte → State := fun frame =>
      let t := idle (u.speech.upCons + 1)
      activity { t with out := { t.out with link := t.out.link ++ [.sendSpeech frame] } }
    let header := writeAt u .speech 0 [(1, u.speech.upCons + 1)]
    (∀ k, u.speech.fetchStale = false → u.speech.fetch = .fetching k →
      exec (.speechFetchDone ⟨l, data⟩ false) s = .next (joinWrite header (out line)) ∧
      exec (.speechFetchDone ⟨l, data⟩ true) s = .next (joinWrite header (eventPlaced
        (event u .memoryError .none (Sys2Proof.Machine.Job.code .speech) 0 0 0 (BitVec.ofNat 32 (64 * e.line)))
        (out (List.replicate 64 0))))) ∧
    (u.speech.fetchStale = false → u.speech.fetch = .late → exec (.speechFetchDone ⟨l, data⟩ false) s =
      .next (joinWrite header (idle (u.speech.upCons + 1)))) ∧
    (u.speech.fetchStale = true → exec (.speechFetchDone ⟨l, data⟩ false) s = .next (idle u.speech.upCons)))

/-! ## Texts -/

/-- R154 to R157: the notices of the outbox: a producer too far ahead or gone back, one more text submitted while another is sent,
or submitted in CONNECTED with the outbox empty, where its send begins; several texts submitted by one notice, each descriptor QUEUED
in ring order; and a cancel. No write is placed where no field changed
(the model's inference, log entry 31). -/
def Obligations.OutboxNotices : Prop :=
  (∀ (s : State) (v : Byte), noticeOpen s = true → occupancy v s.texts.retire ≤ 16 →
    occupancy s.texts.prod s.texts.retire ≤ occupancy v s.texts.retire →
    exec (.outboxProducerWrite v) s = .next (settle (
      let t := (List.range (occupancy v s.texts.retire - occupancy s.texts.prod s.texts.retire)).foldl (fun t j =>
        setDesc (descOf (s.texts.prod + BitVec.ofNat 8 j))
          (fun _ => { state := .queued, attempts := 0, fail := none, ref := 0 }) t) s
      { t with texts := { t.texts with prod := v } }))) ∧
  ∀ s : State, Calm s →
    (∀ v : Byte, 16 < occupancy v s.texts.retire → exec (.outboxProducerWrite v) s = .next (eventPlaced
      (event s .outboxOverrun .none Kind.outbox.code 0xFFFF 0 0 (BitVec.ofNat 32 (occupancy v s.texts.retire))) s)) ∧
    (∀ v : Byte, occupancy v s.texts.retire ≤ 16 → occupancy v s.texts.retire < occupancy s.texts.prod s.texts.retire →
      exec (.outboxProducerWrite v) s = .next (eventPlaced (configIgnored s .outbox 0xFFFF 0x00) s)) ∧
    (s.texts.send.isSome = true → occupancy s.texts.prod s.texts.retire < 16 →
      exec (.outboxProducerWrite (s.texts.prod + 1)) s = .next (
        let t := descWritten (descOf s.texts.prod) { state := .queued, attempts := 0, fail := none, ref := 0 } s
        { t with texts := { t.texts with prod := s.texts.prod + 1 } })) ∧
    (s.texts.send = none → s.texts.retryTimer.runs = false → s.conn.state = .connected → s.conn.shutdown = none →
      exec (.outboxProducerWrite (s.texts.prod + 1)) s = .next (
        let n := descOf s.texts.prod
        let t := descWritten n { state := .queued, attempts := 0, fail := none, ref := 0 } s
        let x : Send := { desc := n, ref := s.texts.lastRef + 1, address := 0, length := 0, dest := [], lines := [], body := []
                          count := 0, cur := 0, status := .reading, ackTimer := .stopped, cancel := false }
        pumpIdle (joinRead .descriptor (s.bind.line .outbox (descLine n.val))
          (descWritten n { state := .sending, attempts := 0, fail := none, ref := s.texts.lastRef + 1 }
            { t with texts := { t.texts with
              prod := s.texts.prod + 1, send := some x, lastRef := s.texts.lastRef + 1 } })))) ∧
    ∀ n : Fin 16,
      exec (.cancelWordWrite n 0) s = .next s ∧
      (∀ v : Byte, 1 < v.toNat →
        exec (.cancelWordWrite n v) s = .next (eventPlaced (configIgnored s .outbox (BitVec.ofNat 16 n.val) 0x06) s)) ∧
      ((s.texts.descs[n]).state = .queued → s.texts.send.isSome = true → exec (.cancelWordWrite n 1) s = .next (textDone n
        { s.texts.descs[n] with state := .cancelled, fail := none } s)) ∧
      (∀ x, s.texts.send = some x → (s.texts.descs[n]).state = .sending → x.status = .awaiting →
        exec (.cancelWordWrite n 1) s = .next { s with texts := { s.texts with send := some { x with cancel := true } } }) ∧
      ((s.texts.descs[n]).state ≠ .queued → (s.texts.descs[n]).state ≠ .sending →
        exec (.cancelWordWrite n 1) s = .next s)

/-- R158, R159: the capture of a submitted text: its descriptor is read and checked, then its body, whose lines are read in ascending
order, at most four of the reads held at once, and captured in whatever order they complete; with the last of them the first segment
is placed. A bad length, a bad number or an error of the memory port ends it as FAILED. R44: a read of a text that the text controller
has discarded changes nothing, but an error of it raises MEMORY-ERROR; one left at the end of an unbinding raises none (R16). R160: the
acknowledgement of the current segment, or its timer. The last segment acknowledged ends the text as SENT, another is followed by the
next one; a full or busy inbox ends it as FAILED; without an answer the segment is sent three times. R156: after a text that ends, the
next one submitted is sent; a failed connect counts an attempt of the head and starts the retry timer, and at its expiry the head is
considered again: sent in CONNECTED, a connect started in CAMPED, TEXT-OUT added in CONNECTING. With no head QUEUED no timer starts (the
model's choice, log entry 87). -/
def Obligations.OutboxSending : Prop :=
  (∀ (u : State) (x : Send) (e : ReadEntry) (l : BitVec 26) (data : List Byte), Calm u → u.mem.inFlight = [] →
    u.texts.send = some x → e.line = l.toNat → x.status = .reading → x.desc = descOf u.texts.retire → u.texts.prod = u.texts.retire + 1 → e.status = .inFlight →
    e.discard = false →
    let s := { u with mem := { u.mem with reads := [e], inFlight := [.read e.arrived e.line] } }
    let line := composeLine (fitTo 64 data) (upperLayers u.mem e.line)
    let o := 32 * (x.desc.val % 2)
    let address := wordOf line o
    let length := (halfOf line (o + 4)).toNat
    let failed : Cause → State → State := fun cause t => pumpIdle (textDone x.desc
      { u.texts.descs[x.desc] with state := .failed, fail := some cause } { t with texts := { t.texts with send := none } })
    let memoryGone : Nat → State := fun l => eventPlaced (event u .memoryError .none (Sys2Proof.Machine.Job.code .texts) 0 0 0
      (BitVec.ofNat 32 (64 * l))) u
    (e.for_ = .descriptor →
      (length < 1 ∨ 640 < length ∨ 0x100000000 < address.toNat + length →
        exec (.descriptorReadDone ⟨l, data⟩ false) s = .next (failed .badLength u)) ∧
      (1 ≤ length → length ≤ 640 → address.toNat + length ≤ 0x100000000 →
        (digitsOf line (o + 7) = none ∨ digitsOf line (o + 7) = some [] →
          exec (.descriptorReadDone ⟨l, data⟩ false) s = .next (failed .badNumber u)) ∧
        (∀ d ds, digitsOf line (o + 7) = some (d :: ds) → address.toNat % 64 + length ≤ 64 →
          exec (.descriptorReadDone ⟨l, data⟩ false) s = .next (joinRead (.body 0) (address.toNat / 64) { u with texts :=
            { u.texts with send := some { x with
              address := address, length := length, dest := d :: ds, lines := [] } } }))) ∧
      (occupancy (u.events.producer + 1) u.events.consumer < u.bind.capacity →
        exec (.descriptorReadDone ⟨l, data⟩ true) s = .next (failed .memory (memoryGone e.line)))) ∧
    (e.for_ = .body 0 → x.lines = [] → 1 ≤ x.length → x.address.toNat % 64 + x.length ≤ 64 →
      exec (.bodyReadDone 0 ⟨l, data⟩ false) s = .next (
        let body := (line.drop (x.address.toNat % 64)).take x.length
        sent (.textSegment x.ref x.dest (BitVec.ofNat 8 0) (BitVec.ofNat 8 1) body) { u with texts := { u.texts with
          send := some { x with
            body := body, lines := [], count := 1, cur := 0, status := .placed u.link.nextId, ackTimer := .stopped } } }) ∧
      (occupancy (u.events.producer + 1) u.events.consumer < u.bind.capacity →
        exec (.bodyReadDone 0 ⟨l, data⟩ true) s = .next (failed .memory (memoryGone e.line)))) ∧
    (e.for_ = .descriptor → 1 ≤ length → length ≤ 640 → address.toNat + length ≤ 0x100000000 →
      ∀ d ds, digitsOf line (o + 7) = some (d :: ds) →
        let first := address.toNat / 64
        let n := (address.toNat + length - 1) / 64 - first + 1
        ∃ t, exec (.descriptorReadDone ⟨l, data⟩ false) s = .next t ∧
          t.mem.reads.map (fun r => (r.for_, r.line)) = (List.range (min 4 n)).map (fun k => (.body k, first + k)) ∧
          t.mem.readWaits.flatMap (·.reads) = ((List.range n).drop 4).map (fun k => (.body k, first + k)) ∧
          t.texts = { u.texts with send := some { x with
            address := address, length := length, dest := d :: ds, lines := [] } } ∧
          { t with mem := u.mem, texts := u.texts } = u) ∧
    (∀ k : Fin 11, e.for_ = .body k.val → 1 ≤ x.length → x.length ≤ 640 →
      let got := x.lines ++ [(k.val, line)]
      let n := (x.address.toNat + x.length - 1) / 64 - x.address.toNat / 64 + 1
      (got.length < n → exec (.bodyReadDone k ⟨l, data⟩ false) s =
        .next { u with texts := { u.texts with send := some { x with lines := got } } }) ∧
      (∀ ls : List (List Byte), ls.length = n → got.Perm ((List.range n).zip ls) →
        let body := (ls.flatten.drop (x.address.toNat % 64)).take x.length
        exec (.bodyReadDone k ⟨l, data⟩ false) s = .next (
          let count := (x.length + 159) / 160
          sent (.textSegment x.ref x.dest 0 (BitVec.ofNat 8 count) (body.take 160)) { u with texts := { u.texts with
            send := some { x with body := body, lines := [], count := count, cur := 0, status := .placed u.link.nextId
                                  ackTimer := .stopped } } })) ∧
      (occupancy (u.events.producer + 1) u.events.consumer < u.bind.capacity →
        exec (.bodyReadDone k ⟨l, data⟩ true) s = .next (failed .memory (memoryGone e.line))))) ∧
  (∀ (u : State) (e : ReadEntry) (l : BitVec 26) (data : List Byte), Calm u → u.mem.inFlight = [] → e.line = l.toNat →
    e.status = .inFlight → e.discard = true →
    let s := { u with mem := { u.mem with reads := [e], inFlight := [.read e.arrived e.line] } }
    let gone := eventPlaced (event u .memoryError .none (Sys2Proof.Machine.Job.code .texts) 0 0 0
      (BitVec.ofNat 32 (64 * e.line))) u
    (e.for_ = .descriptor → exec (.descriptorReadDone ⟨l, data⟩ false) s = .next u ∧
      (e.quiet = false → exec (.descriptorReadDone ⟨l, data⟩ true) s = .next gone) ∧
      (e.quiet = true → exec (.descriptorReadDone ⟨l, data⟩ true) s = .next u)) ∧
    ∀ k : Fin 11, e.for_ = .body k.val → exec (.bodyReadDone k ⟨l, data⟩ false) s = .next u ∧
      (e.quiet = false → exec (.bodyReadDone k ⟨l, data⟩ true) s = .next gone) ∧
      (e.quiet = true → exec (.bodyReadDone k ⟨l, data⟩ true) s = .next u)) ∧
  (∀ (s : State) (x : Send), Calm s → s.texts.send = some x → x.status = .awaiting → x.desc = descOf s.texts.retire →
    s.texts.prod = s.texts.retire + 1 → x.count ≤ 4 →
    let d := s.texts.descs[x.desc]
    let ended : DescState → Option Cause → Nat → State := fun st cause k => pumpIdle (textDone x.desc
      { d with state := st, fail := cause, attempts := k } { s with texts := { s.texts with send := none } })
    let placed : Nat → State → State := fun i t =>
      sent (.textSegment x.ref x.dest (BitVec.ofNat 8 i) (BitVec.ofNat 8 x.count) (x.segment i)) { t with texts := { t.texts with
        send := some { x with cur := i, status := .placed s.link.nextId, ackTimer := .stopped } } }
    let k := min 3 (d.attempts + 1)
    (∀ index : Byte, index.toNat = x.cur → index.toNat < x.count →
      (x.cur + 1 = x.count → exec (.segmentAck x.ref index .ok) s = .next (ended .sent none d.attempts)) ∧
      (x.cur + 1 < x.count → x.cancel = false → exec (.segmentAck x.ref index .ok) s = .next (placed (x.cur + 1) s)) ∧
      (x.cancel = false → exec (.segmentAck x.ref index .inboxFull) s = .next (ended .failed (some .inboxFull) d.attempts) ∧
        exec (.segmentAck x.ref index .busy) s = .next (ended .failed (some .busy) d.attempts))) ∧
    (∀ (ref index : Byte) (res : AckResult), ref ≠ x.ref ∨ index.toNat ≠ x.cur →
      exec (.segmentAck ref index res) s = .next s) ∧
    (x.ackTimer = .due →
      (x.cancel = true → exec .ackTimerExpiry s = .next (ended .cancelled none d.attempts)) ∧
      (x.cancel = false → k = 3 → exec .ackTimerExpiry s = .next (ended .failed (some .noAck) 3)) ∧
      (x.cancel = false → k < 3 → exec .ackTimerExpiry s = .next (placed x.cur (descWritten x.desc
        { d with attempts := k } s)))) ∧
    (s.texts.retryTimer = .due →
      exec .retryTimerExpiry s = .next { s with texts := { s.texts with retryTimer := .stopped } })) ∧
  (∀ (s : State) (x : Send) (index : Byte), Calm s → s.texts.send = some x → x.status = .awaiting → index.toNat = x.cur →
    index.toNat < x.count → x.cur + 1 = x.count → s.conn.state = .connected → s.conn.shutdown = none →
    s.texts.retryTimer.runs = false →
    let t := textDone x.desc { s.texts.descs[x.desc] with state := .sent, fail := none }
      { s with texts := { s.texts with send := none } }
    let n := descOf t.texts.retire
    t.texts.retire ≠ t.texts.prod → (t.texts.descs[n]).state = .queued →
    let y : Send := { desc := n, ref := s.texts.lastRef + 1, address := 0, length := 0, dest := [], lines := [], body := []
                      count := 0, cur := 0, status := .reading, ackTimer := .stopped, cancel := false }
    exec (.segmentAck x.ref index .ok) s = .next (pumpIdle (joinRead .descriptor (s.bind.line .outbox (descLine n.val))
      (descWritten n { t.texts.descs[n] with state := .sending, ref := s.texts.lastRef + 1 }
        { t with texts := { t.texts with send := some y, lastRef := s.texts.lastRef + 1 } })))) ∧
  (∀ (u : State) (p : Byte), Calm u → u.texts.send = none → p ≠ u.texts.retire → u.conn.shutdown = none →
    let n := descOf u.texts.retire
    (u.texts.descs[n]).state = .queued →
    let s := { u with texts := { u.texts with prod := p, retryTimer := .due } }
    let t := { u with texts := { u.texts with prod := p, retryTimer := .stopped } }
    let asked := { t with conn := { u.conn with purposes := u.conn.purposes ++ [.textOut] } }
    (u.conn.state = .off ∨ u.conn.state = .noService ∨ u.conn.state = .reestablishing →
      exec .retryTimerExpiry s = .next t) ∧
    (u.conn.state = .connecting →
      exec .retryTimerExpiry s = .next (if .textOut ∈ u.conn.purposes then t else asked)) ∧
    (u.conn.state = .camped → .textOut ∉ u.conn.purposes → exec .retryTimerExpiry s = .next (sent (.connectRequest .textOut)
      (connWritten .connecting { asked with conn := { asked.conn with
        attempts := 1, opening := some .textOut, connectTimer := .running 200, reqMsg := some u.link.nextId
        reqOld := [u.link.nextId] } }))) ∧
    (u.conn.state = .connected →
      let y : Send := { desc := n, ref := u.texts.lastRef + 1, address := 0, length := 0, dest := [], lines := [], body := []
                        count := 0, cur := 0, status := .reading, ackTimer := .stopped, cancel := false }
      exec .retryTimerExpiry s = .next (pumpIdle (joinRead .descriptor (u.bind.line .outbox (descLine n.val))
        (descWritten n { u.texts.descs[n] with state := .sending, ref := u.texts.lastRef + 1 }
          { t with texts := { t.texts with send := some y, lastRef := u.texts.lastRef + 1 } }))))) ∧
  ∀ s : State,
    let n := descOf s.texts.retire
    let d := s.texts.descs[n]
    let t := { s with texts := { s.texts with retryTimer := .running s.sleep.base } }
    (s.texts.retire = s.texts.prod ∨ d.state ≠ .queued → textConnectFailed s = s) ∧
    (s.texts.retire ≠ s.texts.prod → d.state = .queued →
      (2 ≤ d.attempts → textConnectFailed s = finishDesc n .failed (some .noConnection) 3 t) ∧
      (d.attempts < 2 → textConnectFailed s = setDesc n (fun d => { d with attempts := d.attempts + 1 }) t))

/-- R164: the notice of the inbox consumer. A value between the captured consumer and the producer is taken, and one that moves the
consumer while the inbox is full clears the flag, writes it and places INBOX-READY; any other is ignored. -/
def Obligations.InboxConsumer : Prop :=
  ∀ (s : State) (v : Byte), Calm s →
    (occupancy v s.texts.inCons ≤ occupancy s.texts.inProd s.texts.inCons →
      let t := { s with texts := { s.texts with inCons := v } }
      (s.texts.full = false ∨ v = s.texts.inCons → exec (.inboxConsumerWrite v) s = .next t) ∧
      (s.texts.full = true → v ≠ s.texts.inCons → exec (.inboxConsumerWrite v) s = .next (sent .inboxReady
        (joinWrite (writeAt s .inbox 0 [(2, 0)]) { t with texts := { t.texts with full := false } })))) ∧
    (occupancy s.texts.inProd s.texts.inCons < occupancy v s.texts.inCons →
      exec (.inboxConsumerWrite v) s = .next (eventPlaced (configIgnored s .inbox 0xFFFF 0x01) s))

/-- R165 to R167: the segments that open no context and write nothing: discarded without a connection, when malformed, and when
the count is not the context's; acknowledged when repeated; refused as BUSY, and as INBOX-FULL, which the network is told once.
INBOX-FULL waits outside the queue behind the refusal (the model's inference, log entry 62). -/
def Obligations.SegmentsWithoutWrites : Prop :=
  ∀ (s : State) (g : Segment), Calm s →
    airValid (.textSegment g.ref g.sender g.index g.count g.payload) = true →
    let run := exec (.textSegment g.ref g.sender g.index g.count g.payload) s
    let acked : AckResult → State := fun res => sent (.segmentAck g.ref g.index res) (activity s)
    let known := s.texts.ctxs.find? (fun c => c.sender == g.sender && c.ref == g.ref)
    (s.conn.state ≠ .connected → s.conn.state ≠ .reestablishing → run = .next s) ∧
    (s.conn.state = .connected → s.conn.shutdown = none →
      (g.index.toNat + 1 < g.count.toNat → g.payload.length ≠ 160 → run = .next (activity s)) ∧
      (g.index.toNat + 1 = g.count.toNat ∨ g.payload.length = 160 →
        ((g.sender, g.ref) ∈ s.texts.recent → run = .next (acked .ok)) ∧
        ((g.sender, g.ref) ∉ s.texts.recent →
          (∀ c, known = some c → g.count.toNat ≠ c.count → run = .next (activity s)) ∧
          (∀ c, known = some c → g.count.toNat = c.count → g.index.toNat ∈ c.got → run = .next (acked .ok)) ∧
          (known = none → 4 ≤ s.texts.ctxs.length → run = .next (acked .busy)) ∧
          (known = none → s.texts.ctxs.length < 4 → freeSlots s.texts = 0 → s.texts.full = true →
            run = .next (acked .inboxFull)) ∧
          (known = none → s.texts.ctxs.length < 4 → freeSlots s.texts = 0 → s.texts.full = false → run = .next (
            let t := acked .inboxFull
            let u := joinWrite (writeAt t .inbox 0 [(2, 1)]) { t with texts := { t.texts with full := true } }
            { u with link := { u.link with nextId := u.link.nextId + 1, outside :=
              [{ id := s.link.nextId + 1, msg := .inboxFull, inFlight := false, place := 0, attempts := 0 }] } })))))

/-- R166 to R169: reassembly. A segment of a new text opens a context, reserves the next ring index and is written; a further one
is written; the last one completes the text, and an expired context timer abandons it; a text alone in the inbox is delivered
then. A text of one segment is opened, written, acknowledged, completed and delivered at once; behind an earlier reservation that is
OPEN a text that has ended waits, and every finished one at the head of the list is delivered in turn. No write is placed where no field changed (the model's inference, log entry 31). -/
def Obligations.Reassembly : Prop :=
  (∀ (s : State) (g : Segment), Calm s → s.conn.state = .connected → s.conn.shutdown = none →
    airValid (.textSegment g.ref g.sender g.index g.count g.payload) = true →
    g.index.toNat + 1 = g.count.toNat ∨ g.payload.length = 160 → (g.sender, g.ref) ∉ s.texts.recent →
    let run := exec (.textSegment g.ref g.sender g.index g.count g.payload) s
    let known := s.texts.ctxs.find? (fun c => c.sender == g.sender && c.ref == g.ref)
    let got : Ctx → Ctx := fun c => { c with got := c.got ++ [g.index.toNat], length := c.length + g.payload.length }
    let stored : Ctx → State → State := fun c t =>
      wrote (writeAt s .inbox (inboxSlotLine c.ring) (changedBytes (ctxFields c 1) (ctxFields (got c) 1)))
        ((payloadWrites s c.ring g.index.toNat g.payload).foldl (fun u w => wrote w u) t)
    let taken : Ctx → State → State := fun c t => sent (.segmentAck g.ref g.index .ok) (
      let u := stored c t
      { u with texts := { u.texts with ctxs := t.texts.ctxs.map (fun x => if x.ring == c.ring then got c else x) } })
    (known = none → s.texts.ctxs.length < 4 → freeSlots s.texts ≠ 0 → 1 < g.count.toNat →
      let ring := s.texts.inProd + BitVec.ofNat 8 s.texts.resv.length
      let c : Ctx := { sender := g.sender, ref := g.ref, count := g.count.toNat, got := [], length := 0, ring := ring
                       start := s.frame, timer := .running 3000 }
      run = .next (pumpIdle (taken c (wrote (writeAt s .inbox (inboxSlotLine ring) (fieldBytes (ctxFields c 1)))
        { activity s with texts := { s.texts with
          ctxs := s.texts.ctxs ++ [c], resv := s.texts.resv ++ [{ ring := ring, finish := .open_ }] } })))) ∧
    (∀ c, known = some c → g.count.toNat = c.count → g.index.toNat ∉ c.got → c.got.length + 1 < c.count →
      run = .next (taken c s)) ∧
    (known = none → s.texts.ctxs.length < 4 → freeSlots s.texts ≠ 0 → g.count.toNat = 1 →
      let ring := s.texts.inProd + BitVec.ofNat 8 s.texts.resv.length
      let c : Ctx := { sender := g.sender, ref := g.ref, count := 1, got := [], length := 0, ring := ring
                       start := s.frame, timer := .running 3000 }
      let recent := (s.texts.recent ++ [(c.sender, c.ref)]).drop (s.texts.recent.length + 1 - 4)
      let complete := wrote (writeAt s .inbox (inboxSlotLine ring) (changedBytes (ctxFields (got c) 1) (ctxFields (got c) 2)))
        (stored c (wrote (writeAt s .inbox (inboxSlotLine ring) (fieldBytes (ctxFields c 1))) (activity s)))
      (s.texts.ctxs = [] → s.texts.resv = [] →
        run = .next (pumpIdle (sent (.segmentAck g.ref g.index .ok) (eventPlaced (event s .textArrived .primary Kind.inbox.code
          (BitVec.ofNat 16 (ring.toNat % 8)) 2 0 0) (joinWrite (writeAt s .inbox 0 [(0, s.texts.inProd + 1)]) { complete with
            sleep := { s.sleep with quiet := 0 }
            texts := { s.texts with inProd := s.texts.inProd + 1, recent := recent } }))))) ∧
      (∀ e rest, s.texts.resv = e :: rest → e.finish = .open_ → (∀ x ∈ s.texts.resv, x.ring ≠ ring) →
        (∀ x ∈ s.texts.ctxs, x.ring ≠ ring) →
        run = .next (pumpIdle (sent (.segmentAck g.ref g.index .ok) { complete with texts := { s.texts with
          resv := s.texts.resv ++ [{ ring := ring, finish := .complete }], recent := recent } })))) ∧
    (∀ c e rest, known = some c → s.texts.resv = e :: rest → e.finish = .open_ → e.ring ≠ c.ring →
      g.count.toNat = c.count → g.index.toNat ∉ c.got → c.got.length + 1 = c.count →
      run = .next (pumpIdle (sent (.segmentAck g.ref g.index .ok) (
        let u := wrote (writeAt s .inbox (inboxSlotLine c.ring)
          (changedBytes (ctxFields (got c) 1) (ctxFields (got c) 2))) (stored c s)
        { u with texts := { s.texts with
          ctxs := s.texts.ctxs.filter (fun x => x.ring != c.ring)
          resv := s.texts.resv.map (fun x => if x.ring = c.ring then { x with finish := .complete } else x)
          recent := (s.texts.recent ++ [(c.sender, c.ref)]).drop (s.texts.recent.length + 1 - 4) } })))) ∧
    (∀ c, known = some c → s.texts.ctxs = [c] → s.texts.resv = [{ ring := c.ring, finish := .open_ }] →
      g.count.toNat = c.count → g.index.toNat ∉ c.got → c.got.length + 1 = c.count →
      run = .next (pumpIdle (sent (.segmentAck g.ref g.index .ok) (eventPlaced (event s .textArrived .primary Kind.inbox.code
        (BitVec.ofNat 16 (c.ring.toNat % 8)) 2 0 0) (joinWrite (writeAt s .inbox 0 [(0, s.texts.inProd + 1)]) (
          let u := wrote (writeAt s .inbox (inboxSlotLine c.ring)
            (changedBytes (ctxFields (got c) 1) (ctxFields (got c) 2))) (stored c s)
          { u with
            sleep := { s.sleep with quiet := 0 }
            texts := { s.texts with
              ctxs := [], resv := [], inProd := s.texts.inProd + 1
              recent := (s.texts.recent ++ [(c.sender, c.ref)]).drop (s.texts.recent.length + 1 - 4) } }))))))) ∧
  (∀ (s : State) (ring : Byte) (c : Ctx), jobsRun s = true →
    s.texts.ctxs.find? (fun x => x.ring == ring && x.timer == .due) = some c →
    exec (.contextTimerExpiry ring) s = .next (settle (abandonCtx c s))) ∧
  (∀ (s : State) (c : Ctx),
    let close : Finish → State → State := fun f t => { t with texts := { t.texts with
      ctxs := t.texts.ctxs.filter (fun x => x.ring != c.ring)
      resv := t.texts.resv.map (fun x => if x.ring = c.ring then { x with finish := f } else x)
      recent := (t.texts.recent ++ [(c.sender, c.ref)]).drop (t.texts.recent.length + 1 - 4) } }
    let header : Byte → State := fun st => emitWrite .texts
      (writeAt s .inbox (inboxSlotLine c.ring) (changedBytes (ctxFields c 1) (ctxFields c st))) s
    finishCtx c s = deliverAll (close .complete (header 2)) ∧
    abandonCtx c s = deliverAll (
      let t := close .abandoned (header 3)
      raise .texts (event t .inboxAbandoned .none Kind.inbox.code (BitVec.ofNat 16 (c.ring.toNat % 8)) 0 0
        (c.ref.setWidth 32)) t)) ∧
  (∀ s : State, deliverAll s = deliver s.texts.resv s ∧ deliver [] s = s) ∧
  (∀ (s : State) (e : Resv) (rest : List Resv),
    (e.finish = .open_ → deliver (e :: rest) s = s) ∧
    (e.finish ≠ .open_ → deliver (e :: rest) s = deliver rest (
      let t := emitWrite .texts (writeAt s .inbox 0 [(0, s.texts.inProd + 1)])
        { s with texts := { s.texts with inProd := s.texts.inProd + 1, resv := rest } }
      raisePrimary .texts (event t .textArrived .primary Kind.inbox.code (BitVec.ofNat 16 (e.ring.toNat % 8))
        (if e.finish = .complete then 2 else 3) 0 0) .textArrived t))) ∧
  ∀ (s : State) (c : Ctx), Calm s → s.texts.ctxs = [c] → s.texts.resv = [{ ring := c.ring, finish := .open_ }] →
    c.timer = .due → occupancy (s.events.producer + 1) s.events.consumer < s.bind.capacity →
    exec (.contextTimerExpiry c.ring) s = .next (pumpIdle (eventPlaced (event s .textArrived .primary Kind.inbox.code
      (BitVec.ofNat 16 (c.ring.toNat % 8)) 3 0 0) (joinWrite (writeAt s .inbox 0 [(0, s.texts.inProd + 1)]) (
        let u := eventPlaced (event s .inboxAbandoned .none Kind.inbox.code (BitVec.ofNat 16 (c.ring.toNat % 8)) 0 0
            (c.ref.setWidth 32))
          (wrote (writeAt s .inbox (inboxSlotLine c.ring) (changedBytes (ctxFields c 1) (ctxFields c 3))) s)
        { u with
          sleep := { s.sleep with quiet := 0 }
          texts := { s.texts with
            ctxs := [], resv := [], inProd := s.texts.inProd + 1
            recent := (s.texts.recent ++ [(c.sender, c.ref)]).drop (s.texts.recent.length + 1 - 4) } }))))

/-! ## The radio link's outcomes -/

/-- R58, R59, R61, with R73, R80, R81, R106, R131, R133, R159: SIG-SENT for the one message of the queue: it leaves, the count is 0,
the report is signalling activity, and the job that waits on the message acts. R111: TRANSFER-DONE SENT in CONFIRMING commits the
handover, DROPPED it begins the fallback; a report of a message that the controller no longer waits on is nothing. R16, R81: the
SIG-SENT of DETACH ends the shutdown, and an unbinding, where the shutdown of an unbinding ends with the unbinding alone (the model's
inference, log entry 66); the signalling queue is emptied but for a message IN-FLIGHT (R58). -/
def Obligations.MessageSent : Prop :=
  (∀ (s : State) (q : QMsg), linkOpen s = true → s.link.opSendSig.runs = true → s.link.queue.find? (·.inFlight) = some q →
    exec .sigSent s = .next (settle (toldSent q { s with link := joinOutside { s.link with
      opSendSig := .stopped, askSendSig := none, unanswered := 0, queue := s.link.queue.filter (fun x => x.id != q.id) } }))) ∧
  (∀ (s : State) (q : QMsg) (w : SwRec), msgJob q.msg = .mob → s.mob.report = false ∨ s.mob.reportMsg ≠ some q.id →
    (s.mob.confirming = true → s.mob.confirmMsg = some q.id → s.mob.state = .switching → s.mob.switch = some w →
      toldSent q s = commitHandover w { activity s with mob := { s.mob with confirmMsg := none } } ∧
      toldDropped q s = beginFallback w s) ∧
    (s.mob.confirming = true → s.mob.confirmMsg = some q.id → s.mob.state = .rebuilding → s.mob.switch = some w →
      toldSent q s = activity s ∧ toldDropped q s = leaveService .radioLoss false s) ∧
    (s.mob.confirming = false ∨ s.mob.confirmMsg ≠ some q.id → toldSent q s = activity s ∧ toldDropped q s = s)) ∧
  (∀ (s : State) (q : QMsg), msgJob q.msg = .conn → s.conn.areaMsg ≠ some q.id → s.conn.detachMsg = some q.id →
    let t := activity s
    let u := if s.conn.shutdown = some .unbind then t else shutdownEnd t
    toldSent q s = if u.bind.state = .unbinding then unbindEnd u else u) ∧
  (∀ s : State,
    (s.conn.shutdown = none → shutdownEnd s = s) ∧
    (s.conn.shutdown.isSome = true → shutdownEnd s = emptyQueue (setConn .off { s with conn := { s.conn with
      shutdown := none, shutTimer := .stopped, shutNoDetach := false
      detachMsg := if s.bind.state = .unbinding then s.conn.detachMsg else none } })) ∧
    (emptyQueue s).link = { s.link with
      queue := (s.link.queue.filter (·.inFlight)).map (fun q => { q with left := true }), outside := [] }) ∧
  ∀ (u : State) (q : QMsg) (o : Timer), Calm u → q.inFlight = true → o.runs = true →
    let s := onAir q o u
    let v := activity { u with link := { u.link with unanswered := 0, askSendSig := none } }
    (msgJob q.msg = .mob → u.mob.confirmMsg ≠ some q.id → exec .sigSent s = .next v) ∧
    (msgJob q.msg = .mob → exec .sigSent { s with mob := { s.mob with report := true, reportMsg := some q.id } } =
      .next { v with mob := { v.mob with report := false, reportMsg := some q.id, reportTimer := .running 100 } }) ∧
    (msgJob q.msg = .conn →
      (u.conn.areaMsg = some q.id →
        exec .sigSent s = .next { v with conn := { v.conn with areaMsg := none, areaTimer := .running 200 } }) ∧
      (u.conn.areaMsg ≠ some q.id → u.conn.detachMsg ≠ some q.id → exec .sigSent s = .next v) ∧
      (u.conn.areaMsg ≠ some q.id → u.conn.detachMsg = some q.id → u.conn.state = .camped → u.conn.shutdown.isSome = true →
        exec .sigSent s = .next (connWritten .off { v with conn := { v.conn with
          shutdown := none, shutTimer := .stopped, detachMsg := none, shutNoDetach := false } }))) ∧
    (msgJob q.msg = .calls →
      (∀ r : Fin 4, recWith CallRec.setupMsg q.id u = some r →
        exec .sigSent s = .next (withRec r { u.calls.recs[r] with stage := .sent } v)) ∧
      (∀ r : Fin 4, recWith CallRec.setupMsg q.id u = none → recWith CallRec.exchMsg q.id u = some r →
        exec .sigSent s = .next (withRec r { u.calls.recs[r] with timer := .running 400 } v)) ∧
      (recWith CallRec.setupMsg q.id u = none → recWith CallRec.exchMsg q.id u = none → exec .sigSent s = .next v)) ∧
    (msgJob q.msg = .texts →
      (∀ x : Send, u.texts.send = some x → x.msgId = some q.id → exec .sigSent s =
        .next { v with texts := { v.texts with send := some { x with status := .awaiting, ackTimer := .running 300 } } }) ∧
      (segmentIs q.id u = false → exec .sigSent s = .next v))

/-- R54, R55, R59, R180: a response timeout that is not the third in a row. A LISTEN's in NO-SERVICE only counts; a SEND-SIG's has
the message sent again, and drops it at its third attempt; one whose operation has ended, or which comes in FAULTED, is nothing.
R56, R79, R182: the third in a row, here a LISTEN's in NO-SERVICE, declares the radio unit faulted: every operation ends, the
queue is emptied, LINK-RESET is sent with the recovery timer of 100, the event is placed and the listen cycle returns to its base.
R54, R97, R99: the block is told first, so that a round which the timeout completes is reported before the fault.
R57: in FAULTED LINK-RESET is sent again at each expiry of the recovery timer; LINK-READY recovers the link, the monitor
receiver's carrier unknown, with its event. Without its occasion a command changes nothing (the model's choice, log entry 3). That a
LISTEN's timeout clears the mark of a LINE event, and the order of a fault's effects, are the model's inferences (log entries 25,
16). -/
def Obligations.LinkTimeouts : Prop :=
  (∀ u : State, Calm u → u.link.unanswered < 2 →
    let n := u.link.unanswered + 1
    (u.link.opListen = .due → u.conn.state = .noService → exec (.responseTimeout .listen) u = .next { u with
      link := { u.link with opListen := .stopped, askListen := none, unanswered := n }
      sleep := { u.sleep with lineSince := false } }) ∧
    (∀ q : QMsg, q.inFlight = true → q.left = false → q.attempts < 2 →
      exec (.responseTimeout .sendSig) (onAir q .due u) = .next { u with
        link := { u.link with
          queue := [{ q with attempts := q.attempts + 1 }], opSendSig := .running 4, askSendSig := some (.sendSig q.msg)
          unanswered := n }
        out := { u.out with link := u.out.link ++ [.sendSig q.msg] } }) ∧
    (∀ q : QMsg, q.inFlight = true → q.attempts = 2 ∨ q.left = true → msgJob q.msg = .texts → segmentIs q.id u = false →
      exec (.responseTimeout .sendSig) (onAir q .due u) = .next { u with link :=
        { u.link with unanswered := n, askSendSig := none } }) ∧
    ∀ (op : RadioOp) (s : State), s.link.op op ≠ .due ∨ s.link.up = false → exec (.responseTimeout op) s = .next s) ∧
  (∀ (op : RadioOp) (s : State), linkOpen s = true → s.link.op op = .due →
    let t := timedOut op { s with link := match op with
      | .measure => { s.link with opMeasure := .stopped, askMeasure := none }
      | .listen => { s.link with opListen := .stopped, askListen := none }
      | .sendSig => { s.link with opSendSig := .stopped, askSendSig := none }
      | .switch => { s.link with opSwitch := .stopped, askSwitch := none } }
    (s.link.unanswered < 2 → exec (.responseTimeout op) s =
      .next (settle { t with link := { t.link with unanswered := s.link.unanswered + 1 } })) ∧
    (2 ≤ s.link.unanswered → exec (.responseTimeout op) s = .next (settle (declareFault op (pumpRound 6 t))))) ∧
  (∀ u : State, Calm u → u.link.unanswered = 2 → u.link.opListen = .due → u.conn.state = .noService → u.conn.shutdown = none →
    let v := { u with
      link := { u.link with
        up := false, unanswered := 0, opMeasure := .stopped, opListen := .stopped, opSwitch := .stopped, refused := []
        askMeasure := none, askListen := none, askSendSig := none, askSwitch := none, recovery := .running 100 }
      out := { u.out with link := u.out.link ++ [.linkReset] }
      cells := { u.cells with residue := false }
      conn := { u.conn with camping := false }
      sleep := { u.sleep with lineSince := false, quiet := 0 } }
    let fault := eventPlaced (event u .radioFault .primary (Job.code .link) 0 2 0 0)
    (u.conn.camping = false → exec (.responseTimeout .listen) u = .next (fault v)) ∧
    (u.conn.camping = true →
      exec (.responseTimeout .listen) u = .next (fault (joinWrite (writeAt u .plan 1 [(0x10, 1)]) v)))) ∧
  (∀ (u : State) (t : Timer), Calm u →
    let s := { u with link := { u.link with up := false, recovery := t } }
    (t = .due → exec .recoveryTimerExpiry s = .next { s with
      link := { s.link with recovery := .running 100 }, out := { s.out with link := s.out.link ++ [.linkReset] } }) ∧
    (t ≠ .due → exec .recoveryTimerExpiry s = .next s) ∧
    (u.conn.state ≠ .noService →
      exec .linkReady s = .next (eventPlaced (event u .radioRecovered .none (Job.code .link) 0 0 0 0) { u with
        link := { u.link with recovery := .stopped, unanswered := 0 }, cells := { u.cells with lastCarrier := none } })) ∧
    exec .linkReady u = .next u)

/-- R50, R61: what fails a check is discarded: bytes too short, with the wrong length or the wrong check, or of a type the part
does not take; an air message of an unknown kind or with a field out of range. That the commands check their bytes is the model's
choice (log entry 33), and that a kind only the handset sends is discarded its inference (log entry 46). -/
def Obligations.FailedFramesAreDiscarded : Prop :=
  (∀ (bytes : List Byte) (s : State),
    let n := bytes.length
    n < 4 ∨ (byteOf bytes 1).toNat ≠ n - 4 ∨
      frameCheck (bytes.take (n - 2)) ≠ ((byteOf bytes (n - 2)).toNat, (byteOf bytes (n - 1)).toNat) ∨
      (byteOf bytes 0).toNat < 0x81 ∨ 0x88 < (byteOf bytes 0).toNat →
    exec (.badFrame bytes) s = .next s) ∧
  (∀ (k : Byte) (rest : List Byte) (s : State),
    k.toNat ∉ [0x02, 0x03, 0x07, 0x09, 0x0A, 0x11, 0x12, 0x13, 0x16, 0x18, 0x19, 0x1A, 0x20, 0x21, 0x31] →
    exec (.airMessageInvalid (k :: rest)) s = .next s) ∧
  ∀ (p : List Byte) (s : State), airDecode p = none → exec (.airMessageInvalid p) s = .next s

/-- R50, R61, R198, R199: a frame with its length and its check is its payload of its type, and the payload of each frame and of each
air message, written from its operands, is that command with those operands. -/
def Obligations.FramesCarryTheirOperands : Prop :=
  (∀ (t : Byte) (p : List Byte), p.length ≤ 255 → frameDecode (frameOf t p) = payloadDecode t.toNat p) ∧
  (∀ v : Half, payloadDecode 0x81 (le16 v) = some (.measureDone v)) ∧
  payloadDecode 0x82 [0, 0] = some (.listenDone .noPage) ∧ payloadDecode 0x82 [1, 1] = some (.listenDone .pageCall) ∧
  payloadDecode 0x82 [1, 2] = some (.listenDone .pageText) ∧ payloadDecode 0x83 [] = some .sigSent ∧
  (∀ p, payloadDecode 0x84 p = airDecode p) ∧ (∀ p : List Byte, p.length = 64 → payloadDecode 0x85 p = some (.speechIn p)) ∧
  payloadDecode 0x86 [0] = some (.switchDone false) ∧ payloadDecode 0x86 [1] = some (.switchDone true) ∧
  payloadDecode 0x87 [] = some .servingLost ∧ payloadDecode 0x88 [] = some .linkReady ∧
  airDecode (airBytes .connectGrant) = some .connectGrant ∧ airDecode (airBytes .connectReject) = some .connectReject ∧
  airDecode (airBytes .reestablishAccept) = some .reestablishAccept ∧
  (∀ a, airDecode (airBytes (.areaAccept a)) = some (.areaAccept a) ∧ airDecode (airBytes (.areaReject a)) = some (.areaReject a)) ∧
  (∀ r : Byte, r ≠ 0 →
    airDecode (airBytes (.ringing r)) = some (.ringing r) ∧ airDecode (airBytes (.connect r)) = some (.connect r) ∧
    airDecode (airBytes (.holdAccept r)) = some (.holdAccept r) ∧ airDecode (airBytes (.resumeAccept r)) = some (.resumeAccept r) ∧
    airDecode (airBytes (.releaseDone r)) = some (.releaseDone r) ∧
    (∀ c, airDecode (airBytes (.release r c)) = some (.release r c.code)) ∧
    ∀ d, digitsValid 0 d = true → airDecode (airBytes (.offer r d)) = some (.offer r d)) ∧
  (∀ (r : Byte) (d : List Digit) (i n : Byte) (p : List Byte), airValid (.textSegment r d i n p) = true →
    airDecode (airBytes (.textSegment r d i n p)) = some (.textSegment r d i n p)) ∧
  (∀ (r i : Byte) (a : AckResult), i.toNat < 4 → airDecode (airBytes (.segmentAck r i a)) = some (.segmentAck r i a)) ∧
  ∀ c d f : Half, c.toNat ≤ 4095 → d.toNat ≤ 511 →
    airDecode (airBytes (.transferOrder c d f)) = some (.transferOrder c d f)
end

