-- ==== Sys2Proof/Laws/Bytes.lean ====
section
/-! SUPPORT. What a set of bytes holds at a position after each operation on it, and what a read sees of queue and stage. -/

namespace Sys2Proof.Machine

theorem bytesGet_cons {α : Type} (p : Nat × α) (m : List (Nat × α)) (k : Nat) : bytesGet (p :: m) k = if p.1 = k then some p.2 else bytesGet m k := by
  unfold bytesGet
  by_cases h : p.1 = k <;> simp [h]

theorem bytesCover_eq {α : Type} (m : List (Nat × α)) (k : Nat) : bytesCover m k = (bytesGet m k).isSome := by
  induction m with
  | nil => rfl
  | cons p m ih =>
    rw [bytesGet_cons]
    unfold bytesCover at *
    rw [List.any_cons, ih]
    by_cases h : p.1 = k <;> simp [h]

theorem bytesGet_append {α : Type} (a b : List (Nat × α)) (k : Nat) : bytesGet (a ++ b) k = (bytesGet a k).or (bytesGet b k) := by
  induction a with
  | nil => simp [bytesGet]
  | cons p a ih => rw [List.cons_append, bytesGet_cons, bytesGet_cons, ih]; split <;> simp

theorem bytesGet_filter {α : Type} (q : Nat → Bool) (m : List (Nat × α)) (k : Nat) : bytesGet (m.filter (fun p => q p.1)) k = if q k then bytesGet m k else none := by
  induction m with
  | nil => simp [bytesGet]
  | cons p m ih =>
    rw [bytesGet_cons, List.filter_cons]
    by_cases hq : q p.1 = true
    · rw [if_pos hq, bytesGet_cons, ih]
      by_cases h : p.1 = k
      · subst h; simp [hq]
      · simp [h]
    · rw [if_neg hq, ih]
      by_cases h : p.1 = k
      · subst h; simp [hq]
      · simp [h]

theorem bytesGet_over {α : Type} (a b : List (Nat × α)) (k : Nat) : bytesGet (bytesOver a b) k = (bytesGet a k).or (bytesGet b k) := by
  unfold bytesOver
  rw [bytesGet_append, bytesGet_filter (fun x => !bytesCover a x), bytesCover_eq]
  cases bytesGet a k <;> simp

theorem bytesGet_map {α β : Type} (f : α → β) (m : List (Nat × α)) (k : Nat) : bytesGet (m.map (fun p => (p.1, f p.2))) k = (bytesGet m k).map f := by
  induction m with
  | nil => rfl
  | cons p m ih => rw [List.map_cons, bytesGet_cons, bytesGet_cons, ih]; split <;> simp

theorem bytesGet_upperLayers (m : MemPath) (line : Line) (k : Nat) : bytesGet (upperLayers m line) k =
    ((stageOf m line).bind (fun l => bytesGet l.bytes k)).or ((entryOf m line).bind (fun e => (bytesGet e.bytes k).map (·.1))) := by
  unfold upperLayers
  rw [bytesGet_over]
  congr 1
  · cases stageOf m line <;> simp [bytesGet]
  · cases entryOf m line with
    | none => simp [bytesGet]
    | some e => simp [bytesGet_map]

theorem entryOf_congr {m n : MemPath} (h : m.queue = n.queue) (l : Line) : entryOf m l = entryOf n l := by
  unfold entryOf; rw [h]

theorem find_entry_map {f : QEntry → QEntry} (hf : ∀ e, (f e).line = e.line) (q : List QEntry) (l : Line) :
    (q.map f).find? (fun e => e.line == l) = (q.find? (fun e => e.line == l)).map f := by
  induction q with
  | nil => rfl
  | cons e q ih =>
    rw [List.map_cons, List.find?_cons, List.find?_cons, hf]
    split <;> simp [ih]

theorem find_stage_map {f : StageLine → StageLine} (hf : ∀ e, (f e).line = e.line) (q : List StageLine) (l : Line) :
    (q.map f).find? (fun e => e.line == l) = (q.find? (fun e => e.line == l)).map f := by
  induction q with
  | nil => rfl
  | cons e q ih =>
    rw [List.map_cons, List.find?_cons, List.find?_cons, hf]
    split <;> simp [ih]

/-! ## Fields that changed -/

theorem fieldBytes_cons (p : Nat × List Byte) (f : Fields) : fieldBytes (p :: f) = bytesAt p.1 p.2 ++ fieldBytes f := by
  simp [fieldBytes]

/-- Of two lists of the same fields, the bytes of those that differ. -/
theorem changed_cons {k : Nat} {v w : List Byte} {o n : Fields} (ho : ∀ p ∈ o, p.1 ≠ k) (hn : ∀ p ∈ n, p.1 ≠ k) :
    changedBytes ((k, v) :: o) ((k, w) :: n) = (if v = w then [] else bytesAt k w) ++ changedBytes o n := by
  have rest : n.filter (fun p => !((k, v) :: o).contains p) = n.filter (fun p => !o.contains p) := by
    apply List.filter_congr
    intro p hp
    have : (p == (k, v)) = false := by
      rw [beq_eq_false_iff_ne]; intro e; exact hn p hp (by rw [e])
    rw [List.contains_cons, this, Bool.false_or]
  have head : o.contains (k, w) = false := by
    rw [Bool.eq_false_iff, ne_eq, List.contains_iff_mem]
    intro h; exact ho _ h rfl
  unfold changedBytes
  rw [List.filter_cons, rest, List.contains_cons, head, Bool.or_false]
  by_cases e : v = w
  · subst e; simp
  · have : ((k, w) == (k, v)) = false := by
      rw [beq_eq_false_iff_ne]; intro h; exact e (by simpa using h.symm)
    rw [this, if_neg e]
    simp [fieldBytes_cons]

theorem changed_nil : changedBytes [] [] = [] := rfl

/-- The second plan line's write. -/
theorem plan_changed (s t : State) : changedBytes (planFields1 s) (planFields1 t) =
    (if [s.conn.state.code] = [t.conn.state.code] then [] else bytesAt 0x10 [t.conn.state.code]) ++
    ((if [s.sleep.level.code] = [t.sleep.level.code] then [] else bytesAt 0x11 [t.sleep.level.code]) ++
    ((if le16 (BitVec.ofNat 16 s.sleep.cycle) = le16 (BitVec.ofNat 16 t.sleep.cycle) then []
      else bytesAt 0x12 (le16 (BitVec.ofNat 16 t.sleep.cycle))) ++
    ((if le32 (optWord s.conn.area) = le32 (optWord t.conn.area) then [] else bytesAt 0x14 (le32 (optWord t.conn.area))) ++
    ((if [causeCode s.sleep.wakeCause] = [causeCode t.sleep.wakeCause] then []
      else bytesAt 0x18 [causeCode t.sleep.wakeCause]) ++
    ((if [BitVec.ofNat 8 (if s.sleep.wakeCause = some .line then s.sleep.wakeLine else 0)] =
        [BitVec.ofNat 8 (if t.sleep.wakeCause = some .line then t.sleep.wakeLine else 0)] then []
      else bytesAt 0x19 [BitVec.ofNat 8 (if t.sleep.wakeCause = some .line then t.sleep.wakeLine else 0)]) ++
    ((if [causeCode s.sleep.last] = [causeCode t.sleep.last] then [] else bytesAt 0x1A [causeCode t.sleep.last]) ++
      changedBytes [] [])))))) := by
  unfold planFields1
  iterate 7 rw [changed_cons (by simp) (by simp)]

/-- A call record's write. -/
theorem call_changed (c d : CallRec) : changedBytes (callFields c) (callFields d) =
    (if [c.state.code] = [d.state.code] then [] else bytesAt 0x10 [d.state.code]) ++
    ((if [c.ref] = [d.ref] then [] else bytesAt 0x11 [d.ref]) ++
    ((if [c.dir.code] = [d.dir.code] then [] else bytesAt 0x12 [d.dir.code]) ++
    ((if [c.reqCode] = [d.reqCode] then [] else bytesAt 0x13 [d.reqCode]) ++
    ((if [c.result.code] = [d.result.code] then [] else bytesAt 0x14 [d.result.code]) ++
    ((if [causeCode c.endCause] = [causeCode d.endCause] then [] else bytesAt 0x15 [causeCode d.endCause]) ++
    ((if le16 c.start = le16 d.start then [] else bytesAt 0x16 (le16 d.start)) ++
    ((if le16 (BitVec.ofNat 16 c.gaps) = le16 (BitVec.ofNat 16 d.gaps) then []
      else bytesAt 0x18 (le16 (BitVec.ofNat 16 d.gaps))) ++
    ((if digitsBytes c.caller = digitsBytes d.caller then [] else bytesAt 0x1A (digitsBytes d.caller)) ++
      changedBytes [] [])))))))) := by
  unfold callFields
  iterate 9 rw [changed_cons (by simp) (by simp)]

/-- A descriptor's write. -/
theorem desc_changed (n : Nat) (c d : Desc) : changedBytes (descFields n c) (descFields n d) =
    (if [c.state.code] = [d.state.code] then [] else bytesAt (32 * (n % 2) + 0x18) [d.state.code]) ++
    ((if [BitVec.ofNat 8 c.attempts] = [BitVec.ofNat 8 d.attempts] then []
      else bytesAt (32 * (n % 2) + 0x19) [BitVec.ofNat 8 d.attempts]) ++
    ((if [causeCode c.fail] = [causeCode d.fail] then [] else bytesAt (32 * (n % 2) + 0x1A) [causeCode d.fail]) ++
    ((if [c.ref] = [d.ref] then [] else bytesAt (32 * (n % 2) + 0x1B) [d.ref]) ++ changedBytes [] []))) := by
  unfold descFields
  iterate 4 rw [changed_cons (by simp) (by simp)]

/-- Fields that did not change are not written. -/
theorem changed_same (f : Fields) : changedBytes f f = [] := by
  unfold changedBytes
  have : f.filter (fun p => !f.contains p) = [] := by
    rw [List.filter_eq_nil_iff]
    intro p hp; simp [hp]
  rw [this]; rfl

/-- A two-byte field's value is in its bytes. -/
theorem le16_inj {a b : Half} : le16 a = le16 b ↔ a = b := by
  refine ⟨fun h => ?_, fun h => by rw [h]⟩
  simp only [le16, List.cons.injEq, and_true] at h
  obtain ⟨h1, h2⟩ := h
  apply BitVec.eq_of_getElem_eq
  intro i hi
  by_cases k : i < 8
  · have := congrArg (fun x => x.getLsbD i) h1
    simpa [BitVec.getLsbD_extractLsb', k, BitVec.getLsbD_eq_getElem hi] using this
  · have := congrArg (fun x => x.getLsbD (i - 8)) h2
    have e : 8 + (i - 8) = i := by omega
    simpa [BitVec.getLsbD_extractLsb', e, show i - 8 < 8 by omega, BitVec.getLsbD_eq_getElem hi] using this

/-- A four-byte field's value is in its bytes. -/
theorem le32_inj {a b : Word} : le32 a = le32 b ↔ a = b := by
  refine ⟨fun h => ?_, fun h => by rw [h]⟩
  simp only [le32, List.cons.injEq, and_true] at h
  obtain ⟨h1, h2, h3, h4⟩ := h
  have byte : ∀ k : Nat, k < 4 → a.extractLsb' (8 * k) 8 = b.extractLsb' (8 * k) 8 := by
    intro k hk
    match k, hk with
    | 0, _ => exact h1
    | 1, _ => exact h2
    | 2, _ => exact h3
    | 3, _ => exact h4
  apply BitVec.eq_of_getElem_eq
  intro i hi
  have := congrArg (fun x => x.getLsbD (i % 8)) (byte (i / 8) (by omega))
  have e : 8 * (i / 8) + i % 8 = i := by omega
  simpa [BitVec.getLsbD_extractLsb', e, Nat.mod_lt i (show 0 < 8 by decide), BitVec.getLsbD_eq_getElem hi] using this

end Sys2Proof.Machine
end

