-- ==== Sys2Proof/Laws/FrameOps.lean ====
section
/-! SUPPORT. The memory path, the signalling queue and the event writer: the parts of the state that each operation leaves alone. -/

set_option linter.unusedSimpArgs false
set_option linter.unusedTactic false
set_option linter.unnecessarySeqFocus false
set_option linter.unreachableTactic false

namespace Sys2Proof.Machine

/-- A fold of steps that each leave something alone leaves it alone. -/
theorem foldl_keep {α β : Type} (g : State → β) {f : State → α → State} (hf : ∀ s x, g (f s x) = g s) (l : List α)
    (s : State) : g (l.foldl f s) = g s := by
  induction l generalizing s with
  | nil => rfl
  | cons x xs ih => rw [List.foldl_cons, ih, hf]

@[simp] theorem tickClock_frame (s : State) : (tickClock s).pending = s.pending ∧ (tickClock s).resetN = s.resetN ∧
    (tickClock s).resetPhase = s.resetPhase ∧ (tickClock s).teardown = s.teardown ∧ (tickClock s).out = s.out ∧
    (tickClock s).frame = s.frame ∧ (tickClock s).bind = s.bind ∧ (tickClock s).port = s.port ∧ (tickClock s).link =
    s.link ∧ (tickClock s).conn = s.conn ∧ (tickClock s).cells = s.cells ∧ (tickClock s).mob = s.mob ∧ (tickClock
    s).calls = s.calls ∧ (tickClock s).speech = s.speech ∧ (tickClock s).texts = s.texts ∧ (tickClock s).sleep =
    s.sleep ∧ (tickClock s).events = s.events := by
  unfold tickClock
  (try dsimp only)
  (repeat' split) <;> simp

@[simp] theorem closeMoment_frame (s : State) : (closeMoment s).pending = s.pending ∧ (closeMoment s).resetN =
    s.resetN ∧ (closeMoment s).resetPhase = s.resetPhase ∧ (closeMoment s).teardown = s.teardown ∧ (closeMoment s).out
    = s.out ∧ (closeMoment s).frame = s.frame ∧ (closeMoment s).bind = s.bind ∧ (closeMoment s).port = s.port ∧
    (closeMoment s).link = s.link ∧ (closeMoment s).conn = s.conn ∧ (closeMoment s).cells = s.cells ∧ (closeMoment
    s).mob = s.mob ∧ (closeMoment s).calls = s.calls ∧ (closeMoment s).speech = s.speech ∧ (closeMoment s).texts =
    s.texts ∧ (closeMoment s).sleep = s.sleep ∧ (closeMoment s).events = s.events := by
  unfold closeMoment
  (try dsimp only)
  (repeat' split) <;> simp

@[simp] theorem answer_frame (a : Answer) (s : State) : (answer a s).pending = s.pending ∧ (answer a s).resetN =
    s.resetN ∧ (answer a s).resetPhase = s.resetPhase ∧ (answer a s).teardown = s.teardown ∧ (answer a s).frame =
    s.frame ∧ (answer a s).bind = s.bind ∧ (answer a s).port = s.port ∧ (answer a s).mem = s.mem ∧ (answer a s).link =
    s.link ∧ (answer a s).conn = s.conn ∧ (answer a s).cells = s.cells ∧ (answer a s).mob = s.mob ∧ (answer a s).calls
    = s.calls ∧ (answer a s).speech = s.speech ∧ (answer a s).texts = s.texts ∧ (answer a s).sleep = s.sleep ∧ (answer
    a s).events = s.events := by
  unfold answer
  (try dsimp only)
  (repeat' split) <;> simp

@[simp] theorem memOut_frame (a : MemAccess) (s : State) : (memOut a s).pending = s.pending ∧ (memOut a s).resetN =
    s.resetN ∧ (memOut a s).resetPhase = s.resetPhase ∧ (memOut a s).teardown = s.teardown ∧ (memOut a s).frame =
    s.frame ∧ (memOut a s).bind = s.bind ∧ (memOut a s).port = s.port ∧ (memOut a s).mem = s.mem ∧ (memOut a s).link =
    s.link ∧ (memOut a s).conn = s.conn ∧ (memOut a s).cells = s.cells ∧ (memOut a s).mob = s.mob ∧ (memOut a s).calls
    = s.calls ∧ (memOut a s).speech = s.speech ∧ (memOut a s).texts = s.texts ∧ (memOut a s).sleep = s.sleep ∧ (memOut
    a s).events = s.events := by
  unfold memOut
  (try dsimp only)
  (repeat' split) <;> simp

@[simp] theorem linkOut_frame (f : LinkFrame) (s : State) : (linkOut f s).pending = s.pending ∧ (linkOut f s).resetN =
    s.resetN ∧ (linkOut f s).resetPhase = s.resetPhase ∧ (linkOut f s).teardown = s.teardown ∧ (linkOut f s).frame =
    s.frame ∧ (linkOut f s).bind = s.bind ∧ (linkOut f s).port = s.port ∧ (linkOut f s).mem = s.mem ∧ (linkOut f
    s).link = s.link ∧ (linkOut f s).conn = s.conn ∧ (linkOut f s).cells = s.cells ∧ (linkOut f s).mob = s.mob ∧
    (linkOut f s).calls = s.calls ∧ (linkOut f s).speech = s.speech ∧ (linkOut f s).texts = s.texts ∧ (linkOut f
    s).sleep = s.sleep ∧ (linkOut f s).events = s.events := by
  unfold linkOut
  (try dsimp only)
  (repeat' split) <;> simp

@[simp] theorem sendFrame_frame (f : LinkFrame) (s : State) : (sendFrame f s).pending = s.pending ∧ (sendFrame f
    s).resetN = s.resetN ∧ (sendFrame f s).resetPhase = s.resetPhase ∧ (sendFrame f s).teardown = s.teardown ∧
    (sendFrame f s).frame = s.frame ∧ (sendFrame f s).bind = s.bind ∧ (sendFrame f s).port = s.port ∧ (sendFrame f
    s).mem = s.mem ∧ (sendFrame f s).link = s.link ∧ (sendFrame f s).conn = s.conn ∧ (sendFrame f s).cells = s.cells ∧
    (sendFrame f s).mob = s.mob ∧ (sendFrame f s).calls = s.calls ∧ (sendFrame f s).speech = s.speech ∧ (sendFrame f
    s).texts = s.texts ∧ (sendFrame f s).sleep = s.sleep ∧ (sendFrame f s).events = s.events := by
  unfold sendFrame
  (try dsimp only)
  (repeat' split) <;> simp

@[simp] theorem presentWrite_frame (w : HostWrite) (s : State) : (presentWrite w s).pending = s.pending ∧
    (presentWrite w s).resetN = s.resetN ∧ (presentWrite w s).resetPhase = s.resetPhase ∧ (presentWrite w s).teardown
    = s.teardown ∧ (presentWrite w s).out = s.out ∧ (presentWrite w s).frame = s.frame ∧ (presentWrite w s).bind =
    s.bind ∧ (presentWrite w s).port = s.port ∧ (presentWrite w s).link = s.link ∧ (presentWrite w s).conn = s.conn ∧
    (presentWrite w s).cells = s.cells ∧ (presentWrite w s).mob = s.mob ∧ (presentWrite w s).calls = s.calls ∧
    (presentWrite w s).speech = s.speech ∧ (presentWrite w s).texts = s.texts ∧ (presentWrite w s).sleep = s.sleep ∧
    (presentWrite w s).events = s.events := by
  unfold presentWrite
  (try dsimp only)
  (repeat' split) <;> simp

@[simp] theorem joinWrite_frame (w : WriteReq) (s : State) : (joinWrite w s).pending = s.pending ∧ (joinWrite w
    s).resetN = s.resetN ∧ (joinWrite w s).resetPhase = s.resetPhase ∧ (joinWrite w s).teardown = s.teardown ∧
    (joinWrite w s).out = s.out ∧ (joinWrite w s).frame = s.frame ∧ (joinWrite w s).bind = s.bind ∧ (joinWrite w
    s).port = s.port ∧ (joinWrite w s).link = s.link ∧ (joinWrite w s).conn = s.conn ∧ (joinWrite w s).cells = s.cells
    ∧ (joinWrite w s).mob = s.mob ∧ (joinWrite w s).calls = s.calls ∧ (joinWrite w s).speech = s.speech ∧ (joinWrite w
    s).texts = s.texts ∧ (joinWrite w s).sleep = s.sleep ∧ (joinWrite w s).events = s.events := by
  unfold joinWrite
  (try dsimp only)
  (repeat' split) <;> simp

@[simp] theorem waitActs_frame (j : Job) (acts : List Act) (s : State) : (waitActs j acts s).pending = s.pending ∧
    (waitActs j acts s).resetN = s.resetN ∧ (waitActs j acts s).resetPhase = s.resetPhase ∧ (waitActs j acts
    s).teardown = s.teardown ∧ (waitActs j acts s).out = s.out ∧ (waitActs j acts s).frame = s.frame ∧ (waitActs j
    acts s).bind = s.bind ∧ (waitActs j acts s).port = s.port ∧ (waitActs j acts s).link = s.link ∧ (waitActs j acts
    s).conn = s.conn ∧ (waitActs j acts s).cells = s.cells ∧ (waitActs j acts s).mob = s.mob ∧ (waitActs j acts
    s).calls = s.calls ∧ (waitActs j acts s).speech = s.speech ∧ (waitActs j acts s).texts = s.texts ∧ (waitActs j
    acts s).sleep = s.sleep ∧ (waitActs j acts s).events = s.events := by
  unfold waitActs
  (try dsimp only)
  (repeat' split) <;> simp

@[simp] theorem emitWrite_frame (j : Job) (w : WriteReq) (s : State) : (emitWrite j w s).pending = s.pending ∧
    (emitWrite j w s).resetN = s.resetN ∧ (emitWrite j w s).resetPhase = s.resetPhase ∧ (emitWrite j w s).teardown =
    s.teardown ∧ (emitWrite j w s).out = s.out ∧ (emitWrite j w s).frame = s.frame ∧ (emitWrite j w s).bind = s.bind ∧
    (emitWrite j w s).port = s.port ∧ (emitWrite j w s).link = s.link ∧ (emitWrite j w s).conn = s.conn ∧ (emitWrite j
    w s).cells = s.cells ∧ (emitWrite j w s).mob = s.mob ∧ (emitWrite j w s).calls = s.calls ∧ (emitWrite j w
    s).speech = s.speech ∧ (emitWrite j w s).texts = s.texts ∧ (emitWrite j w s).sleep = s.sleep ∧ (emitWrite j w
    s).events = s.events := by
  unfold emitWrite
  (try dsimp only)
  (repeat' split) <;> simp

@[simp] theorem presentHeld_frame (s : State) : (presentHeld s).pending = s.pending ∧ (presentHeld s).resetN =
    s.resetN ∧ (presentHeld s).resetPhase = s.resetPhase ∧ (presentHeld s).teardown = s.teardown ∧ (presentHeld s).out
    = s.out ∧ (presentHeld s).frame = s.frame ∧ (presentHeld s).bind = s.bind ∧ (presentHeld s).link = s.link ∧
    (presentHeld s).conn = s.conn ∧ (presentHeld s).cells = s.cells ∧ (presentHeld s).mob = s.mob ∧ (presentHeld
    s).calls = s.calls ∧ (presentHeld s).speech = s.speech ∧ (presentHeld s).texts = s.texts ∧ (presentHeld s).sleep =
    s.sleep ∧ (presentHeld s).events = s.events := by
  unfold presentHeld
  generalize s.port.held = l
  have k : ∀ (l : List HostWrite) (t : State), (l.foldl (fun t w => presentWrite w t) t) =
      { t with mem := (l.foldl (fun t w => presentWrite w t) t).mem } := by
    intro l
    induction l with
    | nil => intro t; rfl
    | cons w ws ih => intro t; rw [List.foldl_cons, ih]; rfl
  rw [k]
  simp

@[simp] theorem serveReads_frame (s : State) : (serveReads s).pending = s.pending ∧ (serveReads s).resetN = s.resetN ∧
    (serveReads s).resetPhase = s.resetPhase ∧ (serveReads s).teardown = s.teardown ∧ (serveReads s).frame = s.frame ∧
    (serveReads s).bind = s.bind ∧ (serveReads s).port = s.port ∧ (serveReads s).link = s.link ∧ (serveReads s).conn =
    s.conn ∧ (serveReads s).cells = s.cells ∧ (serveReads s).mob = s.mob ∧ (serveReads s).calls = s.calls ∧
    (serveReads s).speech = s.speech ∧ (serveReads s).texts = s.texts ∧ (serveReads s).sleep = s.sleep ∧ (serveReads
    s).events = s.events := by
  unfold serveReads
  (try dsimp only)
  (repeat' split) <;> simp

@[simp] theorem joinRead_frame (f : ReadFor) (line : Line) (s : State) : (joinRead f line s).pending = s.pending ∧
    (joinRead f line s).resetN = s.resetN ∧ (joinRead f line s).resetPhase = s.resetPhase ∧ (joinRead f line
    s).teardown = s.teardown ∧ (joinRead f line s).frame = s.frame ∧ (joinRead f line s).bind = s.bind ∧ (joinRead f
    line s).port = s.port ∧ (joinRead f line s).link = s.link ∧ (joinRead f line s).conn = s.conn ∧ (joinRead f line
    s).cells = s.cells ∧ (joinRead f line s).mob = s.mob ∧ (joinRead f line s).calls = s.calls ∧ (joinRead f line
    s).speech = s.speech ∧ (joinRead f line s).texts = s.texts ∧ (joinRead f line s).sleep = s.sleep ∧ (joinRead f
    line s).events = s.events := by
  unfold joinRead
  (try dsimp only)
  (repeat' split) <;> simp

@[simp] theorem placeRead_frame (j : Job) (f : ReadFor) (line : Line) (s : State) : (placeRead j f line s).pending =
    s.pending ∧ (placeRead j f line s).resetN = s.resetN ∧ (placeRead j f line s).resetPhase = s.resetPhase ∧
    (placeRead j f line s).teardown = s.teardown ∧ (placeRead j f line s).frame = s.frame ∧ (placeRead j f line
    s).bind = s.bind ∧ (placeRead j f line s).port = s.port ∧ (placeRead j f line s).link = s.link ∧ (placeRead j f
    line s).conn = s.conn ∧ (placeRead j f line s).cells = s.cells ∧ (placeRead j f line s).mob = s.mob ∧ (placeRead j
    f line s).calls = s.calls ∧ (placeRead j f line s).speech = s.speech ∧ (placeRead j f line s).texts = s.texts ∧
    (placeRead j f line s).sleep = s.sleep ∧ (placeRead j f line s).events = s.events := by
  unfold placeRead
  (try dsimp only)
  (repeat' split) <;> simp

@[simp] theorem emitRead_frame (j : Job) (f : ReadFor) (line : Line) (s : State) : (emitRead j f line s).pending =
    s.pending ∧ (emitRead j f line s).resetN = s.resetN ∧ (emitRead j f line s).resetPhase = s.resetPhase ∧ (emitRead
    j f line s).teardown = s.teardown ∧ (emitRead j f line s).frame = s.frame ∧ (emitRead j f line s).bind = s.bind ∧
    (emitRead j f line s).port = s.port ∧ (emitRead j f line s).link = s.link ∧ (emitRead j f line s).conn = s.conn ∧
    (emitRead j f line s).cells = s.cells ∧ (emitRead j f line s).mob = s.mob ∧ (emitRead j f line s).calls = s.calls
    ∧ (emitRead j f line s).speech = s.speech ∧ (emitRead j f line s).texts = s.texts ∧ (emitRead j f line s).sleep =
    s.sleep ∧ (emitRead j f line s).events = s.events := by
  unfold emitRead
  (try dsimp only)
  (repeat' split) <;> simp

@[simp] theorem discardReads_frame (p : ReadFor → Bool) (s : State) : (discardReads p s).pending = s.pending ∧
    (discardReads p s).resetN = s.resetN ∧ (discardReads p s).resetPhase = s.resetPhase ∧ (discardReads p s).teardown
    = s.teardown ∧ (discardReads p s).out = s.out ∧ (discardReads p s).frame = s.frame ∧ (discardReads p s).bind =
    s.bind ∧ (discardReads p s).port = s.port ∧ (discardReads p s).link = s.link ∧ (discardReads p s).conn = s.conn ∧
    (discardReads p s).cells = s.cells ∧ (discardReads p s).mob = s.mob ∧ (discardReads p s).calls = s.calls ∧
    (discardReads p s).speech = s.speech ∧ (discardReads p s).texts = s.texts ∧ (discardReads p s).sleep = s.sleep ∧
    (discardReads p s).events = s.events := by
  unfold discardReads
  (try dsimp only)
  (repeat' split) <;> simp

@[simp] theorem grantRead_frame (r : ReadEntry) (s : State) : (grantRead r s).pending = s.pending ∧ (grantRead r
    s).resetN = s.resetN ∧ (grantRead r s).resetPhase = s.resetPhase ∧ (grantRead r s).teardown = s.teardown ∧
    (grantRead r s).frame = s.frame ∧ (grantRead r s).bind = s.bind ∧ (grantRead r s).port = s.port ∧ (grantRead r
    s).link = s.link ∧ (grantRead r s).conn = s.conn ∧ (grantRead r s).cells = s.cells ∧ (grantRead r s).mob = s.mob ∧
    (grantRead r s).calls = s.calls ∧ (grantRead r s).speech = s.speech ∧ (grantRead r s).texts = s.texts ∧ (grantRead
    r s).sleep = s.sleep ∧ (grantRead r s).events = s.events := by
  unfold grantRead
  (try dsimp only)
  (repeat' split) <;> simp

@[simp] theorem grantDrain_frame (e : QEntry) (s : State) : (grantDrain e s).pending = s.pending ∧ (grantDrain e
    s).resetN = s.resetN ∧ (grantDrain e s).resetPhase = s.resetPhase ∧ (grantDrain e s).teardown = s.teardown ∧
    (grantDrain e s).frame = s.frame ∧ (grantDrain e s).bind = s.bind ∧ (grantDrain e s).port = s.port ∧ (grantDrain e
    s).link = s.link ∧ (grantDrain e s).conn = s.conn ∧ (grantDrain e s).cells = s.cells ∧ (grantDrain e s).mob =
    s.mob ∧ (grantDrain e s).calls = s.calls ∧ (grantDrain e s).speech = s.speech ∧ (grantDrain e s).texts = s.texts ∧
    (grantDrain e s).sleep = s.sleep ∧ (grantDrain e s).events = s.events := by
  unfold grantDrain
  (try dsimp only)
  (repeat' split) <;> simp

@[simp] theorem setCount_frame (n : Nat) (s : State) : (setCount n s).pending = s.pending ∧ (setCount n s).resetN =
    s.resetN ∧ (setCount n s).resetPhase = s.resetPhase ∧ (setCount n s).teardown = s.teardown ∧ (setCount n s).out =
    s.out ∧ (setCount n s).frame = s.frame ∧ (setCount n s).bind = s.bind ∧ (setCount n s).port = s.port ∧ (setCount n
    s).link = s.link ∧ (setCount n s).conn = s.conn ∧ (setCount n s).cells = s.cells ∧ (setCount n s).mob = s.mob ∧
    (setCount n s).calls = s.calls ∧ (setCount n s).speech = s.speech ∧ (setCount n s).texts = s.texts ∧ (setCount n
    s).sleep = s.sleep ∧ (setCount n s).events = s.events := by
  unfold setCount
  (try dsimp only)
  (repeat' split) <;> simp

@[simp] theorem grantPlain_frame (s : State) : (grantPlain s).pending = s.pending ∧ (grantPlain s).resetN = s.resetN ∧
    (grantPlain s).resetPhase = s.resetPhase ∧ (grantPlain s).teardown = s.teardown ∧ (grantPlain s).frame = s.frame ∧
    (grantPlain s).bind = s.bind ∧ (grantPlain s).port = s.port ∧ (grantPlain s).link = s.link ∧ (grantPlain s).conn =
    s.conn ∧ (grantPlain s).cells = s.cells ∧ (grantPlain s).mob = s.mob ∧ (grantPlain s).calls = s.calls ∧
    (grantPlain s).speech = s.speech ∧ (grantPlain s).texts = s.texts ∧ (grantPlain s).sleep = s.sleep ∧ (grantPlain
    s).events = s.events := by
  unfold grantPlain
  (try dsimp only)
  (repeat' split) <;> simp

@[simp] theorem grant_frame (drainFirst : Bool) (s : State) : (grant drainFirst s).pending = s.pending ∧ (grant
    drainFirst s).resetN = s.resetN ∧ (grant drainFirst s).resetPhase = s.resetPhase ∧ (grant drainFirst s).teardown =
    s.teardown ∧ (grant drainFirst s).frame = s.frame ∧ (grant drainFirst s).bind = s.bind ∧ (grant drainFirst s).port
    = s.port ∧ (grant drainFirst s).link = s.link ∧ (grant drainFirst s).conn = s.conn ∧ (grant drainFirst s).cells =
    s.cells ∧ (grant drainFirst s).mob = s.mob ∧ (grant drainFirst s).calls = s.calls ∧ (grant drainFirst s).speech =
    s.speech ∧ (grant drainFirst s).texts = s.texts ∧ (grant drainFirst s).sleep = s.sleep ∧ (grant drainFirst
    s).events = s.events := by
  unfold grant
  (try dsimp only)
  (repeat' split) <;> simp

@[simp] theorem presentExit_frame (s : State) : (presentExit s).pending = s.pending ∧ (presentExit s).resetN =
    s.resetN ∧ (presentExit s).resetPhase = s.resetPhase ∧ (presentExit s).teardown = s.teardown ∧ (presentExit
    s).frame = s.frame ∧ (presentExit s).bind = s.bind ∧ (presentExit s).port = s.port ∧ (presentExit s).link = s.link
    ∧ (presentExit s).conn = s.conn ∧ (presentExit s).cells = s.cells ∧ (presentExit s).mob = s.mob ∧ (presentExit
    s).calls = s.calls ∧ (presentExit s).speech = s.speech ∧ (presentExit s).texts = s.texts ∧ (presentExit s).sleep =
    s.sleep ∧ (presentExit s).events = s.events := by
  unfold presentExit
  (try dsimp only)
  (repeat' split) <;> simp

@[simp] theorem emitMsg_frame (m : AirMsg) (s : State) : (emitMsg m s).pending = s.pending ∧ (emitMsg m s).resetN =
    s.resetN ∧ (emitMsg m s).resetPhase = s.resetPhase ∧ (emitMsg m s).teardown = s.teardown ∧ (emitMsg m s).out =
    s.out ∧ (emitMsg m s).frame = s.frame ∧ (emitMsg m s).bind = s.bind ∧ (emitMsg m s).port = s.port ∧ (emitMsg m
    s).conn = s.conn ∧ (emitMsg m s).cells = s.cells ∧ (emitMsg m s).mob = s.mob ∧ (emitMsg m s).calls = s.calls ∧
    (emitMsg m s).speech = s.speech ∧ (emitMsg m s).texts = s.texts ∧ (emitMsg m s).sleep = s.sleep ∧ (emitMsg m
    s).events = s.events := by
  unfold emitMsg
  (try dsimp only)
  (repeat' split) <;> simp

@[simp] theorem withdrawMsg_frame (id : Nat) (s : State) : (withdrawMsg id s).pending = s.pending ∧ (withdrawMsg id
    s).resetN = s.resetN ∧ (withdrawMsg id s).resetPhase = s.resetPhase ∧ (withdrawMsg id s).teardown = s.teardown ∧
    (withdrawMsg id s).out = s.out ∧ (withdrawMsg id s).frame = s.frame ∧ (withdrawMsg id s).bind = s.bind ∧
    (withdrawMsg id s).port = s.port ∧ (withdrawMsg id s).conn = s.conn ∧ (withdrawMsg id s).cells = s.cells ∧
    (withdrawMsg id s).mob = s.mob ∧ (withdrawMsg id s).calls = s.calls ∧ (withdrawMsg id s).speech = s.speech ∧
    (withdrawMsg id s).texts = s.texts ∧ (withdrawMsg id s).sleep = s.sleep ∧ (withdrawMsg id s).events = s.events := by
  unfold withdrawMsg
  (try dsimp only)
  (repeat' split) <;> simp

@[simp] theorem withdrawOpt_frame (o : Option Nat) (s : State) : (withdrawOpt o s).pending = s.pending ∧
    (withdrawOpt o s).resetN = s.resetN ∧ (withdrawOpt o s).resetPhase = s.resetPhase ∧
    (withdrawOpt o s).teardown = s.teardown ∧ (withdrawOpt o s).out = s.out ∧
    (withdrawOpt o s).frame = s.frame ∧ (withdrawOpt o s).bind = s.bind ∧ (withdrawOpt o s).port = s.port ∧
    (withdrawOpt o s).conn = s.conn ∧ (withdrawOpt o s).cells = s.cells ∧ (withdrawOpt o s).mob = s.mob ∧
    (withdrawOpt o s).calls = s.calls ∧ (withdrawOpt o s).speech = s.speech ∧ (withdrawOpt o s).texts = s.texts ∧
    (withdrawOpt o s).sleep = s.sleep ∧ (withdrawOpt o s).events = s.events := by
  cases o <;> simp [withdrawOpt]

@[simp] theorem request_frame (op : RadioOp) (f : LinkFrame) (s : State) : (request op f s).pending = s.pending ∧
    (request op f s).resetN = s.resetN ∧ (request op f s).resetPhase = s.resetPhase ∧ (request op f s).teardown =
    s.teardown ∧ (request op f s).frame = s.frame ∧ (request op f s).bind = s.bind ∧ (request op f s).port = s.port ∧
    (request op f s).mem = s.mem ∧ (request op f s).conn = s.conn ∧ (request op f s).cells = s.cells ∧ (request op f
    s).mob = s.mob ∧ (request op f s).calls = s.calls ∧ (request op f s).speech = s.speech ∧ (request op f s).texts =
    s.texts ∧ (request op f s).sleep = s.sleep ∧ (request op f s).events = s.events := by
  unfold request
  (try dsimp only)
  (repeat' split) <;> simp

@[simp] theorem sendNext_frame (s : State) : (sendNext s).pending = s.pending ∧ (sendNext s).resetN = s.resetN ∧
    (sendNext s).resetPhase = s.resetPhase ∧ (sendNext s).teardown = s.teardown ∧ (sendNext s).frame = s.frame ∧
    (sendNext s).bind = s.bind ∧ (sendNext s).port = s.port ∧ (sendNext s).mem = s.mem ∧ (sendNext s).conn = s.conn ∧
    (sendNext s).cells = s.cells ∧ (sendNext s).mob = s.mob ∧ (sendNext s).calls = s.calls ∧ (sendNext s).speech =
    s.speech ∧ (sendNext s).texts = s.texts ∧ (sendNext s).sleep = s.sleep ∧ (sendNext s).events = s.events := by
  unfold sendNext
  (try dsimp only)
  (repeat' split) <;> simp

@[simp] theorem addDirty_frame (d : DirtyLine) (s : State) : (addDirty d s).pending = s.pending ∧ (addDirty d
    s).resetN = s.resetN ∧ (addDirty d s).resetPhase = s.resetPhase ∧ (addDirty d s).teardown = s.teardown ∧ (addDirty
    d s).out = s.out ∧ (addDirty d s).frame = s.frame ∧ (addDirty d s).bind = s.bind ∧ (addDirty d s).port = s.port ∧
    (addDirty d s).mem = s.mem ∧ (addDirty d s).link = s.link ∧ (addDirty d s).conn = s.conn ∧ (addDirty d s).cells =
    s.cells ∧ (addDirty d s).mob = s.mob ∧ (addDirty d s).calls = s.calls ∧ (addDirty d s).speech = s.speech ∧
    (addDirty d s).texts = s.texts ∧ (addDirty d s).events = s.events := by
  unfold addDirty
  (try dsimp only)
  (repeat' split) <;> simp

@[simp] theorem planLineWrite_frame (j : Job) (i : Nat) (d : DirtyLine) (bytes : LineBytes) (s : State) :
    (planLineWrite j i d bytes s).pending = s.pending ∧ (planLineWrite j i d bytes s).resetN = s.resetN ∧
    (planLineWrite j i d bytes s).resetPhase = s.resetPhase ∧ (planLineWrite j i d bytes s).teardown = s.teardown ∧
    (planLineWrite j i d bytes s).out = s.out ∧ (planLineWrite j i d bytes s).frame = s.frame ∧ (planLineWrite j i d
    bytes s).bind = s.bind ∧ (planLineWrite j i d bytes s).port = s.port ∧ (planLineWrite j i d bytes s).link = s.link
    ∧ (planLineWrite j i d bytes s).conn = s.conn ∧ (planLineWrite j i d bytes s).cells = s.cells ∧ (planLineWrite j i
    d bytes s).mob = s.mob ∧ (planLineWrite j i d bytes s).calls = s.calls ∧ (planLineWrite j i d bytes s).speech =
    s.speech ∧ (planLineWrite j i d bytes s).texts = s.texts ∧ (planLineWrite j i d bytes s).events = s.events := by
  unfold planLineWrite
  (try dsimp only)
  (repeat' split) <;> simp

@[simp] theorem notePlan_frame (j : Job) (old s : State) : (notePlan j old s).pending = s.pending ∧ (notePlan j old
    s).resetN = s.resetN ∧ (notePlan j old s).resetPhase = s.resetPhase ∧ (notePlan j old s).teardown = s.teardown ∧
    (notePlan j old s).out = s.out ∧ (notePlan j old s).frame = s.frame ∧ (notePlan j old s).bind = s.bind ∧ (notePlan
    j old s).port = s.port ∧ (notePlan j old s).link = s.link ∧ (notePlan j old s).conn = s.conn ∧ (notePlan j old
    s).cells = s.cells ∧ (notePlan j old s).mob = s.mob ∧ (notePlan j old s).calls = s.calls ∧ (notePlan j old
    s).speech = s.speech ∧ (notePlan j old s).texts = s.texts ∧ (notePlan j old s).events = s.events := by
  unfold notePlan
  (try dsimp only)
  (repeat' split) <;> simp

@[simp] theorem mirror_frame (n : Fin 13) (s : State) : (mirror n s).pending = s.pending ∧ (mirror n s).resetN =
    s.resetN ∧ (mirror n s).resetPhase = s.resetPhase ∧ (mirror n s).teardown = s.teardown ∧ (mirror n s).out = s.out
    ∧ (mirror n s).frame = s.frame ∧ (mirror n s).bind = s.bind ∧ (mirror n s).port = s.port ∧ (mirror n s).link =
    s.link ∧ (mirror n s).conn = s.conn ∧ (mirror n s).cells = s.cells ∧ (mirror n s).mob = s.mob ∧ (mirror n s).calls
    = s.calls ∧ (mirror n s).speech = s.speech ∧ (mirror n s).texts = s.texts ∧ (mirror n s).events = s.events := by
  unfold mirror
  (try dsimp only)
  (repeat' split) <;> simp

@[simp] theorem rouse_frame (s : State) : (rouse s).pending = s.pending ∧ (rouse s).resetN = s.resetN ∧ (rouse
    s).resetPhase = s.resetPhase ∧ (rouse s).teardown = s.teardown ∧ (rouse s).frame = s.frame ∧ (rouse s).bind =
    s.bind ∧ (rouse s).port = s.port ∧ (rouse s).link = s.link ∧ (rouse s).conn = s.conn ∧ (rouse s).cells = s.cells ∧
    (rouse s).mob = s.mob ∧ (rouse s).calls = s.calls ∧ (rouse s).speech = s.speech ∧ (rouse s).texts = s.texts := by
  unfold rouse
  (try dsimp only)
  (repeat' split) <;> simp

@[simp] theorem discardFull_frame (s : State) : (discardFull s).pending = s.pending ∧ (discardFull s).resetN =
    s.resetN ∧ (discardFull s).resetPhase = s.resetPhase ∧ (discardFull s).teardown = s.teardown ∧ (discardFull s).out
    = s.out ∧ (discardFull s).frame = s.frame ∧ (discardFull s).bind = s.bind ∧ (discardFull s).port = s.port ∧
    (discardFull s).mem = s.mem ∧ (discardFull s).link = s.link ∧ (discardFull s).conn = s.conn ∧ (discardFull
    s).cells = s.cells ∧ (discardFull s).mob = s.mob ∧ (discardFull s).calls = s.calls ∧ (discardFull s).speech =
    s.speech ∧ (discardFull s).texts = s.texts ∧ (discardFull s).sleep = s.sleep := by
  unfold discardFull
  (try dsimp only)
  (repeat' split) <;> simp

@[simp] theorem placeOne_frame (s : State) : (placeOne s).pending = s.pending ∧ (placeOne s).resetN = s.resetN ∧
    (placeOne s).resetPhase = s.resetPhase ∧ (placeOne s).teardown = s.teardown ∧ (placeOne s).out = s.out ∧ (placeOne
    s).frame = s.frame ∧ (placeOne s).bind = s.bind ∧ (placeOne s).port = s.port ∧ (placeOne s).link = s.link ∧
    (placeOne s).conn = s.conn ∧ (placeOne s).cells = s.cells ∧ (placeOne s).mob = s.mob ∧ (placeOne s).calls =
    s.calls ∧ (placeOne s).speech = s.speech ∧ (placeOne s).texts = s.texts ∧ (placeOne s).sleep = s.sleep := by
  unfold placeOne
  (try dsimp only)
  (repeat' split) <;> simp

@[simp] theorem pumpEvents_frame (n : Nat) (s : State) : (pumpEvents n s).pending = s.pending ∧
    (pumpEvents n s).resetN = s.resetN ∧ (pumpEvents n s).resetPhase = s.resetPhase ∧
    (pumpEvents n s).teardown = s.teardown ∧ (pumpEvents n s).out = s.out ∧ (pumpEvents n s).frame = s.frame ∧
    (pumpEvents n s).bind = s.bind ∧ (pumpEvents n s).port = s.port ∧ (pumpEvents n s).link = s.link ∧
    (pumpEvents n s).conn = s.conn ∧ (pumpEvents n s).cells = s.cells ∧ (pumpEvents n s).mob = s.mob ∧
    (pumpEvents n s).calls = s.calls ∧ (pumpEvents n s).speech = s.speech ∧ (pumpEvents n s).texts = s.texts ∧
    (pumpEvents n s).sleep = s.sleep := by
  induction n generalizing s with
  | zero => simp [pumpEvents]
  | succ n ih =>
    unfold pumpEvents
    dsimp only
    repeat' split
    all_goals simp [ih]

@[simp] theorem placeEvents_frame (s : State) : (placeEvents s).pending = s.pending ∧ (placeEvents s).resetN =
    s.resetN ∧ (placeEvents s).resetPhase = s.resetPhase ∧ (placeEvents s).teardown = s.teardown ∧ (placeEvents s).out
    = s.out ∧ (placeEvents s).frame = s.frame ∧ (placeEvents s).bind = s.bind ∧ (placeEvents s).port = s.port ∧
    (placeEvents s).link = s.link ∧ (placeEvents s).conn = s.conn ∧ (placeEvents s).cells = s.cells ∧ (placeEvents
    s).mob = s.mob ∧ (placeEvents s).calls = s.calls ∧ (placeEvents s).speech = s.speech ∧ (placeEvents s).texts =
    s.texts ∧ (placeEvents s).sleep = s.sleep := by
  unfold placeEvents
  (try dsimp only)
  (repeat' split) <;> simp

@[simp] theorem forceEvents_frame (s : State) : (forceEvents s).pending = s.pending ∧ (forceEvents s).resetN =
    s.resetN ∧ (forceEvents s).resetPhase = s.resetPhase ∧ (forceEvents s).teardown = s.teardown ∧ (forceEvents s).out
    = s.out ∧ (forceEvents s).frame = s.frame ∧ (forceEvents s).bind = s.bind ∧ (forceEvents s).port = s.port ∧
    (forceEvents s).link = s.link ∧ (forceEvents s).conn = s.conn ∧ (forceEvents s).cells = s.cells ∧ (forceEvents
    s).mob = s.mob ∧ (forceEvents s).calls = s.calls ∧ (forceEvents s).speech = s.speech ∧ (forceEvents s).texts =
    s.texts ∧ (forceEvents s).sleep = s.sleep := by
  unfold forceEvents
  (try dsimp only)
  (repeat' split) <;> simp

@[simp] theorem raiseNow_frame (e : Event) (s : State) : (raiseNow e s).pending = s.pending ∧ (raiseNow e s).resetN =
    s.resetN ∧ (raiseNow e s).resetPhase = s.resetPhase ∧ (raiseNow e s).teardown = s.teardown ∧ (raiseNow e s).frame
    = s.frame ∧ (raiseNow e s).bind = s.bind ∧ (raiseNow e s).port = s.port ∧ (raiseNow e s).link = s.link ∧ (raiseNow
    e s).conn = s.conn ∧ (raiseNow e s).cells = s.cells ∧ (raiseNow e s).mob = s.mob ∧ (raiseNow e s).calls = s.calls
    ∧ (raiseNow e s).speech = s.speech ∧ (raiseNow e s).texts = s.texts := by
  unfold raiseNow
  (try dsimp only)
  (repeat' split) <;> simp

@[simp] theorem raise_frame (j : Job) (e : Event) (s : State) : (raise j e s).pending = s.pending ∧ (raise j e
    s).resetN = s.resetN ∧ (raise j e s).resetPhase = s.resetPhase ∧ (raise j e s).teardown = s.teardown ∧ (raise j e
    s).frame = s.frame ∧ (raise j e s).bind = s.bind ∧ (raise j e s).port = s.port ∧ (raise j e s).link = s.link ∧
    (raise j e s).conn = s.conn ∧ (raise j e s).cells = s.cells ∧ (raise j e s).mob = s.mob ∧ (raise j e s).calls =
    s.calls ∧ (raise j e s).speech = s.speech ∧ (raise j e s).texts = s.texts := by
  unfold raise
  (try dsimp only)
  (repeat' split) <;> simp

@[simp] theorem ignoreConfig_frame (k : Kind) (record : Half) (offset : Nat) (s : State) : (ignoreConfig k record
    offset s).pending = s.pending ∧ (ignoreConfig k record offset s).resetN = s.resetN ∧ (ignoreConfig k record offset
    s).resetPhase = s.resetPhase ∧ (ignoreConfig k record offset s).teardown = s.teardown ∧ (ignoreConfig k record
    offset s).frame = s.frame ∧ (ignoreConfig k record offset s).bind = s.bind ∧ (ignoreConfig k record offset s).port
    = s.port ∧ (ignoreConfig k record offset s).link = s.link ∧ (ignoreConfig k record offset s).conn = s.conn ∧
    (ignoreConfig k record offset s).cells = s.cells ∧ (ignoreConfig k record offset s).mob = s.mob ∧ (ignoreConfig k
    record offset s).calls = s.calls ∧ (ignoreConfig k record offset s).speech = s.speech ∧ (ignoreConfig k record
    offset s).texts = s.texts := by
  unfold ignoreConfig
  (try dsimp only)
  (repeat' split) <;> simp

@[simp] theorem placeDirty_frame (s : State) : (placeDirty s).pending = s.pending ∧ (placeDirty s).resetN = s.resetN ∧
    (placeDirty s).resetPhase = s.resetPhase ∧ (placeDirty s).teardown = s.teardown ∧ (placeDirty s).out = s.out ∧
    (placeDirty s).frame = s.frame ∧ (placeDirty s).bind = s.bind ∧ (placeDirty s).port = s.port ∧ (placeDirty s).link
    = s.link ∧ (placeDirty s).conn = s.conn ∧ (placeDirty s).cells = s.cells ∧ (placeDirty s).mob = s.mob ∧
    (placeDirty s).calls = s.calls ∧ (placeDirty s).speech = s.speech ∧ (placeDirty s).texts = s.texts ∧ (placeDirty
    s).events = s.events := by
  unfold placeDirty
  (try dsimp only)
  (repeat' split) <;> simp

@[simp] theorem setWriteBack_frame (w : WriteBack) (s : State) : (setWriteBack w s).pending = s.pending ∧
    (setWriteBack w s).resetN = s.resetN ∧ (setWriteBack w s).resetPhase = s.resetPhase ∧ (setWriteBack w s).teardown
    = s.teardown ∧ (setWriteBack w s).out = s.out ∧ (setWriteBack w s).frame = s.frame ∧ (setWriteBack w s).bind =
    s.bind ∧ (setWriteBack w s).port = s.port ∧ (setWriteBack w s).mem = s.mem ∧ (setWriteBack w s).link = s.link ∧
    (setWriteBack w s).conn = s.conn ∧ (setWriteBack w s).cells = s.cells ∧ (setWriteBack w s).mob = s.mob ∧
    (setWriteBack w s).calls = s.calls ∧ (setWriteBack w s).speech = s.speech ∧ (setWriteBack w s).texts = s.texts ∧
    (setWriteBack w s).events = s.events := by
  unfold setWriteBack
  (try dsimp only)
  (repeat' split) <;> simp

@[simp] theorem liftSleepHold_frame (s : State) : (liftSleepHold s).pending = s.pending ∧ (liftSleepHold s).resetN =
    s.resetN ∧ (liftSleepHold s).resetPhase = s.resetPhase ∧ (liftSleepHold s).teardown = s.teardown ∧ (liftSleepHold
    s).frame = s.frame ∧ (liftSleepHold s).bind = s.bind ∧ (liftSleepHold s).link = s.link ∧ (liftSleepHold s).conn =
    s.conn ∧ (liftSleepHold s).cells = s.cells ∧ (liftSleepHold s).mob = s.mob ∧ (liftSleepHold s).calls = s.calls ∧
    (liftSleepHold s).speech = s.speech ∧ (liftSleepHold s).texts = s.texts ∧ (liftSleepHold s).sleep = s.sleep ∧
    (liftSleepHold s).events = s.events := by
  unfold liftSleepHold
  (try dsimp only)
  (repeat' split) <;> simp

@[simp] theorem pumpWriteBack_frame (n : Nat) (s : State) : (pumpWriteBack n s).pending = s.pending ∧
    (pumpWriteBack n s).resetN = s.resetN ∧ (pumpWriteBack n s).resetPhase = s.resetPhase ∧
    (pumpWriteBack n s).teardown = s.teardown ∧ (pumpWriteBack n s).frame = s.frame ∧
    (pumpWriteBack n s).bind = s.bind ∧ (pumpWriteBack n s).link = s.link ∧ (pumpWriteBack n s).conn = s.conn ∧
    (pumpWriteBack n s).cells = s.cells ∧ (pumpWriteBack n s).mob = s.mob ∧ (pumpWriteBack n s).calls = s.calls ∧
    (pumpWriteBack n s).speech = s.speech ∧ (pumpWriteBack n s).texts = s.texts := by
  induction n generalizing s with
  | zero => simp [pumpWriteBack]
  | succ n ih =>
    unfold pumpWriteBack
    dsimp only
    repeat' split
    all_goals simp [ih]

@[simp] theorem writeBack_frame (s : State) : (writeBack s).pending = s.pending ∧ (writeBack s).resetN = s.resetN ∧
    (writeBack s).resetPhase = s.resetPhase ∧ (writeBack s).teardown = s.teardown ∧ (writeBack s).frame = s.frame ∧
    (writeBack s).bind = s.bind ∧ (writeBack s).link = s.link ∧ (writeBack s).conn = s.conn ∧ (writeBack s).cells =
    s.cells ∧ (writeBack s).mob = s.mob ∧ (writeBack s).calls = s.calls ∧ (writeBack s).speech = s.speech ∧ (writeBack
    s).texts = s.texts := by
  unfold writeBack
  (try dsimp only)
  (repeat' split) <;> simp

@[simp] theorem forceWriteBack_frame (s : State) : (forceWriteBack s).pending = s.pending ∧ (forceWriteBack s).resetN
    = s.resetN ∧ (forceWriteBack s).resetPhase = s.resetPhase ∧ (forceWriteBack s).teardown = s.teardown ∧
    (forceWriteBack s).frame = s.frame ∧ (forceWriteBack s).bind = s.bind ∧ (forceWriteBack s).link = s.link ∧
    (forceWriteBack s).conn = s.conn ∧ (forceWriteBack s).cells = s.cells ∧ (forceWriteBack s).mob = s.mob ∧
    (forceWriteBack s).calls = s.calls ∧ (forceWriteBack s).speech = s.speech ∧ (forceWriteBack s).texts = s.texts := by
  unfold forceWriteBack
  (try dsimp only)
  (repeat' split) <;> simp

@[simp] theorem beginWriteBack_frame (resume : Bool) (s : State) : (beginWriteBack resume s).pending = s.pending ∧
    (beginWriteBack resume s).resetN = s.resetN ∧ (beginWriteBack resume s).resetPhase = s.resetPhase ∧
    (beginWriteBack resume s).teardown = s.teardown ∧ (beginWriteBack resume s).frame = s.frame ∧ (beginWriteBack
    resume s).bind = s.bind ∧ (beginWriteBack resume s).link = s.link ∧ (beginWriteBack resume s).conn = s.conn ∧
    (beginWriteBack resume s).cells = s.cells ∧ (beginWriteBack resume s).mob = s.mob ∧ (beginWriteBack resume
    s).calls = s.calls ∧ (beginWriteBack resume s).speech = s.speech ∧ (beginWriteBack resume s).texts = s.texts := by
  unfold beginWriteBack
  (try dsimp only)
  (repeat' split) <;> simp

@[simp] theorem checkWake_frame (s : State) : (checkWake s).pending = s.pending ∧ (checkWake s).resetN = s.resetN ∧
    (checkWake s).resetPhase = s.resetPhase ∧ (checkWake s).teardown = s.teardown ∧ (checkWake s).out = s.out ∧
    (checkWake s).frame = s.frame ∧ (checkWake s).bind = s.bind ∧ (checkWake s).port = s.port ∧ (checkWake s).mem =
    s.mem ∧ (checkWake s).link = s.link ∧ (checkWake s).conn = s.conn ∧ (checkWake s).cells = s.cells ∧ (checkWake
    s).mob = s.mob ∧ (checkWake s).calls = s.calls ∧ (checkWake s).speech = s.speech ∧ (checkWake s).texts = s.texts ∧
    (checkWake s).events = s.events := by
  unfold checkWake
  (try dsimp only)
  (repeat' split) <;> simp

@[simp] theorem wakeMark_frame (s : State) : (wakeMark s).pending = s.pending ∧ (wakeMark s).resetN = s.resetN ∧
    (wakeMark s).resetPhase = s.resetPhase ∧ (wakeMark s).teardown = s.teardown ∧ (wakeMark s).out = s.out ∧ (wakeMark
    s).frame = s.frame ∧ (wakeMark s).bind = s.bind ∧ (wakeMark s).port = s.port ∧ (wakeMark s).link = s.link ∧
    (wakeMark s).conn = s.conn ∧ (wakeMark s).cells = s.cells ∧ (wakeMark s).mob = s.mob ∧ (wakeMark s).calls =
    s.calls ∧ (wakeMark s).speech = s.speech ∧ (wakeMark s).texts = s.texts ∧ (wakeMark s).events = s.events := by
  unfold wakeMark
  (try dsimp only)
  (repeat' split) <;> simp

@[simp] theorem abandonSleep_frame (cause : Cause) (primary : Cause) (line : Nat) (s : State) : (abandonSleep cause
    primary line s).pending = s.pending ∧ (abandonSleep cause primary line s).resetN = s.resetN ∧ (abandonSleep cause
    primary line s).resetPhase = s.resetPhase ∧ (abandonSleep cause primary line s).teardown = s.teardown ∧
    (abandonSleep cause primary line s).frame = s.frame ∧ (abandonSleep cause primary line s).bind = s.bind ∧
    (abandonSleep cause primary line s).port = s.port ∧ (abandonSleep cause primary line s).link = s.link ∧
    (abandonSleep cause primary line s).conn = s.conn ∧ (abandonSleep cause primary line s).cells = s.cells ∧
    (abandonSleep cause primary line s).mob = s.mob ∧ (abandonSleep cause primary line s).calls = s.calls ∧
    (abandonSleep cause primary line s).speech = s.speech ∧ (abandonSleep cause primary line s).texts = s.texts := by
  unfold abandonSleep
  (try dsimp only)
  (repeat' split) <;> simp

@[simp] theorem notePlanBack_frame (old s : State) : (notePlanBack old s).pending = s.pending ∧ (notePlanBack old
    s).resetN = s.resetN ∧ (notePlanBack old s).resetPhase = s.resetPhase ∧ (notePlanBack old s).teardown = s.teardown
    ∧ (notePlanBack old s).out = s.out ∧ (notePlanBack old s).frame = s.frame ∧ (notePlanBack old s).bind = s.bind ∧
    (notePlanBack old s).port = s.port ∧ (notePlanBack old s).link = s.link ∧ (notePlanBack old s).conn = s.conn ∧
    (notePlanBack old s).cells = s.cells ∧ (notePlanBack old s).mob = s.mob ∧ (notePlanBack old s).calls = s.calls ∧
    (notePlanBack old s).speech = s.speech ∧ (notePlanBack old s).texts = s.texts ∧ (notePlanBack old s).events =
    s.events := by
  unfold notePlanBack
  (try dsimp only)
  (repeat' split) <;> simp

@[simp] theorem resume_frame (primary : Cause) (line : Nat) (s : State) : (resume primary line s).pending = s.pending
    ∧ (resume primary line s).resetN = s.resetN ∧ (resume primary line s).resetPhase = s.resetPhase ∧ (resume primary
    line s).teardown = s.teardown ∧ (resume primary line s).frame = s.frame ∧ (resume primary line s).bind = s.bind ∧
    (resume primary line s).link = s.link ∧ (resume primary line s).conn = s.conn ∧ (resume primary line s).cells =
    s.cells ∧ (resume primary line s).mob = s.mob ∧ (resume primary line s).calls = s.calls ∧ (resume primary line
    s).speech = s.speech ∧ (resume primary line s).texts = s.texts := by
  unfold resume
  (try dsimp only)
  (repeat' split) <;> simp

@[simp] theorem primaryCause_frame (c : Cause) (line : Nat) (s : State) : (primaryCause c line s).pending = s.pending
    ∧ (primaryCause c line s).resetN = s.resetN ∧ (primaryCause c line s).resetPhase = s.resetPhase ∧ (primaryCause c
    line s).teardown = s.teardown ∧ (primaryCause c line s).frame = s.frame ∧ (primaryCause c line s).bind = s.bind ∧
    (primaryCause c line s).link = s.link ∧ (primaryCause c line s).conn = s.conn ∧ (primaryCause c line s).cells =
    s.cells ∧ (primaryCause c line s).mob = s.mob ∧ (primaryCause c line s).calls = s.calls ∧ (primaryCause c line
    s).speech = s.speech ∧ (primaryCause c line s).texts = s.texts := by
  unfold primaryCause
  (try dsimp only)
  (repeat' split) <;> simp

@[simp] theorem raisePrimary_frame (j : Job) (e : Event) (c : Cause) (s : State) : (raisePrimary j e c s).pending =
    s.pending ∧ (raisePrimary j e c s).resetN = s.resetN ∧ (raisePrimary j e c s).resetPhase = s.resetPhase ∧
    (raisePrimary j e c s).teardown = s.teardown ∧ (raisePrimary j e c s).frame = s.frame ∧ (raisePrimary j e c
    s).bind = s.bind ∧ (raisePrimary j e c s).link = s.link ∧ (raisePrimary j e c s).conn = s.conn ∧ (raisePrimary j e
    c s).cells = s.cells ∧ (raisePrimary j e c s).mob = s.mob ∧ (raisePrimary j e c s).calls = s.calls ∧ (raisePrimary
    j e c s).speech = s.speech ∧ (raisePrimary j e c s).texts = s.texts := by
  unfold raisePrimary
  (try dsimp only)
  (repeat' split) <;> simp

@[simp] theorem processorActivity_frame (s : State) : (processorActivity s).pending = s.pending ∧ (processorActivity
    s).resetN = s.resetN ∧ (processorActivity s).resetPhase = s.resetPhase ∧ (processorActivity s).teardown =
    s.teardown ∧ (processorActivity s).frame = s.frame ∧ (processorActivity s).bind = s.bind ∧ (processorActivity
    s).link = s.link ∧ (processorActivity s).conn = s.conn ∧ (processorActivity s).cells = s.cells ∧
    (processorActivity s).mob = s.mob ∧ (processorActivity s).calls = s.calls ∧ (processorActivity s).speech =
    s.speech ∧ (processorActivity s).texts = s.texts := by
  unfold processorActivity
  (try dsimp only)
  (repeat' split) <;> simp

end Sys2Proof.Machine
end

