-- ==== Sys2Proof/Laws/FrameJobs.lean ====
section
/-! SUPPORT. The cell table, the calls, the texts and the connection: the parts of the state that each operation leaves alone. -/

set_option linter.unusedSimpArgs false
set_option linter.unusedTactic false
set_option linter.unnecessarySeqFocus false
set_option linter.unreachableTactic false

namespace Sys2Proof.Machine

@[simp] theorem setSlot_frame (n : Fin 13) (f : Slot → Slot) (s : State) : (setSlot n f s).pending = s.pending ∧
    (setSlot n f s).resetN = s.resetN ∧ (setSlot n f s).resetPhase = s.resetPhase ∧ (setSlot n f s).teardown =
    s.teardown ∧ (setSlot n f s).out = s.out ∧ (setSlot n f s).frame = s.frame ∧ (setSlot n f s).bind = s.bind ∧
    (setSlot n f s).port = s.port ∧ (setSlot n f s).mem = s.mem ∧ (setSlot n f s).link = s.link ∧ (setSlot n f s).conn
    = s.conn ∧ (setSlot n f s).mob = s.mob ∧ (setSlot n f s).calls = s.calls ∧ (setSlot n f s).speech = s.speech ∧
    (setSlot n f s).texts = s.texts ∧ (setSlot n f s).sleep = s.sleep ∧ (setSlot n f s).events = s.events := by
  unfold setSlot
  (try dsimp only)
  (repeat' split) <;> simp

@[simp] theorem changeSlot_frame (n : Fin 13) (f : Slot → Slot) (s : State) : (changeSlot n f s).pending = s.pending ∧
    (changeSlot n f s).resetN = s.resetN ∧ (changeSlot n f s).resetPhase = s.resetPhase ∧ (changeSlot n f s).teardown
    = s.teardown ∧ (changeSlot n f s).out = s.out ∧ (changeSlot n f s).frame = s.frame ∧ (changeSlot n f s).bind =
    s.bind ∧ (changeSlot n f s).port = s.port ∧ (changeSlot n f s).link = s.link ∧ (changeSlot n f s).conn = s.conn ∧
    (changeSlot n f s).mob = s.mob ∧ (changeSlot n f s).calls = s.calls ∧ (changeSlot n f s).speech = s.speech ∧
    (changeSlot n f s).texts = s.texts ∧ (changeSlot n f s).events = s.events := by
  unfold changeSlot
  (try dsimp only)
  (repeat' split) <;> simp

@[simp] theorem abortMeasure_frame (s : State) : (abortMeasure s).pending = s.pending ∧ (abortMeasure s).resetN =
    s.resetN ∧ (abortMeasure s).resetPhase = s.resetPhase ∧ (abortMeasure s).teardown = s.teardown ∧ (abortMeasure
    s).out = s.out ∧ (abortMeasure s).frame = s.frame ∧ (abortMeasure s).bind = s.bind ∧ (abortMeasure s).port =
    s.port ∧ (abortMeasure s).mem = s.mem ∧ (abortMeasure s).link = s.link ∧ (abortMeasure s).conn = s.conn ∧
    (abortMeasure s).mob = s.mob ∧ (abortMeasure s).calls = s.calls ∧ (abortMeasure s).speech = s.speech ∧
    (abortMeasure s).texts = s.texts ∧ (abortMeasure s).sleep = s.sleep ∧ (abortMeasure s).events = s.events := by
  unfold abortMeasure
  (try dsimp only)
  (repeat' split) <;> simp

@[simp] theorem dropRound_frame (s : State) : (dropRound s).pending = s.pending ∧ (dropRound s).resetN = s.resetN ∧
    (dropRound s).resetPhase = s.resetPhase ∧ (dropRound s).teardown = s.teardown ∧ (dropRound s).out = s.out ∧
    (dropRound s).frame = s.frame ∧ (dropRound s).bind = s.bind ∧ (dropRound s).port = s.port ∧ (dropRound s).mem =
    s.mem ∧ (dropRound s).link = s.link ∧ (dropRound s).conn = s.conn ∧ (dropRound s).mob = s.mob ∧ (dropRound
    s).calls = s.calls ∧ (dropRound s).speech = s.speech ∧ (dropRound s).texts = s.texts ∧ (dropRound s).sleep =
    s.sleep ∧ (dropRound s).events = s.events := by
  unfold dropRound
  (try dsimp only)
  (repeat' split) <;> simp

@[simp] theorem abortRound_frame (s : State) : (abortRound s).pending = s.pending ∧ (abortRound s).resetN = s.resetN ∧
    (abortRound s).resetPhase = s.resetPhase ∧ (abortRound s).teardown = s.teardown ∧ (abortRound s).out = s.out ∧
    (abortRound s).frame = s.frame ∧ (abortRound s).bind = s.bind ∧ (abortRound s).port = s.port ∧ (abortRound s).mem
    = s.mem ∧ (abortRound s).link = s.link ∧ (abortRound s).conn = s.conn ∧ (abortRound s).mob = s.mob ∧ (abortRound
    s).calls = s.calls ∧ (abortRound s).speech = s.speech ∧ (abortRound s).texts = s.texts ∧ (abortRound s).sleep =
    s.sleep ∧ (abortRound s).events = s.events := by
  unfold abortRound
  (try dsimp only)
  (repeat' split) <;> simp

@[simp] theorem roundMoves_frame (s : State) : (roundMoves s).pending = s.pending ∧ (roundMoves s).resetN = s.resetN ∧
    (roundMoves s).resetPhase = s.resetPhase ∧ (roundMoves s).teardown = s.teardown ∧ (roundMoves s).out = s.out ∧
    (roundMoves s).frame = s.frame ∧ (roundMoves s).bind = s.bind ∧ (roundMoves s).port = s.port ∧ (roundMoves s).mem
    = s.mem ∧ (roundMoves s).link = s.link ∧ (roundMoves s).conn = s.conn ∧ (roundMoves s).mob = s.mob ∧ (roundMoves
    s).calls = s.calls ∧ (roundMoves s).speech = s.speech ∧ (roundMoves s).texts = s.texts ∧ (roundMoves s).sleep =
    s.sleep ∧ (roundMoves s).events = s.events := by
  unfold roundMoves
  (try dsimp only)
  (repeat' split) <;> simp

@[simp] theorem sendMeasure_frame (s : State) : (sendMeasure s).pending = s.pending ∧ (sendMeasure s).resetN =
    s.resetN ∧ (sendMeasure s).resetPhase = s.resetPhase ∧ (sendMeasure s).teardown = s.teardown ∧ (sendMeasure
    s).frame = s.frame ∧ (sendMeasure s).bind = s.bind ∧ (sendMeasure s).port = s.port ∧ (sendMeasure s).mem = s.mem ∧
    (sendMeasure s).conn = s.conn ∧ (sendMeasure s).cells = s.cells ∧ (sendMeasure s).mob = s.mob ∧ (sendMeasure
    s).calls = s.calls ∧ (sendMeasure s).speech = s.speech ∧ (sendMeasure s).texts = s.texts ∧ (sendMeasure s).sleep =
    s.sleep ∧ (sendMeasure s).events = s.events := by
  unfold sendMeasure
  (try dsimp only)
  (repeat' split) <;> simp

@[simp] theorem enterSample_frame (s : State) : (enterSample s).pending = s.pending ∧ (enterSample s).resetN =
    s.resetN ∧ (enterSample s).resetPhase = s.resetPhase ∧ (enterSample s).teardown = s.teardown ∧ (enterSample
    s).frame = s.frame ∧ (enterSample s).bind = s.bind ∧ (enterSample s).port = s.port ∧ (enterSample s).mem = s.mem ∧
    (enterSample s).conn = s.conn ∧ (enterSample s).mob = s.mob ∧ (enterSample s).calls = s.calls ∧ (enterSample
    s).speech = s.speech ∧ (enterSample s).texts = s.texts ∧ (enterSample s).sleep = s.sleep ∧ (enterSample s).events
    = s.events := by
  unfold enterSample
  (try dsimp only)
  (repeat' split) <;> simp

@[simp] theorem startMeasure_frame (n : Fin 13) (first : Bool) (s : State) : (startMeasure n first s).pending =
    s.pending ∧ (startMeasure n first s).resetN = s.resetN ∧ (startMeasure n first s).resetPhase = s.resetPhase ∧
    (startMeasure n first s).teardown = s.teardown ∧ (startMeasure n first s).frame = s.frame ∧ (startMeasure n first
    s).bind = s.bind ∧ (startMeasure n first s).port = s.port ∧ (startMeasure n first s).mem = s.mem ∧ (startMeasure n
    first s).conn = s.conn ∧ (startMeasure n first s).mob = s.mob ∧ (startMeasure n first s).calls = s.calls ∧
    (startMeasure n first s).speech = s.speech ∧ (startMeasure n first s).texts = s.texts ∧ (startMeasure n first
    s).sleep = s.sleep ∧ (startMeasure n first s).events = s.events := by
  unfold startMeasure
  (try dsimp only)
  (repeat' split) <;> simp

@[simp] theorem wantRound_frame (s : State) : (wantRound s).pending = s.pending ∧ (wantRound s).resetN = s.resetN ∧
    (wantRound s).resetPhase = s.resetPhase ∧ (wantRound s).teardown = s.teardown ∧ (wantRound s).out = s.out ∧
    (wantRound s).frame = s.frame ∧ (wantRound s).bind = s.bind ∧ (wantRound s).port = s.port ∧ (wantRound s).mem =
    s.mem ∧ (wantRound s).link = s.link ∧ (wantRound s).conn = s.conn ∧ (wantRound s).mob = s.mob ∧ (wantRound
    s).calls = s.calls ∧ (wantRound s).speech = s.speech ∧ (wantRound s).texts = s.texts ∧ (wantRound s).sleep =
    s.sleep ∧ (wantRound s).events = s.events := by
  unfold wantRound
  (try dsimp only)
  (repeat' split) <;> simp

@[simp] theorem restartRound_frame (s : State) : (restartRound s).pending = s.pending ∧ (restartRound s).resetN =
    s.resetN ∧ (restartRound s).resetPhase = s.resetPhase ∧ (restartRound s).teardown = s.teardown ∧ (restartRound
    s).out = s.out ∧ (restartRound s).frame = s.frame ∧ (restartRound s).bind = s.bind ∧ (restartRound s).port =
    s.port ∧ (restartRound s).mem = s.mem ∧ (restartRound s).link = s.link ∧ (restartRound s).conn = s.conn ∧
    (restartRound s).mob = s.mob ∧ (restartRound s).calls = s.calls ∧ (restartRound s).speech = s.speech ∧
    (restartRound s).texts = s.texts ∧ (restartRound s).sleep = s.sleep ∧ (restartRound s).events = s.events := by
  unfold restartRound
  (try dsimp only)
  (repeat' split) <;> simp

@[simp] theorem reloadNext_frame (s : State) : (reloadNext s).pending = s.pending ∧ (reloadNext s).resetN = s.resetN ∧
    (reloadNext s).resetPhase = s.resetPhase ∧ (reloadNext s).teardown = s.teardown ∧ (reloadNext s).frame = s.frame ∧
    (reloadNext s).bind = s.bind ∧ (reloadNext s).port = s.port ∧ (reloadNext s).link = s.link ∧ (reloadNext s).conn =
    s.conn ∧ (reloadNext s).mob = s.mob ∧ (reloadNext s).calls = s.calls ∧ (reloadNext s).speech = s.speech ∧
    (reloadNext s).texts = s.texts := by
  unfold reloadNext
  (try dsimp only)
  (repeat' split) <;> simp

@[simp] theorem dropReload_frame (n : Fin 13) (s : State) : (dropReload n s).pending = s.pending ∧ (dropReload n
    s).resetN = s.resetN ∧ (dropReload n s).resetPhase = s.resetPhase ∧ (dropReload n s).teardown = s.teardown ∧
    (dropReload n s).out = s.out ∧ (dropReload n s).frame = s.frame ∧ (dropReload n s).bind = s.bind ∧ (dropReload n
    s).port = s.port ∧ (dropReload n s).link = s.link ∧ (dropReload n s).conn = s.conn ∧ (dropReload n s).mob = s.mob
    ∧ (dropReload n s).calls = s.calls ∧ (dropReload n s).speech = s.speech ∧ (dropReload n s).texts = s.texts ∧
    (dropReload n s).sleep = s.sleep ∧ (dropReload n s).events = s.events := by
  unfold dropReload
  (try dsimp only)
  (repeat' split) <;> simp

@[simp] theorem leaveReload_frame (n : Fin 13) (s : State) : (leaveReload n s).pending = s.pending ∧ (leaveReload n
    s).resetN = s.resetN ∧ (leaveReload n s).resetPhase = s.resetPhase ∧ (leaveReload n s).teardown = s.teardown ∧
    (leaveReload n s).frame = s.frame ∧ (leaveReload n s).bind = s.bind ∧ (leaveReload n s).port = s.port ∧
    (leaveReload n s).link = s.link ∧ (leaveReload n s).conn = s.conn ∧ (leaveReload n s).mob = s.mob ∧ (leaveReload n
    s).calls = s.calls ∧ (leaveReload n s).speech = s.speech ∧ (leaveReload n s).texts = s.texts := by
  unfold leaveReload
  (try dsimp only)
  (repeat' split) <;> simp

@[simp] theorem pauseReload_frame (s : State) : (pauseReload s).pending = s.pending ∧ (pauseReload s).resetN =
    s.resetN ∧ (pauseReload s).resetPhase = s.resetPhase ∧ (pauseReload s).teardown = s.teardown ∧ (pauseReload s).out
    = s.out ∧ (pauseReload s).frame = s.frame ∧ (pauseReload s).bind = s.bind ∧ (pauseReload s).port = s.port ∧
    (pauseReload s).link = s.link ∧ (pauseReload s).conn = s.conn ∧ (pauseReload s).mob = s.mob ∧ (pauseReload
    s).calls = s.calls ∧ (pauseReload s).speech = s.speech ∧ (pauseReload s).texts = s.texts ∧ (pauseReload s).sleep =
    s.sleep ∧ (pauseReload s).events = s.events := by
  unfold pauseReload
  (try dsimp only)
  (repeat' split) <;> simp

@[simp] theorem processReload_frame (s : State) : (processReload s).pending = s.pending ∧ (processReload s).resetN =
    s.resetN ∧ (processReload s).resetPhase = s.resetPhase ∧ (processReload s).teardown = s.teardown ∧ (processReload
    s).frame = s.frame ∧ (processReload s).bind = s.bind ∧ (processReload s).port = s.port ∧ (processReload s).link =
    s.link ∧ (processReload s).conn = s.conn ∧ (processReload s).mob = s.mob ∧ (processReload s).calls = s.calls ∧
    (processReload s).speech = s.speech ∧ (processReload s).texts = s.texts := by
  unfold processReload
  (try dsimp only)
  simp only [reloadNext_frame]
  refine ⟨foldl_keep State.pending ?_ _ _, foldl_keep State.resetN ?_ _ _, foldl_keep State.resetPhase ?_ _ _,
      foldl_keep State.teardown ?_ _ _, foldl_keep State.frame ?_ _ _, foldl_keep State.bind ?_ _ _, foldl_keep
      State.port ?_ _ _, foldl_keep State.link ?_ _ _, foldl_keep State.conn ?_ _ _, foldl_keep State.mob ?_ _ _,
      foldl_keep State.calls ?_ _ _, foldl_keep State.speech ?_ _ _, foldl_keep State.texts ?_ _ _⟩ <;>
    (intros; (repeat' split) <;> simp)

@[simp] theorem setMobSlot_frame (n : Fin 13) (f : MobSlot → MobSlot) (s : State) : (setMobSlot n f s).pending =
    s.pending ∧ (setMobSlot n f s).resetN = s.resetN ∧ (setMobSlot n f s).resetPhase = s.resetPhase ∧ (setMobSlot n f
    s).teardown = s.teardown ∧ (setMobSlot n f s).out = s.out ∧ (setMobSlot n f s).frame = s.frame ∧ (setMobSlot n f
    s).bind = s.bind ∧ (setMobSlot n f s).port = s.port ∧ (setMobSlot n f s).mem = s.mem ∧ (setMobSlot n f s).link =
    s.link ∧ (setMobSlot n f s).conn = s.conn ∧ (setMobSlot n f s).cells = s.cells ∧ (setMobSlot n f s).calls =
    s.calls ∧ (setMobSlot n f s).speech = s.speech ∧ (setMobSlot n f s).texts = s.texts ∧ (setMobSlot n f s).sleep =
    s.sleep ∧ (setMobSlot n f s).events = s.events := by
  unfold setMobSlot
  (try dsimp only)
  (repeat' split) <;> simp

@[simp] theorem beginCandidate_frame (n : Fin 13) (s : State) : (beginCandidate n s).pending = s.pending ∧
    (beginCandidate n s).resetN = s.resetN ∧ (beginCandidate n s).resetPhase = s.resetPhase ∧ (beginCandidate n
    s).teardown = s.teardown ∧ (beginCandidate n s).out = s.out ∧ (beginCandidate n s).frame = s.frame ∧
    (beginCandidate n s).bind = s.bind ∧ (beginCandidate n s).port = s.port ∧ (beginCandidate n s).mem = s.mem ∧
    (beginCandidate n s).link = s.link ∧ (beginCandidate n s).conn = s.conn ∧ (beginCandidate n s).calls = s.calls ∧
    (beginCandidate n s).speech = s.speech ∧ (beginCandidate n s).texts = s.texts ∧ (beginCandidate n s).sleep =
    s.sleep ∧ (beginCandidate n s).events = s.events := by
  unfold beginCandidate
  (try dsimp only)
  (repeat' split) <;> simp

@[simp] theorem endCandidate_frame (n : Fin 13) (s : State) : (endCandidate n s).pending = s.pending ∧ (endCandidate n
    s).resetN = s.resetN ∧ (endCandidate n s).resetPhase = s.resetPhase ∧ (endCandidate n s).teardown = s.teardown ∧
    (endCandidate n s).out = s.out ∧ (endCandidate n s).frame = s.frame ∧ (endCandidate n s).bind = s.bind ∧
    (endCandidate n s).port = s.port ∧ (endCandidate n s).mem = s.mem ∧ (endCandidate n s).link = s.link ∧
    (endCandidate n s).conn = s.conn ∧ (endCandidate n s).calls = s.calls ∧ (endCandidate n s).speech = s.speech ∧
    (endCandidate n s).texts = s.texts ∧ (endCandidate n s).sleep = s.sleep ∧ (endCandidate n s).events = s.events := by
  unfold endCandidate
  (try dsimp only)
  (repeat' split) <;> simp

@[simp] theorem evaluateSlot_frame (s : State) (n : Fin 13) : (evaluateSlot s n).pending = s.pending ∧ (evaluateSlot s
    n).resetN = s.resetN ∧ (evaluateSlot s n).resetPhase = s.resetPhase ∧ (evaluateSlot s n).teardown = s.teardown ∧
    (evaluateSlot s n).out = s.out ∧ (evaluateSlot s n).frame = s.frame ∧ (evaluateSlot s n).bind = s.bind ∧
    (evaluateSlot s n).port = s.port ∧ (evaluateSlot s n).link = s.link ∧ (evaluateSlot s n).conn = s.conn ∧
    (evaluateSlot s n).calls = s.calls ∧ (evaluateSlot s n).speech = s.speech ∧ (evaluateSlot s n).texts = s.texts ∧
    (evaluateSlot s n).events = s.events ∧ (evaluateSlot s n).mem = s.mem ∧ (evaluateSlot s n).sleep = s.sleep := by
  unfold evaluateSlot
  split <;> simp

@[simp] theorem sortCandidates_frame (s : State) : (sortCandidates s).pending = s.pending ∧ (sortCandidates s).resetN
    = s.resetN ∧ (sortCandidates s).resetPhase = s.resetPhase ∧ (sortCandidates s).teardown = s.teardown ∧
    (sortCandidates s).out = s.out ∧ (sortCandidates s).frame = s.frame ∧ (sortCandidates s).bind = s.bind ∧
    (sortCandidates s).port = s.port ∧ (sortCandidates s).mem = s.mem ∧ (sortCandidates s).link = s.link ∧
    (sortCandidates s).conn = s.conn ∧ (sortCandidates s).calls = s.calls ∧ (sortCandidates s).speech = s.speech ∧
    (sortCandidates s).texts = s.texts ∧ (sortCandidates s).sleep = s.sleep ∧ (sortCandidates s).events = s.events := by
  unfold sortCandidates
  (try dsimp only)
  refine ⟨foldl_keep State.pending ?_ _ _, foldl_keep State.resetN ?_ _ _, foldl_keep State.resetPhase ?_ _ _,
      foldl_keep State.teardown ?_ _ _, foldl_keep State.out ?_ _ _, foldl_keep State.frame ?_ _ _, foldl_keep
      State.bind ?_ _ _, foldl_keep State.port ?_ _ _, foldl_keep State.mem ?_ _ _, foldl_keep State.link ?_ _ _,
      foldl_keep State.conn ?_ _ _, foldl_keep State.calls ?_ _ _, foldl_keep State.speech ?_ _ _, foldl_keep
      State.texts ?_ _ _, foldl_keep State.sleep ?_ _ _, foldl_keep State.events ?_ _ _⟩ <;>
    (intros; (repeat' split) <;> simp)

@[simp] theorem endCandidates_frame (s : State) : (endCandidates s).pending = s.pending ∧ (endCandidates s).resetN =
    s.resetN ∧ (endCandidates s).resetPhase = s.resetPhase ∧ (endCandidates s).teardown = s.teardown ∧ (endCandidates
    s).out = s.out ∧ (endCandidates s).frame = s.frame ∧ (endCandidates s).bind = s.bind ∧ (endCandidates s).port =
    s.port ∧ (endCandidates s).mem = s.mem ∧ (endCandidates s).link = s.link ∧ (endCandidates s).conn = s.conn ∧
    (endCandidates s).calls = s.calls ∧ (endCandidates s).speech = s.speech ∧ (endCandidates s).texts = s.texts ∧
    (endCandidates s).sleep = s.sleep ∧ (endCandidates s).events = s.events := by
  unfold endCandidates
  (try dsimp only)
  refine ⟨foldl_keep State.pending ?_ _ _, foldl_keep State.resetN ?_ _ _, foldl_keep State.resetPhase ?_ _ _,
      foldl_keep State.teardown ?_ _ _, foldl_keep State.out ?_ _ _, foldl_keep State.frame ?_ _ _, foldl_keep
      State.bind ?_ _ _, foldl_keep State.port ?_ _ _, foldl_keep State.mem ?_ _ _, foldl_keep State.link ?_ _ _,
      foldl_keep State.conn ?_ _ _, foldl_keep State.calls ?_ _ _, foldl_keep State.speech ?_ _ _, foldl_keep
      State.texts ?_ _ _, foldl_keep State.sleep ?_ _ _, foldl_keep State.events ?_ _ _⟩ <;>
    (intros; (repeat' split) <;> simp)

@[simp] theorem mirrorSlots_frame (p : Fin 13 → Bool) (s : State) : (mirrorSlots p s).pending = s.pending ∧
    (mirrorSlots p s).resetN = s.resetN ∧ (mirrorSlots p s).resetPhase = s.resetPhase ∧ (mirrorSlots p s).teardown =
    s.teardown ∧ (mirrorSlots p s).out = s.out ∧ (mirrorSlots p s).frame = s.frame ∧ (mirrorSlots p s).bind = s.bind ∧
    (mirrorSlots p s).port = s.port ∧ (mirrorSlots p s).link = s.link ∧ (mirrorSlots p s).conn = s.conn ∧ (mirrorSlots
    p s).cells = s.cells ∧ (mirrorSlots p s).mob = s.mob ∧ (mirrorSlots p s).calls = s.calls ∧ (mirrorSlots p
    s).speech = s.speech ∧ (mirrorSlots p s).texts = s.texts ∧ (mirrorSlots p s).events = s.events := by
  unfold mirrorSlots
  (try dsimp only)
  refine ⟨foldl_keep State.pending ?_ _ _, foldl_keep State.resetN ?_ _ _, foldl_keep State.resetPhase ?_ _ _,
      foldl_keep State.teardown ?_ _ _, foldl_keep State.out ?_ _ _, foldl_keep State.frame ?_ _ _, foldl_keep
      State.bind ?_ _ _, foldl_keep State.port ?_ _ _, foldl_keep State.link ?_ _ _, foldl_keep State.conn ?_ _ _,
      foldl_keep State.cells ?_ _ _, foldl_keep State.mob ?_ _ _, foldl_keep State.calls ?_ _ _, foldl_keep
      State.speech ?_ _ _, foldl_keep State.texts ?_ _ _, foldl_keep State.events ?_ _ _⟩ <;>
    (intros; (repeat' split) <;> simp)

@[simp] theorem evaluateCandidates_frame (s : State) : (evaluateCandidates s).pending = s.pending ∧
    (evaluateCandidates s).resetN = s.resetN ∧ (evaluateCandidates s).resetPhase = s.resetPhase ∧ (evaluateCandidates
    s).teardown = s.teardown ∧ (evaluateCandidates s).out = s.out ∧ (evaluateCandidates s).frame = s.frame ∧
    (evaluateCandidates s).bind = s.bind ∧ (evaluateCandidates s).port = s.port ∧ (evaluateCandidates s).link = s.link
    ∧ (evaluateCandidates s).conn = s.conn ∧ (evaluateCandidates s).calls = s.calls ∧ (evaluateCandidates s).speech =
    s.speech ∧ (evaluateCandidates s).texts = s.texts ∧ (evaluateCandidates s).events = s.events := by
  unfold evaluateCandidates
  (try dsimp only)
  (repeat' split) <;> simp

@[simp] theorem clearCandidates_frame (s : State) : (clearCandidates s).pending = s.pending ∧ (clearCandidates
    s).resetN = s.resetN ∧ (clearCandidates s).resetPhase = s.resetPhase ∧ (clearCandidates s).teardown = s.teardown ∧
    (clearCandidates s).out = s.out ∧ (clearCandidates s).frame = s.frame ∧ (clearCandidates s).bind = s.bind ∧
    (clearCandidates s).port = s.port ∧ (clearCandidates s).link = s.link ∧ (clearCandidates s).conn = s.conn ∧
    (clearCandidates s).calls = s.calls ∧ (clearCandidates s).speech = s.speech ∧ (clearCandidates s).texts = s.texts
    ∧ (clearCandidates s).events = s.events := by
  unfold clearCandidates
  (try dsimp only)
  (repeat' split) <;> simp

@[simp] theorem clearTarget_frame (n : Fin 13) (s : State) : (clearTarget n s).pending = s.pending ∧ (clearTarget n
    s).resetN = s.resetN ∧ (clearTarget n s).resetPhase = s.resetPhase ∧ (clearTarget n s).teardown = s.teardown ∧
    (clearTarget n s).out = s.out ∧ (clearTarget n s).frame = s.frame ∧ (clearTarget n s).bind = s.bind ∧ (clearTarget
    n s).port = s.port ∧ (clearTarget n s).mem = s.mem ∧ (clearTarget n s).link = s.link ∧ (clearTarget n s).conn =
    s.conn ∧ (clearTarget n s).calls = s.calls ∧ (clearTarget n s).speech = s.speech ∧ (clearTarget n s).texts =
    s.texts ∧ (clearTarget n s).sleep = s.sleep ∧ (clearTarget n s).events = s.events := by
  unfold clearTarget
  (try dsimp only)
  (repeat' split) <;> simp

@[simp] theorem considerReport_frame (s : State) : (considerReport s).pending = s.pending ∧ (considerReport s).resetN
    = s.resetN ∧ (considerReport s).resetPhase = s.resetPhase ∧ (considerReport s).teardown = s.teardown ∧
    (considerReport s).out = s.out ∧ (considerReport s).frame = s.frame ∧ (considerReport s).bind = s.bind ∧
    (considerReport s).port = s.port ∧ (considerReport s).conn = s.conn ∧ (considerReport s).cells = s.cells ∧
    (considerReport s).calls = s.calls ∧ (considerReport s).speech = s.speech ∧ (considerReport s).texts = s.texts ∧
    (considerReport s).sleep = s.sleep ∧ (considerReport s).events = s.events := by
  unfold considerReport
  (try dsimp only)
  (repeat' split) <;> simp

@[simp] theorem dropOrder_frame (s : State) : (dropOrder s).pending = s.pending ∧ (dropOrder s).resetN = s.resetN ∧
    (dropOrder s).resetPhase = s.resetPhase ∧ (dropOrder s).teardown = s.teardown ∧ (dropOrder s).out = s.out ∧
    (dropOrder s).frame = s.frame ∧ (dropOrder s).bind = s.bind ∧ (dropOrder s).port = s.port ∧ (dropOrder s).mem =
    s.mem ∧ (dropOrder s).link = s.link ∧ (dropOrder s).conn = s.conn ∧ (dropOrder s).cells = s.cells ∧ (dropOrder
    s).calls = s.calls ∧ (dropOrder s).speech = s.speech ∧ (dropOrder s).texts = s.texts ∧ (dropOrder s).sleep =
    s.sleep ∧ (dropOrder s).events = s.events := by
  unfold dropOrder
  (try dsimp only)
  (repeat' split) <;> simp

@[simp] theorem takeServing_frame (target : Fin 13) (s : State) : (takeServing target s).pending = s.pending ∧
    (takeServing target s).resetN = s.resetN ∧ (takeServing target s).resetPhase = s.resetPhase ∧ (takeServing target
    s).teardown = s.teardown ∧ (takeServing target s).out = s.out ∧ (takeServing target s).frame = s.frame ∧
    (takeServing target s).bind = s.bind ∧ (takeServing target s).port = s.port ∧ (takeServing target s).mem = s.mem ∧
    (takeServing target s).link = s.link ∧ (takeServing target s).conn = s.conn ∧ (takeServing target s).calls =
    s.calls ∧ (takeServing target s).speech = s.speech ∧ (takeServing target s).texts = s.texts ∧ (takeServing target
    s).sleep = s.sleep ∧ (takeServing target s).events = s.events := by
  unfold takeServing
  (try dsimp only)
  (repeat' split) <;> simp

@[simp] theorem unlivePubs_frame (p : PubKind → Bool) (s : State) : (unlivePubs p s).pending = s.pending ∧ (unlivePubs
    p s).resetN = s.resetN ∧ (unlivePubs p s).resetPhase = s.resetPhase ∧ (unlivePubs p s).teardown = s.teardown ∧
    (unlivePubs p s).out = s.out ∧ (unlivePubs p s).frame = s.frame ∧ (unlivePubs p s).bind = s.bind ∧ (unlivePubs p
    s).port = s.port ∧ (unlivePubs p s).link = s.link ∧ (unlivePubs p s).conn = s.conn ∧ (unlivePubs p s).cells =
    s.cells ∧ (unlivePubs p s).mob = s.mob ∧ (unlivePubs p s).calls = s.calls ∧ (unlivePubs p s).speech = s.speech ∧
    (unlivePubs p s).texts = s.texts ∧ (unlivePubs p s).sleep = s.sleep ∧ (unlivePubs p s).events = s.events := by
  unfold unlivePubs
  (try dsimp only)
  (repeat' split) <;> simp

@[simp] theorem dirtyServing_frame (target : Fin 13) (old : Option (Fin 13)) (plan : Bool) (s : State) : (dirtyServing
    target old plan s).pending = s.pending ∧ (dirtyServing target old plan s).resetN = s.resetN ∧ (dirtyServing target
    old plan s).resetPhase = s.resetPhase ∧ (dirtyServing target old plan s).teardown = s.teardown ∧ (dirtyServing
    target old plan s).out = s.out ∧ (dirtyServing target old plan s).frame = s.frame ∧ (dirtyServing target old plan
    s).bind = s.bind ∧ (dirtyServing target old plan s).port = s.port ∧ (dirtyServing target old plan s).mem = s.mem ∧
    (dirtyServing target old plan s).link = s.link ∧ (dirtyServing target old plan s).conn = s.conn ∧ (dirtyServing
    target old plan s).cells = s.cells ∧ (dirtyServing target old plan s).mob = s.mob ∧ (dirtyServing target old plan
    s).calls = s.calls ∧ (dirtyServing target old plan s).speech = s.speech ∧ (dirtyServing target old plan s).texts =
    s.texts ∧ (dirtyServing target old plan s).events = s.events := by
  unfold dirtyServing
  (try dsimp only)
  refine ⟨foldl_keep State.pending ?_ _ _, foldl_keep State.resetN ?_ _ _, foldl_keep State.resetPhase ?_ _ _,
      foldl_keep State.teardown ?_ _ _, foldl_keep State.out ?_ _ _, foldl_keep State.frame ?_ _ _, foldl_keep
      State.bind ?_ _ _, foldl_keep State.port ?_ _ _, foldl_keep State.mem ?_ _ _, foldl_keep State.link ?_ _ _,
      foldl_keep State.conn ?_ _ _, foldl_keep State.cells ?_ _ _, foldl_keep State.mob ?_ _ _, foldl_keep State.calls
      ?_ _ _, foldl_keep State.speech ?_ _ _, foldl_keep State.texts ?_ _ _, foldl_keep State.events ?_ _ _⟩ <;>
    (intros; (repeat' split) <;> simp)

@[simp] theorem activity_frame (s : State) : (activity s).pending = s.pending ∧ (activity s).resetN = s.resetN ∧
    (activity s).resetPhase = s.resetPhase ∧ (activity s).teardown = s.teardown ∧ (activity s).out = s.out ∧ (activity
    s).frame = s.frame ∧ (activity s).bind = s.bind ∧ (activity s).port = s.port ∧ (activity s).mem = s.mem ∧
    (activity s).link = s.link ∧ (activity s).cells = s.cells ∧ (activity s).mob = s.mob ∧ (activity s).calls =
    s.calls ∧ (activity s).speech = s.speech ∧ (activity s).texts = s.texts ∧ (activity s).sleep = s.sleep ∧ (activity
    s).events = s.events := by
  unfold activity
  (try dsimp only)
  (repeat' split) <;> simp

@[simp] theorem writeHeader_frame (up down : Bool) (s : State) : (writeHeader up down s).pending = s.pending ∧
    (writeHeader up down s).resetN = s.resetN ∧ (writeHeader up down s).resetPhase = s.resetPhase ∧ (writeHeader up
    down s).teardown = s.teardown ∧ (writeHeader up down s).out = s.out ∧ (writeHeader up down s).frame = s.frame ∧
    (writeHeader up down s).bind = s.bind ∧ (writeHeader up down s).port = s.port ∧ (writeHeader up down s).link =
    s.link ∧ (writeHeader up down s).conn = s.conn ∧ (writeHeader up down s).cells = s.cells ∧ (writeHeader up down
    s).mob = s.mob ∧ (writeHeader up down s).calls = s.calls ∧ (writeHeader up down s).speech = s.speech ∧
    (writeHeader up down s).texts = s.texts ∧ (writeHeader up down s).sleep = s.sleep ∧ (writeHeader up down s).events
    = s.events := by
  unfold writeHeader
  (try dsimp only)
  (repeat' split) <;> simp

@[simp] theorem advanceUp_frame (s : State) : (advanceUp s).pending = s.pending ∧ (advanceUp s).resetN = s.resetN ∧
    (advanceUp s).resetPhase = s.resetPhase ∧ (advanceUp s).teardown = s.teardown ∧ (advanceUp s).out = s.out ∧
    (advanceUp s).frame = s.frame ∧ (advanceUp s).bind = s.bind ∧ (advanceUp s).port = s.port ∧ (advanceUp s).link =
    s.link ∧ (advanceUp s).conn = s.conn ∧ (advanceUp s).cells = s.cells ∧ (advanceUp s).mob = s.mob ∧ (advanceUp
    s).calls = s.calls ∧ (advanceUp s).texts = s.texts ∧ (advanceUp s).sleep = s.sleep ∧ (advanceUp s).events =
    s.events := by
  unfold advanceUp
  (try dsimp only)
  (repeat' split) <;> simp

@[simp] theorem placeDown_frame (frame : List Byte) (up : Bool) (s : State) : (placeDown frame up s).pending =
    s.pending ∧ (placeDown frame up s).resetN = s.resetN ∧ (placeDown frame up s).resetPhase = s.resetPhase ∧
    (placeDown frame up s).teardown = s.teardown ∧ (placeDown frame up s).out = s.out ∧ (placeDown frame up s).frame =
    s.frame ∧ (placeDown frame up s).bind = s.bind ∧ (placeDown frame up s).port = s.port ∧ (placeDown frame up
    s).link = s.link ∧ (placeDown frame up s).conn = s.conn ∧ (placeDown frame up s).cells = s.cells ∧ (placeDown
    frame up s).mob = s.mob ∧ (placeDown frame up s).calls = s.calls ∧ (placeDown frame up s).texts = s.texts ∧
    (placeDown frame up s).sleep = s.sleep ∧ (placeDown frame up s).events = s.events := by
  unfold placeDown
  (try dsimp only)
  (repeat' split) <;> simp

@[simp] theorem dropHeld_frame (s : State) : (dropHeld s).pending = s.pending ∧ (dropHeld s).resetN = s.resetN ∧
    (dropHeld s).resetPhase = s.resetPhase ∧ (dropHeld s).teardown = s.teardown ∧ (dropHeld s).out = s.out ∧ (dropHeld
    s).frame = s.frame ∧ (dropHeld s).bind = s.bind ∧ (dropHeld s).port = s.port ∧ (dropHeld s).link = s.link ∧
    (dropHeld s).conn = s.conn ∧ (dropHeld s).cells = s.cells ∧ (dropHeld s).mob = s.mob ∧ (dropHeld s).calls =
    s.calls ∧ (dropHeld s).texts = s.texts ∧ (dropHeld s).sleep = s.sleep ∧ (dropHeld s).events = s.events := by
  unfold dropHeld
  (try dsimp only)
  (repeat' split) <;> simp

@[simp] theorem sendSpeech_frame (frame : List Byte) (s : State) : (sendSpeech frame s).pending = s.pending ∧
    (sendSpeech frame s).resetN = s.resetN ∧ (sendSpeech frame s).resetPhase = s.resetPhase ∧ (sendSpeech frame
    s).teardown = s.teardown ∧ (sendSpeech frame s).frame = s.frame ∧ (sendSpeech frame s).bind = s.bind ∧ (sendSpeech
    frame s).port = s.port ∧ (sendSpeech frame s).mem = s.mem ∧ (sendSpeech frame s).link = s.link ∧ (sendSpeech frame
    s).cells = s.cells ∧ (sendSpeech frame s).mob = s.mob ∧ (sendSpeech frame s).calls = s.calls ∧ (sendSpeech frame
    s).speech = s.speech ∧ (sendSpeech frame s).texts = s.texts ∧ (sendSpeech frame s).sleep = s.sleep ∧ (sendSpeech
    frame s).events = s.events := by
  unfold sendSpeech
  (try dsimp only)
  (repeat' split) <;> simp

@[simp] theorem speechStart_frame (r : Fin 4) (s : State) : (speechStart r s).pending = s.pending ∧ (speechStart r
    s).resetN = s.resetN ∧ (speechStart r s).resetPhase = s.resetPhase ∧ (speechStart r s).teardown = s.teardown ∧
    (speechStart r s).out = s.out ∧ (speechStart r s).frame = s.frame ∧ (speechStart r s).bind = s.bind ∧ (speechStart
    r s).port = s.port ∧ (speechStart r s).link = s.link ∧ (speechStart r s).conn = s.conn ∧ (speechStart r s).cells =
    s.cells ∧ (speechStart r s).mob = s.mob ∧ (speechStart r s).calls = s.calls ∧ (speechStart r s).texts = s.texts ∧
    (speechStart r s).sleep = s.sleep ∧ (speechStart r s).events = s.events := by
  unfold speechStart
  (try dsimp only)
  (repeat' split) <;> simp

@[simp] theorem speechStop_frame (s : State) : (speechStop s).pending = s.pending ∧ (speechStop s).resetN = s.resetN ∧
    (speechStop s).resetPhase = s.resetPhase ∧ (speechStop s).teardown = s.teardown ∧ (speechStop s).out = s.out ∧
    (speechStop s).frame = s.frame ∧ (speechStop s).bind = s.bind ∧ (speechStop s).port = s.port ∧ (speechStop s).link
    = s.link ∧ (speechStop s).conn = s.conn ∧ (speechStop s).cells = s.cells ∧ (speechStop s).mob = s.mob ∧
    (speechStop s).calls = s.calls ∧ (speechStop s).texts = s.texts ∧ (speechStop s).sleep = s.sleep ∧ (speechStop
    s).events = s.events := by
  unfold speechStop
  (try dsimp only)
  (repeat' split) <;> simp

@[simp] theorem setRec_frame (r : Fin 4) (f : CallRec → CallRec) (s : State) : (setRec r f s).pending = s.pending ∧
    (setRec r f s).resetN = s.resetN ∧ (setRec r f s).resetPhase = s.resetPhase ∧ (setRec r f s).teardown = s.teardown
    ∧ (setRec r f s).out = s.out ∧ (setRec r f s).frame = s.frame ∧ (setRec r f s).bind = s.bind ∧ (setRec r f s).port
    = s.port ∧ (setRec r f s).link = s.link ∧ (setRec r f s).conn = s.conn ∧ (setRec r f s).cells = s.cells ∧ (setRec
    r f s).mob = s.mob ∧ (setRec r f s).speech = s.speech ∧ (setRec r f s).texts = s.texts ∧ (setRec r f s).sleep =
    s.sleep ∧ (setRec r f s).events = s.events := by
  unfold setRec
  (try dsimp only)
  (repeat' split) <;> simp

@[simp] theorem callEvent_frame (r : Fin 4) (cause : Option Cause) (s : State) : (callEvent r cause s).pending =
    s.pending ∧ (callEvent r cause s).resetN = s.resetN ∧ (callEvent r cause s).resetPhase = s.resetPhase ∧ (callEvent
    r cause s).teardown = s.teardown ∧ (callEvent r cause s).frame = s.frame ∧ (callEvent r cause s).bind = s.bind ∧
    (callEvent r cause s).port = s.port ∧ (callEvent r cause s).link = s.link ∧ (callEvent r cause s).conn = s.conn ∧
    (callEvent r cause s).cells = s.cells ∧ (callEvent r cause s).mob = s.mob ∧ (callEvent r cause s).calls = s.calls
    ∧ (callEvent r cause s).speech = s.speech ∧ (callEvent r cause s).texts = s.texts := by
  unfold callEvent
  (try dsimp only)
  (repeat' split) <;> simp

@[simp] theorem changeState_frame (r : Fin 4) (f : CallRec → CallRec) (s : State) : (changeState r f s).pending =
    s.pending ∧ (changeState r f s).resetN = s.resetN ∧ (changeState r f s).resetPhase = s.resetPhase ∧ (changeState r
    f s).teardown = s.teardown ∧ (changeState r f s).frame = s.frame ∧ (changeState r f s).bind = s.bind ∧
    (changeState r f s).port = s.port ∧ (changeState r f s).link = s.link ∧ (changeState r f s).conn = s.conn ∧
    (changeState r f s).cells = s.cells ∧ (changeState r f s).mob = s.mob ∧ (changeState r f s).texts = s.texts := by
  unfold changeState
  (try dsimp only)
  (repeat' split) <;> simp

@[simp] theorem countGap_frame (s : State) : (countGap s).pending = s.pending ∧ (countGap s).resetN = s.resetN ∧
    (countGap s).resetPhase = s.resetPhase ∧ (countGap s).teardown = s.teardown ∧ (countGap s).out = s.out ∧ (countGap
    s).frame = s.frame ∧ (countGap s).bind = s.bind ∧ (countGap s).port = s.port ∧ (countGap s).link = s.link ∧
    (countGap s).conn = s.conn ∧ (countGap s).cells = s.cells ∧ (countGap s).mob = s.mob ∧ (countGap s).speech =
    s.speech ∧ (countGap s).texts = s.texts ∧ (countGap s).sleep = s.sleep ∧ (countGap s).events = s.events := by
  unfold countGap
  (try dsimp only)
  (repeat' split) <;> simp

@[simp] theorem speechGap_frame (s : State) : (speechGap s).pending = s.pending ∧ (speechGap s).resetN = s.resetN ∧
    (speechGap s).resetPhase = s.resetPhase ∧ (speechGap s).teardown = s.teardown ∧ (speechGap s).out = s.out ∧
    (speechGap s).frame = s.frame ∧ (speechGap s).bind = s.bind ∧ (speechGap s).port = s.port ∧ (speechGap s).link =
    s.link ∧ (speechGap s).conn = s.conn ∧ (speechGap s).cells = s.cells ∧ (speechGap s).mob = s.mob ∧ (speechGap
    s).texts = s.texts ∧ (speechGap s).sleep = s.sleep ∧ (speechGap s).events = s.events := by
  unfold speechGap
  (try dsimp only)
  (repeat' split) <;> simp

@[simp] theorem withdrawCall_frame (ref : Byte) (s : State) : (withdrawCall ref s).pending = s.pending ∧ (withdrawCall
    ref s).resetN = s.resetN ∧ (withdrawCall ref s).resetPhase = s.resetPhase ∧ (withdrawCall ref s).teardown =
    s.teardown ∧ (withdrawCall ref s).out = s.out ∧ (withdrawCall ref s).frame = s.frame ∧ (withdrawCall ref s).bind =
    s.bind ∧ (withdrawCall ref s).port = s.port ∧ (withdrawCall ref s).conn = s.conn ∧ (withdrawCall ref s).cells =
    s.cells ∧ (withdrawCall ref s).mob = s.mob ∧ (withdrawCall ref s).calls = s.calls ∧ (withdrawCall ref s).speech =
    s.speech ∧ (withdrawCall ref s).texts = s.texts ∧ (withdrawCall ref s).sleep = s.sleep ∧ (withdrawCall ref
    s).events = s.events := by
  unfold withdrawCall
  (try dsimp only)
  (repeat' split) <;> simp

@[simp] theorem placeResume_frame (r : Fin 4) (s : State) : (placeResume r s).pending = s.pending ∧ (placeResume r
    s).resetN = s.resetN ∧ (placeResume r s).resetPhase = s.resetPhase ∧ (placeResume r s).teardown = s.teardown ∧
    (placeResume r s).out = s.out ∧ (placeResume r s).frame = s.frame ∧ (placeResume r s).bind = s.bind ∧ (placeResume
    r s).port = s.port ∧ (placeResume r s).conn = s.conn ∧ (placeResume r s).cells = s.cells ∧ (placeResume r s).mob =
    s.mob ∧ (placeResume r s).speech = s.speech ∧ (placeResume r s).texts = s.texts ∧ (placeResume r s).sleep =
    s.sleep ∧ (placeResume r s).events = s.events := by
  unfold placeResume
  (try dsimp only)
  (repeat' split) <;> simp

@[simp] theorem placeHold_frame (r : Fin 4) (partner : Option (Fin 4)) (s : State) : (placeHold r partner s).pending =
    s.pending ∧ (placeHold r partner s).resetN = s.resetN ∧ (placeHold r partner s).resetPhase = s.resetPhase ∧
    (placeHold r partner s).teardown = s.teardown ∧ (placeHold r partner s).out = s.out ∧ (placeHold r partner
    s).frame = s.frame ∧ (placeHold r partner s).bind = s.bind ∧ (placeHold r partner s).port = s.port ∧ (placeHold r
    partner s).conn = s.conn ∧ (placeHold r partner s).cells = s.cells ∧ (placeHold r partner s).mob = s.mob ∧
    (placeHold r partner s).speech = s.speech ∧ (placeHold r partner s).texts = s.texts ∧ (placeHold r partner
    s).sleep = s.sleep ∧ (placeHold r partner s).events = s.events := by
  unfold placeHold
  (try dsimp only)
  (repeat' split) <;> simp

@[simp] theorem placeSetup_frame (r : Fin 4) (s : State) : (placeSetup r s).pending = s.pending ∧ (placeSetup r
    s).resetN = s.resetN ∧ (placeSetup r s).resetPhase = s.resetPhase ∧ (placeSetup r s).teardown = s.teardown ∧
    (placeSetup r s).out = s.out ∧ (placeSetup r s).frame = s.frame ∧ (placeSetup r s).bind = s.bind ∧ (placeSetup r
    s).port = s.port ∧ (placeSetup r s).conn = s.conn ∧ (placeSetup r s).cells = s.cells ∧ (placeSetup r s).mob =
    s.mob ∧ (placeSetup r s).speech = s.speech ∧ (placeSetup r s).texts = s.texts ∧ (placeSetup r s).sleep = s.sleep ∧
    (placeSetup r s).events = s.events := by
  unfold placeSetup
  (try dsimp only)
  (repeat' split) <;> simp

@[simp] theorem placeSetups_frame (s : State) : (placeSetups s).pending = s.pending ∧ (placeSetups s).resetN =
    s.resetN ∧ (placeSetups s).resetPhase = s.resetPhase ∧ (placeSetups s).teardown = s.teardown ∧ (placeSetups s).out
    = s.out ∧ (placeSetups s).frame = s.frame ∧ (placeSetups s).bind = s.bind ∧ (placeSetups s).port = s.port ∧
    (placeSetups s).conn = s.conn ∧ (placeSetups s).cells = s.cells ∧ (placeSetups s).mob = s.mob ∧ (placeSetups
    s).speech = s.speech ∧ (placeSetups s).texts = s.texts ∧ (placeSetups s).sleep = s.sleep ∧ (placeSetups s).events
    = s.events := by
  unfold placeSetups
  (try dsimp only)
  refine ⟨foldl_keep State.pending ?_ _ _, foldl_keep State.resetN ?_ _ _, foldl_keep State.resetPhase ?_ _ _,
      foldl_keep State.teardown ?_ _ _, foldl_keep State.out ?_ _ _, foldl_keep State.frame ?_ _ _, foldl_keep
      State.bind ?_ _ _, foldl_keep State.port ?_ _ _, foldl_keep State.conn ?_ _ _, foldl_keep State.cells ?_ _ _,
      foldl_keep State.mob ?_ _ _, foldl_keep State.speech ?_ _ _, foldl_keep State.texts ?_ _ _, foldl_keep
      State.sleep ?_ _ _, foldl_keep State.events ?_ _ _⟩ <;>
    (intros; (repeat' split) <;> simp)

@[simp] theorem dropCapture_frame (r : Fin 4) (s : State) : (dropCapture r s).pending = s.pending ∧ (dropCapture r
    s).resetN = s.resetN ∧ (dropCapture r s).resetPhase = s.resetPhase ∧ (dropCapture r s).teardown = s.teardown ∧
    (dropCapture r s).out = s.out ∧ (dropCapture r s).frame = s.frame ∧ (dropCapture r s).bind = s.bind ∧ (dropCapture
    r s).port = s.port ∧ (dropCapture r s).link = s.link ∧ (dropCapture r s).conn = s.conn ∧ (dropCapture r s).cells =
    s.cells ∧ (dropCapture r s).mob = s.mob ∧ (dropCapture r s).calls = s.calls ∧ (dropCapture r s).speech = s.speech
    ∧ (dropCapture r s).texts = s.texts ∧ (dropCapture r s).sleep = s.sleep ∧ (dropCapture r s).events = s.events := by
  unfold dropCapture
  (try dsimp only)
  (repeat' split) <;> simp

@[simp] theorem freeRec_frame (r : Fin 4) (cause : Cause) (s : State) : (freeRec r cause s).pending = s.pending ∧
    (freeRec r cause s).resetN = s.resetN ∧ (freeRec r cause s).resetPhase = s.resetPhase ∧ (freeRec r cause
    s).teardown = s.teardown ∧ (freeRec r cause s).frame = s.frame ∧ (freeRec r cause s).bind = s.bind ∧ (freeRec r
    cause s).port = s.port ∧ (freeRec r cause s).link = s.link ∧ (freeRec r cause s).conn = s.conn ∧ (freeRec r cause
    s).cells = s.cells ∧ (freeRec r cause s).mob = s.mob ∧ (freeRec r cause s).texts = s.texts := by
  unfold freeRec
  (try dsimp only)
  (repeat' split) <;> simp

@[simp] theorem localRelease_frame (r : Fin 4) (cause : Cause) (s : State) : (localRelease r cause s).pending =
    s.pending ∧ (localRelease r cause s).resetN = s.resetN ∧ (localRelease r cause s).resetPhase = s.resetPhase ∧
    (localRelease r cause s).teardown = s.teardown ∧ (localRelease r cause s).frame = s.frame ∧ (localRelease r cause
    s).bind = s.bind ∧ (localRelease r cause s).port = s.port ∧ (localRelease r cause s).conn = s.conn ∧ (localRelease
    r cause s).cells = s.cells ∧ (localRelease r cause s).mob = s.mob ∧ (localRelease r cause s).texts = s.texts := by
  unfold localRelease
  (try dsimp only)
  (repeat' split) <;> simp

@[simp] theorem localReleaseAll_frame (p : CallRec → Bool) (cause : Cause) (s : State) : (localReleaseAll p cause
    s).pending = s.pending ∧ (localReleaseAll p cause s).resetN = s.resetN ∧ (localReleaseAll p cause s).resetPhase =
    s.resetPhase ∧ (localReleaseAll p cause s).teardown = s.teardown ∧ (localReleaseAll p cause s).frame = s.frame ∧
    (localReleaseAll p cause s).bind = s.bind ∧ (localReleaseAll p cause s).port = s.port ∧ (localReleaseAll p cause
    s).conn = s.conn ∧ (localReleaseAll p cause s).cells = s.cells ∧ (localReleaseAll p cause s).mob = s.mob ∧
    (localReleaseAll p cause s).texts = s.texts := by
  unfold localReleaseAll
  (try dsimp only)
  refine ⟨foldl_keep State.pending ?_ _ _, foldl_keep State.resetN ?_ _ _, foldl_keep State.resetPhase ?_ _ _,
      foldl_keep State.teardown ?_ _ _, foldl_keep State.frame ?_ _ _, foldl_keep State.bind ?_ _ _, foldl_keep
      State.port ?_ _ _, foldl_keep State.conn ?_ _ _, foldl_keep State.cells ?_ _ _, foldl_keep State.mob ?_ _ _,
      foldl_keep State.texts ?_ _ _⟩ <;>
    (intros; (repeat' split) <;> simp)

@[simp] theorem partnerLeft_frame (old : CallRec) (s : State) : (partnerLeft old s).pending = s.pending ∧ (partnerLeft
    old s).resetN = s.resetN ∧ (partnerLeft old s).resetPhase = s.resetPhase ∧ (partnerLeft old s).teardown =
    s.teardown ∧ (partnerLeft old s).out = s.out ∧ (partnerLeft old s).frame = s.frame ∧ (partnerLeft old s).bind =
    s.bind ∧ (partnerLeft old s).port = s.port ∧ (partnerLeft old s).conn = s.conn ∧ (partnerLeft old s).cells =
    s.cells ∧ (partnerLeft old s).mob = s.mob ∧ (partnerLeft old s).speech = s.speech ∧ (partnerLeft old s).texts =
    s.texts ∧ (partnerLeft old s).sleep = s.sleep ∧ (partnerLeft old s).events = s.events := by
  unfold partnerLeft
  (try dsimp only)
  (repeat' split) <;> simp

@[simp] theorem localReleaseOne_frame (r : Fin 4) (cause : Cause) (s : State) : (localReleaseOne r cause s).pending =
    s.pending ∧ (localReleaseOne r cause s).resetN = s.resetN ∧ (localReleaseOne r cause s).resetPhase = s.resetPhase
    ∧ (localReleaseOne r cause s).teardown = s.teardown ∧ (localReleaseOne r cause s).frame = s.frame ∧
    (localReleaseOne r cause s).bind = s.bind ∧ (localReleaseOne r cause s).port = s.port ∧ (localReleaseOne r cause
    s).conn = s.conn ∧ (localReleaseOne r cause s).cells = s.cells ∧ (localReleaseOne r cause s).mob = s.mob ∧
    (localReleaseOne r cause s).texts = s.texts := by
  unfold localReleaseOne
  (try dsimp only)
  (repeat' split) <;> simp

@[simp] theorem placeRelease_frame (r : Fin 4) (cause : Cause) (s : State) : (placeRelease r cause s).pending =
    s.pending ∧ (placeRelease r cause s).resetN = s.resetN ∧ (placeRelease r cause s).resetPhase = s.resetPhase ∧
    (placeRelease r cause s).teardown = s.teardown ∧ (placeRelease r cause s).frame = s.frame ∧ (placeRelease r cause
    s).bind = s.bind ∧ (placeRelease r cause s).port = s.port ∧ (placeRelease r cause s).conn = s.conn ∧ (placeRelease
    r cause s).cells = s.cells ∧ (placeRelease r cause s).mob = s.mob ∧ (placeRelease r cause s).texts = s.texts := by
  unfold placeRelease
  (try dsimp only)
  (repeat' split) <;> simp

@[simp] theorem releaseRec_frame (r : Fin 4) (cause : Cause) (s : State) : (releaseRec r cause s).pending = s.pending
    ∧ (releaseRec r cause s).resetN = s.resetN ∧ (releaseRec r cause s).resetPhase = s.resetPhase ∧ (releaseRec r
    cause s).teardown = s.teardown ∧ (releaseRec r cause s).frame = s.frame ∧ (releaseRec r cause s).bind = s.bind ∧
    (releaseRec r cause s).port = s.port ∧ (releaseRec r cause s).conn = s.conn ∧ (releaseRec r cause s).cells =
    s.cells ∧ (releaseRec r cause s).mob = s.mob ∧ (releaseRec r cause s).texts = s.texts := by
  unfold releaseRec
  (try dsimp only)
  (repeat' split) <;> simp

@[simp] theorem networkRelease_frame (ref : Byte) (cause : Cause) (s : State) : (networkRelease ref cause s).pending =
    s.pending ∧ (networkRelease ref cause s).resetN = s.resetN ∧ (networkRelease ref cause s).resetPhase =
    s.resetPhase ∧ (networkRelease ref cause s).teardown = s.teardown ∧ (networkRelease ref cause s).frame = s.frame ∧
    (networkRelease ref cause s).bind = s.bind ∧ (networkRelease ref cause s).port = s.port ∧ (networkRelease ref
    cause s).conn = s.conn ∧ (networkRelease ref cause s).cells = s.cells ∧ (networkRelease ref cause s).mob = s.mob ∧
    (networkRelease ref cause s).texts = s.texts := by
  unfold networkRelease
  (try dsimp only)
  (repeat' split) <;> simp

@[simp] theorem exchangeFailed_frame (r : Fin 4) (s : State) : (exchangeFailed r s).pending = s.pending ∧
    (exchangeFailed r s).resetN = s.resetN ∧ (exchangeFailed r s).resetPhase = s.resetPhase ∧ (exchangeFailed r
    s).teardown = s.teardown ∧ (exchangeFailed r s).frame = s.frame ∧ (exchangeFailed r s).bind = s.bind ∧
    (exchangeFailed r s).port = s.port ∧ (exchangeFailed r s).link = s.link ∧ (exchangeFailed r s).conn = s.conn ∧
    (exchangeFailed r s).cells = s.cells ∧ (exchangeFailed r s).mob = s.mob ∧ (exchangeFailed r s).speech = s.speech ∧
    (exchangeFailed r s).texts = s.texts := by
  unfold exchangeFailed
  (try dsimp only)
  (repeat' split) <;> simp

@[simp] theorem shutdownRec_frame (r : Fin 4) (cause : Cause) (s : State) : (shutdownRec r cause s).pending =
    s.pending ∧ (shutdownRec r cause s).resetN = s.resetN ∧ (shutdownRec r cause s).resetPhase = s.resetPhase ∧
    (shutdownRec r cause s).teardown = s.teardown ∧ (shutdownRec r cause s).frame = s.frame ∧ (shutdownRec r cause
    s).bind = s.bind ∧ (shutdownRec r cause s).port = s.port ∧ (shutdownRec r cause s).conn = s.conn ∧ (shutdownRec r
    cause s).cells = s.cells ∧ (shutdownRec r cause s).mob = s.mob ∧ (shutdownRec r cause s).texts = s.texts := by
  unfold shutdownRec
  (try dsimp only)
  (repeat' split) <;> simp

@[simp] theorem shutdownCalls_frame (cause : Cause) (s : State) : (shutdownCalls cause s).pending = s.pending ∧
    (shutdownCalls cause s).resetN = s.resetN ∧ (shutdownCalls cause s).resetPhase = s.resetPhase ∧ (shutdownCalls
    cause s).teardown = s.teardown ∧ (shutdownCalls cause s).frame = s.frame ∧ (shutdownCalls cause s).bind = s.bind ∧
    (shutdownCalls cause s).port = s.port ∧ (shutdownCalls cause s).conn = s.conn ∧ (shutdownCalls cause s).cells =
    s.cells ∧ (shutdownCalls cause s).mob = s.mob ∧ (shutdownCalls cause s).texts = s.texts := by
  unfold shutdownCalls
  (try dsimp only)
  refine ⟨foldl_keep State.pending ?_ _ _, foldl_keep State.resetN ?_ _ _, foldl_keep State.resetPhase ?_ _ _,
      foldl_keep State.teardown ?_ _ _, foldl_keep State.frame ?_ _ _, foldl_keep State.bind ?_ _ _, foldl_keep
      State.port ?_ _ _, foldl_keep State.conn ?_ _ _, foldl_keep State.cells ?_ _ _, foldl_keep State.mob ?_ _ _,
      foldl_keep State.texts ?_ _ _⟩ <;>
    (intros; (repeat' split) <;> simp)

@[simp] theorem writeGaps_frame (s : State) : (writeGaps s).pending = s.pending ∧ (writeGaps s).resetN = s.resetN ∧
    (writeGaps s).resetPhase = s.resetPhase ∧ (writeGaps s).teardown = s.teardown ∧ (writeGaps s).out = s.out ∧
    (writeGaps s).frame = s.frame ∧ (writeGaps s).bind = s.bind ∧ (writeGaps s).port = s.port ∧ (writeGaps s).link =
    s.link ∧ (writeGaps s).conn = s.conn ∧ (writeGaps s).cells = s.cells ∧ (writeGaps s).mob = s.mob ∧ (writeGaps
    s).speech = s.speech ∧ (writeGaps s).texts = s.texts ∧ (writeGaps s).sleep = s.sleep ∧ (writeGaps s).events =
    s.events := by
  unfold writeGaps
  (try dsimp only)
  refine ⟨foldl_keep State.pending ?_ _ _, foldl_keep State.resetN ?_ _ _, foldl_keep State.resetPhase ?_ _ _,
      foldl_keep State.teardown ?_ _ _, foldl_keep State.out ?_ _ _, foldl_keep State.frame ?_ _ _, foldl_keep
      State.bind ?_ _ _, foldl_keep State.port ?_ _ _, foldl_keep State.link ?_ _ _, foldl_keep State.conn ?_ _ _,
      foldl_keep State.cells ?_ _ _, foldl_keep State.mob ?_ _ _, foldl_keep State.speech ?_ _ _, foldl_keep
      State.texts ?_ _ _, foldl_keep State.sleep ?_ _ _, foldl_keep State.events ?_ _ _⟩ <;>
    (intros; (repeat' split) <;> simp)

@[simp] theorem gapsCarried_frame (s : State) : (gapsCarried s).pending = s.pending ∧ (gapsCarried s).resetN =
    s.resetN ∧ (gapsCarried s).resetPhase = s.resetPhase ∧ (gapsCarried s).teardown = s.teardown ∧ (gapsCarried s).out
    = s.out ∧ (gapsCarried s).frame = s.frame ∧ (gapsCarried s).bind = s.bind ∧ (gapsCarried s).port = s.port ∧
    (gapsCarried s).mem = s.mem ∧ (gapsCarried s).link = s.link ∧ (gapsCarried s).conn = s.conn ∧ (gapsCarried
    s).cells = s.cells ∧ (gapsCarried s).mob = s.mob ∧ (gapsCarried s).speech = s.speech ∧ (gapsCarried s).texts =
    s.texts ∧ (gapsCarried s).sleep = s.sleep ∧ (gapsCarried s).events = s.events := by
  unfold gapsCarried
  (try dsimp only)
  (repeat' split) <;> simp

@[simp] theorem tellSwitchStart_frame (s : State) : (tellSwitchStart s).pending = s.pending ∧ (tellSwitchStart
    s).resetN = s.resetN ∧ (tellSwitchStart s).resetPhase = s.resetPhase ∧ (tellSwitchStart s).teardown = s.teardown ∧
    (tellSwitchStart s).out = s.out ∧ (tellSwitchStart s).frame = s.frame ∧ (tellSwitchStart s).bind = s.bind ∧
    (tellSwitchStart s).port = s.port ∧ (tellSwitchStart s).mem = s.mem ∧ (tellSwitchStart s).link = s.link ∧
    (tellSwitchStart s).conn = s.conn ∧ (tellSwitchStart s).cells = s.cells ∧ (tellSwitchStart s).mob = s.mob ∧
    (tellSwitchStart s).texts = s.texts ∧ (tellSwitchStart s).sleep = s.sleep ∧ (tellSwitchStart s).events = s.events := by
  unfold tellSwitchStart
  (try dsimp only)
  (repeat' split) <;> simp

@[simp] theorem setDesc_frame (n : Fin 16) (f : Desc → Desc) (s : State) : (setDesc n f s).pending = s.pending ∧
    (setDesc n f s).resetN = s.resetN ∧ (setDesc n f s).resetPhase = s.resetPhase ∧ (setDesc n f s).teardown =
    s.teardown ∧ (setDesc n f s).out = s.out ∧ (setDesc n f s).frame = s.frame ∧ (setDesc n f s).bind = s.bind ∧
    (setDesc n f s).port = s.port ∧ (setDesc n f s).link = s.link ∧ (setDesc n f s).conn = s.conn ∧ (setDesc n f
    s).cells = s.cells ∧ (setDesc n f s).mob = s.mob ∧ (setDesc n f s).calls = s.calls ∧ (setDesc n f s).speech =
    s.speech ∧ (setDesc n f s).sleep = s.sleep ∧ (setDesc n f s).events = s.events := by
  unfold setDesc
  (try dsimp only)
  (repeat' split) <;> simp

@[simp] theorem retire_frame (s : State) : (retire s).pending = s.pending ∧ (retire s).resetN = s.resetN ∧ (retire
    s).resetPhase = s.resetPhase ∧ (retire s).teardown = s.teardown ∧ (retire s).out = s.out ∧ (retire s).frame =
    s.frame ∧ (retire s).bind = s.bind ∧ (retire s).port = s.port ∧ (retire s).link = s.link ∧ (retire s).conn =
    s.conn ∧ (retire s).cells = s.cells ∧ (retire s).mob = s.mob ∧ (retire s).calls = s.calls ∧ (retire s).speech =
    s.speech ∧ (retire s).sleep = s.sleep ∧ (retire s).events = s.events := by
  unfold retire
  (try dsimp only)
  (repeat' split) <;> simp

@[simp] theorem finishDesc_frame (n : Fin 16) (st : DescState) (cause : Option Cause) (attempts : Nat) (s : State) :
    (finishDesc n st cause attempts s).pending = s.pending ∧ (finishDesc n st cause attempts s).resetN = s.resetN ∧
    (finishDesc n st cause attempts s).resetPhase = s.resetPhase ∧ (finishDesc n st cause attempts s).teardown =
    s.teardown ∧ (finishDesc n st cause attempts s).frame = s.frame ∧ (finishDesc n st cause attempts s).bind = s.bind
    ∧ (finishDesc n st cause attempts s).port = s.port ∧ (finishDesc n st cause attempts s).link = s.link ∧
    (finishDesc n st cause attempts s).conn = s.conn ∧ (finishDesc n st cause attempts s).cells = s.cells ∧
    (finishDesc n st cause attempts s).mob = s.mob ∧ (finishDesc n st cause attempts s).calls = s.calls ∧ (finishDesc
    n st cause attempts s).speech = s.speech := by
  unfold finishDesc
  (try dsimp only)
  (repeat' split) <;> simp

@[simp] theorem setSend_frame (f : Send → Send) (s : State) : (setSend f s).pending = s.pending ∧ (setSend f s).resetN
    = s.resetN ∧ (setSend f s).resetPhase = s.resetPhase ∧ (setSend f s).teardown = s.teardown ∧ (setSend f s).out =
    s.out ∧ (setSend f s).frame = s.frame ∧ (setSend f s).bind = s.bind ∧ (setSend f s).port = s.port ∧ (setSend f
    s).mem = s.mem ∧ (setSend f s).link = s.link ∧ (setSend f s).conn = s.conn ∧ (setSend f s).cells = s.cells ∧
    (setSend f s).mob = s.mob ∧ (setSend f s).calls = s.calls ∧ (setSend f s).speech = s.speech ∧ (setSend f s).sleep
    = s.sleep ∧ (setSend f s).events = s.events := by
  unfold setSend
  (try dsimp only)
  (repeat' split) <;> simp

@[simp] theorem dropSend_frame (s : State) : (dropSend s).pending = s.pending ∧ (dropSend s).resetN = s.resetN ∧
    (dropSend s).resetPhase = s.resetPhase ∧ (dropSend s).teardown = s.teardown ∧ (dropSend s).out = s.out ∧ (dropSend
    s).frame = s.frame ∧ (dropSend s).bind = s.bind ∧ (dropSend s).port = s.port ∧ (dropSend s).conn = s.conn ∧
    (dropSend s).cells = s.cells ∧ (dropSend s).mob = s.mob ∧ (dropSend s).calls = s.calls ∧ (dropSend s).speech =
    s.speech ∧ (dropSend s).sleep = s.sleep ∧ (dropSend s).events = s.events := by
  unfold dropSend
  (try dsimp only)
  (repeat' split) <;> simp

@[simp] theorem endSend_frame (st : DescState) (cause : Option Cause) (s : State) : (endSend st cause s).pending =
    s.pending ∧ (endSend st cause s).resetN = s.resetN ∧ (endSend st cause s).resetPhase = s.resetPhase ∧ (endSend st
    cause s).teardown = s.teardown ∧ (endSend st cause s).frame = s.frame ∧ (endSend st cause s).bind = s.bind ∧
    (endSend st cause s).port = s.port ∧ (endSend st cause s).conn = s.conn ∧ (endSend st cause s).cells = s.cells ∧
    (endSend st cause s).mob = s.mob ∧ (endSend st cause s).calls = s.calls ∧ (endSend st cause s).speech = s.speech := by
  unfold endSend
  (try dsimp only)
  (repeat' split) <;> simp

@[simp] theorem placeSegment_frame (s : State) : (placeSegment s).pending = s.pending ∧ (placeSegment s).resetN =
    s.resetN ∧ (placeSegment s).resetPhase = s.resetPhase ∧ (placeSegment s).teardown = s.teardown ∧ (placeSegment
    s).out = s.out ∧ (placeSegment s).frame = s.frame ∧ (placeSegment s).bind = s.bind ∧ (placeSegment s).port =
    s.port ∧ (placeSegment s).conn = s.conn ∧ (placeSegment s).cells = s.cells ∧ (placeSegment s).mob = s.mob ∧
    (placeSegment s).calls = s.calls ∧ (placeSegment s).speech = s.speech ∧ (placeSegment s).sleep = s.sleep ∧
    (placeSegment s).events = s.events := by
  unfold placeSegment
  (try dsimp only)
  (repeat' split) <;> simp

@[simp] theorem segmentFailed_frame (s : State) : (segmentFailed s).pending = s.pending ∧ (segmentFailed s).resetN =
    s.resetN ∧ (segmentFailed s).resetPhase = s.resetPhase ∧ (segmentFailed s).teardown = s.teardown ∧ (segmentFailed
    s).frame = s.frame ∧ (segmentFailed s).bind = s.bind ∧ (segmentFailed s).port = s.port ∧ (segmentFailed s).conn =
    s.conn ∧ (segmentFailed s).cells = s.cells ∧ (segmentFailed s).mob = s.mob ∧ (segmentFailed s).calls = s.calls ∧
    (segmentFailed s).speech = s.speech := by
  unfold segmentFailed
  (try dsimp only)
  (repeat' split) <;> simp

@[simp] theorem beginSend_frame (n : Fin 16) (s : State) : (beginSend n s).pending = s.pending ∧ (beginSend n
    s).resetN = s.resetN ∧ (beginSend n s).resetPhase = s.resetPhase ∧ (beginSend n s).teardown = s.teardown ∧
    (beginSend n s).frame = s.frame ∧ (beginSend n s).bind = s.bind ∧ (beginSend n s).port = s.port ∧ (beginSend n
    s).link = s.link ∧ (beginSend n s).conn = s.conn ∧ (beginSend n s).cells = s.cells ∧ (beginSend n s).mob = s.mob ∧
    (beginSend n s).calls = s.calls ∧ (beginSend n s).speech = s.speech ∧ (beginSend n s).sleep = s.sleep ∧ (beginSend
    n s).events = s.events := by
  unfold beginSend
  (try dsimp only)
  (repeat' split) <;> simp

@[simp] theorem textLost_frame (cause : Cause) (s : State) : (textLost cause s).pending = s.pending ∧ (textLost cause
    s).resetN = s.resetN ∧ (textLost cause s).resetPhase = s.resetPhase ∧ (textLost cause s).teardown = s.teardown ∧
    (textLost cause s).frame = s.frame ∧ (textLost cause s).bind = s.bind ∧ (textLost cause s).port = s.port ∧
    (textLost cause s).conn = s.conn ∧ (textLost cause s).cells = s.cells ∧ (textLost cause s).mob = s.mob ∧ (textLost
    cause s).calls = s.calls ∧ (textLost cause s).speech = s.speech := by
  unfold textLost
  (try dsimp only)
  (repeat' split) <;> simp

@[simp] theorem textConnectFailed_frame (s : State) : (textConnectFailed s).pending = s.pending ∧ (textConnectFailed
    s).resetN = s.resetN ∧ (textConnectFailed s).resetPhase = s.resetPhase ∧ (textConnectFailed s).teardown =
    s.teardown ∧ (textConnectFailed s).frame = s.frame ∧ (textConnectFailed s).bind = s.bind ∧ (textConnectFailed
    s).port = s.port ∧ (textConnectFailed s).link = s.link ∧ (textConnectFailed s).conn = s.conn ∧ (textConnectFailed
    s).cells = s.cells ∧ (textConnectFailed s).mob = s.mob ∧ (textConnectFailed s).calls = s.calls ∧
    (textConnectFailed s).speech = s.speech := by
  unfold textConnectFailed
  (try dsimp only)
  (repeat' split) <;> simp

@[simp] theorem keepSegment_frame (s : State) : (keepSegment s).pending = s.pending ∧ (keepSegment s).resetN =
    s.resetN ∧ (keepSegment s).resetPhase = s.resetPhase ∧ (keepSegment s).teardown = s.teardown ∧ (keepSegment
    s).frame = s.frame ∧ (keepSegment s).bind = s.bind ∧ (keepSegment s).port = s.port ∧ (keepSegment s).conn = s.conn
    ∧ (keepSegment s).cells = s.cells ∧ (keepSegment s).mob = s.mob ∧ (keepSegment s).calls = s.calls ∧ (keepSegment
    s).speech = s.speech := by
  unfold keepSegment
  (try dsimp only)
  (repeat' split) <;> simp

@[simp] theorem textSwitchStart_frame (s : State) : (textSwitchStart s).pending = s.pending ∧ (textSwitchStart
    s).resetN = s.resetN ∧ (textSwitchStart s).resetPhase = s.resetPhase ∧ (textSwitchStart s).teardown = s.teardown ∧
    (textSwitchStart s).frame = s.frame ∧ (textSwitchStart s).bind = s.bind ∧ (textSwitchStart s).port = s.port ∧
    (textSwitchStart s).conn = s.conn ∧ (textSwitchStart s).cells = s.cells ∧ (textSwitchStart s).mob = s.mob ∧
    (textSwitchStart s).calls = s.calls ∧ (textSwitchStart s).speech = s.speech := by
  unfold textSwitchStart
  (try dsimp only)
  (repeat' split) <;> simp

@[simp] theorem textSendAbandoned_frame (s : State) : (textSendAbandoned s).pending = s.pending ∧ (textSendAbandoned
    s).resetN = s.resetN ∧ (textSendAbandoned s).resetPhase = s.resetPhase ∧ (textSendAbandoned s).teardown =
    s.teardown ∧ (textSendAbandoned s).frame = s.frame ∧ (textSendAbandoned s).bind = s.bind ∧ (textSendAbandoned
    s).port = s.port ∧ (textSendAbandoned s).conn = s.conn ∧ (textSendAbandoned s).cells = s.cells ∧
    (textSendAbandoned s).mob = s.mob ∧ (textSendAbandoned s).calls = s.calls ∧ (textSendAbandoned s).speech =
    s.speech := by
  unfold textSendAbandoned
  (try dsimp only)
  (repeat' split) <;> simp

@[simp] theorem textSwitchEnd_frame (s : State) : (textSwitchEnd s).pending = s.pending ∧ (textSwitchEnd s).resetN =
    s.resetN ∧ (textSwitchEnd s).resetPhase = s.resetPhase ∧ (textSwitchEnd s).teardown = s.teardown ∧ (textSwitchEnd
    s).out = s.out ∧ (textSwitchEnd s).frame = s.frame ∧ (textSwitchEnd s).bind = s.bind ∧ (textSwitchEnd s).port =
    s.port ∧ (textSwitchEnd s).conn = s.conn ∧ (textSwitchEnd s).cells = s.cells ∧ (textSwitchEnd s).mob = s.mob ∧
    (textSwitchEnd s).calls = s.calls ∧ (textSwitchEnd s).speech = s.speech ∧ (textSwitchEnd s).sleep = s.sleep ∧
    (textSwitchEnd s).events = s.events := by
  unfold textSwitchEnd
  (try dsimp only)
  (repeat' split) <;> simp

@[simp] theorem ackMsg_frame (ref index : Byte) (r : AckResult) (s : State) : (ackMsg ref index r s).pending =
    s.pending ∧ (ackMsg ref index r s).resetN = s.resetN ∧ (ackMsg ref index r s).resetPhase = s.resetPhase ∧ (ackMsg
    ref index r s).teardown = s.teardown ∧ (ackMsg ref index r s).out = s.out ∧ (ackMsg ref index r s).frame = s.frame
    ∧ (ackMsg ref index r s).bind = s.bind ∧ (ackMsg ref index r s).port = s.port ∧ (ackMsg ref index r s).conn =
    s.conn ∧ (ackMsg ref index r s).cells = s.cells ∧ (ackMsg ref index r s).mob = s.mob ∧ (ackMsg ref index r
    s).calls = s.calls ∧ (ackMsg ref index r s).speech = s.speech ∧ (ackMsg ref index r s).texts = s.texts ∧ (ackMsg
    ref index r s).sleep = s.sleep ∧ (ackMsg ref index r s).events = s.events := by
  unfold ackMsg
  (try dsimp only)
  (repeat' split) <;> simp

@[simp] theorem setFull_frame (b : Bool) (s : State) : (setFull b s).pending = s.pending ∧ (setFull b s).resetN =
    s.resetN ∧ (setFull b s).resetPhase = s.resetPhase ∧ (setFull b s).teardown = s.teardown ∧ (setFull b s).out =
    s.out ∧ (setFull b s).frame = s.frame ∧ (setFull b s).bind = s.bind ∧ (setFull b s).port = s.port ∧ (setFull b
    s).link = s.link ∧ (setFull b s).conn = s.conn ∧ (setFull b s).cells = s.cells ∧ (setFull b s).mob = s.mob ∧
    (setFull b s).calls = s.calls ∧ (setFull b s).speech = s.speech ∧ (setFull b s).sleep = s.sleep ∧ (setFull b
    s).events = s.events := by
  unfold setFull
  (try dsimp only)
  (repeat' split) <;> simp

@[simp] theorem writeSlotHeader_frame (c : Ctx) (bytes : LineBytes) (s : State) : (writeSlotHeader c bytes s).pending
    = s.pending ∧ (writeSlotHeader c bytes s).resetN = s.resetN ∧ (writeSlotHeader c bytes s).resetPhase =
    s.resetPhase ∧ (writeSlotHeader c bytes s).teardown = s.teardown ∧ (writeSlotHeader c bytes s).out = s.out ∧
    (writeSlotHeader c bytes s).frame = s.frame ∧ (writeSlotHeader c bytes s).bind = s.bind ∧ (writeSlotHeader c bytes
    s).port = s.port ∧ (writeSlotHeader c bytes s).link = s.link ∧ (writeSlotHeader c bytes s).conn = s.conn ∧
    (writeSlotHeader c bytes s).cells = s.cells ∧ (writeSlotHeader c bytes s).mob = s.mob ∧ (writeSlotHeader c bytes
    s).calls = s.calls ∧ (writeSlotHeader c bytes s).speech = s.speech ∧ (writeSlotHeader c bytes s).texts = s.texts ∧
    (writeSlotHeader c bytes s).sleep = s.sleep ∧ (writeSlotHeader c bytes s).events = s.events := by
  unfold writeSlotHeader
  (try dsimp only)
  (repeat' split) <;> simp

@[simp] theorem deliver_frame (l : List Resv) (s : State) : (deliver l s).pending = s.pending ∧ (deliver l s).resetN =
    s.resetN ∧ (deliver l s).resetPhase = s.resetPhase ∧ (deliver l s).teardown = s.teardown ∧ (deliver l s).frame =
    s.frame ∧ (deliver l s).bind = s.bind ∧ (deliver l s).link = s.link ∧ (deliver l s).conn = s.conn ∧ (deliver l
    s).cells = s.cells ∧ (deliver l s).mob = s.mob ∧ (deliver l s).calls = s.calls ∧ (deliver l s).speech = s.speech := by
  induction l generalizing s with
  | nil => simp [deliver]
  | cons e rest ih =>
    unfold deliver
    dsimp only
    split <;> simp [ih]

@[simp] theorem deliverAll_frame (s : State) : (deliverAll s).pending = s.pending ∧ (deliverAll s).resetN = s.resetN ∧
    (deliverAll s).resetPhase = s.resetPhase ∧ (deliverAll s).teardown = s.teardown ∧ (deliverAll s).frame = s.frame ∧
    (deliverAll s).bind = s.bind ∧ (deliverAll s).link = s.link ∧ (deliverAll s).conn = s.conn ∧ (deliverAll s).cells
    = s.cells ∧ (deliverAll s).mob = s.mob ∧ (deliverAll s).calls = s.calls ∧ (deliverAll s).speech = s.speech := by
  unfold deliverAll
  (try dsimp only)
  (repeat' split) <;> simp

@[simp] theorem closeCtx_frame (c : Ctx) (f : Finish) (s : State) : (closeCtx c f s).pending = s.pending ∧ (closeCtx c
    f s).resetN = s.resetN ∧ (closeCtx c f s).resetPhase = s.resetPhase ∧ (closeCtx c f s).teardown = s.teardown ∧
    (closeCtx c f s).out = s.out ∧ (closeCtx c f s).frame = s.frame ∧ (closeCtx c f s).bind = s.bind ∧ (closeCtx c f
    s).port = s.port ∧ (closeCtx c f s).mem = s.mem ∧ (closeCtx c f s).link = s.link ∧ (closeCtx c f s).conn = s.conn
    ∧ (closeCtx c f s).cells = s.cells ∧ (closeCtx c f s).mob = s.mob ∧ (closeCtx c f s).calls = s.calls ∧ (closeCtx c
    f s).speech = s.speech ∧ (closeCtx c f s).sleep = s.sleep ∧ (closeCtx c f s).events = s.events := by
  unfold closeCtx
  (try dsimp only)
  (repeat' split) <;> simp

@[simp] theorem finishCtx_frame (c : Ctx) (s : State) : (finishCtx c s).pending = s.pending ∧ (finishCtx c s).resetN =
    s.resetN ∧ (finishCtx c s).resetPhase = s.resetPhase ∧ (finishCtx c s).teardown = s.teardown ∧ (finishCtx c
    s).frame = s.frame ∧ (finishCtx c s).bind = s.bind ∧ (finishCtx c s).link = s.link ∧ (finishCtx c s).conn = s.conn
    ∧ (finishCtx c s).cells = s.cells ∧ (finishCtx c s).mob = s.mob ∧ (finishCtx c s).calls = s.calls ∧ (finishCtx c
    s).speech = s.speech := by
  unfold finishCtx
  (try dsimp only)
  (repeat' split) <;> simp

@[simp] theorem abandonCtx_frame (c : Ctx) (s : State) : (abandonCtx c s).pending = s.pending ∧ (abandonCtx c
    s).resetN = s.resetN ∧ (abandonCtx c s).resetPhase = s.resetPhase ∧ (abandonCtx c s).teardown = s.teardown ∧
    (abandonCtx c s).frame = s.frame ∧ (abandonCtx c s).bind = s.bind ∧ (abandonCtx c s).link = s.link ∧ (abandonCtx c
    s).conn = s.conn ∧ (abandonCtx c s).cells = s.cells ∧ (abandonCtx c s).mob = s.mob ∧ (abandonCtx c s).calls =
    s.calls ∧ (abandonCtx c s).speech = s.speech := by
  unfold abandonCtx
  (try dsimp only)
  (repeat' split) <;> simp

@[simp] theorem abandonAll_frame (s : State) : (abandonAll s).pending = s.pending ∧ (abandonAll s).resetN = s.resetN ∧
    (abandonAll s).resetPhase = s.resetPhase ∧ (abandonAll s).teardown = s.teardown ∧ (abandonAll s).frame = s.frame ∧
    (abandonAll s).bind = s.bind ∧ (abandonAll s).link = s.link ∧ (abandonAll s).conn = s.conn ∧ (abandonAll s).cells
    = s.cells ∧ (abandonAll s).mob = s.mob ∧ (abandonAll s).calls = s.calls ∧ (abandonAll s).speech = s.speech := by
  unfold abandonAll
  (try dsimp only)
  refine ⟨foldl_keep State.pending ?_ _ _, foldl_keep State.resetN ?_ _ _, foldl_keep State.resetPhase ?_ _ _,
      foldl_keep State.teardown ?_ _ _, foldl_keep State.frame ?_ _ _, foldl_keep State.bind ?_ _ _, foldl_keep
      State.link ?_ _ _, foldl_keep State.conn ?_ _ _, foldl_keep State.cells ?_ _ _, foldl_keep State.mob ?_ _ _,
      foldl_keep State.calls ?_ _ _, foldl_keep State.speech ?_ _ _⟩ <;>
    (intros; (repeat' split) <;> simp)

@[simp] theorem afterConn_frame (old st : ConnState) (s : State) : (afterConn old st s).pending = s.pending ∧
    (afterConn old st s).resetN = s.resetN ∧ (afterConn old st s).resetPhase = s.resetPhase ∧ (afterConn old st
    s).teardown = s.teardown ∧ (afterConn old st s).out = s.out ∧ (afterConn old st s).frame = s.frame ∧ (afterConn
    old st s).bind = s.bind ∧ (afterConn old st s).port = s.port ∧ (afterConn old st s).link = s.link ∧ (afterConn old
    st s).conn = s.conn ∧ (afterConn old st s).calls = s.calls ∧ (afterConn old st s).speech = s.speech ∧ (afterConn
    old st s).texts = s.texts ∧ (afterConn old st s).events = s.events := by
  unfold afterConn
  (try dsimp only)
  (repeat' split) <;> simp

@[simp] theorem setConnQuiet_frame (st : ConnState) (s : State) : (setConnQuiet st s).pending = s.pending ∧
    (setConnQuiet st s).resetN = s.resetN ∧ (setConnQuiet st s).resetPhase = s.resetPhase ∧ (setConnQuiet st
    s).teardown = s.teardown ∧ (setConnQuiet st s).out = s.out ∧ (setConnQuiet st s).frame = s.frame ∧ (setConnQuiet
    st s).bind = s.bind ∧ (setConnQuiet st s).port = s.port ∧ (setConnQuiet st s).link = s.link ∧ (setConnQuiet st
    s).calls = s.calls ∧ (setConnQuiet st s).speech = s.speech ∧ (setConnQuiet st s).texts = s.texts ∧ (setConnQuiet
    st s).events = s.events := by
  unfold setConnQuiet
  (try dsimp only)
  (repeat' split) <;> simp

@[simp] theorem setConn_frame (st : ConnState) (s : State) : (setConn st s).pending = s.pending ∧ (setConn st
    s).resetN = s.resetN ∧ (setConn st s).resetPhase = s.resetPhase ∧ (setConn st s).teardown = s.teardown ∧ (setConn
    st s).out = s.out ∧ (setConn st s).frame = s.frame ∧ (setConn st s).bind = s.bind ∧ (setConn st s).port = s.port ∧
    (setConn st s).link = s.link ∧ (setConn st s).calls = s.calls ∧ (setConn st s).speech = s.speech ∧ (setConn st
    s).texts = s.texts ∧ (setConn st s).events = s.events := by
  unfold setConn
  (try dsimp only)
  (repeat' split) <;> simp

@[simp] theorem setArea_frame (a : Option Half) (s : State) : (setArea a s).pending = s.pending ∧ (setArea a s).resetN
    = s.resetN ∧ (setArea a s).resetPhase = s.resetPhase ∧ (setArea a s).teardown = s.teardown ∧ (setArea a s).out =
    s.out ∧ (setArea a s).frame = s.frame ∧ (setArea a s).bind = s.bind ∧ (setArea a s).port = s.port ∧ (setArea a
    s).link = s.link ∧ (setArea a s).cells = s.cells ∧ (setArea a s).mob = s.mob ∧ (setArea a s).calls = s.calls ∧
    (setArea a s).speech = s.speech ∧ (setArea a s).texts = s.texts ∧ (setArea a s).events = s.events := by
  unfold setArea
  (try dsimp only)
  (repeat' split) <;> simp

@[simp] theorem placeRequest_frame (p : Purpose) (attempts : Nat) (s : State) : (placeRequest p attempts s).pending =
    s.pending ∧ (placeRequest p attempts s).resetN = s.resetN ∧ (placeRequest p attempts s).resetPhase = s.resetPhase
    ∧ (placeRequest p attempts s).teardown = s.teardown ∧ (placeRequest p attempts s).out = s.out ∧ (placeRequest p
    attempts s).frame = s.frame ∧ (placeRequest p attempts s).bind = s.bind ∧ (placeRequest p attempts s).port =
    s.port ∧ (placeRequest p attempts s).cells = s.cells ∧ (placeRequest p attempts s).mob = s.mob ∧ (placeRequest p
    attempts s).calls = s.calls ∧ (placeRequest p attempts s).speech = s.speech ∧ (placeRequest p attempts s).texts =
    s.texts ∧ (placeRequest p attempts s).sleep = s.sleep ∧ (placeRequest p attempts s).events = s.events := by
  unfold placeRequest
  (try dsimp only)
  (repeat' split) <;> simp

@[simp] theorem connectStart_frame (p : Purpose) (s : State) : (connectStart p s).pending = s.pending ∧ (connectStart
    p s).resetN = s.resetN ∧ (connectStart p s).resetPhase = s.resetPhase ∧ (connectStart p s).teardown = s.teardown ∧
    (connectStart p s).out = s.out ∧ (connectStart p s).frame = s.frame ∧ (connectStart p s).bind = s.bind ∧
    (connectStart p s).port = s.port ∧ (connectStart p s).calls = s.calls ∧ (connectStart p s).speech = s.speech ∧
    (connectStart p s).texts = s.texts ∧ (connectStart p s).events = s.events := by
  unfold connectStart
  (try dsimp only)
  (repeat' split) <;> simp

@[simp] theorem placeAreaUpdate_frame (s : State) : (placeAreaUpdate s).pending = s.pending ∧ (placeAreaUpdate
    s).resetN = s.resetN ∧ (placeAreaUpdate s).resetPhase = s.resetPhase ∧ (placeAreaUpdate s).teardown = s.teardown ∧
    (placeAreaUpdate s).out = s.out ∧ (placeAreaUpdate s).frame = s.frame ∧ (placeAreaUpdate s).bind = s.bind ∧
    (placeAreaUpdate s).port = s.port ∧ (placeAreaUpdate s).cells = s.cells ∧ (placeAreaUpdate s).mob = s.mob ∧
    (placeAreaUpdate s).calls = s.calls ∧ (placeAreaUpdate s).speech = s.speech ∧ (placeAreaUpdate s).texts = s.texts
    ∧ (placeAreaUpdate s).sleep = s.sleep ∧ (placeAreaUpdate s).events = s.events := by
  unfold placeAreaUpdate
  (try dsimp only)
  (repeat' split) <;> simp

@[simp] theorem addPurpose_frame (p : Purpose) (s : State) : (addPurpose p s).pending = s.pending ∧ (addPurpose p
    s).resetN = s.resetN ∧ (addPurpose p s).resetPhase = s.resetPhase ∧ (addPurpose p s).teardown = s.teardown ∧
    (addPurpose p s).out = s.out ∧ (addPurpose p s).frame = s.frame ∧ (addPurpose p s).bind = s.bind ∧ (addPurpose p
    s).port = s.port ∧ (addPurpose p s).calls = s.calls ∧ (addPurpose p s).speech = s.speech ∧ (addPurpose p s).texts
    = s.texts ∧ (addPurpose p s).events = s.events := by
  unfold addPurpose
  (try dsimp only)
  (repeat' split) <;> simp

@[simp] theorem startWaiting_frame (s : State) : (startWaiting s).pending = s.pending ∧ (startWaiting s).resetN =
    s.resetN ∧ (startWaiting s).resetPhase = s.resetPhase ∧ (startWaiting s).teardown = s.teardown ∧ (startWaiting
    s).out = s.out ∧ (startWaiting s).frame = s.frame ∧ (startWaiting s).bind = s.bind ∧ (startWaiting s).port =
    s.port ∧ (startWaiting s).calls = s.calls ∧ (startWaiting s).speech = s.speech ∧ (startWaiting s).texts = s.texts
    ∧ (startWaiting s).events = s.events := by
  unfold startWaiting
  (try dsimp only)
  (repeat' split) <;> simp

@[simp] theorem areaCheck_frame (s : State) : (areaCheck s).pending = s.pending ∧ (areaCheck s).resetN = s.resetN ∧
    (areaCheck s).resetPhase = s.resetPhase ∧ (areaCheck s).teardown = s.teardown ∧ (areaCheck s).out = s.out ∧
    (areaCheck s).frame = s.frame ∧ (areaCheck s).bind = s.bind ∧ (areaCheck s).port = s.port ∧ (areaCheck s).calls =
    s.calls ∧ (areaCheck s).speech = s.speech ∧ (areaCheck s).texts = s.texts ∧ (areaCheck s).events = s.events := by
  unfold areaCheck
  (try dsimp only)
  (repeat' split) <;> simp

@[simp] theorem serveConnected_frame (s : State) : (serveConnected s).pending = s.pending ∧ (serveConnected s).resetN
    = s.resetN ∧ (serveConnected s).resetPhase = s.resetPhase ∧ (serveConnected s).teardown = s.teardown ∧
    (serveConnected s).out = s.out ∧ (serveConnected s).frame = s.frame ∧ (serveConnected s).bind = s.bind ∧
    (serveConnected s).port = s.port ∧ (serveConnected s).speech = s.speech ∧ (serveConnected s).events = s.events := by
  unfold serveConnected
  (try dsimp only)
  (repeat' split) <;> simp

@[simp] theorem failConnect_frame (s : State) : (failConnect s).pending = s.pending ∧ (failConnect s).resetN =
    s.resetN ∧ (failConnect s).resetPhase = s.resetPhase ∧ (failConnect s).teardown = s.teardown ∧ (failConnect
    s).frame = s.frame ∧ (failConnect s).bind = s.bind ∧ (failConnect s).port = s.port := by
  unfold failConnect
  (try dsimp only)
  (repeat' split) <;> simp

@[simp] theorem dropRequest_frame (s : State) : (dropRequest s).pending = s.pending ∧ (dropRequest s).resetN =
    s.resetN ∧ (dropRequest s).resetPhase = s.resetPhase ∧ (dropRequest s).teardown = s.teardown ∧ (dropRequest s).out
    = s.out ∧ (dropRequest s).frame = s.frame ∧ (dropRequest s).bind = s.bind ∧ (dropRequest s).port = s.port ∧
    (dropRequest s).cells = s.cells ∧ (dropRequest s).mob = s.mob ∧ (dropRequest s).calls = s.calls ∧ (dropRequest
    s).speech = s.speech ∧ (dropRequest s).texts = s.texts ∧ (dropRequest s).sleep = s.sleep ∧ (dropRequest s).events
    = s.events := by
  unfold dropRequest
  (try dsimp only)
  (repeat' split) <;> simp

@[simp] theorem dropRequests_frame (s : State) : (dropRequests s).pending = s.pending ∧ (dropRequests s).resetN =
    s.resetN ∧ (dropRequests s).resetPhase = s.resetPhase ∧ (dropRequests s).teardown = s.teardown ∧ (dropRequests
    s).out = s.out ∧ (dropRequests s).frame = s.frame ∧ (dropRequests s).bind = s.bind ∧ (dropRequests s).port =
    s.port ∧ (dropRequests s).cells = s.cells ∧ (dropRequests s).mob = s.mob ∧ (dropRequests s).calls = s.calls ∧
    (dropRequests s).speech = s.speech ∧ (dropRequests s).texts = s.texts ∧ (dropRequests s).sleep = s.sleep ∧
    (dropRequests s).events = s.events := by
  unfold dropRequests
  (try dsimp only)
  simp only [dropRequest_frame]
  refine ⟨foldl_keep State.pending ?_ _ _, foldl_keep State.resetN ?_ _ _, foldl_keep State.resetPhase ?_ _ _,
      foldl_keep State.teardown ?_ _ _, foldl_keep State.out ?_ _ _, foldl_keep State.frame ?_ _ _, foldl_keep
      State.bind ?_ _ _, foldl_keep State.port ?_ _ _, foldl_keep State.cells ?_ _ _, foldl_keep State.mob ?_ _ _,
      foldl_keep State.calls ?_ _ _, foldl_keep State.speech ?_ _ _, foldl_keep State.texts ?_ _ _, foldl_keep
      State.sleep ?_ _ _, foldl_keep State.events ?_ _ _⟩ <;>
    (intros; (repeat' split) <;> simp)

@[simp] theorem connectFail_frame (s : State) : (connectFail s).pending = s.pending ∧ (connectFail s).resetN =
    s.resetN ∧ (connectFail s).resetPhase = s.resetPhase ∧ (connectFail s).teardown = s.teardown ∧ (connectFail
    s).frame = s.frame ∧ (connectFail s).bind = s.bind ∧ (connectFail s).port = s.port := by
  unfold connectFail
  (try dsimp only)
  (repeat' split) <;> simp

@[simp] theorem areaServed_frame (s : State) : (areaServed s).pending = s.pending ∧ (areaServed s).resetN = s.resetN ∧
    (areaServed s).resetPhase = s.resetPhase ∧ (areaServed s).teardown = s.teardown ∧ (areaServed s).out = s.out ∧
    (areaServed s).frame = s.frame ∧ (areaServed s).bind = s.bind ∧ (areaServed s).port = s.port ∧ (areaServed s).mem
    = s.mem ∧ (areaServed s).link = s.link ∧ (areaServed s).cells = s.cells ∧ (areaServed s).mob = s.mob ∧ (areaServed
    s).calls = s.calls ∧ (areaServed s).speech = s.speech ∧ (areaServed s).texts = s.texts ∧ (areaServed s).sleep =
    s.sleep ∧ (areaServed s).events = s.events := by
  unfold areaServed
  (try dsimp only)
  (repeat' split) <;> simp

@[simp] theorem writeResult_frame (r : Fin 4) (req : Request) (res : ReqResult) (s : State) : (writeResult r req res
    s).pending = s.pending ∧ (writeResult r req res s).resetN = s.resetN ∧ (writeResult r req res s).resetPhase =
    s.resetPhase ∧ (writeResult r req res s).teardown = s.teardown ∧ (writeResult r req res s).out = s.out ∧
    (writeResult r req res s).frame = s.frame ∧ (writeResult r req res s).bind = s.bind ∧ (writeResult r req res
    s).port = s.port ∧ (writeResult r req res s).link = s.link ∧ (writeResult r req res s).conn = s.conn ∧
    (writeResult r req res s).cells = s.cells ∧ (writeResult r req res s).mob = s.mob ∧ (writeResult r req res
    s).speech = s.speech ∧ (writeResult r req res s).texts = s.texts ∧ (writeResult r req res s).sleep = s.sleep ∧
    (writeResult r req res s).events = s.events := by
  unfold writeResult
  (try dsimp only)
  (repeat' split) <;> simp

@[simp] theorem originate_frame (r : Fin 4) (s : State) : (originate r s).pending = s.pending ∧ (originate r s).resetN
    = s.resetN ∧ (originate r s).resetPhase = s.resetPhase ∧ (originate r s).teardown = s.teardown ∧ (originate r
    s).frame = s.frame ∧ (originate r s).bind = s.bind ∧ (originate r s).port = s.port ∧ (originate r s).texts =
    s.texts := by
  unfold originate
  (try dsimp only)
  (repeat' split) <;> simp

@[simp] theorem answerCall_frame (r : Fin 4) (s : State) : (answerCall r s).pending = s.pending ∧ (answerCall r
    s).resetN = s.resetN ∧ (answerCall r s).resetPhase = s.resetPhase ∧ (answerCall r s).teardown = s.teardown ∧
    (answerCall r s).frame = s.frame ∧ (answerCall r s).bind = s.bind ∧ (answerCall r s).port = s.port ∧ (answerCall r
    s).conn = s.conn ∧ (answerCall r s).cells = s.cells ∧ (answerCall r s).mob = s.mob ∧ (answerCall r s).texts =
    s.texts := by
  unfold answerCall
  (try dsimp only)
  (repeat' split) <;> simp

@[simp] theorem swapCalls_frame (r y : Fin 4) (s : State) : (swapCalls r y s).pending = s.pending ∧ (swapCalls r y
    s).resetN = s.resetN ∧ (swapCalls r y s).resetPhase = s.resetPhase ∧ (swapCalls r y s).teardown = s.teardown ∧
    (swapCalls r y s).out = s.out ∧ (swapCalls r y s).frame = s.frame ∧ (swapCalls r y s).bind = s.bind ∧ (swapCalls r
    y s).port = s.port ∧ (swapCalls r y s).conn = s.conn ∧ (swapCalls r y s).cells = s.cells ∧ (swapCalls r y s).mob =
    s.mob ∧ (swapCalls r y s).speech = s.speech ∧ (swapCalls r y s).texts = s.texts ∧ (swapCalls r y s).sleep =
    s.sleep ∧ (swapCalls r y s).events = s.events := by
  unfold swapCalls
  (try dsimp only)
  (repeat' split) <;> simp

@[simp] theorem takeRequest_frame (r : Fin 4) (req : Request) (s : State) : (takeRequest r req s).pending = s.pending
    ∧ (takeRequest r req s).resetN = s.resetN ∧ (takeRequest r req s).resetPhase = s.resetPhase ∧ (takeRequest r req
    s).teardown = s.teardown ∧ (takeRequest r req s).frame = s.frame ∧ (takeRequest r req s).bind = s.bind ∧
    (takeRequest r req s).port = s.port ∧ (takeRequest r req s).texts = s.texts := by
  unfold takeRequest
  (try dsimp only)
  (repeat' split) <;> simp

@[simp] theorem storePending_frame (r : Fin 4) (req : Request) (s : State) : (storePending r req s).pending =
    s.pending ∧ (storePending r req s).resetN = s.resetN ∧ (storePending r req s).resetPhase = s.resetPhase ∧
    (storePending r req s).teardown = s.teardown ∧ (storePending r req s).frame = s.frame ∧ (storePending r req
    s).bind = s.bind ∧ (storePending r req s).port = s.port ∧ (storePending r req s).link = s.link ∧ (storePending r
    req s).conn = s.conn ∧ (storePending r req s).cells = s.cells ∧ (storePending r req s).mob = s.mob ∧ (storePending
    r req s).speech = s.speech ∧ (storePending r req s).texts = s.texts := by
  unfold storePending
  (try dsimp only)
  (repeat' split) <;> simp

@[simp] theorem callRequest_frame (r : Fin 4) (req : Request) (s : State) : (callRequest r req s).pending = s.pending
    ∧ (callRequest r req s).resetN = s.resetN ∧ (callRequest r req s).resetPhase = s.resetPhase ∧ (callRequest r req
    s).teardown = s.teardown ∧ (callRequest r req s).frame = s.frame ∧ (callRequest r req s).bind = s.bind ∧
    (callRequest r req s).port = s.port ∧ (callRequest r req s).texts = s.texts := by
  unfold callRequest
  (try dsimp only)
  (repeat' split) <;> simp

@[simp] theorem runPending_frame (s : State) : (runPending s).resetN = s.resetN ∧ (runPending s).resetPhase =
    s.resetPhase ∧ (runPending s).teardown = s.teardown ∧ (runPending s).frame = s.frame ∧ (runPending s).bind =
    s.bind ∧ (runPending s).port = s.port ∧ (runPending s).texts = s.texts := by
  unfold runPending
  (try dsimp only)
  refine ⟨foldl_keep State.resetN ?_ _ _, foldl_keep State.resetPhase ?_ _ _, foldl_keep State.teardown ?_ _ _,
      foldl_keep State.frame ?_ _ _, foldl_keep State.bind ?_ _ _, foldl_keep State.port ?_ _ _, foldl_keep
      State.texts ?_ _ _⟩ <;>
    (intros; (repeat' split) <;> simp)

@[simp] theorem accessoryAnswer_frame (s : State) : (accessoryAnswer s).pending = s.pending ∧ (accessoryAnswer
    s).resetN = s.resetN ∧ (accessoryAnswer s).resetPhase = s.resetPhase ∧ (accessoryAnswer s).teardown = s.teardown ∧
    (accessoryAnswer s).frame = s.frame ∧ (accessoryAnswer s).bind = s.bind ∧ (accessoryAnswer s).port = s.port ∧
    (accessoryAnswer s).texts = s.texts := by
  unfold accessoryAnswer
  (try dsimp only)
  (repeat' split) <;> simp

end Sys2Proof.Machine
end

