-- ==== Sys2Proof/Laws/FrameMob.lean ====
section
/-! SUPPORT. Mobility and the end of a command: the parts of the state that each operation leaves alone. -/

set_option linter.unusedSimpArgs false
set_option linter.unusedTactic false
set_option linter.unnecessarySeqFocus false
set_option linter.unreachableTactic false

namespace Sys2Proof.Machine

@[simp] theorem sendSwitch_frame (n : Fin 13) (s : State) : (sendSwitch n s).pending = s.pending ∧ (sendSwitch n
    s).resetN = s.resetN ∧ (sendSwitch n s).resetPhase = s.resetPhase ∧ (sendSwitch n s).teardown = s.teardown ∧
    (sendSwitch n s).frame = s.frame ∧ (sendSwitch n s).bind = s.bind ∧ (sendSwitch n s).port = s.port ∧ (sendSwitch n
    s).conn = s.conn ∧ (sendSwitch n s).cells = s.cells ∧ (sendSwitch n s).calls = s.calls ∧ (sendSwitch n s).speech =
    s.speech := by
  unfold sendSwitch
  (try dsimp only)
  (repeat' split) <;> simp

@[simp] theorem withdrawReport_frame (s : State) : (withdrawReport s).pending = s.pending ∧ (withdrawReport s).resetN
    = s.resetN ∧ (withdrawReport s).resetPhase = s.resetPhase ∧ (withdrawReport s).teardown = s.teardown ∧
    (withdrawReport s).out = s.out ∧ (withdrawReport s).frame = s.frame ∧ (withdrawReport s).bind = s.bind ∧
    (withdrawReport s).port = s.port ∧ (withdrawReport s).conn = s.conn ∧ (withdrawReport s).cells = s.cells ∧
    (withdrawReport s).calls = s.calls ∧ (withdrawReport s).speech = s.speech ∧ (withdrawReport s).texts = s.texts ∧
    (withdrawReport s).sleep = s.sleep ∧ (withdrawReport s).events = s.events := by
  unfold withdrawReport
  (try dsimp only)
  (repeat' split) <;> simp

@[simp] theorem endSwitch_frame (s : State) : (endSwitch s).resetN = s.resetN ∧ (endSwitch s).resetPhase =
    s.resetPhase ∧ (endSwitch s).teardown = s.teardown ∧ (endSwitch s).frame = s.frame ∧ (endSwitch s).bind = s.bind ∧
    (endSwitch s).port = s.port := by
  unfold endSwitch
  (try dsimp only)
  (repeat' split) <;> simp

@[simp] theorem leaveService_frame (cause : Cause) (told : Bool) (s : State) : (leaveService cause told s).resetN =
    s.resetN ∧ (leaveService cause told s).resetPhase = s.resetPhase ∧ (leaveService cause told s).teardown =
    s.teardown ∧ (leaveService cause told s).frame = s.frame ∧ (leaveService cause told s).bind = s.bind := by
  unfold leaveService
  (try dsimp only)
  (repeat' split) <;> simp

@[simp] theorem handoverFailed_frame (w : SwRec) (s : State) : (handoverFailed w s).pending = s.pending ∧
    (handoverFailed w s).resetN = s.resetN ∧ (handoverFailed w s).resetPhase = s.resetPhase ∧ (handoverFailed w
    s).teardown = s.teardown ∧ (handoverFailed w s).frame = s.frame ∧ (handoverFailed w s).bind = s.bind ∧
    (handoverFailed w s).port = s.port ∧ (handoverFailed w s).link = s.link ∧ (handoverFailed w s).conn = s.conn ∧
    (handoverFailed w s).cells = s.cells ∧ (handoverFailed w s).mob = s.mob ∧ (handoverFailed w s).calls = s.calls ∧
    (handoverFailed w s).speech = s.speech ∧ (handoverFailed w s).texts = s.texts := by
  unfold handoverFailed
  (try dsimp only)
  (repeat' split) <;> simp

@[simp] theorem beginFallback_frame (w : SwRec) (s : State) : (beginFallback w s).pending = s.pending ∧ (beginFallback
    w s).resetN = s.resetN ∧ (beginFallback w s).resetPhase = s.resetPhase ∧ (beginFallback w s).teardown = s.teardown
    ∧ (beginFallback w s).frame = s.frame ∧ (beginFallback w s).bind = s.bind ∧ (beginFallback w s).port = s.port ∧
    (beginFallback w s).conn = s.conn ∧ (beginFallback w s).cells = s.cells ∧ (beginFallback w s).calls = s.calls ∧
    (beginFallback w s).speech = s.speech := by
  unfold beginFallback
  (try dsimp only)
  (repeat' split) <;> simp

@[simp] theorem refuseOrder_frame (s : State) : (refuseOrder s).pending = s.pending ∧ (refuseOrder s).resetN =
    s.resetN ∧ (refuseOrder s).resetPhase = s.resetPhase ∧ (refuseOrder s).teardown = s.teardown ∧ (refuseOrder s).out
    = s.out ∧ (refuseOrder s).frame = s.frame ∧ (refuseOrder s).bind = s.bind ∧ (refuseOrder s).port = s.port ∧
    (refuseOrder s).conn = s.conn ∧ (refuseOrder s).cells = s.cells ∧ (refuseOrder s).calls = s.calls ∧ (refuseOrder
    s).speech = s.speech ∧ (refuseOrder s).texts = s.texts ∧ (refuseOrder s).sleep = s.sleep ∧ (refuseOrder s).events
    = s.events := by
  unfold refuseOrder
  (try dsimp only)
  (repeat' split) <;> simp

@[simp] theorem dropSwitch_frame (s : State) : (dropSwitch s).resetN = s.resetN ∧ (dropSwitch s).resetPhase =
    s.resetPhase ∧ (dropSwitch s).teardown = s.teardown ∧ (dropSwitch s).frame = s.frame ∧ (dropSwitch s).bind =
    s.bind ∧ (dropSwitch s).port = s.port := by
  unfold dropSwitch
  (try dsimp only)
  (repeat' split) <;> simp

@[simp] theorem resetJobs_frame (s : State) : (resetJobs s).pending = s.pending ∧ (resetJobs s).resetN = s.resetN ∧
    (resetJobs s).resetPhase = s.resetPhase ∧ (resetJobs s).teardown = s.teardown ∧ (resetJobs s).out = s.out ∧
    (resetJobs s).frame = s.frame ∧ (resetJobs s).bind = s.bind ∧ (resetJobs s).port = s.port := by
  unfold resetJobs
  (try dsimp only)
  (repeat' split) <;> simp

@[simp] theorem wakeMemory_frame (s : State) : (wakeMemory s).pending = s.pending ∧ (wakeMemory s).resetN = s.resetN ∧
    (wakeMemory s).resetPhase = s.resetPhase ∧ (wakeMemory s).teardown = s.teardown ∧ (wakeMemory s).frame = s.frame ∧
    (wakeMemory s).bind = s.bind ∧ (wakeMemory s).link = s.link ∧ (wakeMemory s).conn = s.conn ∧ (wakeMemory s).cells
    = s.cells ∧ (wakeMemory s).mob = s.mob ∧ (wakeMemory s).calls = s.calls ∧ (wakeMemory s).speech = s.speech ∧
    (wakeMemory s).texts = s.texts ∧ (wakeMemory s).sleep = s.sleep ∧ (wakeMemory s).events = s.events := by
  unfold wakeMemory
  (try dsimp only)
  (repeat' split) <;> simp

@[simp] theorem unbindEnd_frame (s : State) : (unbindEnd s).pending = s.pending ∧ (unbindEnd s).resetN = s.resetN ∧
    (unbindEnd s).resetPhase = s.resetPhase ∧ (unbindEnd s).teardown = s.teardown ∧ (unbindEnd s).frame = s.frame := by
  unfold unbindEnd
  (try dsimp only)
  (repeat' split) <;> simp

@[simp] theorem setCounts_frame (f : Fin 13 → Nat) (s : State) : (setCounts f s).pending = s.pending ∧ (setCounts f
    s).resetN = s.resetN ∧ (setCounts f s).resetPhase = s.resetPhase ∧ (setCounts f s).teardown = s.teardown ∧
    (setCounts f s).out = s.out ∧ (setCounts f s).frame = s.frame ∧ (setCounts f s).bind = s.bind ∧ (setCounts f
    s).port = s.port ∧ (setCounts f s).mem = s.mem ∧ (setCounts f s).link = s.link ∧ (setCounts f s).conn = s.conn ∧
    (setCounts f s).cells = s.cells ∧ (setCounts f s).calls = s.calls ∧ (setCounts f s).speech = s.speech ∧ (setCounts
    f s).texts = s.texts ∧ (setCounts f s).sleep = s.sleep ∧ (setCounts f s).events = s.events := by
  unfold setCounts
  (try dsimp only)
  (repeat' split) <;> simp

@[simp] theorem beginRound_frame (s : State) : (beginRound s).pending = s.pending ∧ (beginRound s).resetN = s.resetN ∧
    (beginRound s).resetPhase = s.resetPhase ∧ (beginRound s).teardown = s.teardown ∧ (beginRound s).out = s.out ∧
    (beginRound s).frame = s.frame ∧ (beginRound s).bind = s.bind ∧ (beginRound s).port = s.port ∧ (beginRound s).mem
    = s.mem ∧ (beginRound s).link = s.link ∧ (beginRound s).conn = s.conn ∧ (beginRound s).mob = s.mob ∧ (beginRound
    s).calls = s.calls ∧ (beginRound s).speech = s.speech ∧ (beginRound s).texts = s.texts ∧ (beginRound s).sleep =
    s.sleep ∧ (beginRound s).events = s.events := by
  unfold beginRound
  (try dsimp only)
  (repeat' split) <;> simp

@[simp] theorem linkDown_frame (s : State) : (linkDown s).pending = s.pending ∧ (linkDown s).resetN = s.resetN ∧
    (linkDown s).resetPhase = s.resetPhase ∧ (linkDown s).teardown = s.teardown ∧ (linkDown s).frame = s.frame ∧
    (linkDown s).bind = s.bind ∧ (linkDown s).port = s.port ∧ (linkDown s).conn = s.conn ∧ (linkDown s).calls =
    s.calls ∧ (linkDown s).speech = s.speech ∧ (linkDown s).texts = s.texts ∧ (linkDown s).sleep = s.sleep ∧ (linkDown
    s).events = s.events := by
  unfold linkDown
  (try dsimp only)
  (repeat' split) <;> simp

@[simp] theorem pumpIdle_frame (s : State) : (pumpIdle s).pending = s.pending ∧ (pumpIdle s).resetN = s.resetN ∧
    (pumpIdle s).resetPhase = s.resetPhase ∧ (pumpIdle s).teardown = s.teardown ∧ (pumpIdle s).out = s.out ∧ (pumpIdle
    s).frame = s.frame ∧ (pumpIdle s).bind = s.bind ∧ (pumpIdle s).port = s.port ∧ (pumpIdle s).mem = s.mem ∧
    (pumpIdle s).link = s.link ∧ (pumpIdle s).cells = s.cells ∧ (pumpIdle s).mob = s.mob ∧ (pumpIdle s).calls =
    s.calls ∧ (pumpIdle s).speech = s.speech ∧ (pumpIdle s).texts = s.texts ∧ (pumpIdle s).sleep = s.sleep ∧ (pumpIdle
    s).events = s.events := by
  unfold pumpIdle
  (try dsimp only)
  (repeat' split) <;> simp

@[simp] theorem pumpWindow_frame (s : State) : (pumpWindow s).pending = s.pending ∧ (pumpWindow s).resetN = s.resetN ∧
    (pumpWindow s).resetPhase = s.resetPhase ∧ (pumpWindow s).teardown = s.teardown ∧ (pumpWindow s).out = s.out ∧
    (pumpWindow s).frame = s.frame ∧ (pumpWindow s).bind = s.bind ∧ (pumpWindow s).port = s.port ∧ (pumpWindow s).mem
    = s.mem ∧ (pumpWindow s).link = s.link ∧ (pumpWindow s).conn = s.conn ∧ (pumpWindow s).cells = s.cells ∧
    (pumpWindow s).mob = s.mob ∧ (pumpWindow s).calls = s.calls ∧ (pumpWindow s).speech = s.speech ∧ (pumpWindow
    s).texts = s.texts ∧ (pumpWindow s).events = s.events := by
  unfold pumpWindow
  (try dsimp only)
  (repeat' split) <;> simp

@[simp] theorem finish_frame (s : State) : (finish s).pending = s.pending ∧ (finish s).resetN = s.resetN ∧ (finish
    s).resetPhase = s.resetPhase ∧ (finish s).teardown = s.teardown ∧ (finish s).frame = s.frame ∧ (finish s).bind =
    s.bind ∧ (finish s).port = s.port ∧ (finish s).conn = s.conn ∧ (finish s).cells = s.cells ∧ (finish s).mob = s.mob
    ∧ (finish s).calls = s.calls ∧ (finish s).speech = s.speech ∧ (finish s).texts = s.texts := by
  unfold finish
  (try dsimp only)
  (repeat' split) <;> simp

end Sys2Proof.Machine
end

