-- ==== Sys2Proof/Laws/Steady.lean ====
section
/-! SUPPORT. What the end of a command does when nothing of the part's own work is due: the inactivity timer follows the
connection's idleness, pending events are placed, the next message is sent; everything else stays. -/

namespace Sys2Proof.Machine

/-! ## placeEvents: events and the acceptance list alone -/

theorem joinWrite_accept (w : WriteReq) (s : State) : s.mem.accept <+: (joinWrite w s).mem.accept := List.prefix_append _ _

/-- Placing events only lengthens the acceptance list, waits and counts moments; nothing else of the memory path moves. -/
def OnlyPlaces (m n : MemPath) : Prop :=
  m.accept <+: n.accept ∧ n.reads = m.reads ∧ n.readWaits = m.readWaits ∧ n.queue = m.queue ∧ n.stage = m.stage ∧
    n.pubs = m.pubs ∧ n.nextPub = m.nextPub ∧ n.mode = m.mode ∧ n.forced = m.forced ∧ n.count = m.count ∧
    n.memState = m.memState ∧ n.inFlight = m.inFlight

theorem OnlyPlaces.refl (m : MemPath) : OnlyPlaces m m := ⟨List.prefix_refl _, rfl, rfl, rfl, rfl, rfl, rfl, rfl, rfl, rfl, rfl, rfl⟩

theorem OnlyPlaces.trans {a b c : MemPath} (h : OnlyPlaces a b) (k : OnlyPlaces b c) : OnlyPlaces a c := by
  obtain ⟨h1, h2, h3, h4, h5, h6, h7, h8, h9, h10, h11, h12⟩ := h
  obtain ⟨k1, k2, k3, k4, k5, k6, k7, k8, k9, k10, k11, k12⟩ := k
  exact ⟨h1.trans k1, k2.trans h2, k3.trans h3, k4.trans h4, k5.trans h5, k6.trans h6, k7.trans h7, k8.trans h8,
    k9.trans h9, k10.trans h10, k11.trans h11, k12.trans h12⟩

theorem joinWrite_places (w : WriteReq) (s : State) : OnlyPlaces s.mem (joinWrite w s).mem :=
  ⟨joinWrite_accept w s, rfl, rfl, rfl, rfl, rfl, rfl, rfl, rfl, rfl, rfl, rfl⟩

theorem waitActs_places (j : Job) (a : List Act) (s : State) : OnlyPlaces s.mem (waitActs j a s).mem :=
  ⟨List.prefix_refl _, rfl, rfl, rfl, rfl, rfl, rfl, rfl, rfl, rfl, rfl, rfl⟩

theorem emitWrite_places (j : Job) (w : WriteReq) (s : State) : OnlyPlaces s.mem (emitWrite j w s).mem := by
  unfold emitWrite
  split
  · exact .refl _
  · split
    · exact waitActs_places _ _ _
    · exact joinWrite_places _ _

theorem placeOne_places (s : State) : OnlyPlaces s.mem (placeOne s).mem := by
  unfold placeOne
  split
  · exact joinWrite_places _ { s with events := _ }
  · split
    · exact .refl _
    · exact joinWrite_places _ { s with events := _ }

theorem pumpEvents_places (n : Nat) (s : State) : OnlyPlaces s.mem (pumpEvents n s).mem := by
  induction n generalizing s with
  | zero => exact .refl _
  | succ n ih =>
    unfold pumpEvents
    split
    · split
      · split
        · exact .refl _
        · exact waitActs_places _ _ _
      · have d : (discardFull s).mem = s.mem := by simp
        generalize discardFull s = t at d
        dsimp only
        split
        · rw [← d]; exact (placeOne_places t).trans (ih _)
        · rw [d]; exact .refl _
    · exact .refl _

theorem placeEvents_places (s : State) : OnlyPlaces s.mem (placeEvents s).mem := pumpEvents_places _ s

theorem notePlan_places (j : Job) (old s : State) : OnlyPlaces s.mem (notePlan j old s).mem := by
  have k : ∀ (i : Nat) (d : DirtyLine) (b : LineBytes) (t : State), OnlyPlaces t.mem (planLineWrite j i d b t).mem := by
    intro i d b t
    unfold planLineWrite
    repeat' split
    · exact .refl _
    · exact emitWrite_places _ _ _
    · simp only [addDirty_frame]; exact .refl _
  unfold notePlan
  split
  · exact (k _ _ _ _).trans (k _ _ _ _)
  · exact .refl _

theorem mirror_places (n : Fin 13) (s : State) : OnlyPlaces s.mem (mirror n s).mem := by
  unfold mirror
  split
  · exact emitWrite_places _ _ _
  · simp only [addDirty_frame]; exact .refl _

/-! ## finish -/

theorem sendNext_queue (s : State) : (sendNext s).link.queue.map (·.msg) = s.link.queue.map (·.msg) := by
  unfold sendNext
  split
  · split
    · rfl
    · rename_i q _
      have same : (s.link.queue.map (fun x => if x.id == q.id then { x with inFlight := true } else x)).map (·.msg)
          = s.link.queue.map (·.msg) := by
        rw [List.map_map]
        apply List.map_congr_left
        intro x _
        simp only [Function.comp]
        split <;> rfl
      unfold request
      split
      · exact same
      · exact same
  · rfl

theorem sendNext_link (s : State) : (sendNext s).link.up = s.link.up ∧ (sendNext s).link.unanswered = s.link.unanswered ∧
    (sendNext s).link.opMeasure = s.link.opMeasure ∧ (sendNext s).link.opListen = s.link.opListen ∧
    (sendNext s).link.opSwitch = s.link.opSwitch ∧ (sendNext s).link.outside = s.link.outside ∧
    (sendNext s).link.nextPlace = s.link.nextPlace ∧ (sendNext s).link.nextId = s.link.nextId ∧
    (sendNext s).link.hold = s.link.hold ∧ (sendNext s).link.recovery = s.link.recovery ∧
    (sendNext s).link.refused = s.link.refused ∧ (sendNext s).out.answers = s.out.answers ∧
    (sendNext s).out.mem = s.out.mem ∧ s.out.link <+: (sendNext s).out.link := by
  unfold sendNext
  split
  · split
    · exact ⟨rfl, rfl, rfl, rfl, rfl, rfl, rfl, rfl, rfl, rfl, rfl, rfl, rfl, List.prefix_refl _⟩
    · unfold request
      split
      · exact ⟨rfl, rfl, rfl, rfl, rfl, rfl, rfl, rfl, rfl, rfl, rfl, rfl, rfl, List.prefix_append _ _⟩
      · exact ⟨rfl, rfl, rfl, rfl, rfl, rfl, rfl, rfl, rfl, rfl, rfl, rfl, rfl, List.prefix_refl _⟩
  · exact ⟨rfl, rfl, rfl, rfl, rfl, rfl, rfl, rfl, rfl, rfl, rfl, rfl, rfl, List.prefix_refl _⟩

/-- The link after the last things of a moment: the messages in the queue are the same ones, one of them perhaps sent. -/
theorem finish_link (s : State) : (finish s).link.queue.map (·.msg) = s.link.queue.map (·.msg) ∧
    (finish s).link.up = s.link.up ∧ (finish s).link.unanswered = s.link.unanswered ∧
    (finish s).link.opMeasure = s.link.opMeasure ∧ (finish s).link.opListen = s.link.opListen ∧
    (finish s).link.opSwitch = s.link.opSwitch ∧ (finish s).link.outside = s.link.outside ∧
    (finish s).link.hold = s.link.hold ∧ (finish s).link.recovery = s.link.recovery ∧
    (finish s).link.refused = s.link.refused ∧ (finish s).out.answers = s.out.answers ∧
    (finish s).out.mem = s.out.mem ∧ s.out.link <+: (finish s).out.link := by
  have q := sendNext_queue (placeEvents s)
  have l := sendNext_link (placeEvents s)
  simp only [placeEvents_frame] at q l
  unfold finish
  simp only [closeMoment_frame, pumpWindow_frame, checkWake_frame]
  exact ⟨q, l.1, l.2.1, l.2.2.1, l.2.2.2.1, l.2.2.2.2.1, l.2.2.2.2.2.1, l.2.2.2.2.2.2.2.2.1, l.2.2.2.2.2.2.2.2.2.1,
    l.2.2.2.2.2.2.2.2.2.2.1, l.2.2.2.2.2.2.2.2.2.2.2.1, l.2.2.2.2.2.2.2.2.2.2.2.2.1, l.2.2.2.2.2.2.2.2.2.2.2.2.2⟩

theorem closeMoment_places (s : State) : OnlyPlaces s.mem (closeMoment s).mem := by
  unfold closeMoment
  split
  · exact ⟨List.prefix_refl _, rfl, rfl, rfl, rfl, rfl, rfl, rfl, rfl, rfl, rfl, rfl⟩
  · exact .refl _

theorem finish_mem (s : State) : OnlyPlaces s.mem (finish s).mem := by
  have c := closeMoment_places (pumpWindow (checkWake (sendNext (placeEvents s))))
  simp only [pumpWindow_frame, checkWake_frame, sendNext_frame] at c
  exact (placeEvents_places s).trans c

/-- The sleep controller after the last things of a moment: only WAKE and the rouse window have moved. -/
theorem finish_sleep (s : State) : (finish s).sleep.level = s.sleep.level ∧ (finish s).sleep.phase = s.sleep.phase ∧
    (finish s).sleep.quiesceTimer = s.sleep.quiesceTimer ∧ (finish s).sleep.base = s.sleep.base ∧
    (finish s).sleep.ceiling = s.sleep.ceiling ∧ (finish s).sleep.cycle = s.sleep.cycle ∧
    (finish s).sleep.quiet = s.sleep.quiet ∧ (finish s).sleep.dirty = s.sleep.dirty ∧
    (finish s).sleep.wakeCause = s.sleep.wakeCause ∧ (finish s).sleep.last = s.sleep.last ∧
    (finish s).sleep.lines = s.sleep.lines ∧ (finish s).sleep.longPress = s.sleep.longPress ∧
    (finish s).sleep.answerMap = s.sleep.answerMap := by
  have k : (finish s).sleep = (pumpWindow (checkWake (sendNext (placeEvents s)))).sleep := by
    unfold finish; simp only [closeMoment_frame]
  have e : (sendNext (placeEvents s)).sleep = s.sleep := by simp
  rw [k]
  generalize sendNext (placeEvents s) = t at e
  have w : ∀ u : State, (checkWake u).sleep = { u.sleep with wake := (checkWake u).sleep.wake, wakeAfter := (checkWake u).sleep.wakeAfter } := by
    intro u
    unfold checkWake
    repeat' split
    all_goals rfl
  have p : ∀ u : State, (pumpWindow u).sleep = { u.sleep with
      busy := (pumpWindow u).sleep.busy, rouseTimer := (pumpWindow u).sleep.rouseTimer
      reentry := (pumpWindow u).sleep.reentry } := by
    intro u
    unfold pumpWindow
    repeat' split
    all_goals rfl
  rw [p, w, e]
  exact ⟨rfl, rfl, rfl, rfl, rfl, rfl, rfl, rfl, rfl, rfl, rfl, rfl, rfl⟩

/-! ## settle -/

/-- The connection after the inactivity timer has followed its idleness. -/
theorem pumpIdle_conn (s : State) : (pumpIdle s).conn = { s.conn with inactTimer := (pumpIdle s).conn.inactTimer } := by
  unfold pumpIdle
  split <;> rfl

theorem pumpRound_still {s : State} (n : Nat) (h : (match s.cells.round with
      | none => !roundDue s
      | some _ => s.cells.phase != .idle) = true) : pumpRound n s = s := by
  cases n with
  | zero => rfl
  | succ n =>
    unfold pumpRound
    split
    · rfl
    · revert h
      cases s.cells.round with
      | none => intro h; simp only [Bool.not_eq_true'] at h; simp [h]
      | some p => intro h; simp only at h; simp [h]

/-- With nothing due, a command ends with the inactivity timer, the pending events and the next message alone. -/
theorem settle_steady {s : State} (h : steady s = true) : settle s = finish (pumpIdle s) := by
  simp only [steady, Bool.and_eq_true, List.isEmpty_iff, Bool.not_eq_true', Bool.or_eq_true] at h
  obtain ⟨⟨⟨⟨⟨⟨ref, sh⟩, un⟩, wb⟩, rd⟩, ar⟩, tx⟩ := h
  have r0 : ∀ t : State, t.link.refused = [] → pumpRefused 8 t = t := by
    intro t e
    simp [pumpRefused, e]
  have sd : pumpShutdown s = s := by
    unfold pumpShutdown
    have a : (s.conn.shutdown.isSome && s.conn.shutdown != some Cause.unbind && s.conn.shutNoDetach && shutdownPlaced s)
        = false := by
      rw [Bool.and_right_comm s.conn.shutdown.isSome, sh]; rfl
    have b : (s.bind.state == .unbinding && s.bind.noDetach && !s.bind.ending && shutdownPlaced s) = false := by
      simp only [un]; rfl
    dsimp only
    rw [a]
    simp only [Bool.false_eq_true, if_false]
    rw [b]
    simp
  have wb' : writeBack s = s := by
    have : s.sleep.writeBack = .none := by simpa using wb
    simp [writeBack, pumpWriteBack, this]
  have tx' : pumpText s = s := by
    have hr : headReady s = false := by
      unfold headReady headDesc
      rcases tx with t | t
      · have : s.texts.send.isNone = false := by
          cases hs : s.texts.send with
          | none => simp [hs] at t
          | some v => rfl
        split <;> simp [this]
      · have : s.texts.retire = s.texts.prod := by simpa using t
        simp [this]
    simp [pumpText, hr]
  unfold settle
  simp only [r0 s ref, sd, wb', pumpRound_still 6 rd, ar, pumpArrivals, tx']

end Sys2Proof.Machine
end

