-- ==== Sys2Proof/Laws/MemLimits.lean ====
section
/-! SUPPORT. The memory path's operations keep it within its places: what the queue, the stage and the arbiter's mode do. -/

namespace Sys2Proof.Machine

/-! ## The arbiter's mode -/

@[simp] theorem setMode_queue (d : ArbMode) (m : MemPath) : (setMode d m).queue = m.queue := by unfold setMode; split <;> rfl
@[simp] theorem setMode_stage (d : ArbMode) (m : MemPath) : (setMode d m).stage = m.stage := by unfold setMode; split <;> rfl
@[simp] theorem setMode_accept (d : ArbMode) (m : MemPath) : (setMode d m).accept = m.accept := by unfold setMode; split <;> rfl
@[simp] theorem setMode_reads (d : ArbMode) (m : MemPath) : (setMode d m).reads = m.reads := by unfold setMode; split <;> rfl

/-- A change of mode sets the count to 0 and touches no place of the memory path (R39). -/
theorem setMode_limits (d : ArbMode) {m : MemPath} (h : MemLimits m) : MemLimits (setMode d m) := by
  obtain ⟨a, b, c, e, f⟩ := h
  refine ⟨by simpa using a, by simpa using b, by simpa [internalCount] using c, by simpa [internalReadCount] using e, ?_⟩
  unfold setMode; split
  · exact f
  · exact Nat.zero_le _

theorem noteOccupancy_limits {m : MemPath} (h : MemLimits m) : MemLimits (noteOccupancy m) := by
  have h' : MemLimits { m with forced := false } := h
  unfold noteOccupancy
  dsimp only
  repeat' split
  all_goals first | exact h | exact setMode_limits _ h'

theorem forceDrain_limits {m : MemPath} (h : MemLimits m) : MemLimits (forceDrain m) := by
  have h' : MemLimits { m with forced := true } := h
  exact noteOccupancy_limits (setMode_limits _ h')

theorem endForce_limits {m : MemPath} (h : MemLimits m) : MemLimits (endForce m) := by
  have h' : MemLimits { m with forced := false } := h
  unfold endForce
  split
  · exact setMode_limits _ h'
  · exact h

@[simp] theorem noteOccupancy_queue (m : MemPath) : (noteOccupancy m).queue = m.queue := by
  unfold noteOccupancy; dsimp only; repeat' split
  all_goals simp
@[simp] theorem noteOccupancy_stage (m : MemPath) : (noteOccupancy m).stage = m.stage := by
  unfold noteOccupancy; dsimp only; repeat' split
  all_goals simp

/-! ## The write queue and the stage -/

/-- Bytes that the queue can take keep the queue's law: a READY entry is merged into, or there is room for a new one for a line
that has none (R23, R24, R26). -/
theorem takeBytes_limits (line : Line) (bytes : LineBytes) (o : Origin) (speech : Bool) {m : MemPath} (h : MemLimits m)
    (room : queueTakes m line = true) : MemLimits (takeBytes line bytes o speech m) := by
  unfold takeBytes
  dsimp only
  split
  · obtain ⟨⟨a, b⟩, c, d, e, f⟩ := h
    refine ⟨⟨by simpa using a, ?_⟩, c, d, e, f⟩
    have same : ((m.queue.map (fun e => if e.line == line then
          { e with bytes := bytesOver (bytes.map (fun p => (p.1, (p.2, o)))) e.bytes,
                   speech := if speech then some (e.speech.getD (m.clock + 1)) else e.speech } else e)).map (·.line))
        = m.queue.map (·.line) := by
      rw [List.map_map]
      apply List.map_congr_left
      intro e _
      simp only [Function.comp]
      split <;> rfl
    simpa only [same] using b
  · rename_i none
    refine noteOccupancy_limits ?_
    obtain ⟨⟨a, b⟩, c, d, e, f⟩ := h
    refine ⟨⟨?_, ?_⟩, c, d, e, f⟩
    · simp only [queueTakes, none, decide_eq_true_eq] at room
      simpa using room
    · simp only [List.map_append, List.map_cons, List.map_nil]
      refine List.Nodup.append b (List.nodup_singleton _) ?_
      intro x hx hy
      simp only [List.mem_singleton] at hy
      subst hy
      obtain ⟨q, hq, rfl⟩ := List.mem_map.1 hx
      have := List.find?_eq_none.1 none q hq
      simp at this

@[simp] theorem takeBytes_stage (line : Line) (bytes : LineBytes) (o : Origin) (speech : Bool) (m : MemPath) :
    (takeBytes line bytes o speech m).stage = m.stage := by
  unfold takeBytes; dsimp only; split <;> simp

theorem stageLineLeave_limits (l : StageLine) {m : MemPath} (h : MemLimits m) : MemLimits (stageLineLeave l m) := by
  unfold stageLineLeave
  split
  · rename_i c
    simp only [Bool.and_eq_true] at c
    refine takeBytes_limits _ _ _ _ ?_ c.2
    obtain ⟨a, b, d, e, f⟩ := h
    exact ⟨a, Nat.le_trans (List.length_erase_le) b, d, e, f⟩
  · exact h

/-- Whatever leaves the stage, the memory path stays within its places (R36). -/
theorem stageLeave_limits {m : MemPath} (h : MemLimits m) : MemLimits (stageLeave m) := by
  unfold stageLeave
  generalize sortBy stageOrder m.stage = l
  induction l generalizing m with
  | nil => exact h
  | cons x xs ih => exact ih (stageLineLeave_limits x h)

/-- An image joins the stage, or is laid over its stage line (R35). -/
theorem placeImage_limits (number : Nat) (images : List (Line × LineBytes)) {m : MemPath} (h : MemLimits m)
    (fits : stageFits m images = true) :
    MemLimits (images.foldl (fun m p =>
      if (stageOf m p.1).isSome then
        { m with stage := m.stage.map (fun l =>
            if l.line == p.1 then { l with bytes := bytesOver p.2 l.bytes, pub := number } else l) }
      else { m with stage := m.stage ++ [{ line := p.1, bytes := p.2, pub := number }] }) m) := by
  induction images generalizing m with
  | nil => exact h
  | cons p ps ih =>
    simp only [List.foldl_cons]
    replace fits := of_decide_eq_true fits
    simp only [stageNeeds, List.countP_cons] at fits
    split
    · rename_i some
      refine ih ?_ ?_
      · obtain ⟨a, b, c, d, e⟩ := h
        exact ⟨a, by simpa using b, c, d, e⟩
      · refine decide_eq_true ?_
        have same : ∀ q : Line × LineBytes, (stageOf { m with stage := m.stage.map (fun l =>
            if l.line == p.1 then { l with bytes := bytesOver p.2 l.bytes, pub := number } else l) } q.1).isNone
            = (stageOf m q.1).isNone := by
          intro q
          simp only [stageOf, List.find?_map, Option.isNone_map]
          congr 2
          funext l
          simp only [Function.comp]
          split <;> rfl
        simp only [stageNeeds, same, List.length_map]
        exact Nat.le_trans (Nat.add_le_add_left (Nat.le_add_right _ _) _) fits
    · rename_i none
      have none' : (stageOf m p.1).isNone = true := by simpa using none
      rw [none'] at fits
      simp only [if_true] at fits
      refine ih ?_ ?_
      · obtain ⟨a, b, c, d, e⟩ := h
        refine ⟨a, ?_, c, d, e⟩
        simp only [List.length_append, List.length_singleton]
        omega
      · refine decide_eq_true ?_
        simp only [stageNeeds, List.length_append, List.length_singleton]
        have fewer : ps.countP (fun q => (stageOf { m with stage := m.stage ++ [{ line := p.1, bytes := p.2, pub := number }] }
            q.1).isNone) ≤ ps.countP (fun q => (stageOf m q.1).isNone) := by
          refine List.countP_mono_left ?_
          intro q _ hq
          simp only [stageOf, List.find?_append] at hq ⊢
          cases hs : List.find? (fun l => l.line == q.1) m.stage with
          | none => rfl
          | some v => simp [hs] at hq
        omega

theorem publishImages_limits (number : Nat) (images : List (Line × LineBytes)) {m : MemPath} (h : MemLimits m)
    (fits : stageFits m images = true) : MemLimits (publishImages number images m) :=
  stageLeave_limits (placeImage_limits number images h fits)

theorem updateImages_limits (line : Line) (bytes : LineBytes) {m : MemPath} (h : MemLimits m) :
    MemLimits (updateImages line bytes m) := h

/-- An internal write that can be accepted is taken (R24, R26, R37). -/
theorem takeInternal_limits (w : AccWrite) {m : MemPath} (h : MemLimits m) (room : internalTakes m w = true) :
    MemLimits (takeInternal w m) := by
  unfold takeInternal
  dsimp only
  split
  · refine stageLeave_limits ?_
    obtain ⟨a, b, c, d, e⟩ := h
    exact ⟨a, by simpa [updateImages] using b, c, d, e⟩
  · rename_i none
    refine takeBytes_limits _ _ _ _ (updateImages_limits _ _ h) ?_
    simp only [internalTakes, Bool.or_eq_true] at room
    rcases room with r | r
    · have : (stageOf m w.line) = Option.none := none
      simp [this] at r
    · exact r

/-- A host write's bytes are taken (R37). -/
theorem takeHost_limits (line : Line) (bytes : LineBytes) {m : MemPath} (h : MemLimits m)
    (room : (bytes.isEmpty || queueTakes m line) = true) : MemLimits (takeHost line bytes m) := by
  unfold takeHost
  split
  · exact h
  · rename_i some
    have r : queueTakes m line = true := by
      simp only [Bool.or_eq_true] at room
      exact room.resolve_left some
    refine stageLeave_limits ?_
    obtain ⟨a, b, c, d, e⟩ := takeBytes_limits line bytes .host false h r
    refine ⟨a, ?_, c, d, e⟩
    refine Nat.le_trans (List.length_filter_le _ _) ?_
    simpa using b

/-! ## The memory state is touched by none of these -/

@[simp] theorem setMode_memState (d : ArbMode) (m : MemPath) : (setMode d m).memState = m.memState := by
  unfold setMode; split <;> rfl
@[simp] theorem noteOccupancy_memState (m : MemPath) : (noteOccupancy m).memState = m.memState := by
  unfold noteOccupancy; dsimp only; repeat' split
  all_goals simp
@[simp] theorem forceDrain_memState (m : MemPath) : (forceDrain m).memState = m.memState := by simp [forceDrain]
@[simp] theorem endForce_memState (m : MemPath) : (endForce m).memState = m.memState := by
  unfold endForce; split <;> simp
@[simp] theorem takeBytes_memState (line : Line) (bytes : LineBytes) (o : Origin) (speech : Bool) (m : MemPath) :
    (takeBytes line bytes o speech m).memState = m.memState := by
  unfold takeBytes; dsimp only; split <;> simp
@[simp] theorem stageLineLeave_memState (l : StageLine) (m : MemPath) : (stageLineLeave l m).memState = m.memState := by
  unfold stageLineLeave; split <;> simp

theorem foldl_memState {α : Type} {f : MemPath → α → MemPath} (hf : ∀ m x, (f m x).memState = m.memState) (l : List α)
    (m : MemPath) : (l.foldl f m).memState = m.memState := by
  induction l generalizing m with
  | nil => rfl
  | cons x xs ih => rw [List.foldl_cons, ih, hf]

@[simp] theorem stageLeave_memState (m : MemPath) : (stageLeave m).memState = m.memState :=
  foldl_memState (fun _ _ => stageLineLeave_memState _ _) _ _
@[simp] theorem publishImages_memState (number : Nat) (images : List (Line × LineBytes)) (m : MemPath) :
    (publishImages number images m).memState = m.memState := by
  unfold publishImages
  rw [stageLeave_memState]
  refine foldl_memState (fun m p => ?_) _ _
  split <;> rfl
@[simp] theorem takeInternal_memState (w : AccWrite) (m : MemPath) : (takeInternal w m).memState = m.memState := by
  unfold takeInternal; dsimp only; split <;> simp [updateImages]
@[simp] theorem takeHost_memState (line : Line) (bytes : LineBytes) (m : MemPath) :
    (takeHost line bytes m).memState = m.memState := by
  unfold takeHost; dsimp only; split <;> simp

end Sys2Proof.Machine
end

