-- ==== Sys2Proof/Laws/TameOps.lean ====
section
/-! SUPPORT. The memory path's and the link's shared operations leave the queue of commands, the frame number and the resets
alone and keep every block within its places. -/

namespace Sys2Proof.Machine

variable {b s : State}

theorem Tame.limits (h : Tame b s) : Limits s := h.2.2.2.2
theorem Tame.mem (h : Tame b s) : MemLimits s.mem := h.limits.1
theorem Tame.ctxs (h : Tame b s) : s.texts.ctxs.length ≤ 4 := h.limits.2.2.2
theorem Tame.link (h : Tame b s) : LinkLimits s.link := h.limits.2.1

/-- A state within its limits is tame to itself. -/
theorem Limits.tame (h : Limits s) : Tame s s := ⟨rfl, rfl, rfl, ⟨rfl, rfl, .inl ⟨rfl, rfl⟩⟩, h⟩

/-- Whatever else changes, the state stays tame if memory path, link, events and contexts stay within their limits. -/
theorem tame_mk {p : List Instr} {rn : Bool} {rp : ResetPhase} {td : List WriteReq} {o : Outputs} {f : FrameNo} {bi : Binder}
    {po : Port} {me : MemPath} {li : Link} {co : Conn} {ce : Cells} {mo : Mob} {ca : Calls} {sp : Speech} {te : Texts}
    {sl : Sleep} {ev : Events} (h : Tame b s) (hp : p = s.pending) (hn : rn = s.resetN) (hr : rp = s.resetPhase)
    (hd : td = s.teardown) (hf : f = s.frame)
    (hx : me.memState = s.mem.memState ∧ o.mem = s.out.mem) (hm : MemLimits s.mem → MemLimits me) (hl : LinkLimits s.link → LinkLimits li)
    (he : ev.pending.length ≤ max s.events.pending.length Config.pendingEvents)
    (ht : te.ctxs.length ≤ max s.texts.ctxs.length 4) :
    Tame b ⟨p, rn, rp, td, o, f, bi, po, me, li, co, ce, mo, ca, sp, te, sl, ev⟩ := by
  obtain ⟨h1, h2, h3, h4, h5, h6, h7, h8⟩ := h
  refine ⟨hp.trans h1, hf.trans h2, hn.trans h3, ⟨hr.trans h4.1, hd.trans h4.2.1, ?_⟩, hm h5, hl h6, ?_, ?_⟩
  · unfold PortQuiet at h4 ⊢
    rw [hx.1, hx.2]; exact h4.2.2
  · exact Nat.le_trans he (Nat.max_le.2 ⟨h7, Nat.le_refl _⟩)
  · exact Nat.le_trans ht (Nat.max_le.2 ⟨h8, Nat.le_refl _⟩)

theorem foldl_tame {α : Type} {f : State → α → State} (hf : ∀ s x, Tame b s → Tame b (f s x)) (l : List α)
    (h : Tame b s) : Tame b (l.foldl f s) := by
  induction l generalizing s with
  | nil => exact h
  | cons x xs ih => exact ih (hf s x h)

/-! ## Memory path -/

theorem tickClock_tame (h : Tame b s) : Tame b (tickClock s) := h
theorem closeMoment_tame (h : Tame b s) : Tame b (closeMoment s) := by unfold closeMoment; split <;> exact h
theorem answer_tame {a : Answer} (h : Tame b s) : Tame b (answer a s) := h
theorem linkOut_tame {f : LinkFrame} (h : Tame b s) : Tame b (linkOut f s) := h
theorem sendFrame_tame {f : LinkFrame} (h : Tame b s) : Tame b (sendFrame f s) := by unfold sendFrame; split <;> exact h

theorem presentWrite_tame {w : HostWrite} (h : Tame b s) : Tame b (presentWrite w s) := by
  obtain ⟨h1, h2, h3, h4, ⟨h5, h6, h7, h8, h9⟩, hr⟩ := h
  refine ⟨h1, h2, h3, h4, ⟨h5, h6, ?_, h8, h9⟩, hr⟩
  simpa [internalCount, presentWrite, tickClock, List.countP_append, AccWrite.isHost] using h7

/-- An internal write is placed where there is a place (R21). -/
theorem joinWrite_tame {w : WriteReq} (h : Tame b s) (room : internalCount s.mem < Config.internalWrites) :
    Tame b (joinWrite w s) := by
  obtain ⟨h1, h2, h3, h4, ⟨h5, h6, h7, h8, h9⟩, hr⟩ := h
  refine ⟨h1, h2, h3, h4, ⟨h5, h6, ?_, h8, h9⟩, hr⟩
  simp only [internalCount, joinWrite, tickClock, List.countP_append, List.countP_singleton] at room ⊢
  split <;> omega

theorem waitActs_tame {j : Job} {acts : List Act} (h : Tame b s) : Tame b (waitActs j acts s) := h

/-- A job that need not wait finds a place. -/
theorem room_of_not_mustWait (h : ¬ mustWait s = true) : internalCount s.mem < Config.internalWrites := by
  simp only [mustWait, Bool.or_eq_true, decide_eq_true_eq, not_or] at h
  omega

theorem emitWrite_tame {j : Job} {w : WriteReq} (h : Tame b s) : Tame b (emitWrite j w s) := by
  unfold emitWrite
  split
  · exact h
  · split
    · exact waitActs_tame h
    · rename_i c; exact joinWrite_tame h (room_of_not_mustWait c)

theorem presentHeld_tame (h : Tame b s) : Tame b (presentHeld s) :=
  foldl_tame (fun _ _ h => presentWrite_tame h) _ h

theorem serveRead_keeps (r : ReadEntry) : ∀ q ∈ (serveRead s r).1, q.isHost = r.isHost ∧ q.for_ = r.for_ := by
  intro q hq
  unfold serveRead at hq
  dsimp only at hq
  repeat' split at hq
  all_goals (simp only [Option.mem_def, Option.some.injEq, reduceCtorEq] at hq; try (subst hq; exact ⟨rfl, rfl⟩))

theorem serveReads_tame (h : Tame b s) : Tame b (serveReads s) := by
  obtain ⟨h1, h2, h3, h4, ⟨h5, h6, h7, h8, h9⟩, hr⟩ := h
  refine ⟨h1, h2, h3, h4, ⟨h5, h6, h7, ?_, h9⟩, hr⟩
  refine Nat.le_trans ?_ h8
  show List.countP _ (s.mem.reads.filterMap (fun r => (serveRead s r).1)) ≤ List.countP _ s.mem.reads
  generalize s.mem.reads = l
  induction l with
  | nil => exact Nat.le_refl _
  | cons r rs ih =>
    have k := serveRead_keeps (s := s) r
    simp only [List.filterMap_cons]
    split
    · refine Nat.le_trans ih ?_
      simp only [List.countP_cons]; omega
    · rename_i q hq
      have kq := k q hq
      simp only [List.countP_cons, kq.1, kq.2]
      omega

/-- A read joins: a host read, the speech fetch, or another where there is a place (R28). -/
theorem joinRead_tame {f : ReadFor} {line : Line} (h : Tame b s)
    (room : (∃ t, f = .host t) ∨ f = .speech ∨ internalReadCount s.mem < Config.internalReads) :
    Tame b (joinRead f line s) := by
  unfold joinRead
  refine serveReads_tame (tickClock_tame ?_)
  obtain ⟨h1, h2, h3, h4, ⟨h5, h6, h7, h8, h9⟩, hr⟩ := h
  refine ⟨h1, h2, h3, h4, ⟨h5, h6, h7, ?_, h9⟩, hr⟩
  simp only [internalReadCount, List.countP_append] at room h8 ⊢
  rcases room with ⟨t, rfl⟩ | rfl | r
  · simpa [ReadEntry.isHost] using h8
  · simpa [ReadEntry.isHost] using h8
  · simp only [List.countP_singleton]
    split <;> omega

theorem placeRead_tame {j : Job} {f : ReadFor} {line : Line} (h : Tame b s) : Tame b (placeRead j f line s) := by
  unfold placeRead
  split
  · rename_i c
    simp only [Bool.and_eq_true, decide_eq_true_eq] at c
    exact joinRead_tame h (.inr (.inr c.2))
  · exact h

theorem emitRead_tame {j : Job} {f : ReadFor} {line : Line} (h : Tame b s) : Tame b (emitRead j f line s) := by
  unfold emitRead
  split
  · exact waitActs_tame h
  · exact placeRead_tame h

theorem discardReads_tame {p : ReadFor → Bool} (h : Tame b s) : Tame b (discardReads p s) := by
  obtain ⟨h1, h2, h3, h4, ⟨h5, h6, h7, h8, h9⟩, hr⟩ := h
  refine ⟨h1, h2, h3, h4, ⟨h5, h6, h7, ?_, h9⟩, hr⟩
  refine Nat.le_trans (Nat.le_of_eq ?_) h8
  simp only [internalReadCount, discardReads, List.countP_map]
  congr 1
  funext r
  simp only [Function.comp]
  split <;> rfl

/-- Reads discarded with their errors keep their places (R16, R28). -/
theorem hush_reads (m : MemPath) : internalReadCount { m with reads := m.reads.map ReadEntry.hush } = internalReadCount m := by
  simp only [internalReadCount, List.countP_map]
  rfl

/-! ## Grants: accesses issued, every place kept -/

theorem grantRead_limits {r : ReadEntry} (h : Limits s) : Limits (grantRead r s) := by
  obtain ⟨⟨h5, h6, h7, h8, h9⟩, hr⟩ := h
  refine ⟨⟨h5, h6, h7, ?_, h9⟩, hr⟩
  refine Nat.le_trans (Nat.le_of_eq ?_) h8
  simp only [internalReadCount, grantRead, memOut, List.countP_map]
  congr 1
  funext x
  simp only [Function.comp]
  split
  · rfl
  · rfl

theorem grantDrain_limits {e : QEntry} (h : Limits s) : Limits (grantDrain e s) := by
  obtain ⟨⟨⟨h5, h5'⟩, h6, h7, h8, h9⟩, hr⟩ := h
  refine ⟨⟨⟨?_, ?_⟩, h6, h7, h8, h9⟩, hr⟩
  · simpa [grantDrain, memOut] using h5
  · have same : (s.mem.queue.map (fun x => if x == e then { x with draining := true } else x)).map (·.line)
        = s.mem.queue.map (·.line) := by
      rw [List.map_map]
      apply List.map_congr_left
      intro x _
      simp only [Function.comp]
      split <;> rfl
    show List.Nodup (List.map _ (List.map _ _))
    rw [same]; exact h5'

theorem setCount_limits {n : Nat} (h : Limits s) (hn : n ≤ Config.readGrants) : Limits (setCount n s) := by
  obtain ⟨⟨h5, h6, h7, h8, _⟩, hr⟩ := h
  exact ⟨⟨h5, h6, h7, h8, hn⟩, hr⟩

theorem grantPlain_limits (h : Limits s) : Limits (grantPlain s) := by
  unfold grantPlain
  dsimp only
  split
  · exact h
  · exact setCount_limits (grantDrain_limits h) (Nat.zero_le _)
  · rename_i none _
    refine grantRead_limits (setCount_limits h ?_)
    simp [none]
  · rename_i some _
    split
    · exact setCount_limits (grantDrain_limits h) (Nat.zero_le _)
    · rename_i c
      refine grantRead_limits (setCount_limits h ?_)
      simp only [Bool.or_eq_true, decide_eq_true_eq, not_or] at c
      simp only [some, Option.isSome_some, if_true]
      omega

theorem grant_limits {d : Bool} (h : Limits s) : Limits (grant d s) := by
  unfold grant
  repeat' split
  all_goals first | exact h | exact grantPlain_limits h | exact grantRead_limits h | exact grantDrain_limits h

theorem presentExit_tame (h : Tame b s) : Tame b (presentExit s) := by
  unfold presentExit
  split
  · rename_i c
    obtain ⟨h1, h2, h3, ⟨h4, h5, h6⟩, h7⟩ := h
    refine ⟨h1, h2, h3, ⟨h4, h5, .inr ?_⟩, h7⟩
    rcases h6 with ⟨p, q⟩ | ⟨_, q, _⟩
    · refine ⟨p.symm.trans c, rfl, ?_⟩
      show s.out.mem ++ _ = _
      rw [q]
    · rw [c] at q; exact absurd q (by decide)
  · exact h

/-! ## Signalling queue -/

theorem joinQueue_limits {q : QMsg} {l : Link} (h : LinkLimits l) (room : queueRoom l q.msg = true) :
    LinkLimits (joinQueue q l) := by
  simp only [queueRoom, Bool.and_eq_true, decide_eq_true_eq] at room
  refine ⟨?_, h.2⟩
  simp only [joinQueue, List.length_append, List.length_singleton]
  exact room.1

theorem joinOutside_limits {l : Link} (h : LinkLimits l) : LinkLimits (joinOutside l) := by
  unfold joinOutside
  generalize l.outside = qs
  induction qs generalizing l with
  | nil => exact h
  | cons q qs ih =>
    refine ih ?_
    dsimp only
    split
    · rename_i c; exact joinQueue_limits (l := { l with outside := _ }) h c
    · exact h

theorem handMsg_limits {id : Nat} {m : AirMsg} {l : Link} (h : LinkLimits l) : LinkLimits (handMsg id m l) := by
  unfold handMsg
  dsimp only
  repeat' split
  · rename_i c
    simp only [Bool.and_eq_true] at c
    exact joinQueue_limits h c.1
  · exact h
  · exact h

theorem emitMsg_tame {m : AirMsg} (h : Tame b s) : Tame b (emitMsg m s) := by
  unfold emitMsg
  dsimp only
  split
  · exact h
  · obtain ⟨h1, h2, h3, h4, h5, h6, h7⟩ := h
    exact ⟨h1, h2, h3, h4, h5, handMsg_limits (l := { s.link with nextId := _ }) h6, h7⟩

theorem filter_limits {p q : QMsg → Bool} {l : Link} (h : LinkLimits l) :
    LinkLimits { l with queue := l.queue.filter p, outside := l.outside.filter q } :=
  ⟨Nat.le_trans (List.length_filter_le _ _) h.1, h.2⟩

theorem withdrawMsg_tame {id : Nat} (h : Tame b s) : Tame b (withdrawMsg id s) := by
  obtain ⟨h1, h2, h3, h4, h5, h6, h7⟩ := h
  exact ⟨h1, h2, h3, h4, h5, joinOutside_limits (filter_limits h6), h7⟩

theorem withdrawOpt_tame {o : Option Nat} (h : Tame b s) : Tame b (withdrawOpt o s) := by
  cases o with
  | none => exact h
  | some id => exact withdrawMsg_tame h

theorem setOp_limits {op : RadioOp} {t : Timer} {f : Option LinkFrame} {l : Link} (h : LinkLimits l) :
    LinkLimits (setOp op t f l) := by
  cases op <;> exact h

theorem request_tame {op : RadioOp} {f : LinkFrame} (h : Tame b s) : Tame b (request op f s) := by
  unfold request
  split
  · obtain ⟨h1, h2, h3, h4, h5, h6, h7⟩ := h
    exact ⟨h1, h2, h3, h4, h5, setOp_limits h6, h7⟩
  · exact h

theorem sendNext_tame (h : Tame b s) : Tame b (sendNext s) := by
  unfold sendNext
  split
  · split
    · exact h
    · refine request_tame ?_
      obtain ⟨h1, h2, h3, h4, h5, h6, h7⟩ := h
      exact ⟨h1, h2, h3, h4, h5, ⟨by simpa using h6.1, h6.2⟩, h7⟩
  · exact h

theorem abandonSend_limits {l : Link} (h : LinkLimits l) : LinkLimits (abandonSend l) :=
  ⟨by simpa [abandonSend, endOp, setOp] using h.1, h.2⟩

end Sys2Proof.Machine
end

