-- ==== Sys2Proof/Laws/TameEvents.lean ====
section
/-! SUPPORT. The event writer and the sleep levels: each operation keeps the limits and leaves the queue, the frame number and the resets alone. -/

set_option linter.unusedTactic false
set_option linter.unreachableTactic false

namespace Sys2Proof.Machine

variable {b s : State}

theorem addDirty_tame {d : DirtyLine} (h : Tame b s) : Tame b (addDirty d s) := by
  unfold addDirty
  repeat' first
    | with_reducible assumption | split | with_reducible refine tame_mk ?_ rfl rfl rfl rfl rfl ⟨rfl, rfl⟩ ?_ ?_ ?_ ?_ | exact Nat.le_max_left _ _ | exact fun h => h

theorem planLineWrite_tame {j : Job} {i : Nat} {d : DirtyLine} {bytes : LineBytes} (h : Tame b s) : Tame b (planLineWrite j i d bytes s) := by
  unfold planLineWrite
  repeat' first
    | with_reducible assumption | split | with_reducible apply emitWrite_tame | with_reducible apply addDirty_tame | with_reducible refine tame_mk ?_ rfl rfl rfl rfl rfl ⟨rfl, rfl⟩ ?_ ?_ ?_ ?_ | exact Nat.le_max_left _ _ | exact fun h => h

theorem notePlan_tame {j : Job} {old : State} (h : Tame b s) : Tame b (notePlan j old s) := by
  unfold notePlan
  split
  · exact planLineWrite_tame (planLineWrite_tame h)
  · exact h

theorem mirror_tame {n : Fin 13} (h : Tame b s) : Tame b (mirror n s) := by
  unfold mirror
  repeat' first
    | with_reducible assumption | split | with_reducible apply emitWrite_tame | with_reducible apply addDirty_tame | with_reducible refine tame_mk ?_ rfl rfl rfl rfl rfl ⟨rfl, rfl⟩ ?_ ?_ ?_ ?_ | exact Nat.le_max_left _ _ | exact fun h => h

theorem rouse_tame (h : Tame b s) : Tame b (rouse s) := by
  unfold rouse
  split
  · exact presentExit_tame (notePlan_tame h)
  · exact h

theorem discardFull_tame (h : Tame b s) : Tame b (discardFull s) := by
  unfold discardFull
  split
  · exact tame_mk h rfl rfl rfl rfl rfl ⟨rfl, rfl⟩ id id (Nat.zero_le _) (Nat.le_max_left _ _)
  · exact h

theorem placeOne_tame (h : Tame b s) (room : internalCount s.mem < Config.internalWrites) : Tame b (placeOne s) := by
  unfold placeOne
  split
  · exact joinWrite_tame h room
  · split
    · exact h
    · rename_i e rest eq
      refine joinWrite_tame (s := { s with events := _ }) ?_ room
      refine tame_mk h rfl rfl rfl rfl rfl ⟨rfl, rfl⟩ id id ?_ (Nat.le_max_left _ _)
      simp only [eq, List.length_cons]
      omega

theorem discardFull_mem (s : State) : (discardFull s).mem = s.mem := by
  unfold discardFull
  split <;> rfl

theorem pumpEvents_tame {n : Nat} (h : Tame b s) : Tame b (pumpEvents n s) := by
  induction n generalizing s with
  | zero => exact h
  | succ n ih =>
    unfold pumpEvents
    split
    · split
      · split
        · exact h
        · exact waitActs_tame h
      · rename_i c
        have d : Tame b (discardFull s) := discardFull_tame h
        have room : internalCount (discardFull s).mem < Config.internalWrites := by
          rw [discardFull_mem]; exact room_of_not_mustWait c
        generalize discardFull s = t at d room
        dsimp only
        split
        · exact ih (placeOne_tame d room)
        · exact d
    · exact h

theorem placeEvents_tame (h : Tame b s) : Tame b (placeEvents s) := pumpEvents_tame h

theorem forceEvents_tame (h : Tame b s) (room : internalCount s.mem < Config.internalWrites) : Tame b (forceEvents s) := by
  have d : Tame b (discardFull s) := discardFull_tame h
  have left : internalCount (discardFull s).mem < Config.internalWrites := by rw [discardFull_mem]; exact room
  unfold forceEvents
  generalize discardFull s = t at d left
  split
  · dsimp only
    split
    · exact placeEvents_tame (placeOne_tame d left)
    · exact d
  · exact h

theorem raiseNow_tame {e : Event} (h : Tame b s) : Tame b (raiseNow e s) := by
  unfold raiseNow
  split
  · exact h
  · split
    · exact h
    · rename_i c
      have k : Tame b { s with events := { s.events with
          pending := s.events.pending ++ [{ e with loss := s.events.lossPending }], lossPending := false } } := by
        refine tame_mk h rfl rfl rfl rfl rfl ⟨rfl, rfl⟩ id id ?_ (Nat.le_max_left _ _)
        simp only [List.length_append, List.length_singleton]
        omega
      generalize { s with events := _ } = t at k
      dsimp only
      refine placeEvents_tame ?_
      split
      · exact rouse_tame k
      · exact k

theorem raise_tame {j : Job} {e : Event} (h : Tame b s) : Tame b (raise j e s) := by
  unfold raise
  repeat' first
    | with_reducible assumption | split | with_reducible apply waitActs_tame | with_reducible apply raiseNow_tame | with_reducible refine tame_mk ?_ rfl rfl rfl rfl rfl ⟨rfl, rfl⟩ ?_ ?_ ?_ ?_ | exact Nat.le_max_left _ _ | exact fun h => h

theorem ignoreConfig_tame {k : Kind} {record : Half} {offset : Nat} (h : Tame b s) : Tame b (ignoreConfig k record offset s) := by
  unfold ignoreConfig
  repeat' first
    | with_reducible assumption | split | with_reducible apply raiseNow_tame | with_reducible refine tame_mk ?_ rfl rfl rfl rfl rfl ⟨rfl, rfl⟩ ?_ ?_ ?_ ?_ | exact Nat.le_max_left _ _ | exact fun h => h

theorem placeDirty_tame (h : Tame b s) (room : internalCount s.mem < Config.internalWrites) : Tame b (placeDirty s) := by
  unfold placeDirty
  split
  · exact h
  · exact joinWrite_tame h room

theorem setWriteBack_tame {w : WriteBack} (h : Tame b s) : Tame b (setWriteBack w s) := by
  unfold setWriteBack
  repeat' first
    | with_reducible assumption | split | with_reducible refine tame_mk ?_ rfl rfl rfl rfl rfl ⟨rfl, rfl⟩ ?_ ?_ ?_ ?_ | exact Nat.le_max_left _ _ | exact fun h => h

theorem liftSleepHold_tame (h : Tame b s) : Tame b (liftSleepHold s) := serveReads_tame (presentHeld_tame h)

theorem pumpWriteBack_tame {n : Nat} (h : Tame b s) : Tame b (pumpWriteBack n s) := by
  induction n generalizing s with
  | zero => exact h
  | succ n ih =>
    unfold pumpWriteBack
    split
    · exact h
    · split
      · exact ih h
      · split
        · split <;> exact h
        · rename_i c; exact ih (placeDirty_tame h (room_of_not_mustWait c))
    · have p := placeEvents_tame h
      generalize placeEvents s = t at p
      dsimp only
      split
      · split
        · exact ih (raiseNow_tame (setWriteBack_tame p))
        · exact p
      · exact p
    · have p := placeEvents_tame h
      generalize placeEvents s = t at p
      dsimp only
      split
      · exact liftSleepHold_tame p
      · exact p

theorem writeBack_tame (h : Tame b s) : Tame b (writeBack s) := pumpWriteBack_tame h

theorem forceWriteBack_tame (h : Tame b s) (room : internalCount s.mem < Config.internalWrites) :
    Tame b (forceWriteBack s) := by
  unfold forceWriteBack
  split
  · exact writeBack_tame (placeDirty_tame h room)
  · exact writeBack_tame h

theorem beginWriteBack_tame {resume : Bool} (h : Tame b s) : Tame b (beginWriteBack resume s) := by
  unfold beginWriteBack
  repeat' first
    | with_reducible assumption | split | with_reducible apply writeBack_tame | with_reducible apply addDirty_tame | with_reducible apply setWriteBack_tame | with_reducible refine tame_mk ?_ rfl rfl rfl rfl rfl ⟨rfl, rfl⟩ ?_ ?_ ?_ ?_ | exact Nat.le_max_left _ _ | exact fun h => h

theorem checkWake_tame (h : Tame b s) : Tame b (checkWake s) := by
  unfold checkWake
  repeat' first
    | with_reducible assumption | split | with_reducible refine tame_mk ?_ rfl rfl rfl rfl rfl ⟨rfl, rfl⟩ ?_ ?_ ?_ ?_ | exact Nat.le_max_left _ _ | exact fun h => h

theorem wakeMark_tame (h : Tame b s) : Tame b (wakeMark s) := by
  unfold wakeMark
  repeat' first
    | with_reducible assumption | split | with_reducible apply waitActs_tame | with_reducible refine tame_mk ?_ rfl rfl rfl rfl rfl ⟨rfl, rfl⟩ ?_ ?_ ?_ ?_ | exact Nat.le_max_left _ _ | exact fun h => h

theorem abandonSleep_tame {cause : Cause} {primary : Cause} {line : Nat} (h : Tame b s) : Tame b (abandonSleep cause primary line s) := by
  unfold abandonSleep
  try lift_lets
  repeat' first
    | with_reducible assumption | split
    | (intro x; first
      | (have hx : Tame b x := by
          subst x
          repeat' first
            | with_reducible assumption | split | with_reducible apply notePlan_tame | with_reducible apply wakeMark_tame | with_reducible apply raise_tame | refine tame_mk h rfl rfl rfl rfl rfl ⟨endForce_memState _, rfl⟩ endForce_limits id (Nat.le_max_left _ _) (Nat.le_max_left _ _) | with_reducible refine tame_mk ?_ rfl rfl rfl rfl rfl ⟨rfl, rfl⟩ ?_ ?_ ?_ ?_ | exact Nat.le_max_left _ _ | exact fun h => h
         clear_value x)
      | subst x | clear_value x | skip)
    | with_reducible apply notePlan_tame | with_reducible apply wakeMark_tame | with_reducible apply raise_tame | refine tame_mk h rfl rfl rfl rfl rfl ⟨endForce_memState _, rfl⟩ endForce_limits id (Nat.le_max_left _ _) (Nat.le_max_left _ _) | with_reducible refine tame_mk ?_ rfl rfl rfl rfl rfl ⟨rfl, rfl⟩ ?_ ?_ ?_ ?_ | exact Nat.le_max_left _ _ | exact fun h => h

theorem notePlanBack_tame {old : State} (h : Tame b s) : Tame b (notePlanBack old s) := by
  unfold notePlanBack
  split
  · exact addDirty_tame h
  · exact notePlan_tame h

theorem resume_tame {primary : Cause} {line : Nat} (h : Tame b s) : Tame b (resume primary line s) := by
  unfold resume
  dsimp only
  split
  · exact beginWriteBack_tame (notePlanBack_tame h)
  · exact presentExit_tame (notePlanBack_tame h)

theorem primaryCause_tame {c : Cause} {line : Nat} (h : Tame b s) : Tame b (primaryCause c line s) := by
  unfold primaryCause
  repeat' first
    | with_reducible assumption | split | with_reducible apply notePlan_tame | with_reducible apply abandonSleep_tame | with_reducible apply resume_tame | with_reducible refine tame_mk ?_ rfl rfl rfl rfl rfl ⟨rfl, rfl⟩ ?_ ?_ ?_ ?_ | exact Nat.le_max_left _ _ | exact fun h => h

theorem raisePrimary_tame {j : Job} {e : Event} {c : Cause} (h : Tame b s) : Tame b (raisePrimary j e c s) := by
  unfold raisePrimary
  repeat' first
    | with_reducible assumption | split | with_reducible apply waitActs_tame | with_reducible apply raise_tame | with_reducible apply primaryCause_tame | with_reducible apply raiseNow_tame | with_reducible refine tame_mk ?_ rfl rfl rfl rfl rfl ⟨rfl, rfl⟩ ?_ ?_ ?_ ?_ | exact Nat.le_max_left _ _ | exact fun h => h

theorem processorActivity_tame (h : Tame b s) : Tame b (processorActivity s) := by
  unfold processorActivity
  repeat' first
    | with_reducible assumption | split | with_reducible apply abandonSleep_tame | with_reducible apply primaryCause_tame | with_reducible refine tame_mk ?_ rfl rfl rfl rfl rfl ⟨rfl, rfl⟩ ?_ ?_ ?_ ?_ | exact Nat.le_max_left _ _ | exact fun h => h

end Sys2Proof.Machine
end

