-- ==== Sys2Proof/Laws/TameCells.lean ====
section
/-! SUPPORT. The cell table and the call controller: each operation keeps the limits and leaves the queue, the frame number and the resets alone. -/

set_option linter.unusedTactic false
set_option linter.unreachableTactic false

namespace Sys2Proof.Machine

variable {b s : State}

theorem setSlot_tame {n : Fin 13} {f : Slot → Slot} (h : Tame b s) : Tame b (setSlot n f s) := by
  unfold setSlot
  repeat' first
    | with_reducible assumption | split | with_reducible refine tame_mk ?_ rfl rfl rfl rfl rfl ⟨rfl, rfl⟩ ?_ ?_ ?_ ?_ | exact Nat.le_max_left _ _ | exact fun h => h

theorem changeSlot_tame {n : Fin 13} {f : Slot → Slot} (h : Tame b s) : Tame b (changeSlot n f s) := by
  unfold changeSlot
  repeat' first
    | with_reducible assumption | split | with_reducible apply mirror_tame | with_reducible apply setSlot_tame | with_reducible refine tame_mk ?_ rfl rfl rfl rfl rfl ⟨rfl, rfl⟩ ?_ ?_ ?_ ?_ | exact Nat.le_max_left _ _ | exact fun h => h

theorem abortMeasure_tame (h : Tame b s) : Tame b (abortMeasure s) := by
  unfold abortMeasure
  repeat' first
    | with_reducible assumption | split | with_reducible refine tame_mk ?_ rfl rfl rfl rfl rfl ⟨rfl, rfl⟩ ?_ ?_ ?_ ?_ | exact Nat.le_max_left _ _ | exact fun h => h

theorem dropRound_tame (h : Tame b s) : Tame b (dropRound s) := by
  unfold dropRound
  repeat' first
    | with_reducible assumption | split | with_reducible refine tame_mk ?_ rfl rfl rfl rfl rfl ⟨rfl, rfl⟩ ?_ ?_ ?_ ?_ | exact Nat.le_max_left _ _ | exact fun h => h

theorem abortRound_tame (h : Tame b s) : Tame b (abortRound s) := by
  unfold abortRound
  repeat' first
    | with_reducible assumption | split | with_reducible apply dropRound_tame | with_reducible apply abortMeasure_tame | with_reducible refine tame_mk ?_ rfl rfl rfl rfl rfl ⟨rfl, rfl⟩ ?_ ?_ ?_ ?_ | exact Nat.le_max_left _ _ | exact fun h => h

theorem roundMoves_tame (h : Tame b s) : Tame b (roundMoves s) := by
  unfold roundMoves
  try lift_lets
  repeat' first
    | with_reducible assumption | split
    | (intro x; first
      | (have hx : Tame b x := by
          subst x
          repeat' first
            | with_reducible assumption | split | with_reducible refine tame_mk ?_ rfl rfl rfl rfl rfl ⟨rfl, rfl⟩ ?_ ?_ ?_ ?_ | exact Nat.le_max_left _ _ | exact fun h => h
         clear_value x)
      | subst x | clear_value x | skip)
    | with_reducible refine tame_mk ?_ rfl rfl rfl rfl rfl ⟨rfl, rfl⟩ ?_ ?_ ?_ ?_ | exact Nat.le_max_left _ _ | exact fun h => h

theorem sendMeasure_tame (h : Tame b s) : Tame b (sendMeasure s) := by
  unfold sendMeasure
  repeat' first
    | with_reducible assumption | split | with_reducible apply request_tame | with_reducible refine tame_mk ?_ rfl rfl rfl rfl rfl ⟨rfl, rfl⟩ ?_ ?_ ?_ ?_ | exact Nat.le_max_left _ _ | exact fun h => h

theorem enterSample_tame (h : Tame b s) : Tame b (enterSample s) := by
  unfold enterSample
  repeat' first
    | with_reducible assumption | split | with_reducible apply sendMeasure_tame | with_reducible refine tame_mk ?_ rfl rfl rfl rfl rfl ⟨rfl, rfl⟩ ?_ ?_ ?_ ?_ | exact Nat.le_max_left _ _ | exact fun h => h

theorem startMeasure_tame {n : Fin 13} {first : Bool} (h : Tame b s) : Tame b (startMeasure n first s) := by
  unfold startMeasure
  try lift_lets
  repeat' first
    | with_reducible assumption | split
    | (intro x; first
      | (have hx : Tame b x := by
          subst x
          repeat' first
            | with_reducible assumption | split | with_reducible apply enterSample_tame | with_reducible apply sendFrame_tame | with_reducible refine tame_mk ?_ rfl rfl rfl rfl rfl ⟨rfl, rfl⟩ ?_ ?_ ?_ ?_ | exact Nat.le_max_left _ _ | exact fun h => h
         clear_value x)
      | subst x | clear_value x | skip)
    | with_reducible apply enterSample_tame | with_reducible apply sendFrame_tame | with_reducible refine tame_mk ?_ rfl rfl rfl rfl rfl ⟨rfl, rfl⟩ ?_ ?_ ?_ ?_ | exact Nat.le_max_left _ _ | exact fun h => h

theorem wantRound_tame (h : Tame b s) : Tame b (wantRound s) := by
  unfold wantRound
  repeat' first
    | with_reducible assumption | split | with_reducible refine tame_mk ?_ rfl rfl rfl rfl rfl ⟨rfl, rfl⟩ ?_ ?_ ?_ ?_ | exact Nat.le_max_left _ _ | exact fun h => h

theorem restartRound_tame (h : Tame b s) : Tame b (restartRound s) := by
  unfold restartRound
  repeat' first
    | with_reducible assumption | split | with_reducible refine tame_mk ?_ rfl rfl rfl rfl rfl ⟨rfl, rfl⟩ ?_ ?_ ?_ ?_ | exact Nat.le_max_left _ _ | exact fun h => h

theorem reloadNext_tame (h : Tame b s) : Tame b (reloadNext s) := by
  unfold reloadNext
  repeat' first
    | with_reducible assumption | split | with_reducible apply emitRead_tame | with_reducible apply rouse_tame | with_reducible refine tame_mk ?_ rfl rfl rfl rfl rfl ⟨rfl, rfl⟩ ?_ ?_ ?_ ?_ | exact Nat.le_max_left _ _ | exact fun h => h

theorem dropReload_tame {n : Fin 13} (h : Tame b s) : Tame b (dropReload n s) := by
  unfold dropReload
  try lift_lets
  repeat' first
    | with_reducible assumption | split
    | (intro x; first
      | (have hx : Tame b x := by
          subst x
          repeat' first
            | with_reducible assumption | split | with_reducible apply discardReads_tame | with_reducible refine tame_mk ?_ rfl rfl rfl rfl rfl ⟨rfl, rfl⟩ ?_ ?_ ?_ ?_ | exact Nat.le_max_left _ _ | exact fun h => h
         clear_value x)
      | subst x | clear_value x | skip)
    | with_reducible apply discardReads_tame | with_reducible refine tame_mk ?_ rfl rfl rfl rfl rfl ⟨rfl, rfl⟩ ?_ ?_ ?_ ?_ | exact Nat.le_max_left _ _ | exact fun h => h

theorem leaveReload_tame {n : Fin 13} (h : Tame b s) : Tame b (leaveReload n s) := by
  unfold leaveReload
  try lift_lets
  repeat' first
    | with_reducible assumption | split
    | (intro x; first
      | (have hx : Tame b x := by
          subst x
          repeat' first
            | with_reducible assumption | split | with_reducible apply reloadNext_tame | with_reducible apply dropReload_tame | with_reducible refine tame_mk ?_ rfl rfl rfl rfl rfl ⟨rfl, rfl⟩ ?_ ?_ ?_ ?_ | exact Nat.le_max_left _ _ | exact fun h => h
         clear_value x)
      | subst x | clear_value x | skip)
    | with_reducible apply reloadNext_tame | with_reducible apply dropReload_tame | with_reducible refine tame_mk ?_ rfl rfl rfl rfl rfl ⟨rfl, rfl⟩ ?_ ?_ ?_ ?_ | exact Nat.le_max_left _ _ | exact fun h => h

theorem pauseReload_tame (h : Tame b s) : Tame b (pauseReload s) := by
  unfold pauseReload
  repeat' first
    | with_reducible assumption | split | with_reducible apply dropReload_tame | with_reducible refine tame_mk ?_ rfl rfl rfl rfl rfl ⟨rfl, rfl⟩ ?_ ?_ ?_ ?_ | exact Nat.le_max_left _ _ | exact fun h => h

theorem processReload_tame (h : Tame b s) : Tame b (processReload s) := by
  unfold processReload
  try lift_lets
  repeat' first
    | with_reducible assumption | split
    | (intro x; first
      | (have hx : Tame b x := by
          subst x
          repeat' first
            | with_reducible assumption | split | with_reducible apply reloadNext_tame | with_reducible apply ignoreConfig_tame | refine foldl_tame (fun s x h => ?_) _ ?_ | with_reducible refine tame_mk ?_ rfl rfl rfl rfl rfl ⟨rfl, rfl⟩ ?_ ?_ ?_ ?_ | exact Nat.le_max_left _ _ | exact fun h => h
         clear_value x)
      | subst x | clear_value x | skip)
    | with_reducible apply reloadNext_tame | with_reducible apply ignoreConfig_tame | refine foldl_tame (fun s x h => ?_) _ ?_ | with_reducible refine tame_mk ?_ rfl rfl rfl rfl rfl ⟨rfl, rfl⟩ ?_ ?_ ?_ ?_ | exact Nat.le_max_left _ _ | exact fun h => h

theorem setMobSlot_tame {n : Fin 13} {f : MobSlot → MobSlot} (h : Tame b s) : Tame b (setMobSlot n f s) := by
  unfold setMobSlot
  repeat' first
    | with_reducible assumption | split | with_reducible refine tame_mk ?_ rfl rfl rfl rfl rfl ⟨rfl, rfl⟩ ?_ ?_ ?_ ?_ | exact Nat.le_max_left _ _ | exact fun h => h

theorem beginCandidate_tame {n : Fin 13} (h : Tame b s) : Tame b (beginCandidate n s) := by
  unfold beginCandidate
  repeat' first
    | with_reducible assumption | split | with_reducible apply setSlot_tame | with_reducible apply setMobSlot_tame | with_reducible refine tame_mk ?_ rfl rfl rfl rfl rfl ⟨rfl, rfl⟩ ?_ ?_ ?_ ?_ | exact Nat.le_max_left _ _ | exact fun h => h

theorem endCandidate_tame {n : Fin 13} (h : Tame b s) : Tame b (endCandidate n s) := by
  unfold endCandidate
  repeat' first
    | with_reducible assumption | split | with_reducible apply setSlot_tame | with_reducible apply setMobSlot_tame | with_reducible refine tame_mk ?_ rfl rfl rfl rfl rfl ⟨rfl, rfl⟩ ?_ ?_ ?_ ?_ | exact Nat.le_max_left _ _ | exact fun h => h

theorem evaluateSlot_tame {n : Fin 13} (h : Tame b s) : Tame b (evaluateSlot s n) := by
  unfold evaluateSlot
  split
  · exact beginCandidate_tame h
  · exact endCandidate_tame h
  · exact h

theorem sortCandidates_tame (h : Tame b s) : Tame b (sortCandidates s) :=
  foldl_tame (fun _ _ h => evaluateSlot_tame h) _ h

theorem endCandidates_tame (h : Tame b s) : Tame b (endCandidates s) := by
  unfold endCandidates
  repeat' first
    | with_reducible assumption | split | with_reducible apply endCandidate_tame | refine foldl_tame (fun s x h => ?_) _ ?_ | with_reducible refine tame_mk ?_ rfl rfl rfl rfl rfl ⟨rfl, rfl⟩ ?_ ?_ ?_ ?_ | exact Nat.le_max_left _ _ | exact fun h => h

theorem mirrorSlots_tame {p : Fin 13 → Bool} (h : Tame b s) : Tame b (mirrorSlots p s) := by
  unfold mirrorSlots
  repeat' first
    | with_reducible assumption | split | with_reducible apply mirror_tame | refine foldl_tame (fun s x h => ?_) _ ?_ | with_reducible refine tame_mk ?_ rfl rfl rfl rfl rfl ⟨rfl, rfl⟩ ?_ ?_ ?_ ?_ | exact Nat.le_max_left _ _ | exact fun h => h

theorem evaluateCandidates_tame (h : Tame b s) : Tame b (evaluateCandidates s) := mirrorSlots_tame (sortCandidates_tame h)

theorem clearCandidates_tame (h : Tame b s) : Tame b (clearCandidates s) := mirrorSlots_tame (endCandidates_tame h)

theorem clearTarget_tame {n : Fin 13} (h : Tame b s) : Tame b (clearTarget n s) := by
  unfold clearTarget
  repeat' first
    | with_reducible assumption | split | with_reducible apply setSlot_tame | with_reducible apply setMobSlot_tame | with_reducible refine tame_mk ?_ rfl rfl rfl rfl rfl ⟨rfl, rfl⟩ ?_ ?_ ?_ ?_ | exact Nat.le_max_left _ _ | exact fun h => h

theorem considerReport_tame (h : Tame b s) : Tame b (considerReport s) := by
  unfold considerReport
  try lift_lets
  repeat' first
    | with_reducible assumption | split
    | (intro x; first
      | (have hx : Tame b x := by
          subst x
          repeat' first
            | with_reducible assumption | split | with_reducible apply emitMsg_tame | with_reducible refine tame_mk ?_ rfl rfl rfl rfl rfl ⟨rfl, rfl⟩ ?_ ?_ ?_ ?_ | exact Nat.le_max_left _ _ | exact fun h => h
         clear_value x)
      | subst x | clear_value x | skip)
    | with_reducible apply emitMsg_tame | with_reducible refine tame_mk ?_ rfl rfl rfl rfl rfl ⟨rfl, rfl⟩ ?_ ?_ ?_ ?_ | exact Nat.le_max_left _ _ | exact fun h => h

theorem dropOrder_tame (h : Tame b s) : Tame b (dropOrder s) := by
  unfold dropOrder
  repeat' first
    | with_reducible assumption | split | with_reducible refine tame_mk ?_ rfl rfl rfl rfl rfl ⟨rfl, rfl⟩ ?_ ?_ ?_ ?_ | exact Nat.le_max_left _ _ | exact fun h => h

theorem makePub_tame {kind : PubKind} {images : List Image} (h : Tame b s) : Tame b (makePub kind images s).1 := by
  unfold makePub
  dsimp only
  split
  · rename_i c
    simp only [Bool.and_eq_true] at c
    refine serveReads_tame ?_
    exact tame_mk h rfl rfl rfl rfl rfl ⟨publishImages_memState _ _ _, rfl⟩ (fun k => publishImages_limits (m := { s.mem with nextPub := _ }) _ _ k c.2) id
      (Nat.le_max_left _ _) (Nat.le_max_left _ _)
  · exact h

theorem takeServing_tame {target : Fin 13} (h : Tame b s) : Tame b (takeServing target s) := by
  unfold takeServing
  repeat' first
    | with_reducible assumption | split | with_reducible apply clearTarget_tame | with_reducible refine tame_mk ?_ rfl rfl rfl rfl rfl ⟨rfl, rfl⟩ ?_ ?_ ?_ ?_ | exact Nat.le_max_left _ _ | exact fun h => h

theorem unlivePubs_tame {p : PubKind → Bool} (h : Tame b s) : Tame b (unlivePubs p s) := by
  unfold unlivePubs
  repeat' first
    | with_reducible assumption | split | with_reducible refine tame_mk ?_ rfl rfl rfl rfl rfl ⟨rfl, rfl⟩ ?_ ?_ ?_ ?_ | exact Nat.le_max_left _ _ | exact fun h => h

theorem dirtyServing_tame {target : Fin 13} {old : Option (Fin 13)} {plan : Bool} (h : Tame b s) : Tame b (dirtyServing target old plan s) := by
  unfold dirtyServing
  try lift_lets
  repeat' first
    | with_reducible assumption | split
    | (intro x; first
      | (have hx : Tame b x := by
          subst x
          repeat' first
            | with_reducible assumption | split | with_reducible apply addDirty_tame | refine foldl_tame (fun s x h => ?_) _ ?_ | with_reducible refine tame_mk ?_ rfl rfl rfl rfl rfl ⟨rfl, rfl⟩ ?_ ?_ ?_ ?_ | exact Nat.le_max_left _ _ | exact fun h => h
         clear_value x)
      | subst x | clear_value x | skip)
    | with_reducible apply addDirty_tame | refine foldl_tame (fun s x h => ?_) _ ?_ | with_reducible refine tame_mk ?_ rfl rfl rfl rfl rfl ⟨rfl, rfl⟩ ?_ ?_ ?_ ?_ | exact Nat.le_max_left _ _ | exact fun h => h

theorem activity_tame (h : Tame b s) : Tame b (activity s) := by
  unfold activity
  repeat' first
    | with_reducible assumption | split | with_reducible refine tame_mk ?_ rfl rfl rfl rfl rfl ⟨rfl, rfl⟩ ?_ ?_ ?_ ?_ | exact Nat.le_max_left _ _ | exact fun h => h

theorem writeHeader_tame {up down : Bool} (h : Tame b s) : Tame b (writeHeader up down s) := by
  unfold writeHeader
  split
  · split
    · exact h
    · exact waitActs_tame h
  · rename_i c
    exact joinWrite_tame h (room_of_not_mustWait c)

theorem advanceUp_tame (h : Tame b s) : Tame b (advanceUp s) := by
  unfold advanceUp
  repeat' first
    | with_reducible assumption | split | with_reducible apply writeHeader_tame | with_reducible refine tame_mk ?_ rfl rfl rfl rfl rfl ⟨rfl, rfl⟩ ?_ ?_ ?_ ?_ | exact Nat.le_max_left _ _ | exact fun h => h

theorem placeDown_tame {frame : List Byte} {up : Bool} (h : Tame b s) (room : internalCount s.mem < Config.internalWrites) :
    Tame b (placeDown frame up s) := by
  unfold placeDown
  have t := joinWrite_tame (w := downSlotReq s frame) h room
  generalize joinWrite _ s = t' at t
  exact writeHeader_tame t

theorem dropHeld_tame (h : Tame b s) : Tame b (dropHeld s) :=
  tame_mk h rfl rfl rfl rfl rfl ⟨rfl, rfl⟩ id id (Nat.le_max_left _ _) (Nat.le_max_left _ _)

theorem sendSpeech_tame {frame : List Byte} (h : Tame b s) : Tame b (sendSpeech frame s) := by
  unfold sendSpeech
  repeat' first
    | with_reducible assumption | split | with_reducible apply activity_tame | with_reducible apply sendFrame_tame | with_reducible refine tame_mk ?_ rfl rfl rfl rfl rfl ⟨rfl, rfl⟩ ?_ ?_ ?_ ?_ | exact Nat.le_max_left _ _ | exact fun h => h

theorem speechStart_tame {r : Fin 4} (h : Tame b s) : Tame b (speechStart r s) := by
  unfold speechStart
  try lift_lets
  repeat' first
    | with_reducible assumption | split
    | (intro x; first
      | (have hx : Tame b x := by
          subst x
          repeat' first
            | with_reducible assumption | split | with_reducible apply writeHeader_tame | with_reducible refine tame_mk ?_ rfl rfl rfl rfl rfl ⟨rfl, rfl⟩ ?_ ?_ ?_ ?_ | exact Nat.le_max_left _ _ | exact fun h => h
         clear_value x)
      | subst x | clear_value x | skip)
    | with_reducible apply writeHeader_tame | with_reducible refine tame_mk ?_ rfl rfl rfl rfl rfl ⟨rfl, rfl⟩ ?_ ?_ ?_ ?_ | exact Nat.le_max_left _ _ | exact fun h => h

theorem speechStop_tame (h : Tame b s) : Tame b (speechStop s) := by
  unfold speechStop
  try lift_lets
  repeat' first
    | with_reducible assumption | split
    | (intro x; first
      | (have hx : Tame b x := by
          subst x
          repeat' first
            | with_reducible assumption | split | with_reducible apply dropHeld_tame | with_reducible refine tame_mk ?_ rfl rfl rfl rfl rfl ⟨rfl, rfl⟩ ?_ ?_ ?_ ?_ | exact Nat.le_max_left _ _ | exact fun h => h
         clear_value x)
      | subst x | clear_value x | skip)
    | with_reducible apply dropHeld_tame | with_reducible refine tame_mk ?_ rfl rfl rfl rfl rfl ⟨rfl, rfl⟩ ?_ ?_ ?_ ?_ | exact Nat.le_max_left _ _ | exact fun h => h

theorem setRec_tame {r : Fin 4} {f : CallRec → CallRec} (h : Tame b s) : Tame b (setRec r f s) := by
  unfold setRec
  try lift_lets
  repeat' first
    | with_reducible assumption | split
    | (intro x; first
      | (have hx : Tame b x := by
          subst x
          repeat' first
            | with_reducible assumption | split | with_reducible apply emitWrite_tame | with_reducible refine tame_mk ?_ rfl rfl rfl rfl rfl ⟨rfl, rfl⟩ ?_ ?_ ?_ ?_ | exact Nat.le_max_left _ _ | exact fun h => h
         clear_value x)
      | subst x | clear_value x | skip)
    | with_reducible apply emitWrite_tame | with_reducible refine tame_mk ?_ rfl rfl rfl rfl rfl ⟨rfl, rfl⟩ ?_ ?_ ?_ ?_ | exact Nat.le_max_left _ _ | exact fun h => h

theorem callEvent_tame {r : Fin 4} {cause : Option Cause} (h : Tame b s) : Tame b (callEvent r cause s) := by
  unfold callEvent
  repeat' first
    | with_reducible assumption | split | with_reducible apply raise_tame | with_reducible refine tame_mk ?_ rfl rfl rfl rfl rfl ⟨rfl, rfl⟩ ?_ ?_ ?_ ?_ | exact Nat.le_max_left _ _ | exact fun h => h

theorem changeState_tame {r : Fin 4} {f : CallRec → CallRec} (h : Tame b s) : Tame b (changeState r f s) := by
  unfold changeState
  try lift_lets
  repeat' first
    | with_reducible assumption | split
    | (intro x; first
      | (have hx : Tame b x := by
          subst x
          repeat' first
            | with_reducible assumption | split | with_reducible apply setRec_tame | with_reducible apply callEvent_tame | with_reducible apply speechStart_tame | with_reducible apply speechStop_tame | with_reducible refine tame_mk ?_ rfl rfl rfl rfl rfl ⟨rfl, rfl⟩ ?_ ?_ ?_ ?_ | exact Nat.le_max_left _ _ | exact fun h => h
         clear_value x)
      | subst x | clear_value x | skip)
    | with_reducible apply setRec_tame | with_reducible apply callEvent_tame | with_reducible apply speechStart_tame | with_reducible apply speechStop_tame | with_reducible refine tame_mk ?_ rfl rfl rfl rfl rfl ⟨rfl, rfl⟩ ?_ ?_ ?_ ?_ | exact Nat.le_max_left _ _ | exact fun h => h

theorem countGap_tame (h : Tame b s) : Tame b (countGap s) := by
  unfold countGap
  repeat' first
    | with_reducible assumption | split | with_reducible apply setRec_tame | with_reducible refine tame_mk ?_ rfl rfl rfl rfl rfl ⟨rfl, rfl⟩ ?_ ?_ ?_ ?_ | exact Nat.le_max_left _ _ | exact fun h => h

theorem speechGap_tame (h : Tame b s) : Tame b (speechGap s) := by
  unfold speechGap
  repeat' first
    | with_reducible assumption | split | with_reducible apply countGap_tame | with_reducible apply advanceUp_tame | with_reducible refine tame_mk ?_ rfl rfl rfl rfl rfl ⟨rfl, rfl⟩ ?_ ?_ ?_ ?_ | exact Nat.le_max_left _ _ | exact fun h => h

theorem withdrawCall_tame {ref : Byte} (h : Tame b s) : Tame b (withdrawCall ref s) := by
  unfold withdrawCall
  exact tame_mk h rfl rfl rfl rfl rfl ⟨rfl, rfl⟩ id (fun k => joinOutside_limits (filter_limits k)) (Nat.le_max_left _ _)
    (Nat.le_max_left _ _)

theorem placeResume_tame {r : Fin 4} (h : Tame b s) : Tame b (placeResume r s) := by
  unfold placeResume
  try lift_lets
  repeat' first
    | with_reducible assumption | split
    | (intro x; first
      | (have hx : Tame b x := by
          subst x
          repeat' first
            | with_reducible assumption | split | with_reducible apply emitMsg_tame | with_reducible apply resume_tame | with_reducible apply setRec_tame | with_reducible refine tame_mk ?_ rfl rfl rfl rfl rfl ⟨rfl, rfl⟩ ?_ ?_ ?_ ?_ | exact Nat.le_max_left _ _ | exact fun h => h
         clear_value x)
      | subst x | clear_value x | skip)
    | with_reducible apply emitMsg_tame | with_reducible apply resume_tame | with_reducible apply setRec_tame | with_reducible refine tame_mk ?_ rfl rfl rfl rfl rfl ⟨rfl, rfl⟩ ?_ ?_ ?_ ?_ | exact Nat.le_max_left _ _ | exact fun h => h

theorem placeHold_tame {r : Fin 4} {partner : Option (Fin 4)} (h : Tame b s) : Tame b (placeHold r partner s) := by
  unfold placeHold
  try lift_lets
  repeat' first
    | with_reducible assumption | split
    | (intro x; first
      | (have hx : Tame b x := by
          subst x
          repeat' first
            | with_reducible assumption | split | with_reducible apply emitMsg_tame | with_reducible apply setRec_tame | with_reducible refine tame_mk ?_ rfl rfl rfl rfl rfl ⟨rfl, rfl⟩ ?_ ?_ ?_ ?_ | exact Nat.le_max_left _ _ | exact fun h => h
         clear_value x)
      | subst x | clear_value x | skip)
    | with_reducible apply emitMsg_tame | with_reducible apply setRec_tame | with_reducible refine tame_mk ?_ rfl rfl rfl rfl rfl ⟨rfl, rfl⟩ ?_ ?_ ?_ ?_ | exact Nat.le_max_left _ _ | exact fun h => h

theorem placeSetup_tame {r : Fin 4} (h : Tame b s) : Tame b (placeSetup r s) := by
  unfold placeSetup
  try lift_lets
  repeat' first
    | with_reducible assumption | split
    | (intro x; first
      | (have hx : Tame b x := by
          subst x
          repeat' first
            | with_reducible assumption | split | with_reducible apply emitMsg_tame | with_reducible apply setRec_tame | with_reducible refine tame_mk ?_ rfl rfl rfl rfl rfl ⟨rfl, rfl⟩ ?_ ?_ ?_ ?_ | exact Nat.le_max_left _ _ | exact fun h => h
         clear_value x)
      | subst x | clear_value x | skip)
    | with_reducible apply emitMsg_tame | with_reducible apply setRec_tame | with_reducible refine tame_mk ?_ rfl rfl rfl rfl rfl ⟨rfl, rfl⟩ ?_ ?_ ?_ ?_ | exact Nat.le_max_left _ _ | exact fun h => h

theorem placeSetups_tame (h : Tame b s) : Tame b (placeSetups s) := by
  unfold placeSetups
  repeat' first
    | with_reducible assumption | split | with_reducible apply placeSetup_tame | refine foldl_tame (fun s x h => ?_) _ ?_ | with_reducible refine tame_mk ?_ rfl rfl rfl rfl rfl ⟨rfl, rfl⟩ ?_ ?_ ?_ ?_ | exact Nat.le_max_left _ _ | exact fun h => h

theorem dropCapture_tame {r : Fin 4} (h : Tame b s) : Tame b (dropCapture r s) := by
  unfold dropCapture
  repeat' first
    | with_reducible assumption | split | with_reducible apply discardReads_tame | with_reducible refine tame_mk ?_ rfl rfl rfl rfl rfl ⟨rfl, rfl⟩ ?_ ?_ ?_ ?_ | exact Nat.le_max_left _ _ | exact fun h => h

theorem freeRec_tame {r : Fin 4} {cause : Cause} (h : Tame b s) : Tame b (freeRec r cause s) := by
  unfold freeRec
  repeat' first
    | with_reducible assumption | split | with_reducible apply changeState_tame | with_reducible apply dropCapture_tame | with_reducible refine tame_mk ?_ rfl rfl rfl rfl rfl ⟨rfl, rfl⟩ ?_ ?_ ?_ ?_ | exact Nat.le_max_left _ _ | exact fun h => h

theorem localRelease_tame {r : Fin 4} {cause : Cause} (h : Tame b s) : Tame b (localRelease r cause s) := by
  unfold localRelease
  repeat' first
    | with_reducible assumption | split | with_reducible apply freeRec_tame | with_reducible apply withdrawCall_tame | with_reducible refine tame_mk ?_ rfl rfl rfl rfl rfl ⟨rfl, rfl⟩ ?_ ?_ ?_ ?_ | exact Nat.le_max_left _ _ | exact fun h => h

theorem localReleaseAll_tame {p : CallRec → Bool} {cause : Cause} (h : Tame b s) : Tame b (localReleaseAll p cause s) := by
  unfold localReleaseAll
  repeat' first
    | with_reducible assumption | split | with_reducible apply localRelease_tame | refine foldl_tame (fun s x h => ?_) _ ?_ | with_reducible refine tame_mk ?_ rfl rfl rfl rfl rfl ⟨rfl, rfl⟩ ?_ ?_ ?_ ?_ | exact Nat.le_max_left _ _ | exact fun h => h

theorem partnerLeft_tame {old : CallRec} (h : Tame b s) : Tame b (partnerLeft old s) := by
  unfold partnerLeft
  repeat' first
    | with_reducible assumption | split | with_reducible apply placeResume_tame | with_reducible apply setRec_tame | with_reducible refine tame_mk ?_ rfl rfl rfl rfl rfl ⟨rfl, rfl⟩ ?_ ?_ ?_ ?_ | exact Nat.le_max_left _ _ | exact fun h => h

theorem localReleaseOne_tame {r : Fin 4} {cause : Cause} (h : Tame b s) : Tame b (localReleaseOne r cause s) := by
  unfold localReleaseOne
  repeat' first
    | with_reducible assumption | split | with_reducible apply partnerLeft_tame | with_reducible apply localRelease_tame | with_reducible refine tame_mk ?_ rfl rfl rfl rfl rfl ⟨rfl, rfl⟩ ?_ ?_ ?_ ?_ | exact Nat.le_max_left _ _ | exact fun h => h

theorem placeRelease_tame {r : Fin 4} {cause : Cause} (h : Tame b s) : Tame b (placeRelease r cause s) := by
  unfold placeRelease
  try lift_lets
  repeat' first
    | with_reducible assumption | split
    | (intro x; first
      | (have hx : Tame b x := by
          subst x
          repeat' first
            | with_reducible assumption | split | with_reducible apply dropCapture_tame | with_reducible apply withdrawCall_tame | with_reducible apply emitMsg_tame | with_reducible apply partnerLeft_tame | with_reducible apply changeState_tame | with_reducible refine tame_mk ?_ rfl rfl rfl rfl rfl ⟨rfl, rfl⟩ ?_ ?_ ?_ ?_ | exact Nat.le_max_left _ _ | exact fun h => h
         clear_value x)
      | subst x | clear_value x | skip)
    | with_reducible apply dropCapture_tame | with_reducible apply withdrawCall_tame | with_reducible apply emitMsg_tame | with_reducible apply partnerLeft_tame | with_reducible apply changeState_tame | with_reducible refine tame_mk ?_ rfl rfl rfl rfl rfl ⟨rfl, rfl⟩ ?_ ?_ ?_ ?_ | exact Nat.le_max_left _ _ | exact fun h => h

theorem releaseRec_tame {r : Fin 4} {cause : Cause} (h : Tame b s) : Tame b (releaseRec r cause s) := by
  unfold releaseRec
  try lift_lets
  repeat' first
    | with_reducible assumption | split
    | (intro x; first
      | (have hx : Tame b x := by
          subst x
          repeat' first
            | with_reducible assumption | split | with_reducible apply placeRelease_tame | with_reducible apply localReleaseOne_tame | with_reducible refine tame_mk ?_ rfl rfl rfl rfl rfl ⟨rfl, rfl⟩ ?_ ?_ ?_ ?_ | exact Nat.le_max_left _ _ | exact fun h => h
         clear_value x)
      | subst x | clear_value x | skip)
    | with_reducible apply placeRelease_tame | with_reducible apply localReleaseOne_tame | with_reducible refine tame_mk ?_ rfl rfl rfl rfl rfl ⟨rfl, rfl⟩ ?_ ?_ ?_ ?_ | exact Nat.le_max_left _ _ | exact fun h => h

theorem networkRelease_tame {ref : Byte} {cause : Cause} (h : Tame b s) : Tame b (networkRelease ref cause s) := by
  unfold networkRelease
  try lift_lets
  repeat' first
    | with_reducible assumption | split
    | (intro x; first
      | (have hx : Tame b x := by
          subst x
          repeat' first
            | with_reducible assumption | split | with_reducible apply emitMsg_tame | with_reducible apply partnerLeft_tame | with_reducible apply freeRec_tame | with_reducible apply withdrawCall_tame | with_reducible refine tame_mk ?_ rfl rfl rfl rfl rfl ⟨rfl, rfl⟩ ?_ ?_ ?_ ?_ | exact Nat.le_max_left _ _ | exact fun h => h
         clear_value x)
      | subst x | clear_value x | skip)
    | with_reducible apply emitMsg_tame | with_reducible apply partnerLeft_tame | with_reducible apply freeRec_tame | with_reducible apply withdrawCall_tame | with_reducible refine tame_mk ?_ rfl rfl rfl rfl rfl ⟨rfl, rfl⟩ ?_ ?_ ?_ ?_ | exact Nat.le_max_left _ _ | exact fun h => h

theorem exchangeFailed_tame {r : Fin 4} (h : Tame b s) : Tame b (exchangeFailed r s) := by
  unfold exchangeFailed
  try lift_lets
  repeat' first
    | with_reducible assumption | split
    | (intro x; first
      | (have hx : Tame b x := by
          subst x
          repeat' first
            | with_reducible assumption | split | with_reducible apply setRec_tame | with_reducible apply callEvent_tame | with_reducible apply resume_tame | with_reducible refine tame_mk ?_ rfl rfl rfl rfl rfl ⟨rfl, rfl⟩ ?_ ?_ ?_ ?_ | exact Nat.le_max_left _ _ | exact fun h => h
         clear_value x)
      | subst x | clear_value x | skip)
    | with_reducible apply setRec_tame | with_reducible apply callEvent_tame | with_reducible apply resume_tame | with_reducible refine tame_mk ?_ rfl rfl rfl rfl rfl ⟨rfl, rfl⟩ ?_ ?_ ?_ ?_ | exact Nat.le_max_left _ _ | exact fun h => h

theorem shutdownRec_tame {r : Fin 4} {cause : Cause} (h : Tame b s) : Tame b (shutdownRec r cause s) := by
  unfold shutdownRec
  try lift_lets
  repeat' first
    | with_reducible assumption | split
    | (intro x; first
      | (have hx : Tame b x := by
          subst x
          repeat' first
            | with_reducible assumption | split | with_reducible apply withdrawCall_tame | with_reducible apply freeRec_tame | with_reducible apply emitMsg_tame | with_reducible refine tame_mk ?_ rfl rfl rfl rfl rfl ⟨rfl, rfl⟩ ?_ ?_ ?_ ?_ | exact Nat.le_max_left _ _ | exact fun h => h
         clear_value x)
      | subst x | clear_value x | skip)
    | with_reducible apply withdrawCall_tame | with_reducible apply freeRec_tame | with_reducible apply emitMsg_tame | with_reducible refine tame_mk ?_ rfl rfl rfl rfl rfl ⟨rfl, rfl⟩ ?_ ?_ ?_ ?_ | exact Nat.le_max_left _ _ | exact fun h => h

theorem shutdownCalls_tame {cause : Cause} (h : Tame b s) : Tame b (shutdownCalls cause s) := by
  unfold shutdownCalls
  repeat' first
    | with_reducible assumption | split | with_reducible apply shutdownRec_tame | refine foldl_tame (fun s x h => ?_) _ ?_ | with_reducible refine tame_mk ?_ rfl rfl rfl rfl rfl ⟨rfl, rfl⟩ ?_ ?_ ?_ ?_ | exact Nat.le_max_left _ _ | exact fun h => h

theorem writeGaps_tame (h : Tame b s) : Tame b (writeGaps s) :=
  foldl_tame (fun _ _ h => emitWrite_tame h) _ h

theorem gapsCarried_tame (h : Tame b s) : Tame b (gapsCarried s) := by
  unfold gapsCarried
  repeat' first
    | with_reducible assumption | split | with_reducible refine tame_mk ?_ rfl rfl rfl rfl rfl ⟨rfl, rfl⟩ ?_ ?_ ?_ ?_ | exact Nat.le_max_left _ _ | exact fun h => h

theorem tellSwitchStart_tame (h : Tame b s) : Tame b (tellSwitchStart s) := by
  unfold tellSwitchStart
  repeat' first
    | with_reducible assumption | split | with_reducible refine tame_mk ?_ rfl rfl rfl rfl rfl ⟨rfl, rfl⟩ ?_ ?_ ?_ ?_ | exact Nat.le_max_left _ _ | exact fun h => h

end Sys2Proof.Machine
end

