-- ==== Sys2Proof/Laws/TameTexts.lean ====
section
/-! SUPPORT. The text controller and the connection controller: each operation keeps the limits and leaves the queue, the frame number and the resets alone. -/

set_option linter.unusedTactic false
set_option linter.unreachableTactic false

namespace Sys2Proof.Machine

variable {b s : State}

theorem setDesc_tame {n : Fin 16} {f : Desc → Desc} (h : Tame b s) : Tame b (setDesc n f s) := by
  unfold setDesc
  try lift_lets
  repeat' first
    | with_reducible assumption | split
    | (intro x; first
      | (have hx : Tame b x := by
          subst x
          repeat' first
            | with_reducible assumption | split | with_reducible apply emitWrite_tame | with_reducible refine tame_mk ?_ rfl rfl rfl rfl rfl ⟨rfl, rfl⟩ ?_ ?_ ?_ ?_ | exact Nat.le_max_left _ _ | exact fun h => h
         clear_value x)
      | subst x | clear_value x | skip)
    | with_reducible apply emitWrite_tame | with_reducible refine tame_mk ?_ rfl rfl rfl rfl rfl ⟨rfl, rfl⟩ ?_ ?_ ?_ ?_ | exact Nat.le_max_left _ _ | exact fun h => h

theorem retire_tame (h : Tame b s) : Tame b (retire s) := by
  unfold retire
  try lift_lets
  repeat' first
    | with_reducible assumption | split
    | (intro x; first
      | (have hx : Tame b x := by
          subst x
          repeat' first
            | with_reducible assumption | split | with_reducible apply emitWrite_tame | with_reducible refine tame_mk ?_ rfl rfl rfl rfl rfl ⟨rfl, rfl⟩ ?_ ?_ ?_ ?_ | exact Nat.le_max_left _ _ | exact fun h => h
         clear_value x)
      | subst x | clear_value x | skip)
    | with_reducible apply emitWrite_tame | with_reducible refine tame_mk ?_ rfl rfl rfl rfl rfl ⟨rfl, rfl⟩ ?_ ?_ ?_ ?_ | exact Nat.le_max_left _ _ | exact fun h => h

theorem finishDesc_tame {n : Fin 16} {st : DescState} {cause : Option Cause} {attempts : Nat} (h : Tame b s) : Tame b (finishDesc n st cause attempts s) := by
  unfold finishDesc
  try lift_lets
  repeat' first
    | with_reducible assumption | split
    | (intro x; first
      | (have hx : Tame b x := by
          subst x
          repeat' first
            | with_reducible assumption | split | with_reducible apply retire_tame | with_reducible apply setDesc_tame | with_reducible apply raise_tame | with_reducible refine tame_mk ?_ rfl rfl rfl rfl rfl ⟨rfl, rfl⟩ ?_ ?_ ?_ ?_ | exact Nat.le_max_left _ _ | exact fun h => h
         clear_value x)
      | subst x | clear_value x | skip)
    | with_reducible apply retire_tame | with_reducible apply setDesc_tame | with_reducible apply raise_tame | with_reducible refine tame_mk ?_ rfl rfl rfl rfl rfl ⟨rfl, rfl⟩ ?_ ?_ ?_ ?_ | exact Nat.le_max_left _ _ | exact fun h => h

theorem setSend_tame {f : Send → Send} (h : Tame b s) : Tame b (setSend f s) := by
  unfold setSend
  repeat' first
    | with_reducible assumption | split | with_reducible refine tame_mk ?_ rfl rfl rfl rfl rfl ⟨rfl, rfl⟩ ?_ ?_ ?_ ?_ | exact Nat.le_max_left _ _ | exact fun h => h

theorem dropSend_tame (h : Tame b s) : Tame b (dropSend s) := by
  unfold dropSend
  repeat' first
    | with_reducible assumption | split | with_reducible apply discardReads_tame | with_reducible apply withdrawOpt_tame | exact Nat.le_trans h.ctxs (Nat.le_max_right _ _) | with_reducible refine tame_mk ?_ rfl rfl rfl rfl rfl ⟨rfl, rfl⟩ ?_ ?_ ?_ ?_ | exact Nat.le_max_left _ _ | exact fun h => h

theorem endSend_tame {st : DescState} {cause : Option Cause} (h : Tame b s) : Tame b (endSend st cause s) := by
  unfold endSend
  repeat' first
    | with_reducible assumption | split | with_reducible apply finishDesc_tame | with_reducible apply dropSend_tame | with_reducible refine tame_mk ?_ rfl rfl rfl rfl rfl ⟨rfl, rfl⟩ ?_ ?_ ?_ ?_ | exact Nat.le_max_left _ _ | exact fun h => h

theorem placeSegment_tame (h : Tame b s) : Tame b (placeSegment s) := by
  unfold placeSegment
  try lift_lets
  repeat' first
    | with_reducible assumption | split
    | (intro x; first
      | (have hx : Tame b x := by
          subst x
          repeat' first
            | with_reducible assumption | split | with_reducible apply setSend_tame | with_reducible apply emitMsg_tame | with_reducible refine tame_mk ?_ rfl rfl rfl rfl rfl ⟨rfl, rfl⟩ ?_ ?_ ?_ ?_ | exact Nat.le_max_left _ _ | exact fun h => h
         clear_value x)
      | subst x | clear_value x | skip)
    | with_reducible apply setSend_tame | with_reducible apply emitMsg_tame | with_reducible refine tame_mk ?_ rfl rfl rfl rfl rfl ⟨rfl, rfl⟩ ?_ ?_ ?_ ?_ | exact Nat.le_max_left _ _ | exact fun h => h

theorem segmentFailed_tame (h : Tame b s) : Tame b (segmentFailed s) := by
  unfold segmentFailed
  try lift_lets
  repeat' first
    | with_reducible assumption | split
    | (intro x; first
      | (have hx : Tame b x := by
          subst x
          repeat' first
            | with_reducible assumption | split | with_reducible apply endSend_tame | with_reducible apply finishDesc_tame | with_reducible apply dropSend_tame | with_reducible apply placeSegment_tame | with_reducible apply setDesc_tame | with_reducible refine tame_mk ?_ rfl rfl rfl rfl rfl ⟨rfl, rfl⟩ ?_ ?_ ?_ ?_ | exact Nat.le_max_left _ _ | exact fun h => h
         clear_value x)
      | subst x | clear_value x | skip)
    | with_reducible apply endSend_tame | with_reducible apply finishDesc_tame | with_reducible apply dropSend_tame | with_reducible apply placeSegment_tame | with_reducible apply setDesc_tame | with_reducible refine tame_mk ?_ rfl rfl rfl rfl rfl ⟨rfl, rfl⟩ ?_ ?_ ?_ ?_ | exact Nat.le_max_left _ _ | exact fun h => h

theorem beginSend_tame {n : Fin 16} (h : Tame b s) : Tame b (beginSend n s) := by
  unfold beginSend
  try lift_lets
  repeat' first
    | with_reducible assumption | split
    | (intro x; first
      | (have hx : Tame b x := by
          subst x
          repeat' first
            | with_reducible assumption | split | with_reducible apply emitRead_tame | with_reducible apply setDesc_tame | with_reducible refine tame_mk ?_ rfl rfl rfl rfl rfl ⟨rfl, rfl⟩ ?_ ?_ ?_ ?_ | exact Nat.le_max_left _ _ | exact fun h => h
         clear_value x)
      | subst x | clear_value x | skip)
    | with_reducible apply emitRead_tame | with_reducible apply setDesc_tame | with_reducible refine tame_mk ?_ rfl rfl rfl rfl rfl ⟨rfl, rfl⟩ ?_ ?_ ?_ ?_ | exact Nat.le_max_left _ _ | exact fun h => h

theorem textLost_tame {cause : Cause} (h : Tame b s) : Tame b (textLost cause s) := by
  unfold textLost
  try lift_lets
  repeat' first
    | with_reducible assumption | split
    | (intro x; first
      | (have hx : Tame b x := by
          subst x
          repeat' first
            | with_reducible assumption | split | with_reducible apply dropSend_tame | with_reducible apply finishDesc_tame | with_reducible apply setDesc_tame | with_reducible refine tame_mk ?_ rfl rfl rfl rfl rfl ⟨rfl, rfl⟩ ?_ ?_ ?_ ?_ | exact Nat.le_max_left _ _ | exact fun h => h
         clear_value x)
      | subst x | clear_value x | skip)
    | with_reducible apply dropSend_tame | with_reducible apply finishDesc_tame | with_reducible apply setDesc_tame | with_reducible refine tame_mk ?_ rfl rfl rfl rfl rfl ⟨rfl, rfl⟩ ?_ ?_ ?_ ?_ | exact Nat.le_max_left _ _ | exact fun h => h

theorem textConnectFailed_tame (h : Tame b s) : Tame b (textConnectFailed s) := by
  unfold textConnectFailed
  try lift_lets
  repeat' first
    | with_reducible assumption | split
    | (intro x; first
      | (have hx : Tame b x := by
          subst x
          repeat' first
            | with_reducible assumption | split | with_reducible apply finishDesc_tame | with_reducible apply setDesc_tame | with_reducible refine tame_mk ?_ rfl rfl rfl rfl rfl ⟨rfl, rfl⟩ ?_ ?_ ?_ ?_ | exact Nat.le_max_left _ _ | exact fun h => h
         clear_value x)
      | subst x | clear_value x | skip)
    | with_reducible apply finishDesc_tame | with_reducible apply setDesc_tame | with_reducible refine tame_mk ?_ rfl rfl rfl rfl rfl ⟨rfl, rfl⟩ ?_ ?_ ?_ ?_ | exact Nat.le_max_left _ _ | exact fun h => h

theorem keepSegment_tame (h : Tame b s) : Tame b (keepSegment s) := by
  unfold keepSegment
  repeat' first
    | with_reducible assumption | split | with_reducible apply endSend_tame | with_reducible apply setSend_tame | with_reducible apply withdrawOpt_tame | with_reducible refine tame_mk ?_ rfl rfl rfl rfl rfl ⟨rfl, rfl⟩ ?_ ?_ ?_ ?_ | exact Nat.le_max_left _ _ | exact fun h => h

theorem textSwitchStart_tame (h : Tame b s) : Tame b (textSwitchStart s) := by
  unfold textSwitchStart
  try lift_lets
  repeat' first
    | with_reducible assumption | split
    | (intro x; first
      | (have hx : Tame b x := by
          subst x
          repeat' first
            | with_reducible assumption | split | with_reducible apply keepSegment_tame | with_reducible refine tame_mk ?_ rfl rfl rfl rfl rfl ⟨rfl, rfl⟩ ?_ ?_ ?_ ?_ | exact Nat.le_max_left _ _ | exact fun h => h
         clear_value x)
      | subst x | clear_value x | skip)
    | with_reducible apply keepSegment_tame | with_reducible refine tame_mk ?_ rfl rfl rfl rfl rfl ⟨rfl, rfl⟩ ?_ ?_ ?_ ?_ | exact Nat.le_max_left _ _ | exact fun h => h

theorem textSendAbandoned_tame (h : Tame b s) : Tame b (textSendAbandoned s) := by
  unfold textSendAbandoned
  repeat' first
    | with_reducible assumption | split | with_reducible apply keepSegment_tame | with_reducible refine tame_mk ?_ rfl rfl rfl rfl rfl ⟨rfl, rfl⟩ ?_ ?_ ?_ ?_ | exact Nat.le_max_left _ _ | exact fun h => h

theorem textSwitchEnd_tame (h : Tame b s) : Tame b (textSwitchEnd s) := by
  unfold textSwitchEnd
  try lift_lets
  repeat' first
    | with_reducible assumption | split
    | (intro x; first
      | (have hx : Tame b x := by
          subst x
          repeat' first
            | with_reducible assumption | split | with_reducible apply placeSegment_tame | with_reducible refine tame_mk ?_ rfl rfl rfl rfl rfl ⟨rfl, rfl⟩ ?_ ?_ ?_ ?_ | exact Nat.le_max_left _ _ | exact fun h => h
         clear_value x)
      | subst x | clear_value x | skip)
    | with_reducible apply placeSegment_tame | with_reducible refine tame_mk ?_ rfl rfl rfl rfl rfl ⟨rfl, rfl⟩ ?_ ?_ ?_ ?_ | exact Nat.le_max_left _ _ | exact fun h => h

theorem ackMsg_tame {ref index : Byte} {r : AckResult} (h : Tame b s) : Tame b (ackMsg ref index r s) := by
  unfold ackMsg
  repeat' first
    | with_reducible assumption | split | with_reducible apply emitMsg_tame | with_reducible refine tame_mk ?_ rfl rfl rfl rfl rfl ⟨rfl, rfl⟩ ?_ ?_ ?_ ?_ | exact Nat.le_max_left _ _ | exact fun h => h

theorem setFull_tame {b' : Bool} (h : Tame b s) : Tame b (setFull b' s) := by
  unfold setFull
  repeat' first
    | with_reducible assumption | split | with_reducible apply emitWrite_tame | with_reducible refine tame_mk ?_ rfl rfl rfl rfl rfl ⟨rfl, rfl⟩ ?_ ?_ ?_ ?_ | exact Nat.le_max_left _ _ | exact fun h => h

theorem writeSlotHeader_tame {c : Ctx} {bytes : LineBytes} (h : Tame b s) : Tame b (writeSlotHeader c bytes s) := by
  unfold writeSlotHeader
  repeat' first
    | with_reducible assumption | split | with_reducible apply emitWrite_tame | with_reducible refine tame_mk ?_ rfl rfl rfl rfl rfl ⟨rfl, rfl⟩ ?_ ?_ ?_ ?_ | exact Nat.le_max_left _ _ | exact fun h => h

theorem deliver_tame {l : List Resv} (h : Tame b s) : Tame b (deliver l s) := by
  induction l generalizing s with
  | nil => exact h
  | cons e rest ih =>
    unfold deliver
    split
    · exact h
    · exact ih (raisePrimary_tame (emitWrite_tame (tame_mk h rfl rfl rfl rfl rfl ⟨rfl, rfl⟩ id id (Nat.le_max_left _ _) (Nat.le_max_left _ _))))

theorem deliverAll_tame (h : Tame b s) : Tame b (deliverAll s) := by
  unfold deliverAll
  repeat' first
    | with_reducible assumption | split | with_reducible apply deliver_tame | with_reducible refine tame_mk ?_ rfl rfl rfl rfl rfl ⟨rfl, rfl⟩ ?_ ?_ ?_ ?_ | exact Nat.le_max_left _ _ | exact fun h => h

theorem closeCtx_tame {c : Ctx} {f : Finish} (h : Tame b s) : Tame b (closeCtx c f s) := by
  unfold closeCtx
  exact tame_mk h rfl rfl rfl rfl rfl ⟨rfl, rfl⟩ id id (Nat.le_max_left _ _)
    (Nat.le_trans (List.length_filter_le _ _) (Nat.le_max_left _ _))

theorem finishCtx_tame {c : Ctx} (h : Tame b s) : Tame b (finishCtx c s) := by
  unfold finishCtx
  repeat' first
    | with_reducible assumption | split | with_reducible apply deliverAll_tame | with_reducible apply closeCtx_tame | with_reducible apply writeSlotHeader_tame | with_reducible refine tame_mk ?_ rfl rfl rfl rfl rfl ⟨rfl, rfl⟩ ?_ ?_ ?_ ?_ | exact Nat.le_max_left _ _ | exact fun h => h

theorem abandonCtx_tame {c : Ctx} (h : Tame b s) : Tame b (abandonCtx c s) := by
  unfold abandonCtx
  try lift_lets
  repeat' first
    | with_reducible assumption | split
    | (intro x; first
      | (have hx : Tame b x := by
          subst x
          repeat' first
            | with_reducible assumption | split | with_reducible apply closeCtx_tame | with_reducible apply writeSlotHeader_tame | with_reducible apply deliverAll_tame | with_reducible apply raise_tame | with_reducible refine tame_mk ?_ rfl rfl rfl rfl rfl ⟨rfl, rfl⟩ ?_ ?_ ?_ ?_ | exact Nat.le_max_left _ _ | exact fun h => h
         clear_value x)
      | subst x | clear_value x | skip)
    | with_reducible apply closeCtx_tame | with_reducible apply writeSlotHeader_tame | with_reducible apply deliverAll_tame | with_reducible apply raise_tame | with_reducible refine tame_mk ?_ rfl rfl rfl rfl rfl ⟨rfl, rfl⟩ ?_ ?_ ?_ ?_ | exact Nat.le_max_left _ _ | exact fun h => h

theorem abandonAll_tame (h : Tame b s) : Tame b (abandonAll s) := by
  unfold abandonAll
  repeat' first
    | with_reducible assumption | split | with_reducible apply abandonCtx_tame | refine foldl_tame (fun s x h => ?_) _ ?_ | with_reducible refine tame_mk ?_ rfl rfl rfl rfl rfl ⟨rfl, rfl⟩ ?_ ?_ ?_ ?_ | exact Nat.le_max_left _ _ | exact fun h => h

theorem takeSegment_tame {c : Ctx} {g : Segment} (h : Tame b s) : Tame b (takeSegment c g s) := by
  unfold takeSegment
  try lift_lets
  repeat' first
    | with_reducible assumption | split
    | (intro x; first
      | (have hx : Tame b x := by
          subst x
          repeat' first
            | with_reducible assumption | split | with_reducible apply ackMsg_tame | with_reducible apply emitWrite_tame | with_reducible apply writeSlotHeader_tame | with_reducible apply finishCtx_tame | (refine Nat.le_trans (Nat.le_of_eq ?_) (Nat.le_max_left _ _); simp only [List.length_map]) | refine foldl_tame (fun _ _ h => emitWrite_tame h) _ ?_ | refine foldl_tame (fun s x h => ?_) _ ?_ | with_reducible refine tame_mk ?_ rfl rfl rfl rfl rfl ⟨rfl, rfl⟩ ?_ ?_ ?_ ?_ | exact Nat.le_max_left _ _ | exact fun h => h
         clear_value x)
      | subst x | clear_value x | skip)
    | with_reducible apply ackMsg_tame | with_reducible apply emitWrite_tame | with_reducible apply writeSlotHeader_tame | with_reducible apply finishCtx_tame | (refine Nat.le_trans (Nat.le_of_eq ?_) (Nat.le_max_left _ _); simp only [List.length_map]) | refine foldl_tame (fun _ _ h => emitWrite_tame h) _ ?_ | refine foldl_tame (fun s x h => ?_) _ ?_ | with_reducible refine tame_mk ?_ rfl rfl rfl rfl rfl ⟨rfl, rfl⟩ ?_ ?_ ?_ ?_ | exact Nat.le_max_left _ _ | exact fun h => h

theorem openSegment_tame {g : Segment} (h : Tame b s) : Tame b (openSegment g s) := by
  unfold openSegment
  split
  · exact ackMsg_tame h
  · rename_i few
    split
    · dsimp only
      split
      · exact ackMsg_tame (setFull_tame h)
      · exact emitMsg_tame (ackMsg_tame (setFull_tame h))
    · refine takeSegment_tame (writeSlotHeader_tame (tame_mk h rfl rfl rfl rfl rfl ⟨rfl, rfl⟩ id id (Nat.le_max_left _ _) ?_))
      refine Nat.le_trans ?_ (Nat.le_max_right _ _)
      simp only [List.length_append, List.length_singleton]
      omega

theorem checkSegment_tame {g : Segment} (h : Tame b s) : Tame b (checkSegment g s) := by
  unfold checkSegment
  repeat' first
    | with_reducible assumption | split | with_reducible apply ackMsg_tame | with_reducible apply takeSegment_tame | with_reducible apply openSegment_tame | with_reducible refine tame_mk ?_ rfl rfl rfl rfl rfl ⟨rfl, rfl⟩ ?_ ?_ ?_ ?_ | exact Nat.le_max_left _ _ | exact fun h => h

theorem afterConn_tame {old st : ConnState} (h : Tame b s) : Tame b (afterConn old st s) := by
  unfold afterConn
  try lift_lets
  repeat' first
    | with_reducible assumption | split
    | (intro x; first
      | (have hx : Tame b x := by
          subst x
          repeat' first
            | with_reducible assumption | split | with_reducible apply dropOrder_tame | with_reducible apply clearCandidates_tame | with_reducible apply abortRound_tame | with_reducible refine tame_mk ?_ rfl rfl rfl rfl rfl ⟨rfl, rfl⟩ ?_ ?_ ?_ ?_ | exact Nat.le_max_left _ _ | exact fun h => h
         clear_value x)
      | subst x | clear_value x | skip)
    | with_reducible apply dropOrder_tame | with_reducible apply clearCandidates_tame | with_reducible apply abortRound_tame | with_reducible refine tame_mk ?_ rfl rfl rfl rfl rfl ⟨rfl, rfl⟩ ?_ ?_ ?_ ?_ | exact Nat.le_max_left _ _ | exact fun h => h

theorem setConnQuiet_tame {st : ConnState} (h : Tame b s) : Tame b (setConnQuiet st s) := by
  unfold setConnQuiet
  repeat' first
    | with_reducible assumption | split | with_reducible apply afterConn_tame | with_reducible refine tame_mk ?_ rfl rfl rfl rfl rfl ⟨rfl, rfl⟩ ?_ ?_ ?_ ?_ | exact Nat.le_max_left _ _ | exact fun h => h

theorem setConn_tame {st : ConnState} (h : Tame b s) : Tame b (setConn st s) := by
  unfold setConn
  repeat' first
    | with_reducible assumption | split | with_reducible apply afterConn_tame | with_reducible apply notePlan_tame | with_reducible refine tame_mk ?_ rfl rfl rfl rfl rfl ⟨rfl, rfl⟩ ?_ ?_ ?_ ?_ | exact Nat.le_max_left _ _ | exact fun h => h

theorem setArea_tame {a : Option Half} (h : Tame b s) : Tame b (setArea a s) := by
  unfold setArea
  repeat' first
    | with_reducible assumption | split | with_reducible apply notePlan_tame | with_reducible refine tame_mk ?_ rfl rfl rfl rfl rfl ⟨rfl, rfl⟩ ?_ ?_ ?_ ?_ | exact Nat.le_max_left _ _ | exact fun h => h

theorem placeRequest_tame {p : Purpose} {attempts : Nat} (h : Tame b s) : Tame b (placeRequest p attempts s) := by
  unfold placeRequest
  repeat' first
    | with_reducible assumption | split | with_reducible apply emitMsg_tame | with_reducible refine tame_mk ?_ rfl rfl rfl rfl rfl ⟨rfl, rfl⟩ ?_ ?_ ?_ ?_ | exact Nat.le_max_left _ _ | exact fun h => h

theorem connectStart_tame {p : Purpose} (h : Tame b s) : Tame b (connectStart p s) := by
  unfold connectStart
  repeat' first
    | with_reducible assumption | split | with_reducible apply setConn_tame | with_reducible apply placeRequest_tame | with_reducible refine tame_mk ?_ rfl rfl rfl rfl rfl ⟨rfl, rfl⟩ ?_ ?_ ?_ ?_ | exact Nat.le_max_left _ _ | exact fun h => h

theorem placeAreaUpdate_tame (h : Tame b s) : Tame b (placeAreaUpdate s) := by
  unfold placeAreaUpdate
  repeat' first
    | with_reducible assumption | split | with_reducible apply emitMsg_tame | with_reducible refine tame_mk ?_ rfl rfl rfl rfl rfl ⟨rfl, rfl⟩ ?_ ?_ ?_ ?_ | exact Nat.le_max_left _ _ | exact fun h => h

theorem addPurpose_tame {p : Purpose} (h : Tame b s) : Tame b (addPurpose p s) := by
  unfold addPurpose
  try lift_lets
  repeat' first
    | with_reducible assumption | split
    | (intro x; first
      | (have hx : Tame b x := by
          subst x
          repeat' first
            | with_reducible assumption | split | with_reducible apply connectStart_tame | with_reducible apply placeAreaUpdate_tame | with_reducible refine tame_mk ?_ rfl rfl rfl rfl rfl ⟨rfl, rfl⟩ ?_ ?_ ?_ ?_ | exact Nat.le_max_left _ _ | exact fun h => h
         clear_value x)
      | subst x | clear_value x | skip)
    | with_reducible apply connectStart_tame | with_reducible apply placeAreaUpdate_tame | with_reducible refine tame_mk ?_ rfl rfl rfl rfl rfl ⟨rfl, rfl⟩ ?_ ?_ ?_ ?_ | exact Nat.le_max_left _ _ | exact fun h => h

theorem startWaiting_tame (h : Tame b s) : Tame b (startWaiting s) := by
  unfold startWaiting
  repeat' first
    | with_reducible assumption | split | with_reducible apply connectStart_tame | with_reducible refine tame_mk ?_ rfl rfl rfl rfl rfl ⟨rfl, rfl⟩ ?_ ?_ ?_ ?_ | exact Nat.le_max_left _ _ | exact fun h => h

theorem areaCheck_tame (h : Tame b s) : Tame b (areaCheck s) := by
  unfold areaCheck
  repeat' first
    | with_reducible assumption | split | with_reducible apply addPurpose_tame | with_reducible refine tame_mk ?_ rfl rfl rfl rfl rfl ⟨rfl, rfl⟩ ?_ ?_ ?_ ?_ | exact Nat.le_max_left _ _ | exact fun h => h

theorem serveConnected_tame (h : Tame b s) : Tame b (serveConnected s) := by
  unfold serveConnected
  try lift_lets
  repeat' first
    | with_reducible assumption | split
    | (intro x; first
      | (have hx : Tame b x := by
          subst x
          repeat' first
            | with_reducible assumption | split | with_reducible apply placeSetups_tame | with_reducible apply placeAreaUpdate_tame | with_reducible apply evaluateCandidates_tame | with_reducible refine tame_mk ?_ rfl rfl rfl rfl rfl ⟨rfl, rfl⟩ ?_ ?_ ?_ ?_ | exact Nat.le_max_left _ _ | exact fun h => h
         clear_value x)
      | subst x | clear_value x | skip)
    | with_reducible apply placeSetups_tame | with_reducible apply placeAreaUpdate_tame | with_reducible apply evaluateCandidates_tame | with_reducible refine tame_mk ?_ rfl rfl rfl rfl rfl ⟨rfl, rfl⟩ ?_ ?_ ?_ ?_ | exact Nat.le_max_left _ _ | exact fun h => h

theorem failConnect_tame (h : Tame b s) : Tame b (failConnect s) := by
  unfold failConnect
  try lift_lets
  repeat' first
    | with_reducible assumption | split
    | (intro x; first
      | (have hx : Tame b x := by
          subst x
          repeat' first
            | with_reducible assumption | split | with_reducible apply localReleaseAll_tame | with_reducible apply textConnectFailed_tame | with_reducible apply setConn_tame | with_reducible refine tame_mk ?_ rfl rfl rfl rfl rfl ⟨rfl, rfl⟩ ?_ ?_ ?_ ?_ | exact Nat.le_max_left _ _ | exact fun h => h
         clear_value x)
      | subst x | clear_value x | skip)
    | with_reducible apply localReleaseAll_tame | with_reducible apply textConnectFailed_tame | with_reducible apply setConn_tame | with_reducible refine tame_mk ?_ rfl rfl rfl rfl rfl ⟨rfl, rfl⟩ ?_ ?_ ?_ ?_ | exact Nat.le_max_left _ _ | exact fun h => h

theorem dropRequest_tame (h : Tame b s) : Tame b (dropRequest s) := by
  unfold dropRequest
  try lift_lets
  repeat' first
    | with_reducible assumption | split
    | (intro x; first
      | (have hx : Tame b x := by
          subst x
          repeat' first
            | with_reducible assumption | split | with_reducible apply withdrawOpt_tame | with_reducible refine tame_mk ?_ rfl rfl rfl rfl rfl ⟨rfl, rfl⟩ ?_ ?_ ?_ ?_ | exact Nat.le_max_left _ _ | exact fun h => h
         clear_value x)
      | subst x | clear_value x | skip)
    | with_reducible apply withdrawOpt_tame | with_reducible refine tame_mk ?_ rfl rfl rfl rfl rfl ⟨rfl, rfl⟩ ?_ ?_ ?_ ?_ | exact Nat.le_max_left _ _ | exact fun h => h

theorem dropRequests_tame (h : Tame b s) : Tame b (dropRequests s) := by
  unfold dropRequests
  repeat' first
    | with_reducible assumption | split | with_reducible apply dropRequest_tame | with_reducible apply withdrawMsg_tame | refine foldl_tame (fun s x h => ?_) _ ?_ | with_reducible refine tame_mk ?_ rfl rfl rfl rfl rfl ⟨rfl, rfl⟩ ?_ ?_ ?_ ?_ | exact Nat.le_max_left _ _ | exact fun h => h

theorem connectFail_tame (h : Tame b s) : Tame b (connectFail s) := by
  unfold connectFail
  try lift_lets
  repeat' first
    | with_reducible assumption | split
    | (intro x; first
      | (have hx : Tame b x := by
          subst x
          repeat' first
            | with_reducible assumption | split | with_reducible apply dropRequest_tame | with_reducible apply placeRequest_tame | with_reducible apply failConnect_tame | with_reducible refine tame_mk ?_ rfl rfl rfl rfl rfl ⟨rfl, rfl⟩ ?_ ?_ ?_ ?_ | exact Nat.le_max_left _ _ | exact fun h => h
         clear_value x)
      | subst x | clear_value x | skip)
    | with_reducible apply dropRequest_tame | with_reducible apply placeRequest_tame | with_reducible apply failConnect_tame | with_reducible refine tame_mk ?_ rfl rfl rfl rfl rfl ⟨rfl, rfl⟩ ?_ ?_ ?_ ?_ | exact Nat.le_max_left _ _ | exact fun h => h

theorem areaServed_tame (h : Tame b s) : Tame b (areaServed s) := by
  unfold areaServed
  repeat' first
    | with_reducible assumption | split | with_reducible refine tame_mk ?_ rfl rfl rfl rfl rfl ⟨rfl, rfl⟩ ?_ ?_ ?_ ?_ | exact Nat.le_max_left _ _ | exact fun h => h

theorem writeResult_tame {r : Fin 4} {req : Request} {res : ReqResult} (h : Tame b s) : Tame b (writeResult r req res s) := by
  unfold writeResult
  repeat' first
    | with_reducible assumption | split | with_reducible apply setRec_tame | with_reducible refine tame_mk ?_ rfl rfl rfl rfl rfl ⟨rfl, rfl⟩ ?_ ?_ ?_ ?_ | exact Nat.le_max_left _ _ | exact fun h => h

theorem originate_tame {r : Fin 4} (h : Tame b s) : Tame b (originate r s) := by
  unfold originate
  try lift_lets
  repeat' first
    | with_reducible assumption | split
    | (intro x; first
      | (have hx : Tame b x := by
          subst x
          repeat' first
            | with_reducible assumption | split | with_reducible apply abandonSleep_tame | with_reducible apply activity_tame | with_reducible apply emitRead_tame | with_reducible apply addPurpose_tame | with_reducible apply changeState_tame | with_reducible refine tame_mk ?_ rfl rfl rfl rfl rfl ⟨rfl, rfl⟩ ?_ ?_ ?_ ?_ | exact Nat.le_max_left _ _ | exact fun h => h
         clear_value x)
      | subst x | clear_value x | skip)
    | with_reducible apply abandonSleep_tame | with_reducible apply activity_tame | with_reducible apply emitRead_tame | with_reducible apply addPurpose_tame | with_reducible apply changeState_tame | with_reducible refine tame_mk ?_ rfl rfl rfl rfl rfl ⟨rfl, rfl⟩ ?_ ?_ ?_ ?_ | exact Nat.le_max_left _ _ | exact fun h => h

theorem answerCall_tame {r : Fin 4} (h : Tame b s) : Tame b (answerCall r s) := by
  unfold answerCall
  repeat' first
    | with_reducible assumption | split | with_reducible apply changeState_tame | with_reducible apply answer_tame | with_reducible apply emitMsg_tame | with_reducible refine tame_mk ?_ rfl rfl rfl rfl rfl ⟨rfl, rfl⟩ ?_ ?_ ?_ ?_ | exact Nat.le_max_left _ _ | exact fun h => h

theorem swapCalls_tame {r y : Fin 4} (h : Tame b s) : Tame b (swapCalls r y s) := by
  unfold swapCalls
  repeat' first
    | with_reducible assumption | split | with_reducible apply placeHold_tame | with_reducible apply setRec_tame | with_reducible refine tame_mk ?_ rfl rfl rfl rfl rfl ⟨rfl, rfl⟩ ?_ ?_ ?_ ?_ | exact Nat.le_max_left _ _ | exact fun h => h

theorem takeRequest_tame {r : Fin 4} {req : Request} (h : Tame b s) : Tame b (takeRequest r req s) := by
  unfold takeRequest
  try lift_lets
  repeat' first
    | with_reducible assumption | split
    | (intro x; first
      | (have hx : Tame b x := by
          subst x
          repeat' first
            | with_reducible assumption | split | with_reducible apply writeResult_tame | with_reducible apply originate_tame | with_reducible apply answer_tame | with_reducible apply answerCall_tame | with_reducible apply placeHold_tame | with_reducible apply resume_tame | with_reducible apply placeResume_tame | with_reducible apply swapCalls_tame | with_reducible apply releaseRec_tame | with_reducible refine tame_mk ?_ rfl rfl rfl rfl rfl ⟨rfl, rfl⟩ ?_ ?_ ?_ ?_ | exact Nat.le_max_left _ _ | exact fun h => h
         clear_value x)
      | subst x | clear_value x | skip)
    | with_reducible apply writeResult_tame | with_reducible apply originate_tame | with_reducible apply answer_tame | with_reducible apply answerCall_tame | with_reducible apply placeHold_tame | with_reducible apply resume_tame | with_reducible apply placeResume_tame | with_reducible apply swapCalls_tame | with_reducible apply releaseRec_tame | with_reducible refine tame_mk ?_ rfl rfl rfl rfl rfl ⟨rfl, rfl⟩ ?_ ?_ ?_ ?_ | exact Nat.le_max_left _ _ | exact fun h => h

theorem storePending_tame {r : Fin 4} {req : Request} (h : Tame b s) : Tame b (storePending r req s) := by
  unfold storePending
  try lift_lets
  repeat' first
    | with_reducible assumption | split
    | (intro x; first
      | (have hx : Tame b x := by
          subst x
          repeat' first
            | with_reducible assumption | split | with_reducible apply setRec_tame | with_reducible apply callEvent_tame | with_reducible refine tame_mk ?_ rfl rfl rfl rfl rfl ⟨rfl, rfl⟩ ?_ ?_ ?_ ?_ | exact Nat.le_max_left _ _ | exact fun h => h
         clear_value x)
      | subst x | clear_value x | skip)
    | with_reducible apply setRec_tame | with_reducible apply callEvent_tame | with_reducible refine tame_mk ?_ rfl rfl rfl rfl rfl ⟨rfl, rfl⟩ ?_ ?_ ?_ ?_ | exact Nat.le_max_left _ _ | exact fun h => h

theorem callRequest_tame {r : Fin 4} {req : Request} (h : Tame b s) : Tame b (callRequest r req s) := by
  unfold callRequest
  repeat' first
    | with_reducible assumption | split | with_reducible apply storePending_tame | with_reducible apply takeRequest_tame | with_reducible refine tame_mk ?_ rfl rfl rfl rfl rfl ⟨rfl, rfl⟩ ?_ ?_ ?_ ?_ | exact Nat.le_max_left _ _ | exact fun h => h

theorem runPending_tame (h : Tame b s) : Tame b (runPending s) := by
  unfold runPending
  repeat' first
    | with_reducible assumption | split | with_reducible apply takeRequest_tame | with_reducible apply setRec_tame | refine foldl_tame (fun s x h => ?_) _ ?_ | with_reducible refine tame_mk ?_ rfl rfl rfl rfl rfl ⟨rfl, rfl⟩ ?_ ?_ ?_ ?_ | exact Nat.le_max_left _ _ | exact fun h => h

theorem accessoryAnswer_tame (h : Tame b s) : Tame b (accessoryAnswer s) := by
  unfold accessoryAnswer
  repeat' first
    | with_reducible assumption | split | with_reducible apply callRequest_tame | with_reducible apply answer_tame | with_reducible refine tame_mk ?_ rfl rfl rfl rfl rfl ⟨rfl, rfl⟩ ?_ ?_ ?_ ?_ | exact Nat.le_max_left _ _ | exact fun h => h

end Sys2Proof.Machine
end

