-- ==== Sys2Proof/Laws/TameMob.lean ====
section
/-! SUPPORT. Mobility, leaving service, shutdown and the end of a command: each operation keeps the limits and leaves the queue, the frame number and the resets alone. -/

set_option linter.unusedTactic false
set_option linter.unreachableTactic false

namespace Sys2Proof.Machine

variable {b s : State}

theorem sendSwitch_tame {n : Fin 13} (h : Tame b s) : Tame b (sendSwitch n s) := by
  unfold sendSwitch
  lift_lets
  intro x busy mine seg s1
  have h1 : Tame b s1 := by
    unfold s1
    split
    · exact tame_mk h rfl rfl rfl rfl rfl ⟨rfl, rfl⟩ id abandonSend_limits (Nat.le_max_left _ _) (Nat.le_max_left _ _)
    · exact h
  clear_value s1
  intro m s2
  have h2 : Tame b s2 := by
    unfold s2
    split
    · exact withdrawOpt_tame h1
    · exact h1
  clear_value s2
  intro s3
  have h3 : Tame b s3 := by
    unfold s3
    split
    · exact textSendAbandoned_tame h2
    · exact h2
  exact request_tame h3

theorem withdrawReport_tame (h : Tame b s) : Tame b (withdrawReport s) := by
  unfold withdrawReport
  repeat' first
    | with_reducible assumption | split | with_reducible apply withdrawOpt_tame | with_reducible refine tame_mk ?_ rfl rfl rfl rfl rfl ⟨rfl, rfl⟩ ?_ ?_ ?_ ?_ | exact Nat.le_max_left _ _ | exact fun h => h

theorem switchStart_tame {kind : SwKind} {st : SwState} {target : Fin 13} (h : Tame b s) :
    Tame b (switchStart kind st target s) := by
  unfold switchStart
  lift_lets
  intro m s1
  have h1 : Tame b s1 := tame_mk h rfl rfl rfl rfl rfl ⟨rfl, rfl⟩ id id (Nat.le_max_left _ _) (Nat.le_max_left _ _)
  clear_value s1
  intro s2
  have h2 : Tame b s2 := textSwitchStart_tame (withdrawReport_tame (clearCandidates_tame (pauseReload_tame (abortRound_tame h1))))
  clear_value s2
  exact sendSwitch_tame (tellSwitchStart_tame (s := { s2 with link := _ }) h2)

theorem endSwitch_tame (h : Tame b s) : Tame b (endSwitch s) := by
  unfold endSwitch
  try lift_lets
  repeat' first
    | with_reducible assumption | split
    | (intro x; first
      | (have hx : Tame b x := by
          subst x
          repeat' first
            | with_reducible assumption | split | with_reducible apply runPending_tame | with_reducible apply writeGaps_tame | with_reducible apply textSwitchEnd_tame | with_reducible apply processReload_tame | with_reducible apply considerReport_tame | with_reducible apply evaluateCandidates_tame | with_reducible refine tame_mk ?_ rfl rfl rfl rfl rfl ⟨rfl, rfl⟩ ?_ ?_ ?_ ?_ | exact Nat.le_max_left _ _ | exact fun h => h
         clear_value x)
      | subst x | clear_value x | skip)
    | with_reducible apply runPending_tame | with_reducible apply writeGaps_tame | with_reducible apply textSwitchEnd_tame | with_reducible apply processReload_tame | with_reducible apply considerReport_tame | with_reducible apply evaluateCandidates_tame | with_reducible refine tame_mk ?_ rfl rfl rfl rfl rfl ⟨rfl, rfl⟩ ?_ ?_ ?_ ?_ | exact Nat.le_max_left _ _ | exact fun h => h

theorem leaveService_tame {cause : Cause} {told : Bool} (h : Tame b s) : Tame b (leaveService cause told s) := by
  unfold leaveService
  try lift_lets
  repeat' first
    | with_reducible assumption | split
    | (intro x; first
      | (have hx : Tame b x := by
          subst x
          repeat' first
            | with_reducible assumption | split | with_reducible apply unlivePubs_tame | with_reducible apply textLost_tame | with_reducible apply localReleaseAll_tame | with_reducible apply setConn_tame | with_reducible apply raisePrimary_tame | with_reducible apply endSwitch_tame | with_reducible apply restartRound_tame | with_reducible refine tame_mk ?_ rfl rfl rfl rfl rfl ⟨rfl, rfl⟩ ?_ ?_ ?_ ?_ | exact Nat.le_max_left _ _ | exact fun h => h
         clear_value x)
      | subst x | clear_value x | skip)
    | with_reducible apply unlivePubs_tame | with_reducible apply textLost_tame | with_reducible apply localReleaseAll_tame | with_reducible apply setConn_tame | with_reducible apply raisePrimary_tame | with_reducible apply endSwitch_tame | with_reducible apply restartRound_tame | with_reducible refine tame_mk ?_ rfl rfl rfl rfl rfl ⟨rfl, rfl⟩ ?_ ?_ ?_ ?_ | exact Nat.le_max_left _ _ | exact fun h => h

theorem startReestablish_tame {fromFallback : Bool} (h : Tame b s) : Tame b (startReestablish fromFallback s) := by
  unfold startReestablish
  try lift_lets
  repeat' first
    | with_reducible assumption | split
    | (intro x; first
      | (have hx : Tame b x := by
          subst x
          repeat' first
            | with_reducible assumption | split | with_reducible apply leaveService_tame | with_reducible apply endSwitch_tame | with_reducible apply sendSwitch_tame | with_reducible apply pauseReload_tame | with_reducible apply switchStart_tame | with_reducible refine tame_mk ?_ rfl rfl rfl rfl rfl ⟨rfl, rfl⟩ ?_ ?_ ?_ ?_ | exact Nat.le_max_left _ _ | exact fun h => h
         clear_value x)
      | subst x | clear_value x | skip)
    | with_reducible apply leaveService_tame | with_reducible apply endSwitch_tame | with_reducible apply sendSwitch_tame | with_reducible apply pauseReload_tame | with_reducible apply switchStart_tame | with_reducible refine tame_mk ?_ rfl rfl rfl rfl rfl ⟨rfl, rfl⟩ ?_ ?_ ?_ ?_ | exact Nat.le_max_left _ _ | exact fun h => h

theorem loseServing_tame {fromFallback : Bool} (h : Tame b s) : Tame b (loseServing fromFallback s) := by
  unfold loseServing
  repeat' first
    | with_reducible assumption | split | with_reducible apply startReestablish_tame | with_reducible apply setConn_tame | with_reducible refine tame_mk ?_ rfl rfl rfl rfl rfl ⟨rfl, rfl⟩ ?_ ?_ ?_ ?_ | exact Nat.le_max_left _ _ | exact fun h => h

theorem slotEvent_tame {n : Fin 13} {old : State} (h : Tame b s) : Tame b (slotEvent n old s) := by
  unfold slotEvent
  lift_lets
  intro lost t u
  have ht : Tame b t := by
    unfold t
    split
    · exact endCandidates_tame (sortCandidates_tame h)
    · exact sortCandidates_tame h
  clear_value t lost
  have hu : Tame b u := mirrorSlots_tame ht
  clear_value u
  split
  · exact loseServing_tame hu
  · exact hu

theorem reselected_tame {target : Fin 13} {old : Option (Fin 13)} (h : Tame b s) : Tame b (reselected target old s) := by
  unfold reselected
  try lift_lets
  repeat' first
    | with_reducible assumption | split
    | (intro x; first
      | (have hx : Tame b x := by
          subst x
          repeat' first
            | with_reducible assumption | split | with_reducible apply takeServing_tame | with_reducible apply raise_tame | with_reducible apply areaCheck_tame | with_reducible refine tame_mk ?_ rfl rfl rfl rfl rfl ⟨rfl, rfl⟩ ?_ ?_ ?_ ?_ | exact Nat.le_max_left _ _ | exact fun h => h
         clear_value x)
      | subst x | clear_value x | skip)
    | with_reducible apply takeServing_tame | with_reducible apply raise_tame | with_reducible apply areaCheck_tame | with_reducible refine tame_mk ?_ rfl rfl rfl rfl rfl ⟨rfl, rfl⟩ ?_ ?_ ?_ ?_ | exact Nat.le_max_left _ _ | exact fun h => h

theorem camped_tame {target : Fin 13} (h : Tame b s) : Tame b (camped target s) := by
  unfold camped
  try lift_lets
  repeat' first
    | with_reducible assumption | split
    | (intro x; first
      | (have hx : Tame b x := by
          subst x
          repeat' first
            | with_reducible assumption | split | with_reducible apply setConnQuiet_tame | with_reducible apply takeServing_tame | with_reducible apply raise_tame | with_reducible apply startWaiting_tame | with_reducible apply areaCheck_tame | with_reducible refine tame_mk ?_ rfl rfl rfl rfl rfl ⟨rfl, rfl⟩ ?_ ?_ ?_ ?_ | exact Nat.le_max_left _ _ | exact fun h => h
         clear_value x)
      | subst x | clear_value x | skip)
    | with_reducible apply setConnQuiet_tame | with_reducible apply takeServing_tame | with_reducible apply raise_tame | with_reducible apply startWaiting_tame | with_reducible apply areaCheck_tame | with_reducible refine tame_mk ?_ rfl rfl rfl rfl rfl ⟨rfl, rfl⟩ ?_ ?_ ?_ ?_ | exact Nat.le_max_left _ _ | exact fun h => h

theorem switchDone_tame {target : Fin 13} {detail : Word} (h : Tame b s) : Tame b (switchDone target detail s) := by
  unfold switchDone
  repeat' first
    | with_reducible assumption | split | with_reducible apply endSwitch_tame | with_reducible apply raise_tame | with_reducible refine tame_mk ?_ rfl rfl rfl rfl rfl ⟨rfl, rfl⟩ ?_ ?_ ?_ ?_ | exact Nat.le_max_left _ _ | exact fun h => h

theorem handedOver_tame {target : Fin 13} {old : Option (Fin 13)} {area : Option Half} {live : Bool} (h : Tame b s) : Tame b (handedOver target old area live s) := by
  unfold handedOver
  try lift_lets
  repeat' first
    | with_reducible assumption | split
    | (intro x; first
      | (have hx : Tame b x := by
          subst x
          repeat' first
            | with_reducible assumption | split | with_reducible apply takeServing_tame | with_reducible apply switchDone_tame | with_reducible refine tame_mk ?_ rfl rfl rfl rfl rfl ⟨rfl, rfl⟩ ?_ ?_ ?_ ?_ | exact Nat.le_max_left _ _ | exact fun h => h
         clear_value x)
      | subst x | clear_value x | skip)
    | with_reducible apply takeServing_tame | with_reducible apply switchDone_tame | with_reducible refine tame_mk ?_ rfl rfl rfl rfl rfl ⟨rfl, rfl⟩ ?_ ?_ ?_ ?_ | exact Nat.le_max_left _ _ | exact fun h => h

theorem rebuilt_tame {target : Fin 13} {area : Option Half} {live : Bool} (h : Tame b s) : Tame b (rebuilt target area live s) := by
  unfold rebuilt
  try lift_lets
  repeat' first
    | with_reducible assumption | split
    | (intro x; first
      | (have hx : Tame b x := by
          subst x
          repeat' first
            | with_reducible assumption | split | with_reducible apply takeServing_tame | with_reducible apply switchDone_tame | with_reducible apply serveConnected_tame | with_reducible apply setConnQuiet_tame | with_reducible refine tame_mk ?_ rfl rfl rfl rfl rfl ⟨rfl, rfl⟩ ?_ ?_ ?_ ?_ | exact Nat.le_max_left _ _ | exact fun h => h
         clear_value x)
      | subst x | clear_value x | skip)
    | with_reducible apply takeServing_tame | with_reducible apply switchDone_tame | with_reducible apply serveConnected_tame | with_reducible apply setConnQuiet_tame | with_reducible refine tame_mk ?_ rfl rfl rfl rfl rfl ⟨rfl, rfl⟩ ?_ ?_ ?_ ?_ | exact Nat.le_max_left _ _ | exact fun h => h

theorem published_tame {kind : PubKind} {live : Bool} (h : Tame b s) : Tame b (published kind live s) := by
  unfold published
  repeat' first
    | with_reducible assumption | split | with_reducible apply camped_tame | with_reducible apply takeServing_tame | with_reducible apply reselected_tame | with_reducible apply handedOver_tame | with_reducible apply rebuilt_tame | with_reducible refine tame_mk ?_ rfl rfl rfl rfl rfl ⟨rfl, rfl⟩ ?_ ?_ ?_ ?_ | exact Nat.le_max_left _ _ | exact fun h => h

theorem publish_tame {kind : PubKind} {images : List Image} (h : Tame b s) : Tame b (publish kind images s) := by
  unfold publish
  have k := makePub_tame (kind := kind) (images := images) h
  split
  · rename_i t eq
    rw [eq] at k
    exact published_tame k
  · rename_i t eq
    rw [eq] at k
    exact k

theorem reselect_tame {t : Fin 13} (h : Tame b s) : Tame b (reselect t s) := by
  unfold reselect
  try lift_lets
  repeat' first
    | with_reducible assumption | split
    | (intro x; first
      | (have hx : Tame b x := by
          subst x
          repeat' first
            | with_reducible assumption | split | with_reducible apply publish_tame | with_reducible apply reselected_tame | with_reducible apply dirtyServing_tame | with_reducible refine tame_mk ?_ rfl rfl rfl rfl rfl ⟨rfl, rfl⟩ ?_ ?_ ?_ ?_ | exact Nat.le_max_left _ _ | exact fun h => h
         clear_value x)
      | subst x | clear_value x | skip)
    | with_reducible apply publish_tame | with_reducible apply reselected_tame | with_reducible apply dirtyServing_tame | with_reducible refine tame_mk ?_ rfl rfl rfl rfl rfl ⟨rfl, rfl⟩ ?_ ?_ ?_ ?_ | exact Nat.le_max_left _ _ | exact fun h => h

theorem camp_tame {t : Fin 13} (h : Tame b s) : Tame b (camp t s) := by
  unfold camp
  repeat' first
    | with_reducible assumption | split | with_reducible apply publish_tame | with_reducible apply camped_tame | with_reducible apply dirtyServing_tame | with_reducible refine tame_mk ?_ rfl rfl rfl rfl rfl ⟨rfl, rfl⟩ ?_ ?_ ?_ ?_ | exact Nat.le_max_left _ _ | exact fun h => h

theorem commit_tame {w : SwRec} {state : Option ConnState} {kind : Option Half → PubKind} (h : Tame b s) : Tame b (commit w state kind s) := by
  unfold commit
  try lift_lets
  repeat' first
    | with_reducible assumption | split
    | (intro x; first
      | (have hx : Tame b x := by
          subst x
          repeat' first
            | with_reducible assumption | split | with_reducible apply publish_tame | with_reducible apply gapsCarried_tame | with_reducible apply published_tame | with_reducible apply dirtyServing_tame | with_reducible refine tame_mk ?_ rfl rfl rfl rfl rfl ⟨rfl, rfl⟩ ?_ ?_ ?_ ?_ | exact Nat.le_max_left _ _ | exact fun h => h
         clear_value x)
      | subst x | clear_value x | skip)
    | with_reducible apply publish_tame | with_reducible apply gapsCarried_tame | with_reducible apply published_tame | with_reducible apply dirtyServing_tame | with_reducible refine tame_mk ?_ rfl rfl rfl rfl rfl ⟨rfl, rfl⟩ ?_ ?_ ?_ ?_ | exact Nat.le_max_left _ _ | exact fun h => h

theorem commitHandover_tame {w : SwRec} (h : Tame b s) : Tame b (commitHandover w s) := by
  unfold commitHandover
  repeat' first
    | with_reducible assumption | split | with_reducible apply commit_tame | with_reducible refine tame_mk ?_ rfl rfl rfl rfl rfl ⟨rfl, rfl⟩ ?_ ?_ ?_ ?_ | exact Nat.le_max_left _ _ | exact fun h => h

theorem commitReestablish_tame {w : SwRec} (h : Tame b s) : Tame b (commitReestablish w s) := by
  unfold commitReestablish
  repeat' first
    | with_reducible assumption | split | with_reducible apply commit_tame | with_reducible refine tame_mk ?_ rfl rfl rfl rfl rfl ⟨rfl, rfl⟩ ?_ ?_ ?_ ?_ | exact Nat.le_max_left _ _ | exact fun h => h

theorem forcedReselect_tame (h : Tame b s) : Tame b (forcedReselect s) := by
  unfold forcedReselect
  repeat' first
    | with_reducible assumption | split | with_reducible apply reselect_tame | with_reducible apply leaveService_tame | with_reducible refine tame_mk ?_ rfl rfl rfl rfl rfl ⟨rfl, rfl⟩ ?_ ?_ ?_ ?_ | exact Nat.le_max_left _ _ | exact fun h => h

theorem handoverFailed_tame {w : SwRec} (h : Tame b s) : Tame b (handoverFailed w s) := by
  unfold handoverFailed
  repeat' first
    | with_reducible assumption | split | with_reducible apply raise_tame | with_reducible refine tame_mk ?_ rfl rfl rfl rfl rfl ⟨rfl, rfl⟩ ?_ ?_ ?_ ?_ | exact Nat.le_max_left _ _ | exact fun h => h

theorem beginFallback_tame {w : SwRec} (h : Tame b s) : Tame b (beginFallback w s) := by
  unfold beginFallback
  try lift_lets
  repeat' first
    | with_reducible assumption | split
    | (intro x; first
      | (have hx : Tame b x := by
          subst x
          repeat' first
            | with_reducible assumption | split | with_reducible apply sendSwitch_tame | with_reducible refine tame_mk ?_ rfl rfl rfl rfl rfl ⟨rfl, rfl⟩ ?_ ?_ ?_ ?_ | exact Nat.le_max_left _ _ | exact fun h => h
         clear_value x)
      | subst x | clear_value x | skip)
    | with_reducible apply sendSwitch_tame | with_reducible refine tame_mk ?_ rfl rfl rfl rfl rfl ⟨rfl, rfl⟩ ?_ ?_ ?_ ?_ | exact Nat.le_max_left _ _ | exact fun h => h

theorem fallbackFailed_tame {w : SwRec} (h : Tame b s) : Tame b (fallbackFailed w s) := by
  unfold fallbackFailed
  try lift_lets
  repeat' first
    | with_reducible assumption | split
    | (intro x; first
      | (have hx : Tame b x := by
          subst x
          repeat' first
            | with_reducible assumption | split | with_reducible apply handoverFailed_tame | with_reducible apply loseServing_tame | with_reducible apply camped_tame | with_reducible apply forcedReselect_tame | with_reducible apply endSwitch_tame | with_reducible refine tame_mk ?_ rfl rfl rfl rfl rfl ⟨rfl, rfl⟩ ?_ ?_ ?_ ?_ | exact Nat.le_max_left _ _ | exact fun h => h
         clear_value x)
      | subst x | clear_value x | skip)
    | with_reducible apply handoverFailed_tame | with_reducible apply loseServing_tame | with_reducible apply camped_tame | with_reducible apply forcedReselect_tame | with_reducible apply endSwitch_tame | with_reducible refine tame_mk ?_ rfl rfl rfl rfl rfl ⟨rfl, rfl⟩ ?_ ?_ ?_ ?_ | exact Nat.le_max_left _ _ | exact fun h => h

theorem refuseOrder_tame (h : Tame b s) : Tame b (refuseOrder s) := by
  unfold refuseOrder
  repeat' first
    | with_reducible assumption | split | with_reducible apply emitMsg_tame | with_reducible refine tame_mk ?_ rfl rfl rfl rfl rfl ⟨rfl, rfl⟩ ?_ ?_ ?_ ?_ | exact Nat.le_max_left _ _ | exact fun h => h

theorem orderDue_tame (h : Tame b s) : Tame b (orderDue s) := by
  unfold orderDue
  repeat' first
    | with_reducible assumption | split | with_reducible apply switchStart_tame | with_reducible apply refuseOrder_tame | with_reducible refine tame_mk ?_ rfl rfl rfl rfl rfl ⟨rfl, rfl⟩ ?_ ?_ ?_ ?_ | exact Nat.le_max_left _ _ | exact fun h => h

theorem clearStale_tame (h : Tame b s) : Tame b (clearStale s) := by
  unfold clearStale
  try lift_lets
  repeat' first
    | with_reducible assumption | split
    | (intro x; first
      | (have hx : Tame b x := by
          subst x
          repeat' first
            | with_reducible assumption | split | with_reducible apply orderDue_tame | with_reducible apply startReestablish_tame | with_reducible refine tame_mk ?_ rfl rfl rfl rfl rfl ⟨rfl, rfl⟩ ?_ ?_ ?_ ?_ | exact Nat.le_max_left _ _ | exact fun h => h
         clear_value x)
      | subst x | clear_value x | skip)
    | with_reducible apply orderDue_tame | with_reducible apply startReestablish_tame | with_reducible refine tame_mk ?_ rfl rfl rfl rfl rfl ⟨rfl, rfl⟩ ?_ ?_ ?_ ?_ | exact Nat.le_max_left _ _ | exact fun h => h

theorem switchOutcome_tame {synced : Bool} (h : Tame b s) : Tame b (switchOutcome synced s) := by
  unfold switchOutcome
  try lift_lets
  repeat' first
    | with_reducible assumption | split
    | (intro x; first
      | (have hx : Tame b x := by
          subst x
          repeat' first
            | with_reducible assumption | split | with_reducible apply clearStale_tame | with_reducible apply emitMsg_tame | with_reducible apply beginFallback_tame | with_reducible apply endSwitch_tame | with_reducible apply handoverFailed_tame | with_reducible apply fallbackFailed_tame | with_reducible apply leaveService_tame | with_reducible refine tame_mk ?_ rfl rfl rfl rfl rfl ⟨rfl, rfl⟩ ?_ ?_ ?_ ?_ | exact Nat.le_max_left _ _ | exact fun h => h
         clear_value x)
      | subst x | clear_value x | skip)
    | with_reducible apply clearStale_tame | with_reducible apply emitMsg_tame | with_reducible apply beginFallback_tame | with_reducible apply endSwitch_tame | with_reducible apply handoverFailed_tame | with_reducible apply fallbackFailed_tame | with_reducible apply leaveService_tame | with_reducible refine tame_mk ?_ rfl rfl rfl rfl rfl ⟨rfl, rfl⟩ ?_ ?_ ?_ ?_ | exact Nat.le_max_left _ _ | exact fun h => h

theorem dropSwitch_tame (h : Tame b s) : Tame b (dropSwitch s) := by
  unfold dropSwitch
  try lift_lets
  repeat' first
    | with_reducible assumption | split
    | (intro x; first
      | (have hx : Tame b x := by
          subst x
          repeat' first
            | with_reducible assumption | split | with_reducible apply dropOrder_tame | with_reducible apply endSwitch_tame | with_reducible apply unlivePubs_tame | with_reducible refine tame_mk ?_ rfl rfl rfl rfl rfl ⟨rfl, rfl⟩ ?_ ?_ ?_ ?_ | exact Nat.le_max_left _ _ | exact fun h => h
         clear_value x)
      | subst x | clear_value x | skip)
    | with_reducible apply dropOrder_tame | with_reducible apply endSwitch_tame | with_reducible apply unlivePubs_tame | with_reducible refine tame_mk ?_ rfl rfl rfl rfl rfl ⟨rfl, rfl⟩ ?_ ?_ ?_ ?_ | exact Nat.le_max_left _ _ | exact fun h => h

theorem requestShutdown_tame {cause : Cause} (h : Tame b s) : Tame b (requestShutdown cause s) := by
  unfold requestShutdown
  try lift_lets
  repeat' first
    | with_reducible assumption | split
    | (intro x; first
      | (have hx : Tame b x := by
          subst x
          repeat' first
            | with_reducible assumption | split | with_reducible apply abandonAll_tame | with_reducible apply endSend_tame | with_reducible apply shutdownCalls_tame | with_reducible apply unlivePubs_tame | with_reducible apply dropSwitch_tame | with_reducible apply emitMsg_tame | with_reducible refine tame_mk ?_ rfl rfl rfl rfl rfl ⟨rfl, rfl⟩ ?_ ?_ ?_ ?_ | exact Nat.le_max_left _ _ | exact fun h => h
         clear_value x)
      | subst x | clear_value x | skip)
    | with_reducible apply abandonAll_tame | with_reducible apply endSend_tame | with_reducible apply shutdownCalls_tame | with_reducible apply unlivePubs_tame | with_reducible apply dropSwitch_tame | with_reducible apply emitMsg_tame | with_reducible refine tame_mk ?_ rfl rfl rfl rfl rfl ⟨rfl, rfl⟩ ?_ ?_ ?_ ?_ | exact Nat.le_max_left _ _ | exact fun h => h

theorem emptyQueue_tame (h : Tame b s) : Tame b (emptyQueue s) := by
  unfold emptyQueue
  have k := h.link
  refine tame_mk h rfl rfl rfl rfl rfl ⟨rfl, rfl⟩ id (fun _ => ⟨?_, k.2⟩) (Nat.le_max_left _ _)
    (Nat.le_max_left _ _)
  simp only [List.length_map]
  exact Nat.le_trans (List.length_filter_le _ _) k.1

theorem shutdownEnd_tame (h : Tame b s) : Tame b (shutdownEnd s) := by
  unfold shutdownEnd
  repeat' first
    | with_reducible assumption | split | with_reducible apply emptyQueue_tame | with_reducible apply setConn_tame | with_reducible refine tame_mk ?_ rfl rfl rfl rfl rfl ⟨rfl, rfl⟩ ?_ ?_ ?_ ?_ | exact Nat.le_max_left _ _ | exact fun h => h

theorem resetJobs_tame (h : Tame b s) : Tame b (resetJobs s) := by
  unfold resetJobs
  have d := discardReads_tame (p := ReadFor.isInternal) h
  generalize discardReads ReadFor.isInternal s = t at d
  exact tame_mk d rfl rfl rfl rfl rfl ⟨rfl, rfl⟩ (fun l => ⟨l.1, l.2.1, l.2.2.1, (hush_reads _).trans_le l.2.2.2.1, l.2.2.2.2⟩)
    (fun _ => ⟨Nat.zero_le _, Nat.zero_lt_succ _⟩) (Nat.zero_le _) (Nat.zero_le _)

theorem wakeMemory_tame (h : Tame b s) : Tame b (wakeMemory s) := by
  unfold wakeMemory
  repeat' first
    | with_reducible assumption | split | with_reducible apply presentExit_tame | with_reducible apply liftSleepHold_tame | with_reducible refine tame_mk ?_ rfl rfl rfl rfl rfl ⟨rfl, rfl⟩ ?_ ?_ ?_ ?_ | exact Nat.le_max_left _ _ | exact fun h => h

theorem unbindEnd_tame (h : Tame b s) : Tame b (unbindEnd s) := by
  unfold unbindEnd
  have t : Tame b (resetJobs { s with
      mem := endForce s.mem, bind := { s.bind with ending := true, unbindTimer := .stopped, noDetach := false } }) :=
    resetJobs_tame (tame_mk h rfl rfl rfl rfl rfl ⟨endForce_memState _, rfl⟩ endForce_limits id (Nat.le_max_left _ _) (Nat.le_max_left _ _))
  generalize resetJobs _ = t' at t
  dsimp only
  refine wakeMemory_tame ?_
  split
  · exact emitWrite_tame t
  · exact waitActs_tame t

theorem setCounts_tame {f : Fin 13 → Nat} (h : Tame b s) : Tame b (setCounts f s) := h

theorem roundReselect_tame (h : Tame b s) : Tame b (roundReselect s) := by
  unfold roundReselect
  try lift_lets
  repeat' first
    | with_reducible assumption | split
    | (intro x; first
      | (have hx : Tame b x := by
          subst x
          repeat' first
            | with_reducible assumption | split | with_reducible apply camped_tame | with_reducible apply setCounts_tame | with_reducible apply reselect_tame | with_reducible refine tame_mk ?_ rfl rfl rfl rfl rfl ⟨rfl, rfl⟩ ?_ ?_ ?_ ?_ | exact Nat.le_max_left _ _ | exact fun h => h
         clear_value x)
      | subst x | clear_value x | skip)
    | with_reducible apply camped_tame | with_reducible apply setCounts_tame | with_reducible apply reselect_tame | with_reducible refine tame_mk ?_ rfl rfl rfl rfl rfl ⟨rfl, rfl⟩ ?_ ?_ ?_ ?_ | exact Nat.le_max_left _ _ | exact fun h => h

theorem reportRound_tame (h : Tame b s) : Tame b (reportRound s) := by
  unfold reportRound
  try lift_lets
  repeat' first
    | with_reducible assumption | split
    | (intro x; first
      | (have hx : Tame b x := by
          subst x
          repeat' first
            | with_reducible assumption | split | with_reducible apply roundReselect_tame | with_reducible apply camp_tame | with_reducible apply camped_tame | with_reducible apply areaCheck_tame | with_reducible refine tame_mk ?_ rfl rfl rfl rfl rfl ⟨rfl, rfl⟩ ?_ ?_ ?_ ?_ | exact Nat.le_max_left _ _ | exact fun h => h
         clear_value x)
      | subst x | clear_value x | skip)
    | with_reducible apply roundReselect_tame | with_reducible apply camp_tame | with_reducible apply camped_tame | with_reducible apply areaCheck_tame | with_reducible refine tame_mk ?_ rfl rfl rfl rfl rfl ⟨rfl, rfl⟩ ?_ ?_ ?_ ?_ | exact Nat.le_max_left _ _ | exact fun h => h

theorem beginRound_tame (h : Tame b s) : Tame b (beginRound s) := by
  unfold beginRound
  try lift_lets
  repeat' first
    | with_reducible assumption | split
    | (intro x; first
      | (have hx : Tame b x := by
          subst x
          repeat' first
            | with_reducible assumption | split | with_reducible refine tame_mk ?_ rfl rfl rfl rfl rfl ⟨rfl, rfl⟩ ?_ ?_ ?_ ?_ | exact Nat.le_max_left _ _ | exact fun h => h
         clear_value x)
      | subst x | clear_value x | skip)
    | with_reducible refine tame_mk ?_ rfl rfl rfl rfl rfl ⟨rfl, rfl⟩ ?_ ?_ ?_ ?_ | exact Nat.le_max_left _ _ | exact fun h => h

theorem pumpRound_tame {n : Nat} (h : Tame b s) : Tame b (pumpRound n s) := by
  induction n generalizing s with
  | zero => exact h
  | succ n ih =>
    unfold pumpRound
    repeat' split
    · exact h
    · exact ih (beginRound_tame h)
    · exact h
    · exact h
    · exact ih (reportRound_tame h)
    · exact h
    · exact startMeasure_tame h

theorem measureOutcome_tame {level : Option Int} (h : Tame b s) : Tame b (measureOutcome level s) := by
  unfold measureOutcome
  split
  · have k : Tame b { s with cells := { s.cells with residue := false } } := h
    generalize { s with cells := _ } = t at k
    dsimp only
    split
    · exact sendMeasure_tame k
    · exact k
  · split
    · rename_i n _ _
      have k : Tame b (setSlot n (fun x => match level with
          | some l => x.addSample l s.frame
          | none => x.miss) s) := setSlot_tame h
      have m := roundMoves_tame k
      dsimp only
      generalize roundMoves _ = t at m
      split
      · exact mirror_tame (s := { t with cells := _ }) m
      · exact slotEvent_tame (s := { t with cells := _ }) m
    · exact h

theorem callSent_tame {id : Nat} (h : Tame b s) : Tame b (callSent id s) := by
  unfold callSent
  repeat' first
    | with_reducible assumption | split | with_reducible apply setRec_tame | with_reducible refine tame_mk ?_ rfl rfl rfl rfl rfl ⟨rfl, rfl⟩ ?_ ?_ ?_ ?_ | exact Nat.le_max_left _ _ | exact fun h => h

theorem callDropped_tame {id : Nat} (h : Tame b s) : Tame b (callDropped id s) := by
  unfold callDropped
  repeat' first
    | with_reducible assumption | split | with_reducible apply localReleaseOne_tame | with_reducible apply exchangeFailed_tame | with_reducible apply freeRec_tame | with_reducible refine tame_mk ?_ rfl rfl rfl rfl rfl ⟨rfl, rfl⟩ ?_ ?_ ?_ ?_ | exact Nat.le_max_left _ _ | exact fun h => h

theorem detachSent_tame (h : Tame b s) : Tame b (detachSent s) := by
  unfold detachSent
  try lift_lets
  repeat' first
    | with_reducible assumption | split
    | (intro x; first
      | (have hx : Tame b x := by
          subst x
          repeat' first
            | with_reducible assumption | split | with_reducible apply shutdownEnd_tame | with_reducible apply unbindEnd_tame | with_reducible refine tame_mk ?_ rfl rfl rfl rfl rfl ⟨rfl, rfl⟩ ?_ ?_ ?_ ?_ | exact Nat.le_max_left _ _ | exact fun h => h
         clear_value x)
      | subst x | clear_value x | skip)
    | with_reducible apply shutdownEnd_tame | with_reducible apply unbindEnd_tame | with_reducible refine tame_mk ?_ rfl rfl rfl rfl rfl ⟨rfl, rfl⟩ ?_ ?_ ?_ ?_ | exact Nat.le_max_left _ _ | exact fun h => h

theorem toldSent_tame {q : QMsg} (h : Tame b s) : Tame b (toldSent q s) := by
  unfold toldSent
  try lift_lets
  repeat' first
    | with_reducible assumption | split
    | (intro x; first
      | (have hx : Tame b x := by
          subst x
          repeat' first
            | with_reducible assumption | split | with_reducible apply activity_tame | with_reducible apply commitHandover_tame | with_reducible apply detachSent_tame | with_reducible apply setSend_tame | with_reducible apply callSent_tame | with_reducible refine tame_mk ?_ rfl rfl rfl rfl rfl ⟨rfl, rfl⟩ ?_ ?_ ?_ ?_ | exact Nat.le_max_left _ _ | exact fun h => h
         clear_value x)
      | subst x | clear_value x | skip)
    | with_reducible apply activity_tame | with_reducible apply commitHandover_tame | with_reducible apply detachSent_tame | with_reducible apply setSend_tame | with_reducible apply callSent_tame | with_reducible refine tame_mk ?_ rfl rfl rfl rfl rfl ⟨rfl, rfl⟩ ?_ ?_ ?_ ?_ | exact Nat.le_max_left _ _ | exact fun h => h

theorem toldDropped_tame {q : QMsg} (h : Tame b s) : Tame b (toldDropped q s) := by
  unfold toldDropped
  repeat' first
    | with_reducible assumption | split | with_reducible apply considerReport_tame | with_reducible apply beginFallback_tame | with_reducible apply leaveService_tame | with_reducible apply connectFail_tame | with_reducible apply areaServed_tame | with_reducible apply shutdownEnd_tame | with_reducible apply segmentFailed_tame | with_reducible apply callDropped_tame | with_reducible refine tame_mk ?_ rfl rfl rfl rfl rfl ⟨rfl, rfl⟩ ?_ ?_ ?_ ?_ | exact Nat.le_max_left _ _ | exact fun h => h

theorem pumpRefused_tame {n : Nat} (h : Tame b s) : Tame b (pumpRefused n s) := by
  induction n generalizing s with
  | zero => exact h
  | succ n ih =>
    unfold pumpRefused
    split
    · exact h
    · exact ih (toldDropped_tame h)

theorem linkDown_tame (h : Tame b s) : Tame b (linkDown s) := by
  unfold linkDown
  exact linkOut_tame (tame_mk h rfl rfl rfl rfl rfl ⟨rfl, rfl⟩ id (fun _ => ⟨Nat.zero_le _, Nat.zero_lt_succ _⟩) (Nat.le_max_left _ _)
    (Nat.le_max_left _ _))

theorem noServiceWrite_tame (h : Tame b s) : Tame b (noServiceWrite s) := by
  unfold noServiceWrite
  repeat' first
    | with_reducible assumption | split | with_reducible apply planLineWrite_tame | with_reducible refine tame_mk ?_ rfl rfl rfl rfl rfl ⟨rfl, rfl⟩ ?_ ?_ ?_ ?_ | exact Nat.le_max_left _ _ | exact fun h => h

theorem connFault_tame (h : Tame b s) : Tame b (connFault s) := by
  unfold connFault
  repeat' first
    | with_reducible assumption | split | with_reducible apply noServiceWrite_tame | with_reducible apply unlivePubs_tame | with_reducible apply shutdownEnd_tame | with_reducible apply leaveService_tame | with_reducible refine tame_mk ?_ rfl rfl rfl rfl rfl ⟨rfl, rfl⟩ ?_ ?_ ?_ ?_ | exact Nat.le_max_left _ _ | exact fun h => h

theorem declareFault_tame {op : RadioOp} (h : Tame b s) : Tame b (declareFault op s) := by
  unfold declareFault
  try lift_lets
  repeat' first
    | with_reducible assumption | split
    | (intro x; first
      | (have hx : Tame b x := by
          subst x
          repeat' first
            | with_reducible assumption | split | with_reducible apply connFault_tame | with_reducible apply abortRound_tame | with_reducible apply linkDown_tame | with_reducible apply endSwitch_tame | with_reducible apply unlivePubs_tame | with_reducible apply raisePrimary_tame | with_reducible refine tame_mk ?_ rfl rfl rfl rfl rfl ⟨rfl, rfl⟩ ?_ ?_ ?_ ?_ | exact Nat.le_max_left _ _ | exact fun h => h
         clear_value x)
      | subst x | clear_value x | skip)
    | with_reducible apply connFault_tame | with_reducible apply abortRound_tame | with_reducible apply linkDown_tame | with_reducible apply endSwitch_tame | with_reducible apply unlivePubs_tame | with_reducible apply raisePrimary_tame | with_reducible refine tame_mk ?_ rfl rfl rfl rfl rfl ⟨rfl, rfl⟩ ?_ ?_ ?_ ?_ | exact Nat.le_max_left _ _ | exact fun h => h

theorem segmentIn_tame {g : Segment} (h : Tame b s) : Tame b (segmentIn g s) := by
  unfold segmentIn
  repeat' first
    | with_reducible assumption | split | with_reducible apply checkSegment_tame | with_reducible apply rouse_tame | with_reducible refine tame_mk ?_ rfl rfl rfl rfl rfl ⟨rfl, rfl⟩ ?_ ?_ ?_ ?_ | exact Nat.le_max_left _ _ | exact fun h => h

theorem pumpArrivals_tame {l : List Segment} (h : Tame b s) : Tame b (pumpArrivals l s) := by
  induction l generalizing s with
  | nil => exact h
  | cons g rest ih =>
    unfold pumpArrivals
    split
    · exact h
    · exact ih (segmentIn_tame (tame_mk h rfl rfl rfl rfl rfl ⟨rfl, rfl⟩ id id (Nat.le_max_left _ _) (Nat.le_max_left _ _)))

theorem pumpText_tame (h : Tame b s) : Tame b (pumpText s) := by
  unfold pumpText
  repeat' first
    | with_reducible assumption | split | with_reducible apply beginSend_tame | with_reducible apply camped_tame | with_reducible apply addPurpose_tame | with_reducible refine tame_mk ?_ rfl rfl rfl rfl rfl ⟨rfl, rfl⟩ ?_ ?_ ?_ ?_ | exact Nat.le_max_left _ _ | exact fun h => h

theorem pumpIdle_tame (h : Tame b s) : Tame b (pumpIdle s) := by
  unfold pumpIdle
  repeat' first
    | with_reducible assumption | split | with_reducible refine tame_mk ?_ rfl rfl rfl rfl rfl ⟨rfl, rfl⟩ ?_ ?_ ?_ ?_ | exact Nat.le_max_left _ _ | exact fun h => h

theorem pumpShutdown_tame (h : Tame b s) : Tame b (pumpShutdown s) := by
  unfold pumpShutdown
  try lift_lets
  repeat' first
    | with_reducible assumption | split
    | (intro x; first
      | (have hx : Tame b x := by
          subst x
          repeat' first
            | with_reducible assumption | split | with_reducible apply shutdownEnd_tame | with_reducible apply unbindEnd_tame | with_reducible refine tame_mk ?_ rfl rfl rfl rfl rfl ⟨rfl, rfl⟩ ?_ ?_ ?_ ?_ | exact Nat.le_max_left _ _ | exact fun h => h
         clear_value x)
      | subst x | clear_value x | skip)
    | with_reducible apply shutdownEnd_tame | with_reducible apply unbindEnd_tame | with_reducible refine tame_mk ?_ rfl rfl rfl rfl rfl ⟨rfl, rfl⟩ ?_ ?_ ?_ ?_ | exact Nat.le_max_left _ _ | exact fun h => h

theorem pumpWindow_tame (h : Tame b s) : Tame b (pumpWindow s) := by
  unfold pumpWindow
  repeat' first
    | with_reducible assumption | split | with_reducible refine tame_mk ?_ rfl rfl rfl rfl rfl ⟨rfl, rfl⟩ ?_ ?_ ?_ ?_ | exact Nat.le_max_left _ _ | exact fun h => h

theorem finish_tame (h : Tame b s) : Tame b (finish s) :=
  closeMoment_tame (pumpWindow_tame (checkWake_tame (sendNext_tame (placeEvents_tame h))))

theorem settle_tame (h : Tame b s) : Tame b (settle s) := by
  unfold settle
  have h1 := writeBack_tame (pumpShutdown_tame (pumpRefused_tame (n := 8) h))
  have h2 := pumpRound_tame (n := 6) h1
  exact finish_tame (pumpIdle_tame (pumpRefused_tame (n := 8) (pumpText_tame (pumpArrivals_tame
    (l := (pumpRound 6 (writeBack (pumpShutdown (pumpRefused 8 s)))).texts.arrivals) h2))))

end Sys2Proof.Machine
end

