-- ==== Sys2Proof/Laws/TameExec.lean ====
section
/-! SUPPORT. The radio, call, speech and text commands: each operation keeps the limits and leaves the queue, the frame number and the resets alone. -/

set_option linter.unusedTactic false
set_option linter.unreachableTactic false

namespace Sys2Proof.Machine

variable {b s : State}

theorem quietCycle_tame (h : Tame b s) : Tame b (quietCycle s) := by
  unfold quietCycle
  try lift_lets
  repeat' first
    | with_reducible assumption | split
    | (intro x; first
      | (have hx : Tame b x := by
          subst x
          repeat' first
            | with_reducible assumption | split | with_reducible apply notePlan_tame | with_reducible refine tame_mk ?_ rfl rfl rfl rfl rfl ⟨rfl, rfl⟩ ?_ ?_ ?_ ?_ | exact Nat.le_max_left _ _ | exact fun h => h
         clear_value x)
      | subst x | clear_value x | skip)
    | with_reducible apply notePlan_tame | with_reducible refine tame_mk ?_ rfl rfl rfl rfl rfl ⟨rfl, rfl⟩ ?_ ?_ ?_ ?_ | exact Nat.le_max_left _ _ | exact fun h => h

theorem listenTaken_tame {o : Option ListenOutcome} (h : Tame b s) : Tame b (listenTaken o s) := by
  unfold listenTaken
  try lift_lets
  repeat' first
    | with_reducible assumption | split
    | (intro x; first
      | (have hx : Tame b x := by
          subst x
          repeat' first
            | with_reducible assumption | split | with_reducible apply quietCycle_tame | with_reducible apply addPurpose_tame | with_reducible apply primaryCause_tame | with_reducible apply rouse_tame | with_reducible apply notePlan_tame | with_reducible apply camped_tame | with_reducible apply wantRound_tame | with_reducible refine tame_mk ?_ rfl rfl rfl rfl rfl ⟨rfl, rfl⟩ ?_ ?_ ?_ ?_ | exact Nat.le_max_left _ _ | exact fun h => h
         clear_value x)
      | subst x | clear_value x | skip)
    | with_reducible apply quietCycle_tame | with_reducible apply addPurpose_tame | with_reducible apply primaryCause_tame | with_reducible apply rouse_tame | with_reducible apply notePlan_tame | with_reducible apply camped_tame | with_reducible apply wantRound_tame | with_reducible refine tame_mk ?_ rfl rfl rfl rfl rfl ⟨rfl, rfl⟩ ?_ ?_ ?_ ?_ | exact Nat.le_max_left _ _ | exact fun h => h

theorem listenOutcome_tame {o : Option ListenOutcome} (h : Tame b s) : Tame b (listenOutcome o s) := by
  unfold listenOutcome
  repeat' first
    | with_reducible assumption | split | with_reducible apply listenTaken_tame | with_reducible refine tame_mk ?_ rfl rfl rfl rfl rfl ⟨rfl, rfl⟩ ?_ ?_ ?_ ?_ | exact Nat.le_max_left _ _ | exact fun h => h

theorem sigSent_tame (h : Tame b s) : Tame b (sigSent s) := by
  unfold sigSent
  split
  · exact h
  · exact toldSent_tame (tame_mk h rfl rfl rfl rfl rfl ⟨rfl, rfl⟩ id
      (fun k => joinOutside_limits ⟨Nat.le_trans (List.length_filter_le _ _) k.1, k.2⟩)
      (Nat.le_max_left _ _) (Nat.le_max_left _ _))

theorem sendTimedOut_tame (h : Tame b s) : Tame b (sendTimedOut s) := by
  unfold sendTimedOut
  split
  · exact h
  · split
    · exact toldDropped_tame (tame_mk h rfl rfl rfl rfl rfl ⟨rfl, rfl⟩ id
        (fun k => joinOutside_limits ⟨Nat.le_trans (List.length_filter_le _ _) k.1, k.2⟩)
        (Nat.le_max_left _ _) (Nat.le_max_left _ _))
    · exact tame_mk h rfl rfl rfl rfl rfl ⟨rfl, rfl⟩ id (fun k => ⟨by simpa using k.1, k.2⟩) (Nat.le_max_left _ _) (Nat.le_max_left _ _)

theorem timedOut_tame {op : RadioOp} (h : Tame b s) : Tame b (timedOut op s) := by
  unfold timedOut
  repeat' first
    | with_reducible assumption | split | with_reducible apply measureOutcome_tame | with_reducible apply listenOutcome_tame | with_reducible apply sendTimedOut_tame | with_reducible apply switchOutcome_tame | with_reducible refine tame_mk ?_ rfl rfl rfl rfl rfl ⟨rfl, rfl⟩ ?_ ?_ ?_ ?_ | exact Nat.le_max_left _ _ | exact fun h => h

theorem responseTimeout_tame {op : RadioOp} (h : Tame b s) : Tame b (responseTimeout op s) := by
  unfold responseTimeout
  have k : Tame b (timedOut op { s with link := endOp op s.link }) :=
    timedOut_tame (tame_mk h rfl rfl rfl rfl rfl ⟨rfl, rfl⟩ id (fun k => setOp_limits k) (Nat.le_max_left _ _) (Nat.le_max_left _ _))
  generalize timedOut op _ = t at k
  dsimp only
  split
  · exact declareFault_tame (pumpRound_tame k)
  · rename_i few
    exact tame_mk k rfl rfl rfl rfl rfl ⟨rfl, rfl⟩ id (fun l => ⟨l.1, Nat.lt_of_not_le few⟩) (Nat.le_max_left _ _) (Nat.le_max_left _ _)

theorem linkReady_tame (h : Tame b s) : Tame b (linkReady s) := by
  unfold linkReady
  have k : Tame b { s with
      link := { s.link with up := true, recovery := .stopped, unanswered := 0 }
      cells := { s.cells with lastCarrier := none } } :=
    tame_mk h rfl rfl rfl rfl rfl ⟨rfl, rfl⟩ id (fun l => ⟨l.1, Nat.zero_lt_succ _⟩) (Nat.le_max_left _ _) (Nat.le_max_left _ _)
  generalize State.mk _ _ _ _ _ _ _ _ _ _ _ _ _ _ _ _ _ _ = t at k
  dsimp only
  split
  · exact raise_tame (wantRound_tame k)
  · exact raise_tame k

theorem connectionParameter_tame {p : ConnParam} {v : Half} (h : Tame b s) : Tame b (connectionParameter p v s) := by
  unfold connectionParameter
  repeat' first
    | with_reducible assumption | split | with_reducible apply ignoreConfig_tame | with_reducible refine tame_mk ?_ rfl rfl rfl rfl rfl ⟨rfl, rfl⟩ ?_ ?_ ?_ ?_ | exact Nat.le_max_left _ _ | exact fun h => h

theorem radioRequest_tame {v : Byte} (h : Tame b s) : Tame b (radioRequest v s) := by
  unfold radioRequest
  repeat' first
    | with_reducible assumption | split | with_reducible apply ignoreConfig_tame | with_reducible apply wantRound_tame | with_reducible apply setConn_tame | with_reducible apply requestShutdown_tame | with_reducible refine tame_mk ?_ rfl rfl rfl rfl rfl ⟨rfl, rfl⟩ ?_ ?_ ?_ ?_ | exact Nat.le_max_left _ _ | exact fun h => h

theorem connectGrant_tame (h : Tame b s) : Tame b (connectGrant s) := by
  unfold connectGrant
  try lift_lets
  repeat' first
    | with_reducible assumption | split
    | (intro x; first
      | (have hx : Tame b x := by
          subst x
          repeat' first
            | with_reducible assumption | split | with_reducible apply dropRequests_tame | with_reducible apply serveConnected_tame | with_reducible apply setConn_tame | with_reducible apply camped_tame | with_reducible apply emitMsg_tame | with_reducible refine tame_mk ?_ rfl rfl rfl rfl rfl ⟨rfl, rfl⟩ ?_ ?_ ?_ ?_ | exact Nat.le_max_left _ _ | exact fun h => h
         clear_value x)
      | subst x | clear_value x | skip)
    | with_reducible apply dropRequests_tame | with_reducible apply serveConnected_tame | with_reducible apply setConn_tame | with_reducible apply camped_tame | with_reducible apply emitMsg_tame | with_reducible refine tame_mk ?_ rfl rfl rfl rfl rfl ⟨rfl, rfl⟩ ?_ ?_ ?_ ?_ | exact Nat.le_max_left _ _ | exact fun h => h

theorem connectReject_tame (h : Tame b s) : Tame b (connectReject s) := by
  unfold connectReject
  repeat' first
    | with_reducible assumption | split | with_reducible apply connectFail_tame | with_reducible refine tame_mk ?_ rfl rfl rfl rfl rfl ⟨rfl, rfl⟩ ?_ ?_ ?_ ?_ | exact Nat.le_max_left _ _ | exact fun h => h

theorem areaAccept_tame {area : Half} (h : Tame b s) : Tame b (areaAccept area s) := by
  unfold areaAccept
  repeat' first
    | with_reducible assumption | split | with_reducible apply raise_tame | with_reducible apply areaServed_tame | with_reducible apply setArea_tame | with_reducible refine tame_mk ?_ rfl rfl rfl rfl rfl ⟨rfl, rfl⟩ ?_ ?_ ?_ ?_ | exact Nat.le_max_left _ _ | exact fun h => h

theorem areaReject_tame {area : Half} (h : Tame b s) : Tame b (areaReject area s) := by
  unfold areaReject
  try lift_lets
  repeat' first
    | with_reducible assumption | split
    | (intro x; first
      | (have hx : Tame b x := by
          subst x
          repeat' first
            | with_reducible assumption | split | with_reducible apply changeSlot_tame | with_reducible apply leaveService_tame | with_reducible apply raisePrimary_tame | with_reducible refine tame_mk ?_ rfl rfl rfl rfl rfl ⟨rfl, rfl⟩ ?_ ?_ ?_ ?_ | exact Nat.le_max_left _ _ | exact fun h => h
         clear_value x)
      | subst x | clear_value x | skip)
    | with_reducible apply changeSlot_tame | with_reducible apply leaveService_tame | with_reducible apply raisePrimary_tame | with_reducible refine tame_mk ?_ rfl rfl rfl rfl rfl ⟨rfl, rfl⟩ ?_ ?_ ?_ ?_ | exact Nat.le_max_left _ _ | exact fun h => h

theorem leaveIdle_tame (h : Tame b s) : Tame b (leaveIdle s) := by
  unfold leaveIdle
  repeat' first
    | with_reducible assumption | split | with_reducible apply setConn_tame | with_reducible apply camped_tame | with_reducible apply emitMsg_tame | with_reducible refine tame_mk ?_ rfl rfl rfl rfl rfl ⟨rfl, rfl⟩ ?_ ?_ ?_ ?_ | exact Nat.le_max_left _ _ | exact fun h => h

theorem reestablishAccept_tame (h : Tame b s) : Tame b (reestablishAccept s) := by
  unfold reestablishAccept
  repeat' first
    | with_reducible assumption | split | with_reducible apply commitReestablish_tame | with_reducible refine tame_mk ?_ rfl rfl rfl rfl rfl ⟨rfl, rfl⟩ ?_ ?_ ?_ ?_ | exact Nat.le_max_left _ _ | exact fun h => h

theorem servingLost_tame (h : Tame b s) : Tame b (servingLost s) := by
  unfold servingLost
  repeat' first
    | with_reducible assumption | split | with_reducible apply loseServing_tame | with_reducible apply camped_tame | with_reducible apply forcedReselect_tame | with_reducible apply failConnect_tame | with_reducible apply dropRequest_tame | with_reducible refine tame_mk ?_ rfl rfl rfl rfl rfl ⟨rfl, rfl⟩ ?_ ?_ ?_ ?_ | exact Nat.le_max_left _ _ | exact fun h => h

theorem takeConfig_tame {n : Fin 13} {word : CellWord} {v : Half} (h : Tame b s) : Tame b (takeConfig n word v s) := by
  unfold takeConfig
  try lift_lets
  repeat' first
    | with_reducible assumption | split
    | (intro x; first
      | (have hx : Tame b x := by
          subst x
          repeat' first
            | with_reducible assumption | split | with_reducible apply setSlot_tame | with_reducible apply abortMeasure_tame | with_reducible apply roundMoves_tame | with_reducible apply slotEvent_tame | with_reducible apply leaveReload_tame | with_reducible apply ignoreConfig_tame | with_reducible refine tame_mk ?_ rfl rfl rfl rfl rfl ⟨rfl, rfl⟩ ?_ ?_ ?_ ?_ | exact Nat.le_max_left _ _ | exact fun h => h
         clear_value x)
      | subst x | clear_value x | skip)
    | with_reducible apply setSlot_tame | with_reducible apply abortMeasure_tame | with_reducible apply roundMoves_tame | with_reducible apply slotEvent_tame | with_reducible apply leaveReload_tame | with_reducible apply ignoreConfig_tame | with_reducible refine tame_mk ?_ rfl rfl rfl rfl rfl ⟨rfl, rfl⟩ ?_ ?_ ?_ ?_ | exact Nat.le_max_left _ _ | exact fun h => h

theorem cellNotice_tame {n : Fin 13} {word : CellWord} {v : Half} (h : Tame b s) : Tame b (cellNotice n word v s) := by
  unfold cellNotice
  repeat' first
    | with_reducible assumption | split | with_reducible apply ignoreConfig_tame | with_reducible apply takeConfig_tame | with_reducible refine tame_mk ?_ rfl rfl rfl rfl rfl ⟨rfl, rfl⟩ ?_ ?_ ?_ ?_ | exact Nat.le_max_left _ _ | exact fun h => h

theorem memoryError_tame {j : Job} {line : Line} (h : Tame b s) : Tame b (memoryError j line s) := by
  unfold memoryError
  repeat' first
    | with_reducible assumption | split | with_reducible apply raiseNow_tame | with_reducible refine tame_mk ?_ rfl rfl rfl rfl rfl ⟨rfl, rfl⟩ ?_ ?_ ?_ ?_ | exact Nat.le_max_left _ _ | exact fun h => h

theorem reloadFailed_tame {n : Fin 13} (h : Tame b s) : Tame b (reloadFailed n s) := by
  unfold reloadFailed
  repeat' first
    | with_reducible assumption | split | with_reducible apply slotEvent_tame | with_reducible apply setSlot_tame | with_reducible apply memoryError_tame | with_reducible refine tame_mk ?_ rfl rfl rfl rfl rfl ⟨rfl, rfl⟩ ?_ ?_ ?_ ?_ | exact Nat.le_max_left _ _ | exact fun h => h

theorem takeSlotLine_tame {n : Fin 13} {line : List Byte} (h : Tame b s) : Tame b (takeSlotLine n line s) := by
  unfold takeSlotLine
  repeat' first
    | with_reducible assumption | split | with_reducible apply cellNotice_tame | with_reducible refine tame_mk ?_ rfl rfl rfl rfl rfl ⟨rfl, rfl⟩ ?_ ?_ ?_ ?_ | exact Nat.le_max_left _ _ | exact fun h => h

theorem reloadDone_tame {n : Fin 13} {r : Completed} (h : Tame b s) : Tame b (reloadDone n r s) := by
  unfold reloadDone
  try lift_lets
  repeat' first
    | with_reducible assumption | split
    | (intro x; first
      | (have hx : Tame b x := by
          subst x
          repeat' first
            | with_reducible assumption | split | with_reducible apply reloadNext_tame | with_reducible apply reloadFailed_tame | with_reducible apply takeSlotLine_tame | with_reducible refine tame_mk ?_ rfl rfl rfl rfl rfl ⟨rfl, rfl⟩ ?_ ?_ ?_ ?_ | exact Nat.le_max_left _ _ | exact fun h => h
         clear_value x)
      | subst x | clear_value x | skip)
    | with_reducible apply reloadNext_tame | with_reducible apply reloadFailed_tame | with_reducible apply takeSlotLine_tame | with_reducible refine tame_mk ?_ rfl rfl rfl rfl rfl ⟨rfl, rfl⟩ ?_ ?_ ?_ ?_ | exact Nat.le_max_left _ _ | exact fun h => h

theorem mobilityParameter_tame {p : MobParam} {v : Half} (h : Tame b s) : Tame b (mobilityParameter p v s) := by
  unfold mobilityParameter
  repeat' first
    | with_reducible assumption | split | with_reducible apply evaluateCandidates_tame | with_reducible apply ignoreConfig_tame | with_reducible refine tame_mk ?_ rfl rfl rfl rfl rfl ⟨rfl, rfl⟩ ?_ ?_ ?_ ?_ | exact Nat.le_max_left _ _ | exact fun h => h

theorem candidateMatures_tame {n : Fin 13} (h : Tame b s) : Tame b (candidateMatures n s) := by
  unfold candidateMatures
  repeat' first
    | with_reducible assumption | split | with_reducible apply considerReport_tame | with_reducible apply setMobSlot_tame | with_reducible refine tame_mk ?_ rfl rfl rfl rfl rfl ⟨rfl, rfl⟩ ?_ ?_ ?_ ?_ | exact Nat.le_max_left _ _ | exact fun h => h

theorem matchOrder_tame {carrier code activation : Half} (h : Tame b s) : Tame b (matchOrder carrier code activation s) := by
  unfold matchOrder
  try lift_lets
  repeat' first
    | with_reducible assumption | split
    | (intro x; first
      | (have hx : Tame b x := by
          subst x
          repeat' first
            | with_reducible assumption | split | with_reducible apply refuseOrder_tame | with_reducible apply orderDue_tame | with_reducible refine tame_mk ?_ rfl rfl rfl rfl rfl ⟨rfl, rfl⟩ ?_ ?_ ?_ ?_ | exact Nat.le_max_left _ _ | exact fun h => h
         clear_value x)
      | subst x | clear_value x | skip)
    | with_reducible apply refuseOrder_tame | with_reducible apply orderDue_tame | with_reducible refine tame_mk ?_ rfl rfl rfl rfl rfl ⟨rfl, rfl⟩ ?_ ?_ ?_ ?_ | exact Nat.le_max_left _ _ | exact fun h => h

theorem transferOrder_tame {carrier code activation : Half} (h : Tame b s) : Tame b (transferOrder carrier code activation s) := by
  unfold transferOrder
  repeat' first
    | with_reducible assumption | split | with_reducible apply raise_tame | with_reducible apply matchOrder_tame | with_reducible refine tame_mk ?_ rfl rfl rfl rfl rfl ⟨rfl, rfl⟩ ?_ ?_ ?_ ?_ | exact Nat.le_max_left _ _ | exact fun h => h

theorem requestUnknown_tame {r : Fin 4} {code : Byte} (h : Tame b s) : Tame b (requestUnknown r code s) := by
  unfold requestUnknown
  repeat' first
    | with_reducible assumption | split | with_reducible apply setRec_tame | with_reducible refine tame_mk ?_ rfl rfl rfl rfl rfl ⟨rfl, rfl⟩ ?_ ?_ ?_ ?_ | exact Nat.le_max_left _ _ | exact fun h => h

theorem dialCaptured_tame {r : Fin 4} {c : Completed} (h : Tame b s) : Tame b (dialCaptured r c s) := by
  unfold dialCaptured
  try lift_lets
  repeat' first
    | with_reducible assumption | split
    | (intro x; first
      | (have hx : Tame b x := by
          subst x
          repeat' first
            | with_reducible assumption | split | with_reducible apply setRec_tame | with_reducible apply localReleaseOne_tame | with_reducible apply memoryError_tame | with_reducible apply placeSetup_tame | with_reducible refine tame_mk ?_ rfl rfl rfl rfl rfl ⟨rfl, rfl⟩ ?_ ?_ ?_ ?_ | exact Nat.le_max_left _ _ | exact fun h => h
         clear_value x)
      | subst x | clear_value x | skip)
    | with_reducible apply setRec_tame | with_reducible apply localReleaseOne_tame | with_reducible apply memoryError_tame | with_reducible apply placeSetup_tame | with_reducible refine tame_mk ?_ rfl rfl rfl rfl rfl ⟨rfl, rfl⟩ ?_ ?_ ?_ ?_ | exact Nat.le_max_left _ _ | exact fun h => h

theorem ringing_tame {ref : Byte} (h : Tame b s) : Tame b (ringing ref s) := by
  unfold ringing
  repeat' first
    | with_reducible assumption | split | with_reducible apply changeState_tame | with_reducible apply dropCapture_tame | with_reducible refine tame_mk ?_ rfl rfl rfl rfl rfl ⟨rfl, rfl⟩ ?_ ?_ ?_ ?_ | exact Nat.le_max_left _ _ | exact fun h => h

theorem connected_tame {ref : Byte} (h : Tame b s) : Tame b (connected ref s) := by
  unfold connected
  repeat' first
    | with_reducible assumption | split | with_reducible apply changeState_tame | with_reducible apply dropCapture_tame | with_reducible refine tame_mk ?_ rfl rfl rfl rfl rfl ⟨rfl, rfl⟩ ?_ ?_ ?_ ?_ | exact Nat.le_max_left _ _ | exact fun h => h

theorem newOffer_tame {ref : Byte} {caller : List Digit} (h : Tame b s) : Tame b (newOffer ref caller s) := by
  unfold newOffer
  repeat' first
    | with_reducible assumption | split | with_reducible apply changeState_tame | with_reducible apply emitMsg_tame | with_reducible refine tame_mk ?_ rfl rfl rfl rfl rfl ⟨rfl, rfl⟩ ?_ ?_ ?_ ?_ | exact Nat.le_max_left _ _ | exact fun h => h

theorem offer_tame {ref : Byte} {caller : List Digit} (h : Tame b s) : Tame b (offer ref caller s) := by
  unfold offer
  try lift_lets
  repeat' first
    | with_reducible assumption | split
    | (intro x; first
      | (have hx : Tame b x := by
          subst x
          repeat' first
            | with_reducible assumption | split | with_reducible apply connected_tame | with_reducible apply primaryCause_tame | with_reducible apply newOffer_tame | with_reducible refine tame_mk ?_ rfl rfl rfl rfl rfl ⟨rfl, rfl⟩ ?_ ?_ ?_ ?_ | exact Nat.le_max_left _ _ | exact fun h => h
         clear_value x)
      | subst x | clear_value x | skip)
    | with_reducible apply connected_tame | with_reducible apply primaryCause_tame | with_reducible apply newOffer_tame | with_reducible refine tame_mk ?_ rfl rfl rfl rfl rfl ⟨rfl, rfl⟩ ?_ ?_ ?_ ?_ | exact Nat.le_max_left _ _ | exact fun h => h

theorem holdAccept_tame {ref : Byte} (h : Tame b s) : Tame b (holdAccept ref s) := by
  unfold holdAccept
  try lift_lets
  repeat' first
    | with_reducible assumption | split
    | (intro x; first
      | (have hx : Tame b x := by
          subst x
          repeat' first
            | with_reducible assumption | split | with_reducible apply changeState_tame | with_reducible apply placeResume_tame | with_reducible refine tame_mk ?_ rfl rfl rfl rfl rfl ⟨rfl, rfl⟩ ?_ ?_ ?_ ?_ | exact Nat.le_max_left _ _ | exact fun h => h
         clear_value x)
      | subst x | clear_value x | skip)
    | with_reducible apply changeState_tame | with_reducible apply placeResume_tame | with_reducible refine tame_mk ?_ rfl rfl rfl rfl rfl ⟨rfl, rfl⟩ ?_ ?_ ?_ ?_ | exact Nat.le_max_left _ _ | exact fun h => h

theorem resumeAccept_tame {ref : Byte} (h : Tame b s) : Tame b (resumeAccept ref s) := by
  unfold resumeAccept
  repeat' first
    | with_reducible assumption | split | with_reducible apply resume_tame | with_reducible apply changeState_tame | with_reducible refine tame_mk ?_ rfl rfl rfl rfl rfl ⟨rfl, rfl⟩ ?_ ?_ ?_ ?_ | exact Nat.le_max_left _ _ | exact fun h => h

theorem releasingEnds_tame {r : Fin 4} (h : Tame b s) : Tame b (releasingEnds r s) := by
  unfold releasingEnds
  repeat' first
    | with_reducible assumption | split | with_reducible apply freeRec_tame | with_reducible refine tame_mk ?_ rfl rfl rfl rfl rfl ⟨rfl, rfl⟩ ?_ ?_ ?_ ?_ | exact Nat.le_max_left _ _ | exact fun h => h

theorem releaseDone_tame {ref : Byte} (h : Tame b s) : Tame b (releaseDone ref s) := by
  unfold releaseDone
  repeat' first
    | with_reducible assumption | split | with_reducible apply releasingEnds_tame | with_reducible refine tame_mk ?_ rfl rfl rfl rfl rfl ⟨rfl, rfl⟩ ?_ ?_ ?_ ?_ | exact Nat.le_max_left _ _ | exact fun h => h

theorem uplinkProducer_tame {v : Byte} (h : Tame b s) : Tame b (uplinkProducer v s) := by
  unfold uplinkProducer
  repeat' first
    | with_reducible assumption | split | with_reducible apply ignoreConfig_tame | with_reducible refine tame_mk ?_ rfl rfl rfl rfl rfl ⟨rfl, rfl⟩ ?_ ?_ ?_ ?_ | exact Nat.le_max_left _ _ | exact fun h => h

theorem downlinkConsumer_tame {v : Byte} (h : Tame b s) : Tame b (downlinkConsumer v s) := by
  unfold downlinkConsumer
  repeat' first
    | with_reducible assumption | split | with_reducible apply ignoreConfig_tame | with_reducible refine tame_mk ?_ rfl rfl rfl rfl rfl ⟨rfl, rfl⟩ ?_ ?_ ?_ ?_ | exact Nat.le_max_left _ _ | exact fun h => h

theorem fetchInTime_tame {r : Completed} (h : Tame b s) : Tame b (fetchInTime r s) := by
  unfold fetchInTime
  repeat' first
    | with_reducible assumption | split | with_reducible apply speechGap_tame | with_reducible apply advanceUp_tame | with_reducible apply sendSpeech_tame | with_reducible refine tame_mk ?_ rfl rfl rfl rfl rfl ⟨rfl, rfl⟩ ?_ ?_ ?_ ?_ | exact Nat.le_max_left _ _ | exact fun h => h

theorem speechFetched_tame {line : Line} {r : Completed} (h : Tame b s) : Tame b (speechFetched line r s) := by
  unfold speechFetched
  try lift_lets
  repeat' first
    | with_reducible assumption | split
    | (intro x; first
      | (have hx : Tame b x := by
          subst x
          repeat' first
            | with_reducible assumption | split | with_reducible apply memoryError_tame | with_reducible apply fetchInTime_tame | with_reducible apply advanceUp_tame | with_reducible refine tame_mk ?_ rfl rfl rfl rfl rfl ⟨rfl, rfl⟩ ?_ ?_ ?_ ?_ | exact Nat.le_max_left _ _ | exact fun h => h
         clear_value x)
      | subst x | clear_value x | skip)
    | with_reducible apply memoryError_tame | with_reducible apply fetchInTime_tame | with_reducible apply advanceUp_tame | with_reducible refine tame_mk ?_ rfl rfl rfl rfl rfl ⟨rfl, rfl⟩ ?_ ?_ ?_ ?_ | exact Nat.le_max_left _ _ | exact fun h => h

theorem speechIn_tame {frame : List Byte} (h : Tame b s) : Tame b (speechIn frame s) := by
  unfold speechIn
  split
  · exact h
  · have k := activity_tame h
    generalize activity s = t at k
    dsimp only
    split
    · exact k
    · split
      · exact waitActs_tame (s := { t with speech := _ }) k
      · rename_i c
        exact placeDown_tame k (room_of_not_mustWait c)

theorem submit_tame {n : Nat} {i : Byte} (h : Tame b s) : Tame b (submit n i s) := by
  induction n generalizing i s with
  | zero => exact h
  | succ n ih => exact ih (setDesc_tame h)

theorem outboxProducer_tame {v : Byte} (h : Tame b s) : Tame b (outboxProducer v s) := by
  unfold outboxProducer
  try lift_lets
  repeat' first
    | with_reducible assumption | split
    | (intro x; first
      | (have hx : Tame b x := by
          subst x
          repeat' first
            | with_reducible assumption | split | with_reducible apply raiseNow_tame | with_reducible apply ignoreConfig_tame | with_reducible apply submit_tame | with_reducible refine tame_mk ?_ rfl rfl rfl rfl rfl ⟨rfl, rfl⟩ ?_ ?_ ?_ ?_ | exact Nat.le_max_left _ _ | exact fun h => h
         clear_value x)
      | subst x | clear_value x | skip)
    | with_reducible apply raiseNow_tame | with_reducible apply ignoreConfig_tame | with_reducible apply submit_tame | with_reducible refine tame_mk ?_ rfl rfl rfl rfl rfl ⟨rfl, rfl⟩ ?_ ?_ ?_ ?_ | exact Nat.le_max_left _ _ | exact fun h => h

theorem cancelDesc_tame {n : Fin 16} (h : Tame b s) : Tame b (cancelDesc n s) := by
  unfold cancelDesc
  repeat' first
    | with_reducible assumption | split | with_reducible apply finishDesc_tame | with_reducible apply setSend_tame | with_reducible apply endSend_tame | with_reducible refine tame_mk ?_ rfl rfl rfl rfl rfl ⟨rfl, rfl⟩ ?_ ?_ ?_ ?_ | exact Nat.le_max_left _ _ | exact fun h => h

theorem cancelWord_tame {n : Fin 16} {v : Byte} (h : Tame b s) : Tame b (cancelWord n v s) := by
  unfold cancelWord
  repeat' first
    | with_reducible assumption | split | with_reducible apply cancelDesc_tame | with_reducible apply ignoreConfig_tame | with_reducible refine tame_mk ?_ rfl rfl rfl rfl rfl ⟨rfl, rfl⟩ ?_ ?_ ?_ ?_ | exact Nat.le_max_left _ _ | exact fun h => h

theorem readBody_tame {x : Send} (h : Tame b s) : Tame b (readBody x s) := by
  unfold readBody
  repeat' first
    | with_reducible assumption | split | with_reducible apply emitRead_tame | refine foldl_tame (fun s x h => ?_) _ ?_ | with_reducible refine tame_mk ?_ rfl rfl rfl rfl rfl ⟨rfl, rfl⟩ ?_ ?_ ?_ ?_ | exact Nat.le_max_left _ _ | exact fun h => h

theorem takeDescriptor_tame {x : Send} {line : List Byte} (h : Tame b s) : Tame b (takeDescriptor x line s) := by
  unfold takeDescriptor
  try lift_lets
  repeat' first
    | with_reducible assumption | split
    | (intro x; first
      | (have hx : Tame b x := by
          subst x
          repeat' first
            | with_reducible assumption | split | with_reducible apply endSend_tame | with_reducible apply readBody_tame | with_reducible refine tame_mk ?_ rfl rfl rfl rfl rfl ⟨rfl, rfl⟩ ?_ ?_ ?_ ?_ | exact Nat.le_max_left _ _ | exact fun h => h
         clear_value x)
      | subst x | clear_value x | skip)
    | with_reducible apply endSend_tame | with_reducible apply readBody_tame | with_reducible refine tame_mk ?_ rfl rfl rfl rfl rfl ⟨rfl, rfl⟩ ?_ ?_ ?_ ?_ | exact Nat.le_max_left _ _ | exact fun h => h

theorem textRead_tame {line : Line} {take : Send → List Byte → State → State} {r : Completed}
    (w : ∀ {x : Send} {l : List Byte} {t : State}, Tame b t → Tame b (take x l t)) (h : Tame b s) :
    Tame b (textRead line take r s) := by
  have k : Tame b (if r.2.1 then memoryError .texts line s else s) := by
    split
    · exact memoryError_tame h
    · exact h
  unfold textRead
  generalize (if r.2.1 then memoryError .texts line s else s) = t at k
  dsimp only
  split
  · split
    · exact endSend_tame k
    · exact w k
  · exact k

theorem bodyCaptured_tame {x : Send} (h : Tame b s) : Tame b (bodyCaptured x s) := by
  unfold bodyCaptured
  try lift_lets
  repeat' first
    | with_reducible assumption | split
    | (intro x; first
      | (have hx : Tame b x := by
          subst x
          repeat' first
            | with_reducible assumption | split | with_reducible apply placeSegment_tame | with_reducible refine tame_mk ?_ rfl rfl rfl rfl rfl ⟨rfl, rfl⟩ ?_ ?_ ?_ ?_ | exact Nat.le_max_left _ _ | exact fun h => h
         clear_value x)
      | subst x | clear_value x | skip)
    | with_reducible apply placeSegment_tame | with_reducible refine tame_mk ?_ rfl rfl rfl rfl rfl ⟨rfl, rfl⟩ ?_ ?_ ?_ ?_ | exact Nat.le_max_left _ _ | exact fun h => h

theorem takeBody_tame {k : Nat} {x : Send} {line : List Byte} (h : Tame b s) : Tame b (takeBody k x line s) := by
  unfold takeBody
  try lift_lets
  repeat' first
    | with_reducible assumption | split
    | (intro x; first
      | (have hx : Tame b x := by
          subst x
          repeat' first
            | with_reducible assumption | split | with_reducible apply endSend_tame | with_reducible apply memoryError_tame | with_reducible apply bodyCaptured_tame | with_reducible refine tame_mk ?_ rfl rfl rfl rfl rfl ⟨rfl, rfl⟩ ?_ ?_ ?_ ?_ | exact Nat.le_max_left _ _ | exact fun h => h
         clear_value x)
      | subst x | clear_value x | skip)
    | with_reducible apply endSend_tame | with_reducible apply memoryError_tame | with_reducible apply bodyCaptured_tame | with_reducible refine tame_mk ?_ rfl rfl rfl rfl rfl ⟨rfl, rfl⟩ ?_ ?_ ?_ ?_ | exact Nat.le_max_left _ _ | exact fun h => h

theorem segmentAcked_tame {x : Send} {res : AckResult} (h : Tame b s) : Tame b (segmentAcked x res s) := by
  unfold segmentAcked
  try lift_lets
  repeat' first
    | with_reducible assumption | split
    | (intro x; first
      | (have hx : Tame b x := by
          subst x
          repeat' first
            | with_reducible assumption | split | with_reducible apply withdrawOpt_tame | with_reducible apply setSend_tame | with_reducible apply endSend_tame | with_reducible apply placeSegment_tame | with_reducible refine tame_mk ?_ rfl rfl rfl rfl rfl ⟨rfl, rfl⟩ ?_ ?_ ?_ ?_ | exact Nat.le_max_left _ _ | exact fun h => h
         clear_value x)
      | subst x | clear_value x | skip)
    | with_reducible apply withdrawOpt_tame | with_reducible apply setSend_tame | with_reducible apply endSend_tame | with_reducible apply placeSegment_tame | with_reducible refine tame_mk ?_ rfl rfl rfl rfl rfl ⟨rfl, rfl⟩ ?_ ?_ ?_ ?_ | exact Nat.le_max_left _ _ | exact fun h => h

theorem segmentAck_tame {ref index : Byte} {res : AckResult} (h : Tame b s) : Tame b (segmentAck ref index res s) := by
  unfold segmentAck
  repeat' first
    | with_reducible assumption | split | with_reducible apply segmentAcked_tame | with_reducible refine tame_mk ?_ rfl rfl rfl rfl rfl ⟨rfl, rfl⟩ ?_ ?_ ?_ ?_ | exact Nat.le_max_left _ _ | exact fun h => h

theorem inboxConsumer_tame {v : Byte} (h : Tame b s) : Tame b (inboxConsumer v s) := by
  unfold inboxConsumer
  try lift_lets
  repeat' first
    | with_reducible assumption | split
    | (intro x; first
      | (have hx : Tame b x := by
          subst x
          repeat' first
            | with_reducible assumption | split | with_reducible apply emitMsg_tame | with_reducible apply setFull_tame | with_reducible apply ignoreConfig_tame | with_reducible refine tame_mk ?_ rfl rfl rfl rfl rfl ⟨rfl, rfl⟩ ?_ ?_ ?_ ?_ | exact Nat.le_max_left _ _ | exact fun h => h
         clear_value x)
      | subst x | clear_value x | skip)
    | with_reducible apply emitMsg_tame | with_reducible apply setFull_tame | with_reducible apply ignoreConfig_tame | with_reducible refine tame_mk ?_ rfl rfl rfl rfl rfl ⟨rfl, rfl⟩ ?_ ?_ ?_ ?_ | exact Nat.le_max_left _ _ | exact fun h => h

theorem textSegment_tame {g : Segment} (h : Tame b s) : Tame b (textSegment g s) := by
  unfold textSegment
  repeat' first
    | with_reducible assumption | split | with_reducible apply segmentIn_tame | with_reducible refine tame_mk ?_ rfl rfl rfl rfl rfl ⟨rfl, rfl⟩ ?_ ?_ ?_ ?_ | exact Nat.le_max_left _ _ | exact fun h => h

end Sys2Proof.Machine
end

