-- ==== Sys2Proof/Laws/TamePath.lean ====
section
/-! SUPPORT. Sleep, binding and the memory path: each operation keeps the limits and leaves the queue, the frame number and the resets alone. -/

set_option linter.unusedTactic false
set_option linter.unreachableTactic false

namespace Sys2Proof.Machine

variable {b s : State}

theorem sleepParameter_tame {q : SleepParam} {v : Half} (h : Tame b s) : Tame b (sleepParameter q v s) := by
  unfold sleepParameter
  repeat' first
    | with_reducible assumption | split | with_reducible apply notePlan_tame | with_reducible apply ignoreConfig_tame | with_reducible refine tame_mk ?_ rfl rfl rfl rfl rfl ⟨rfl, rfl⟩ ?_ ?_ ?_ ?_ | exact Nat.le_max_left _ _ | exact fun h => h

theorem dropWakeMark_tame (h : Tame b s) : Tame b (dropWakeMark s) := by
  unfold dropWakeMark
  repeat' first
    | with_reducible assumption | split | with_reducible apply wakeMark_tame | with_reducible refine tame_mk ?_ rfl rfl rfl rfl rfl ⟨rfl, rfl⟩ ?_ ?_ ?_ ?_ | exact Nat.le_max_left _ _ | exact fun h => h

theorem askSleep_tame (h : Tame b s) : Tame b (askSleep s) := by
  unfold askSleep
  repeat' first
    | with_reducible assumption | split | with_reducible apply raise_tame | with_reducible apply notePlan_tame | with_reducible apply dropWakeMark_tame | with_reducible refine tame_mk ?_ rfl rfl rfl rfl rfl ⟨rfl, rfl⟩ ?_ ?_ ?_ ?_ | exact Nat.le_max_left _ _ | exact fun h => h

theorem sleepRequest_tame {v : Byte} (h : Tame b s) : Tame b (sleepRequest v s) := by
  unfold sleepRequest
  repeat' first
    | with_reducible assumption | split | with_reducible apply ignoreConfig_tame | with_reducible apply askSleep_tame | with_reducible apply abandonSleep_tame | with_reducible apply activity_tame | with_reducible refine tame_mk ?_ rfl rfl rfl rfl rfl ⟨rfl, rfl⟩ ?_ ?_ ?_ ?_ | exact Nat.le_max_left _ _ | exact fun h => h

theorem stopGrant_tame {v : Byte} (h : Tame b s) : Tame b (stopGrant v s) := by
  unfold stopGrant
  split
  · exact ignoreConfig_tame h
  · split
    · exact tame_mk h rfl rfl rfl rfl rfl ⟨forceDrain_memState _, rfl⟩ forceDrain_limits id (Nat.le_max_left _ _)
        (Nat.le_max_left _ _)
    · exact h

theorem wakeAck_tame {v : Byte} (h : Tame b s) : Tame b (wakeAck v s) := by
  unfold wakeAck
  repeat' first
    | with_reducible assumption | split | with_reducible apply ignoreConfig_tame | with_reducible refine tame_mk ?_ rfl rfl rfl rfl rfl ⟨rfl, rfl⟩ ?_ ?_ ?_ ?_ | exact Nat.le_max_left _ _ | exact fun h => h

theorem enterDeep_limits (h : Limits s) : Limits (enterDeep s) := by
  unfold enterDeep
  have t : Limits (memOut .selfRefreshEnter { s with
      mem := { s.mem with memState := .selfRefresh }
      sleep := { s.sleep with
        level := .deep, phase := .none, quiesceTimer := .stopped, rouseTimer := .stopped, reentry := false
        busy := false }
      events := { s.events with handed := false }
      port := { s.port with sleepHold := true } }) := h
  generalize memOut _ _ = t' at t
  exact (sendFrame_tame (abortRound_tame (notePlan_tame t.tame))).limits

theorem exitDone_limits (h : Limits s) : Limits (exitDone s) := by
  unfold exitDone
  have t : Limits { s with mem := { s.mem with memState := .active } } := h
  dsimp only
  split
  · exact (beginWriteBack_tame t.tame).limits
  · exact (beginWriteBack_tame t.tame).limits
  · exact t

theorem raiseLine_tame {l : Fin 4} {detail : Byte} (h : Tame b s) : Tame b (raiseLine l detail s) := by
  unfold raiseLine
  try lift_lets
  repeat' first
    | with_reducible assumption | split
    | (intro x; first
      | (have hx : Tame b x := by
          subst x
          repeat' first
            | with_reducible assumption | split | with_reducible apply raise_tame | with_reducible apply primaryCause_tame | with_reducible refine tame_mk ?_ rfl rfl rfl rfl rfl ⟨rfl, rfl⟩ ?_ ?_ ?_ ?_ | exact Nat.le_max_left _ _ | exact fun h => h
         clear_value x)
      | subst x | clear_value x | skip)
    | with_reducible apply raise_tame | with_reducible apply primaryCause_tame | with_reducible refine tame_mk ?_ rfl rfl rfl rfl rfl ⟨rfl, rfl⟩ ?_ ?_ ?_ ?_ | exact Nat.le_max_left _ _ | exact fun h => h

theorem lineShutdown_tame {cause : Cause} (h : Tame b s) : Tame b (lineShutdown cause s) := by
  unfold lineShutdown
  repeat' first
    | with_reducible assumption | split | with_reducible apply requestShutdown_tame | with_reducible apply primaryCause_tame | with_reducible apply raise_tame | with_reducible refine tame_mk ?_ rfl rfl rfl rfl rfl ⟨rfl, rfl⟩ ?_ ?_ ?_ ?_ | exact Nat.le_max_left _ _ | exact fun h => h

theorem lineDuty_tame {l : Fin 4} (h : Tame b s) : Tame b (lineDuty l s) := by
  unfold lineDuty
  repeat' first
    | with_reducible assumption | split | with_reducible apply lineShutdown_tame | with_reducible apply accessoryAnswer_tame | with_reducible apply notePlan_tame | with_reducible refine tame_mk ?_ rfl rfl rfl rfl rfl ⟨rfl, rfl⟩ ?_ ?_ ?_ ?_ | exact Nat.le_max_left _ _ | exact fun h => h

theorem activeEdge_tame {l : Fin 4} (h : Tame b s) : Tame b (activeEdge l s) := by
  unfold activeEdge
  try lift_lets
  repeat' first
    | with_reducible assumption | split
    | (intro x; first
      | (have hx : Tame b x := by
          subst x
          repeat' first
            | with_reducible assumption | split | with_reducible apply lineDuty_tame | with_reducible apply raiseLine_tame | with_reducible apply notePlan_tame | with_reducible refine tame_mk ?_ rfl rfl rfl rfl rfl ⟨rfl, rfl⟩ ?_ ?_ ?_ ?_ | exact Nat.le_max_left _ _ | exact fun h => h
         clear_value x)
      | subst x | clear_value x | skip)
    | with_reducible apply lineDuty_tame | with_reducible apply raiseLine_tame | with_reducible apply notePlan_tame | with_reducible refine tame_mk ?_ rfl rfl rfl rfl rfl ⟨rfl, rfl⟩ ?_ ?_ ?_ ?_ | exact Nat.le_max_left _ _ | exact fun h => h

theorem inactiveEdge_tame {l : Fin 4} (h : Tame b s) : Tame b (inactiveEdge l s) := by
  unfold inactiveEdge
  try lift_lets
  repeat' first
    | with_reducible assumption | split
    | (intro x; first
      | (have hx : Tame b x := by
          subst x
          repeat' first
            | with_reducible assumption | split | with_reducible apply notePlan_tame | with_reducible refine tame_mk ?_ rfl rfl rfl rfl rfl ⟨rfl, rfl⟩ ?_ ?_ ?_ ?_ | exact Nat.le_max_left _ _ | exact fun h => h
         clear_value x)
      | subst x | clear_value x | skip)
    | with_reducible apply notePlan_tame | with_reducible refine tame_mk ?_ rfl rfl rfl rfl rfl ⟨rfl, rfl⟩ ?_ ?_ ?_ ?_ | exact Nat.le_max_left _ _ | exact fun h => h

theorem invertLine_tame {l : Fin 4} (h : Tame b s) : Tame b (invertLine l s) := by
  unfold invertLine
  try lift_lets
  repeat' first
    | with_reducible assumption | split
    | (intro x; first
      | (have hx : Tame b x := by
          subst x
          repeat' first
            | with_reducible assumption | split | with_reducible apply notePlan_tame | with_reducible refine tame_mk ?_ rfl rfl rfl rfl rfl ⟨rfl, rfl⟩ ?_ ?_ ?_ ?_ | exact Nat.le_max_left _ _ | exact fun h => h
         clear_value x)
      | subst x | clear_value x | skip)
    | with_reducible apply notePlan_tame | with_reducible refine tame_mk ?_ rfl rfl rfl rfl rfl ⟨rfl, rfl⟩ ?_ ?_ ?_ ?_ | exact Nat.le_max_left _ _ | exact fun h => h

theorem sampleLine_tame {l : Fin 4} {pin : Bool} (h : Tame b s) : Tame b (sampleLine l pin s) := by
  unfold sampleLine
  try lift_lets
  repeat' first
    | with_reducible assumption | split
    | (intro x; first
      | (have hx : Tame b x := by
          subst x
          repeat' first
            | with_reducible assumption | split | with_reducible apply invertLine_tame | with_reducible apply activeEdge_tame | with_reducible apply inactiveEdge_tame | with_reducible refine tame_mk ?_ rfl rfl rfl rfl rfl ⟨rfl, rfl⟩ ?_ ?_ ?_ ?_ | exact Nat.le_max_left _ _ | exact fun h => h
         clear_value x)
      | subst x | clear_value x | skip)
    | with_reducible apply invertLine_tame | with_reducible apply activeEdge_tame | with_reducible apply inactiveEdge_tame | with_reducible refine tame_mk ?_ rfl rfl rfl rfl rfl ⟨rfl, rfl⟩ ?_ ?_ ?_ ?_ | exact Nat.le_max_left _ _ | exact fun h => h

theorem sampleLines_tame {pins : BitVec 4} (h : Tame b s) : Tame b (sampleLines pins s) := by
  unfold sampleLines
  repeat' first
    | with_reducible assumption | split | with_reducible apply sampleLine_tame | refine foldl_tame (fun s x h => ?_) _ ?_ | with_reducible refine tame_mk ?_ rfl rfl rfl rfl rfl ⟨rfl, rfl⟩ ?_ ?_ ?_ ?_ | exact Nat.le_max_left _ _ | exact fun h => h

theorem lineAcknowledge_tame {l : Fin 4} {v : Byte} (h : Tame b s) : Tame b (lineAcknowledge l v s) := by
  unfold lineAcknowledge
  try lift_lets
  repeat' first
    | with_reducible assumption | split
    | (intro x; first
      | (have hx : Tame b x := by
          subst x
          repeat' first
            | with_reducible assumption | split | with_reducible apply ignoreConfig_tame | with_reducible apply raiseLine_tame | with_reducible apply notePlan_tame | with_reducible refine tame_mk ?_ rfl rfl rfl rfl rfl ⟨rfl, rfl⟩ ?_ ?_ ?_ ?_ | exact Nat.le_max_left _ _ | exact fun h => h
         clear_value x)
      | subst x | clear_value x | skip)
    | with_reducible apply ignoreConfig_tame | with_reducible apply raiseLine_tame | with_reducible apply notePlan_tame | with_reducible refine tame_mk ?_ rfl rfl rfl rfl rfl ⟨rfl, rfl⟩ ?_ ?_ ?_ ?_ | exact Nat.le_max_left _ _ | exact fun h => h

theorem tickTimers_tame (h : Tame b s) : Tame b (tickTimers s) := by
  unfold tickTimers
  refine tame_mk h rfl rfl rfl rfl rfl ⟨rfl, rfl⟩ id (fun k => k) (Nat.le_max_left _ _) ?_
  simp only [tickTexts, List.length_map]
  exact Nat.le_max_left _ _

theorem sendListen_tame (h : Tame b s) : Tame b (sendListen s) := by
  unfold sendListen
  repeat' first
    | with_reducible assumption | split | with_reducible apply request_tame | with_reducible refine tame_mk ?_ rfl rfl rfl rfl rfl ⟨rfl, rfl⟩ ?_ ?_ ?_ ?_ | exact Nat.le_max_left _ _ | exact fun h => h

theorem placeFetch_tame (h : Tame b s) : Tame b (placeFetch s) := by
  unfold placeFetch
  exact joinRead_tame (s := { s with speech := _ }) h (.inr (.inl rfl))

theorem uplinkDue_tame (h : Tame b s) : Tame b (uplinkDue s) := by
  unfold uplinkDue
  repeat' first
    | with_reducible assumption | split | with_reducible apply speechGap_tame | with_reducible apply connected_tame | with_reducible apply sendSpeech_tame | with_reducible apply placeFetch_tame | with_reducible refine tame_mk ?_ rfl rfl rfl rfl rfl ⟨rfl, rfl⟩ ?_ ?_ ?_ ?_ | exact Nat.le_max_left _ _ | exact fun h => h

theorem frameWork_tame (h : Tame b s) : Tame b (frameWork s) := by
  unfold frameWork
  try lift_lets
  repeat' first
    | with_reducible assumption | split
    | (intro x; first
      | (have hx : Tame b x := by
          subst x
          repeat' first
            | with_reducible assumption | split | with_reducible apply uplinkDue_tame | with_reducible apply sendListen_tame | with_reducible refine tame_mk ?_ rfl rfl rfl rfl rfl ⟨rfl, rfl⟩ ?_ ?_ ?_ ?_ | exact Nat.le_max_left _ _ | exact fun h => h
         clear_value x)
      | subst x | clear_value x | skip)
    | with_reducible apply uplinkDue_tame | with_reducible apply sendListen_tame | with_reducible refine tame_mk ?_ rfl rfl rfl rfl rfl ⟨rfl, rfl⟩ ?_ ?_ ?_ ?_ | exact Nat.le_max_left _ _ | exact fun h => h

/-- A strobe raises the frame number by one and keeps every block within its places. -/
theorem frameStrobe_tame {pins : BitVec 4} (h : Limits s) :
    Tame { s with frame := s.frame + 1 } (frameStrobe pins s) := by
  have k : Tame { s with frame := s.frame + 1 } { s with frame := s.frame + 1 } := Limits.tame h
  have t := sampleLines_tame (pins := pins) (tickTimers_tame k)
  unfold frameStrobe
  generalize sampleLines _ _ = u at t
  dsimp only
  split
  · exact frameWork_tame t
  · exact t

theorem eventConsumer_tame {v : Byte} (h : Tame b s) : Tame b (eventConsumer v s) := by
  unfold eventConsumer
  repeat' first
    | with_reducible assumption | split | with_reducible apply placeEvents_tame | with_reducible apply raiseNow_tame | with_reducible refine tame_mk ?_ rfl rfl rfl rfl rfl ⟨rfl, rfl⟩ ?_ ?_ ?_ ?_ | exact Nat.le_max_left _ _ | exact fun h => h

theorem rejectBinding_tame {cause : Cause} {kind : Option Kind} (h : Tame b s) : Tame b (rejectBinding cause kind s) := by
  unfold rejectBinding
  try lift_lets
  repeat' first
    | with_reducible assumption | split
    | (intro x; first
      | (have hx : Tame b x := by
          subst x
          repeat' first
            | with_reducible assumption | split | with_reducible apply discardReads_tame | with_reducible apply emitWrite_tame | with_reducible refine tame_mk ?_ rfl rfl rfl rfl rfl ⟨rfl, rfl⟩ ?_ ?_ ?_ ?_ | exact Nat.le_max_left _ _ | exact fun h => h
         clear_value x)
      | subst x | clear_value x | skip)
    | with_reducible apply discardReads_tame | with_reducible apply emitWrite_tame | with_reducible refine tame_mk ?_ rfl rfl rfl rfl rfl ⟨rfl, rfl⟩ ?_ ?_ ?_ ?_ | exact Nat.le_max_left _ _ | exact fun h => h

theorem raiseBindHold_tame (h : Tame b s) : Tame b (raiseBindHold s) := by
  unfold raiseBindHold
  refine tame_mk h rfl rfl rfl rfl rfl ⟨rfl, rfl⟩ (fun k => ⟨k.1, k.2.1, ?_, k.2.2.2⟩) id (Nat.le_max_left _ _) (Nat.le_max_left _ _)
  refine Nat.le_trans ?_ k.2.2.1
  exact List.Sublist.countP_le (List.filter_sublist)

theorem readAnchor_tame (h : Tame b s) : Tame b (readAnchor s) := by
  unfold readAnchor
  repeat' first
    | with_reducible assumption | split | with_reducible apply emitRead_tame | refine foldl_tame (fun s x h => ?_) _ ?_ | with_reducible refine tame_mk ?_ rfl rfl rfl rfl rfl ⟨rfl, rfl⟩ ?_ ?_ ?_ ?_ | exact Nat.le_max_left _ _ | exact fun h => h

theorem beginCapture_tame (h : Tame b s) : Tame b (beginCapture s) := by
  unfold beginCapture
  repeat' first
    | with_reducible assumption | split | with_reducible apply readAnchor_tame | with_reducible apply raiseBindHold_tame | with_reducible refine tame_mk ?_ rfl rfl rfl rfl rfl ⟨rfl, rfl⟩ ?_ ?_ ?_ ?_ | exact Nat.le_max_left _ _ | exact fun h => h

theorem readGroup_tame (h : Tame b s) : Tame b (readGroup s) := by
  unfold readGroup
  try lift_lets
  repeat' first
    | with_reducible assumption | split
    | (intro x; first
      | (have hx : Tame b x := by
          subst x
          repeat' first
            | with_reducible assumption | split | with_reducible apply emitRead_tame | refine foldl_tame (fun s x h => ?_) _ ?_ | with_reducible refine tame_mk ?_ rfl rfl rfl rfl rfl ⟨rfl, rfl⟩ ?_ ?_ ?_ ?_ | exact Nat.le_max_left _ _ | exact fun h => h
         clear_value x)
      | subst x | clear_value x | skip)
    | with_reducible apply emitRead_tame | refine foldl_tame (fun s x h => ?_) _ ?_ | with_reducible refine tame_mk ?_ rfl rfl rfl rfl rfl ⟨rfl, rfl⟩ ?_ ?_ ?_ ?_ | exact Nat.le_max_left _ _ | exact fun h => h

theorem anchorCaptured_tame (h : Tame b s) : Tame b (anchorCaptured s) := by
  unfold anchorCaptured
  try lift_lets
  repeat' first
    | with_reducible assumption | split
    | (intro x; first
      | (have hx : Tame b x := by
          subst x
          repeat' first
            | with_reducible assumption | split | with_reducible apply rejectBinding_tame | with_reducible apply readGroup_tame | with_reducible refine tame_mk ?_ rfl rfl rfl rfl rfl ⟨rfl, rfl⟩ ?_ ?_ ?_ ?_ | exact Nat.le_max_left _ _ | exact fun h => h
         clear_value x)
      | subst x | clear_value x | skip)
    | with_reducible apply rejectBinding_tame | with_reducible apply readGroup_tame | with_reducible refine tame_mk ?_ rfl rfl rfl rfl rfl ⟨rfl, rfl⟩ ?_ ?_ ?_ ?_ | exact Nat.le_max_left _ _ | exact fun h => h

theorem anchorRead_tame {k : Nat} {r : Completed} (h : Tame b s) : Tame b (anchorRead k r s) := by
  unfold anchorRead
  try lift_lets
  repeat' first
    | with_reducible assumption | split
    | (intro x; first
      | (have hx : Tame b x := by
          subst x
          repeat' first
            | with_reducible assumption | split | with_reducible apply rejectBinding_tame | with_reducible apply anchorCaptured_tame | with_reducible refine tame_mk ?_ rfl rfl rfl rfl rfl ⟨rfl, rfl⟩ ?_ ?_ ?_ ?_ | exact Nat.le_max_left _ _ | exact fun h => h
         clear_value x)
      | subst x | clear_value x | skip)
    | with_reducible apply rejectBinding_tame | with_reducible apply anchorCaptured_tame | with_reducible refine tame_mk ?_ rfl rfl rfl rfl rfl ⟨rfl, rfl⟩ ?_ ?_ ?_ ?_ | exact Nat.le_max_left _ _ | exact fun h => h

theorem holdEvent_tame {e : Event} (h : Tame b s) : Tame b (holdEvent e s) := by
  unfold holdEvent
  repeat' first
    | with_reducible assumption | split | with_reducible refine tame_mk ?_ rfl rfl rfl rfl rfl ⟨rfl, rfl⟩ ?_ ?_ ?_ ?_ | exact Nat.le_max_left _ _ | exact fun h => h

theorem takeParam_tame {c : Instr} (h : Tame b s) : Tame b (takeParam c s) := by
  unfold takeParam
  try lift_lets
  repeat' first
    | with_reducible assumption | split
    | (intro x; first
      | (have hx : Tame b x := by
          subst x
          repeat' first
            | with_reducible assumption | split | with_reducible apply holdEvent_tame | with_reducible apply sleepParameter_tame | with_reducible apply connectionParameter_tame | with_reducible apply mobilityParameter_tame | with_reducible refine tame_mk ?_ rfl rfl rfl rfl rfl ⟨rfl, rfl⟩ ?_ ?_ ?_ ?_ | exact Nat.le_max_left _ _ | exact fun h => h
         clear_value x)
      | subst x | clear_value x | skip)
    | with_reducible apply holdEvent_tame | with_reducible apply sleepParameter_tame | with_reducible apply connectionParameter_tame | with_reducible apply mobilityParameter_tame | with_reducible refine tame_mk ?_ rfl rfl rfl rfl rfl ⟨rfl, rfl⟩ ?_ ?_ ?_ ?_ | exact Nat.le_max_left _ _ | exact fun h => h

theorem takePlanLine_tame {ws : List Watched} {l : List Byte} (h : Tame b s) : Tame b (takePlanLine ws l s) := by
  unfold takePlanLine
  repeat' first
    | with_reducible assumption | split | with_reducible apply takeParam_tame | refine foldl_tame (fun s x h => ?_) _ ?_ | with_reducible refine tame_mk ?_ rfl rfl rfl rfl rfl ⟨rfl, rfl⟩ ?_ ?_ ?_ ?_ | exact Nat.le_max_left _ _ | exact fun h => h

theorem takeSlotWord_tame {n : Fin 13} {word : CellWord} {v : Half} (h : Tame b s) : Tame b (takeSlotWord n word v s) := by
  unfold takeSlotWord
  repeat' first
    | with_reducible assumption | split | with_reducible apply setSlot_tame | with_reducible apply holdEvent_tame | with_reducible refine tame_mk ?_ rfl rfl rfl rfl rfl ⟨rfl, rfl⟩ ?_ ?_ ?_ ?_ | exact Nat.le_max_left _ _ | exact fun h => h

theorem takeSlotConfig_tame {n : Fin 13} {l : List Byte} (h : Tame b s) : Tame b (takeSlotConfig n l s) := by
  unfold takeSlotConfig
  repeat' first
    | with_reducible assumption | split | with_reducible apply takeSlotWord_tame | with_reducible refine tame_mk ?_ rfl rfl rfl rfl rfl ⟨rfl, rfl⟩ ?_ ?_ ?_ ?_ | exact Nat.le_max_left _ _ | exact fun h => h

theorem takeValues_tame (h : Tame b s) : Tame b (takeValues s) := by
  unfold takeValues
  try lift_lets
  repeat' first
    | with_reducible assumption | split
    | (intro x; first
      | (have hx : Tame b x := by
          subst x
          repeat' first
            | with_reducible assumption | split | with_reducible apply takePlanLine_tame | with_reducible apply takeSlotConfig_tame | with_reducible apply retire_tame | refine foldl_tame (fun s x h => ?_) _ ?_ | with_reducible refine tame_mk ?_ rfl rfl rfl rfl rfl ⟨rfl, rfl⟩ ?_ ?_ ?_ ?_ | exact Nat.le_max_left _ _ | exact fun h => h
         clear_value x)
      | subst x | clear_value x | skip)
    | with_reducible apply takePlanLine_tame | with_reducible apply takeSlotConfig_tame | with_reducible apply retire_tame | refine foldl_tame (fun s x h => ?_) _ ?_ | with_reducible refine tame_mk ?_ rfl rfl rfl rfl rfl ⟨rfl, rfl⟩ ?_ ?_ ?_ ?_ | exact Nat.le_max_left _ _ | exact fun h => h

theorem regionsRead_tame (h : Tame b s) : Tame b (regionsRead s) := by
  unfold regionsRead
  try lift_lets
  repeat' first
    | with_reducible assumption | split
    | (intro x; first
      | (have hx : Tame b x := by
          subst x
          repeat' first
            | with_reducible assumption | split | with_reducible apply takeValues_tame | with_reducible apply emitWrite_tame | refine foldl_tame (fun s x h => ?_) _ ?_ | with_reducible refine tame_mk ?_ rfl rfl rfl rfl rfl ⟨rfl, rfl⟩ ?_ ?_ ?_ ?_ | exact Nat.le_max_left _ _ | exact fun h => h
         clear_value x)
      | subst x | clear_value x | skip)
    | with_reducible apply takeValues_tame | with_reducible apply emitWrite_tame | refine foldl_tame (fun s x h => ?_) _ ?_ | with_reducible refine tame_mk ?_ rfl rfl rfl rfl rfl ⟨rfl, rfl⟩ ?_ ?_ ?_ ?_ | exact Nat.le_max_left _ _ | exact fun h => h

theorem regionDone_tame {k : Nat} {r : Completed} (h : Tame b s) : Tame b (regionDone k r s) := by
  unfold regionDone
  try lift_lets
  repeat' first
    | with_reducible assumption | split
    | (intro x; first
      | (have hx : Tame b x := by
          subst x
          repeat' first
            | with_reducible assumption | split | with_reducible apply rejectBinding_tame | with_reducible apply regionsRead_tame | with_reducible apply readGroup_tame | with_reducible refine tame_mk ?_ rfl rfl rfl rfl rfl ⟨rfl, rfl⟩ ?_ ?_ ?_ ?_ | exact Nat.le_max_left _ _ | exact fun h => h
         clear_value x)
      | subst x | clear_value x | skip)
    | with_reducible apply rejectBinding_tame | with_reducible apply regionsRead_tame | with_reducible apply readGroup_tame | with_reducible refine tame_mk ?_ rfl rfl rfl rfl rfl ⟨rfl, rfl⟩ ?_ ?_ ?_ ?_ | exact Nat.le_max_left _ _ | exact fun h => h

theorem bindComplete_tame (h : Tame b s) : Tame b (bindComplete s) := by
  unfold bindComplete
  try lift_lets
  repeat' first
    | with_reducible assumption | split
    | (intro x; first
      | (have hx : Tame b x := by
          subst x
          repeat' first
            | with_reducible assumption | split | with_reducible apply published_tame | with_reducible apply raiseNow_tame | with_reducible apply presentHeld_tame | refine foldl_tame (fun s x h => ?_) _ ?_ | with_reducible refine tame_mk ?_ rfl rfl rfl rfl rfl ⟨rfl, rfl⟩ ?_ ?_ ?_ ?_ | exact Nat.le_max_left _ _ | exact fun h => h
         clear_value x)
      | subst x | clear_value x | skip)
    | with_reducible apply published_tame | with_reducible apply raiseNow_tame | with_reducible apply presentHeld_tame | refine foldl_tame (fun s x h => ?_) _ ?_ | with_reducible refine tame_mk ?_ rfl rfl rfl rfl rfl ⟨rfl, rfl⟩ ?_ ?_ ?_ ?_ | exact Nat.le_max_left _ _ | exact fun h => h

theorem beginUnbind_tame (h : Tame b s) : Tame b (beginUnbind s) := by
  unfold beginUnbind
  try lift_lets
  repeat' first
    | with_reducible assumption | split
    | (intro x; first
      | (have hx : Tame b x := by
          subst x
          repeat' first
            | with_reducible assumption | split | with_reducible apply emitWrite_tame | with_reducible apply requestShutdown_tame | with_reducible apply placeEvents_tame | with_reducible refine tame_mk ?_ rfl rfl rfl rfl rfl ⟨rfl, rfl⟩ ?_ ?_ ?_ ?_ | exact Nat.le_max_left _ _ | exact fun h => h
         clear_value x)
      | subst x | clear_value x | skip)
    | with_reducible apply emitWrite_tame | with_reducible apply requestShutdown_tame | with_reducible apply placeEvents_tame | with_reducible refine tame_mk ?_ rfl rfl rfl rfl rfl ⟨rfl, rfl⟩ ?_ ?_ ?_ ?_ | exact Nat.le_max_left _ _ | exact fun h => h

theorem enableWord_tame {v : Word} (h : Tame b s) : Tame b (enableWord v s) := by
  unfold enableWord
  try lift_lets
  repeat' first
    | with_reducible assumption | split
    | (intro x; first
      | (have hx : Tame b x := by
          subst x
          repeat' first
            | with_reducible assumption | split | with_reducible apply beginCapture_tame | with_reducible apply emitWrite_tame | with_reducible apply beginUnbind_tame | with_reducible refine tame_mk ?_ rfl rfl rfl rfl rfl ⟨rfl, rfl⟩ ?_ ?_ ?_ ?_ | exact Nat.le_max_left _ _ | exact fun h => h
         clear_value x)
      | subst x | clear_value x | skip)
    | with_reducible apply beginCapture_tame | with_reducible apply emitWrite_tame | with_reducible apply beginUnbind_tame | with_reducible refine tame_mk ?_ rfl rfl rfl rfl rfl ⟨rfl, rfl⟩ ?_ ?_ ?_ ?_ | exact Nat.le_max_left _ _ | exact fun h => h

theorem enableWritten_tame {v : Word} (h : Tame b s) : Tame b (enableWritten v s) := by
  unfold enableWritten
  repeat' first
    | with_reducible assumption | split | with_reducible apply enableWord_tame | with_reducible apply raiseNow_tame | with_reducible refine tame_mk ?_ rfl rfl rfl rfl rfl ⟨rfl, rfl⟩ ?_ ?_ ?_ ?_ | exact Nat.le_max_left _ _ | exact fun h => h

theorem unbindComplete_tame (h : Tame b s) : Tame b (unbindComplete s) := by
  unfold unbindComplete
  repeat' first
    | with_reducible assumption | split | with_reducible refine tame_mk ?_ rfl rfl rfl rfl rfl ⟨rfl, rfl⟩ ?_ ?_ ?_ ?_ | exact Nat.le_max_left _ _ | exact fun h => h

theorem arrive_tame {tag : BitVec 4} {err : Answer} {record : State → State} (h : Tame b s)
    (hr : Tame b s → Tame b (record s)) : Tame b (arrive tag err record s) := by
  unfold arrive
  refine processorActivity_tame ?_
  split
  · exact answer_tame h
  · exact hr h

theorem recordRead_tame {tag : BitVec 4} {line : Line} (h : Tame b s) : Tame b (recordRead tag line s) :=
  joinRead_tame h (.inl ⟨tag, rfl⟩)

theorem recordWrite_tame {tag : BitVec 4} {line : Line} {bytes : LineBytes} (h : Tame b s) : Tame b (recordWrite tag line bytes s) := by
  unfold recordWrite
  try lift_lets
  repeat' first
    | with_reducible assumption | split
    | (intro x; first
      | (have hx : Tame b x := by
          subst x
          repeat' first
            | with_reducible assumption | split | with_reducible apply tickClock_tame | with_reducible apply presentWrite_tame | with_reducible refine tame_mk ?_ rfl rfl rfl rfl rfl ⟨rfl, rfl⟩ ?_ ?_ ?_ ?_ | exact Nat.le_max_left _ _ | exact fun h => h
         clear_value x)
      | subst x | clear_value x | skip)
    | with_reducible apply tickClock_tame | with_reducible apply presentWrite_tame | with_reducible refine tame_mk ?_ rfl rfl rfl rfl rfl ⟨rfl, rfl⟩ ?_ ?_ ?_ ?_ | exact Nat.le_max_left _ _ | exact fun h => h

theorem takeNotice_tame {c : Instr} (h : Tame b s) : Tame b (takeNotice c s) := by
  unfold takeNotice
  repeat' first
    | with_reducible assumption | split | with_reducible apply radioRequest_tame | with_reducible apply sleepRequest_tame | with_reducible apply stopGrant_tame | with_reducible apply wakeAck_tame | with_reducible apply lineAcknowledge_tame | with_reducible apply sleepParameter_tame | with_reducible apply connectionParameter_tame | with_reducible apply mobilityParameter_tame | with_reducible apply cellNotice_tame | with_reducible apply callRequest_tame | with_reducible apply originate_tame | with_reducible apply answer_tame | with_reducible apply resume_tame | with_reducible apply requestUnknown_tame | with_reducible apply uplinkProducer_tame | with_reducible apply downlinkConsumer_tame | with_reducible apply outboxProducer_tame | with_reducible apply cancelWord_tame | with_reducible apply inboxConsumer_tame | with_reducible apply eventConsumer_tame | with_reducible refine tame_mk ?_ rfl rfl rfl rfl rfl ⟨rfl, rfl⟩ ?_ ?_ ?_ ?_ | exact Nat.le_max_left _ _ | exact fun h => h

theorem breach_tame {k : Kind} {i : Nat} {bytes : LineBytes} (h : Tame b s) : Tame b (breach k i bytes s) := by
  unfold breach
  try lift_lets
  repeat' first
    | with_reducible assumption | split
    | (intro x; first
      | (have hx : Tame b x := by
          subst x
          repeat' first
            | with_reducible assumption | split | with_reducible apply raiseNow_tame | with_reducible refine tame_mk ?_ rfl rfl rfl rfl rfl ⟨rfl, rfl⟩ ?_ ?_ ?_ ?_ | exact Nat.le_max_left _ _ | exact fun h => h
         clear_value x)
      | subst x | clear_value x | skip)
    | with_reducible apply raiseNow_tame | with_reducible refine tame_mk ?_ rfl rfl rfl rfl rfl ⟨rfl, rfl⟩ ?_ ?_ ?_ ?_ | exact Nat.le_max_left _ _ | exact fun h => h

theorem ignored_tame {k : Kind} {i : Nat} {bytes : LineBytes} (h : Tame b s) : Tame b (ignored k i bytes s) := by
  unfold ignored
  repeat' first
    | with_reducible assumption | split | with_reducible apply raiseNow_tame | with_reducible refine tame_mk ?_ rfl rfl rfl rfl rfl ⟨rfl, rfl⟩ ?_ ?_ ?_ ?_ | exact Nat.le_max_left _ _ | exact fun h => h

theorem acceptEnable_tame {line : Line} {bytes : LineBytes} (h : Tame b s) : Tame b (acceptEnable line bytes s) := by
  unfold acceptEnable
  repeat' first
    | with_reducible assumption | split | with_reducible apply enableWord_tame | with_reducible refine tame_mk ?_ rfl rfl rfl rfl rfl ⟨rfl, rfl⟩ ?_ ?_ ?_ ?_ | exact Nat.le_max_left _ _ | exact fun h => h

theorem acceptNotices_tame {k : Kind} {i : Nat} {bytes : LineBytes} (h : Tame b s) : Tame b (acceptNotices k i bytes s) := by
  unfold acceptNotices
  repeat' first
    | with_reducible assumption | split | with_reducible apply takeNotice_tame | refine foldl_tame (fun s x h => ?_) _ ?_ | with_reducible refine tame_mk ?_ rfl rfl rfl rfl rfl ⟨rfl, rfl⟩ ?_ ?_ ?_ ?_ | exact Nat.le_max_left _ _ | exact fun h => h

theorem decode_tame {line : Line} {bytes : LineBytes} (h : Tame b s) : Tame b (decode line bytes s) := by
  unfold decode
  repeat' first
    | with_reducible assumption | split | with_reducible apply acceptNotices_tame | with_reducible apply acceptEnable_tame | with_reducible apply ignored_tame | with_reducible apply breach_tame | with_reducible refine tame_mk ?_ rfl rfl rfl rfl rfl ⟨rfl, rfl⟩ ?_ ?_ ?_ ?_ | exact Nat.le_max_left _ _ | exact fun h => h

theorem acceptTail_limits {m : MemPath} (h : MemLimits m) : MemLimits { m with accept := m.accept.tail } :=
  ⟨h.1, h.2.1, Nat.le_trans (List.Sublist.countP_le (List.tail_sublist _)) h.2.2.1, h.2.2.2⟩

theorem acceptHost_tame {tag : BitVec 4} {line : Line} {bytes : LineBytes} (h : Tame b s)
    (room : hostTakes s line bytes = true) : Tame b (acceptHost tag line bytes s) := by
  unfold acceptHost
  refine serveReads_tame (decode_tame (answer_tame ?_))
  exact tame_mk h rfl rfl rfl rfl rfl ⟨takeHost_memState _ _ _, rfl⟩ (fun k => takeHost_limits _ _ (acceptTail_limits k) room) id (Nat.le_max_left _ _)
    (Nat.le_max_left _ _)

theorem accepted_tame {note : WriteNote} (h : Tame b s) : Tame b (accepted note s) := by
  unfold accepted
  repeat' first
    | with_reducible assumption | split | with_reducible apply bindComplete_tame | with_reducible apply presentHeld_tame | with_reducible apply unbindComplete_tame | with_reducible apply published_tame | with_reducible refine tame_mk ?_ rfl rfl rfl rfl rfl ⟨rfl, rfl⟩ ?_ ?_ ?_ ?_ | exact Nat.le_max_left _ _ | exact fun h => h

theorem acceptInternal_tame {note : WriteNote} {w : AccWrite} (h : Tame b s) (room : internalTakes s.mem w = true) :
    Tame b (acceptInternal note w s) := by
  unfold acceptInternal
  refine serveReads_tame (accepted_tame ?_)
  exact tame_mk h rfl rfl rfl rfl rfl ⟨takeInternal_memState _ _, rfl⟩ (fun k => takeInternal_limits _ (acceptTail_limits k) room) id (Nat.le_max_left _ _)
    (Nat.le_max_left _ _)

theorem acceptHead_tame (h : Tame b s) (room : headTakes s = true) : Tame b (acceptHead s) := by
  unfold acceptHead
  unfold headTakes at room
  split
  · exact h
  · rename_i w ws eq
    rw [eq] at room
    dsimp only at room
    split
    · rename_i tag arrived writer
      simp only [AccWrite.isHost, writer, if_true] at room
      exact acceptHost_tame h room
    · rename_i note writer
      simp only [AccWrite.isHost, writer, Bool.false_eq_true, if_false] at room
      exact acceptInternal_tame h room

theorem doAct_tame {a : Act} (h : Tame b s) (room : a.places = true → internalCount s.mem < Config.internalWrites) :
    Tame b (doAct a s) := by
  unfold doAct
  split
  · exact joinWrite_tame h (room rfl)
  · exact raiseNow_tame h
  · exact primaryCause_tame (raiseNow_tame h)
  · exact tame_mk h rfl rfl rfl rfl rfl ⟨rfl, rfl⟩ id handMsg_limits (Nat.le_max_left _ _) (Nat.le_max_left _ _)
  · exact forceEvents_tame h (room rfl)
  · exact forceWriteBack_tame h (room rfl)
  · exact joinWrite_tame h (room rfl)
  · exact placeRead_tame h
  · split
    · exact placeDown_tame h (room rfl)
    · exact h
  · exact h

theorem runActs_tame {j : Job} {l : List Act} (h : Tame b s) : Tame b (runActs j l s) := by
  induction l generalizing s with
  | nil => exact h
  | cons a rest ih =>
    unfold runActs
    split
    · exact waitActs_tame h
    · rename_i c
      refine ih (doAct_tame h (fun p => room_of_not_mustWait ?_))
      simpa [p] using c

theorem takeTurn_tame {w : Wait} (h : Tame b s) (room : internalCount s.mem < Config.internalWrites) :
    Tame b (takeTurn w s) := by
  unfold takeTurn
  dsimp only
  split
  · exact h
  · exact runActs_tame (doAct_tame (s := { s with mem := _ }) h (fun _ => room))

theorem placeReads_tame {j : Job} {l : List (ReadFor × Line)} (h : Tame b s) : Tame b (placeReads j l s) := by
  induction l generalizing s with
  | nil => exact h
  | cons r rest ih => exact ih (placeRead_tame h)

theorem takeReadTurn_tame {w : ReadWait} (h : Tame b s) (room : internalReadCount s.mem < Config.internalReads) :
    Tame b (takeReadTurn w s) := by
  unfold takeReadTurn
  dsimp only
  split
  · exact h
  · exact placeReads_tame (joinRead_tame (s := { s with mem := _ }) h (.inr (.inr room)))

@[simp] theorem freeEntry_memState (line : Line) (m : MemPath) : (freeEntry line m).memState = m.memState := by
  simp [freeEntry]

theorem freeEntry_limits {line : Line} {m : MemPath} (h : MemLimits m) : MemLimits (freeEntry line m) := by
  unfold freeEntry
  refine stageLeave_limits (noteOccupancy_limits ?_)
  obtain ⟨⟨a, b⟩, c⟩ := h
  refine ⟨⟨Nat.le_trans (List.length_filter_le _ _) a, ?_⟩, c⟩
  exact b.sublist ((List.filter_sublist).map _)

theorem drainDone_tame {line : Line} (h : Tame b s) : Tame b (drainDone line s) := by
  unfold drainDone
  have t : Tame b (serveReads { s with mem := freeEntry line s.mem }) :=
    serveReads_tame (tame_mk h rfl rfl rfl rfl rfl ⟨freeEntry_memState _ _, rfl⟩ freeEntry_limits id (Nat.le_max_left _ _) (Nat.le_max_left _ _))
  generalize serveReads _ = u at t
  dsimp only
  split
  · rename_i c
    simp only [Bool.and_eq_true] at c
    exact acceptHead_tame t c.2
  · exact t

theorem publishNext_tame {p : Publication} {rest : List Publication} (h : Tame b s)
    (fits : stageFits s.mem p.images = true) : Tame b (publishNext p rest s) := by
  unfold publishNext
  refine published_tame (serveReads_tame ?_)
  exact tame_mk h rfl rfl rfl rfl rfl ⟨publishImages_memState _ _ _, rfl⟩ (fun k => publishImages_limits (m := { s.mem with pubs := _ }) _ _ k fits) id
    (Nat.le_max_left _ _) (Nat.le_max_left _ _)

theorem hostReadDone_tame {tag : BitVec 4} {r : Completed} (h : Tame b s) : Tame b (hostReadDone tag r s) := by
  unfold hostReadDone
  repeat' first
    | with_reducible assumption | split | with_reducible apply answer_tame | with_reducible refine tame_mk ?_ rfl rfl rfl rfl rfl ⟨rfl, rfl⟩ ?_ ?_ ?_ ?_ | exact Nat.le_max_left _ _ | exact fun h => h

end Sys2Proof.Machine
end

