-- ==== Sys2Proof/Laws/Outcomes.lean ====
section
/-! SUPPORT. The shapes that meanings share: what runs on its occasion, an answer of the radio unit, a completed read. -/

namespace Sys2Proof.Machine

variable {b s : State}

theorem runIf_next (o : Bool) (f : State → State) (s : State) : ∃ t, runIf o f s = .next t := ⟨_, rfl⟩

/-- On its occasion a command has its effect, and the moment ends. -/
theorem runIf_on {o : Bool} (f : State → State) (s : State) (h : o = true) : runIf o f s = .next (settle (f s)) := by
  simp [runIf, h]

/-- Without its occasion a command has no effect. -/
theorem runIf_off {o : Bool} (f : State → State) (s : State) (h : o = false) : runIf o f s = .next s := by
  simp [runIf, h]

theorem runRead_next (o : Option ReadEntry) (data : List Byte) (err : Bool) (g : Completed → State → State) (s : State) :
    ∃ t, runRead o data err g s = .next t := by
  unfold runRead
  split <;> exact ⟨_, rfl⟩

/-- A frame or message that comes through its checks is carried out. -/
theorem received_next (c : Instr) (s : State) : ∃ t, received c s = .next t := by
  have air : ∀ c f, ∃ t, runAir c f s = .next t := fun c f => ⟨_, rfl⟩
  have ans : ∀ o f, ∃ t, runAnswer o f s = .next t := fun c f => ⟨_, rfl⟩
  cases c with
  | measureDone => exact ans _ _
  | listenDone => exact ans _ _
  | sigSent => exact ans _ _
  | switchDone => exact ans _ _
  | speechIn => exact runIf_next _ _ _
  | servingLost => exact runIf_next _ _ _
  | linkReady => exact runIf_next _ _ _
  | connectGrant => exact air _ _
  | connectReject => exact air _ _
  | reestablishAccept => exact air _ _
  | areaAccept => exact air _ _
  | areaReject => exact air _ _
  | offer => exact air _ _
  | ringing => exact air _ _
  | connect => exact air _ _
  | holdAccept => exact air _ _
  | resumeAccept => exact air _ _
  | release => exact air _ _
  | releaseDone => exact air _ _
  | textSegment => exact air _ _
  | transferOrder => exact air _ _
  | segmentAck r i a =>
    show ∃ t, execSegmentAck r i a s = .next t
    unfold execSegmentAck; split; exact air _ _; exact ⟨_, rfl⟩
  | _ => exact ⟨_, rfl⟩

/-- A tame effect makes a tame command. -/
theorem runIf_tame {o : Bool} {f : State → State} {t : State} (h : Tame b s) (hf : Tame b s → Tame b (f s))
    (e : runIf o f s = .next t) : Tame b t := by
  simp only [runIf, Host.Outcome.next.injEq] at e
  subst e
  split
  · exact settle_tame (hf h)
  · exact h

theorem runAir_tame {c : Instr} {f : State → State} {t : State} (h : Tame b s) (hf : ∀ u, Tame b u → Tame b (f u))
    (e : runAir c f s = .next t) : Tame b t := by
  unfold runAir at e
  exact runIf_tame h (fun k => hf (activity s) (activity_tame k)) e

theorem runAnswer_tame {op : RadioOp} {f : State → State} {t : State} (h : Tame b s) (hf : ∀ u, Tame b u → Tame b (f u))
    (e : runAnswer op f s = .next t) : Tame b t := by
  unfold runAnswer at e
  refine runIf_tame h (fun k => hf { s with link := { endOp op s.link with unanswered := 0 } } ?_) e
  exact tame_mk k rfl rfl rfl rfl rfl ⟨rfl, rfl⟩ id (fun l => ⟨(setOp_limits (op := op) (t := .stopped) (f := none) l).1, Nat.zero_lt_succ _⟩)
    (Nat.le_max_left _ _) (Nat.le_max_left _ _)

theorem completeRead_tame {q : ReadEntry} {data : List Byte} {err : Bool} {r : Completed} {t : State} (h : Tame b s)
    (e : completeRead q data err s = some (r, t)) : Tame b t := by
  have k : ∀ (x : ReadEntry) (fl : List Access), Tame b { s with mem := { s.mem with reads := s.mem.reads.erase x, inFlight := fl } } := by
    intro x fl
    obtain ⟨h1, h2, h3, h4, ⟨h5, h6, h7, h8, h9⟩, hr⟩ := h
    exact ⟨h1, h2, h3, h4, ⟨h5, h6, h7, Nat.le_trans (List.Sublist.countP_le List.erase_sublist) h8, h9⟩, hr⟩
  unfold completeRead at e
  dsimp only at e
  split at e
  · simp only [Option.some.injEq, Prod.mk.injEq] at e
    rw [← e.2]; exact k q s.mem.inFlight
  · split at e
    · simp only [Option.some.injEq, Prod.mk.injEq] at e
      rw [← e.2]; exact k q _
    · exact absurd e (by simp)
  · exact absurd e (by simp)

theorem runRead_tame {o : Option ReadEntry} {data : List Byte} {err : Bool} {g : Completed → State → State} {t : State}
    (h : Tame b s) (hg : ∀ r u, Tame b u → Tame b (g r u)) (e : runRead o data err g s = .next t) : Tame b t := by
  unfold runRead at e
  split at e
  · rename_i r u c
    simp only [Host.Outcome.next.injEq] at e
    subst e
    obtain ⟨q, _, c⟩ := Option.bind_eq_some_iff.1 c
    exact settle_tame (hg r u (completeRead_tame h c))
  · simp only [Host.Outcome.next.injEq] at e
    subst e; exact h

end Sys2Proof.Machine
end

