-- ==== Sys2Proof/Laws/TameCommands.lean ====
section
/-! SUPPORT. Every command but the resets, the strobe and the memory port's grants keeps the queue of commands, the frame
number and the resets, issues no access and leaves every block within its places. -/

namespace Sys2Proof.Machine

variable {b s : State}

theorem execListenDone_tame {o : ListenOutcome} {t : State} (h : Tame b s) (e : execListenDone o s = .next t) : Tame b t := by
  unfold execListenDone at e
  exact runAnswer_tame h (fun _ k => listenOutcome_tame k) e

theorem execSigSent_tame {t : State} (h : Tame b s) (e : execSigSent s = .next t) : Tame b t := by
  unfold execSigSent at e
  exact runAnswer_tame h (fun _ k => sigSent_tame k) e

theorem execResponseTimeout_tame {op : RadioOp} {t : State} (h : Tame b s) (e : execResponseTimeout op s = .next t) : Tame b t := by
  unfold execResponseTimeout at e
  exact runIf_tame h (fun k => responseTimeout_tame k) e

theorem execRecoveryTimerExpiry_tame {t : State} (h : Tame b s) (e : execRecoveryTimerExpiry s = .next t) : Tame b t := by
  unfold execRecoveryTimerExpiry at e
  refine runIf_tame h (fun k => ?_) e
  refine linkOut_tame ?_
  exact tame_mk k rfl rfl rfl rfl rfl ⟨rfl, rfl⟩ (fun l => l) (fun l => l) (Nat.le_max_left _ _) (Nat.le_max_left _ _)

theorem execLinkReady_tame {t : State} (h : Tame b s) (e : execLinkReady s = .next t) : Tame b t := by
  unfold execLinkReady at e
  exact runIf_tame h (fun k => linkReady_tame k) e

theorem execConnectionParameter_tame {p : ConnParam} {v : Half} {t : State} (h : Tame b s) (e : execConnectionParameter p v s = .next t) : Tame b t := by
  unfold execConnectionParameter at e
  exact runIf_tame h (fun k => connectionParameter_tame k) e

theorem execRadioRequest_tame {v : Byte} {t : State} (h : Tame b s) (e : execRadioRequest v s = .next t) : Tame b t := by
  unfold execRadioRequest at e
  exact runIf_tame h (fun k => radioRequest_tame k) e

theorem execConnectGrant_tame {t : State} (h : Tame b s) (e : execConnectGrant s = .next t) : Tame b t := by
  unfold execConnectGrant at e
  exact runAir_tame h (fun _ k => connectGrant_tame k) e

theorem execConnectReject_tame {t : State} (h : Tame b s) (e : execConnectReject s = .next t) : Tame b t := by
  unfold execConnectReject at e
  exact runAir_tame h (fun _ k => connectReject_tame k) e

theorem execConnectTimerExpiry_tame {t : State} (h : Tame b s) (e : execConnectTimerExpiry s = .next t) : Tame b t := by
  unfold execConnectTimerExpiry at e
  exact runIf_tame h (fun k => connectFail_tame k) e

theorem execAreaAccept_tame {area : Half} {t : State} (h : Tame b s) (e : execAreaAccept area s = .next t) : Tame b t := by
  unfold execAreaAccept at e
  exact runAir_tame h (fun _ k => areaAccept_tame k) e

theorem execAreaReject_tame {area : Half} {t : State} (h : Tame b s) (e : execAreaReject area s = .next t) : Tame b t := by
  unfold execAreaReject at e
  exact runAir_tame h (fun _ k => areaReject_tame k) e

theorem execAreaAnswerTimerExpiry_tame {t : State} (h : Tame b s) (e : execAreaAnswerTimerExpiry s = .next t) : Tame b t := by
  unfold execAreaAnswerTimerExpiry at e
  exact runIf_tame h (fun k => areaServed_tame k) e

theorem execInactivityTimerExpiry_tame {t : State} (h : Tame b s) (e : execInactivityTimerExpiry s = .next t) : Tame b t := by
  unfold execInactivityTimerExpiry at e
  exact runIf_tame h (fun k => leaveIdle_tame k) e

theorem execReestablishAccept_tame {t : State} (h : Tame b s) (e : execReestablishAccept s = .next t) : Tame b t := by
  unfold execReestablishAccept at e
  exact runAir_tame h (fun _ k => reestablishAccept_tame k) e

theorem execReestablishmentTimerExpiry_tame {t : State} (h : Tame b s) (e : execReestablishmentTimerExpiry s = .next t) : Tame b t := by
  unfold execReestablishmentTimerExpiry at e
  exact runIf_tame h (fun k => leaveService_tame k) e

theorem execShutdownTimerExpiry_tame {t : State} (h : Tame b s) (e : execShutdownTimerExpiry s = .next t) : Tame b t := by
  unfold execShutdownTimerExpiry at e
  exact runIf_tame h (fun k => shutdownEnd_tame k) e

theorem execServingLost_tame {t : State} (h : Tame b s) (e : execServingLost s = .next t) : Tame b t := by
  unfold execServingLost at e
  exact runIf_tame h (fun k => servingLost_tame k) e

theorem execCellConfigurationNotice_tame {n : Fin 13} {word : CellWord} {v : Half} {t : State} (h : Tame b s) (e : execCellConfigurationNotice n word v s = .next t) : Tame b t := by
  unfold execCellConfigurationNotice at e
  exact runIf_tame h (fun k => cellNotice_tame k) e

theorem execReloadReadDone_tame {data : ReadData} {err : Bool} {t : State} (h : Tame b s) (e : execReloadReadDone data err s = .next t) : Tame b t := by
  unfold execReloadReadDone at e
  split at e
  · split at e
    · exact runRead_tame h (fun _ _ k => reloadDone_tame k) e
    · simp only [Host.Outcome.next.injEq] at e; subst e; exact h
  · simp only [Host.Outcome.next.injEq] at e; subst e; exact h

theorem execRoundTimerExpiry_tame {t : State} (h : Tame b s) (e : execRoundTimerExpiry s = .next t) : Tame b t := by
  unfold execRoundTimerExpiry at e
  refine runIf_tame h (fun k => ?_) e
  refine wantRound_tame ?_
  exact tame_mk k rfl rfl rfl rfl rfl ⟨rfl, rfl⟩ (fun l => l) (fun l => l) (Nat.le_max_left _ _) (Nat.le_max_left _ _)

theorem execSettleDelayExpiry_tame {t : State} (h : Tame b s) (e : execSettleDelayExpiry s = .next t) : Tame b t := by
  unfold execSettleDelayExpiry at e
  refine runIf_tame h (fun k => ?_) e
  refine enterSample_tame ?_
  exact tame_mk k rfl rfl rfl rfl rfl ⟨rfl, rfl⟩ (fun l => l) (fun l => l) (Nat.le_max_left _ _) (Nat.le_max_left _ _)

theorem execMeasureDone_tame {level : Half} {t : State} (h : Tame b s) (e : execMeasureDone level s = .next t) : Tame b t := by
  unfold execMeasureDone at e
  exact runAnswer_tame h (fun _ k => measureOutcome_tame k) e

theorem execMobilityParameter_tame {p : MobParam} {v : Half} {t : State} (h : Tame b s) (e : execMobilityParameter p v s = .next t) : Tame b t := by
  unfold execMobilityParameter at e
  exact runIf_tame h (fun k => mobilityParameter_tame k) e

theorem execHoldTimerExpiry_tame {n : Fin 13} {t : State} (h : Tame b s) (e : execHoldTimerExpiry n s = .next t) : Tame b t := by
  unfold execHoldTimerExpiry at e
  exact runIf_tame h (fun k => candidateMatures_tame k) e

theorem execReportTimerExpiry_tame {t : State} (h : Tame b s) (e : execReportTimerExpiry s = .next t) : Tame b t := by
  unfold execReportTimerExpiry at e
  refine runIf_tame h (fun k => ?_) e
  refine considerReport_tame ?_
  exact tame_mk k rfl rfl rfl rfl rfl ⟨rfl, rfl⟩ (fun l => l) (fun l => l) (Nat.le_max_left _ _) (Nat.le_max_left _ _)

theorem execTransferOrder_tame {carrier code activation : Half} {t : State} (h : Tame b s) (e : execTransferOrder carrier code activation s = .next t) : Tame b t := by
  unfold execTransferOrder at e
  exact runAir_tame h (fun _ k => transferOrder_tame k) e

theorem execActivationTimerExpiry_tame {t : State} (h : Tame b s) (e : execActivationTimerExpiry s = .next t) : Tame b t := by
  unfold execActivationTimerExpiry at e
  refine runIf_tame h (fun k => ?_) e
  refine orderDue_tame ?_
  exact tame_mk k rfl rfl rfl rfl rfl ⟨rfl, rfl⟩ (fun l => l) (fun l => l) (Nat.le_max_left _ _) (Nat.le_max_left _ _)

theorem execSwitchDone_tame {synced : Bool} {t : State} (h : Tame b s) (e : execSwitchDone synced s = .next t) : Tame b t := by
  unfold execSwitchDone at e
  exact runAnswer_tame h (fun _ k => switchOutcome_tame k) e

theorem execRequestOriginate_tame {r : Fin 4} {t : State} (h : Tame b s) (e : execRequestOriginate r s = .next t) : Tame b t := by
  unfold execRequestOriginate at e
  exact runIf_tame h (fun k => callRequest_tame k) e

theorem execRequestAnswer_tame {r : Fin 4} {t : State} (h : Tame b s) (e : execRequestAnswer r s = .next t) : Tame b t := by
  unfold execRequestAnswer at e
  exact runIf_tame h (fun k => callRequest_tame k) e

theorem execRequestHold_tame {r : Fin 4} {t : State} (h : Tame b s) (e : execRequestHold r s = .next t) : Tame b t := by
  unfold execRequestHold at e
  exact runIf_tame h (fun k => callRequest_tame k) e

theorem execRequestResume_tame {r : Fin 4} {t : State} (h : Tame b s) (e : execRequestResume r s = .next t) : Tame b t := by
  unfold execRequestResume at e
  exact runIf_tame h (fun k => callRequest_tame k) e

theorem execRequestSwap_tame {r : Fin 4} {t : State} (h : Tame b s) (e : execRequestSwap r s = .next t) : Tame b t := by
  unfold execRequestSwap at e
  exact runIf_tame h (fun k => callRequest_tame k) e

theorem execRequestRelease_tame {r : Fin 4} {t : State} (h : Tame b s) (e : execRequestRelease r s = .next t) : Tame b t := by
  unfold execRequestRelease at e
  exact runIf_tame h (fun k => callRequest_tame k) e

theorem execRequestUnknown_tame {r : Fin 4} {code : Byte} {t : State} (h : Tame b s) (e : execRequestUnknown r code s = .next t) : Tame b t := by
  unfold execRequestUnknown at e
  exact runIf_tame h (fun k => requestUnknown_tame k) e

theorem execDialStringCaptured_tame {r : Fin 4} {data : ReadData} {err : Bool} {t : State} (h : Tame b s) (e : execDialStringCaptured r data err s = .next t) : Tame b t := by
  unfold execDialStringCaptured at e
  exact runRead_tame h (fun _ _ k => dialCaptured_tame k) e

theorem execRinging_tame {ref : Byte} {t : State} (h : Tame b s) (e : execRinging ref s = .next t) : Tame b t := by
  unfold execRinging at e
  exact runAir_tame h (fun _ k => ringing_tame k) e

theorem execConnect_tame {ref : Byte} {t : State} (h : Tame b s) (e : execConnect ref s = .next t) : Tame b t := by
  unfold execConnect at e
  exact runAir_tame h (fun _ k => connected_tame k) e

theorem execOffer_tame {ref : Byte} {caller : List Digit} {t : State} (h : Tame b s) (e : execOffer ref caller s = .next t) : Tame b t := by
  unfold execOffer at e
  exact runAir_tame h (fun _ k => offer_tame k) e

theorem execHoldAccept_tame {ref : Byte} {t : State} (h : Tame b s) (e : execHoldAccept ref s = .next t) : Tame b t := by
  unfold execHoldAccept at e
  exact runAir_tame h (fun _ k => holdAccept_tame k) e

theorem execResumeAccept_tame {ref : Byte} {t : State} (h : Tame b s) (e : execResumeAccept ref s = .next t) : Tame b t := by
  unfold execResumeAccept at e
  exact runAir_tame h (fun _ k => resumeAccept_tame k) e

theorem execRelease_tame {ref cause : Byte} {t : State} (h : Tame b s) (e : execRelease ref cause s = .next t) : Tame b t := by
  unfold execRelease at e
  exact runAir_tame h (fun _ k => networkRelease_tame k) e

theorem execReleaseDone_tame {ref : Byte} {t : State} (h : Tame b s) (e : execReleaseDone ref s = .next t) : Tame b t := by
  unfold execReleaseDone at e
  exact runAir_tame h (fun _ k => releaseDone_tame k) e

theorem execDialingTimerExpiry_tame {r : Fin 4} {t : State} (h : Tame b s) (e : execDialingTimerExpiry r s = .next t) : Tame b t := by
  unfold execDialingTimerExpiry at e
  exact runIf_tame h (fun k => releaseRec_tame k) e

theorem execRingingOutTimerExpiry_tame {r : Fin 4} {t : State} (h : Tame b s) (e : execRingingOutTimerExpiry r s = .next t) : Tame b t := by
  unfold execRingingOutTimerExpiry at e
  exact runIf_tame h (fun k => releaseRec_tame k) e

theorem execIncomingTimerExpiry_tame {r : Fin 4} {t : State} (h : Tame b s) (e : execIncomingTimerExpiry r s = .next t) : Tame b t := by
  unfold execIncomingTimerExpiry at e
  exact runIf_tame h (fun k => releaseRec_tame k) e

theorem execExchangeTimerExpiry_tame {r : Fin 4} {t : State} (h : Tame b s) (e : execExchangeTimerExpiry r s = .next t) : Tame b t := by
  unfold execExchangeTimerExpiry at e
  exact runIf_tame h (fun k => exchangeFailed_tame k) e

theorem execReleasingTimerExpiry_tame {r : Fin 4} {t : State} (h : Tame b s) (e : execReleasingTimerExpiry r s = .next t) : Tame b t := by
  unfold execReleasingTimerExpiry at e
  exact runIf_tame h (fun k => releasingEnds_tame k) e

theorem execUplinkProducerWrite_tame {v : Byte} {t : State} (h : Tame b s) (e : execUplinkProducerWrite v s = .next t) : Tame b t := by
  unfold execUplinkProducerWrite at e
  exact runIf_tame h (fun k => uplinkProducer_tame k) e

theorem execDownlinkConsumerWrite_tame {v : Byte} {t : State} (h : Tame b s) (e : execDownlinkConsumerWrite v s = .next t) : Tame b t := by
  unfold execDownlinkConsumerWrite at e
  exact runIf_tame h (fun k => downlinkConsumer_tame k) e

theorem execSpeechFetchDone_tame {data : ReadData} {err : Bool} {t : State} (h : Tame b s) (e : execSpeechFetchDone data err s = .next t) : Tame b t := by
  unfold execSpeechFetchDone at e
  exact runRead_tame h (fun _ _ k => speechFetched_tame k) e

theorem execSpeechIn_tame {frame : List Byte} {t : State} (h : Tame b s) (e : execSpeechIn frame s = .next t) : Tame b t := by
  unfold execSpeechIn at e
  exact runIf_tame h (fun k => speechIn_tame k) e

theorem execOutboxProducerWrite_tame {v : Byte} {t : State} (h : Tame b s) (e : execOutboxProducerWrite v s = .next t) : Tame b t := by
  unfold execOutboxProducerWrite at e
  exact runIf_tame h (fun k => outboxProducer_tame k) e

theorem execCancelWordWrite_tame {n : Fin 16} {v : Byte} {t : State} (h : Tame b s) (e : execCancelWordWrite n v s = .next t) : Tame b t := by
  unfold execCancelWordWrite at e
  exact runIf_tame h (fun k => cancelWord_tame k) e

theorem execDescriptorReadDone_tame {data : ReadData} {err : Bool} {t : State} (h : Tame b s) (e : execDescriptorReadDone data err s = .next t) : Tame b t := by
  unfold execDescriptorReadDone at e
  exact runRead_tame h (fun _ _ k => textRead_tame takeDescriptor_tame k) e

theorem execBodyReadDone_tame {k : Fin 11} {data : ReadData} {err : Bool} {t : State} (h : Tame b s) (e : execBodyReadDone k data err s = .next t) : Tame b t := by
  unfold execBodyReadDone at e
  exact runRead_tame h (fun _ _ k => textRead_tame takeBody_tame k) e

theorem execSegmentAck_tame {ref index : Byte} {res : AckResult} {t : State} (h : Tame b s) (e : execSegmentAck ref index res s = .next t) : Tame b t := by
  unfold execSegmentAck at e
  split at e
  · exact runAir_tame h (fun _ k => segmentAck_tame k) e
  · simp only [Host.Outcome.next.injEq] at e; subst e; exact h

theorem execAckTimerExpiry_tame {t : State} (h : Tame b s) (e : execAckTimerExpiry s = .next t) : Tame b t := by
  unfold execAckTimerExpiry at e
  exact runIf_tame h (fun k => segmentFailed_tame k) e

theorem execRetryTimerExpiry_tame {t : State} (h : Tame b s) (e : execRetryTimerExpiry s = .next t) : Tame b t := by
  unfold execRetryTimerExpiry at e
  refine runIf_tame h (fun k => ?_) e
  exact tame_mk k rfl rfl rfl rfl rfl ⟨rfl, rfl⟩ (fun l => l) (fun l => l) (Nat.le_max_left _ _) (Nat.le_max_left _ _)

theorem execInboxConsumerWrite_tame {v : Byte} {t : State} (h : Tame b s) (e : execInboxConsumerWrite v s = .next t) : Tame b t := by
  unfold execInboxConsumerWrite at e
  exact runIf_tame h (fun k => inboxConsumer_tame k) e

theorem execTextSegment_tame {ref : Byte} {sender : List Digit} {index count : Byte} {payload : List Byte} {t : State} (h : Tame b s) (e : execTextSegment ref sender index count payload s = .next t) : Tame b t := by
  unfold execTextSegment at e
  exact runAir_tame h (fun _ k => textSegment_tame k) e

theorem execContextTimerExpiry_tame {ring : Byte} {t : State} (h : Tame b s) (e : execContextTimerExpiry ring s = .next t) : Tame b t := by
  unfold execContextTimerExpiry at e
  split at e
  · exact runIf_tame h abandonCtx_tame e
  · simp only [Host.Outcome.next.injEq] at e; subst e; exact h

theorem execSleepParameter_tame {q : SleepParam} {v : Half} {t : State} (h : Tame b s) (e : execSleepParameter q v s = .next t) : Tame b t := by
  unfold execSleepParameter at e
  exact runIf_tame h (fun k => sleepParameter_tame k) e

theorem execSleepRequest_tame {v : Byte} {t : State} (h : Tame b s) (e : execSleepRequest v s = .next t) : Tame b t := by
  unfold execSleepRequest at e
  exact runIf_tame h (fun k => sleepRequest_tame k) e

theorem execStopGrant_tame {v : Byte} {t : State} (h : Tame b s) (e : execStopGrant v s = .next t) : Tame b t := by
  unfold execStopGrant at e
  exact runIf_tame h (fun k => stopGrant_tame k) e

theorem execQuiesceTimerExpiry_tame {t : State} (h : Tame b s) (e : execQuiesceTimerExpiry s = .next t) : Tame b t := by
  unfold execQuiesceTimerExpiry at e
  exact runIf_tame h (fun k => abandonSleep_tame k) e

theorem execWakeAck_tame {v : Byte} {t : State} (h : Tame b s) (e : execWakeAck v s = .next t) : Tame b t := by
  unfold execWakeAck at e
  exact runIf_tame h (fun k => wakeAck_tame k) e

theorem execRouseWindowExpiry_tame {t : State} (h : Tame b s) (e : execRouseWindowExpiry s = .next t) : Tame b t := by
  unfold execRouseWindowExpiry at e
  refine runIf_tame h (fun k => ?_) e
  exact tame_mk k rfl rfl rfl rfl rfl ⟨rfl, rfl⟩ (fun l => l) (fun l => l) (Nat.le_max_left _ _) (Nat.le_max_left _ _)

theorem execLineAcknowledge_tame {l : Fin 4} {v : Byte} {t : State} (h : Tame b s) (e : execLineAcknowledge l v s = .next t) : Tame b t := by
  unfold execLineAcknowledge at e
  exact runIf_tame h (fun k => lineAcknowledge_tame k) e

theorem execLongPressTimerExpiry_tame {t : State} (h : Tame b s) (e : execLongPressTimerExpiry s = .next t) : Tame b t := by
  unfold execLongPressTimerExpiry at e
  refine runIf_tame h (fun k => ?_) e
  refine lineShutdown_tame ?_
  exact tame_mk k rfl rfl rfl rfl rfl ⟨rfl, rfl⟩ (fun l => l) (fun l => l) (Nat.le_max_left _ _) (Nat.le_max_left _ _)

theorem execEventConsumerWrite_tame {v : Byte} {t : State} (h : Tame b s) (e : execEventConsumerWrite v s = .next t) : Tame b t := by
  unfold execEventConsumerWrite at e
  exact runIf_tame h (fun k => eventConsumer_tame k) e

theorem execEnableWordWrite_tame {v : Word} {t : State} (h : Tame b s) (e : execEnableWordWrite v s = .next t) : Tame b t := by
  unfold execEnableWordWrite at e
  exact runIf_tame h (fun k => enableWritten_tame k) e

theorem execAnchorReadDone_tame {k : Fin 4} {data : ReadData} {err : Bool} {t : State} (h : Tame b s) (e : execAnchorReadDone k data err s = .next t) : Tame b t := by
  unfold execAnchorReadDone at e
  exact runRead_tame h (fun _ _ k => anchorRead_tame k) e

theorem execRegionReadDone_tame {k : Fin 19} {data : ReadData} {err : Bool} {t : State} (h : Tame b s) (e : execRegionReadDone k data err s = .next t) : Tame b t := by
  unfold execRegionReadDone at e
  exact runRead_tame h (fun _ _ k => regionDone_tame k) e

theorem execUnbindTimerExpiry_tame {t : State} (h : Tame b s) (e : execUnbindTimerExpiry s = .next t) : Tame b t := by
  unfold execUnbindTimerExpiry at e
  exact runIf_tame h (fun k => unbindEnd_tame k) e

theorem execProcessorRead_tame {tag : BitVec 4} {line : BitVec 26} {t : State} (h : Tame b s) (e : execProcessorRead tag line s = .next t) : Tame b t := by
  unfold execProcessorRead at e
  exact runIf_tame h (fun k => arrive_tame k recordRead_tame) e

theorem execProcessorWrite_tame {tag : BitVec 4} {line : BitVec 26} {bytes : List (BitVec 6 × Byte)} {t : State} (h : Tame b s) (e : execProcessorWrite tag line bytes s = .next t) : Tame b t := by
  unfold execProcessorWrite at e
  exact runIf_tame h (fun k => arrive_tame k recordWrite_tame) e

theorem execHostWriteAccept_tame {t : State} (h : Tame b s) (e : execHostWriteAccept s = .next t) : Tame b t := by
  unfold execHostWriteAccept at e
  cases c : (headIsHost s && headTakes s) with
  | false => rw [c] at e; simp only [runIf, Bool.false_eq_true, if_false, Host.Outcome.next.injEq] at e; subst e; exact h
  | true => exact runIf_tame h (fun k => acceptHead_tame k ((Bool.and_eq_true _ _).mp c).2) e

theorem execInternalWriteAccept_tame {t : State} (h : Tame b s) (e : execInternalWriteAccept s = .next t) : Tame b t := by
  unfold execInternalWriteAccept at e
  cases c : (!headIsHost s && headTakes s) with
  | false => rw [c] at e; simp only [runIf, Bool.false_eq_true, if_false, Host.Outcome.next.injEq] at e; subst e; exact h
  | true => exact runIf_tame h (fun k => acceptHead_tame k ((Bool.and_eq_true _ _).mp c).2) e

theorem execInternalWritePlaceWait_tame {j : Job} {t : State} (h : Tame b s) (e : execInternalWritePlaceWait j s = .next t) : Tame b t := by
  unfold execInternalWritePlaceWait at e
  split at e
  · cases c : decide (internalCount s.mem < Config.internalWrites) with
    | false => rw [c] at e; simp only [runIf, Bool.false_eq_true, if_false, Host.Outcome.next.injEq] at e; subst e; exact h
    | true => exact runIf_tame h (fun k => takeTurn_tame k (of_decide_eq_true c)) e
  · simp only [Host.Outcome.next.injEq] at e; subst e; exact h

theorem execInternalReadPlaceWait_tame {j : Job} {t : State} (h : Tame b s) (e : execInternalReadPlaceWait j s = .next t) : Tame b t := by
  unfold execInternalReadPlaceWait at e
  split at e
  · cases c : decide (internalReadCount s.mem < Config.internalReads) with
    | false => rw [c] at e; simp only [runIf, Bool.false_eq_true, if_false, Host.Outcome.next.injEq] at e; subst e; exact h
    | true => exact runIf_tame h (fun k => takeReadTurn_tame k (of_decide_eq_true c)) e
  · simp only [Host.Outcome.next.injEq] at e; subst e; exact h

theorem execDrainDone_tame {line : BitVec 26} {t : State} (h : Tame b s) (e : execDrainDone line s = .next t) : Tame b t := by
  unfold execDrainDone at e
  exact runIf_tame h (fun k => drainDone_tame k) e

theorem execStagePublish_tame {t : State} (h : Tame b s) (e : execStagePublish s = .next t) : Tame b t := by
  unfold execStagePublish at e
  split at e
  · rename_i p rest _
    cases c : stageFits s.mem p.images with
    | false => rw [c] at e; simp only [runIf, Bool.false_eq_true, if_false, Host.Outcome.next.injEq] at e; subst e; exact h
    | true => exact runIf_tame h (fun k => publishNext_tame k c) e
  · simp only [Host.Outcome.next.injEq] at e; subst e; exact h

theorem execHostReadDone_tame {tag : BitVec 4} {data : List Byte} {err : Bool} {t : State} (h : Tame b s) (e : execHostReadDone tag data err s = .next t) : Tame b t := by
  unfold execHostReadDone at e
  exact runRead_tame h (fun _ _ k => hostReadDone_tame k) e

theorem next_tame {t : State} (h : Tame b s) (e : (.next s : Host.Outcome State Fault Refusal) = .next t) : Tame b t := by
  simp only [Host.Outcome.next.injEq] at e
  subst e
  exact h

theorem received_tame {c : Instr} {t : State} (h : Tame b s) (e : received c s = .next t) : Tame b t := by
  cases c with
  | measureDone => exact execMeasureDone_tame h e
  | listenDone => exact execListenDone_tame h e
  | sigSent => exact execSigSent_tame h e
  | speechIn => exact execSpeechIn_tame h e
  | switchDone => exact execSwitchDone_tame h e
  | servingLost => exact execServingLost_tame h e
  | linkReady => exact execLinkReady_tame h e
  | connectGrant => exact execConnectGrant_tame h e
  | connectReject => exact execConnectReject_tame h e
  | reestablishAccept => exact execReestablishAccept_tame h e
  | areaAccept => exact execAreaAccept_tame h e
  | areaReject => exact execAreaReject_tame h e
  | offer => exact execOffer_tame h e
  | ringing => exact execRinging_tame h e
  | connect => exact execConnect_tame h e
  | holdAccept => exact execHoldAccept_tame h e
  | resumeAccept => exact execResumeAccept_tame h e
  | release => exact execRelease_tame h e
  | releaseDone => exact execReleaseDone_tame h e
  | textSegment => exact execTextSegment_tame h e
  | segmentAck => exact execSegmentAck_tame h e
  | transferOrder => exact execTransferOrder_tame h e
  | _ => exact next_tame h e

theorem execBadFrame_tame {bytes : List Byte} {t : State} (h : Tame b s) (e : execBadFrame bytes s = .next t) : Tame b t := by
  unfold execBadFrame at e
  split at e
  · exact received_tame h e
  · simp only [Host.Outcome.next.injEq] at e; subst e; exact h

theorem execAirMessageInvalid_tame {payload : List Byte} {t : State} (h : Tame b s) (e : execAirMessageInvalid payload s = .next t) : Tame b t := by
  unfold execAirMessageInvalid at e
  split at e
  · exact received_tame h e
  · simp only [Host.Outcome.next.injEq] at e; subst e; exact h

end Sys2Proof.Machine
end

