-- ==== Sys2Proof/Laws/Resets.lean ====
section
/-! SUPPORT. The two resets keep the limits, and which commands are tame. -/

namespace Sys2Proof.Machine
variable {s t : State}

theorem teardownWrites_length (s : State) : (teardownWrites s).length ≤ 6 := by
  unfold teardownWrites
  split
  · have a : ∀ f : Fin 4 → Option WriteReq, ((List.finRange 4).filterMap f).length ≤ 4 := fun f =>
      Nat.le_trans (List.length_filterMap_le _ _) (by simp)
    have b : (s.texts.send.toList).length ≤ 1 := by cases s.texts.send <;> simp
    simp only [List.length_append, List.length_map, List.length_singleton]
    have := a (fun r => if (s.calls.recs[r]).state == .free then none
      else some (writeAt s .call r.val (fieldBytes [(0x10, [CallState.free.code]), (0x15, [Cause.reset.code])])))
    omega
  · simp

theorem placeWrites_limits (ws : List WriteReq) {s : State} (h : Limits s) (k : internalCount s.mem + ws.length ≤ Config.internalWrites) :
    Limits (ws.foldl (fun s w => joinWrite w s) s) ∧ (ws.foldl (fun s w => joinWrite w s) s).teardown = s.teardown := by
  induction ws generalizing s with
  | nil => exact ⟨h, rfl⟩
  | cons w ws ih =>
    rw [List.foldl_cons]
    have k' : internalCount s.mem + (ws.length + 1) ≤ Config.internalWrites := k
    have := (joinWrite_tame (w := w) h.tame (by omega)).limits
    have c : internalCount (joinWrite w s).mem = internalCount s.mem + 1 := by
      simp [internalCount, joinWrite, tickClock, List.countP_append, AccWrite.isHost]
    exact ih this (by omega)

theorem placeTeardown_safe (h : Safe s) (q : drained s = true) : Safe (placeTeardown s) := by
  have e : s.mem.accept = [] := by
    simp only [drained, memoryQuiet, Bool.and_eq_true, List.isEmpty_iff] at q
    exact q.1.1.1.1.1
  have z : internalCount s.mem = 0 := by simp [internalCount, e]
  have n := h.2
  have p := placeWrites_limits s.teardown (s := { s with resetPhase := .teardown, teardown := [] }) h.1
    (by show internalCount s.mem + _ ≤ 16; omega)
  exact ⟨p.1, Nat.le_trans (Nat.le_of_eq (congrArg List.length p.2)) (Nat.zero_le _)⟩

/-- No internal write joins the list at RESET_N (R46). -/
theorem atReset_count (l : List AccWrite) :
    (l.filterMap AccWrite.atReset).countP (fun w => !w.isHost) ≤ l.countP (fun w => !w.isHost) := by
  induction l with
  | nil => exact Nat.le_refl _
  | cons w ws ih =>
    simp only [List.filterMap_cons, List.countP_cons]
    split
    · omega
    · rename_i v e
      rw [List.countP_cons]
      have : (!v.isHost) = true → (!w.isHost) = true := by
        intro _
        unfold AccWrite.atReset at e
        unfold AccWrite.isHost
        split at e <;> simp_all
      by_cases c : (!v.isHost) = true
      · simp only [c, this c, if_true]; omega
      · rw [if_neg c]; split <;> omega

theorem beginWarmReset_safe (h : Safe s) : Safe (beginWarmReset s) := by
  obtain ⟨⟨⟨h5, h6, h7, h8, h9⟩, hr⟩, _⟩ := h
  have l : Limits (resetJobs { s with
    resetN := true, resetPhase := .draining, teardown := teardownWrites s
    out := { s.out with answers := s.out.answers ++ errorAnswers s }
    port := Port.initial
    mem := { s.mem with accept := s.mem.accept.filterMap AccWrite.atReset, readWaits := [] }
    bind := { s.bind with
      unbindTimer := .stopped, noDetach := false, heldEvents := [], anchorLines := [], regionLines := [] } }) := by
    refine (resetJobs_tame (Limits.tame ?_)).limits
    exact ⟨⟨h5, h6, Nat.le_trans (atReset_count s.mem.accept) h7, h8, h9⟩, hr⟩
  refine ⟨(serveReads_tame (presentExit_tame l.tame)).limits, ?_⟩
  have : (beginWarmReset s).teardown = teardownWrites s := by
    simp [beginWarmReset, resetJobs]
  rw [this]
  exact teardownWrites_length s

theorem warmReset_safe (h : Safe s) : Safe (warmReset s) := by
  unfold warmReset
  dsimp only
  split
  · rename_i q; exact placeTeardown_safe (beginWarmReset_safe h) q
  · exact beginWarmReset_safe h

theorem powerOn_limits (x : BitVec 2) : Limits (State.powerOn x) := by
  refine ⟨⟨⟨?_,?_⟩,?_,?_,?_,?_⟩,⟨?_,?_⟩,?_,?_⟩ <;>
    simp [State.powerOn, MemPath.initial, Link.initial, Events.initial, Texts.initial, internalCount, internalReadCount,
      Config.unansweredLimit]

theorem resetDone_safe (x : BitVec 2) (s : State) : Safe (resetDone x s) := ⟨powerOn_limits x, Nat.zero_le _⟩

theorem execWarmResetEnd_safe {x : BitVec 2} (h : Safe s) (e : execWarmResetEnd x s = .next t) : Safe t := by
  unfold execWarmResetEnd at e
  split at e
  · simp only [Host.Outcome.next.injEq] at e; subst e; exact h
  · rename_i q
    have q' : drained s = true := by simpa using q
    split at e
    · simp only [Host.Outcome.next.injEq] at e; subst e; exact h
    · split at e <;> (simp only [Host.Outcome.next.injEq] at e; subst e)
      · exact resetDone_safe x s
      · exact placeTeardown_safe h q'
    · simp only [Host.Outcome.next.injEq] at e; subst e; exact resetDone_safe x s

/-- Every command but the resets, the strobe, the grants and the exit delay's expiry keeps the limits, the queue and the frame
number, and issues at most the exit command. -/
theorem exec_tame {c : Instr} (h : Safe s) (e : exec c s = .next t) :
    Tame s t ∨ (∃ x, c = .powerOnReset x) ∨ c = .warmReset ∨ (∃ x, c = .warmResetEnd x) ∨ c = .resetNRelease ∨
     (∃ x, c = .frameStrobe x) ∨ (∃ d, c = .arbiterGrant d) ∨ c = .selfRefreshEnter ∨ c = .exitDelayExpiry := by
  have k : Tame s s := h.1.tame
  cases c with
  | powerOnReset x => exact .inr (.inl ⟨_, rfl⟩)
  | warmReset => simp
  | warmResetEnd x => simp
  | resetNRelease => simp
  | frameStrobe p => simp
  | arbiterGrant d => simp
  | selfRefreshEnter => simp
  | exitDelayExpiry => simp
  | processorRead => exact .inl (execProcessorRead_tame k e)
  | processorWrite => exact .inl (execProcessorWrite_tame k e)
  | hostWriteAccept => exact .inl (execHostWriteAccept_tame k e)
  | internalWriteAccept => exact .inl (execInternalWriteAccept_tame k e)
  | internalWritePlaceWait => exact .inl (execInternalWritePlaceWait_tame k e)
  | internalReadPlaceWait => exact .inl (execInternalReadPlaceWait_tame k e)
  | enableWordWrite => exact .inl (execEnableWordWrite_tame k e)
  | anchorReadDone => exact .inl (execAnchorReadDone_tame k e)
  | regionReadDone => exact .inl (execRegionReadDone_tame k e)
  | unbindTimerExpiry => exact .inl (execUnbindTimerExpiry_tame k e)
  | drainDone => exact .inl (execDrainDone_tame k e)
  | stagePublish => exact .inl (execStagePublish_tame k e)
  | hostReadDone => exact .inl (execHostReadDone_tame k e)
  | settleDelayExpiry => exact .inl (execSettleDelayExpiry_tame k e)
  | responseTimeout => exact .inl (execResponseTimeout_tame k e)
  | recoveryTimerExpiry => exact .inl (execRecoveryTimerExpiry_tame k e)
  | linkReady => exact .inl (execLinkReady_tame k e)
  | badFrame => exact .inl (execBadFrame_tame k e)
  | measureDone => exact .inl (execMeasureDone_tame k e)
  | listenDone => exact .inl (execListenDone_tame k e)
  | sigSent => exact .inl (execSigSent_tame k e)
  | airMessageInvalid => exact .inl (execAirMessageInvalid_tame k e)
  | servingLost => exact .inl (execServingLost_tame k e)
  | switchDone => exact .inl (execSwitchDone_tame k e)
  | speechIn => exact .inl (execSpeechIn_tame k e)
  | radioRequest => exact .inl (execRadioRequest_tame k e)
  | shutdownTimerExpiry => exact .inl (execShutdownTimerExpiry_tame k e)
  | connectionParameter => exact .inl (execConnectionParameter_tame k e)
  | connectGrant => exact .inl (execConnectGrant_tame k e)
  | connectReject => exact .inl (execConnectReject_tame k e)
  | connectTimerExpiry => exact .inl (execConnectTimerExpiry_tame k e)
  | areaAccept => exact .inl (execAreaAccept_tame k e)
  | areaReject => exact .inl (execAreaReject_tame k e)
  | areaAnswerTimerExpiry => exact .inl (execAreaAnswerTimerExpiry_tame k e)
  | inactivityTimerExpiry => exact .inl (execInactivityTimerExpiry_tame k e)
  | reestablishAccept => exact .inl (execReestablishAccept_tame k e)
  | reestablishmentTimerExpiry => exact .inl (execReestablishmentTimerExpiry_tame k e)
  | cellConfigurationNotice => exact .inl (execCellConfigurationNotice_tame k e)
  | reloadReadDone => exact .inl (execReloadReadDone_tame k e)
  | roundTimerExpiry => exact .inl (execRoundTimerExpiry_tame k e)
  | mobilityParameter => exact .inl (execMobilityParameter_tame k e)
  | holdTimerExpiry => exact .inl (execHoldTimerExpiry_tame k e)
  | reportTimerExpiry => exact .inl (execReportTimerExpiry_tame k e)
  | transferOrder => exact .inl (execTransferOrder_tame k e)
  | activationTimerExpiry => exact .inl (execActivationTimerExpiry_tame k e)
  | requestOriginate => exact .inl (execRequestOriginate_tame k e)
  | requestAnswer => exact .inl (execRequestAnswer_tame k e)
  | requestHold => exact .inl (execRequestHold_tame k e)
  | requestResume => exact .inl (execRequestResume_tame k e)
  | requestSwap => exact .inl (execRequestSwap_tame k e)
  | requestRelease => exact .inl (execRequestRelease_tame k e)
  | requestUnknown => exact .inl (execRequestUnknown_tame k e)
  | dialStringCaptured => exact .inl (execDialStringCaptured_tame k e)
  | ringing => exact .inl (execRinging_tame k e)
  | connect => exact .inl (execConnect_tame k e)
  | offer => exact .inl (execOffer_tame k e)
  | holdAccept => exact .inl (execHoldAccept_tame k e)
  | resumeAccept => exact .inl (execResumeAccept_tame k e)
  | release => exact .inl (execRelease_tame k e)
  | releaseDone => exact .inl (execReleaseDone_tame k e)
  | dialingTimerExpiry => exact .inl (execDialingTimerExpiry_tame k e)
  | ringingOutTimerExpiry => exact .inl (execRingingOutTimerExpiry_tame k e)
  | incomingTimerExpiry => exact .inl (execIncomingTimerExpiry_tame k e)
  | exchangeTimerExpiry => exact .inl (execExchangeTimerExpiry_tame k e)
  | releasingTimerExpiry => exact .inl (execReleasingTimerExpiry_tame k e)
  | uplinkProducerWrite => exact .inl (execUplinkProducerWrite_tame k e)
  | downlinkConsumerWrite => exact .inl (execDownlinkConsumerWrite_tame k e)
  | speechFetchDone => exact .inl (execSpeechFetchDone_tame k e)
  | outboxProducerWrite => exact .inl (execOutboxProducerWrite_tame k e)
  | cancelWordWrite => exact .inl (execCancelWordWrite_tame k e)
  | descriptorReadDone => exact .inl (execDescriptorReadDone_tame k e)
  | bodyReadDone => exact .inl (execBodyReadDone_tame k e)
  | segmentAck => exact .inl (execSegmentAck_tame k e)
  | ackTimerExpiry => exact .inl (execAckTimerExpiry_tame k e)
  | retryTimerExpiry => exact .inl (execRetryTimerExpiry_tame k e)
  | inboxConsumerWrite => exact .inl (execInboxConsumerWrite_tame k e)
  | textSegment => exact .inl (execTextSegment_tame k e)
  | contextTimerExpiry => exact .inl (execContextTimerExpiry_tame k e)
  | sleepParameter => exact .inl (execSleepParameter_tame k e)
  | sleepRequest => exact .inl (execSleepRequest_tame k e)
  | stopGrant => exact .inl (execStopGrant_tame k e)
  | quiesceTimerExpiry => exact .inl (execQuiesceTimerExpiry_tame k e)
  | wakeAck => exact .inl (execWakeAck_tame k e)
  | lineAcknowledge => exact .inl (execLineAcknowledge_tame k e)
  | rouseWindowExpiry => exact .inl (execRouseWindowExpiry_tame k e)
  | longPressTimerExpiry => exact .inl (execLongPressTimerExpiry_tame k e)
  | eventConsumerWrite => exact .inl (execEventConsumerWrite_tame k e)

end Sys2Proof.Machine
end

