-- ==== Sys2Proof/Laws/Resting.lean ====
section
/-! SUPPORT. A moment that ends in a state at rest, a write that finds room, a message that is sent at once, an event that is
placed at once. -/

namespace Sys2Proof.Machine

variable {s : State}

/-! ## The end of a moment -/

theorem pumpIdle_resting (h : s.conn.inactTimer.runs = connIdle s) : pumpIdle s = s := by
  unfold pumpIdle
  rw [h]
  cases connIdle s <;> rfl

theorem pumpEvents_done (n : Nat) (hp : s.events.pending = []) (ho : s.events.owed = none) : pumpEvents n s = s := by
  cases n with
  | zero => rfl
  | succ n => simp [pumpEvents, eventsLeft, hp, ho]

theorem placeEvents_done (hp : s.events.pending = []) (ho : s.events.owed = none) : placeEvents s = s :=
  pumpEvents_done _ hp ho

theorem sendNext_still (h : s.link.queue = [] ∨ s.link.opSendSig.runs = true) : sendNext s = s := by
  rcases h with h | h
  · simp [sendNext, nextMsg, h]
  · simp [sendNext, h]

theorem checkWake_still (h : s.sleep.wakeAfter = none) : checkWake s = s := by simp [checkWake, h]

theorem pumpWindow_still (h : s.sleep.level ≠ .roused) : pumpWindow s = s := by simp [pumpWindow, h]

theorem closeMoment_still (h : s.mem.waits = []) (k : s.mem.readWaits = []) : closeMoment s = s := by
  simp [closeMoment, h, k]

/-- A command whose effect leaves the part at rest has that effect and no other. -/
theorem settle_resting (h : Resting s) : settle s = s := by
  obtain ⟨hs, hp, ho, hq, hw, hr, ha, hl, hi⟩ := h
  rw [settle_steady hs, pumpIdle_resting hi, finish, placeEvents_done hp ho, sendNext_still hq, checkWake_still ha,
    pumpWindow_still hl, closeMoment_still hw hr]

/-! ## Writes that find room -/

theorem mustWait_room {n : Nat} (h : s.mem.waits = []) (r : Room (n + 1) s) : mustWait s = false := by
  have r' : internalCount s.mem + (n + 1) ≤ Config.internalWrites := r
  simp only [mustWait, h, List.isEmpty_nil, Bool.not_true, Bool.false_or, decide_eq_false_iff_not]
  omega

theorem emitWrite_room {j : Job} {w : WriteReq} {n : Nat} (h : s.mem.waits = []) (r : Room (n + 1) s)
    (b : w.bytes.isEmpty = false) : emitWrite j w s = joinWrite w s := by
  simp [emitWrite, b, mustWait_room h r]

theorem internalCount_join (w : WriteReq) (s : State) :
    internalCount (joinWrite w s).mem = internalCount s.mem + 1 := by
  simp [internalCount, joinWrite, tickClock, List.countP_append, AccWrite.isHost]

theorem room_join {w : WriteReq} {n : Nat} (r : Room (n + 1) s) : Room n (joinWrite w s) := by
  have r' : internalCount s.mem + (n + 1) ≤ Config.internalWrites := r
  have := internalCount_join w s
  unfold Room
  omega

theorem joinWrite_resting {w : WriteReq} (h : Resting s) : Resting (joinWrite w s) := h

theorem answer_resting {a : Answer} (h : Resting s) : Resting (answer a s) := h

/-! ## Messages sent at once -/

theorem jobWaits_none {j : Job} (h : s.mem.waits = []) : jobWaits j s = false := by simp [jobWaits, h]

theorem emitMsg_queued {m : AirMsg} (h : s.mem.waits = []) (q : s.link.queue = []) (o : s.link.outside = []) :
    emitMsg m s = { s with link := { s.link with
      nextId := s.link.nextId + 1, nextPlace := s.link.nextPlace + 1
      queue := [{ id := s.link.nextId, msg := m, inFlight := false, place := s.link.nextPlace, attempts := 0 }] } } := by
  have lim : ∀ j, 0 < jobLimit j := by intro j; cases j <;> decide
  simp [emitMsg, jobWaits, h, handMsg, queueRoom, joinQueue, q, o, lim, Config.signallingPlaces]

theorem sendNext_one {m : AirMsg} {k p a : Nat} (o : linkOpen s = true)
    (q : s.link.queue = [{ id := k, msg := m, inFlight := false, place := p, attempts := a }])
    (f : s.link.opSendSig = .stopped) (hh : s.link.hold = false) :
    sendNext s = { s with
      link := { s.link with
        opSendSig := .running 4, askSendSig := some (.sendSig m)
        queue := [{ id := k, msg := m, inFlight := true, place := p, attempts := a }] }
      out := { s.out with link := s.out.link ++ [.sendSig m] } } := by
  have u : s.link.up = true := by simp [linkOpen] at o; exact o.2
  have j : jobsRun s = true := by simp [linkOpen] at o; exact o.1
  simp [sendNext, u, f, Timer.runs, j, nextMsg, q, hh, request, Link.op, setOp, linkOut, Config.responseFrames]

/-- The end of a moment in which one message was handed to a clear link. -/
theorem settle_sent {m : AirMsg} (h : Resting s) (c : LinkClear s) : settle (emitMsg m s) = sent m s := by
  obtain ⟨o, q, ou, f, hh⟩ := c
  obtain ⟨hs, hp, ho, hq, hw, hr, ha, hl, hi⟩ := h
  have k := emitMsg_queued (m := m) hw q ou
  have st : steady (emitMsg m s) = true := by rw [k]; exact hs
  rw [settle_steady st, k, pumpIdle_resting (by exact hi), finish, placeEvents_done (by exact hp) (by exact ho),
    sendNext_one (m := m) (by exact o) rfl (by exact f) (by exact hh), checkWake_still (by exact ha),
    pumpWindow_still (by exact hl), closeMoment_still (by exact hw) (by exact hr)]
  rfl

theorem sent_resting {m : AirMsg} (h : Resting s) : Resting (sent m s) := by
  obtain ⟨hs, hp, ho, _, hw, hr, ha, hl, hi⟩ := h
  exact ⟨hs, hp, ho, .inr rfl, hw, hr, ha, hl, hi⟩

/-! ## Events placed at once -/

theorem discardFull_room (h : ringFull s = false) : discardFull s = s := by simp [discardFull, h]

theorem placeEvents_one {e : Event} (w : s.mem.waits = []) (m : mayPlace s = true) (f : ringFull s = false) (r : Room 2 s)
    (p : s.events.pending = [e]) (o : s.events.owed = none) (l : e.loss = false) :
    placeEvents s = eventPlaced e { s with events := { s.events with pending := [] } } := by
  have one : placeOne s = joinWrite (writeAt s .event (1 + s.events.producer.toNat % s.bind.capacity / 4)
      (fieldBytes (eventFields (16 * (s.events.producer.toNat % s.bind.capacity % 4)) e)))
      { s with events := { s.events with
          pending := [], owed := some { producer := some (s.events.producer + 1), flag := none } } } := by
    simp [placeOne, o, p, l]
  have two : placeOne (placeOne s) = eventPlaced e { s with events := { s.events with pending := [] } } := by
    rw [one]
    simp [placeOne, joinWrite, tickClock, eventPlaced, writeAt, fieldBytes, bytesAt, owedReq, o]
  have m1 : mayPlace (placeOne s) = true := by rw [one]; exact m
  have d1 : discardFull (placeOne s) = placeOne s := by
    rw [one]; simp [discardFull, joinWrite, tickClock]
  have e1 : eventsLeft (placeOne s) = true := by
    rw [one]; simp [eventsLeft, joinWrite, tickClock]
  have r1 : Room 1 (placeOne s) := by rw [one]; exact room_join r
  have w1 : mustWait (placeOne s) = false := mustWait_room (by rw [one]; exact w) r1
  have m0 : mustWait s = false := mustWait_room w r
  have e0 : eventsLeft s = true := by simp [eventsLeft, p]
  have k : ∀ n, pumpEvents (n + 2) s = pumpEvents n (placeOne (placeOne s)) := by
    intro n
    conv => lhs; unfold pumpEvents
    rw [if_pos (by rw [m, e0]; rfl), m0, discardFull_room f]
    simp only [e0, Bool.false_eq_true, if_false, if_true]
    conv => lhs; unfold pumpEvents
    rw [if_pos (by rw [m1, e1]; rfl), w1, d1]
    simp [e1]
  unfold placeEvents
  show pumpEvents (16 + 2) s = _
  rw [k, two]
  apply pumpEvents_done
  · rfl
  · exact o

/-- An event raised while the writer can place it, with none before it, is placed at once. -/
theorem raiseNow_first {e : Event} (hp : s.events.pending = []) (ho : s.events.owed = none) (hw : s.mem.waits = [])
    (c : EventClear s) (l : e.loss = false) : raiseNow e s = eventPlaced e s := by
  obtain ⟨m, f, lp, r⟩ := c
  have run : s.events.running = true := by
    simp only [mayPlace, Bool.and_eq_true] at m; exact m.1
  have ee : ({ e with loss := false } : Event) = e := by cases e; simp at l; subst l; rfl
  have q := placeEvents_one (s := { s with events := { s.events with pending := [e], lossPending := false } }) (e := e)
    hw m f r rfl ho l
  have same : ({ s.events with pending := [], lossPending := false } : Events) = s.events := by rw [← hp, ← lp]
  have u : raiseNow e s = placeEvents { s with events := { s.events with pending := [e], lossPending := false } } := by
    unfold raiseNow
    rw [if_neg (by simp [run]), if_neg (by simp [hp, Config.pendingEvents])]
    dsimp only
    rw [if_neg (by simp [hp, Config.rousingEvents]), hp, lp, ee]
    rfl
  rw [u, q]
  show eventPlaced e { s with events := { s.events with pending := [], lossPending := false } } = _
  rw [same]

/-- In a state at rest too. -/
theorem raiseNow_placed {e : Event} (h : Resting s) (c : EventClear s) (l : e.loss = false) :
    raiseNow e s = eventPlaced e s := raiseNow_first h.2.1 h.2.2.1 h.2.2.2.2.1 c l

theorem raise_placed {j : Job} {e : Event} (h : Resting s) (c : EventClear s) (l : e.loss = false) :
    raise j e s = eventPlaced e s := by
  rw [raise, jobWaits_none h.2.2.2.2.1]
  exact raiseNow_placed h c l

theorem eventPlaced_resting {e : Event} (h : Resting s) : Resting (eventPlaced e s) := h

/-! ## Strobes -/

/-- A strobe neither starts nor stops a timer. -/
theorem tick_runs (x : Timer) : x.tick.runs = x.runs := by
  cases x with
  | stopped => rfl
  | due => rfl
  | running n => show (if n ≤ 1 then Timer.due else Timer.running (n - 1)).runs = true; split <;> rfl

/-- Timers that take a strobe leave the part at rest. -/
theorem tick_resting {u : State} (h : Resting u) : Resting (tickTimers u) := by
  obtain ⟨hs, hp, ho, hq, hw, hr, ha, hl, hi⟩ := h
  refine ⟨?_, hp, ho, ?_, hw, hr, ha, hl, ?_⟩
  · have : steady (tickTimers u) = steady u := by
      unfold steady
      rw [show (tickTimers u).texts.send.isSome = u.texts.send.isSome from by simp [tickTimers, tickTexts]]
      rfl
    rw [this]; exact hs
  · rcases hq with q | q
    · exact .inl q
    · right; simpa [tickTimers, tickLink, tick_runs] using q
  · have : connIdle (tickTimers u) = connIdle u := by
      simp [connIdle, tickTimers, tickConn, tickTexts, callsFree]
    rw [this, ← hi]
    simp [tickTimers, tickConn, tick_runs]

/-- Lines that are still stay as they are. -/
theorem lines_still {p : BitVec 4} (h : LinesStill p s) : sampleLines p s = s := by
  have one : ∀ l : Fin 4, sampleLine l (p.getLsbD l.val) s = s := by
    intro l
    obtain ⟨h1, h2, h3, h4, h5⟩ := h l
    have st : s.sleep.lines.set l s.sleep.lines[l] = s.sleep.lines := Vector.set_getElem_self _
    unfold sampleLine setLine
    generalize p.getLsbD l.val = q at h1
    generalize hx : s.sleep.lines[l] = x at h1 h2 h3 h4 h5 st ⊢
    obtain ⟨r, a, c, f, e, al, el, fi, pi, fii⟩ := x
    simp only at h1 h2 h3 h4 h5
    subst h1 h2 h3 h4 h5
    simp only [bne_self_eq_false, Bool.false_eq_true, if_false, st]
    have k : (if pi = true then !r else r) = (r != pi) := by cases r <;> cases pi <;> rfl
    rw [if_pos k]
    have hx' : s.sleep.lines[l.val] = _ := hx
    simp only [Fin.getElem_fin, hx', st]
  unfold sampleLines
  have : ∀ ls : List (Fin 4), ls.foldl (fun s l => sampleLine l (p.getLsbD l.val) s) s = s := by
    intro ls
    induction ls with
    | nil => rfl
    | cons x xs ih => rw [List.foldl_cons, one, ih]
  exact this _

/-! ## Reads served -/

theorem serveReads_served {s : State} (h : ReadsServed s) : serveReads s = s := by
  have k : ∀ r ∈ s.mem.reads, serveRead s r = (some r, []) := by
    intro r hr
    unfold serveRead
    rw [if_pos]
    by_cases c : r.status = .waiting
    · simp [h r hr c]
    · simp [c]
  unfold serveReads
  have a : s.mem.reads.filterMap (fun r => (serveRead s r).1) = s.mem.reads := by
    have : s.mem.reads.filterMap (fun r => (serveRead s r).1) = s.mem.reads.filterMap some := by
      apply List.filterMap_congr
      intro r hr; rw [k r hr]
    rw [this, List.filterMap_some]
  have b : s.mem.reads.flatMap (fun r => (serveRead s r).2) = [] := by
    rw [List.flatMap_eq_nil_iff]; intro r hr; rw [k r hr]
  rw [a, b, List.append_nil]

theorem serveReads_last {s : State} (r : ReadEntry) (rs : List ReadEntry) (e : s.mem.reads = rs ++ [r])
   (h : ∀ x ∈ rs, x.status = .waiting → readFree s x = false) :
   serveReads s = { s with mem := { s.mem with reads := rs ++ (serveRead s r).1.toList }, out := { s.out with answers := s.out.answers ++ (serveRead s r).2 } } := by
  have k : ∀ x ∈ rs, serveRead s x = (some x, []) := by
    intro x hx
    unfold serveRead
    rw [if_pos]
    by_cases c : x.status = .waiting
    · simp [h x hx c]
    · simp [c]
  unfold serveReads
  have a : rs.filterMap (fun r => (serveRead s r).1) = rs := by
    have : rs.filterMap (fun r => (serveRead s r).1) = rs.filterMap some := by
      apply List.filterMap_congr
      intro r hr; rw [k r hr]
    rw [this, List.filterMap_some]
  have b : rs.flatMap (fun r => (serveRead s r).2) = [] := by
    rw [List.flatMap_eq_nil_iff]; intro r hr; rw [k r hr]
  rw [e, List.filterMap_append, List.flatMap_append, a, b]
  congr 3
  · congr 1
    cases h : (serveRead s r).1 <;> simp [h]

end Sys2Proof.Machine
end

