-- ==== Sys2Proof/Laws/Placing.lean ====
section
/-! SUPPORT. What reads and writes that find room leave, and what serving the reads leaves. -/

namespace Sys2Proof.Machine

set_option maxHeartbeats 4000000

theorem firstByte_some {bytes : LineBytes} {q : Nat → Bool} {p : Nat} (hp : p < 64) (c : bytesCover bytes p = true) (h :
    q p = true)
    (hl : ∀ x, x < p → bytesCover bytes x = true → q x = false) : firstByte bytes q = some p := by
  unfold firstByte
  rw [List.find?_range_eq_some]
  refine ⟨by simp [c, h], by simpa using hp, ?_⟩
  intro j hj
  cases hc : bytesCover bytes j
  · simp
  · simp [hl j hj hc]

theorem firstByte_none {bytes : LineBytes} {q : Nat → Bool} (h : ∀ p, p < 64 → bytesCover bytes p = true → q p = false) :
    firstByte bytes q = none := by
  unfold firstByte
  rw [List.find?_eq_none]
  intro x hx
  simp only [List.mem_range] at hx
  cases hc : bytesCover bytes x
  · simp
  · simp [h x hx hc]

theorem internals_serve (s : State) (h : True) : ((serveReads s).mem.reads.filter (fun r => !r.isHost)).map (fun r => (r.for_,
    r.line)) = (s.mem.reads.filter (fun r => !r.isHost)).map (fun r => (r.for_, r.line)) := by
  unfold serveReads
  dsimp only
  have one : ∀ r, ((serveRead s r).1.toList.filter (fun r => !r.isHost)).map (fun r => (r.for_, r.line)) = ([r].filter
      (fun r => !r.isHost)).map (fun r => (r.for_, r.line)) := by
    intro r
    unfold serveRead
    split
    · rfl
    · dsimp only; split
      · cases hf : r.for_ <;> simp [ReadEntry.isHost, hf]
      · cases hf : r.for_ <;> simp [ReadEntry.isHost, hf]
  induction s.mem.reads with
  | nil => rfl
  | cons r rs ih =>
    have e : List.filterMap (fun r => (serveRead s r).1) (r :: rs) = (serveRead s r).1.toList ++ List.filterMap (fun r =>
        (serveRead s r).1) rs := by
      rw [List.filterMap_cons]
      cases (serveRead s r).1 <;> rfl
    rw [e, List.filter_append, List.map_append, one, ih]
    rw [← List.map_append, ← List.filter_append]; rfl

theorem internalReadCount_eq (m : MemPath) : internalReadCount m = (m.reads.filter (fun r => !r.isHost)).countP
    (fun r => r.for_ != .speech) := by
  unfold internalReadCount
  rw [List.countP_filter]
  congr 1; funext r; rw [Bool.and_comm]

theorem countP_map_eq {α β} (f : α → β) (p : β → Bool) (l : List α) : l.countP (p ∘ f) = (l.map f).countP p := by
  rw [List.countP_map]

/-- A read emitted with room emitReads_joined the internal reads. -/
theorem emit_join (j : Job) (f : ReadFor) (l : Line) (s : State) (hv : s.mem.waits = []) (hw : s.mem.readWaits = [])
   (hc : internalReadCount s.mem < 4) (hf : f.isInternal = true) :
   emitRead j f l s = joinRead f l s ∧ ((joinRead f l s).mem.reads.filter (fun r => !r.isHost)).map (fun r => (r.for_, r.line)) =
       (s.mem.reads.filter (fun r => !r.isHost)).map (fun r => (r.for_, r.line)) ++ [(f, l)] := by
  constructor
  · have jw : jobWaits j s = false := by simp [jobWaits, hv]
    unfold emitRead placeRead
    rw [jw, if_neg (by simp), if_pos]
    simp only [hw, List.isEmpty_nil, Bool.true_and, decide_eq_true_eq]
    exact hc
  · unfold joinRead
    rw [internals_serve _ trivial]
    unfold tickClock
    dsimp only
    rw [List.filter_append, List.map_append]
    congr 1
    cases f <;> simp_all [ReadEntry.isHost, ReadFor.isInternal]

theorem joinRead_other (f : ReadFor) (l : Line) (s : State) : (joinRead f l s).mem.readWaits = s.mem.readWaits ∧
    (joinRead f l s).mem.waits = s.mem.waits ∧ (joinRead f l s).mem.accept = s.mem.accept ∧ (joinRead f l s).bind = s.bind ∧
        (joinRead f l s).port = s.port := ⟨rfl, rfl, rfl, rfl, rfl⟩

theorem count_of_map {m n : MemPath} {x : List (ReadFor × Line)}
   (h : (n.reads.filter (fun r => !r.isHost)).map (fun r => (r.for_, r.line)) = x) : internalReadCount n = x.countP
       (fun p => p.1 != .speech) := by
  rw [internalReadCount_eq, ← h, List.countP_map]; rfl

theorem emitReads_joined (fs : List (ReadFor × Line)) (j : Job) (s : State) (hv : s.mem.waits = []) (hw : s.mem.readWaits = []) (base : List (ReadFor × Line))
   (hb : (s.mem.reads.filter (fun r => !r.isHost)).map (fun r => (r.for_, r.line)) = base) (hlen : base.length + fs.length ≤ 4)
   (hi : ∀ f ∈ fs, f.1.isInternal = true) (P : State → Prop) (hP : ∀ u f l, P u → P (joinRead f l u)) (p0 : P s) :
   let t := fs.foldl (fun s f => emitRead j f.1 f.2 s) s
   t.mem.readWaits = [] ∧ (t.mem.reads.filter (fun r => !r.isHost)).map (fun r => (r.for_, r.line)) = base ++ fs ∧ P t := by
  induction fs generalizing s base with
  | nil => exact ⟨hw, by simpa using hb, p0⟩
  | cons f fs ih =>
    have c : internalReadCount s.mem < 4 := by
      rw [count_of_map (m := s.mem) hb]
      have := List.countP_le_length (p := fun p : ReadFor × Line => p.1 != .speech) (l := base)
      simp only [List.length_cons] at hlen
      omega
    obtain ⟨e1, e2⟩ := emit_join j f.1 f.2 s hv hw c (hi f (by simp))
    dsimp only
    rw [List.foldl_cons, e1]
    have := ih (joinRead f.1 f.2 s) hv hw (base ++ [f]) (by rw [e2, hb])
        (by simp only [List.length_cons, List.length_append, List.length_nil] at hlen ⊢; omega) (fun g hg => hi g (by simp [hg]))
            (hP _ _ _ p0)
    simpa using this

theorem shutdownCalls_free {c : Cause} {s : State} (h : callsFree s = true) : shutdownCalls c s = s := by
  unfold shutdownCalls
  have k : ∀ r : Fin 4, ((s.calls.recs[r]).state == .free) = true := by
    intro r
    unfold callsFree at h
    rw [List.all_eq_true] at h
    exact h _ (by simp)
  have : ∀ ls : List (Fin 4), ls.foldl (fun s r => shutdownRec r c s) s = s := by
    intro ls
    induction ls with
    | nil => rfl
    | cons x xs ih => rw [List.foldl_cons,
        show shutdownRec x c s = s from by unfold shutdownRec; simp only [k x, if_true]]; exact ih
  exact this _

theorem dropSwitch_idle {s : State} (h : s.mob.state = .idle) :
    dropSwitch s = { s with mob := { s.mob with reestWaits := false } } := by
  have e : dropOrder { s with mob := { s.mob with reestWaits := false } } = { s with mob := { s.mob with reestWaits := false } } := by
    unfold dropOrder; rw [if_neg (by simp [h])]
  unfold dropSwitch
  dsimp only
  rw [e, if_neg (by simp [switchOn, h])]

theorem unlivePubs_none {s : State} {p : PubKind → Bool} (h : s.mem.pubs = []) : unlivePubs p s = s := by
  have : ({ s.mem with pubs := [] } : MemPath) = s.mem := by rw [← h]
  unfold unlivePubs
  rw [h, List.map_nil, this]

theorem find_split {α} {p : α → Bool} {l pre post : List α} {k : α} (e : l = pre ++ k :: post) (h : ∀ j ∈ pre, p j = false) (hk :
    p k = true) :
    l.find? p = some k := by
  subst e
  rw [List.find?_append, List.find?_eq_none.mpr (by simpa using h)]
  simp [hk]

end Sys2Proof.Machine
end

