-- ==== Sys2Proof/Laws/Calm.lean ====
section
/-! SUPPORT. A part at rest with room: its fields, a parameter ignored, the plan record written. -/

namespace Sys2Proof.Machine

set_option maxHeartbeats 4000000

variable {s : State}

theorem Calm.jobs (c : Calm s) : jobsRun s = true := c.1

theorem Calm.bound (c : Calm s) : s.bind.state = .bound := c.2.1

theorem Calm.hold (c : Calm s) : s.port.sleepHold = false := c.2.2.1

theorem Calm.rest (c : Calm s) : Resting s := c.2.2.2.1

theorem Calm.link (c : Calm s) : LinkClear s := c.2.2.2.2.1

theorem Calm.events (c : Calm s) : EventClear s := c.2.2.2.2.2.1

theorem Calm.room (c : Calm s) : Room 12 s := c.2.2.2.2.2.2.1

theorem Calm.awake (c : Calm s) : s.sleep.level = .awake := c.2.2.2.2.2.2.2.1

theorem Calm.cycle (c : Calm s) : s.sleep.cycle = s.sleep.base := c.2.2.2.2.2.2.2.2.1

theorem Calm.reads (c : Calm s) : s.mem.reads = [] := c.2.2.2.2.2.2.2.2.2.1

theorem Calm.pubs (c : Calm s) : s.mem.pubs = [] := c.2.2.2.2.2.2.2.2.2.2.1

theorem Calm.phase (c : Calm s) : s.cells.phase = .idle := c.2.2.2.2.2.2.2.2.2.2.2.1

theorem Calm.round (c : Calm s) : s.cells.round = none := c.2.2.2.2.2.2.2.2.2.2.2.2.1

theorem Calm.noRound (c : Calm s) : s.cells.roundWaits = false := c.2.2.2.2.2.2.2.2.2.2.2.2.2.1

theorem Calm.cand (c : Calm s) (n : Fin 13) : (s.cells.slots[n]).candidate = false := c.2.2.2.2.2.2.2.2.2.2.2.2.2.2.1 n

theorem Calm.idle (c : Calm s) : s.mob.state = .idle := c.2.2.2.2.2.2.2.2.2.2.2.2.2.2.2.1

theorem Calm.report (c : Calm s) : s.mob.report = false := c.2.2.2.2.2.2.2.2.2.2.2.2.2.2.2.2.1

theorem Calm.stale (c : Calm s) : s.mob.stale = false := c.2.2.2.2.2.2.2.2.2.2.2.2.2.2.2.2.2.1

theorem Calm.gap (c : Calm s) : s.calls.gapHeld = false := c.2.2.2.2.2.2.2.2.2.2.2.2.2.2.2.2.2.2.1

theorem Calm.csw (c : Calm s) : s.calls.switchOn = false := c.2.2.2.2.2.2.2.2.2.2.2.2.2.2.2.2.2.2.2.1

theorem Calm.ssw (c : Calm s) : s.speech.switchOn = false := c.2.2.2.2.2.2.2.2.2.2.2.2.2.2.2.2.2.2.2.2.1

theorem Calm.tsw (c : Calm s) : s.texts.switchOn = false := c.2.2.2.2.2.2.2.2.2.2.2.2.2.2.2.2.2.2.2.2.2

theorem Calm.port (c : Calm s) : portOpen s = true := by have := c.jobs; simp [jobsRun] at this; exact this.1.1

theorem Calm.notice (c : Calm s) : noticeOpen s = true := by simp [noticeOpen, c.port, c.bound, c.hold]

theorem Calm.waits (c : Calm s) : s.mem.waits = [] := c.rest.2.2.2.2.1

theorem Calm.mem (c : Calm s) : memoryAvailable s = true := by simp [memoryAvailable, c.awake]

theorem Calm.up (c : Calm s) : s.link.up = true := by have := c.link.1; simp [linkOpen] at this; exact this.2

theorem Calm.open_ (c : Calm s) : linkOpen s = true := c.link.1

theorem Calm.queue (c : Calm s) : s.link.queue = [] := c.link.2.1

theorem Calm.outside (c : Calm s) : s.link.outside = [] := c.link.2.2.1

theorem Calm.notSwitch (c : Calm s) : switchOn s = false := by simp [switchOn, c.idle]

theorem Calm.steady (c : Calm s) : steady s = true := c.rest.1

theorem Room.mono {m n : Nat} (h : n ≤ m) (r : Room m s) : Room n s := by
  have r' : internalCount s.mem + m ≤ Config.internalWrites := r
  show internalCount s.mem + n ≤ Config.internalWrites; omega

theorem runIf_settle (f : State → State) {o : Bool} (ho : o = true) {t : State} (e : settle (f s) = t) : runIf o f s = .next t :=
    by
  rw [runIf_on f s ho, e]

theorem ignore_placed {k : Kind} {r : Half} {o : Nat} (h : Resting s) (c : EventClear s) :
    settle (ignoreConfig k r o s) = eventPlaced (configIgnored s k r o) s := by
  unfold ignoreConfig
  rw [raiseNow_placed h c rfl, settle_resting (eventPlaced_resting h)]

/-- The plan's first line unchanged, the second changed. -/
theorem notePlan_one {j : Job} (old t : State) (hj : jobsRun t = true) (hm : memoryAvailable t = true)
    (h0 : planFields0 old = planFields0 t) (hw : t.mem.waits = []) (r : Room 1 t) (b : LineBytes)
    (hb : changedBytes (planFields1 old) (planFields1 t) = b) (ne : b.isEmpty = false) :
    notePlan j old t = joinWrite (writeAt t .plan 1 b) t := by
  unfold notePlan
  rw [hj, if_pos rfl, h0, changed_same, hb]
  have : planLineWrite j 0 (.plan false) ([] : LineBytes) t = t := by simp [planLineWrite]
  rw [this]
  unfold planLineWrite
  rw [ne, hm]
  simp only [Bool.false_eq_true, if_false, if_true]
  exact emitWrite_room hw r ne

theorem notePlan_none {j : Job} (old t : State) (h0 : planFields0 old = planFields0 t) (h1 : planFields1 old = planFields1 t) :
    notePlan j old t = t := by
  unfold notePlan
  rw [h0, h1, changed_same, changed_same]
  simp [planLineWrite]

theorem candidate_off {n : Fin 13} (h : s.conn.state ≠ .connected) : candidateNow s n = false := by
  simp [candidateNow, h]

/-- No slot changed, none is mirrored (R100). -/
theorem mirror_none {p : Fin 13 → Bool} (h : ∀ n, p n = false) : mirrorSlots p s = s := by
  unfold mirrorSlots
  have : ∀ ls : List (Fin 13), ls.foldl (fun s n => if p n then mirror n s else s) s = s := by
    intro ls
    induction ls with
    | nil => rfl
    | cons x xs ih => rw [List.foldl_cons, h x, if_neg (by simp), ih]
  exact this _

theorem differs_none (n : Fin 13) : slotDiffers s s n = false := by simp [slotDiffers]

/-- No slot begins or stops being a candidate (R104). -/
theorem sort_still (h : ∀ n : Fin 13, (s.cells.slots[n]).candidate = false ∧ candidateNow s n = false) :
    sortCandidates s = s := by
  unfold sortCandidates
  have one : ∀ n, evaluateSlot s n = s := by
    intro n
    unfold evaluateSlot
    rw [(h n).1, (h n).2]
  have : ∀ ls : List (Fin 13), ls.foldl evaluateSlot s = s := by
    intro ls
    induction ls with
    | nil => rfl
    | cons x xs ih => rw [List.foldl_cons, one, ih]
  exact this _

theorem evaluate_still (h : ∀ n : Fin 13, (s.cells.slots[n]).candidate = false ∧ candidateNow s n = false) :
    evaluateCandidates s = s := by
  unfold evaluateCandidates
  rw [sort_still h, mirror_none differs_none]

theorem end_still (h : ∀ n : Fin 13, (s.cells.slots[n]).candidate = false) : endCandidates s = s := by
  unfold endCandidates
  have : ∀ ls : List (Fin 13), ls.foldl (fun s n => if (s.cells.slots[n]).candidate then endCandidate n s else s) s = s := by
    intro ls
    induction ls with
    | nil => rfl
    | cons x xs ih => rw [List.foldl_cons, h x, if_neg (by simp), ih]
  exact this _

theorem clear_still (h : ∀ n : Fin 13, (s.cells.slots[n]).candidate = false) : clearCandidates s = s := by
  unfold clearCandidates
  rw [end_still h, mirror_none differs_none]

theorem link_empty {l : Link} (q : l.queue = []) (o : l.outside = []) : ({ l with queue := [], outside := [] } : Link) = l := by
  cases l; simp_all

theorem mem_empty {m : MemPath} (w : m.waits = []) : ({ m with waits := [] } : MemPath) = m := by
  cases m; simp_all

theorem joinOutside_none {l : Link} (o : l.outside = []) : joinOutside l = l := by
  unfold joinOutside
  rw [o]; rfl

theorem withdraw_none {id : Nat} (q : s.link.queue = []) (o : s.link.outside = []) (w : s.mem.waits = []) :
    withdrawMsg id s = s := by
  unfold withdrawMsg
  rw [q, o, w]
  simp only [List.filter_nil, List.map_nil]
  rw [mem_empty w, link_empty q o, joinOutside_none o]

theorem withdrawOpt_none {id : Option Nat} (q : s.link.queue = []) (o : s.link.outside = []) (w : s.mem.waits = []) :
    withdrawOpt id s = s := by
  cases id
  · rfl
  · exact withdraw_none q o w

theorem withdrawCall_none {r : Byte} (q : s.link.queue = []) (o : s.link.outside = []) (w : s.mem.waits = []) :
    withdrawCall r s = s := by
  unfold withdrawCall
  rw [q, o, w]
  simp only [List.filter_nil, List.map_nil]
  rw [mem_empty w, link_empty q o, joinOutside_none o]

theorem abort_idle (h : s.cells.phase = .idle) :
    abortRound s = { s with cells := { s.cells with
      round := none, roundWaits := s.cells.roundWaits && s.conn.state == .noService } } := by
  unfold abortRound abortMeasure dropRound
  rw [if_pos h]

theorem send_up {f : LinkFrame} (h : s.link.up = true) : sendFrame f s = linkOut f s := by
  unfold sendFrame; rw [if_pos h]

def TakeStill (m n : MemPath) : Prop := n.accept = m.accept ∧ n.waits = m.waits ∧ n.readWaits = m.readWaits ∧ n.reads = m.reads ∧
    n.inFlight = m.inFlight ∧ n.memState = m.memState

theorem TakeStill.trans {a b c : MemPath} (h : TakeStill a b) (k : TakeStill b c) : TakeStill a c :=
  ⟨k.1.trans h.1, k.2.1.trans h.2.1, k.2.2.1.trans h.2.2.1, k.2.2.2.1.trans h.2.2.2.1, k.2.2.2.2.1.trans h.2.2.2.2.1,
      k.2.2.2.2.2.trans h.2.2.2.2.2⟩

theorem takeBytes_still (l : Line) (b : LineBytes) (o : Origin) (sp : Bool) (m : MemPath) : TakeStill m (takeBytes l b o sp m) :=
    by
  unfold takeBytes; dsimp only; split
  · exact ⟨rfl, rfl, rfl, rfl, rfl, rfl⟩
  · unfold noteOccupancy setMode; dsimp only; repeat' split
    all_goals exact ⟨rfl, rfl, rfl, rfl, rfl, rfl⟩

theorem leave_still (m : MemPath) : TakeStill m (stageLeave m) := by
  unfold stageLeave
  generalize sortBy stageOrder m.stage = ls
  induction ls generalizing m with
  | nil => exact ⟨rfl, rfl, rfl, rfl, rfl, rfl⟩
  | cons l ls ih =>
    rw [List.foldl_cons]
    refine TakeStill.trans ?_ (ih (stageLineLeave l m))
    unfold stageLineLeave; split
    · exact takeBytes_still _ _ _ _ _
    · exact ⟨rfl, rfl, rfl, rfl, rfl, rfl⟩

theorem takeInternal_still (w : AccWrite) (m : MemPath) : TakeStill m (takeInternal w m) := by
  unfold takeInternal; dsimp only; split
  · exact TakeStill.trans (b := _) ⟨rfl, rfl, rfl, rfl, rfl, rfl⟩ (leave_still _)
  · exact TakeStill.trans (b := updateImages w.line w.bytes m) ⟨rfl, rfl, rfl, rfl, rfl, rfl⟩ (takeBytes_still _ _ _ _ _)

theorem present_all (hs : List HostWrite) (s : State) :
   let t := hs.foldl (fun t w => presentWrite w t) s
   ∃ m, t = { s with mem := m } ∧ m.waits = s.mem.waits ∧ m.readWaits = s.mem.readWaits ∧ m.accept.map (fun x => (x.writer,
       x.line, x.bytes)) = s.mem.accept.map (fun x => (x.writer, x.line, x.bytes)) ++
        hs.map (fun h => (.host h.tag h.arrived, h.line, h.bytes)) := by
  induction hs generalizing s with
  | nil => exact ⟨s.mem, rfl, rfl, rfl, by simp⟩
  | cons h hs ih =>
    obtain ⟨m, e, w, rw', a⟩ := ih (presentWrite h s)
    refine ⟨m, ?_, w, rw', ?_⟩
    · rw [List.foldl_cons, e]; rfl
    · rw [a]; show List.map _ (s.mem.accept ++ _) ++ _ = _
      simp

theorem serve_frame (s : State) : ∃ rs a,
    serveReads s = { s with mem := { s.mem with reads := rs }, out := { s.out with answers := a } } := ⟨_, _, rfl⟩

end Sys2Proof.Machine
end

