-- ==== Sys2Proof/Laws/Near.lean ====
section
/-! SUPPORT. States whose moment ends with no more than the inactivity timer; writes, messages and events from them. -/

namespace Sys2Proof.Machine

set_option maxHeartbeats 4000000

def Near (s : State) : Prop := steady s = true ∧ s.events.pending = [] ∧ s.events.owed = none ∧
    (s.link.queue = [] ∨ s.link.opSendSig.runs = true) ∧ s.mem.waits = [] ∧ s.mem.readWaits = [] ∧
    s.sleep.wakeAfter = none ∧ s.sleep.level ≠ .roused

theorem Resting.near {s : State} (h : Resting s) : Near s := by
  obtain ⟨hs, hp, ho, hq, hw, hr, ha, hl, hi⟩ := h
  exact ⟨hs, hp, ho, hq, hw, hr, ha, hl⟩

theorem Calm.near {s : State} (c : Calm s) : Near s := c.rest.near

theorem pumpIdle_form (s : State) : ∃ i, pumpIdle s = { s with conn := { s.conn with inactTimer := i } } := by
  unfold pumpIdle
  split
  · exact ⟨_, rfl⟩
  · exact ⟨_, rfl⟩
  · exact ⟨s.conn.inactTimer, rfl⟩

theorem settle_near {s : State} (h : Near s) : settle s = pumpIdle s := by
  obtain ⟨hs, hp, ho, hq, hw, hr, ha, hl⟩ := h
  obtain ⟨i, e⟩ := pumpIdle_form s
  rw [settle_steady hs, e, finish, placeEvents_done (by exact hp) (by exact ho), sendNext_still (by exact hq), checkWake_still
      (by exact ha),
    pumpWindow_still (by exact hl), closeMoment_still (by exact hw) (by exact hr)]

theorem settle_msg {m : AirMsg} {s : State} (h : Near s) (c : LinkClear s) : settle (emitMsg m s) = pumpIdle (sent m s) := by
  obtain ⟨o, q, ou, f, hh⟩ := c
  obtain ⟨hs, hp, ho, hq, hw, hr, ha, hl⟩ := h
  have k := emitMsg_queued (m := m) hw q ou
  have st : steady (emitMsg m s) = true := by rw [k]; exact hs
  obtain ⟨i, e⟩ := pumpIdle_form (emitMsg m s)
  obtain ⟨i', e'⟩ := pumpIdle_form (sent m s)
  have ii : i = i' := by
    have h1 : (pumpIdle (emitMsg m s)).conn.inactTimer = i := by rw [e]
    have h2 : (pumpIdle (sent m s)).conn.inactTimer = i' := by rw [e']
    rw [← h1, ← h2, k]
    unfold pumpIdle sent connIdle callsFree
    dsimp only
    split <;> rfl
  rw [settle_steady st, e, k, finish, placeEvents_done (by exact hp) (by exact ho),
    sendNext_one (m := m) (by exact o) rfl (by exact f) (by exact hh), checkWake_still (by exact ha),
    pumpWindow_still (by exact hl), closeMoment_still (by exact hw) (by exact hr), e', ii]
  rfl

theorem wrote_form (w : WriteReq) (s : State) : ∃ m, wrote w s = { s with mem := m } ∧ m.waits = s.mem.waits ∧
    m.readWaits = s.mem.readWaits ∧
    m.reads = s.mem.reads ∧ m.pubs = s.mem.pubs ∧ internalCount m ≤ internalCount s.mem + 1 ∧ m.memState = s.mem.memState ∧
        m.stage = s.mem.stage ∧ m.nextPub = s.mem.nextPub := by
  unfold wrote
  split
  · exact ⟨s.mem, rfl, rfl, rfl, rfl, rfl, by omega, rfl, rfl, rfl⟩
  · refine ⟨(joinWrite w s).mem, rfl, rfl, rfl, rfl, rfl, ?_, rfl, rfl, rfl⟩
    rw [internalCount_join]

theorem emit_wrote {j : Job} {w : WriteReq} {s : State} {n : Nat} (h : s.mem.waits = []) (r : Room (n + 1) s) :
    emitWrite j w s = wrote w s := by
  unfold wrote
  by_cases b : w.bytes.isEmpty = true
  · unfold emitWrite; rw [if_pos b, if_pos b]
  · rw [if_neg b]; exact emitWrite_room h r (by simpa using b)

/-- The fields a write leaves alone. -/
structure Same (s t : State) : Prop where
  mem : t = { s with mem := t.mem }
  waits : t.mem.waits = s.mem.waits
  readWaits : t.mem.readWaits = s.mem.readWaits
  reads : t.mem.reads = s.mem.reads
  pubs : t.mem.pubs = s.mem.pubs
  state : t.mem.memState = s.mem.memState

theorem wrote_same (w : WriteReq) (s : State) : Same s (wrote w s) := by
  obtain ⟨m, e, a, b, c, d, _, f, _⟩ := wrote_form w s
  rw [e]; exact ⟨rfl, a, b, c, d, f⟩

theorem join_same (w : WriteReq) (s : State) : Same s (joinWrite w s) := ⟨rfl, rfl, rfl, rfl, rfl, rfl⟩

theorem wrote_room {w : WriteReq} {s : State} {n : Nat} (r : Room (n + 1) s) : Room n (wrote w s) := by
  obtain ⟨m, e, _, _, _, _, i, _⟩ := wrote_form w s
  have r' : internalCount s.mem + (n + 1) ≤ Config.internalWrites := r
  rw [e]; show internalCount m + n ≤ _; omega

theorem event_room {e : Event} {s : State} {n : Nat} (r : Room (n + 2) s) : Room n (eventPlaced e s) := by
  unfold eventPlaced
  exact room_join (room_join (by exact r))

theorem Near.same {s t : State} (h : Near s) (k : Same s t) : Near t := by
  obtain ⟨m, a, b, c, d, f⟩ := k
  obtain ⟨hs, hp, ho, hq, hw, hr, ha, hl⟩ := h
  rw [m]
  exact ⟨hs, hp, ho, hq, a.trans hw, b.trans hr, ha, hl⟩

theorem Near.wrote {s : State} (w : WriteReq) (h : Near s) : Near (wrote w s) := h.same (wrote_same _ _)

theorem Near.join {s : State} (w : WriteReq) (h : Near s) : Near (joinWrite w s) := h

theorem Near.event {s : State} (e : Event) (h : Near s) : Near (eventPlaced e s) := h

theorem EventClear.same {s t : State} (h : EventClear s) (k : Same s t) (r : Room 2 t) : EventClear t := by
  obtain ⟨m, a, b, c, d, f⟩ := k
  obtain ⟨h1, h2, h3, h4⟩ := h
  refine ⟨?_, ?_, ?_, r⟩ <;> rw [m]
  · exact h1
  · exact h2
  · exact h3

theorem LinkClear.same {s t : State} (h : LinkClear s) (k : Same s t) : LinkClear t := by
  rw [k.mem]; exact h

theorem Same.trans {a b c : State} (h : Same a b) (k : Same b c) : Same a c := by
  obtain ⟨m, a1, b1, c1, d1, f1⟩ := h
  obtain ⟨m', a2, b2, c2, d2, f2⟩ := k
  refine ⟨?_, a2.trans a1, b2.trans b1, c2.trans c1, d2.trans d1, f2.trans f1⟩
  rw [m', m]

def Quiet (s : State) : Prop := s.events.pending = [] ∧ s.events.owed = none ∧ s.mem.waits = []

theorem Near.quiet {s : State} (h : Near s) : Quiet s := ⟨h.2.1, h.2.2.1, h.2.2.2.2.1⟩

theorem Quiet.same {s t : State} (h : Quiet s) (k : Same s t) : Quiet t := by
  obtain ⟨m, a, b, c, d, f⟩ := k
  obtain ⟨hp, ho, hw⟩ := h
  refine ⟨?_, ?_, a.trans hw⟩ <;> rw [m]
  · exact hp
  · exact ho

theorem raise_near {j : Job} {e : Event} {s : State} (h : Quiet s) (c : EventClear s) (l : e.loss = false) :
    raise j e s = eventPlaced e s := by
  rw [raise, jobWaits_none h.2.2]
  exact raiseNow_first h.1 h.2.1 h.2.2 c l

/-- A call record set with room. -/
theorem setRec_room {r : Fin 4} {f : CallRec → CallRec} {s : State} {n : Nat} (g : s.calls.gapHeld = false) (h :
    s.mem.waits = []) (ro : Room (n + 1) s) :
    setRec r f s = recWritten r (f s.calls.recs[r]) s := by
  unfold setRec recWritten
  rw [g]
  simp only [Bool.false_eq_true, if_false, Bool.false_and]
  rw [emit_wrote (n := n) (by exact h) (by exact ro)]
  rfl

theorem recWritten_same (r : Fin 4) (c : CallRec) (s : State) : Same (withRec r c s) (recWritten r c s) := wrote_same _ _

theorem recWritten_room {r : Fin 4} {c : CallRec} {s : State} {n : Nat} (ro : Room (n + 1) s) : Room n (recWritten r c s) :=
  wrote_room (by exact ro)

theorem withRec_get (r : Fin 4) (c : CallRec) (s : State) : (withRec r c s).calls.recs[r] = c := by simp [withRec]

theorem recWritten_rec (r : Fin 4) (c : CallRec) (s : State) : (recWritten r c s).calls = (withRec r c s).calls := by
  rw [(recWritten_same r c s).mem]

theorem recWritten_get (r : Fin 4) (c : CallRec) (s : State) : (recWritten r c s).calls.recs[r] = c := by
  rw [recWritten_rec]; exact withRec_get r c s

/-- The event's writer is clear after a record's write. -/
theorem clear_rec {r : Fin 4} {c : CallRec} {s : State} (h : EventClear s) (ro : Room 3 s) : EventClear (recWritten r c s) :=
  EventClear.same (s := withRec r c s) h (recWritten_same _ _ _) (recWritten_room ro)

theorem Near.rec {r : Fin 4} {c : CallRec} {s : State} (h : Near s) : Near (recWritten r c s) :=
  Near.same (s := withRec r c s) h (recWritten_same _ _ _)

theorem Quiet.rec {r : Fin 4} {c : CallRec} {s : State} (h : Quiet s) : Quiet (recWritten r c s) :=
  Quiet.same (s := withRec r c s) h (recWritten_same _ _ _)

theorem callEvent_clear {r : Fin 4} {cause : Option Cause} {s : State} (h : Quiet s) (c : EventClear s) :
    callEvent r cause s = eventPlaced (callStateEvent s r (s.calls.recs[r]).state cause) s := raise_near h c rfl

theorem stateEvent_rec {r : Fin 4} {c : CallRec} {s : State} {q : Fin 4} {st : CallState} {cause : Option Cause} :
    callStateEvent (recWritten r c s) q st cause = callStateEvent s q st cause := by
  have : (recWritten r c s).frame = s.frame := by rw [(recWritten_same r c s).mem]; rfl
  unfold callStateEvent event; rw [this]

/-- A record's state changed with room: the write, the event, the speech mover. -/
theorem change_room {r : Fin 4} {f : CallRec → CallRec} {s : State} (g : s.calls.gapHeld = false) (h : Quiet s) (c :
    EventClear s) (ro : Room 3 s) :
    changeState r f s = (let t := recMoved r (f s.calls.recs[r]) s
      if (f s.calls.recs[r]).state = .active ∧ (s.calls.recs[r]).state ≠ .active then speechStart r t
      else if (s.calls.recs[r]).state = .active ∧ (f s.calls.recs[r]).state ≠ .active then speechStop t else t) := by
  unfold changeState
  dsimp only
  rw [setRec_room (n := 2) g h.2.2 ro]
  have gt := recWritten_get r (f s.calls.recs[r]) s
  rw [callEvent_clear h.rec (clear_rec c ro), gt, stateEvent_rec]
  have ge : (eventPlaced (callStateEvent s r (f s.calls.recs[r]).state
      (if ((f s.calls.recs[r]).state == CallState.free) = true then (f s.calls.recs[r]).endCause else none)) (recWritten r
          (f s.calls.recs[r]) s)).calls.recs[r] = f s.calls.recs[r] := gt
  rw [ge]
  have e : recMoved r (f s.calls.recs[r]) s = eventPlaced (callStateEvent s r (f s.calls.recs[r]).state
      (if ((f s.calls.recs[r]).state == CallState.free) = true then (f s.calls.recs[r]).endCause else none)) (recWritten r
          (f s.calls.recs[r]) s) := by
    unfold recMoved
    simp only [beq_iff_eq]
  rw [e]
  simp only [Bool.and_eq_true, beq_iff_eq, Bool.not_eq_true', beq_eq_false_iff_ne, ne_eq]

theorem Near.moved {r : Fin 4} {c : CallRec} {s : State} (h : Near s) : Near (recMoved r c s) := (h.rec (r := r) (c := c)).event _

theorem moved_room {r : Fin 4} {c : CallRec} {s : State} {n : Nat} (ro : Room (n + 3) s) : Room n (recMoved r c s) :=
  event_room (recWritten_room ro)

theorem speechStart_form (r : Fin 4) (s : State) (w : s.mem.waits = []) (ro : Room 1 s) : ∃ p m,
    speechStart r s = { s with speech := p, mem := m } ∧
    m.waits = s.mem.waits ∧ m.readWaits = s.mem.readWaits := by
  unfold speechStart
  dsimp only
  split
  · have k : writeHeader true false { s with speech := { s.speech with speaking := some r, upCons := s.speech.upProd, fetchStale := s.speech.fetchStale || s.speech.fetch != .idle } } = joinWrite (speechHeaderReq { s with speech := { s.speech with speaking := some r, upCons := s.speech.upProd, fetchStale := s.speech.fetchStale || s.speech.fetch != .idle } } true false) { s with speech := { s.speech with speaking := some r, upCons := s.speech.upProd, fetchStale := s.speech.fetchStale || s.speech.fetch != .idle } } := by
      unfold writeHeader
      rw [mustWait_room (s :=
          { s with speech := { s.speech with speaking := some r, upCons := s.speech.upProd, fetchStale := s.speech.fetchStale || s.speech.fetch != .idle } }) (n := 0) w ro]
      rfl
    rw [k]
    exact ⟨_, _, rfl, rfl, rfl⟩
  · exact ⟨_, _, rfl, rfl, rfl⟩

theorem written_link {r : Fin 4} {c : CallRec} {s : State} (L : Link) :
    recWritten r c { s with link := L } = { recWritten r c s with link := L } := by
  unfold recWritten wrote
  by_cases b : (changedBytes (callFields s.calls.recs[r]) (callFields c)).isEmpty = true
  · rw [if_pos (by exact b), if_pos (by exact b)]; rfl
  · rw [if_neg (by exact b), if_neg (by exact b)]; rfl

theorem moved_link {r : Fin 4} {c : CallRec} {s : State} (L : Link) :
    recMoved r c { s with link := L } = { recMoved r c s with link := L } := by
  unfold recMoved
  rw [written_link]; rfl

theorem start_link {r : Fin 4} {s : State} (L : Link) (w : s.mem.waits = []) (ro : Room 1 s) :
    speechStart r { s with link := L } = { speechStart r s with link := L } := by
  unfold speechStart
  dsimp only
  by_cases b : (s.speech.upCons != s.speech.upProd) = true
  · rw [if_pos b, if_pos b]
    have k : ∀ u : State, u.mem = s.mem → mustWait u = false := fun u hu => mustWait_room (n := 0) (by rw [hu]; exact w)
        (by unfold Room; rw [hu]; exact ro)
    unfold writeHeader
    rw [k _ (by rfl), k _ (by rfl)]
    rfl
  · rw [if_neg b, if_neg b]

theorem emit_eq {m : AirMsg} {s : State} (w : s.mem.waits = []) :
    emitMsg m s = { s with link := handMsg s.link.nextId m { s.link with nextId := s.link.nextId + 1 } } := by
  show (if jobWaits (msgJob m) { s with link := { s.link with nextId := s.link.nextId + 1 } } = true then _ else _) = _
  rw [if_neg (by rw [jobWaits_none (by exact w)]; simp)]

/-- A message handed first is a message handed last. -/
theorem emit_moved {m : AirMsg} {r : Fin 4} {c : CallRec} {s : State} (w : s.mem.waits = []) : recMoved r c
    (emitMsg m s) = emitMsg m (recMoved r c s) := by
  have e1 := emit_eq (m := m) w
  have k : (recMoved r c s).mem.waits = s.mem.waits ∧ (recMoved r c s).link = s.link := by
    unfold recMoved eventPlaced
    exact ⟨(recWritten_same r c s).waits, by show (recWritten r c s).link = _; rw [(recWritten_same r c s).mem]; rfl⟩
  have e2 : emitMsg m (recMoved r c s) = { recMoved r c s with link := handMsg s.link.nextId m { s.link with nextId := s.link.nextId + 1 } } := by
    rw [emit_eq (by rw [k.1]; exact w), k.2]
  rw [e1, e2, moved_link]

theorem emit_start {m : AirMsg} {r : Fin 4} {s : State} (w : s.mem.waits = []) (ro : Room 1 s) : speechStart r
    (emitMsg m s) = emitMsg m (speechStart r s) := by
  have e1 := emit_eq (m := m) w
  rw [e1, start_link _ w ro]
  obtain ⟨p, n, e, a, b⟩ := speechStart_form r s w ro
  rw [e]
  rw [emit_eq (by exact a.trans w)]

/-- With nothing waiting, a stop drops the held frame and marks an outstanding fetch (R145, R150). -/
theorem speechStop_plain {s : State} (w : s.mem.waits = []) : speechStop s = { s with speech := { s.speech with
    speaking := none, heldFrame := none, fetchStale := s.speech.fetchStale || s.speech.fetch != .idle } } := by
  unfold speechStop dropHeld
  rw [w]
  simp only [List.map_nil, List.filter_nil]
  rw [mem_empty w]

theorem speechStop_near {s : State} (h : Near s) : Near (speechStop s) := by
  rw [speechStop_plain h.2.2.2.2.1]
  exact h

theorem Near.start {r : Fin 4} {s : State} (h : Near s) (ro : Room 1 s) : Near (speechStart r s) := by
  obtain ⟨p, m, e, a, b⟩ := speechStart_form r s h.2.2.2.2.1 ro
  rw [e]
  obtain ⟨hs, hp, ho, hq, hw, hr, ha, hl⟩ := h
  exact ⟨hs, hp, ho, hq, a.trans hw, b.trans hr, ha, hl⟩

theorem Calm.room' {s : State} (c : Calm s) {n : Nat} (h : n ≤ 12) : Room n s := c.room.mono h

theorem idle_of {s : State} (r : Resting s) {t : State} (h : connIdle t = connIdle s) (k :
    t.conn.inactTimer = s.conn.inactTimer) : pumpIdle t = t :=
  pumpIdle_resting (by rw [h, k]; exact r.2.2.2.2.2.2.2.2)

/-- The records' states, as far as the idleness of the connection goes. -/
theorem callsFree_set {s : State} {r : Fin 4} {c : CallRec} (h : (c.state = .free) ↔ ((s.calls.recs[r]).state = .free)) : callsFree
    (withRec r c s) = callsFree s := by
  unfold callsFree
  rw [Bool.eq_iff_iff]
  simp only [List.all_eq_true, beq_iff_eq, Vector.mem_toList_iff]
  have key : ∀ (v : Vector CallRec 4), (∀ x ∈ v, x.state = .free) ↔ ∀ q : Fin 4, (v[q]).state = .free := by
    intro v
    constructor
    · intro h q; exact h _ (Vector.getElem_mem q.isLt)
    · intro h x hx
      obtain ⟨i, hi, e⟩ := Vector.getElem_of_mem hx
      rw [← e]; exact h ⟨i, hi⟩
  rw [key, key]
  refine forall_congr' (fun q => ?_)
  by_cases e : r = q
  · subst e; rw [withRec_get]; exact h
  · have : r.val ≠ q.val := fun k => e (Fin.ext k)
    simp [withRec, Vector.getElem_set, this]

theorem connIdle_recWritten {s : State} {r : Fin 4} {c : CallRec} (h : (c.state = .free) ↔ ((s.calls.recs[r]).state = .free)) : connIdle
    (recWritten r c s) = connIdle s := by
  rw [(recWritten_same r c s).mem]
  show (_ && _ && callsFree { withRec r c s with mem := _ } && _ && _ && _) = _
  have : callsFree { withRec r c s with mem := (recWritten r c s).mem } = callsFree s := callsFree_set h
  rw [this]; rfl

theorem moved_form (r : Fin 4) (c : CallRec) (s : State) : ∃ m,
    recMoved r c s = { withRec r c s with mem := m, events := { s.events with producer := s.events.producer + 1 } } ∧
        m.waits = s.mem.waits ∧ m.readWaits = s.mem.readWaits ∧ m.reads = s.mem.reads := by
  obtain ⟨m, e, a, b, d, _⟩ := wrote_form (writeAt s .call r.val (changedBytes (callFields s.calls.recs[r]) (callFields c)))
      (withRec r c s)
  unfold recMoved recWritten
  rw [e]
  exact ⟨_, rfl, a, b, d⟩

theorem calm_link {s t : State} (c : Calm s) (h1 : t.link = s.link) (h2 : jobsRun t = jobsRun s) : LinkClear t := by
  have := c.link
  unfold LinkClear linkOpen at *
  rw [h1, h2]; exact this

theorem withdraw_quiet {t : State} {x : Byte} (q : t.link.queue = []) (o : t.link.outside = []) (w : t.mem.waits = []) :
    withdrawCall x t = t := withdrawCall_none q o w

theorem setRec_same {r : Fin 4} {f : CallRec → CallRec} {s : State} (g : s.calls.gapHeld = false) (w : s.mem.waits = []) (ro :
    Room 1 s)
    (h : callFields (f s.calls.recs[r]) = callFields s.calls.recs[r]) : setRec r f s = withRec r (f s.calls.recs[r]) s := by
  rw [setRec_room (n := 0) g w ro]
  unfold recWritten
  rw [h, changed_same]; rfl

theorem with_room {r : Fin 4} {c : CallRec} {s : State} {n : Nat} (h : Room n s) : Room n (withRec r c s) := h

theorem connIdle_withRec {s : State} {r : Fin 4} {c : CallRec} (h : (c.state = .free) ↔ ((s.calls.recs[r]).state = .free)) : connIdle
    (withRec r c s) = connIdle s := by
  have := callsFree_set (s := s) h
  show (_ && _ && callsFree (withRec r c s) && _ && _ && _) = _
  rw [this]; rfl

/-- A record changed with room, followed through to the end of the moment. -/
theorem settle_moved {s : State} {r : Fin 4} {c : CallRec} (cm : Calm s) : settle (recMoved r c s) = pumpIdle (recMoved r c s) :=
  settle_near cm.near.moved

theorem notFree_idle {s : State} {r : Fin 4} (h : (s.calls.recs[r]).state ≠ .free) : connIdle s = false := by
  have : callsFree s = false := by
    unfold callsFree
    rw [List.all_eq_false]
    exact ⟨s.calls.recs[r], by simp, by simpa using h⟩
  unfold connIdle
  rw [this]; simp

theorem activity_off {s : State} (h : connIdle s = false) : activity s = s := by unfold activity; rw [h]; rfl

/-- Idleness does not come back while a record stays. -/
theorem moved_idle {s : State} {r : Fin 4} {c : CallRec} (rs : Resting s) (h : (c.state = .free) ↔
    ((s.calls.recs[r]).state = .free)) : pumpIdle (recMoved r c s) = recMoved r c s := by
  obtain ⟨m, e, _⟩ := moved_form r c s
  refine idle_of rs ?_ (by rw [e]; rfl)
  rw [e]
  exact connIdle_withRec h

theorem byRef_state {s : State} {ref : Byte} {r : Fin 4} (h : recByRef ref s = some r) : (s.calls.recs[r]).state ≠ .free := by
  have := List.find?_some h
  simp only [Bool.and_eq_true, bne_iff_ne, ne_eq, beq_iff_eq] at this
  exact this.1

theorem start_idle {s : State} {r : Fin 4} {t : State} (rs : Resting s) (h : connIdle t = connIdle s) (k :
    t.conn.inactTimer = s.conn.inactTimer) (w : t.mem.waits = []) (ro : Room 1 t) :
    pumpIdle (speechStart r t) = speechStart r t := by
  obtain ⟨p, m, e, _⟩ := speechStart_form r t w ro
  rw [e]
  exact idle_of rs h k

theorem activity_form (s : State) : ∃ i, activity s = { s with conn := { s.conn with inactTimer := i } } := by
  unfold activity
  split
  · exact ⟨_, rfl⟩
  · exact ⟨s.conn.inactTimer, rfl⟩

theorem activity_idle (s : State) : connIdle (activity s) = connIdle s := by
  obtain ⟨i, e⟩ := activity_form s; rw [e]; rfl

theorem activity_rest {s : State} (h : Resting s) : Resting (activity s) := by
  have hi := activity_idle s
  unfold activity at *
  by_cases k : connIdle s = true
  · rw [if_pos k] at *
    obtain ⟨hs, hp, ho, hq, hw, hr, ha, hl, hi'⟩ := h
    refine ⟨hs, hp, ho, hq, hw, hr, ha, hl, ?_⟩
    rw [hi, k]; rfl
  · rw [if_neg k]; exact h

theorem activity_calm {s : State} (h : Calm s) : Calm (activity s) := by
  have r := activity_rest h.rest
  obtain ⟨i, e⟩ := activity_form s
  rw [e] at r ⊢
  obtain ⟨h1, h2, h3, h4, h5⟩ := h
  exact ⟨h1, h2, h3, r, h5⟩

/-- The one read outstanding is the one due (R38). -/
theorem due_one {m : MemPath} {p : ReadFor → Bool} {e : ReadEntry} (hm : m.reads = [e]) (hp : p e.for_ = true)
    (hs : e.status = .inFlight) : dueRead p e.line m = some e := by
  simp [dueRead, hm, hp, hs, ReadStatus.isComposed]

/-- The one read outstanding completes. -/
theorem complete_one {u : State} {e : ReadEntry} {data : List Byte} {err : Bool} (cm : Calm u) (hi :
    u.mem.inFlight = []) (hs : e.status = .inFlight) :
    completeRead e data err { u with mem := { u.mem with reads := [e], inFlight := [.read e.arrived e.line] } } =
      some ((composeLine (if err then [] else fitTo 64 data) (upperLayers u.mem e.line), err && !e.silent, e.discard), u) := by
  unfold completeRead
  dsimp only
  rw [hs]
  dsimp only
  have n : nextOfLine { u.mem with reads := [e], inFlight := [Access.read e.arrived e.line] }
      (Access.read e.arrived e.line) = true := by
    unfold nextOfLine; simp
  rw [if_pos n]
  have m : ({ u.mem with reads := [e].erase e, inFlight := [Access.read e.arrived e.line].erase (Access.read e.arrived e.line) } : MemPath) = u.mem := by
    have hr := cm.reads
    cases hu : u.mem
    rw [hu] at hr hi
    simp_all
  show some (_, { u with mem := { u.mem with reads := [e].erase e, inFlight := [Access.read e.arrived e.line].erase (Access.read e.arrived e.line) } }) = _
  rw [m]; rfl

/-- What steady says but for rounds and texts. -/
def Still (s : State) : Prop := s.link.refused = [] ∧ (s.conn.shutdown.isSome && s.conn.shutNoDetach) = false ∧
  (s.bind.state == .unbinding && s.bind.noDetach) = false ∧ s.sleep.writeBack = .none

theorem steady_still {s : State} (h : steady s = true) : Still s := by
  simp only [steady, Bool.and_eq_true, List.isEmpty_iff, Bool.not_eq_true', Bool.or_eq_true] at h
  obtain ⟨⟨⟨⟨⟨⟨ref, sh⟩, un⟩, wb⟩, rd⟩, ar⟩, tx⟩ := h
  exact ⟨ref, sh, un, by simpa using wb⟩

theorem settle_open {s : State} (h : Still s) : settle s = (let t := pumpRound 6 s
    let t := pumpText (pumpArrivals t.texts.arrivals t)
    finish (pumpIdle (pumpRefused 8 t))) := by
  obtain ⟨ref, sh, un, wb⟩ := h
  have r0 : ∀ t : State, t.link.refused = [] → pumpRefused 8 t = t := by
    intro t e
    simp [pumpRefused, e]
  have sd : pumpShutdown s = s := by
    unfold pumpShutdown
    have a : (s.conn.shutdown.isSome && s.conn.shutdown != some Cause.unbind && s.conn.shutNoDetach && shutdownPlaced s)
        = false := by
      rw [Bool.and_right_comm s.conn.shutdown.isSome, sh]; rfl
    have b : (s.bind.state == .unbinding && s.bind.noDetach && !s.bind.ending && shutdownPlaced s) = false := by
      simp only [un]; rfl
    dsimp only
    rw [a]
    simp only [Bool.false_eq_true, if_false]
    rw [b]
    simp
  have wb' : writeBack s = s := by
    simp [writeBack, pumpWriteBack, wb]
  unfold settle
  simp only [r0 s ref, sd, wb']

theorem refused_none {t : State} (e : t.link.refused = []) : pumpRefused 8 t = t := by simp [pumpRefused, e]

/-- The end of a moment once rounds and texts have gone as far as they go. -/
def Ended (s : State) : Prop := s.events.pending = [] ∧ s.events.owed = none ∧
    (s.link.queue = [] ∨ s.link.opSendSig.runs = true) ∧ s.mem.waits = [] ∧ s.mem.readWaits = [] ∧
    s.sleep.wakeAfter = none ∧ s.sleep.level ≠ .roused

theorem finish_idle {s : State} (h : Ended s) : finish (pumpIdle s) = pumpIdle s := by
  obtain ⟨hp, ho, hq, hw, hr, ha, hl⟩ := h
  obtain ⟨i, e⟩ := pumpIdle_form s
  rw [e, finish, placeEvents_done (by exact hp) (by exact ho), sendNext_still (by exact hq), checkWake_still (by exact ha),
    pumpWindow_still (by exact hl), closeMoment_still (by exact hw) (by exact hr)]

theorem Near.ended {s : State} (h : Near s) : Ended s := h.2

theorem Near.still {s : State} (h : Near s) : Still s := steady_still h.1

/-- The round clause of steady. -/
def roundStill (s : State) : Bool := match s.cells.round with
      | none => !roundDue s
      | some _ => s.cells.phase != .idle

theorem Near.round {s : State} (h : Near s) : roundStill s = true := by
  have := h.1
  simp only [steady, Bool.and_eq_true] at this
  exact this.1.1.2

theorem setDesc_room {n : Fin 16} {f : Desc → Desc} {s : State} {k : Nat} (h : s.mem.waits = []) (ro : Room (k + 1) s) :
    setDesc n f s = descWritten n (f s.texts.descs[n]) s := by
  unfold setDesc descWritten
  dsimp only
  rw [emit_wrote (n := k) (by exact h) (by exact ro)]
  rfl

theorem descWritten_same (n : Fin 16) (d : Desc) (s : State) : Same (withDesc n d s) (descWritten n d s) := wrote_same _ _

theorem descWritten_room {n : Fin 16} {d : Desc} {s : State} {k : Nat} (ro : Room (k + 1) s) : Room k (descWritten n d s) :=
    wrote_room (by exact ro)

theorem finish_done {n : Fin 16} {st : DescState} {cause : Option Cause} {k : Nat} {s : State} (q : Quiet s) (c : EventClear s)
    (ro : Room 4 s) :
    finishDesc n st cause k s = textDone n { s.texts.descs[n] with state := st, fail := cause, attempts := k } s := by
  unfold finishDesc textDone
  rw [setDesc_room (k := 3) q.2.2 ro]
  have same := descWritten_same n { s.texts.descs[n] with state := st, fail := cause, attempts := k } s
  have rt : Room 3 (descWritten n { s.texts.descs[n] with state := st, fail := cause, attempts := k } s) := descWritten_room ro
  have re : retire (descWritten n { s.texts.descs[n] with state := st, fail := cause, attempts := k } s) = (let t := descWritten n { s.texts.descs[n] with state := st, fail := cause, attempts := k } s
      let i := retireTo t.texts 16 t.texts.retire
      if i = t.texts.retire then t else joinWrite (writeAt s .outbox 0 [(1,
          i)]) { t with texts := { t.texts with retire := i } }) := by
    unfold retire
    dsimp only
    split
    · rfl
    · rw [emitWrite_room (n := 2) (by show (descWritten n _ s).mem.waits = []; rw [same.waits]; exact q.2.2) (by exact rt)
          (by rfl)]
      rw [same.mem]; rfl
  rw [re]
  dsimp only
  have fr : ∀ t : State, t.frame = s.frame → event t .textDone .none Kind.outbox.code (BitVec.ofNat 16 n.val) st.code
      (causeCode cause) 0 = event s .textDone .none Kind.outbox.code (BitVec.ofNat 16 n.val) st.code (causeCode cause) 0 := by
    intro t h; unfold event; rw [h]
  have f1 : (descWritten n { s.texts.descs[n] with state := st, fail := cause, attempts := k } s).frame = s.frame := by rw [same.mem]; rfl
  have q1 : Quiet (descWritten n { s.texts.descs[n] with state := st, fail := cause, attempts := k } s) := Quiet.same (s :=
      withDesc n _ s) q same
  have c1 : EventClear (descWritten n { s.texts.descs[n] with state := st, fail := cause, attempts := k } s) := EventClear.same
      (s := withDesc n _ s) c same (rt.mono (by decide))
  split
  · rw [fr _ f1]
    exact raise_near q1 c1 rfl
  · refine (congrArg (fun ev => raise .texts ev _) (fr _ (by exact f1))).trans ?_
    refine raise_near ⟨q1.1, q1.2.1, q1.2.2⟩ ⟨c1.1, c1.2.1, c1.2.2.1, ?_⟩ rfl
    exact room_join (n := 2) (by exact rt)

theorem submit_one (i : Byte) (s : State) : submit 1 i s = setDesc (descOf i)
    (fun _ => { state := .queued, attempts := 0, fail := none, ref := 0 }) s := rfl

/-- What ends a text changes but the texts and the event writer. -/
theorem textDone_form (n : Fin 16) (d : Desc) (s : State) : ∃ m t,
    textDone n d s = { s with mem := m, texts := t, events := { s.events with producer := s.events.producer + 1 } } ∧
        m.waits = s.mem.waits ∧
    m.readWaits = s.mem.readWaits ∧ t.send = s.texts.send ∧ t.prod = s.texts.prod ∧ t.arrivals = s.texts.arrivals ∧
        t.ctxs = s.texts.ctxs ∧ t.retire = retireTo (withDesc n d s).texts 16 s.texts.retire := by
  obtain ⟨m, e, a, b, _⟩ := wrote_form (writeAt s .outbox (descLine n.val) (changedBytes (descFields n.val s.texts.descs[n])
      (descFields n.val d))) (withDesc n d s)
  have e' : descWritten n d s = { withDesc n d s with mem := m } := e
  unfold textDone
  rw [e']
  dsimp only
  split
  · rename_i h
    exact ⟨_, _, rfl, a, b, rfl, rfl, rfl, rfl, h.symm⟩
  · exact ⟨_, _, rfl, a, b, rfl, rfl, rfl, rfl, rfl⟩

theorem byte_ne_succ (b : Byte) : b ≠ b + 1 := by
  intro h
  have := congrArg (fun v => v - b) h
  simp only [BitVec.sub_self] at this
  rw [BitVec.add_comm, BitVec.add_sub_cancel] at this
  exact absurd this (by decide)

/-- The only text ends. -/
theorem done_near {u : State} {n : Fin 16} {d : Desc} (h : Near u) (hn : n = descOf u.texts.retire) (hp :
    u.texts.prod = u.texts.retire + 1)
    (hf : d.state.final = true) : Near (textDone n d { u with texts := { u.texts with send := none } }) := by
  obtain ⟨m, t, e, w, rw', hs, hpr, har, hct, hre⟩ := textDone_form n d { u with texts := { u.texts with send := none } }
  have hret : t.retire = t.prod := by
    rw [hre, hpr]
    show retireTo (withDesc n d { u with texts := { u.texts with send := none } }).texts
        (14 + 1 + 1) u.texts.retire = u.texts.prod
    have g : (withDesc n d { u with texts := { u.texts with send := none } }).texts.descs[descOf u.texts.retire] = d := by
      have : ∀ k : Fin 16, n = k → (u.texts.descs.set n d)[k] = d := by intro k h; subst h; simp
      exact this _ hn
    have gp : (withDesc n d { u with texts := { u.texts with send := none } }).texts.prod = u.texts.prod := rfl
    unfold retireTo
    rw [g, gp, hf, hp]
    have : (u.texts.retire != u.texts.retire + 1) = true := by simpa using byte_ne_succ u.texts.retire
    rw [this]
    show retireTo _ (14 + 1) _ = _
    unfold retireTo
    rw [gp, hp]
    simp
  obtain ⟨hst, hpe, ho, hq, hw, hr, ha, hl⟩ := h
  rw [e]
  refine ⟨?_, hpe, ho, hq, w.trans hw, rw'.trans hr, ha, hl⟩
  unfold steady at hst ⊢
  simp only [Bool.and_eq_true] at hst ⊢
  refine ⟨⟨hst.1.1, ?_⟩, ?_⟩
  · show t.arrivals.isEmpty = true
    rw [har]; exact hst.1.2
  · show (t.send.isSome || t.retire == t.prod) = true
    rw [hret]; simp

theorem dropSend_plain {u : State} {x : Send} (hx : u.texts.send = some x) (q : u.link.queue = []) (o : u.link.outside = []) (w :
    u.mem.waits = [])
    (hr : u.mem.reads = []) (hrw : u.mem.readWaits = []) : dropSend u = { u with texts := { u.texts with send := none } } := by
  unfold dropSend
  rw [hx]
  dsimp only
  rw [withdrawOpt_none q o w]
  have : discardReads sendReads u = u := by
    unfold discardReads
    rw [hr, hrw, w]
    simp only [List.map_nil, List.filter_nil]
    rw [show ({ u.mem with waits := [], reads := [], readWaits := [] } :
        MemPath) = u.mem from by cases hu : u.mem; rw [hu] at hr hrw w; simp_all]
  rw [this]

theorem endSend_plain {u : State} {x : Send} {st : DescState} {cause : Option Cause} (hx : u.texts.send = some x) (n : Near u)
    (q : u.link.queue = []) (o : u.link.outside = [])
    (hr : u.mem.reads = []) (c : EventClear u) (ro : Room 4 u) :
    endSend st cause u = textDone x.desc { u.texts.descs[x.desc] with state := st, fail := cause } { u with texts := { u.texts with send := none } } := by
  unfold endSend
  rw [hx]
  dsimp only
  rw [dropSend_plain hx q o n.2.2.2.2.1 hr n.2.2.2.2.2.1, finish_done (by exact n.quiet) (by exact c) (by exact ro)]

end Sys2Proof.Machine
end

