-- ==== Sys2Proof/Laws/Moments.lean ====
section
/-! SUPPORT. Moments of a calm part: connection states, shutdown, rounds, leaving service. -/

namespace Sys2Proof.Machine

set_option maxHeartbeats 4000000

theorem activity_mob (X : State) (M : Mob) : activity { X with mob := M } = { activity X with mob := M } := by
  unfold activity
  have h : connIdle { X with mob := M } = connIdle X := rfl
  rw [h]
  split <;> rfl

theorem notePlan_conn {j : Job} {t : State} {st : ConnState} (hj : jobsRun t = true) (hm : memoryAvailable t = true) (w :
    t.mem.waits = []) (r : Room 1 t) (ne : t.conn.state ≠ st) :
    notePlan j t { t with conn := { t.conn with state := st } } = connWritten st t := by
  refine (notePlan_one t { t with conn := { t.conn with state := st } } (by exact hj) (by exact hm) rfl (by exact w)
      (by exact r) [(0x10, st.code)] ?_ rfl).trans rfl
  have c : t.conn.state.code ≠ st.code := by
    intro h; apply ne; revert h; cases t.conn.state <;> cases st <;> decide
  unfold changedBytes planFields1
  have c' : st.code ≠ t.conn.state.code := fun h => c h.symm
  simp [fieldBytes, bytesAt, c']

/-- Outside CONNECTED the state's change brings nothing but the write (and in OFF the end of rounds). -/
theorem setConn_plain {t : State} {st : ConnState} (hj : jobsRun t = true) (hm : memoryAvailable t = true) (w : t.mem.waits = [])
    (r : Room 1 t) (ne : t.conn.state ≠ st) :
    setConn st t = afterConn t.conn.state st (connWritten st t) := by
  unfold setConn; rw [notePlan_conn hj hm w r ne]

theorem emptyQueue_plain {t : State} (q : t.link.queue = []) (o : t.link.outside = []) (w : t.mem.waits = []) (r :
    t.mob.report = false) : emptyQueue t = t := by
  unfold emptyQueue
  dsimp only
  rw [q, r, w]
  have l : ({ t.link with
      queue := List.map (fun q : QMsg => { q with left := true }) (List.filter (fun x : QMsg => x.inFlight) []), outside := [] } : Link)
      = t.link := by
    cases hl : t.link; rw [hl] at q o; simp_all
  have b : ({ t.mob with report := false && !(false && !msgInFlight t.mob.reportMsg t) } : Mob) = t.mob := by
    cases hb : t.mob; rw [hb] at r; simp_all
  rw [List.map_nil, l, b, mem_empty w]

theorem cells_roundless {c : Cells} (r : c.round = none) (w : c.roundWaits = false) : ({ c with round := none, roundWaits := false } :
    Cells) = c := by
  cases c; simp_all

/-- Nothing of a round is under way. -/
theorem abort_none {t : State} (p : t.cells.phase = .idle) (r : t.cells.round = none) (w : t.cells.roundWaits = false) :
    abortRound t = t := by
  rw [abort_idle p, w, Bool.false_and, cells_roundless r w]

theorem shutdownEnd_camped {v : State} (c : Calm v) (st : v.conn.state = .camped) (sh : v.conn.shutdown.isSome = true) :
    shutdownEnd v = connWritten .off { v with conn := { v.conn with
          shutdown := none, shutTimer := .stopped, detachMsg := none, shutNoDetach := false } } := by
  have nb : v.bind.state ≠ .unbinding := by simp [c.bound]
  unfold shutdownEnd
  rw [if_pos sh, if_neg nb]
  rw [setConn_plain (by exact c.jobs) (by exact c.mem) (by exact c.waits) (by exact c.room' (by decide)) (by simp [st])]
  unfold afterConn
  dsimp only
  rw [st]
  simp only [reduceCtorEq, false_and, if_false, ite_true, ne_eq, not_false_eq_true, and_true]
  rw [abort_none (by exact c.phase) (by exact c.round) (by exact c.noRound)]
  rw [emptyQueue_plain (by exact c.queue) (by exact c.outside) (by exact c.waits) (by exact c.report)]

theorem settle_shutdown {v : State} (c : Calm v) (st : v.conn.state = .camped) : settle (connWritten .off { v with conn := { v.conn with
          shutdown := none, shutTimer := .stopped, detachMsg := none, shutNoDetach :=
              false } }) = connWritten .off { v with conn := { v.conn with
          shutdown := none, shutTimer := .stopped, detachMsg := none, shutNoDetach := false } } := by
  have i0 : v.conn.inactTimer.runs = false := by
    rw [c.rest.2.2.2.2.2.2.2.2]; unfold connIdle; rw [st]; rfl
  refine settle_resting ?_
  obtain ⟨hs, hp, ho, hq, hw, hr, ha, hl, hi⟩ := c.rest
  have rd := c.noRound
  have rn := c.round
  refine ⟨?_, hp, ho, hq, hw, hr, ha, hl, ?_⟩
  · unfold steady at hs ⊢
    simp only [Bool.and_eq_true] at hs ⊢
    refine ⟨⟨⟨⟨⟨⟨hs.1.1.1.1.1.1, ?_⟩, hs.1.1.1.1.2⟩, hs.1.1.1.2⟩, ?_⟩, hs.1.2⟩, hs.2⟩
    · rfl
    · show (match v.cells.round with
      | none => !roundDue _
      | some _ => _) = true
      rw [rn]
      show (!(if ConnState.off = ConnState.connected then _ else v.cells.roundWaits)) = true
      rw [rd]; rfl
  · show v.conn.inactTimer.runs = _
    rw [i0]; rfl

theorem pumpText_still {s : State} (tx : (s.texts.send.isSome || s.texts.retire == s.texts.prod) = true) : pumpText s = s := by
  have hr : headReady s = false := by
    unfold headReady headDesc
    simp only [Bool.or_eq_true] at tx
    rcases tx with t | t
    · have : s.texts.send.isNone = false := by
        cases hs : s.texts.send with
        | none => simp [hs] at t
        | some v => rfl
      split <;> simp [this]
    · have : s.texts.retire = s.texts.prod := by simpa using t
      simp [this]
  simp [pumpText, hr]

theorem steady_texts {s : State} (h : steady s = true) : s.texts.arrivals = [] ∧
    (s.texts.send.isSome || s.texts.retire == s.texts.prod) = true := by
  simp only [steady, Bool.and_eq_true, List.isEmpty_iff] at h
  exact ⟨h.1.2, h.2⟩

theorem settle_with {t t' : State} (st : Still t) (e : pumpRound 6 t = t') (r : t'.link.refused = []) (arr :
    t'.texts.arrivals = [])
   (tx : (t'.texts.send.isSome || t'.texts.retire == t'.texts.prod) = true) (en : Ended t') : settle t = pumpIdle t' := by
  rw [settle_open st, e]
  dsimp only
  rw [arr]
  have : pumpArrivals [] t' = t' := rfl
  rw [this, pumpText_still tx, refused_none r, finish_idle en]

/-- What the rounds change. -/
structure Measuring (s t : State) : Prop where
  form : t = { s with cells := t.cells, out := t.out, link := { s.link with
    opMeasure := t.link.opMeasure, askMeasure := t.link.askMeasure } }

theorem startMeasure_measuring (n : Fin 13) (f : Bool) (s : State) : Measuring s (startMeasure n f s) := by
  constructor
  unfold startMeasure sendFrame enterSample sendMeasure request
  dsimp only
  split <;> split <;> (try split) <;> rfl

theorem Ended.meas {s t : State} (h : Ended s) (m : Measuring s t) : Ended t := by rw [m.form]; exact h

theorem Still.meas {s t : State} (h : Still s) (m : Measuring s t) : Still t := by rw [m.form]; exact h

theorem meas_idle {s t : State} (m : Measuring s t) : connIdle t = connIdle s := by rw [m.form]; rfl

theorem start_phase (n : Fin 13) (f : Bool) (s : State) : (startMeasure n f s).cells.phase ≠ .idle ∧
    (startMeasure n f s).cells.round = s.cells.round := by
  unfold startMeasure sendFrame enterSample sendMeasure request
  dsimp only
  split <;> split <;> (try split) <;> (constructor <;> first | rfl | (intro h; cases h))

theorem pump_phase {s : State} (k : Nat) (p : s.cells.phase ≠ .idle) (r : ∃ x, s.cells.round = some x) : pumpRound k s = s := by
  obtain ⟨x, r⟩ := r
  cases k with
  | zero => rfl
  | succ k =>
    unfold pumpRound
    split
    · rfl
    · rw [r]; dsimp only; rw [if_pos (by simpa using p)]

/-- A running round goes on to its next slot. -/
theorem pump_next {s : State} {k : Nat} {pos : RoundPos} {n : Fin 13} {f : Bool} (o : roundOpen s = true) (p :
    s.cells.phase = .idle) (r : s.cells.round = some pos)
    (nx : nextSlot s pos = some (n, f)) (hb : heldBack s = false) : pumpRound (k + 1) s = startMeasure n f s := by
  unfold pumpRound
  rw [o, r]
  simp only [Bool.not_true, Bool.false_eq_true, if_false]
  rw [if_neg (by simp [p]), nx]
  dsimp only
  rw [hb]; simp

theorem pump_end {s : State} {k : Nat} {pos : RoundPos} (o : roundOpen s = true) (p : s.cells.phase = .idle) (r :
    s.cells.round = some pos)
    (nx : nextSlot s pos = none) : pumpRound (k + 1) s = pumpRound k
        (reportRound { s with cells := { s.cells with round := none, paced := true } }) := by
  rw [pumpRound, o, r]
  simp only [Bool.not_true, Bool.false_eq_true, if_false]
  rw [if_neg (by simp [p]), nx]

theorem pump_begin {s : State} {k : Nat} (o : roundOpen s = true) (r : s.cells.round = none) (d : roundDue s = true) : pumpRound
    (k + 1) s = pumpRound k (beginRound s) := by
  rw [pumpRound, o, r]
  simp only [Bool.not_true, Bool.false_eq_true, if_false]
  rw [d]; simp

theorem pump_rest {s : State} (k : Nat) (r : s.cells.round = none) (d : roundDue s = false) : pumpRound k s = s := by
  cases k with
  | zero => rfl
  | succ k =>
    rw [pumpRound, r]
    split
    · rfl
    · dsimp only; rw [d]; simp

theorem open_calm {u s : State} (c : Calm u) (h : s.conn.state ≠ .off) (h' : s.conn.state ≠ .reestablishing) (hr :
    s.resetN = u.resetN) (hp : s.resetPhase = u.resetPhase)
   (hb : s.bind = u.bind) (hu : s.link.up = true) (hm : s.mob.state = .idle) (hw : s.mem.waits = []) : roundOpen s = true := by
  unfold roundOpen
  have a : portOpen s = true := by have := c.port; unfold portOpen at *; rw [hr, hp]; exact this
  have b : s.bind.state = .bound := by rw [hb]; exact c.bound
  rw [a, hu, jobWaits_none hw]
  simp [b, h, h', switchOn, hm]

theorem not_connected {s : State} (h : s.conn.state ≠ .connected) : connIdle s = false := by unfold connIdle; simp [h]

theorem idle_off {u s : State} (c : Calm u) (h : u.conn.state ≠ .connected) (h' : s.conn.state ≠ .connected) (k :
    s.conn.inactTimer = u.conn.inactTimer) : pumpIdle s = s := by
  refine pumpIdle_resting ?_
  rw [k, c.rest.2.2.2.2.2.2.2.2, not_connected h, not_connected h']

theorem settle_pumped {u t t' : State} (c : Calm u) (hu : u.conn.state ≠ .connected) (ht : t.conn.state ≠ .connected) (S :
    Still t) (E : Ended t) (e : pumpRound 6 t = t')
    (M : Measuring t t') (ar : t.texts.arrivals = []) (tx : (t.texts.send.isSome || t.texts.retire == t.texts.prod) = true) (k :
        t.conn.inactTimer = u.conn.inactTimer) : settle t = t' := by
  have f := M.form
  rw [settle_with S e (by rw [f]; exact S.1) (by rw [f]; exact ar) (by rw [f]; exact tx) (E.meas M)]
  exact idle_off c hu (by rw [f]; exact ht) (by rw [f]; exact k)

theorem settle_next {u t : State} {pos : RoundPos} {n : Fin 13} {f : Bool} (c : Calm u) (hu : u.conn.state ≠ .connected) (ht :
    t.conn.state ≠ .connected) (S : Still t) (E : Ended t)
    (ar : t.texts.arrivals = []) (tx : (t.texts.send.isSome || t.texts.retire == t.texts.prod) = true) (k :
        t.conn.inactTimer = u.conn.inactTimer)
    (o : roundOpen t = true) (p : t.cells.phase = .idle) (r : t.cells.round = some pos) (nx : nextSlot t pos = some (n, f)) :
        settle t = startMeasure n f t := by
  have hb : heldBack t = false := by unfold heldBack; simp [ht]
  exact settle_pumped c hu ht S E (pump_next o p r nx hb) (startMeasure_measuring n f t) ar tx k

theorem settle_begin {u t : State} {n : Fin 13} {f : Bool} (c : Calm u) (hu : u.conn.state ≠ .connected) (ht :
    t.conn.state ≠ .connected) (S : Still t) (E : Ended t)
    (ar : t.texts.arrivals = []) (tx : (t.texts.send.isSome || t.texts.retire == t.texts.prod) = true) (k :
        t.conn.inactTimer = u.conn.inactTimer)
    (o : roundOpen t = true) (p : t.cells.phase = .idle) (r : t.cells.round = none) (w : t.cells.roundWaits = true) (nx :
        nextSlot (beginRound t) .serving = some (n, f)) :
    settle t = startMeasure n f (beginRound t) := by
  have hb : heldBack (beginRound t) = false := by unfold heldBack beginRound; simp [ht]
  have d : roundDue t = true := by unfold roundDue; rw [if_neg ht, w]
  have e : pumpRound 6 t = startMeasure n f (beginRound t) := by
    rw [pump_begin o r d]
    exact pump_next o p rfl nx hb
  have M := startMeasure_measuring n f (beginRound t)
  have F := M.form
  refine settle_pumped c hu ht S E e ?_ ar tx k
  constructor
  rw [F]; rfl

/-- A round with nothing to take ends unheard. -/
theorem report_quiet {s : State} (h : s.conn.state = .noService) (n : campChoice s false = none) : reportRound s = setCounts
    (fun _ => 0) s := by
  unfold reportRound roundReselect
  have : (s.conn.state != .camped) = true := by rw [h]; rfl
  rw [this]
  simp only [if_true]
  have k : (setCounts (fun _ => 0) s).conn = s.conn := rfl
  rw [k, h]
  dsimp only
  split
  · rfl
  · have : campChoice (setCounts (fun _ => 0) s) false = campChoice s false := rfl
    rw [this, n]

theorem settle_end {u t : State} {pos : RoundPos} (c : Calm u) (hu : u.conn.state ≠ .connected) (ht : t.conn.state = .noService)
    (S : Still t) (E : Ended t)
    (ar : t.texts.arrivals = []) (tx : (t.texts.send.isSome || t.texts.retire == t.texts.prod) = true) (k :
        t.conn.inactTimer = u.conn.inactTimer)
    (o : roundOpen t = true) (p : t.cells.phase = .idle) (r : t.cells.round = some pos) (w : t.cells.roundWaits = false) (nx :
        nextSlot t pos = none) (cc : campChoice t false = none) :
    settle t = setCounts (fun _ => 0) { t with cells := { t.cells with round := none, paced := true } } := by
  have e : pumpRound 6 t = setCounts (fun _ => 0) { t with cells := { t.cells with round := none, paced := true } } := by
    rw [pump_end o p r nx, report_quiet (by exact ht) (by exact cc)]
    refine pump_rest 5 rfl ?_
    unfold roundDue
    show (if t.conn.state = .connected then _ else t.cells.roundWaits) = false
    rw [if_neg (by simp [ht]), w]
  rw [settle_with S e (by exact S.1) (by exact ar) (by exact tx) (by exact E)]
  exact idle_off c hu (by show t.conn.state ≠ _; simp [ht]) (by exact k)

theorem settle_begin_end {u t : State} (c : Calm u) (hu : u.conn.state ≠ .connected) (ht : t.conn.state = .noService) (S :
    Still t) (E : Ended t)
    (ar : t.texts.arrivals = []) (tx : (t.texts.send.isSome || t.texts.retire == t.texts.prod) = true) (k :
        t.conn.inactTimer = u.conn.inactTimer)
    (o : roundOpen t = true) (p : t.cells.phase = .idle) (r : t.cells.round = none) (w : t.cells.roundWaits = true) (nx :
        nextSlot (beginRound t) .serving = none) (cc : campChoice t false = none) :
    settle t = setCounts (fun _ => 0) { beginRound t with cells := { (beginRound t).cells with round := none, paced := true } } := by
  have d : roundDue t = true := by unfold roundDue; rw [if_neg (by simp [ht]), w]
  have e : pumpRound 6 t = setCounts
      (fun _ => 0) { beginRound t with cells := { (beginRound t).cells with round := none, paced := true } } := by
    rw [pump_begin o r d, pump_end (by exact o) (by exact p) rfl nx, report_quiet (by exact ht) (by exact cc)]
    refine pump_rest 4 rfl ?_
    unfold roundDue
    show (if t.conn.state = .connected then _ else false) = false
    rw [if_neg (by simp [ht])]
  rw [settle_with S e (by exact S.1) (by exact ar) (by exact tx) (by exact E)]
  exact idle_off c hu (by show t.conn.state ≠ _; simp [ht]) (by exact k)

theorem evaluate_off {s : State} (h : s.conn.state ≠ .connected) (k : ∀ n : Fin 13, (s.cells.slots[n]).candidate = false) :
    evaluateCandidates s = s :=
  evaluate_still (fun n => ⟨k n, candidate_off h⟩)

theorem slot_candidate {s : State} {n : Fin 13} {x : Slot} (k : ∀ m : Fin 13, (s.cells.slots[m]).candidate = false) (h :
    x.candidate = false) (m : Fin 13) :
    ((s.cells.slots.set n x)[m]).candidate = false := by
  by_cases e : n = m
  · subst e; simp [h]
  · have : n.val ≠ m.val := fun q => e (Fin.ext q)
    have := k m
    simp_all [Vector.getElem_set]

theorem change_slot {n : Fin 13} {f : Slot → Slot} {s : State} {k : Nat} (m : memoryAvailable s = true) (w : s.mem.waits = [])
    (r : Room (k + 1) s) :
    changeSlot n f s = slotWritten n (f s.cells.slots[n]) s := by
  unfold changeSlot mirror setSlot
  have : memoryAvailable { s with cells := { s.cells with slots := s.cells.slots.set n (f s.cells.slots[n]) } } = true := m
  rw [this]
  simp only [if_true]
  rw [emitWrite_room (n := k) (by exact w) (by exact r) (by rfl)]
  unfold slotWritten
  have : (s.cells.slots.set n (f s.cells.slots[n]))[n] = f s.cells.slots[n] := by simp
  rw [this]; rfl

theorem rec_free {s : State} (h : callsFree s = true) (r : Fin 4) : ((s.calls.recs[r]).state == .free) = true := by
  unfold callsFree at h
  rw [List.all_eq_true] at h
  exact h _ (by simp)

theorem releaseAll_free {s : State} {c : Cause} (h : callsFree s = true) : localReleaseAll (fun c => c.state != .free) c s = s :=
    by
  unfold localReleaseAll
  have : ∀ ls : List (Fin 4), ls.foldl (fun s r => if (s.calls.recs[r]).state != .free then localRelease r c s else s) s = s := by
    intro ls
    induction ls with
    | nil => rfl
    | cons x xs ih =>
      rw [List.foldl_cons, if_neg (by have := rec_free h x; simp only [beq_iff_eq] at this; rw [this]; decide)]; exact ih
  exact this _

theorem textLost_none {s : State} {c : Cause} (h : s.texts.send = none) : textLost c s = s := by unfold textLost; rw [h]

theorem primary_calm {s : State} {p : Cause} {l : Nat} (a : s.sleep.level = .awake) (k : s.sleep.cycle = s.sleep.base) :
    primaryCause p l s = { s with sleep := { s.sleep with quiet := 0 } } := by
  unfold primaryCause
  rw [a]
  dsimp only
  have b : baseCycle s.sleep = { s.sleep with quiet := 0 } := by
    unfold baseCycle
    cases hl : s.sleep; rw [hl] at k; simp_all
  rw [b]
  exact notePlan_none _ _ rfl rfl

/-- SetConn outside CONNECTED with the cells unchanged. -/
theorem setConn_move {t : State} {st : ConnState} (hj : jobsRun t = true) (hm : memoryAvailable t = true) (w : t.mem.waits = [])
    (r : Room 1 t) (ne : t.conn.state ≠ st)
    (h1 : t.conn.state ≠ .noService) (h2 : st ≠ .connected) (h3 : st ≠ .off) (id : t.mob.state ≠ .armed) (cd : ∀ n : Fin 13,
        (t.cells.slots[n]).candidate = false) : setConn st t = connWritten st t := by
  rw [setConn_plain hj hm w r ne]
  have n1 : ¬(t.conn.state = .noService ∧ st ≠ .noService) := fun h => h1 h.1
  have dr : dropOrder (clearCandidates (connWritten st t)) = connWritten st t := by
    rw [clear_still (by exact cd)]
    unfold dropOrder
    rw [if_neg (by exact id)]
  simp only [afterConn, if_neg h2, if_neg h3, if_neg n1, dr, ite_self]

/-- The steps of a shutdown with no call and no text. -/
theorem shutdown_plain {s : State} {c : Cause} (sd : s.conn.shutdown = none) (ne : s.conn.state ≠ .off) (cf : callsFree s = true)
    (ns : s.texts.send = none) (rv : s.texts.resv = [])
    (mi : s.mob.state = .idle) (pb : s.mem.pubs = []) :
    requestShutdown c s = (let t := { s with
      mob := { s.mob with reestWaits := false }
      conn := { s.conn with
        shutdown := some c, shutNoDetach := s.conn.state == .noService
        connectTimer := .stopped, areaTimer := .stopped, inactTimer := .stopped, reestTimer := .stopped, areaMsg := none
        camping := false, purposes := [], attempts := 0, opening := none, awaited := none, reqMsg := none } }
      if s.conn.state == .noService then t
      else emitMsg .detach { t with conn := { t.conn with detachMsg := some s.link.nextId, shutTimer := .running 50 } }) := by
  unfold requestShutdown
  have b : (s.conn.state == .off || s.conn.shutdown.isSome) = false := by simp [sd, ne]
  rw [b]
  simp only [Bool.false_eq_true, if_false]
  rw [shutdownCalls_free (by exact cf)]
  have e : ∀ t : State, t.texts.send = none → endSend .failed (some c) t = t := by intro t h; unfold endSend; rw [h]
  have ab : ∀ t : State, t.texts.resv = [] → abandonAll t = t := by intro t h; unfold abandonAll; rw [h]; rfl
  rw [e _ (by exact ns), ab _ (by exact rv), dropSwitch_idle (by exact mi), unlivePubs_none (by exact pb)]
  rfl

theorem shutdownEnd_some {t : State} (h : t.conn.shutdown.isSome = true) (u : t.bind.state ≠ .unbinding) : shutdownEnd t = emptyQueue
    (setConn .off { t with conn := { t.conn with
      shutdown := none, shutTimer := .stopped, detachMsg := none, shutNoDetach := false } }) := by
  unfold shutdownEnd; rw [if_pos h, if_neg u]

theorem dropRequest_plain {s : State} (q : s.link.queue = []) (o : s.link.outside = []) (w : s.mem.waits = []) :
    dropRequest s = { s with conn := { s.conn with reqMsg := none, connectTimer := .stopped } } := by
  unfold dropRequest
  rw [withdrawOpt_none q o w]

theorem dropRequests_plain {s : State} (q : s.link.queue = []) (o : s.link.outside = []) (w : s.mem.waits = []) :
    dropRequests s = { s with conn := { s.conn with reqMsg := none, connectTimer := .stopped } } := by
  unfold dropRequests
  have : ∀ ls : List Nat, ls.foldl (fun s id => withdrawMsg id s) s = s := by
    intro ls
    induction ls with
    | nil => rfl
    | cons x xs ih => rw [List.foldl_cons, withdraw_none q o w]; exact ih
  rw [this, dropRequest_plain q o w]

theorem placeSetups_none {s : State} (h : ∀ r : Fin 4, (s.calls.recs[r]).state ≠ .dialing) : placeSetups s = s := by
  unfold placeSetups
  have one : ∀ r, placeSetup r s = s := by
    intro r
    unfold placeSetup
    dsimp only
    split
    · rename_i a b c; exact absurd a (h r)
    · rfl
  have : ∀ ls : List (Fin 4), ls.foldl (fun s r => placeSetup r s) s = s := by
    intro ls
    induction ls with
    | nil => rfl
    | cons x xs ih => rw [List.foldl_cons, one]; exact ih
  exact this _

theorem runAir_on {c : Instr} {f : State → State} {s : State} (o : linkOpen s = true) (v : airValid c = true) : runAir c f s = .next
    (settle (f (activity s))) := by
  unfold runAir
  rw [runIf_on _ _ (by simp [o, v])]

/-- A state near rest that is at rest but for the idleness, which has not changed. -/
theorem settle_same {u t : State} (c : Calm u) (n : Near t) (h : connIdle t = connIdle u) (k :
    t.conn.inactTimer = u.conn.inactTimer) : settle t = t := by
  rw [settle_near n]; exact idle_of c.rest h k

theorem sent_idle {m : AirMsg} (s : State) : connIdle (sent m s) = connIdle s := rfl

/-- A message from a state near rest, the idleness unchanged. -/
theorem settle_told {u t : State} {m : AirMsg} (c : Calm u) (n : Near t) (l : LinkClear t) (h : connIdle t = connIdle u) (k :
    t.conn.inactTimer = u.conn.inactTimer) :
    settle (emitMsg m t) = sent m t := by
  rw [settle_msg n l]; exact idle_of c.rest (by rw [sent_idle, h]) (by exact k)

theorem near_of {u t : State} (c : Calm u) (h1 : t.link.refused = u.link.refused) (h2 : t.conn.shutdown.isSome = true →
    t.conn.shutNoDetach = false) (h3 : t.bind = u.bind) (h4 : t.sleep.writeBack = u.sleep.writeBack)
    (h5 : roundStill t = true) (h6 : t.texts.arrivals = u.texts.arrivals) (h7 : t.texts.send.isSome = u.texts.send.isSome) (h8 :
        t.texts.retire = u.texts.retire) (h9 : t.texts.prod = u.texts.prod)
    (e : Ended t) : Near t := by
  obtain ⟨hs, _⟩ := c.near
  refine ⟨?_, e⟩
  unfold steady at hs ⊢
  simp only [Bool.and_eq_true] at hs ⊢
  rw [h1, h3, h4, h6, h7, h8, h9]
  refine ⟨⟨⟨⟨⟨⟨hs.1.1.1.1.1.1, ?_⟩, hs.1.1.1.1.2⟩, hs.1.1.1.2⟩, h5⟩, hs.1.2⟩, hs.2⟩
  cases k : t.conn.shutdown.isSome
  · rfl
  · rw [h2 k]; rfl

theorem round_still {t : State} (r : t.cells.round = none) (d : roundDue t = false) :
    roundStill t = true := by unfold roundStill; rw [r]; simp [d]

theorem settle_begun {t : State} {n : Fin 13} {f : Bool} (ht : t.conn.state ≠ .connected) (S : Still t) (E : Ended t)
    (ar : t.texts.arrivals = []) (tx : (t.texts.send.isSome || t.texts.retire == t.texts.prod) = true) (k :
        t.conn.inactTimer.runs = false)
    (o : roundOpen t = true) (p : t.cells.phase = .idle) (r : t.cells.round = none) (w : t.cells.roundWaits = true) (nx :
        nextSlot (beginRound t) .serving = some (n, f)) :
    settle t = startMeasure n f (beginRound t) := by
  have hb : heldBack (beginRound t) = false := by unfold heldBack beginRound; simp [ht]
  have d : roundDue t = true := by unfold roundDue; rw [if_neg ht, w]
  have e : pumpRound 6 t = startMeasure n f (beginRound t) := by
    rw [pump_begin o r d]
    exact pump_next o p rfl nx hb
  have M := startMeasure_measuring n f (beginRound t)
  have F := M.form
  rw [settle_with S e (by rw [F]; exact S.1) (by rw [F]; exact ar) (by rw [F]; exact tx) (by rw [F]; exact E)]
  refine pumpIdle_resting ?_
  rw [F]
  refine Eq.trans k ?_
  exact (not_connected ht).symm

theorem round_after {L : State} {m : Fin 13} {f : Bool} (st : L.conn.state = .noService) (S : Still L) (E : Ended L) (ar :
    L.texts.arrivals = []) (tx : (L.texts.send.isSome || L.texts.retire == L.texts.prod) = true)
    (k : L.conn.inactTimer.runs = false) (o : roundOpen L = true) (p : L.cells.phase = .idle) (r : L.cells.round = none) (w :
        L.cells.roundWaits = false) (nx : nextSlot (roundBegun L) .serving = some (m, f)) :
    settle { L with cells := { L.cells with roundWaits := true, measStray := false } } = startMeasure m f (roundBegun L) := by
  have nc : L.conn.state ≠ .connected := by simp [st]
  have bg : beginRound { L with cells := { L.cells with roundWaits := true, measStray := false } } = { L with cells := { (roundBegun L).cells with measStray := false } } := by
    unfold beginRound roundBegun
    dsimp only
    rw [if_pos st]
    have : ({ L.cells with measStray := false, round := some .serving, roundWaits := false, roundTimer := .running L.sleep.base } : Cells) = { L.cells with measStray := false, round := some .serving, roundTimer := .running L.sleep.base } := by
      cases hc : L.cells; rw [hc] at w; simp_all
    exact congrArg (fun C => ({ L with cells := C } : State)) this
  rw [settle_begun (n := m) (f := f) (t :=
      { L with cells := { L.cells with roundWaits := true, measStray := false } }) nc S E ar tx k o p r rfl
          (by rw [bg]; exact nx), bg]
  rfl

end Sys2Proof.Machine
end

