-- ==== Sys2Proof/Laws/JobParts.lean ====
section
/-! SUPPORT. The jobs, part by part: texts, the link, frames, measurement, the cell table, the connection, switches, lines. -/

namespace Sys2Proof.Machine

set_option maxHeartbeats 4000000

theorem boolOf_bit (b : Bool) (v : Half) (h : v = 0 ∨ v = 1) : boolOf v.toNat = some (v == 1) := by
  rcases h with rfl | rfl <;> rfl

theorem resting_lines {s : State} (l : Vector WakeLine 4) (h : Resting s) :
    Resting { s with sleep := { s.sleep with lines := l } } := h

theorem planFields0_lines {s t : State} (h : ∀ l : Fin 4, (s.sleep.lines[l]).flag = (t.sleep.lines[l]).flag ∧
    (s.sleep.lines[l]).active = (t.sleep.lines[l]).active) :
    planFields0 s = planFields0 t := by
  unfold planFields0
  congr 1
  funext l
  rw [(h l).1, (h l).2]

theorem lines_set_still {s : State} {l : Fin 4} {x : WakeLine} (hf : x.flag = (s.sleep.lines[l]).flag) (ha : x.active =
    (s.sleep.lines[l]).active) :
    planFields0 s = planFields0 { s with sleep := { s.sleep with lines := s.sleep.lines.set l x } } := by
  apply planFields0_lines
  intro k
  by_cases e : l = k
  · subst e; simp [hf, ha]
  · have : l.val ≠ k.val := fun h => e (Fin.ext h)
    simp [Vector.getElem_set, this]

/-- Only the sleep controller changed, and nothing that a moment's end looks at. -/
theorem sleep_resting {s : State} (r : Resting s) (p : Sleep) (h1 : p.writeBack = s.sleep.writeBack) (h2 : p.wakeAfter = none)
    (h3 : p.level ≠ .roused) : Resting { s with sleep := p } := by
  obtain ⟨hs, hp, ho, hq, hw, hr, ha, hl, hi⟩ := r
  refine ⟨?_, hp, ho, hq, hw, hr, h2, h3, hi⟩
  unfold steady at hs ⊢
  dsimp only; rw [h1]; exact hs

theorem clear_join {s : State} {w : WriteReq} (c : EventClear s) (r : Room 3 s) : EventClear (joinWrite w s) :=
  ⟨c.1, c.2.1, c.2.2.1, room_join r⟩

theorem settle_quiet {s : State} (hs : steady s = true) (hi : s.conn.inactTimer.runs = connIdle s) (hp : s.events.pending = [])
    (ho : s.events.owed = none)
    (hq : s.link.queue = [] ∨ s.link.opSendSig.runs = true) (ha : s.sleep.wakeAfter = none) (hw : pumpWindow s = s) (w :
        s.mem.waits = []) (r : s.mem.readWaits = []) : settle s = s := by
  rw [settle_steady hs, pumpIdle_resting hi, finish, placeEvents_done hp ho, sendNext_still hq, checkWake_still ha, hw,
      closeMoment_still w r]

theorem pumpWriteBack_succ (n : Nat) (s : State) : pumpWriteBack (n + 1) s = match s.sleep.writeBack with
    | .none => s
    | .lines r =>
      if s.sleep.dirty.isEmpty then
        pumpWriteBack n { setWriteBack (.events r) s with events := { s.events with handed := true } }
      else if mustWait s then (if jobWaits .sleep s then s else waitActs .sleep [.writeBack] s)
      else pumpWriteBack n (placeDirty s)
    | .events r =>
      let s := placeEvents s
      if eventsDone s then
        if r then
          pumpWriteBack n (raiseNow (event s .wake .none Kind.plan.code 0
            (BitVec.ofNat 8 (if s.sleep.wakeCause = some .line then s.sleep.wakeLine else 0))
            (causeCode s.sleep.wakeCause) 0) (setWriteBack .wakeEvent s))
        else setWriteBack .none s
      else s
    | .wakeEvent =>
      let s := placeEvents s
      if eventsDone s then
        let after := if s.sleep.wakeCause = some .host then none else some s.mem.clock
        liftSleepHold { s with sleep := { s.sleep with writeBack := .none, wakeAfter := after } }
      else s := rfl

variable {s : State}

theorem writeBack_line {n : Nat} {d : DirtyLine} (h : s.sleep.writeBack = .lines true) (hd : s.sleep.dirty = [d]) (hm :
    mustWait s = false) :
    pumpWriteBack (n + 2) s = pumpWriteBack n { joinWrite (d.write s) { s with sleep := { s.sleep with dirty := [], writeBack := .events true } } with events := { s.events with handed := true } } := by
  have p : placeDirty s = joinWrite (d.write s) { s with sleep := { s.sleep with dirty := [] } } := by
    unfold placeDirty firstDirty
    rw [hd]
    simp [sortBy, insertBy]
  rw [pumpWriteBack_succ, h]
  dsimp only
  rw [hd, hm, p]
  simp only [List.isEmpty_cons, Bool.false_eq_true, if_false]
  rw [pumpWriteBack_succ]
  have : (joinWrite (d.write s) { s with sleep := { s.sleep with dirty := [] } }).sleep.writeBack = .lines true := h
  rw [this]
  rfl

theorem writeBack_events {n : Nat} (h : s.sleep.writeBack = .events true) (hp : s.events.pending = []) (ho : s.events.owed = none)
    (hw : s.mem.waits = []) (ec : EventClear { s with sleep := { s.sleep with writeBack := .wakeEvent } }) (wl :
        s.sleep.wakeCause ≠ some .line) :
    pumpWriteBack (n + 1) s = pumpWriteBack n (eventPlaced (event s .wake .none Kind.plan.code 0 0
        (causeCode s.sleep.wakeCause) 0) { s with sleep := { s.sleep with writeBack := .wakeEvent } }) := by
  have d : eventsDone s = true := by simp [eventsDone, eventsLeft, hp, ho]
  rw [pumpWriteBack_succ, h]
  dsimp only
  rw [placeEvents_done hp ho, d, if_pos rfl, if_pos rfl, if_neg wl]
  have := raiseNow_first (s := { s with sleep := { s.sleep with writeBack := .wakeEvent } }) (e :=
      event s .wake .none Kind.plan.code 0 0 (causeCode s.sleep.wakeCause) 0) hp ho hw ec rfl
  rw [← this]; rfl

theorem writeBack_wake {n : Nat} (h : s.sleep.writeBack = .wakeEvent) (hp : s.events.pending = []) (ho : s.events.owed = none) :
    pumpWriteBack (n + 1) s = liftSleepHold { s with sleep := { s.sleep with writeBack := .none, wakeAfter := if s.sleep.wakeCause = some .host then none else some s.mem.clock } } := by
  have d : eventsDone s = true := by simp [eventsDone, eventsLeft, hp, ho]
  rw [pumpWriteBack_succ, h]
  dsimp only
  rw [placeEvents_done hp ho, d, if_pos rfl]

/-- The memory path after writes have joined. -/
def Joined (m n : MemPath) (ws : List (WriteNote × Line × LineBytes)) : Prop :=
  n.accept.map (fun w => (w.writer, w.line, w.bytes)) = m.accept.map (fun w => (w.writer, w.line, w.bytes)) ++ ws.map (fun w =>
      (.part w.1, w.2)) ∧
    n.waits = m.waits ∧ n.readWaits = m.readWaits ∧ n.reads = m.reads ∧ n.memState = m.memState ∧
    internalCount n = internalCount m + ws.length ∧ n.clock = m.clock + ws.length ∧
    (∀ w ∈ n.accept, w ∈ m.accept ∨ w.joined < n.clock)

theorem Joined.trans {a b c : MemPath} {x y : List (WriteNote × Line × LineBytes)} (h : Joined a b x) (k : Joined b c y) :
    Joined a c (x ++ y) := by
  obtain ⟨h1, h2, h3, h4, h5, h6, h7, h8⟩ := h
  obtain ⟨k1, k2, k3, k4, k5, k6, k7, k8⟩ := k
  refine ⟨by rw [k1, h1]; simp, k2.trans h2, k3.trans h3, k4.trans h4, k5.trans h5, by rw [k6, h6, List.length_append]; omega, by rw [k7, h7, List.length_append]; omega, ?_⟩
  intro w hw
  rcases k8 w hw with h | h
  · rcases h8 w h with h | h
    · exact .inl h
    · right; omega
  · exact .inr h

theorem join_form (w : WriteReq) (s : State) : ∃ m, joinWrite w s = { s with mem := m } ∧ Joined s.mem m [(w.note, w.line,
    w.bytes)] := by
  refine ⟨_, rfl, ?_, rfl, rfl, rfl, rfl, internalCount_join w s, rfl, ?_⟩
  · simp
  · intro x hx
    simp only [List.mem_append, List.mem_singleton] at hx
    rcases hx with h | rfl
    · exact .inl h
    · right; show s.mem.clock < s.mem.clock + 1; omega

theorem event_form (e : Event) (s : State) : ∃ m,
    eventPlaced e s = { s with mem := m, events := { s.events with producer := s.events.producer + 1 } } ∧
    Joined s.mem m [(.none, s.bind.line .event (1 + (s.events.producer.toNat % s.bind.capacity) / 4), fieldBytes (eventFields
        (16 * ((s.events.producer.toNat % s.bind.capacity) % 4)) e)),
      (.eventHeader (s.events.producer + 1), s.bind.line .event 0, [(0, s.events.producer + 1)])] := by
  obtain ⟨m1, e1, j1⟩ := join_form (writeAt s .event (1 + (s.events.producer.toNat % s.bind.capacity) / 4) (fieldBytes
      (eventFields (16 * ((s.events.producer.toNat % s.bind.capacity) % 4)) e))) { s with events := { s.events with producer := s.events.producer + 1 } }
  obtain ⟨m2, e2, j2⟩ :=
      join_form { writeAt s .event 0 [(0, s.events.producer + 1)] with note := .eventHeader (s.events.producer + 1) } { s with mem := m1, events := { s.events with producer := s.events.producer + 1 } }
  refine ⟨m2, ?_, j1.trans j2⟩
  unfold eventPlaced
  dsimp only
  rw [e1, e2]

theorem present_more (hs : List HostWrite) (s : State) :
    ∃ m L, hs.foldl (fun t w => presentWrite w t) s = { s with mem := m } ∧ m.accept = s.mem.accept ++ L ∧ m.waits = s.mem.waits ∧
      m.readWaits = s.mem.readWaits ∧ m.reads = s.mem.reads ∧ m.memState = s.mem.memState ∧
      L.map (fun x => (x.writer, x.line, x.bytes)) = hs.map (fun h => (.host h.tag h.arrived, h.line, h.bytes)) := by
  induction hs generalizing s with
  | nil => exact ⟨s.mem, [], rfl, by simp, rfl, rfl, rfl, rfl, rfl⟩
  | cons h hs ih =>
    obtain ⟨m, L, e, a, w, rw', r, ms, l⟩ := ih (presentWrite h s)
    refine ⟨m, { writer := .host h.tag h.arrived, line := h.line, bytes := h.bytes, speech := false, joined := s.mem.clock } ::
        L, ?_, ?_, w, rw', r, ms, ?_⟩
    · rw [List.foldl_cons, e]; rfl
    · rw [a]; show (s.mem.accept ++ _) ++ _ = _
      simp
    · simp [l]

theorem writeHeader_room {a b : Bool} {s : State} (w : s.mem.waits = []) (r : Room 1 s) : writeHeader a b s = joinWrite
    (speechHeaderReq s a b) s := by
  unfold writeHeader
  rw [mustWait_room (n := 0) w r]; rfl

theorem fitTo_same {n : Nat} {l : List Byte} (h : l.length = n) : fitTo n l = l := by
  unfold fitTo
  apply List.ext_getElem
  · simp [h]
  · intro i h1 h2
    simp [byteOf, List.getElem?_eq_getElem h2]

theorem arrivals_none {s : State} (h : steady s = true) : s.texts.arrivals = [] := by
  simp only [steady, Bool.and_eq_true, List.isEmpty_iff] at h
  exact h.1.2

theorem two_msgs {X : State} {m : AirMsg} (n : Near X) (lc : LinkClear X) (hm : msgJob m = .texts) :
    settle (emitMsg .inboxFull
        (emitMsg m X)) = pumpIdle { sent m X with link := { (sent m X).link with nextId := X.link.nextId + 1 + 1, outside := [{ id := X.link.nextId + 1, msg := .inboxFull, inFlight := false, place := 0, attempts := 0 }] } } := by
  obtain ⟨lo, q0, o0, f, hh⟩ := lc
  obtain ⟨hs', hp, ho, hq, hw, hr, ha, hl'⟩ := n
  have k1 := emitMsg_queued (m := m) hw q0 o0
  have k2 : emitMsg .inboxFull (emitMsg m X) = { X with link := { X.link with
      nextId := X.link.nextId + 1 + 1, nextPlace := X.link.nextPlace + 1
      queue := [{ id := X.link.nextId, msg := m, inFlight := false, place := X.link.nextPlace, attempts := 0 }]
      outside := [{ id := X.link.nextId + 1, msg := .inboxFull, inFlight := false, place := 0, attempts := 0 }] } } := by
    rw [k1]
    simp [emitMsg, jobWaits, hw, handMsg, queueRoom, hm, show msgJob .inboxFull = .texts from rfl, jobLimit, o0,
        Config.outsidePlaces]
  rw [k2]
  generalize hY : ({ X with link := { X.link with
      nextId := X.link.nextId + 1 + 1, nextPlace := X.link.nextPlace + 1
      queue := [{ id := X.link.nextId, msg := m, inFlight := false, place := X.link.nextPlace, attempts := 0 }]
      outside := [{ id := X.link.nextId + 1, msg := .inboxFull, inFlight := false, place := 0, attempts := 0 }] } } : State) = Y
  have sy : steady Y = true := by rw [← hY]; exact hs'
  rw [settle_steady sy]
  obtain ⟨i, e⟩ := pumpIdle_form Y
  have li : linkOpen (pumpIdle Y) = true := by rw [e, ← hY]; exact lo
  have qi : (pumpIdle Y).link.queue = [{ id := X.link.nextId, msg := m, inFlight := false, place := X.link.nextPlace, attempts := 0 }] := by rw [e, ← hY]
  have fi : (pumpIdle Y).link.opSendSig = .stopped := by rw [e, ← hY]; exact f
  have hi : (pumpIdle Y).link.hold = false := by rw [e, ← hY]; exact hh
  have pi : (pumpIdle Y).events.pending = [] ∧ (pumpIdle Y).events.owed = none := by rw [e, ← hY]; exact ⟨hp, ho⟩
  rw [finish, placeEvents_done pi.1 pi.2, sendNext_one (m := m) li qi fi hi]
  have ii : i = (pumpIdle Y).conn.inactTimer := by rw [e]
  rw [checkWake_still (by show (pumpIdle Y).sleep.wakeAfter = none; rw [e, ← hY]; exact ha),
    pumpWindow_still (by show (pumpIdle Y).sleep.level ≠ _; rw [e, ← hY]; exact hl'), closeMoment_still
        (by show (pumpIdle Y).mem.waits = []; rw [e, ← hY]; exact hw)
            (by show (pumpIdle Y).mem.readWaits = []; rw [e, ← hY]; exact hr)]
  subst hY
  unfold pumpIdle sent connIdle callsFree
  dsimp only
  split <;> rfl

theorem fold_wrote (ws : List WriteReq) : ∀ (t : State) (n : Nat), t.mem.waits = [] → Room (n + ws.length) t →
    ws.foldl (fun s w => emitWrite .texts w s) t = ws.foldl (fun u w => wrote w u) t ∧ Same t (ws.foldl
        (fun u w => wrote w u) t) ∧ Room n (ws.foldl (fun u w => wrote w u) t) := by
  induction ws with
  | nil => intro t n _ r; exact ⟨rfl, ⟨rfl, rfl, rfl, rfl, rfl, rfl⟩, r⟩
  | cons w ws ih =>
    intro t n hw r
    have r1 : Room ((n + ws.length) + 1) t := r
    have e := emit_wrote (j := .texts) (w := w) hw r1
    obtain ⟨h1, h2, h3⟩ := ih (wrote w t) n (by rw [(wrote_same w t).waits]; exact hw) (wrote_room r1)
    rw [List.foldl_cons, List.foldl_cons, e]
    exact ⟨h1, (wrote_same w t).trans h2, h3⟩

theorem payload_len (s : State) (ring : Byte) {i : Nat} (p : List Byte) (hi : i < 4) (h1 : 1 ≤ p.length) (h2 : p.length ≤ 160) :
    (payloadWrites s ring i p).length ≤ 3 := by
  unfold payloadWrites
  rw [List.length_map, ← List.countP_eq_length_filter]
  refine Nat.le_trans (List.countP_mono_left (q := fun j => decide ((64 + 160 * i) / 64 ≤ j) && decide (j ≤
      (64 + 160 * i) / 64 + 2)) ?_) ?_
  · intro x _ hx
    simp only [Bool.and_eq_true, decide_eq_true_eq] at hx ⊢
    omega
  · match i, hi with
    | 0, _ => decide
    | 1, _ => decide
    | 2, _ => decide
    | 3, _ => decide

theorem payload_bind (s t : State) (ring : Byte) (i : Nat) (p : List Byte) (h : s.bind = t.bind) :
    payloadWrites s ring i p = payloadWrites t ring i p := by
  unfold payloadWrites writeAt; rw [h]

theorem writeAt_bind (s t : State) (k : Kind) (i : Nat) (b : LineBytes) (h : s.bind = t.bind) :
    writeAt s k i b = writeAt t k i b := by
  unfold writeAt; rw [h]

theorem valid_seg {g : Segment} (hv : airValid (.textSegment g.ref g.sender g.index g.count g.payload) = true) :
    g.index.toNat < 4 ∧ 1 ≤ g.payload.length ∧ g.payload.length ≤ 160 := by
  simp only [airValid, Bool.and_eq_true, decide_eq_true_eq] at hv
  omega

/-- What taking a segment that does not complete the text does. -/
theorem take_form (c : Ctx) (g : Segment) (t : State) (w : t.mem.waits = []) (ro : Room 8 t) (hv : airValid
    (.textSegment g.ref g.sender g.index g.count g.payload) = true)
    (hc : g.count.toNat = c.count) (hg : g.index.toNat ∉ c.got) :
    let c' : Ctx := { c with got := c.got ++ [g.index.toNat], length := c.length + g.payload.length }
    let st := wrote (writeAt t .inbox (inboxSlotLine c.ring) (changedBytes (ctxFields c 1) (ctxFields c' 1)))
        ((payloadWrites t c.ring g.index.toNat g.payload).foldl (fun u w => wrote w u) t)
    let u : State := { st with texts := { st.texts with ctxs := st.texts.ctxs.map (fun x => if x.ring == c.ring then c' else x) } }
    takeSegment c g t = (if c'.got.length = c.count then finishCtx c'
        (ackMsg g.ref g.index .ok u) else ackMsg g.ref g.index .ok u) ∧
      Same t st ∧ Room 4 st := by
  obtain ⟨v1, v2, v3⟩ := valid_seg hv
  have pl := payload_len t c.ring g.payload v1 v2 v3
  intro c' st u
  have ro' : Room (5 + (payloadWrites t c.ring g.index.toNat g.payload).length) t := ro.mono (by omega)
  obtain ⟨h1, h2, h3⟩ := fold_wrote _ t 5 w ro'
  refine ⟨?_, h2.trans (wrote_same _ _), wrote_room h3⟩
  unfold takeSegment
  dsimp only
  rw [if_neg (by simp [hc]), if_neg (by simpa using hg), h1]
  unfold writeSlotHeader
  rw [emit_wrote (n := 4) (by rw [h2.waits]; exact w) h3]
  have b : ((payloadWrites t c.ring g.index.toNat g.payload).foldl (fun u w => wrote w u) t).bind = t.bind := by rw [h2.mem]
  rw [writeAt_bind _ t _ _ _ b]

theorem wrote_link (w : WriteReq) (s : State) (L : Link) : wrote w { s with link := L } = { wrote w s with link := L } := by
  unfold wrote
  by_cases b : w.bytes.isEmpty = true
  · rw [if_pos b, if_pos b]
  · rw [if_neg b, if_neg b]; rfl

/-- The one reservation is delivered. -/
theorem deliver_one {t : State} {ring : Byte} {f : Finish} (hf : f ≠ .open_) (hr :
    t.texts.resv = [{ ring := ring, finish := f }]) (q : Quiet t) (ec : EventClear t) (ro : Room 3 t)
    (aw : t.sleep.level = .awake) (cy : t.sleep.cycle = t.sleep.base) :
    deliverAll t = eventPlaced (event t .textArrived .primary Kind.inbox.code (BitVec.ofNat 16 (ring.toNat % 8))
        (resvStatus f) 0 0)
      (joinWrite (writeAt t .inbox 0 [(0,
          t.texts.inProd + 1)]) { t with texts := { t.texts with inProd := t.texts.inProd + 1, resv := [] }, sleep := { t.sleep with quiet := 0 } }) := by
  unfold deliverAll
  rw [hr]
  unfold deliver
  dsimp only
  rw [if_neg (by cases f <;> simp_all), emitWrite_room (n := 2) (by exact q.2.2) (by exact ro) (by rfl)]
  unfold deliver
  unfold raisePrimary
  rw [jobWaits_none (by exact q.2.2), if_neg (by simp)]
  have ec' : EventClear (joinWrite (writeAt t .inbox 0 [(0,
      t.texts.inProd + 1)]) { t with texts := { t.texts with inProd := t.texts.inProd + 1, resv := [] } }) :=
    ⟨ec.1, ec.2.1, ec.2.2.1, room_join (n := 2) (by exact ro)⟩
  rw [raiseNow_first (by exact q.1) (by exact q.2.1) (by exact q.2.2) ec' rfl]
  unfold primaryCause
  have : (eventPlaced (event (joinWrite (writeAt t .inbox 0 [(0,
      t.texts.inProd + 1)]) { t with texts := { t.texts with inProd := t.texts.inProd + 1, resv := [] } }) .textArrived .primary Kind.inbox.code (BitVec.ofNat 16 (ring.toNat % 8)) (resvStatus f) 0 0) (joinWrite (writeAt t .inbox 0 [(0, t.texts.inProd + 1)]) { t with texts := { t.texts with inProd := t.texts.inProd + 1, resv := [] } })).sleep.level = .awake := aw
  rw [this]
  dsimp only
  rw [notePlan_none _ _ (by rfl) (by
    unfold planFields1
    show [_, _, (0x12, le16 (BitVec.ofNat 16 t.sleep.cycle)), _, _, _, _] = [_, _, (0x12, le16 (BitVec.ofNat 16 t.sleep.base)),
        _, _, _, _]
    rw [cy]; rfl)]
  have bc : baseCycle t.sleep = { t.sleep with quiet := 0 } := by
    have : ∀ p : Sleep, p.cycle = p.base → baseCycle p = { p with quiet := 0 } := by intro p h; cases p; simp_all [baseCycle]
    exact this _ cy
  show ({ eventPlaced _ _ with sleep := baseCycle t.sleep } : State) = _
  rw [bc]; rfl

theorem complete_form {V : State} {x : Ctx} {ref index : Byte} (nV : Near V) (lV : LinkClear V) (eV : EventClear V) (rV :
    Room 4 V) (aw : V.sleep.level = .awake) (cy : V.sleep.cycle = V.sleep.base)
    (hc : V.texts.ctxs = [x]) (hr : V.texts.resv = [{ ring := x.ring, finish := .open_ }]) :
    settle (finishCtx x (ackMsg ref index .ok V)) = pumpIdle (sent (.segmentAck ref index .ok) (eventPlaced
        (event V .textArrived .primary Kind.inbox.code
        (BitVec.ofNat 16 (x.ring.toNat % 8)) 2 0 0) (joinWrite (writeAt V .inbox 0 [(0, V.texts.inProd + 1)]) {
          wrote (writeAt V .inbox (inboxSlotLine x.ring) (changedBytes (ctxFields x 1) (ctxFields x 2))) V with
            sleep := { V.sleep with quiet := 0 }
            texts := { V.texts with
              ctxs := [], resv := [], inProd := V.texts.inProd + 1
              recent := (V.texts.recent ++ [(x.sender, x.ref)]).drop (V.texts.recent.length + 1 - 4) } }))) := by
  unfold ackMsg
  have wV := nV.2.2.2.2.1
  have q := emitMsg_queued (m := .segmentAck ref index .ok) wV lV.2.1 lV.2.2.1
  rw [q]
  generalize hL : ({ V.link with nextId := _, nextPlace := _, queue := _ } : Link) = L at q
  unfold finishCtx writeSlotHeader
  rw [emit_wrote (n := 3) (by exact wV) (by exact rV), wrote_link]
  have wb : writeAt { V with link := L } .inbox (inboxSlotLine x.ring) (changedBytes (ctxFields x 1)
      (ctxFields x 2)) = writeAt V .inbox (inboxSlotLine x.ring) (changedBytes (ctxFields x 1) (ctxFields x 2)) := rfl
  rw [wb]
  have sm := wrote_same (writeAt V .inbox (inboxSlotLine x.ring) (changedBytes (ctxFields x 1) (ctxFields x 2))) V
  have rm : Room 3 (wrote (writeAt V .inbox (inboxSlotLine x.ring) (changedBytes (ctxFields x 1) (ctxFields x 2))) V) :=
      wrote_room rV
  generalize wrote (writeAt V .inbox (inboxSlotLine x.ring) (changedBytes (ctxFields x 1) (ctxFields x 2))) V = W at sm rm ⊢
  have nW := Near.same nV sm
  have lW := LinkClear.same lV sm
  have eW := EventClear.same eV sm (rm.mono (by decide))
  have tW : W.texts = V.texts := by rw [sm.mem]
  have sW : W.sleep = V.sleep := by rw [sm.mem]
  have kW : W.link = V.link := by rw [sm.mem]
  have bW : W.bind = V.bind := by rw [sm.mem]
  have fW : W.frame = V.frame := by rw [sm.mem]
  have cl : closeCtx x .complete { W with link := L } = { W with link := L, texts := { V.texts with
      ctxs := [], resv := [{ ring := x.ring, finish := .complete }]
      recent := (V.texts.recent ++ [(x.sender, x.ref)]).drop (V.texts.recent.length + 1 - 4) } } := by
    unfold closeCtx
    dsimp only
    rw [tW, hc, hr]
    simp
  rw [cl]
  rw [deliver_one (ring := x.ring) (f := .complete) (by decide) (by rfl) (by exact nW.quiet) (by exact eW) (by exact rm)
      (by show W.sleep.level = _; rw [sW]; exact aw) (by show W.sleep.cycle = W.sleep.base; rw [sW]; exact cy)]
  let Y : State := eventPlaced (event W .textArrived .primary Kind.inbox.code (BitVec.ofNat 16 (x.ring.toNat % 8)) 2 0 0)
      (joinWrite (writeAt W .inbox 0 [(0,
          V.texts.inProd + 1)]) { W with sleep := { W.sleep with quiet := 0 }, texts := { V.texts with
              ctxs := [], resv := [], inProd := V.texts.inProd + 1
              recent := (V.texts.recent ++ [(x.sender, x.ref)]).drop (V.texts.recent.length + 1 - 4) } })
  have yY : Near Y := by
    obtain ⟨h1, h2⟩ := nW
    refine ⟨?_, h2⟩
    unfold Machine.steady at h1 ⊢
    rw [tW] at h1
    exact h1
  have lY : LinkClear Y := lW
  have hY : emitMsg (.segmentAck ref index .ok) Y = { Y with link := L } := by
    rw [emitMsg_queued (by exact nW.2.2.2.2.1) (by exact lW.2.1) (by exact lW.2.2.1), ← hL, ← kW]
    rfl
  have fin := settle_msg yY lY (m := .segmentAck ref index .ok)
  rw [hY] at fin
  refine Eq.trans ?_ (fin.trans ?_)
  · rfl
  · dsimp only [Y]
    rw [sW]
    have : ∀ e : EventKind, event W e .primary Kind.inbox.code (BitVec.ofNat 16
        (x.ring.toNat % 8)) 2 0 0 = event V e .primary Kind.inbox.code (BitVec.ofNat 16 (x.ring.toNat % 8)) 2 0 0 := by
      intro e; unfold event; rw [fW]
    rw [this, writeAt_bind W V _ _ _ bW]

theorem answer_air {u : State} {q : QMsg} {o : Timer} (c : LinkClear u) (hq : q.inFlight = true) (ho : o.runs = true) :
    exec .sigSent (onAir q o u) = .next (settle (toldSent q
      { u with link := { u.link with unanswered := 0, askSendSig := none } })) := by
  obtain ⟨op, qu, ou, f, hh⟩ := c
  show runAnswer .sendSig sigSent (onAir q o u) = _
  unfold runAnswer runIf
  have k : (linkOpen (onAir q o u) && ((onAir q o u).link.op .sendSig).runs) = true := by
    have : linkOpen (onAir q o u) = linkOpen u := rfl
    rw [this, op]; exact ho
  rw [if_pos k]
  refine congrArg (fun t => Host.Outcome.next (settle t)) ?_
  unfold sigSent onAir endOp setOp
  dsimp only
  have e : List.find? (fun x : QMsg => x.inFlight) [q] = some q := by simp [hq]
  rw [e]
  dsimp only
  have l : joinOutside { u.link with queue := List.filter (fun x => x.id != q.id) [q], opSendSig := .stopped, askSendSig := none, unanswered := 0 } =
      { u.link with unanswered := 0, askSendSig := none } := by
    have : List.filter (fun x : QMsg => x.id != q.id) [q] = [] := by simp
    rw [this, joinOutside_none (by exact ou)]
    cases hu : u.link; rw [hu] at qu f; simp_all
  rw [l]

theorem calm_unanswered {u : State} (c : Calm u) (n : Nat) : Calm { u with link := { u.link with unanswered := n } } := c

theorem exec_responseTimeout_off {op : RadioOp} {s : State} (h : s.link.op op ≠ .due ∨ s.link.up = false) : exec
    (.responseTimeout op) s = .next s := by
  show runIf (linkOpen s && s.link.op op == .due) (responseTimeout op) s = _
  unfold runIf
  rw [if_neg]
  rcases h with h | h
  · simp [h]
  · simp [linkOpen, h]

theorem exec_responseTimeout {op : RadioOp} {s : State} (o : linkOpen s = true) (h : s.link.op op = .due) : exec
    (.responseTimeout op) s = .next (settle (responseTimeout op s)) := by
  show runIf (linkOpen s && s.link.op op == .due) (responseTimeout op) s = _
  unfold runIf
  rw [if_pos (by simp [o, h])]

theorem exec_recoveryTimer {s : State} (j : jobsRun s = true) (up : s.link.up = false) (h : s.link.recovery = .due) :
    exec .recoveryTimerExpiry s = .next (settle
        (linkOut .linkReset { s with link := { s.link with recovery := .running 100 } })) := by
  unfold exec execRecoveryTimerExpiry runIf
  dsimp only
  rw [if_pos (by simp [j, up, h])]; rfl

theorem exec_recoveryTimer_off {s : State} (h : s.link.recovery ≠ .due) : exec .recoveryTimerExpiry s = .next s := by
  unfold exec execRecoveryTimerExpiry runIf
  dsimp only
  rw [if_neg (by simp [h])]

theorem exec_linkReady {s : State} (j : jobsRun s = true) (up : s.link.up = false) (h : s.conn.state ≠ .noService) :
    exec .linkReady s = .next (settle (raise .link (event s .radioRecovered .none (Job.code .link) 0 0 0 0) { s with
      link := { s.link with up := true, recovery := .stopped, unanswered := 0 }, cells :=
          { s.cells with lastCarrier := none } })) := by
  unfold exec execLinkReady runIf linkReady
  dsimp only
  rw [if_pos (by simp [j, up]), if_neg (by exact h)]
  rfl

theorem exec_linkReady_up {s : State} (up : s.link.up = true) : exec .linkReady s = .next s := by
  unfold exec execLinkReady runIf
  dsimp only
  rw [if_neg (by simp [up])]

theorem exec_badFrame_none {bytes : List Byte} {s : State} (h : frameDecode bytes = none) : exec (.badFrame bytes) s = .next s := by
  show execBadFrame bytes s = _
  unfold execBadFrame; rw [h]

theorem exec_airMessageInvalid_none {p : List Byte} {s : State} (h : airDecode p = none) : exec (.airMessageInvalid p) s = .next s := by
  show execAirMessageInvalid p s = _
  unfold execAirMessageInvalid; rw [h]

theorem halfOf_le16 (v : Half) (l m : List Byte) {k : Nat} (hk : l.length = k) : halfOf (l ++ (le16 v ++ m)) k = v := by
  subst hk
  have x0 : byteOf (l ++ (le16 v ++ m)) l.length = v.extractLsb' 0 8 := by
    unfold byteOf le16; simp [List.getD_eq_getElem?_getD]
  have x1 : byteOf (l ++ (le16 v ++ m)) (l.length + 1) = v.extractLsb' 8 8 := by
    unfold byteOf le16; rw [List.getD_eq_getElem?_getD, List.getElem?_append_right (by omega)]
    simp
  unfold halfOf
  rw [x0, x1]
  ext i hi
  rw [BitVec.getElem_append]
  split
  · rename_i h8
    rw [BitVec.getElem_extractLsb', Nat.zero_add, BitVec.getLsbD_eq_getElem hi]
  · simp only [BitVec.getElem_extractLsb']
    rw [BitVec.getLsbD_eq_getElem (by omega)]
    congr 1; omega

theorem digit_back (d : List Digit) (h1 : d.length ≤ 24) (h2 : ∀ x ∈ d, x.toNat < 12) (l m : List Byte) {k : Nat} (hk :
    l.length = k) : digitsOf (l ++ (digitsBytes d ++ m)) k = some d := by
  subst hk
  have b0 : byteOf (l ++ (digitsBytes d ++ m)) l.length = BitVec.ofNat 8 d.length := by
    unfold byteOf digitsBytes
    simp [List.getD_eq_getElem?_getD]
  have n0 : (BitVec.ofNat 8 d.length).toNat = d.length := by simp; omega
  have bj : ∀ j, j < 12 → byteOf (l ++ (digitsBytes d ++ m)) (l.length + 1 + j) = digitOf d (2 * j + 1) ++ digitOf d (2 * j) := by
    intro j hj
    unfold byteOf digitsBytes
    rw [List.getD_eq_getElem?_getD, List.getElem?_append_right (by omega)]
    rw [show l.length + 1 + j - l.length = j + 1 from by omega, List.cons_append, List.getElem?_cons_succ, List.getElem?_append_left (by simpa using hj)]
    simp [hj]
  have dj : ((List.range d.length).map fun i =>
    let b := byteOf (l ++ (digitsBytes d ++ m)) (l.length + 1 + i / 2)
    if i % 2 = 0 then b.extractLsb' 0 4 else b.extractLsb' 4 4) = d := by
    apply List.ext_getElem
    · simp
    · intro i h1' h2'
      simp only [List.getElem_map, List.getElem_range]
      rw [bj (i / 2) (by omega)]
      split
      · rename_i e
        have : 2 * (i / 2) = i := by omega
        rw [this]
        have : digitOf d i = d[i] := by unfold digitOf; simp [List.getD_eq_getElem?_getD, h2']
        rw [this]
        ext q hq
        rw [BitVec.getElem_extractLsb', Nat.zero_add, BitVec.getLsbD_append, if_pos hq, BitVec.getLsbD_eq_getElem hq]
      · rename_i e
        have : 2 * (i / 2) + 1 = i := by omega
        rw [this]
        have : digitOf d i = d[i] := by unfold digitOf; simp [List.getD_eq_getElem?_getD, h2']
        rw [this]
        ext q hq
        rw [BitVec.getElem_extractLsb', BitVec.getLsbD_append, if_neg (by omega), Nat.add_sub_cancel_left,
            BitVec.getLsbD_eq_getElem hq]
        
  unfold digitsOf
  rw [b0, n0]
  dsimp only at dj ⊢
  rw [dj, if_pos]
  refine ⟨h1, ?_⟩
  rw [List.all_eq_true]; intro x hx; simpa using h2 x hx

theorem check_lt (l : List Byte) (a : Nat × Nat) (h : a.1 < 255 ∧ a.2 < 255) : 
   (l.foldl (fun a b => let x := (a.1 + b.toNat) % 255; (x, (a.2 + x) % 255)) a).1 < 255 ∧ (l.foldl (fun a b => let x := (a.1 + b.toNat) % 255; (x, (a.2 + x) % 255)) a).2 < 255 := by
  induction l generalizing a with
  | nil => exact h
  | cons b bs ih =>
    rw [List.foldl_cons]
    refine ih _ ⟨Nat.mod_lt _ (by decide), Nat.mod_lt _ (by decide)⟩

theorem exec_settleDelay {s : State} (j : jobsRun s = true) (h : s.cells.settle = true) : exec .settleDelayExpiry s = .next (settle
    (enterSample { s with cells := { s.cells with settle := false } })) := by
  unfold exec execSettleDelayExpiry runIf
  dsimp only
  rw [if_pos (by simp [j, h])]

theorem exec_measureDone {s : State} {v : Half} (o : linkOpen s = true) (h : s.link.opMeasure.runs = true) :
    exec (.measureDone v) s = .next (settle (measureOutcome
        (levelIn v) { s with link := { s.link with opMeasure := .stopped, askMeasure := none, unanswered := 0 } })) := by
  show runAnswer .measure (measureOutcome (levelIn v)) s = _
  unfold runAnswer
  rw [runIf_on _ _ (by show (linkOpen s && s.link.opMeasure.runs) = true; simp [o, h])]
  rfl

theorem exec_roundTimer {s : State} (j : jobsRun s = true) (h : s.cells.roundTimer = .due) (k : s.conn.state = .noService) :
    exec .roundTimerExpiry s = .next (settle (wantRound { s with cells := { s.cells with roundTimer := .stopped } })) := by
  unfold exec execRoundTimerExpiry runIf
  dsimp only
  rw [if_pos (by simp [j, h, k])]

theorem exec_roundTimer_off {s : State} (h : s.cells.roundTimer ≠ .due) : exec .roundTimerExpiry s = .next s := by
  unfold exec execRoundTimerExpiry runIf
  dsimp only
  rw [if_neg (by simp [h])]

theorem exec_linkReady_round {s : State} (j : jobsRun s = true) (up : s.link.up = false) (h : s.conn.state = .noService) :
    exec .linkReady s = .next (settle (raise .link (event s .radioRecovered .none (Job.code .link) 0 0 0 0) { s with
      link := { s.link with up := true, recovery := .stopped, unanswered := 0 }, cells :=
          { s.cells with lastCarrier := none, roundWaits := true } })) := by
  unfold exec execLinkReady runIf linkReady
  dsimp only
  rw [if_pos (by simp [j, up]), if_pos h]
  rfl

theorem radioRequest_on {s : State} (o : noticeOpen s = true) (h : s.conn.state = .off) (k : s.conn.shutdown = none) :
    exec (.radioRequest 1) s = .next (settle (wantRound (setConn .noService s))) := by
  show runIf (noticeOpen s) (radioRequest 1) s = _
  rw [runIf_on _ _ o]
  unfold radioRequest
  have : boolOf (1 : Byte).toNat = some true := rfl
  rw [this]
  dsimp only
  rw [if_pos (by simp [h, k])]

theorem exec_listenDone {s : State} {x : ListenOutcome} (o : linkOpen s = true) (h : s.link.opListen.runs = true) :
    exec (.listenDone x) s = .next (settle (listenOutcome
        (some x) { s with link := { s.link with opListen := .stopped, askListen := none, unanswered := 0 } })) := by
  show runAnswer .listen (listenOutcome (some x)) s = _
  unfold runAnswer
  rw [runIf_on _ _ (by show (linkOpen s && s.link.opListen.runs) = true; simp [o, h])]
  rfl

theorem exec_listenDone_none {s : State} {x : ListenOutcome} (h : s.link.opListen = .stopped) : exec (.listenDone x) s = .next s := by
  show runAnswer .listen (listenOutcome (some x)) s = _
  unfold runAnswer
  rw [runIf_off _ _ (by show (linkOpen s && s.link.opListen.runs) = false; rw [h]; simp [Timer.runs])]

theorem purpose_off {s : State} {p : Purpose} (h : s.conn.state = .noService) (k : s.conn.shutdown = none) (n :
    p ∉ s.conn.purposes) :
    addPurpose p s = { s with conn := { s.conn with purposes := s.conn.purposes ++ [p] } } := by
  unfold addPurpose
  have : (s.conn.state == .off || s.conn.shutdown.isSome || s.conn.purposes.contains p) = false := by simp [h, k, n]
  rw [this, h]; rfl

theorem rouse_awake {s : State} (a : s.sleep.level = .awake) : rouse s = s := by unfold rouse; rw [if_neg (by simp [a])]

theorem filter_notin {l : List (Fin 13)} {n : Fin 13} (h : n ∉ l) : l.filter (fun m => m != n) = l := by
  rw [List.filter_eq_self]; intro m hm
  simp only [bne_iff_ne, ne_eq]
  intro e; subst e; exact h hm

/-- One slot changed, that one is mirrored (R100). -/
theorem mirror_one {s : State} {n : Fin 13} {p : Fin 13 → Bool} (hn : p n = true) (hp : ∀ m, m ≠ n → p m = false) :
    mirrorSlots p s = mirror n s := by
  have none_ : ∀ (ls : List (Fin 13)) (t : State), n ∉ ls → ls.foldl (fun s n => if p n then mirror n s else s) t = t := by
    intro ls
    induction ls with
    | nil => intro t _; rfl
    | cons x xs ih =>
      intro t h
      simp only [List.mem_cons, not_or] at h
      rw [List.foldl_cons, hp x (fun e => h.1 e.symm), if_neg (by simp), ih t h.2]
  have one : ∀ (ls : List (Fin 13)) (t : State), ls.Nodup → n ∈ ls →
      ls.foldl (fun s n => if p n then mirror n s else s) t = mirror n t := by
    intro ls
    induction ls with
    | nil => intro t _ h; simp at h
    | cons x xs ih =>
      intro t nd h
      rw [List.nodup_cons] at nd
      rw [List.foldl_cons]
      by_cases e : x = n
      · subst e; rw [hn, if_pos rfl, none_ xs _ nd.1]
      · rw [hp x e, if_neg (by simp)]
        refine ih t nd.2 ?_
        rcases List.mem_cons.1 h with h | h
        · exact absurd h.symm e
        · exact h
  exact one _ _ (List.nodup_finRange 13) (List.mem_finRange n)

theorem differs_set {s : State} {n m : Fin 13} {f : Slot → Slot} (h : m ≠ n) : slotDiffers s (setSlot n f s) m = false := by
  have : n.val ≠ m.val := fun e => h (Fin.ext e.symm)
  simp [slotDiffers, setSlot, Vector.getElem_set, this]

/-- A slot's change outside CONNECTED, with no candidate, is mirrored and brings no more (R77, R100, R104). -/
theorem slot_event {s : State} {n : Fin 13} {f : Slot → Slot} (nc : s.conn.state ≠ .connected)
    (cand : ∀ m : Fin 13, ((setSlot n f s).cells.slots[m]).candidate = false) :
    slotEvent n s (setSlot n f s) = mirror n (setSlot n f s) := by
  have lost : levelLost n (setSlot n f s) = false := by
    unfold levelLost
    have : ((setSlot n f s).conn.state == .connected) = false := by simpa [setSlot] using nc
    rw [this]; simp
  have so : sortCandidates (setSlot n f s) = setSlot n f s := sort_still (fun m => ⟨cand m, candidate_off (by exact nc)⟩)
  unfold slotEvent
  rw [lost, so]
  simp only [Bool.and_false, Bool.false_eq_true, if_false]
  exact mirror_one (by simp) (fun m h => by simp [h, differs_set h])

theorem take_plain {s : State} {n : Fin 13} {w : CellWord} {v : Half} {k : Nat} (m : memoryAvailable s = true) (wt :
    s.mem.waits = []) (r : Room (k + 1) s)
    (ok : cellWordOk w v = true) (ph : s.cells.phase = .idle) (rn : s.cells.round = none) (nr : n ∉ s.cells.reload) (rr :
        s.cells.reloadRead ≠ some n)
    (nc : s.conn.state ≠ .connected) (cand : ∀ m : Fin 13, (s.cells.slots[m]).candidate = false) :
    takeConfig n w v s = slotWritten n (Slot.take w v s.cells.slots[n]) s := by
  unfold takeConfig
  rw [if_pos ok]
  dsimp only
  have a : abortMeasure (roundMoves (setSlot n (Slot.take w v) s)) = setSlot n (Slot.take w v) s := by
    have b : roundMoves (setSlot n (Slot.take w v) s) = setSlot n (Slot.take w v) s := by
      unfold roundMoves
      rw [if_pos]
      show (s.cells.measStray || s.cells.round.isNone) = true
      rw [rn]; simp
    rw [b]; unfold abortMeasure
    rw [if_pos (by exact ph)]
  rw [a, ite_self]
  have lr : leaveReload n (setSlot n (Slot.take w v) s) = setSlot n (Slot.take w v) s := by
    unfold leaveReload setSlot
    dsimp only
    rw [if_neg (by exact rr), filter_notin nr]
  rw [lr]
  have cf : (Slot.take w v s.cells.slots[n]).candidate = false := by
    have := cand n
    unfold Slot.take; cases w <;> exact this
  rw [slot_event nc (by exact slot_candidate cand cf)]
  exact change_slot m wt r

theorem exec_cellNotice {s : State} {n : Fin 13} {w : CellWord} {v : Half} (o : noticeOpen s = true) : exec
    (.cellConfigurationNotice n w v) s = .next (settle (cellNotice n w v s)) := runIf_on _ _ o

theorem exec_radioRequest {s : State} {v : Byte} (o : noticeOpen s = true) : exec (.radioRequest v) s = .next (settle
    (radioRequest v s)) := runIf_on _ _ o

theorem detach_near {s : State} {c : Cause} (cm : Calm s) (st : s.conn.state = .camped) :
   settle (emitMsg .detach (shuttingDown c s)) = sent .detach (shuttingDown c s) := by
  have nr : Near (shuttingDown c s) := by
    obtain ⟨h1, h2⟩ := cm.near
    refine ⟨?_, h2⟩
    unfold steady at h1 ⊢
    simp only [Bool.and_eq_true] at h1 ⊢
    exact ⟨⟨⟨⟨⟨⟨h1.1.1.1.1.1.1, rfl⟩, h1.1.1.1.1.2⟩, h1.1.1.1.2⟩, h1.1.1.2⟩, h1.1.2⟩, h1.2⟩
  rw [settle_msg nr (by exact cm.link)]
  refine pumpIdle_resting ?_
  show false = connIdle (sent .detach (shuttingDown c s))
  unfold connIdle
  show false = (s.conn.state == .connected && _ && _ && _ && _ && _)
  rw [st]; rfl

theorem connIdle_off {u : State} (c : Calm u) (h : u.conn.state ≠ .connected) : connIdle u = false := not_connected h

theorem inactTimer_off {u : State} (c : Calm u) (h : u.conn.state ≠ .connected) : u.conn.inactTimer.runs = false := by
  rw [c.rest.2.2.2.2.2.2.2.2]; exact not_connected h

theorem exec_connectGrant {s : State} (o : linkOpen s = true) : exec .connectGrant s = .next (settle (connectGrant (activity s))) :=
    runAir_on o rfl

theorem exec_connectReject {s : State} (o : linkOpen s = true) : exec .connectReject s = .next (settle (connectReject (activity s))) :=
    runAir_on o rfl

theorem roundDue_off {s : State} (c : Calm s) (h : s.conn.state ≠ .connected) : roundDue s = false := by
  unfold roundDue; rw [if_neg h, c.noRound]

/-- Leaving service with cause RADIO-LOSS, the host told, no switch. -/
theorem leave_plain {s : State} (hj : jobsRun s = true) (hm : memoryAvailable s = true) (w : s.mem.waits = []) (ro : Room 1 s)
    (h1 : s.conn.state = .connected) (pb : s.mem.pubs = [])
    (cf : callsFree s = true) (ns : s.texts.send = none) (id : s.mob.state = .idle) (cd : ∀ n : Fin 13,
        (s.cells.slots[n]).candidate = false) :
    leaveService .radioLoss true s = restartRound (leftService s) := by
  unfold leaveService
  rw [unlivePubs_none (by exact pb)]
  dsimp only
  rw [releaseAll_free (by exact cf), textLost_none (by exact ns)]
  rw [setConn_move (by exact hj) (by exact hm) (by exact w) (by exact ro) (by show s.conn.state ≠ _; simp [h1])
      (by show s.conn.state ≠ _; simp [h1]) (by decide) (by decide) (by show s.mob.state ≠ _; simp [id]) (by exact cd)]
  simp only [if_true]
  have : ∀ X : State, X.mob.state = .idle →
      (if X.mob.state = .rebuilding then endSwitch X else X) = X := by intro X h; rw [h]; rfl
  rw [this _ (by exact id)]
  rfl

theorem restart_form {s : State} (p : s.cells.phase = .idle) (r : s.cells.round = none)  :
    restartRound s = { s with cells := { s.cells with roundWaits := true, measStray := false } } := by
  unfold restartRound
  have : ({ s.cells with round := none, roundWaits := true, measStray := s.cells.phase != .idle } :
      Cells) = { s.cells with roundWaits := true, measStray := false } := by
    cases hc : s.cells; rw [hc] at p r; simp only at p r; subst p r; rfl
  rw [this]

theorem exec_servingLost {s : State} (o : linkOpen s = true) : exec .servingLost s = .next (settle (servingLost s)) := runIf_on _ _ o

theorem sendSwitch_plain {n : Fin 13} {s : State} (ss : s.link.opSendSig = .stopped) (rp : s.mob.report = false) (ns :
    s.texts.send = none) (up : s.link.up = true) (so : s.link.opSwitch = .stopped) :
    sendSwitch n s = { s with link := { s.link with
        opSwitch := .running 15, askSwitch := some (.switch (s.cells.slots[n]).carrier (s.cells.slots[n]).code) }, out := { s.out with link := s.out.link ++ [.switch (s.cells.slots[n]).carrier (s.cells.slots[n]).code] } } := by
  have e : sendSwitch n s = request .switch (.switch (s.cells.slots[n]).carrier (s.cells.slots[n]).code) s := by
    have r1 : s.link.opSendSig.runs = false := by rw [ss]; rfl
    unfold sendSwitch
    simp only [r1, rp, ns, Bool.false_and, Bool.false_eq_true, if_false]
  rw [e]
  unfold request
  rw [if_pos]
  · rfl
  · show (s.link.up && !(s.link.opSwitch).runs) = true
    rw [up, so]; rfl

/-- A reload read not yet placed is not placed once a switch has started (R88). -/
theorem pauseReload_plain {s : State} (rd : s.mem.reads = []) (w : s.mem.waits = []) (rw_ : s.mem.readWaits = []) :
    pauseReload s = { s with cells := { s.cells with reloadRead := none } } := by
  have d : ∀ p, discardReads p s = s := by
    intro p
    unfold discardReads
    rw [rd, w, rw_]
    simp only [List.map_nil, List.filter_nil]
    rw [show ({ s.mem with waits := [], reads := [], readWaits := [] } : MemPath) = s.mem from by
      cases hu : s.mem; rw [hu] at rd w rw_; simp_all]
  have pl : ∀ n, reloadPlaced n s = false := by intro n; simp [reloadPlaced, rd]
  unfold pauseReload
  split
  · unfold dropReload
    rw [d]
    simp [pl]
  · rename_i h
    rw [← h]

theorem switch_plain {s : State} {k : SwKind} {st : SwState} {n : Fin 13} (ph : s.cells.phase = .idle) (r : s.cells.round = none)
    (w : s.cells.roundWaits = false) (cd : ∀ m : Fin 13, (s.cells.slots[m]).candidate = false)
    (rp : s.mob.report = false) (ns : s.texts.send = none) (up : s.link.up = true) (ss : s.link.opSendSig = .stopped) (so :
        s.link.opSwitch = .stopped) (rd : s.mem.reads = []) (wt : s.mem.waits = []) (rwt : s.mem.readWaits = []) :
    switchStart k st n s = switchBegun k st n s := by
  unfold switchStart
  dsimp only
  rw [abort_none (by exact ph) (by exact r) (by exact w), pauseReload_plain (by exact rd) (by exact wt) (by exact rwt),
    clear_still (by exact cd)]
  have wr : ∀ t : State, t.mob.report = false → withdrawReport t = t := by intro t h; unfold withdrawReport; rw [h]; simp
  rw [wr _ (by exact rp)]
  have ts : ∀ t : State, t.texts.send = none → textSwitchStart t = { t with texts := { t.texts with switchOn := true } } := by
    intro t h; unfold textSwitchStart; dsimp only; rw [h]
  rw [ts _ (by exact ns)]
  unfold tellSwitchStart
  dsimp only
  rw [sendSwitch_plain (by exact ss) (by exact rp) (by exact ns) (by exact up) (by exact so)]
  rfl

theorem processReload_none {t : State} (h : t.cells.reload = []) : processReload t = t := by
  have c0 : (List.finRange 13).filter (fun n => t.cells.reload.contains n && slotFrozen t n) = [] := by rw [h]; simp
  unfold processReload
  dsimp only
  rw [c0]
  have f0 : t.cells.reload.filter (fun n => !([] : List (Fin 13)).contains n) = t.cells.reload := by rw [h]; rfl
  rw [f0]
  dsimp only [List.foldl_nil]
  have e : ({ t with cells := { t.cells with reload := t.cells.reload } } : State) = t := rfl
  rw [e]
  unfold reloadNext
  rw [h]
  split
  · rfl
  · have : (List.finRange 13).find? (fun n => ([] : List (Fin 13)).contains n) = none := by simp
    rw [this]

theorem runPending_none {t : State} (h : ∀ r : Fin 4, (t.calls.recs[r]).pending = none) : runPending t = t := by
  unfold runPending
  have : ∀ ls : List (Fin 4), ls.foldl (fun s r =>
    match (s.calls.recs[r]).pending with
    | some req => takeRequest r req (setRec r (fun c => { c with pending := none }) s)
    | none => s) t = t := by
    intro ls
    induction ls with
    | nil => rfl
    | cons r ls ih =>
      rw [List.foldl_cons, h r]
      exact ih
  exact this _

/-- A switch ends where no request waits, no gap is owed, no text is sent and no slot is to be reloaded. -/
theorem endSwitch_free {t : State} (p : ∀ r : Fin 4, (t.calls.recs[r]).pending = none) (g : t.calls.gapOwed = []) (ns :
    t.texts.send = none) (rl : t.cells.reload = []) (st : t.conn.state ≠ .connected) :
    endSwitch t = { t with
      calls := { t.calls with switchOn := false, gapHeld := false, gapOwed := [] }
      speech := { t.speech with switchOn := false }
      texts := { t.texts with switchOn := false }
      link := { t.link with hold := false }
      cells := { t.cells with paced := true }
      mob := { t.mob with state := .idle, confirming := false, switch := none, confirmMsg := none } } := by
  unfold endSwitch
  dsimp only
  have wg : writeGaps { t with calls := { t.calls with switchOn := false } } = { t with calls := { t.calls with switchOn := false, gapHeld := false, gapOwed := [] } } := by
    unfold writeGaps
    dsimp only
    have f0 : (List.finRange 4).filter (fun r => t.calls.gapHeld && t.calls.gapOwed.contains r) = [] := by rw [g]; simp
    rw [f0]; rfl
  rw [wg, runPending_none (by exact p)]
  have te : ∀ X : State, X.texts.send = none → textSwitchEnd X = { X with texts := { X.texts with switchOn := false } } := by
    intro X h; unfold textSwitchEnd; dsimp only; rw [h]
  rw [te _ (by exact ns)]
  rw [processReload_none (by exact rl)]
  rw [if_neg (by exact st)]

theorem leave_rebuilding {u s' : State} {n : Fin 13} (hj : jobsRun u = true) (hm : memoryAvailable u = true) (w :
    u.mem.waits = []) (ro : Room 3 u) (h1 : u.conn.state = .reestablishing) (pb : u.mem.pubs = [])
    (cf : callsFree u = true) (ns : u.texts.send = none) (cd : ∀ n : Fin 13, (u.cells.slots[n]).candidate = false) (rl :
        u.cells.reload = [])
    (pn : ∀ r : Fin 4, (u.calls.recs[r]).pending = none) (ev : EventClear u) (e1 : u.events.pending = []) (e2 :
        u.events.owed = none) (aw : u.sleep.level = .awake) (cy : u.sleep.cycle = u.sleep.base)
    (hd : u.link.hold = false) (g1 : u.calls.gapHeld = false) (g2 : u.calls.switchOn = false) (g3 : u.speech.switchOn = false)
        (g4 : u.texts.switchOn = false)
    (hs : s' = switchUnder .reestablishment .rebuilding n .stopped u) (os : u.link.opSwitch = .stopped) :
    leaveService .radioLoss false s' = restartRound (let w := eventPlaced (event u .serviceLost .primary 0 0 0 0 0) (leftService u)
        { w with
          sleep := { u.sleep with quiet := 0 }
          calls := { u.calls with gapOwed := [] }
          cells := { u.cells with paced := true }
          mob := { s'.mob with state := .idle, reestWaits := false, switch := none, confirmMsg := none } }) := by
  subst hs
  unfold leaveService
  rw [unlivePubs_none (by exact pb)]
  dsimp only
  rw [releaseAll_free (by exact cf), textLost_none (by exact ns)]
  rw [setConn_move (by exact hj) (by exact hm) (by exact w) (by exact ro.mono (by decide)) (by show u.conn.state ≠ _; simp [h1])
      (by show u.conn.state ≠ _; simp [h1]) (by decide) (by decide) (by show SwState.rebuilding ≠ .armed; decide) (by exact cd)]
  simp only [Bool.false_eq_true, if_false, if_true]
  generalize hY : connWritten .noService _ = Y
  have hZ : Y = { leftService u with mob := Y.mob, link := Y.link, calls := Y.calls, speech := Y.speech, texts := Y.texts } := by rw [← hY]; rfl
  have ym : Y.mob = { (switchUnder .reestablishment .rebuilding n .stopped u).mob with reestWaits := false } := by rw [← hY]; rfl
  have yl : Y.link = { u.link with hold := true, opSwitch := .stopped } := by rw [← hY]; rfl
  have yc : Y.calls = { u.calls with switchOn := true, gapHeld := true, gapOwed := [] } := by rw [← hY]; rfl
  have ys : Y.speech = { u.speech with switchOn := true } := by rw [← hY]; rfl
  have yt : Y.texts = { u.texts with switchOn := true } := by rw [← hY]; rfl
  have yp : Y.sleep = u.sleep := by rw [hZ]; rfl
  have yd : Y.cells = u.cells := by rw [hZ]; rfl
  have yf : Y.frame = u.frame := by rw [hZ]; rfl
  have yv : Y.events = u.events := by rw [hZ]; rfl
  have yw : Y.mem.waits = [] := by rw [hZ]; exact w
  have yn : Y.conn.state = .noService := by rw [hZ]; rfl
  have yE : EventClear Y := by
    rw [hZ]
    obtain ⟨a1, a2, a3, a4⟩ := ev
    refine ⟨a1, a2, a3, ?_⟩
    have : Room 2 (connWritten .noService u) := room_join (by exact ro)
    exact this
  clear hY
  unfold raisePrimary
  rw [jobWaits_none yw]
  simp only [Bool.false_eq_true, if_false]
  rw [raiseNow_first (by rw [yv]; exact e1) (by rw [yv]; exact e2) yw yE rfl]
  rw [primary_calm (by show Y.sleep.level = _; rw [yp]; exact aw) (by show Y.sleep.cycle = Y.sleep.base; rw [yp]; exact cy)]
  have : ∀ X : State, X.mob.state = .rebuilding → (if X.mob.state = .rebuilding then endSwitch X else X) = endSwitch X :=
      fun _ h => if_pos h
  rw [this _ (by show Y.mob.state = _; rw [ym]; rfl)]
  refine congrArg restartRound ?_
  rw [endSwitch_free (by intro r; show (Y.calls.recs[r]).pending = none; rw [yc]; exact pn r)
      (by show Y.calls.gapOwed = []; rw [yc]) (by show Y.texts.send = none; rw [yt]; exact ns)
          (by show Y.cells.reload = []; rw [yd]; exact rl) (by show Y.conn.state ≠ _; rw [yn]; simp)]
  have l : ∀ l : Link, l.hold = false → l.opSwitch = .stopped → ({ l with hold := false, opSwitch := .stopped } :
      Link) = l := by intro l h k; cases l; simp_all
  have c : ∀ l : Calls, l.gapHeld = false → l.switchOn = false → ({ l with switchOn := false, gapHeld := false, gapOwed := [] } :
      Calls) = { l with gapOwed := [] } := by intro l h k; cases l; simp_all
  have sp : ∀ l : Speech, l.switchOn = false → ({ l with switchOn := false } : Speech) = l := by intro l h; cases l; simp_all
  have tx : ∀ l : Texts, l.switchOn = false → ({ l with switchOn := false } : Texts) = l := by intro l h; cases l; simp_all
  have fin : ∀ (e : Event) (W : State) (P : Sleep) (K : Calls) (D : Cells) (M : Mob), W.link = u.link → W.speech = u.speech →
      W.texts = u.texts →
      ({ eventPlaced e { W with mob := Y.mob, link := Y.link, calls := Y.calls, speech := Y.speech, texts := Y.texts } with
        sleep := P, link := u.link, calls := K, speech := u.speech, texts := u.texts, cells := D, mob := M } : State) =
        { eventPlaced e W with sleep := P, calls := K, cells := D, mob := M } := by
    intro e W P K D M h1 h2 h3
    rw [← h1, ← h2, ← h3]
    rfl
  have ee : event Y .serviceLost .primary 0 0 0 0 0 = event u .serviceLost .primary 0 0 0 0 0 := by unfold event; rw [yf]
  have el : ({ Y.link with hold := false } : Link) = u.link := by rw [yl]; exact l _ hd os
  have ec : ({ Y.calls with switchOn := false, gapHeld := false, gapOwed := [] } :
      Calls) = { u.calls with gapOwed := [] } := by rw [yc]; exact c _ g1 g2
  have es : ({ Y.speech with switchOn := false } : Speech) = u.speech := by rw [ys]; exact sp _ g3
  have et : ({ Y.texts with switchOn := false } : Texts) = u.texts := by rw [yt]; exact tx _ g4
  have em : ({ Y.mob with state := .idle, confirming := false, switch := none, confirmMsg := none } :
      Mob) = { (switchUnder .reestablishment .rebuilding n .stopped u).mob with state := .idle, reestWaits := false, switch := none, confirmMsg := none } := by rw [ym]; rfl
  have step : (eventPlaced (event Y .serviceLost .primary 0 0 0 0 0) Y) = eventPlaced
      (event u .serviceLost .primary 0 0 0 0 0) { leftService u with mob := Y.mob, link := Y.link, calls := Y.calls, speech := Y.speech, texts := Y.texts } := by rw [ee, ← hZ]
  refine Eq.trans ?_ (fin (event u .serviceLost .primary 0 0 0 0 0)
      (leftService u) { u.sleep with quiet := 0 } { u.calls with gapOwed := [] } { u.cells with paced := true }
    { (switchUnder .reestablishment .rebuilding n .stopped u).mob with state := .idle, reestWaits := false, switch := none, confirmMsg := none } rfl rfl rfl)
  rw [← step, ← em, ← ec, ← yp, ← yd]
  have key : ∀ (W : State) (P : Sleep) (L : Link) (K : Calls) (S : Speech) (T : Texts) (D : Cells) (M : Mob), L = u.link →
      S = u.speech → T = u.texts →
      ({ W with sleep := P, link := L, calls := K, speech := S, texts := T, cells := D, mob := M } : State) =
        { W with sleep := P, link := u.link, calls := K, speech := u.speech, texts := u.texts, cells := D, mob := M } := by
    intro W P L K S T D M h1 h2 h3
    rw [h1, h2, h3]
  exact key (eventPlaced
      (event Y .serviceLost .primary 0 0 0 0 0) Y) { Y.sleep with quiet := 0 } _ _ _ _ { Y.cells with paced := true } _ el es et

theorem makePub_waits {kind : PubKind} {is : List Image} {s : State} {p : Publication} (h : s.mem.pubs = [p]) :
    makePub kind is s = ({ s with mem := { s.mem with nextPub := s.mem.nextPub + 1, pubs := [p, { number := s.mem.nextPub, kind := kind, live := true, images := is }] } }, false) := by
  unfold makePub
  dsimp only
  rw [h]
  rfl

theorem servingLost_ignored {s : State} (h : (s.conn.shutdown.isSome || switchOn s) = true) : servingLost s = s := by
  unfold servingLost
  rw [if_pos h]

theorem activity_conn (s : State) : activity s = { s with conn := (activity s).conn } := by unfold activity; split <;> rfl

theorem activity_timer {s : State} (h : s.conn.inactTimer.runs = connIdle s) : (activity s).conn.inactTimer.runs = connIdle s := by
  unfold activity
  by_cases k : connIdle s = true
  · rw [if_pos k, k]; rfl
  · rw [if_neg k]; exact h

theorem activity_conn_same (s : State) : connIdle (activity s) = connIdle s ∧ (activity s).conn.state = s.conn.state ∧
    (activity s).conn.shutdown = s.conn.shutdown ∧ (activity s).conn.shutNoDetach = s.conn.shutNoDetach := by
  unfold activity; split <;> exact ⟨rfl, rfl, rfl, rfl⟩

theorem match_free (c d : Half) (s : State) (K : Conn) : orderMatch c d { s with conn := K } = orderMatch c d s := rfl

/-- A near state of a part that was calm, whose connection is that after signalling activity. -/
theorem settle_act {s X : State} (c : Calm s) (sd : s.conn.shutdown = none) (hc : X.conn = (activity s).conn) (n : Near X) (f :
    connIdle X = connIdle (activity s)) : settle X = X := by
  rw [settle_near n]
  refine pumpIdle_resting ?_
  rw [hc, f, (activity_conn_same s).1]
  exact activity_timer c.rest.2.2.2.2.2.2.2.2

theorem near_act {s X : State} (c : Calm s) (sd : s.conn.shutdown = none) (hc : X.conn = (activity s).conn) (h1 :
    X.link.refused = s.link.refused) (h3 : X.bind = s.bind) (h4 : X.sleep.writeBack = s.sleep.writeBack)
    (h5 : X.cells = s.cells) (h6 : X.texts.arrivals = s.texts.arrivals) (h7 : X.texts.send.isSome = s.texts.send.isSome) (h8 :
        X.texts.retire = s.texts.retire) (h9 : X.texts.prod = s.texts.prod)
    (e : Ended X) : Near X := by
  refine near_of c h1 ?_ h3 h4 ?_ h6 h7 h8 h9 e
  · intro h; rw [hc, (activity_conn_same s).2.2.1, sd] at h; simp at h
  · have := c.near.round
    unfold roundStill at *
    rw [h5]
    have k : roundDue X = roundDue s := by unfold roundDue; rw [hc, (activity_conn_same s).2.1, h5]
    rw [k]; exact this

theorem emit_held {m : AirMsg} {s : State} (hj : msgJob m = .mob) (h : Near s) (o : linkOpen s = true) (q : s.link.queue = [])
    (ou : s.link.outside = []) (f : s.link.opSendSig = .stopped) (i0 : s.conn.inactTimer.runs = connIdle s) :
    settle (emitMsg m s) = sent m s := by
  obtain ⟨hs, hp, ho, hq, hw, hr, ha, hl⟩ := h
  have k := emitMsg_queued (m := m) hw q ou
  have st : steady (emitMsg m s) = true := by rw [k]; exact hs
  have one : ∀ X : State, linkOpen X = true →
      X.link.queue = [{ id := s.link.nextId, msg := m, inFlight := false, place := s.link.nextPlace, attempts := 0 }] →
          X.link.opSendSig = .stopped →
     sendNext X = { X with
      link := { X.link with
        opSendSig := .running 4, askSendSig := some (.sendSig m), queue :=
            [{ id := s.link.nextId, msg := m, inFlight := true, place := s.link.nextPlace, attempts := 0 }] }
      out := { X.out with link := X.out.link ++ [.sendSig m] } } := by
    intro X o q f
    have u : X.link.up = true := by simp [linkOpen] at o; exact o.2
    have j : jobsRun X = true := by simp [linkOpen] at o; exact o.1
    simp [sendNext, u, f, Timer.runs, j, nextMsg, q, hj, request, Link.op, setOp, linkOut, Config.responseFrames]
  rw [settle_steady st, k, pumpIdle_resting (by exact i0), finish, placeEvents_done (by exact hp) (by exact ho),
    one _ (by exact o) rfl (by exact f), checkWake_still (by exact ha),
    pumpWindow_still (by exact hl), closeMoment_still (by exact hw) (by exact hr)]
  rfl

theorem any_one {p : Fin 13 → Bool} {n : Fin 13} (h : ∀ m, m ≠ n → p m = false) : (List.finRange 13).any p = p n := by
  rw [Bool.eq_iff_iff, List.any_eq_true]
  constructor
  · rintro ⟨m, _, k⟩
    by_cases e : m = n
    · rw [← e]; exact k
    · rw [h m e] at k; simp at k
  · intro k; exact ⟨n, by simp, k⟩

theorem filter_one {p : Fin 13 → Bool} {n : Fin 13} (h : ∀ m, m ≠ n → p m = false) (k : p n = true) :
    (List.finRange 13).filter p = [n] := by
  have e : p = fun m => m == n := by
    funext m
    by_cases e : m = n
    · rw [e, k]; simp
    · rw [h m e]; simp [e]
  rw [e]
  clear h k e
  revert n
  decide

theorem detach_any {s : State} {c : Cause} (st : s.conn.state = .camped) (n : Near s) (l : LinkClear s) :
   settle (emitMsg .detach (shuttingDown c s)) = sent .detach (shuttingDown c s) := by
  have nr : Near (shuttingDown c s) := by
    obtain ⟨h1, h2⟩ := n
    refine ⟨?_, h2⟩
    unfold steady at h1 ⊢
    simp only [Bool.and_eq_true] at h1 ⊢
    exact ⟨⟨⟨⟨⟨⟨h1.1.1.1.1.1.1, rfl⟩, h1.1.1.1.1.2⟩, h1.1.1.1.2⟩, h1.1.1.2⟩, h1.1.2⟩, h1.2⟩
  rw [settle_msg nr (by exact l)]
  refine pumpIdle_resting ?_
  show false = connIdle (sent .detach (shuttingDown c s))
  unfold connIdle
  show false = (s.conn.state == .connected && _ && _ && _ && _ && _)
  rw [st]; rfl

theorem press_plain {s : State} (c : Calm s) (st : s.conn.state = .camped) (sd : s.conn.shutdown = none) (cf :
    callsFree s = true) (ns : s.texts.send = none) (rv : s.texts.resv = []) :
    settle (lineShutdown .shutdown s) = sent .detach (shuttingDown .shutdown (
        let t := eventPlaced (event s .shutdown .primary Kind.plan.code 0 0 Cause.shutdown.code 0) s
        { t with sleep := { t.sleep with quiet := 0 } })) := by
  unfold lineShutdown
  rw [raise_near (by exact c.near.quiet) (by exact c.events) rfl]
  rw [primary_calm (by exact c.awake) (by exact c.cycle)]
  let X : State := { eventPlaced (event s .shutdown .primary Kind.plan.code 0 0 Cause.shutdown.code 0) s with sleep := { s.sleep with quiet := 0 } }
  show settle (requestShutdown .shutdown X) = sent .detach (shuttingDown .shutdown X)
  have x1 : X.conn.state = .camped := st
  have x2 : X.conn.shutdown = none := sd
  have nX : Near X := c.near
  have lX : LinkClear X := c.link
  have fX : callsFree X = true := cf
  have sX : X.texts.send = none := ns
  have rX : X.texts.resv = [] := rv
  have mX : X.mob.state = .idle := c.idle
  have pX : X.mem.pubs = [] := c.pubs
  clear_value X
  rw [shutdown_plain x2 (by simp [x1]) fX sX rX mX pX, x1]
  dsimp only
  have bb : (ConnState.camped == ConnState.noService) = false := rfl
  rw [bb]
  simp only [Bool.false_eq_true, if_false]
  exact detach_any x1 nX lX

def lineFields (f a : Fin 4 → Bool) : Fields := (List.finRange 4).flatMap (fun l => [(0x20 + l.val, [flagCode (f l)]), (0x24 + l.val,
    [flagCode (a l)])])

theorem lineFields_change (l : Fin 4) (f a : Fin 4 → Bool) : changedBytes (lineFields f a) (lineFields (fun m => if m = l then false else f m) a) =
      if f l then [(0x20 + l.val, 0)] else [] := by
  have fr : List.finRange 4 = [0, 1, 2, 3] := by decide
  unfold changedBytes lineFields
  rw [fr]
  revert l
  intro l
  match l with
  | 0 => cases h : f 0 <;> simp [h, List.filter_cons, flagCode, fieldBytes, bytesAt]
  | 1 => cases h : f 1 <;> simp [h, List.filter_cons, flagCode, fieldBytes, bytesAt]
  | 2 => cases h : f 2 <;> simp [h, List.filter_cons, flagCode, fieldBytes, bytesAt]
  | 3 => cases h : f 3 <;> simp [h, List.filter_cons, flagCode, fieldBytes, bytesAt]

theorem planFields0_flag (s : State) (l : Fin 4) : changedBytes (planFields0 s)
    (planFields0 { s with sleep := setLine l (fun x => { x with flag := false }) s.sleep }) =
    if (s.sleep.lines[l]).flag then [(0x20 + l.val, 0)] else [] := by
  have e1 : planFields0 s = lineFields (fun l => (s.sleep.lines[l]).flag) (fun l => (s.sleep.lines[l]).active) := rfl
  have e2 : planFields0 { s with sleep := setLine l (fun x => { x with flag := false }) s.sleep } = lineFields
      (fun m => if m = l then false else (s.sleep.lines[m]).flag) (fun l => (s.sleep.lines[l]).active) := by
    have : planFields0 { s with sleep := setLine l (fun x => { x with flag := false }) s.sleep } = lineFields (fun m =>
        ((s.sleep.lines.set l { s.sleep.lines[l] with flag := false })[m]).flag) (fun m =>
            ((s.sleep.lines.set l { s.sleep.lines[l] with flag := false })[m]).active) := rfl
    rw [this]
    congr 1
    · funext m
      by_cases h : m = l
      · subst h; simp
      · have h' : l.val ≠ m.val := fun q => h (Fin.ext q.symm)
        simp [h, h']
    · funext m
      by_cases h : m = l
      · subst h; simp
      · have h' : l.val ≠ m.val := fun q => h (Fin.ext q.symm)
        simp [h']
  rw [e1, e2]
  exact lineFields_change l _ _

end Sys2Proof.Machine
end

