-- ==== Sys2Proof/Laws/MemoryParts.lean ====
section
/-! SUPPORT. The reset, the memory path and the binding, part by part. -/

namespace Sys2Proof.Machine

set_option maxHeartbeats 4000000

variable {b s t : State}

theorem runAir_next (c : Instr) (f : State → State) (s : State) : ∃ t, runAir c f s = .next t := ⟨_, rfl⟩

theorem runAnswer_next (op : RadioOp) (f : State → State) (s : State) : ∃ t, runAnswer op f s = .next t := ⟨_, rfl⟩

theorem tame_safe (h : Tame b s) (hb : b.teardown.length ≤ 6) : Safe s := ⟨h.limits, by rw [h.2.2.2.1.2.1]; exact hb⟩

theorem exec_safe {c : Instr} (h : Safe s) (e : exec c s = .next t) : Safe t := by
  have h2 := h.2
  rcases exec_tame h e with k | ⟨x, rfl⟩ | rfl | ⟨x, rfl⟩ | rfl | ⟨p, rfl⟩ | ⟨d, rfl⟩ | rfl | rfl
  · exact tame_safe k h2
  · simp only [exec, execPowerOnReset, Host.Outcome.next.injEq] at e; subst e; exact ⟨powerOn_limits x, Nat.zero_le _⟩
  · simp only [exec, execWarmReset] at e
    split at e <;> (simp only [Host.Outcome.next.injEq] at e; subst e)
    · exact warmReset_safe h
    · exact h
  · exact execWarmResetEnd_safe h e
  · simp only [exec, execResetNRelease, Host.Outcome.next.injEq] at e; subst e; exact h
  · simp only [exec, execFrameStrobe] at e
    split at e
    · simp only [Host.Outcome.next.injEq] at e; subst e; exact h
    · simp only [runIf, Host.Outcome.next.injEq] at e; subst e
      split
      · exact tame_safe (settle_tame (frameStrobe_tame h.1)) h2
      · exact h
  · simp only [exec, execArbiterGrant, runIf, Host.Outcome.next.injEq] at e; subst e
    split
    · exact tame_safe (settle_tame (grant_limits h.1).tame) (by simpa using h2)
    · exact h
  · simp only [exec, execSelfRefreshEnter, runIf, Host.Outcome.next.injEq] at e; subst e
    split
    · exact tame_safe (settle_tame (enterDeep_limits h.1).tame) (by simpa [enterDeep] using h2)
    · exact h
  · simp only [exec, execExitDelayExpiry, runIf, Host.Outcome.next.injEq] at e; subst e
    split
    · refine tame_safe (settle_tame (exitDone_limits h.1).tame) ?_
      have : (exitDone s).teardown = s.teardown := by
        unfold exitDone; dsimp only; split <;> simp
      rw [this]; exact h2
    · exact h

theorem placeTeardown_queue_frame (s : State) : (placeTeardown s).pending = s.pending ∧ (placeTeardown s).frame = s.frame := by
  unfold placeTeardown
  have : ∀ (ws : List WriteReq) (u : State), (ws.foldl (fun s w => joinWrite w s) u).pending = u.pending ∧ (ws.foldl
      (fun s w => joinWrite w s) u).frame = u.frame := by
    intro ws
    induction ws with
    | nil => intro u; exact ⟨rfl, rfl⟩
    | cons w ws ih => intro u; rw [List.foldl_cons]; exact ⟨(ih _).1, (ih _).2⟩
  exact ⟨(this _ _).1, (this _ _).2⟩

theorem beginWarmReset_queue_frame (s : State) : (beginWarmReset s).pending = s.pending ∧ (beginWarmReset s).frame = s.frame := by
  unfold beginWarmReset; simp

theorem warmReset_queue_frame (s : State) : (warmReset s).pending = s.pending ∧ (warmReset s).frame = s.frame := by
  unfold warmReset; dsimp only; split
  · rw [(placeTeardown_queue_frame _).1, (placeTeardown_queue_frame _).2]; exact beginWarmReset_queue_frame s
  · exact beginWarmReset_queue_frame s

variable {b s t : State}

variable {b s t : State}

theorem joinWrites_frame (ws : List WriteReq) (u : State) : (ws.foldl (fun s w => joinWrite w s) u).out = u.out ∧
  ∃ c a, (ws.foldl (fun s w => joinWrite w s) u) = { u with mem := { u.mem with clock := c, accept := a } } := by
  induction ws generalizing u with
  | nil => exact ⟨rfl, u.mem.clock, u.mem.accept, rfl⟩
  | cons w ws ih =>
    rw [List.foldl_cons]
    obtain ⟨h, c, a, e⟩ := ih (joinWrite w u)
    exact ⟨h, c, a, e⟩

theorem strobe_exec {p : BitVec 4} (ho : portOpen s = true) : exec (.frameStrobe p) s = .next (settle (frameStrobe p s)) := by
  have pi : s.resetPhase = .idle := by simp [portOpen] at ho; exact ho.2
  have rn : s.resetN = false := by simp [portOpen] at ho; exact ho.1
  show execFrameStrobe p s = _
  unfold execFrameStrobe
  rw [if_neg (by simp [pi]), runIf_on _ _ (by simp [rn])]

variable {b s t : State}

theorem memPort_of_tame (h : Tame s t) (hn : s.mem.memState ≠ .active) : t.out.mem = s.out.mem ∨ (s.mem.memState = .selfRefresh ∧
    t.out.mem = s.out.mem ++ [.selfRefreshExit]) := by
  rcases h.2.2.2.1.2.2 with k | k
  · exact .inl k.2
  · exact .inr ⟨k.1, k.2.2⟩

theorem joinWrites_memPort (ws : List WriteReq) (u : State) : (ws.foldl (fun s w => joinWrite w s) u).out = u.out := by
  induction ws generalizing u with
  | nil => rfl
  | cons w ws ih => rw [List.foldl_cons, ih]; rfl

theorem beginWarmReset_memPort (s : State) : (beginWarmReset s).out.mem = s.out.mem ∨ (s.mem.memState = .selfRefresh ∧
    (beginWarmReset s).out.mem = s.out.mem ++ [.selfRefreshExit]) := by
  by_cases c : s.mem.memState = .selfRefresh
  · right; exact ⟨c, by simp [beginWarmReset, resetJobs, discardReads, presentExit, serveReads, memOut, c]⟩
  · left; simp [beginWarmReset, resetJobs, discardReads, presentExit, serveReads, memOut, c]

theorem runAir_linkClosed {c : Instr} {f : State → State} {s t : State} (hl : linkOpen s = false) (e : runAir c f s = .next t) : t = s := by
  unfold runAir at e; rw [runIf_off _ _ (by simp [hl])] at e; simpa using e.symm

theorem runAnswer_linkClosed {o : RadioOp} {f : State → State} {s t : State} (hl : linkOpen s = false) (e : runAnswer o f s = .next t) :
    t = s := by
  unfold runAnswer at e; rw [runIf_off _ _ (by simp [hl])] at e; simpa using e.symm

theorem runIf_closed {o : Bool} {f : State → State} {s t : State} (hl : o = false) (e : runIf o f s = .next t) : t = s := by
  rw [runIf_off _ _ hl] at e; simpa using e.symm

theorem runRead_none {r : Option ReadEntry} {d : List Byte} {er : Bool} {g : Completed → State → State} {s t : State} (hl : r = none)
    (e : runRead r d er g s = .next t) : t = s := by
  subst hl; unfold runRead at e; simp at e; exact e.symm

theorem received_untouched {c : Instr} {s t : State} (hl : linkOpen s = false) (hj : jobsRun s = false) (e : received c s = .next t) :
    t = s := by
  cases c with
  | measureDone => exact runAnswer_linkClosed hl e
  | listenDone => exact runAnswer_linkClosed hl e
  | sigSent => exact runAnswer_linkClosed hl e
  | switchDone => exact runAnswer_linkClosed hl e
  | speechIn => exact runIf_closed hl e
  | servingLost => exact runIf_closed hl e
  | linkReady => exact runIf_closed (by simp [hj]) e
  | connectGrant => exact runAir_linkClosed hl e
  | connectReject => exact runAir_linkClosed hl e
  | reestablishAccept => exact runAir_linkClosed hl e
  | areaAccept => exact runAir_linkClosed hl e
  | areaReject => exact runAir_linkClosed hl e
  | offer => exact runAir_linkClosed hl e
  | ringing => exact runAir_linkClosed hl e
  | connect => exact runAir_linkClosed hl e
  | holdAccept => exact runAir_linkClosed hl e
  | resumeAccept => exact runAir_linkClosed hl e
  | release => exact runAir_linkClosed hl e
  | releaseDone => exact runAir_linkClosed hl e
  | textSegment => exact runAir_linkClosed hl e
  | transferOrder => exact runAir_linkClosed hl e
  | segmentAck r i a =>
    change execSegmentAck r i a s = .next t at e
    unfold execSegmentAck at e; split at e
    · exact runAir_linkClosed hl e
    · simpa using e.symm
  | _ => change Host.Outcome.next s = .next t at e; simpa using e.symm

theorem resting_of_untouched {s : State} (h : Untouched s) : Resting s := by
  obtain ⟨x, p, n, ph, f, a, k, l, rfl⟩ := h
  exact ⟨rfl, rfl, rfl, .inl rfl, rfl, rfl, rfl, by simp [Sleep.initial], rfl⟩

theorem lines_set (l : Fin 4) (g : WakeLine → WakeLine) (v : Vector WakeLine 4) :
    setLine l g { Sleep.initial with lines := v } = { Sleep.initial with lines := v.set l (g v[l]) } := rfl

theorem sampleLine_untouched {s : State} (pin : Bool) (l : Fin 4) (h : Untouched s) : Untouched (sampleLine l pin s) := by
  obtain ⟨x, p, n, ph, f, a, k, v, rfl⟩ := h
  have J : ∀ u : State, u.bind.state = .unbound → jobsRun u = false := by intro u h; simp [jobsRun, h]
  have np : ∀ j o (u : State), u.bind.state = .unbound → notePlan j o u = u := by intro j o u h; simp [notePlan, J u h]
  have C : ∀ (c : Prop) [Decidable c] (u w : State), Untouched u → Untouched w → Untouched (if c then u else w) := by
    intro c _ u w h k; split <;> assumption
  unfold sampleLine
  dsimp only
  refine C _ _ _ ?_ (C _ _ _ ?_ (C _ _ _ ?_ (C _ _ _ ?_ ?_)))
  · unfold invertLine; dsimp only
    rw [np _ _ _ (by split <;> rfl)]
    refine C _ _ _ ?_ ?_
    · exact ⟨x, p, n, ph, f, a, k, _, rfl⟩
    · exact ⟨x, p, n, ph, f, a, k, _, rfl⟩
  · exact ⟨x, p, n, ph, f, a, k, _, rfl⟩
  · exact ⟨x, p, n, ph, f, a, k, _, rfl⟩
  · unfold activeEdge; dsimp only; rw [J _ rfl]; exact ⟨x, p, n, ph, f, a, k, _, rfl⟩
  · unfold inactiveEdge; dsimp only
    rw [np _ _ _ (by split <;> rfl)]
    refine C _ _ _ ?_ ?_
    · exact ⟨x, p, n, ph, f, a, k, _, rfl⟩
    · exact ⟨x, p, n, ph, f, a, k, _, rfl⟩

theorem sampleLines_untouched {s : State} (p : BitVec 4) (h : Untouched s) : Untouched (sampleLines p s) := by
  unfold sampleLines
  generalize List.finRange 4 = ls
  induction ls generalizing s with
  | nil => exact h
  | cons l ls ih => rw [List.foldl_cons]; exact ih (sampleLine_untouched _ _ h)

theorem frameStrobe_untouched {s : State} (p : BitVec 4) (h : Untouched s) : Untouched (frameStrobe p s) := by
  have k : Untouched (tickTimers { s with frame := s.frame + 1 }) := by
    obtain ⟨x, q, n, ph, f, a, k, v, rfl⟩ := h
    refine ⟨x, q, n, ph, f + 1, a, k, v, ?_⟩
    have e1 : (Cells.initial) = { Cells.initial with roundTimer := Cells.initial.roundTimer.tick } := rfl
    have e2 : tickMob Mob.initial = Mob.initial := by simp [tickMob, Mob.initial, Timer.tick]
    have e3 : ({ Calls.initial with recs := Calls.initial.recs.map (fun r => { r with timer := r.timer.tick }) } :
        Calls) = Calls.initial := by
      simp [Calls.initial, CallRec.initial, Timer.tick]
    have e4 : tickTexts Texts.initial = Texts.initial := rfl
    have e5 : tickLink Link.initial = Link.initial := rfl
    have e6 : tickConn Conn.initial = Conn.initial := rfl
    unfold tickTimers
    simp only [State.powerOn, e2, e3, e4, e5, e6]
    rfl
  have k2 := sampleLines_untouched p k
  unfold frameStrobe
  dsimp only
  have J : jobsRun (sampleLines p (tickTimers { s with frame := s.frame + 1 })) = false := by
    obtain ⟨x, q, n, ph, f, a, k, v, e⟩ := k2
    rw [e]; simp [jobsRun, State.powerOn, Binder.initial]
  rw [J]; exact k2

theorem warmReset_untouched {s : State} (h : Untouched s) : Untouched (warmReset s) := by
  obtain ⟨x, q, n, ph, f, a, k, v, rfl⟩ := h
  have b : beginWarmReset { State.powerOn x with
      pending := q, resetN := n, resetPhase := ph, frame := f, out := { answers := a, link := k, mem := [] }
      sleep := { Sleep.initial with lines := v } } = { State.powerOn x with
      pending := q, resetN := true, resetPhase := .draining, frame := f, out := { answers := a, link := k, mem := [] } } := by
    simp [beginWarmReset, teardownWrites, filtering, errorAnswers, State.powerOn, Binder.initial, MemPath.initial, Port.initial,
        Link.initial, resetJobs, discardReads, presentExit, serveReads]
  unfold warmReset
  rw [b]
  have d : drained { State.powerOn x with
      pending := q, resetN := true, resetPhase := .draining, frame := f, out :=
          { answers := a, link := k, mem := [] } } = true := rfl
  dsimp only
  rw [d, if_pos rfl]
  exact ⟨x, q, true, .teardown, f, a, k, Sleep.initial.lines, rfl⟩

theorem noteOccupancy_frame (m : MemPath) : (noteOccupancy m).stage = m.stage ∧ (noteOccupancy m).pubs = m.pubs := by
  unfold noteOccupancy setMode; dsimp only
  repeat' split
  all_goals exact ⟨rfl, rfl⟩

theorem stage_take (line : Line) (bytes : LineBytes) (o : Origin) (sp : Bool) (m : MemPath) :
    (takeBytes line bytes o sp m).stage = m.stage := by
  unfold takeBytes; dsimp only
  cases entryOf m line with
  | some x => rfl
  | none => dsimp only; rw [(noteOccupancy_frame _).1]

theorem queueLaw_take (line : Line) (bytes : LineBytes) (o : Origin) (sp : Bool) (m : MemPath) (h : QueueLaw m.queue)
    (ht : queueTakes m line = true) : QueueLaw (takeBytes line bytes o sp m).queue := by
  unfold takeBytes; dsimp only
  cases he : entryOf m line with
  | some x =>
    refine ⟨by simpa using h.1, ?_⟩
    have : (m.queue.map (fun e => if e.line == line then { e with bytes := bytesOver (bytes.map (fun p => (p.1, (p.2, o)))) e.bytes, speech := if sp then some (e.speech.getD (m.clock + 1)) else e.speech } else e)).map (·.line) = m.queue.map (·.line) := by
      rw [List.map_map]; apply List.map_congr_left; intro e _; simp only [Function.comp]; split <;> rfl
    show List.Nodup (List.map _ (List.map _ _))
    rw [this]; exact h.2
  | none =>
    dsimp only
    rw [noteOccupancy_queue]
    refine ⟨?_, ?_⟩
    · have : m.queue.length < Config.queueEntries := by simpa [queueTakes, he] using ht
      simpa using this
    · simp only [List.map_append, List.map_cons, List.map_nil]
      rw [List.nodup_append]
      refine ⟨h.2, by simp, ?_⟩
      intro a ha b hb e
      simp only [List.mem_singleton] at hb
      subst e hb
      obtain ⟨y, hy, hl⟩ := List.mem_map.1 ha
      have := List.find?_eq_none.1 he y hy
      simp [hl] at this

theorem stage_find_erase (st : List StageLine) (l : StageLine) (hn : (st.map (·.line)).Nodup) (hm : l ∈ st) (line : Line) :
    (st.erase l).find? (fun x => x.line == line) = if line = l.line then none else st.find? (fun x => x.line == line) := by
  induction st with
  | nil => simp at hm
  | cons x st ih =>
    simp only [List.map_cons, List.nodup_cons] at hn
    by_cases hx : x = l
    · subst hx
      rw [List.erase_cons_head]
      by_cases hl : line = x.line
      · subst hl
        rw [if_pos rfl, List.find?_eq_none]
        intro y hy e
        exact hn.1 (List.mem_map.2 ⟨y, hy, by simpa using e⟩)
      · rw [if_neg hl, List.find?_cons]
        have : (x.line == line) = false := by simpa using fun e => hl e.symm
        rw [this]
    · have hm' : l ∈ st := by simpa [Ne.symm hx] using hm
      rw [List.erase_cons_tail (by simpa using hx), List.find?_cons, List.find?_cons, ih hn.2 hm']
      have xl : x.line ≠ l.line := fun e => hn.1 (List.mem_map.2 ⟨l, hm', e.symm⟩)
      by_cases hl : line = l.line
      · subst hl
        have : (x.line == l.line) = false := by simpa using xl
        simp [this]
      · simp [hl]

theorem processorActivity_awake {s : State} (h : s.sleep.level = .awake) : processorActivity s = s := by simp [processorActivity, h]

theorem settle_processorActivity {u : State} (l : u.sleep.level = .awake) (h : Resting u) : settle
    (processorActivity u) = u := by rw [processorActivity_awake l, settle_resting h]

/-- With nothing composed, the read due is the first in flight of the line (R38). -/
theorem due_found {p : ReadFor → Bool} {line : Line} {m : MemPath} {r : ReadEntry}
    (hc : ∀ x ∈ m.reads, p x.for_ = true → x.line = line → x.status.isComposed = false)
    (h : m.reads.find? (fun x => (p x.for_ && x.line == line) && x.status == .inFlight) = some r) : dueRead p line m = some r := by
  have n : m.reads.find? (fun x => (p x.for_ && x.line == line) && x.status.isComposed) = none := by
    rw [List.find?_eq_none]
    intro x hx
    simp only [Bool.and_eq_true, beq_iff_eq, not_and, Bool.not_eq_true]
    exact fun a => hc x hx a.1 a.2
  unfold dueRead
  dsimp only
  rw [n, Option.none_or, h]

theorem due_none {p : ReadFor → Bool} {line : Line} {m : MemPath} (h : m.reads = []) : dueRead p line m = none := by
  simp [dueRead, h]

theorem takeCompleted_found {data : List Byte} {err : Bool} {s : State} {r : ReadEntry}
    (hs : r.status = .inFlight)
    (hn : nextOfLine s.mem (.read r.arrived r.line) = true) :
    completeRead r data err s = some ((composeLine (if err then [] else fitTo 64 data) (upperLayers s.mem r.line),
        err && !r.silent, r.discard),
      { s with mem := { s.mem with reads := s.mem.reads.erase r, inFlight := s.mem.inFlight.erase (.read r.arrived r.line) } }) := by
  unfold completeRead
  dsimp only
  rw [hs]
  simp only [hn, if_true]

theorem emitRead_bind (j : Job) (f : ReadFor) (l : Line) (u : State) : (emitRead j f l u).bind = u.bind := by
  unfold emitRead placeRead; split <;> (try split) <;> rfl

theorem fold_lines (g : Nat → ReadFor) (k : Nat → Kind × Nat) (l : List Nat) (t : State) (b : Binder) (h : t.bind = b) :
    l.foldl (fun s j => emitRead .binder (g j) (s.bind.line (k j).1 (k j).2) s) t =
      (l.map (fun j => (g j, b.line (k j).1 (k j).2))).foldl (fun s f => emitRead .binder f.1 f.2 s) t := by
  induction l generalizing t with
  | nil => rfl
  | cons x xs ih =>
    rw [List.foldl_cons, List.map_cons, List.foldl_cons, ih _ (by rw [emitRead_bind, h]), h]

theorem readGroup_reads (s : State) (hr : Resting s) (hh : ∀ x ∈ s.mem.reads, x.isHost = true) :
    let n := min 4 (19 - s.bind.nextRegion)
    Resting (readGroup s) ∧ (readGroup s).bind = { s.bind with nextRegion := s.bind.nextRegion + n } ∧
      ((readGroup s).mem.reads.filter (fun x => !x.isHost)).map (fun x => (x.for_, x.line)) =
        (List.range n).map (fun j => (.region (s.bind.nextRegion + j),
              s.bind.line (regionRead (s.bind.nextRegion + j)).1 (regionRead (s.bind.nextRegion + j)).2)) := by
  intro n
  let b : Binder := { s.bind with nextRegion := s.bind.nextRegion + n }
  have bc : readGroup s = ((List.range n).map (fun j => ((ReadFor.region (s.bind.nextRegion + j)),
              b.line (regionRead (s.bind.nextRegion + j)).1 (regionRead (s.bind.nextRegion + j)).2))).foldl
                  (fun s f => emitRead .binder f.1 f.2 s) { s with bind := b } := by
    rw [← fold_lines (fun j => .region (s.bind.nextRegion + j)) (fun j => regionRead (s.bind.nextRegion + j)) _ _ b rfl]
    rfl
  have base : (s.mem.reads.filter (fun r => !r.isHost)) = [] := by
    rw [List.filter_eq_nil_iff]; intro r hr'; simp [hh r hr']
  have J := emitReads_joined ((List.range n).map (fun j => ((ReadFor.region (s.bind.nextRegion + j)),
              b.line (regionRead (s.bind.nextRegion + j)).1 (regionRead
                  (s.bind.nextRegion + j)).2))) .binder { s with bind := b } hr.2.2.2.2.1 hr.2.2.2.2.2.1 []
                      (by show List.map _ (s.mem.reads.filter (fun r => !r.isHost)) = []; rw [base]; rfl)
      (by simp [n]) (by intro f hf; rw [List.mem_map] at hf; obtain ⟨j, _, rfl⟩ := hf; rfl)
      (fun t => Resting { t with mem := { t.mem with readWaits := [] } } ∧ t.bind = b) (fun u f l h => h) ⟨by
        obtain ⟨h1, h2, h3, h4, h5, h6, h7⟩ := hr
        exact ⟨h1, h2, h3, h4, h5, rfl, h7⟩, rfl⟩
  rw [← bc] at J
  obtain ⟨j1, j2, j3, j4⟩ := J
  have R : Resting (readGroup s) := by
    obtain ⟨h1, h2, h3, h4, h5, h6, h7⟩ := j3
    exact ⟨h1, h2, h3, h4, h5, j1, h7⟩
  refine ⟨R, j4, ?_⟩
  have L : ∀ k i, b.line k i = s.bind.line k i := by
    intro k i; unfold Binder.line Binder.firstLine; rfl
  rw [j2]; simp only [List.nil_append]
  apply List.map_congr_left
  intro j _; rw [L]

/-- What takeValues may change. -/
def ValuesFrame (s t : State) : Prop :=
  t.mem = s.mem ∧ t.port = s.port ∧ t.link = s.link ∧ t.out = s.out ∧
  (∃ h, t.bind = { s.bind with heldEvents := h }) ∧ t.events = s.events ∧ t.texts = s.texts ∧ t.speech = s.speech ∧
      t.calls = s.calls ∧ t.frame = s.frame ∧
  (∃ a b c, t.conn = { s.conn with inactTime := a, campThr := b, lossThr := c }) ∧
  (∃ sl, t.cells = { s.cells with slots := sl }) ∧
  t.sleep.level = s.sleep.level ∧ t.sleep.writeBack = s.sleep.writeBack ∧ t.sleep.wakeAfter = s.sleep.wakeAfter

theorem valuesFrame_refl (s : State) : ValuesFrame s s := ⟨rfl, rfl, rfl, rfl, ⟨_, rfl⟩, rfl, rfl, rfl, rfl, rfl, ⟨_, _, _, rfl⟩, ⟨_, rfl⟩,
    rfl, rfl, rfl⟩

theorem holdEvent_valuesFrame {s t : State} {e : Event} (h : ValuesFrame s t) : ValuesFrame s (holdEvent e t) := by
  obtain ⟨h1, h2, h3, h4, ⟨hh, h5⟩, h6⟩ := h
  refine ⟨h1, h2, h3, h4, ⟨hh ++ [e], ?_⟩, h6⟩
  unfold holdEvent; dsimp only; rw [h5]

theorem sleep_valuesFrame {s t : State} {p : Sleep} (h : ValuesFrame s t) (l : p.level = t.sleep.level) (w : p.writeBack = t.sleep.writeBack)
    (a : p.wakeAfter = t.sleep.wakeAfter) : ValuesFrame s { t with sleep := p } := by
  obtain ⟨h1, h2, h3, h4, h5, h6, h7, h8, h9, h10, h11, h12, h13, h14, h15⟩ := h
  exact ⟨h1, h2, h3, h4, h5, h6, h7, h8, h9, h10, h11, h12, l.trans h13, w.trans h14, a.trans h15⟩

theorem takeParam_valuesFrame {s t : State} {c : Instr} (h : ValuesFrame s t) : ValuesFrame s (takeParam c t) := by
  unfold takeParam
  split
  · rename_i q v
    split
    · rename_i p e
      have : p.level = t.sleep.level ∧ p.writeBack = t.sleep.writeBack ∧ p.wakeAfter = t.sleep.wakeAfter := by
        unfold takeSleepParam at e
        cases q <;> simp only [Option.map_eq_some_iff] at e <;> obtain ⟨x, _, rfl⟩ := e
        · exact ⟨rfl, rfl, rfl⟩
        · unfold takeCeiling; split <;> exact ⟨rfl, rfl, rfl⟩
        all_goals exact ⟨rfl, rfl, rfl⟩
      exact sleep_valuesFrame h this.1 this.2.1 this.2.2
    · exact holdEvent_valuesFrame h
  · rename_i q v
    split
    · rename_i p e
      obtain ⟨h1, h2, h3, h4, h5, h6, h7, h8, h9, h10, ⟨a, b, c, h11⟩, h12⟩ := h
      refine ⟨h1, h2, h3, h4, h5, h6, h7, h8, h9, h10, ?_, h12⟩
      show ∃ a b c, p = { s.conn with inactTime := a, campThr := b, lossThr := c }
      unfold takeConnParam at e
      cases q <;> simp only [Option.map_eq_some_iff] at e <;> obtain ⟨x, _, rfl⟩ := e <;> rw [h11] <;> exact ⟨_, _, _, rfl⟩
    · exact holdEvent_valuesFrame h
  · rename_i q v
    split
    · exact h
    · exact holdEvent_valuesFrame h
  · exact h

theorem takePlanLine_valuesFrame {s t : State} {ws : List Watched} {l : List Byte} (h : ValuesFrame s t) : ValuesFrame s (takePlanLine ws l t) := by
  unfold takePlanLine
  induction ws generalizing t with
  | nil => exact h
  | cons w ws ih => rw [List.foldl_cons]; exact ih (takeParam_valuesFrame h)

theorem takeSlotWord_valuesFrame {s t : State} {n : Fin 13} {w : CellWord} {v : Half} (h : ValuesFrame s t) : ValuesFrame s (takeSlotWord n w v t) := by
  unfold takeSlotWord
  split
  · obtain ⟨h1, h2, h3, h4, h5, h6, h7, h8, h9, h10, h11, ⟨sl, h12⟩, h13⟩ := h
    refine ⟨h1, h2, h3, h4, h5, h6, h7, h8, h9, h10, h11, ?_, h13⟩
    show ∃ sl, ({ t.cells with slots := _ } : Cells) = _
    rw [h12]; exact ⟨_, rfl⟩
  · exact holdEvent_valuesFrame h

theorem takeSlots_valuesFrame {s t : State} {ls : List (Fin 13)} {g : Fin 13 → List Byte} (h : ValuesFrame s t) : ValuesFrame s (ls.foldl
    (fun t n => takeSlotConfig n (g n) t) t) := by
  induction ls generalizing t with
  | nil => exact h
  | cons w ws ih => rw [List.foldl_cons]; exact ih (takeSlotWord_valuesFrame (takeSlotWord_valuesFrame (takeSlotWord_valuesFrame (takeSlotWord_valuesFrame h))))

theorem fold_writes (ws : List WriteReq) (t : State) (hne : ∀ w ∈ ws, w.bytes.isEmpty = false) (hw : t.mem.waits = []) :
    let u := ws.foldl (fun t w => emitWrite .binder w t) t
    ∃ m, u = { t with mem := m } ∧ m.readWaits = t.mem.readWaits ∧
      m.accept.map (fun w => (w.line, w.bytes)) = t.mem.accept.map (fun w => (w.line, w.bytes)) ++
            (ws.take (16 - internalCount t.mem)).map (fun w : WriteReq => (w.line, w.bytes)) ∧
          m.waits.flatMap (·.acts) = (ws.drop (16 - internalCount t.mem)).map Act.write := by
  intro u
  have wait : ∀ (ws : List WriteReq) (t : State) (w0 : Wait), (∀ w ∈ ws, w.bytes.isEmpty = false) → t.mem.waits = [w0] →
      w0.job = .binder →
      ∃ m, ws.foldl (fun t w => emitWrite .binder w t) t = { t with mem := m } ∧ m.readWaits = t.mem.readWaits ∧
          m.accept = t.mem.accept ∧
        m.waits.flatMap (·.acts) = w0.acts ++ ws.map Act.write := by
    intro ws
    induction ws with
    | nil => intro t w0 _ h _; exact ⟨t.mem, rfl, rfl, rfl, by simp [h]⟩
    | cons x xs ih =>
      intro t w0 hn h hj
      have e : emitWrite .binder x t = { t with mem := { t.mem with waits := [{ w0 with acts := w0.acts ++ [.write x] }] } } := by
        unfold emitWrite
        rw [if_neg (by simp [hn x (by simp)]), if_pos (by simp [mustWait, h])]
        simp [waitActs, addWait, h, hj]
      obtain ⟨m, m1, m2, m3, m4⟩ :=
          ih { t with mem := { t.mem with waits := [{ w0 with acts := w0.acts ++ [.write x] }] } } { w0 with acts := w0.acts ++ [.write x] } (fun w hw => hn w (by simp [hw])) rfl hj
      rw [List.foldl_cons, e]
      exact ⟨m, m1, m2, m3, by rw [m4]; simp⟩
  revert u
  induction ws generalizing t with
  | nil => intro u; exact ⟨t.mem, rfl, rfl, by simp, by simp [hw]⟩
  | cons x xs ih =>
    intro u
    have hx := hne x (by simp)
    by_cases r : internalCount t.mem < 16
    · have e : emitWrite .binder x t = joinWrite x t := emitWrite_room hw (n := 0) (show internalCount t.mem + 1 ≤ 16 by omega) hx
      have ic := internalCount_join x t
      obtain ⟨m, m1, m2, m3, m4⟩ := ih (joinWrite x t) (fun w hw => hne w (by simp [hw])) hw
      refine ⟨m, ?_, m2, ?_, ?_⟩
      · show List.foldl _ _ _ = _
        rw [List.foldl_cons, e, m1]; rfl
      · rw [m3, ic]
        have : 16 - internalCount t.mem = (16 - (internalCount t.mem + 1)) + 1 := by omega
        rw [this, List.take_succ_cons, List.map_cons]
        show List.map _ (t.mem.accept ++ _) ++ _ = _
        simp
      · rw [m4, ic]
        have : 16 - internalCount t.mem = (16 - (internalCount t.mem + 1)) + 1 := by omega
        rw [this, List.drop_succ_cons]
    · have z : 16 - internalCount t.mem = 0 := by omega
      have e : emitWrite .binder x t = { t with mem := { t.mem with waits := [{ job := .binder, since := t.mem.clock, acts := [.write x] }] } } := by
        unfold emitWrite
        have mw : mustWait t = true := by
          have : Config.internalWrites ≤ internalCount t.mem := by show 16 ≤ _; omega
          simp [mustWait, this]
        rw [if_neg (by simp [hx]), if_pos mw]
        simp [waitActs, addWait, hw]
      obtain ⟨m, m1, m2, m3, m4⟩ :=
          wait xs { t with mem := { t.mem with waits := [{ job := .binder, since := t.mem.clock, acts := [.write x] }] } } _
              (fun w hw => hne w (by simp [hw])) rfl rfl
      refine ⟨m, ?_, m2, ?_, ?_⟩
      · show List.foldl _ _ _ = _
        rw [List.foldl_cons, e, m1]
      · rw [m3, z]; simp
      · rw [m4, z]; simp

theorem bindingWrites_nonempty (t : State) : ∀ w ∈ bindingWrites t, w.bytes.isEmpty = false := by
  intro w hw
  unfold bindingWrites initialWrites at hw
  rw [List.mem_append] at hw
  rcases hw with hw | hw
  · rw [List.mem_flatMap] at hw
    obtain ⟨k, _, hw⟩ := hw
    rw [List.mem_filterMap] at hw
    obtain ⟨i, _, hw⟩ := hw
    unfold initialWrite at hw
    dsimp only at hw
    split at hw
    · simp at hw
    · rename_i h
      simp only [Option.some.injEq] at hw
      subst hw
      exact Bool.eq_false_iff.mpr h
  · rw [List.mem_singleton] at hw; subst hw; rfl

theorem closeMoment_same (s : State) : ∃ k, closeMoment s = { s with mem := { s.mem with clock := k } } := by
  unfold closeMoment tickClock; split
  · exact ⟨_, rfl⟩
  · exact ⟨s.mem.clock, rfl⟩

theorem insertBy_perm {α} (b : α → α → Bool) (x : α) (l : List α) : (insertBy b x l).Perm (x :: l) := by
  induction l with
  | nil => exact .refl _
  | cons y ys ih =>
    unfold insertBy
    split
    · exact .refl _
    · exact (ih.cons y).trans (List.Perm.swap x y ys)

theorem sortBy_perm {α} (b : α → α → Bool) (l : List α) : (sortBy b l).Perm l := by
  induction l with
  | nil => exact .refl _
  | cons y ys ih => exact (insertBy_perm b y _).trans (ih.cons y)

theorem sortBy_sorted {α} (f : α → Nat) (l : List α) : (sortBy (fun x y => decide (f x ≤ f y)) l).Pairwise
    (fun x y => f x ≤ f y) := by
  have ins : ∀ (x : α) (l : List α), l.Pairwise (fun x y => f x ≤ f y) → (insertBy (fun x y => decide (f x ≤ f y)) x l).Pairwise
      (fun x y => f x ≤ f y) := by
    intro x l
    induction l with
    | nil => intro _; simp [insertBy]
    | cons y ys ih =>
      intro h
      have hy := List.pairwise_cons.mp h
      unfold insertBy
      split
      · rename_i c
        simp only [decide_eq_true_eq] at c
        refine List.pairwise_cons.mpr ⟨?_, h⟩
        intro z hz
        rcases List.mem_cons.mp hz with rfl | hz
        · exact c
        · exact le_trans c (hy.1 z hz)
      · rename_i c
        simp only [decide_eq_true_eq] at c
        refine List.pairwise_cons.mpr ⟨?_, ih hy.2⟩
        intro z hz
        rcases List.mem_cons.mp ((insertBy_perm _ x ys).mem_iff.mp hz) with rfl | hz
        · omega
        · exact hy.1 z hz
  induction l with
  | nil => simp [sortBy]
  | cons y ys ih => exact ins _ _ ih

theorem bytesAt_pos (b : List Byte) (o : Nat) : ∀ p ∈ bytesAt o b, o ≤ p.1 ∧ p.1 < o + b.length := by
  induction b generalizing o with
  | nil => simp [bytesAt]
  | cons x xs ih =>
    intro p hp
    simp only [bytesAt, List.mem_cons] at hp
    rcases hp with rfl | hp
    · simp
    · have := ih _ p hp; simp only [List.length_cons]; omega

theorem fieldBytes_pos (f : Fields) : ∀ p ∈ fieldBytes f, ∃ q ∈ f, q.1 ≤ p.1 ∧ p.1 < q.1 + q.2.length := by
  intro p hp
  unfold fieldBytes at hp
  rw [List.mem_flatMap] at hp
  obtain ⟨q, hq, h⟩ := hp
  exact ⟨q, hq, bytesAt_pos _ _ p h⟩

theorem digitsBytes_len (d : List Digit) : (digitsBytes d).length = 13 := by simp [digitsBytes]

theorem sampleBytes_len (x : Option Sample) : (sampleBytes x).length = 4 := by cases x <;> rfl

theorem initial_owned (s : State) (k : Kind) (i : Nat) (hi : i < k.lines s.bind.capacity) : ∀ p ∈ fieldBytes
    (initialFields s k i), partOwned k i p.1 = true := by
  intro p hp
  obtain ⟨q, hq, h1, h2⟩ := fieldBytes_pos _ p hp
  unfold initialFields at hq
  cases k with
  | plan =>
    have : i = 0 ∨ i = 1 := by simp [Kind.lines] at hi; omega
    rcases this with rfl | rfl
    · simp only [if_true, planFields0, List.mem_flatMap, List.mem_cons, List.not_mem_nil, or_false] at hq
      obtain ⟨l, _, rfl | rfl⟩ := hq <;> simp only [List.length_cons, List.length_nil] at h1 h2 <;> simp [partOwned] <;> omega
    · simp only [planFields1, one_ne_zero, if_false, List.mem_cons, List.not_mem_nil, or_false] at hq
      rcases hq with rfl | rfl | rfl | rfl | rfl | rfl | rfl <;> simp only [List.length_cons, List.length_nil, le16,
          le32] at h1 h2 <;> simp [partOwned] <;> omega
  | cell =>
    simp only at hq
    split at hq
    · rename_i hh
      simp only [slotFields, List.mem_append, List.mem_cons, List.not_mem_nil, or_false, List.mem_map] at hq
      have i0 : i ≠ 0 := by omega
      rcases hq with (rfl | rfl | rfl | rfl | rfl | rfl | rfl) | ⟨j, hj, rfl⟩ <;> simp only [List.length_cons, List.length_nil,
          le16, le32, sampleBytes_len] at h1 h2 <;> simp [partOwned, i0]
      all_goals first | omega | (rw [List.mem_range] at hj; omega)
    · have i0 : i = 0 := by simp [Kind.lines] at hi; omega
      simp only [cellHeaderFields, List.mem_cons, List.not_mem_nil, or_false] at hq
      rcases hq with rfl | rfl <;> simp only [List.length_cons, List.length_nil, le16] at h1 h2 <;> simp [partOwned, i0] <;> omega
  | speech | outbox | inbox | event =>
    simp only at hq
    split at hq
    · rename_i i0
      simp only [List.mem_cons, List.not_mem_nil, or_false] at hq
      first
      | (rcases hq with rfl | rfl | rfl <;> simp only [List.length_cons, List.length_nil] at h1 h2 <;> simp [partOwned,
          i0] <;> omega)
      | (rcases hq with rfl | rfl <;> simp only [List.length_cons, List.length_nil] at h1 h2 <;> simp [partOwned, i0] <;> omega)
      | (subst hq; simp only [List.length_cons, List.length_nil] at h1 h2; simp [partOwned, i0]; omega)
    · simp at hq
  | _ => simp at hq

theorem over_owned (s : State) (k : Kind) (i : Nat) (hi : i < k.lines s.bind.capacity) :
    (∀ p ∈ bytesOver (fieldBytes (initialFields s k i)) (partZeros k i), partOwned k i p.1 = true) ∧
    ∀ pos < 64, partOwned k i pos = true → bytesCover (bytesOver (fieldBytes (initialFields s k i))
        (partZeros k i)) pos = true := by
  constructor
  · intro p hp
    unfold bytesOver at hp
    rw [List.mem_append, List.mem_filter] at hp
    rcases hp with hp | ⟨hp, _⟩
    · exact initial_owned s k i hi p hp
    · unfold partZeros at hp
      rw [List.mem_map] at hp
      obtain ⟨q, hq, rfl⟩ := hp
      exact (List.mem_filter.mp hq).2
  · intro pos hp ho
    unfold bytesCover bytesOver
    rw [List.any_append, Bool.or_eq_true]
    by_cases c : bytesCover (fieldBytes (initialFields s k i)) pos = true
    · exact .inl c
    · right
      rw [List.any_eq_true]
      refine ⟨(pos, 0), ?_, by simp⟩
      rw [List.mem_filter]
      refine ⟨?_, by simpa using c⟩
      unfold partZeros
      rw [List.mem_map]
      exact ⟨pos, by simp [hp, ho], rfl⟩

end Sys2Proof.Machine
end

