-- ==== Sys2Proof/Laws/State.lean ====
section
/-! SUPPORT. What each named update of State leaves, field by field. -/

namespace Sys2Proof.Machine

variable (s : State)

/-! ## answer -/

@[simp] theorem answer_get_pending (a : Answer) : (answer a s).pending = s.pending := rfl
@[simp] theorem answer_get_resetN (a : Answer) : (answer a s).resetN = s.resetN := rfl
@[simp] theorem answer_get_resetPhase (a : Answer) : (answer a s).resetPhase = s.resetPhase := rfl
@[simp] theorem answer_get_teardown (a : Answer) : (answer a s).teardown = s.teardown := rfl
@[simp] theorem answer_get_frame (a : Answer) : (answer a s).frame = s.frame := rfl
@[simp] theorem answer_get_bind (a : Answer) : (answer a s).bind = s.bind := rfl
@[simp] theorem answer_get_port (a : Answer) : (answer a s).port = s.port := rfl
@[simp] theorem answer_get_mem (a : Answer) : (answer a s).mem = s.mem := rfl
@[simp] theorem answer_get_link (a : Answer) : (answer a s).link = s.link := rfl
@[simp] theorem answer_get_conn (a : Answer) : (answer a s).conn = s.conn := rfl
@[simp] theorem answer_get_cells (a : Answer) : (answer a s).cells = s.cells := rfl
@[simp] theorem answer_get_mob (a : Answer) : (answer a s).mob = s.mob := rfl
@[simp] theorem answer_get_calls (a : Answer) : (answer a s).calls = s.calls := rfl
@[simp] theorem answer_get_speech (a : Answer) : (answer a s).speech = s.speech := rfl
@[simp] theorem answer_get_texts (a : Answer) : (answer a s).texts = s.texts := rfl
@[simp] theorem answer_get_sleep (a : Answer) : (answer a s).sleep = s.sleep := rfl
@[simp] theorem answer_get_events (a : Answer) : (answer a s).events = s.events := rfl
@[simp] theorem answer_get_out_answers (a : Answer) : (answer a s).out.answers = s.out.answers ++ [a] := rfl
@[simp] theorem answer_get_out_link (a : Answer) : (answer a s).out.link = s.out.link := rfl
@[simp] theorem answer_get_out_mem (a : Answer) : (answer a s).out.mem = s.out.mem := rfl

/-! ## memOut -/

@[simp] theorem memOut_get_pending (a : MemAccess) : (memOut a s).pending = s.pending := rfl
@[simp] theorem memOut_get_resetN (a : MemAccess) : (memOut a s).resetN = s.resetN := rfl
@[simp] theorem memOut_get_resetPhase (a : MemAccess) : (memOut a s).resetPhase = s.resetPhase := rfl
@[simp] theorem memOut_get_teardown (a : MemAccess) : (memOut a s).teardown = s.teardown := rfl
@[simp] theorem memOut_get_frame (a : MemAccess) : (memOut a s).frame = s.frame := rfl
@[simp] theorem memOut_get_bind (a : MemAccess) : (memOut a s).bind = s.bind := rfl
@[simp] theorem memOut_get_port (a : MemAccess) : (memOut a s).port = s.port := rfl
@[simp] theorem memOut_get_mem (a : MemAccess) : (memOut a s).mem = s.mem := rfl
@[simp] theorem memOut_get_link (a : MemAccess) : (memOut a s).link = s.link := rfl
@[simp] theorem memOut_get_conn (a : MemAccess) : (memOut a s).conn = s.conn := rfl
@[simp] theorem memOut_get_cells (a : MemAccess) : (memOut a s).cells = s.cells := rfl
@[simp] theorem memOut_get_mob (a : MemAccess) : (memOut a s).mob = s.mob := rfl
@[simp] theorem memOut_get_calls (a : MemAccess) : (memOut a s).calls = s.calls := rfl
@[simp] theorem memOut_get_speech (a : MemAccess) : (memOut a s).speech = s.speech := rfl
@[simp] theorem memOut_get_texts (a : MemAccess) : (memOut a s).texts = s.texts := rfl
@[simp] theorem memOut_get_sleep (a : MemAccess) : (memOut a s).sleep = s.sleep := rfl
@[simp] theorem memOut_get_events (a : MemAccess) : (memOut a s).events = s.events := rfl
@[simp] theorem memOut_get_out_mem (a : MemAccess) : (memOut a s).out.mem = s.out.mem ++ [a] := rfl
@[simp] theorem memOut_get_out_link (a : MemAccess) : (memOut a s).out.link = s.out.link := rfl
@[simp] theorem memOut_get_out_answers (a : MemAccess) : (memOut a s).out.answers = s.out.answers := rfl

/-! ## linkOut -/

@[simp] theorem linkOut_get_pending (f : LinkFrame) : (linkOut f s).pending = s.pending := rfl
@[simp] theorem linkOut_get_resetN (f : LinkFrame) : (linkOut f s).resetN = s.resetN := rfl
@[simp] theorem linkOut_get_resetPhase (f : LinkFrame) : (linkOut f s).resetPhase = s.resetPhase := rfl
@[simp] theorem linkOut_get_teardown (f : LinkFrame) : (linkOut f s).teardown = s.teardown := rfl
@[simp] theorem linkOut_get_frame (f : LinkFrame) : (linkOut f s).frame = s.frame := rfl
@[simp] theorem linkOut_get_bind (f : LinkFrame) : (linkOut f s).bind = s.bind := rfl
@[simp] theorem linkOut_get_port (f : LinkFrame) : (linkOut f s).port = s.port := rfl
@[simp] theorem linkOut_get_mem (f : LinkFrame) : (linkOut f s).mem = s.mem := rfl
@[simp] theorem linkOut_get_link (f : LinkFrame) : (linkOut f s).link = s.link := rfl
@[simp] theorem linkOut_get_conn (f : LinkFrame) : (linkOut f s).conn = s.conn := rfl
@[simp] theorem linkOut_get_cells (f : LinkFrame) : (linkOut f s).cells = s.cells := rfl
@[simp] theorem linkOut_get_mob (f : LinkFrame) : (linkOut f s).mob = s.mob := rfl
@[simp] theorem linkOut_get_calls (f : LinkFrame) : (linkOut f s).calls = s.calls := rfl
@[simp] theorem linkOut_get_speech (f : LinkFrame) : (linkOut f s).speech = s.speech := rfl
@[simp] theorem linkOut_get_texts (f : LinkFrame) : (linkOut f s).texts = s.texts := rfl
@[simp] theorem linkOut_get_sleep (f : LinkFrame) : (linkOut f s).sleep = s.sleep := rfl
@[simp] theorem linkOut_get_events (f : LinkFrame) : (linkOut f s).events = s.events := rfl
@[simp] theorem linkOut_get_out_link (f : LinkFrame) : (linkOut f s).out.link = s.out.link ++ [f] := rfl
@[simp] theorem linkOut_get_out_mem (f : LinkFrame) : (linkOut f s).out.mem = s.out.mem := rfl
@[simp] theorem linkOut_get_out_answers (f : LinkFrame) : (linkOut f s).out.answers = s.out.answers := rfl

/-! ## joinWrite -/

@[simp] theorem joinWrite_get_pending (w : WriteReq) : (joinWrite w s).pending = s.pending := rfl
@[simp] theorem joinWrite_get_resetN (w : WriteReq) : (joinWrite w s).resetN = s.resetN := rfl
@[simp] theorem joinWrite_get_resetPhase (w : WriteReq) : (joinWrite w s).resetPhase = s.resetPhase := rfl
@[simp] theorem joinWrite_get_teardown (w : WriteReq) : (joinWrite w s).teardown = s.teardown := rfl
@[simp] theorem joinWrite_get_out (w : WriteReq) : (joinWrite w s).out = s.out := rfl
@[simp] theorem joinWrite_get_frame (w : WriteReq) : (joinWrite w s).frame = s.frame := rfl
@[simp] theorem joinWrite_get_bind (w : WriteReq) : (joinWrite w s).bind = s.bind := rfl
@[simp] theorem joinWrite_get_port (w : WriteReq) : (joinWrite w s).port = s.port := rfl
@[simp] theorem joinWrite_get_link (w : WriteReq) : (joinWrite w s).link = s.link := rfl
@[simp] theorem joinWrite_get_conn (w : WriteReq) : (joinWrite w s).conn = s.conn := rfl
@[simp] theorem joinWrite_get_cells (w : WriteReq) : (joinWrite w s).cells = s.cells := rfl
@[simp] theorem joinWrite_get_mob (w : WriteReq) : (joinWrite w s).mob = s.mob := rfl
@[simp] theorem joinWrite_get_calls (w : WriteReq) : (joinWrite w s).calls = s.calls := rfl
@[simp] theorem joinWrite_get_speech (w : WriteReq) : (joinWrite w s).speech = s.speech := rfl
@[simp] theorem joinWrite_get_texts (w : WriteReq) : (joinWrite w s).texts = s.texts := rfl
@[simp] theorem joinWrite_get_sleep (w : WriteReq) : (joinWrite w s).sleep = s.sleep := rfl
@[simp] theorem joinWrite_get_events (w : WriteReq) : (joinWrite w s).events = s.events := rfl
@[simp] theorem joinWrite_get_mem_queue (w : WriteReq) : (joinWrite w s).mem.queue = s.mem.queue := rfl
@[simp] theorem joinWrite_get_mem_stage (w : WriteReq) : (joinWrite w s).mem.stage = s.mem.stage := rfl
@[simp] theorem joinWrite_get_mem_reads (w : WriteReq) : (joinWrite w s).mem.reads = s.mem.reads := rfl
@[simp] theorem joinWrite_get_mem_waits (w : WriteReq) : (joinWrite w s).mem.waits = s.mem.waits := rfl
@[simp] theorem joinWrite_get_mem_pubs (w : WriteReq) : (joinWrite w s).mem.pubs = s.mem.pubs := rfl
@[simp] theorem joinWrite_get_mem_memState (w : WriteReq) : (joinWrite w s).mem.memState = s.mem.memState := rfl
@[simp] theorem joinWrite_get_mem_inFlight (w : WriteReq) : (joinWrite w s).mem.inFlight = s.mem.inFlight := rfl

/-! ## setCount -/

@[simp] theorem setCount_get_pending (n : Nat) : (setCount n s).pending = s.pending := rfl
@[simp] theorem setCount_get_resetN (n : Nat) : (setCount n s).resetN = s.resetN := rfl
@[simp] theorem setCount_get_resetPhase (n : Nat) : (setCount n s).resetPhase = s.resetPhase := rfl
@[simp] theorem setCount_get_teardown (n : Nat) : (setCount n s).teardown = s.teardown := rfl
@[simp] theorem setCount_get_out (n : Nat) : (setCount n s).out = s.out := rfl
@[simp] theorem setCount_get_frame (n : Nat) : (setCount n s).frame = s.frame := rfl
@[simp] theorem setCount_get_bind (n : Nat) : (setCount n s).bind = s.bind := rfl
@[simp] theorem setCount_get_port (n : Nat) : (setCount n s).port = s.port := rfl
@[simp] theorem setCount_get_link (n : Nat) : (setCount n s).link = s.link := rfl
@[simp] theorem setCount_get_conn (n : Nat) : (setCount n s).conn = s.conn := rfl
@[simp] theorem setCount_get_cells (n : Nat) : (setCount n s).cells = s.cells := rfl
@[simp] theorem setCount_get_mob (n : Nat) : (setCount n s).mob = s.mob := rfl
@[simp] theorem setCount_get_calls (n : Nat) : (setCount n s).calls = s.calls := rfl
@[simp] theorem setCount_get_speech (n : Nat) : (setCount n s).speech = s.speech := rfl
@[simp] theorem setCount_get_texts (n : Nat) : (setCount n s).texts = s.texts := rfl
@[simp] theorem setCount_get_sleep (n : Nat) : (setCount n s).sleep = s.sleep := rfl
@[simp] theorem setCount_get_events (n : Nat) : (setCount n s).events = s.events := rfl
@[simp] theorem setCount_get_mem_count (n : Nat) : (setCount n s).mem.count = n := rfl
@[simp] theorem setCount_get_mem_queue (n : Nat) : (setCount n s).mem.queue = s.mem.queue := rfl
@[simp] theorem setCount_get_mem_mode (n : Nat) : (setCount n s).mem.mode = s.mem.mode := rfl

/-! ## withRec -/

@[simp] theorem withRec_get_pending (r : Fin 4) (c : CallRec) : (withRec r c s).pending = s.pending := rfl
@[simp] theorem withRec_get_resetN (r : Fin 4) (c : CallRec) : (withRec r c s).resetN = s.resetN := rfl
@[simp] theorem withRec_get_resetPhase (r : Fin 4) (c : CallRec) : (withRec r c s).resetPhase = s.resetPhase := rfl
@[simp] theorem withRec_get_teardown (r : Fin 4) (c : CallRec) : (withRec r c s).teardown = s.teardown := rfl
@[simp] theorem withRec_get_out (r : Fin 4) (c : CallRec) : (withRec r c s).out = s.out := rfl
@[simp] theorem withRec_get_frame (r : Fin 4) (c : CallRec) : (withRec r c s).frame = s.frame := rfl
@[simp] theorem withRec_get_bind (r : Fin 4) (c : CallRec) : (withRec r c s).bind = s.bind := rfl
@[simp] theorem withRec_get_port (r : Fin 4) (c : CallRec) : (withRec r c s).port = s.port := rfl
@[simp] theorem withRec_get_mem (r : Fin 4) (c : CallRec) : (withRec r c s).mem = s.mem := rfl
@[simp] theorem withRec_get_link (r : Fin 4) (c : CallRec) : (withRec r c s).link = s.link := rfl
@[simp] theorem withRec_get_conn (r : Fin 4) (c : CallRec) : (withRec r c s).conn = s.conn := rfl
@[simp] theorem withRec_get_cells (r : Fin 4) (c : CallRec) : (withRec r c s).cells = s.cells := rfl
@[simp] theorem withRec_get_mob (r : Fin 4) (c : CallRec) : (withRec r c s).mob = s.mob := rfl
@[simp] theorem withRec_get_speech (r : Fin 4) (c : CallRec) : (withRec r c s).speech = s.speech := rfl
@[simp] theorem withRec_get_texts (r : Fin 4) (c : CallRec) : (withRec r c s).texts = s.texts := rfl
@[simp] theorem withRec_get_sleep (r : Fin 4) (c : CallRec) : (withRec r c s).sleep = s.sleep := rfl
@[simp] theorem withRec_get_events (r : Fin 4) (c : CallRec) : (withRec r c s).events = s.events := rfl
@[simp] theorem withRec_get_calls_lastRef (r : Fin 4) (c : CallRec) : (withRec r c s).calls.lastRef = s.calls.lastRef := rfl

/-! ## withDesc -/

@[simp] theorem withDesc_get_pending (n : Fin 16) (d : Desc) : (withDesc n d s).pending = s.pending := rfl
@[simp] theorem withDesc_get_resetN (n : Fin 16) (d : Desc) : (withDesc n d s).resetN = s.resetN := rfl
@[simp] theorem withDesc_get_resetPhase (n : Fin 16) (d : Desc) : (withDesc n d s).resetPhase = s.resetPhase := rfl
@[simp] theorem withDesc_get_teardown (n : Fin 16) (d : Desc) : (withDesc n d s).teardown = s.teardown := rfl
@[simp] theorem withDesc_get_out (n : Fin 16) (d : Desc) : (withDesc n d s).out = s.out := rfl
@[simp] theorem withDesc_get_frame (n : Fin 16) (d : Desc) : (withDesc n d s).frame = s.frame := rfl
@[simp] theorem withDesc_get_bind (n : Fin 16) (d : Desc) : (withDesc n d s).bind = s.bind := rfl
@[simp] theorem withDesc_get_port (n : Fin 16) (d : Desc) : (withDesc n d s).port = s.port := rfl
@[simp] theorem withDesc_get_mem (n : Fin 16) (d : Desc) : (withDesc n d s).mem = s.mem := rfl
@[simp] theorem withDesc_get_link (n : Fin 16) (d : Desc) : (withDesc n d s).link = s.link := rfl
@[simp] theorem withDesc_get_conn (n : Fin 16) (d : Desc) : (withDesc n d s).conn = s.conn := rfl
@[simp] theorem withDesc_get_cells (n : Fin 16) (d : Desc) : (withDesc n d s).cells = s.cells := rfl
@[simp] theorem withDesc_get_mob (n : Fin 16) (d : Desc) : (withDesc n d s).mob = s.mob := rfl
@[simp] theorem withDesc_get_calls (n : Fin 16) (d : Desc) : (withDesc n d s).calls = s.calls := rfl
@[simp] theorem withDesc_get_speech (n : Fin 16) (d : Desc) : (withDesc n d s).speech = s.speech := rfl
@[simp] theorem withDesc_get_sleep (n : Fin 16) (d : Desc) : (withDesc n d s).sleep = s.sleep := rfl
@[simp] theorem withDesc_get_events (n : Fin 16) (d : Desc) : (withDesc n d s).events = s.events := rfl
@[simp] theorem withDesc_get_texts_send (n : Fin 16) (d : Desc) : (withDesc n d s).texts.send = s.texts.send := rfl
@[simp] theorem withDesc_get_texts_prod (n : Fin 16) (d : Desc) : (withDesc n d s).texts.prod = s.texts.prod := rfl
@[simp] theorem withDesc_get_texts_retire (n : Fin 16) (d : Desc) : (withDesc n d s).texts.retire = s.texts.retire := rfl

/-! ## slotWritten -/

@[simp] theorem slotWritten_get_pending (n : Fin 13) (x : Slot) : (slotWritten n x s).pending = s.pending := rfl
@[simp] theorem slotWritten_get_resetN (n : Fin 13) (x : Slot) : (slotWritten n x s).resetN = s.resetN := rfl
@[simp] theorem slotWritten_get_resetPhase (n : Fin 13) (x : Slot) : (slotWritten n x s).resetPhase = s.resetPhase := rfl
@[simp] theorem slotWritten_get_teardown (n : Fin 13) (x : Slot) : (slotWritten n x s).teardown = s.teardown := rfl
@[simp] theorem slotWritten_get_out (n : Fin 13) (x : Slot) : (slotWritten n x s).out = s.out := rfl
@[simp] theorem slotWritten_get_frame (n : Fin 13) (x : Slot) : (slotWritten n x s).frame = s.frame := rfl
@[simp] theorem slotWritten_get_bind (n : Fin 13) (x : Slot) : (slotWritten n x s).bind = s.bind := rfl
@[simp] theorem slotWritten_get_port (n : Fin 13) (x : Slot) : (slotWritten n x s).port = s.port := rfl
@[simp] theorem slotWritten_get_link (n : Fin 13) (x : Slot) : (slotWritten n x s).link = s.link := rfl
@[simp] theorem slotWritten_get_conn (n : Fin 13) (x : Slot) : (slotWritten n x s).conn = s.conn := rfl
@[simp] theorem slotWritten_get_mob (n : Fin 13) (x : Slot) : (slotWritten n x s).mob = s.mob := rfl
@[simp] theorem slotWritten_get_calls (n : Fin 13) (x : Slot) : (slotWritten n x s).calls = s.calls := rfl
@[simp] theorem slotWritten_get_speech (n : Fin 13) (x : Slot) : (slotWritten n x s).speech = s.speech := rfl
@[simp] theorem slotWritten_get_texts (n : Fin 13) (x : Slot) : (slotWritten n x s).texts = s.texts := rfl
@[simp] theorem slotWritten_get_sleep (n : Fin 13) (x : Slot) : (slotWritten n x s).sleep = s.sleep := rfl
@[simp] theorem slotWritten_get_events (n : Fin 13) (x : Slot) : (slotWritten n x s).events = s.events := rfl
@[simp] theorem slotWritten_get_cells_serving (n : Fin 13) (x : Slot) : (slotWritten n x s).cells.serving = s.cells.serving := rfl
@[simp] theorem slotWritten_get_cells_epoch (n : Fin 13) (x : Slot) : (slotWritten n x s).cells.epoch = s.cells.epoch := rfl

/-! ## connWritten -/

@[simp] theorem connWritten_get_pending (st : ConnState) : (connWritten st s).pending = s.pending := rfl
@[simp] theorem connWritten_get_resetN (st : ConnState) : (connWritten st s).resetN = s.resetN := rfl
@[simp] theorem connWritten_get_resetPhase (st : ConnState) : (connWritten st s).resetPhase = s.resetPhase := rfl
@[simp] theorem connWritten_get_teardown (st : ConnState) : (connWritten st s).teardown = s.teardown := rfl
@[simp] theorem connWritten_get_out (st : ConnState) : (connWritten st s).out = s.out := rfl
@[simp] theorem connWritten_get_frame (st : ConnState) : (connWritten st s).frame = s.frame := rfl
@[simp] theorem connWritten_get_bind (st : ConnState) : (connWritten st s).bind = s.bind := rfl
@[simp] theorem connWritten_get_port (st : ConnState) : (connWritten st s).port = s.port := rfl
@[simp] theorem connWritten_get_link (st : ConnState) : (connWritten st s).link = s.link := rfl
@[simp] theorem connWritten_get_cells (st : ConnState) : (connWritten st s).cells = s.cells := rfl
@[simp] theorem connWritten_get_mob (st : ConnState) : (connWritten st s).mob = s.mob := rfl
@[simp] theorem connWritten_get_calls (st : ConnState) : (connWritten st s).calls = s.calls := rfl
@[simp] theorem connWritten_get_speech (st : ConnState) : (connWritten st s).speech = s.speech := rfl
@[simp] theorem connWritten_get_texts (st : ConnState) : (connWritten st s).texts = s.texts := rfl
@[simp] theorem connWritten_get_sleep (st : ConnState) : (connWritten st s).sleep = s.sleep := rfl
@[simp] theorem connWritten_get_events (st : ConnState) : (connWritten st s).events = s.events := rfl
@[simp] theorem connWritten_get_conn_state (st : ConnState) : (connWritten st s).conn.state = st := rfl
@[simp] theorem connWritten_get_conn_purposes (st : ConnState) : (connWritten st s).conn.purposes = s.conn.purposes := rfl
@[simp] theorem connWritten_get_conn_area (st : ConnState) : (connWritten st s).conn.area = s.conn.area := rfl
@[simp] theorem connWritten_get_conn_shutdown (st : ConnState) : (connWritten st s).conn.shutdown = s.conn.shutdown := rfl

/-! ## eventPlaced -/

@[simp] theorem eventPlaced_get_pending (e : Event) : (eventPlaced e s).pending = s.pending := rfl
@[simp] theorem eventPlaced_get_resetN (e : Event) : (eventPlaced e s).resetN = s.resetN := rfl
@[simp] theorem eventPlaced_get_resetPhase (e : Event) : (eventPlaced e s).resetPhase = s.resetPhase := rfl
@[simp] theorem eventPlaced_get_teardown (e : Event) : (eventPlaced e s).teardown = s.teardown := rfl
@[simp] theorem eventPlaced_get_out (e : Event) : (eventPlaced e s).out = s.out := rfl
@[simp] theorem eventPlaced_get_frame (e : Event) : (eventPlaced e s).frame = s.frame := rfl
@[simp] theorem eventPlaced_get_bind (e : Event) : (eventPlaced e s).bind = s.bind := rfl
@[simp] theorem eventPlaced_get_port (e : Event) : (eventPlaced e s).port = s.port := rfl
@[simp] theorem eventPlaced_get_link (e : Event) : (eventPlaced e s).link = s.link := rfl
@[simp] theorem eventPlaced_get_conn (e : Event) : (eventPlaced e s).conn = s.conn := rfl
@[simp] theorem eventPlaced_get_cells (e : Event) : (eventPlaced e s).cells = s.cells := rfl
@[simp] theorem eventPlaced_get_mob (e : Event) : (eventPlaced e s).mob = s.mob := rfl
@[simp] theorem eventPlaced_get_calls (e : Event) : (eventPlaced e s).calls = s.calls := rfl
@[simp] theorem eventPlaced_get_speech (e : Event) : (eventPlaced e s).speech = s.speech := rfl
@[simp] theorem eventPlaced_get_texts (e : Event) : (eventPlaced e s).texts = s.texts := rfl
@[simp] theorem eventPlaced_get_sleep (e : Event) : (eventPlaced e s).sleep = s.sleep := rfl
@[simp] theorem eventPlaced_get_events_producer (e : Event) : (eventPlaced e s).events.producer = s.events.producer + 1 := rfl
@[simp] theorem eventPlaced_get_events_consumer (e : Event) : (eventPlaced e s).events.consumer = s.events.consumer := rfl
@[simp] theorem eventPlaced_get_events_pending (e : Event) : (eventPlaced e s).events.pending = s.events.pending := rfl

/-! ## sent -/

@[simp] theorem sent_get_pending (m : AirMsg) : (sent m s).pending = s.pending := rfl
@[simp] theorem sent_get_resetN (m : AirMsg) : (sent m s).resetN = s.resetN := rfl
@[simp] theorem sent_get_resetPhase (m : AirMsg) : (sent m s).resetPhase = s.resetPhase := rfl
@[simp] theorem sent_get_teardown (m : AirMsg) : (sent m s).teardown = s.teardown := rfl
@[simp] theorem sent_get_frame (m : AirMsg) : (sent m s).frame = s.frame := rfl
@[simp] theorem sent_get_bind (m : AirMsg) : (sent m s).bind = s.bind := rfl
@[simp] theorem sent_get_port (m : AirMsg) : (sent m s).port = s.port := rfl
@[simp] theorem sent_get_mem (m : AirMsg) : (sent m s).mem = s.mem := rfl
@[simp] theorem sent_get_conn (m : AirMsg) : (sent m s).conn = s.conn := rfl
@[simp] theorem sent_get_cells (m : AirMsg) : (sent m s).cells = s.cells := rfl
@[simp] theorem sent_get_mob (m : AirMsg) : (sent m s).mob = s.mob := rfl
@[simp] theorem sent_get_calls (m : AirMsg) : (sent m s).calls = s.calls := rfl
@[simp] theorem sent_get_speech (m : AirMsg) : (sent m s).speech = s.speech := rfl
@[simp] theorem sent_get_texts (m : AirMsg) : (sent m s).texts = s.texts := rfl
@[simp] theorem sent_get_sleep (m : AirMsg) : (sent m s).sleep = s.sleep := rfl
@[simp] theorem sent_get_events (m : AirMsg) : (sent m s).events = s.events := rfl
@[simp] theorem sent_get_link_nextId (m : AirMsg) : (sent m s).link.nextId = s.link.nextId + 1 := rfl
@[simp] theorem sent_get_link_opSendSig (m : AirMsg) : (sent m s).link.opSendSig = .running 4 := rfl
@[simp] theorem sent_get_link_up (m : AirMsg) : (sent m s).link.up = s.link.up := rfl
@[simp] theorem sent_get_link_hold (m : AirMsg) : (sent m s).link.hold = s.link.hold := rfl

end Sys2Proof.Machine
end

