-- ==== Sys2Proof/Tests/Slice0.lean ====
section
/-! SUPPORT. Tests: ill-formed commands, one step of some commands on small states, and states that meet the hypotheses of the
statements. -/

namespace Sys2Proof.Tests

open Sys2Proof.Machine

set_option maxRecDepth 20000

/-! ## Well-formedness: one ill-formed command for each check -/

theorem test_wf_byteSet : Instr.wf (.processorWrite 0 0 [(1, 2), (1, 3)]) = false := by decide
theorem test_wf_line : Instr.wf (.hostReadDone 0 (List.replicate 63 0) false) = false ∧
    Instr.wf (.reloadReadDone ⟨9, List.replicate 63 0⟩ false) = false := by decide
theorem test_wf_frame : Instr.wf (.speechIn (List.replicate 65 0)) = false := by decide
theorem test_wf_caller : Instr.wf (.offer 1 [12]) = false ∧ Instr.wf (.offer 1 (List.replicate 25 1)) = false := by decide
theorem test_wf_sender : Instr.wf (.textSegment 0 [] 0 1 [0]) = false := by decide
theorem test_wf_payload : Instr.wf (.textSegment 0 [1] 0 1 []) = false ∧
    Instr.wf (.textSegment 0 [1] 0 1 (List.replicate 161 0)) = false := by decide
theorem test_wf_air : Instr.wf (.airMessageInvalid (List.replicate 256 0)) = false := by decide
theorem test_wf_bytes : Instr.wf (.badFrame (List.replicate 260 0)) = false := by decide

/-! ## States -/

/-- An anchor block that passes validation. -/
def layout : Captured :=
  { version := 1, capacity := 16, identity := 7
    table := [(0x1000, 128), (0x2000, 896), (0x3000, 256), (0x4000, 1088), (0x5000, 576), (0x6000, 6208), (0x8000, 320),
      (0x9000, 0)] }

theorem test_layout_valid : validate 0 layout = none := by decide

/-- A bound part with nothing under way, in a connection state. -/
def part (st : ConnState) : State :=
  let s := State.powerOn 0
  { s with
    bind := { s.bind with state := .bound, captured := some layout }
    events := { s.events with running := true }
    cells := { s.cells with paced := true }
    conn := { s.conn with state := st, inactTimer := if st = .connected then .running 1000 else .stopped } }

/-! ## The predicates of the hypotheses, decided -/

def decResting (s : State) : Decidable (Resting s) := by delta Resting; infer_instance
def decRoom (n : Nat) (s : State) : Decidable (Room n s) := by delta Room; infer_instance
def decLinkClear (s : State) : Decidable (LinkClear s) := by delta LinkClear; infer_instance
def decEventClear (s : State) : Decidable (EventClear s) := by delta EventClear Room; infer_instance
def decCalm (s : State) : Decidable (Calm s) := by delta Calm Resting LinkClear EventClear Room; infer_instance
def decSafe (s : State) : Decidable (Safe s) := by delta Safe Limits MemLimits LinkLimits QueueLaw; infer_instance
def decLinesStill (p : BitVec 4) (s : State) : Decidable (LinesStill p s) := by delta LinesStill; infer_instance
def decReadsServed (s : State) : Decidable (ReadsServed s) := by delta ReadsServed; infer_instance

theorem resting_of {s : State} (h : @decide _ (decResting s) = true) : Resting s := @of_decide_eq_true _ (decResting s) h
theorem room_of {n : Nat} {s : State} (h : @decide _ (decRoom n s) = true) : Room n s := @of_decide_eq_true _ (decRoom n s) h
theorem link_of {s : State} (h : @decide _ (decLinkClear s) = true) : LinkClear s := @of_decide_eq_true _ (decLinkClear s) h
theorem event_of {s : State} (h : @decide _ (decEventClear s) = true) : EventClear s := @of_decide_eq_true _ (decEventClear s) h
theorem calm_of {s : State} (h : @decide _ (decCalm s) = true) : Calm s := @of_decide_eq_true _ (decCalm s) h
theorem safe_of {s : State} (h : @decide _ (decSafe s) = true) : Safe s := @of_decide_eq_true _ (decSafe s) h
theorem lines_of {p : BitVec 4} {s : State} (h : @decide _ (decLinesStill p s) = true) : LinesStill p s :=
  @of_decide_eq_true _ (decLinesStill p s) h
theorem reads_of {s : State} (h : @decide _ (decReadsServed s) = true) : ReadsServed s :=
  @of_decide_eq_true _ (decReadsServed s) h

theorem test_calm (st : ConnState) : Calm (part st) := by cases st <;> exact calm_of (by decide)

/-! ## The part as a whole and the resets -/

theorem test_hyps_step : { part .camped with pending := [.connectGrant] }.pending = .connectGrant :: [] ∧
    (part .camped).pending = [] := ⟨rfl, rfl⟩

theorem test_hyps_limits : Safe State.reset ∧ (∃ t, step { State.reset with pending := [.frameStrobe 0] } = .next t) ∧
    ∃ t, exec (.frameStrobe 0) State.reset = .next t := ⟨safe_of (by decide), ⟨_, rfl⟩, _, rfl⟩

theorem test_hyps_selfRefresh :
    let s (m : MemState) := { State.reset with mem := { State.reset.mem with memState := m } }
    Safe (s .selfRefresh) ∧ Safe (s .exiting) ∧ (∃ t, exec .exitDelayExpiry (s .selfRefresh) = .next t) :=
  ⟨safe_of (by decide), safe_of (by decide), _, rfl⟩

theorem test_hyps_untouched : Untouched (State.powerOn 0) := ⟨0, [], false, .idle, 0, [], [], (Sleep.initial).lines, rfl⟩

/-- A call record ACTIVE with a reference. -/
def active (ref : Byte) : CallRec := { CallRec.initial with state := .active, ref := ref }

/-- A text being sent from the first descriptor. -/
def sending : Send :=
  { desc := 0, ref := 0, address := 0, length := 1, dest := [1], lines := [], body := [5], count := 1, cur := 0
    status := .awaiting, ackTimer := .stopped, cancel := false }

/-- The part in CONNECTED with a call and a text being sent. -/
def busy : State :=
  let s := withRec 0 (active 1) (part .connected)
  { s with conn := { s.conn with inactTimer := .stopped }, texts := { s.texts with send := some sending, prod := 1 } }

theorem test_calm_busy : Calm busy := calm_of (by decide)

theorem test_hyps_warmReset : busy.resetPhase = .idle ∧ busy.bind.state = .bound ∧ (busy.calls.recs[(0 : Fin 4)]).state ≠ .free ∧
    busy.texts.send = some sending ∧ State.reset.bind.state = .unbound := by decide

theorem test_hyps_warmResetEnds :
    let s := { part .camped with resetPhase := .draining, resetN := true, teardown := [writeAt (part .camped) .anchor 2 [(0, 0)]] }
    drained s = true ∧ s.teardown ≠ [] ∧ portOpen s = false ∧ drained { s with mem := { s.mem with inFlight := [.drain 3] } } = false := by
  decide

/-! ## Frame time -/

theorem test_listens_some : ∃ f : Fin 64, listenSlot { part .camped with frame := BitVec.ofNat 16 f.val } (BitVec.ofNat 16 f.val + 1) = true ∧
    ∃ g : Fin 64, listenSlot { part .camped with frame := BitVec.ofNat 16 g.val } (BitVec.ofNat 16 g.val + 1) = false := by decide

theorem test_hyps_strobe :
    (let s := { State.reset with resetPhase := .draining }; s.resetPhase ≠ .idle ∧ portOpen s = false) ∧
    (let s := { State.reset with resetN := true }; s.resetPhase = .idle ∧ s.resetN = true) ∧
    (portOpen State.reset = true ∧ jobsRun State.reset = false ∧ Resting State.reset ∧ LinesStill 0 State.reset) ∧
    (jobsRun (part .camped) = true ∧ Resting (part .camped) ∧ LinesStill 0 (part .camped) ∧ (part .camped).conn.state ≠ .connected ∧
      (part .camped).speech.speaking = none) :=
  ⟨by decide, by decide, ⟨by decide, by decide, resting_of (by decide), lines_of (by decide)⟩,
    by decide, resting_of (by decide), lines_of (by decide), by decide, rfl⟩

theorem test_timer_due : (Timer.tick^[2]) (.running 2) = .due ∧ (Timer.tick^[1]) (.running 2) = .running 1 := by decide

/-! ## The processor port and the memory path -/

/-- A host read of a line, as the read queue holds it. -/
def readOf (line : Nat) (st : ReadStatus) : ReadEntry :=
  { for_ := .host 3, line := line, arrived := 0, since := 0, status := st, discard := false }

/-- A host write at the head of the acceptance list. -/
def writeOf (line : Nat) (bytes : LineBytes) : AccWrite :=
  { writer := .host 5 0, line := line, bytes := bytes, speech := false, joined := 0 }

/-- An internal write at the head of the acceptance list. -/
def ownOf (note : WriteNote) (line : Nat) (bytes : LineBytes) : AccWrite :=
  { writer := .part note, line := line, bytes := bytes, speech := false, joined := 0 }

def entryAt (line : Nat) (draining : Bool) : QEntry :=
  { line := line, bytes := [(0, 1, .host)], age := line, speech := none, draining := draining }

def withMem (f : MemPath → MemPath) (s : State) : State := { s with mem := f s.mem }

theorem test_hyps_tagInUse :
    let s := withMem (fun m => { m with reads := [readOf 9 .inFlight] }) (part .camped)
    portOpen s = true ∧ tagBusy 3 s = true ∧ Resting s ∧ s.sleep.level = .awake :=
  ⟨by decide, by decide, resting_of (by decide), by decide⟩

theorem test_hyps_writeRecorded :
    let held := { part .camped with port := { (part .camped).port with sleepHold := true } }
    (portOpen (part .camped) = true ∧ tagBusy 3 (part .camped) = false ∧ Resting (part .camped)) ∧
    (portOpen held = true ∧ tagBusy 3 held = false ∧ Resting held ∧ held.sleep.level = .awake) ∧
    byteSetWf [(0, 1), (63, 2)] = true :=
  ⟨⟨by decide, by decide, resting_of (by decide)⟩, ⟨by decide, by decide, resting_of (by decide), by decide⟩, by decide⟩

/-- A part whose stage holds all of a line. -/
def staged : State :=
  withMem (fun m => { m with stage := [{ line := 9, bytes := bytesAt 0 (List.replicate 64 1), pub := 0 }] }) (part .camped)

theorem test_hyps_readRecorded :
    let waits := withMem (fun m => { m with clock := 1, accept := [writeOf 9 [(0, 1)]] }) (part .camped)
    (∀ s, s = waits ∨ s = staged ∨ s = part .camped →
      portOpen s = true ∧ tagBusy 3 s = false ∧ Resting s ∧ s.sleep.level = .awake ∧ ReadsServed s) ∧
    readFree waits { readOf 9 .waiting with for_ := .host 3, arrived := 1 } = false ∧ readFree staged (readOf 9 .waiting) = true ∧
    bytesFull (upperLayers staged.mem 9) ([] : LineBytes) = true ∧ bytesFull (upperLayers (part .camped).mem 9) ([] : LineBytes) = false := by
  refine ⟨?_, by decide, by decide, by decide, by decide⟩
  rintro s (h | h | h) <;> subst h <;> exact ⟨by decide, by decide, resting_of (by decide), by decide, reads_of (by decide)⟩

theorem test_hyps_hostRead :
    let s := withMem (fun m => { m with reads := [readOf 9 .inFlight], inFlight := [.read 0 9] }) (part .camped)
    Resting s ∧ s.mem.reads.find? (fun x => x.for_ == .host 3) = some (readOf 9 .inFlight) ∧
      nextOfLine s.mem (.read 0 9) = true ∧ s.mem.reads.find? (fun x => x.for_ == .host 4) = none :=
  ⟨resting_of (by decide), by decide, by decide, by decide⟩

theorem test_hyps_accept :
    let s (w : AccWrite) (q : List QEntry) := withMem (fun m => { m with accept := [w], queue := q }) (part .camped)
    (hostTakes (s (writeOf 9 [(0, 1)]) []) 9 [(0, 1)] = true) ∧
    ((keptBytes (s (writeOf 9 [(0, 1)]) [entryAt 9 true]) 9 [(0, 1)]).isEmpty = false ∧
      ∃ e, entryOf (s (writeOf 9 [(0, 1)]) [entryAt 9 true]).mem 9 = some e ∧ e.draining = true) ∧
    (entryOf (s (writeOf 99 [(0, 1)]) ((List.range 32).map (entryAt · false))).mem 99 = none ∧
      32 ≤ (s (writeOf 99 [(0, 1)]) ((List.range 32).map (entryAt · false))).mem.queue.length) ∧
    (internalTakes (s (ownOf .none 9 [(0, 1)]) []).mem (ownOf .none 9 [(0, 1)]) = true ∧ Resting (s (ownOf .none 9 [(0, 1)]) []) ∧
      stageOf (s (ownOf .none 9 [(0, 1)]) [entryAt 9 true]).mem 9 = none) :=
  ⟨by decide, ⟨by decide, entryAt 9 true, by decide, rfl⟩, by decide, by decide, resting_of (by decide), by decide⟩

theorem test_hyps_queue : QueueLaw ([] : List QEntry) ∧ QueueLaw [entryAt 9 false] ∧ queueTakes (part .camped).mem 9 = true ∧
    queueTakes { (part .camped).mem with queue := [entryAt 9 false] } 9 = true := by
  delta QueueLaw; decide

/-- A publication of one line. -/
def publication (n : Nat) (lines : List Nat) : Publication :=
  { number := n, kind := .camping 0, live := true, images := lines.map (fun l => (l, [(0, 1)])) }

theorem test_hyps_publications :
    let s (p : Publication) (st : List StageLine) := withMem (fun m => { m with pubs := [p], stage := st }) (part .noService)
    let full := (List.range 8).map (fun i => ({ line := i, bytes := [(0, 1)], pub := 0 } : StageLine))
    stageFits (s (publication 1 [20]) []).mem (publication 1 [20]).images = true ∧
    stageFits (s (publication 1 [20]) full).mem (publication 1 [20]).images = false ∧ (part .noService).mem.pubs = [] ∧
    (full.map (·.line)).Nodup ∧ ((publication 1 [20]).images.map (·.1)).Nodup := by decide

theorem test_hyps_places :
    let w (j : Job) (t : Nat) : Wait := { job := j, since := t, acts := [.write (writeAt (part .camped) .plan 1 [(0x10, 2)])] }
    let s (n : Nat) (ws : List Wait) := withMem (fun m => { m with waits := ws, accept := List.replicate n (ownOf .none 9 [(0, 1)]) }) (part .camped)
    (internalCount (s 15 [w .conn 0]).mem < 16 ∧ Resting { s 15 [w .conn 0] with mem := { (s 15 [w .conn 0]).mem with waits := [] } }) ∧
    (((s 15 [w .conn 0, w .cells 1]).mem.waits.map (·.job)).Nodup ∧ (w .conn 0).since < (w .cells 1).since) ∧
    16 ≤ internalCount (s 16 [w .conn 0]).mem :=
  ⟨⟨by decide, resting_of (by decide)⟩, by decide, by decide⟩

theorem test_hyps_readPlaces :
    let w (j : Job) (t : Nat) : ReadWait := { job := j, since := t, reads := [(.descriptor, 9)] }
    let own : ReadEntry := { readOf 9 .inFlight with for_ := .reload 0 }
    let s (n : Nat) (ws : List ReadWait) := withMem (fun m => { m with readWaits := ws, reads := List.replicate n own }) (part .camped)
    (internalReadCount (s 3 [w .texts 0]).mem < 4 ∧
      Resting { s 3 [w .texts 0] with mem := { (s 3 [w .texts 0]).mem with readWaits := [] } }) ∧
    (((s 3 [w .texts 0, w .cells 1]).mem.readWaits.map (·.job)).Nodup ∧ (w .texts 0).since < (w .cells 1).since) ∧
    4 ≤ internalReadCount (s 4 [w .texts 0]).mem :=
  ⟨⟨by decide, resting_of (by decide)⟩, by decide, by decide⟩

/-! ## The arbiter -/

theorem test_hyps_arbiter :
    let speech : ReadEntry := { readOf 9 .needsDram with for_ := .speech, since := 5 }
    let drain (t : Nat) : QEntry := { entryAt 8 false with speech := some t }
    let s (rs : List ReadEntry) (q : List QEntry) (n : Nat) := withMem (fun m => { m with reads := rs, queue := q, count := n }) (part .camped)
    (Resting (s [speech] [drain 5] 7) ∧ (s [speech] [drain 5] 7).mem.memState = .active) ∧
    (speechRead (s [speech] [] 0).mem = some speech ∧ oldestSpeechDrain (s [speech] [] 0).mem = none) ∧
    (speechRead (s [] [drain 5] 0).mem = none ∧ oldestSpeechDrain (s [] [drain 5] 0).mem = some (5, drain 5)) ∧
    (∀ t ∈ [4, 5, 6], oldestSpeechDrain (s [speech] [drain t] 0).mem = some (t, drain t)) ∧
    (oldestReady (s [] [entryAt 8 false] 0).mem = some (entryAt 8 false) ∧ oldestRead (s [] [entryAt 8 false] 0).mem = none) ∧
    (oldestRead (s [readOf 9 .needsDram] [] 0).mem = some (readOf 9 .needsDram) ∧ oldestReady (s [readOf 9 .needsDram] [] 0).mem = none) ∧
    (oldestRead (s [readOf 9 .needsDram] [entryAt 8 false] 8).mem = some (readOf 9 .needsDram) ∧
      oldestReady (s [readOf 9 .needsDram] [entryAt 8 false] 8).mem = some (entryAt 8 false) ∧
      speechRead (s [readOf 9 .needsDram] [entryAt 8 false] 7).mem = none ∧
      oldestSpeechDrain (s [readOf 9 .needsDram] [entryAt 8 false] 7).mem = none) :=
  ⟨⟨resting_of (by decide), by decide⟩, by decide, by decide, by decide, by decide, by decide, by decide⟩

theorem test_hyps_drain :
    let s (n : Nat) := withMem (fun m => { m with
      queue := entryAt 40 true :: (List.range n).map (entryAt · false), inFlight := [.drain 40] }) (part .camped)
    nextOfLine (s 24).mem (.drain 40) = true ∧ Resting (s 24) ∧ nextOfLine (s 8).mem (.drain 40) = true ∧
      nextOfLine (part .camped).mem (.drain 40) = false :=
  ⟨by decide, resting_of (by decide), by decide, by decide⟩

/-! ## The region decoder -/

theorem test_hyps_ownership :
    let b := (part .camped).bind
    (∀ k ∈ regionKinds, b.locate (b.line k 0) = some (k, 0) ∧ b.locate (b.line k (k.lines 16 - 1)) = some (k, k.lines 16 - 1)) ∧
    b.locate 0 = none ∧ State.reset.bind.state ≠ .bound ∧ State.reset.bind.state ≠ .unbinding ∧
    (partOwned .call 0 0x0F = false ∧ partOwned .call 0 0x10 = true ∧ partOwned .call 0 0x26 = true ∧ partOwned .call 0 0x27 = false ∧
      partOwned .inbox 1 63 = true) ∧
    bytesCover ([(0, 1)] : LineBytes) 0 = true ∧ bytesCover ([(63, 1)] : LineBytes) 63 = true ∧
    bytesCover ([(63, 1)] : LineBytes) 62 = false := by decide

theorem test_hyps_notices : portOpen (part .camped) = true ∧ (part .camped).bind.state = .bound ∧
    (part .camped).port.sleepHold = false ∧ State.reset.bind.state ≠ .bound := by decide

def bindingIn (st : BindState) : State := { State.reset with bind := { State.reset.bind with state := st } }

theorem test_hyps_enableWord :
    (∀ st, Resting (bindingIn st)) ∧ Room 1 (bindingIn .rejected) ∧ (bindingIn .unbound).mem.reads = [] ∧
    portOpen (bindingIn .bound) = true ∧ (bindingIn .bound).port.bindHold = false ∧ (bindingIn .bound).port.sleepHold = false ∧
    EventClear (part .camped) ∧ Resting (part .camped) :=
  ⟨by intro st; cases st <;> exact resting_of (by decide), room_of (by decide), by decide, by decide, by decide, by decide,
    event_of (by decide), resting_of (by decide)⟩

/-- The anchor's first two lines for a captured copy. -/
def anchorBytes (c : Captured) : List (Nat × List Byte) :=
  [(0, le32 c.version ++ le32 1 ++ le32 c.capacity ++ le32 0 ++ le64 c.identity ++ List.replicate 40 0),
    (1, c.table.flatMap (fun p => le32 p.1 ++ le32 p.2))]

def based (n : Nat) (p : Word × Word) : Captured := { layout with table := layout.table.set n p }

theorem test_captured : captureOf (anchorBytes layout) = layout := by decide

theorem test_validation :
    validate 0 { layout with version := 2 } = some (.badVersion, none) ∧
    validate 0 { layout with capacity := 17 } = some (.badCapacity, none) ∧
    validate 0 { layout with capacity := 128 } = some (.badSize, some .event) ∧
    validate 0 (based 0 (0x1020, 128)) = some (.badBase, some .plan) ∧
    validate 0 (based 6 (0xFFFFFF00, 320)) = some (.badBase, some .event) ∧
    validate 0 (based 6 (0xFFFFFEC0, 320)) = none ∧
    validate 0 (based 0 (0x1000, 129)) = some (.badSize, some .plan) ∧
    validate 0 (based 7 (0x9000, 1)) = some (.badSize, some .textBodies) ∧
    validate 0 (based 0 (0x2380, 128)) = none ∧ validate 0 (based 0 (0x2340, 128)) = some (.overlap, some .plan) ∧
    validate 0 (based 6 (BitVec.ofNat 32 (64 * anchorLine 0 + 192), 320)) = some (.overlap, some .event) := by decide

/-- CAPTURING, with one internal read answered and n anchor lines and m region lines read before. -/
def capturing (f : ReadFor) (line : Nat) (a r : List (Nat × List Byte)) (next : Nat) : State :=
  { State.reset with
    port := { State.reset.port with bindHold := true }
    bind := { State.reset.bind with
      state := .capturing, anchorLines := a, regionLines := r, nextRegion := next
      captured := if f = .anchor 3 then none else some layout }
    mem := { State.reset.mem with reads := [{ readOf line .inFlight with for_ := f }], inFlight := [.read 0 line] } }

theorem test_hyps_capturing :
    let r := { readOf 9 .inFlight with for_ := .anchor 3 }
    let s (a : List (Nat × List Byte)) := capturing (.anchor 3) 9 a [] 0
    let full (c : Captured) := anchorBytes c ++ [(2, List.replicate 64 0)]
    let captured (c : Captured) := captureOf (full c ++ [(3, composeLine (fitTo 64 []) (upperLayers (s (full c)).mem 9))])
    (∀ a, (s a).mem.reads.find? (fun x => x.for_ == .anchor 3) = some r) ∧ Resting (s (full layout)) ∧
    r.status = .inFlight ∧ r.discard = false ∧ nextOfLine (s []).mem (.read r.arrived r.line) = true ∧
    (s []).bind.anchorLines.length < 3 ∧ (s (full layout)).bind.anchorLines.length = 3 ∧
    validate 0 (captured layout) = none ∧ validate 0 (captured { layout with version := 0 }) = some (.badVersion, none) ∧
    (s (full layout)).bind.nextRegion = 0 ∧ (∀ x ∈ (s []).mem.reads.erase r, x.isHost = true) :=
  ⟨fun _ => rfl, resting_of (by decide), by decide, by decide, by decide, by decide, by decide, by decide, by decide, by decide,
    by decide⟩

theorem test_hyps_rejection : State.reset.mem.waits = [] ∧ Room 1 State.reset := ⟨by decide, room_of (by decide)⟩

theorem test_hyps_regionReads :
    let r : ReadEntry := { readOf 9 .inFlight with for_ := .region 3 }
    let s (n next : Nat) := capturing (.region 3) 9 [] ((List.range n).map (fun k => (k, List.replicate 64 0))) next
    (∀ n ∈ [0, 3, 17, 18], ∀ next ∈ [4, 8, 19], Resting (s n next)) ∧ (s 3 4).bind.state = .capturing ∧
    (s 3 4).mem.reads.find? (fun x => x.for_ == .region 3) = some r ∧ r.status = .inFlight ∧ r.discard = false ∧
    nextOfLine (s 3 4).mem (.read r.arrived r.line) = true ∧ (∀ x ∈ (s 3 4).mem.reads.erase r, x.isHost = true) ∧
    ((s 3 8).bind.regionLines.length + 1 < (s 3 8).bind.nextRegion ∧ (s 3 4).bind.regionLines.length + 1 = (s 3 4).bind.nextRegion ∧
      (s 17 19).bind.regionLines.length + 1 < 19 ∧ (s 18 19).bind.regionLines.length + 1 = 19) :=
  ⟨by intro n hn m hm; revert m; revert n; exact fun n hn => by
        simp only [List.mem_cons, List.not_mem_nil, or_false] at hn
        rcases hn with h | h | h | h <;> subst h <;> intro m hm <;>
          simp only [List.mem_cons, List.not_mem_nil, or_false] at hm <;> rcases hm with h | h | h <;> subst h <;>
          exact resting_of (by decide),
    by decide, by decide, by decide, by decide, by decide, by decide, by decide⟩

/-- A part in a binding state with the status write that ends it at the head of the acceptance list. -/
def statusHead (st : BindState) (note : WriteNote) : State :=
  let s := bindingIn st
  { s with
    port := { s.port with bindHold := st == .capturing, held := [{ tag := 1, line := 4, bytes := [(0, 1)], arrived := 0 }] }
    bind := { s.bind with captured := some layout }
    mem := { s.mem with accept := [ownOf note 9 [(0, 1)]] } }

theorem test_hyps_bound :
    internalTakes (statusHead .capturing .bound).mem (ownOf .bound 9 [(0, 1)]) = true ∧ Resting (statusHead .capturing .bound) ∧
    (statusHead .capturing .bound).bind.heldEvents = [] ∧ (statusHead .capturing .bound).conn.state = .off ∧
    internalTakes (statusHead .unbinding .unbound).mem (ownOf .unbound 9 [(0, 1)]) = true ∧
    Resting (statusHead .unbinding .unbound) ∧ (statusHead .unbinding .unbound).mem.reads = [] :=
  ⟨by decide, resting_of (by decide), by decide, by decide, by decide, resting_of (by decide), by decide⟩

theorem test_hyps_unbinding :
    let s := part .camped
    let u := { s with bind := { s.bind with state := .unbinding, unbindTimer := .due } }
    (s.conn.shutdown = none ∧ callsFree s = true ∧ s.texts.send = none ∧ s.texts.resv = [] ∧ s.mob.state = .idle ∧ s.mem.pubs = []) ∧
    LinkClear s ∧ Room 1 s ∧ jobsRun u = true ∧ Resting u ∧ Room 1 u :=
  ⟨by decide, link_of (by decide), room_of (by decide), by decide, resting_of (by decide), room_of (by decide)⟩

/-! ## Parameters and the event ring -/

theorem test_hyps_parameters :
    (100 : Half).toNat = 100 ∧ (99 : Half).toNat < 100 ∧ (6000 : Half).toNat ≤ 6000 ∧ 6000 < (6001 : Half).toNat ∧
    (0xFF74 : Half).toInt = -140 ∧ (0xFFE2 : Half).toInt = -30 ∧ (0xFF73 : Half).toInt < -140 ∧ -30 < (0xFFE3 : Half).toInt ∧
    -30 < (0 : Half).toInt ∧ (15 : Half).toNat ≤ 15 ∧ 15 < (16 : Half).toNat ∧ (9 : Half).toNat < 10 ∧ 500 < (501 : Half).toNat ∧
    (0 : Half).toNat < 1 ∧ 4 < (5 : Half).toNat ∧ (63 : Half).toNat ∉ [64, 128, 256, 512] ∧ 1 < (2 : Half).toNat ∧
    (part .camped).conn.state ≠ .connected := by decide

theorem test_hyps_eventRing :
    let full := { part .camped with events := { (part .camped).events with producer := 16 } }
    let w := ownOf (.eventHeader 1) 9 [(0, 1)]
    let s := withMem (fun m => { m with accept := [w] }) (part .camped)
    Resting full ∧ mayPlace full = true ∧ full.bind.capacity ≤ occupancy full.events.producer full.events.consumer ∧ Room 1 full ∧
    Calm { part .camped with events := { (part .camped).events with producer := 15 } } ∧
    (Resting s ∧ s.mem.reads = [] ∧ internalTakes s.mem w = true) ∧
    ((0 - 0 : Byte).toNat ≤ (0 - 0 : Byte).toNat ∧ (0 - 0 : Byte).toNat < (1 - 0 : Byte).toNat) :=
  ⟨resting_of (by decide), by decide, by decide, room_of (by decide), calm_of (by decide),
    ⟨resting_of (by decide), by decide, by decide⟩, by decide⟩

/-! ## Sleep -/

theorem test_hyps_sleepRequest :
    let texted := { part .camped with texts := { (part .camped).texts with send := some sending, prod := 1 } }
    let s := { part .camped with sleep := { (part .camped).sleep with
      level := .quiescing, phase := .waitingGrant, quiesceTimer := .due } }
    (Calm busy ∧ callsFree busy = false) ∧ (Calm texted ∧ callsFree texted = true ∧ texted.texts.send.isSome = true) ∧
    (connSeen (part .connecting) ≠ .off ∧ connSeen (part .connecting) ≠ .camped ∧ connSeen (part .connecting) ≠ .noService) ∧
    (connSeen (part .camped) = .camped ∧ (part .camped).conn.purposes = []) ∧
    (jobsRun s = true ∧ Resting s ∧ EventClear s ∧ Room 3 s ∧ s.sleep.quiesceTimer = .due) ∧
    (forceDrain { s.mem with queue := [entryAt 8 false] }).mode = .drain :=
  ⟨⟨calm_of (by decide), by decide⟩, ⟨calm_of (by decide), by decide, by decide⟩, by decide, by decide,
    ⟨by decide, resting_of (by decide), event_of (by decide), room_of (by decide), by decide⟩, by decide⟩

def sleepingAt (l : Level) (p : QPhase) (m : MemState) : State :=
  let s := part .camped
  { s with
    sleep := { s.sleep with level := l, phase := p, wakeCause := some .host }
    mem := { s.mem with memState := m } }

theorem test_hyps_deepSleep :
    let d := sleepingAt .quiescing .draining .active
    let r (c : Cause) := { sleepingAt .resuming .none .exiting with
      sleep := { (sleepingAt .resuming .none .exiting).sleep with wakeCause := some c } }
    let w := { sleepingAt .roused .none .active with sleep := { (sleepingAt .roused .none .active).sleep with rouseTimer := .due } }
    (jobsRun d = true ∧ Resting d ∧ memoryQuiet d.mem = true ∧ d.mem.forced = false) ∧
    (Resting (sleepingAt .awake .none .exiting) ∧ (sleepingAt .awake .none .exiting).mem.memState = .exiting) ∧
    (∀ c ∈ [Cause.host, .wake], Resting (r c) ∧ (r c).sleep.wakeCause ≠ some .line) ∧
    ((r .host).events.running = true ∧ (r .host).events.lossPending = false ∧
      (r .host).bind.capacity > occupancy (r .host).events.producer (r .host).events.consumer) ∧
    (jobsRun w = true ∧ memoryWork w = false ∧ Resting { w with sleep := { w.sleep with level := .awake } }) :=
  ⟨⟨by decide, resting_of (by decide), by decide, by decide⟩, ⟨resting_of (by decide), by decide⟩,
    by
      intro c hc
      simp only [List.mem_cons, List.not_mem_nil, or_false] at hc
      rcases hc with h | h <;> subst h <;> exact ⟨resting_of (by decide), by decide⟩,
    by decide, by decide, by decide, resting_of (by decide)⟩

/-- A part with one wake line as given, and the long-press timer due. -/
def lined (x : WakeLine) : State :=
  let s := part .camped
  { s with sleep := { s.sleep with lines := s.sleep.lines.set 3 x, longPress := .due } }

theorem test_hyps_lines :
    let x : WakeLine := { WakeLine.initial with edgeLevel := true, active := true, flag := true }
    Calm (lined x) ∧ ((lined x).sleep.lines[(3 : Fin 4)]) = x ∧ Calm (lined { x with edgeLevel := false }) ∧
    ((lined x).conn.shutdown = none ∧ callsFree (lined x) = true ∧ (lined x).texts.send = none ∧ (lined x).texts.resv = []) ∧
    (part .camped).sleep.longPress ≠ .due :=
  ⟨calm_of (by decide), by decide, calm_of (by decide), by decide, by decide⟩

/-! ## The cell table and measurement -/

/-- A usable slot with one sample. -/
def cell (carrier : Half) (level : Int) : Slot :=
  { Slot.initial with inUse := true, carrier := carrier, code := 1, area := 5, samples := [{ level := level, frame := 0 }] }

/-- A part in a connection state with two usable slots, the first serving. -/
def celled (st : ConnState) : State :=
  let s := part st
  { s with cells := { s.cells with
    slots := (s.cells.slots.set 0 (cell 10 (-80))).set 12 (cell 4095 (-105)), serving := some 0, lastCarrier := some 7 } }

theorem test_calm_celled (st : ConnState) : Calm (celled st) := by cases st <;> exact calm_of (by decide)

def withMob (f : Mob → Mob) (s : State) : State := { s with mob := f s.mob }
def withCells (f : Cells → Cells) (s : State) : State := { s with cells := f s.cells }
def withConn (f : Conn → Conn) (s : State) : State := { s with conn := f s.conn }
def withLink (f : Link → Link) (s : State) : State := { s with link := f s.link }

theorem test_hyps_cellConfiguration :
    let s := celled .camped
    (slotFrozen s 0 = true ∧ slotFrozen s 12 = false ∧ cellWordOk .carrier 4095 = true ∧ cellWordOk .carrier 4096 = false ∧
      (12 : Fin 13) ∉ s.cells.reload ∧ s.cells.reloadRead ≠ some 12) ∧
    (∃ r : SwRec, r.old = some 12 ∧ r.target = 3) ∧
    (let u := withCells (fun c => { c with reload := [12], reloadRead := some 12 }) s;
      Calm u ∧ u.mem.inFlight = [] ∧ slotFrozen u 12 = false ∧ u.conn.state ≠ .connected) ∧
    (let line := composeLine (fitTo 64 [1, 0, 0xFF, 0x0F, 0xFF, 0x01, 9]) (upperLayers s.mem 70);
      ∀ p ∈ [(CellWord.inUse, (byteOf line 0).setWidth 16), (.carrier, halfOf line 2), (.cellCode, halfOf line 4),
        (.areaCode, halfOf line 6)], cellWordOk p.1 p.2 = true) :=
  ⟨by decide, ⟨{ kind := .handover, old := some 12, target := 3 }, rfl, rfl⟩, ⟨calm_of (by decide), by decide, by decide, by decide⟩,
    by decide⟩

theorem test_hyps_measurement :
    let u := celled .noService
    let begun (s : State) : State := { s with cells := { s.cells with round := some .serving, roundTimer := .running 64 } }
    u.link.opMeasure = .stopped ∧ u.cells.residue = false ∧ Calm (withCells (fun c => { c with residue := true }) u) ∧
    nextSlot u (.after none (some 0)) = some (12, false) ∧ nextSlot u (.after none (some 12)) = none ∧
    levelIn 0xFFE2 = some (-30) ∧ levelIn 0xFFE3 = none ∧ Calm (withCells (fun c => { c with roundTimer := .due }) u) ∧
    nextSlot (begun u) .serving = some (0, false) ∧ nextSlot (begun (part .noService)) .serving = none ∧
    campChoice (part .noService) false = none ∧
    campChoice (withConn (fun c => { c with campThr := -30 }) u) false = none ∧
    nextSlot (begun (connWritten .noService (celled .off))) .serving = some (0, false) :=
  ⟨by decide, by decide, calm_of (by decide), by decide, by decide, by decide, by decide, calm_of (by decide), by decide, by decide,
    by decide, by decide, by decide⟩

theorem test_hyps_listen :
    let s (p : Sleep → Sleep) := { part .noService with sleep := p (part .noService).sleep }
    (∀ n ∈ [0, 14, 15, 16], Calm (s (fun p => { p with quiet := n }))) ∧ (part .noService).sleep.lineSince = false ∧
    Calm (s (fun p => { p with lineSince := true })) ∧
    Calm (s (fun p => { p with lines := p.lines.set 3 { WakeLine.initial with active := true } })) ∧
    effectiveCeiling (part .noService) = 256 ∧ (part .noService).sleep.base = 64 ∧
    (Calm (s (fun p => { p with base := 512, cycle := 512 })) ∧ effectiveCeiling (s (fun p => { p with base := 512 })) = 512) ∧
    (part .noService).conn.purposes = [] :=
  ⟨by
      intro n hn
      simp only [List.mem_cons, List.not_mem_nil, or_false] at hn
      rcases hn with h | h | h | h <;> subst h <;> exact calm_of (by decide),
    by decide, calm_of (by decide), calm_of (by decide), by decide, by decide, ⟨calm_of (by decide), by decide⟩, by decide⟩

/-! ## The connection and mobility -/

theorem test_hyps_radioRequest :
    (∀ st, let s := withConn (fun c => { c with shutdown := some .locl, shutTimer := .due, inactTimer := .stopped }) (part st);
      Calm s ∧ s.conn.shutdown.isSome = true ∧ s.conn.shutTimer = .due) ∧
    callsFree (part .camped) = true ∧ (part .camped).texts.send = none ∧ (part .camped).texts.resv = [] ∧
    (part .camped).conn.shutTimer ≠ .due :=
  ⟨by intro st; cases st <;> exact ⟨calm_of (by decide), by decide, by decide⟩, by decide, by decide, by decide, by decide⟩

theorem test_hyps_connect :
    let c (l : List Purpose) (n : Nat) := withConn (fun c => { c with
      purposes := l, opening := l.head?, attempts := n, connectTimer := .due }) (celled .connecting)
    let i := withConn (fun c => { c with inactTimer := .due }) (celled .connected)
    Calm (c [.area] 3) ∧ Calm (c [.callIn] 1) ∧ (c [.callIn] 1).conn.opening = some .callIn ∧
    (∀ n, candidateNow (withConn (fun c => { c with state := .connected }) (c [.area] 3)) n = false) ∧
    (∀ r : Fin 4, ((c [.area] 3).calls.recs[r]).state ≠ .dialing) ∧ servingSlot (c [.area] 3) = some (cell 10 (-80)) ∧
    Calm i ∧ i.conn.inactTimer = .due ∧ (part .connected).conn.inactTimer ≠ .due ∧ (part .camped).conn.connectTimer ≠ .due :=
  ⟨calm_of (by decide), calm_of (by decide), by decide, by decide, by decide, by decide, calm_of (by decide), by decide, by decide,
    by decide⟩

theorem test_hyps_area :
    let s := withConn (fun c => { c with
      purposes := [.area], awaited := some 5, areaTimer := .due, inactTimer := .stopped }) (celled .connected)
    let t := slotWritten 0 { s.cells.slots[(0 : Fin 13)] with barred := true } s
    let u := eventPlaced (event s .areaRejected .primary Kind.plan.code 0 0 0 5) t
    let v := roundBegun (leftService { u with sleep := { u.sleep with quiet := 0 } })
    Calm s ∧ s.conn.awaited = some 5 ∧ s.conn.awaited ≠ some 6 ∧ s.conn.areaTimer = .due ∧ s.cells.serving = some 0 ∧
    callsFree s = true ∧ s.texts.send = none ∧ nextSlot v .serving = some (12, false) :=
  ⟨calm_of (by decide), by decide, by decide, by decide, by decide, by decide, by decide, by decide⟩

theorem test_hyps_transfer :
    let s := celled .connected
    let o (c : Half) : Order := { target := 12, carrier := c, code := 1, activation := 0 }
    (orderMatch 4095 1 s = some 12 ∧ orderMatch 10 1 s = none ∧ orderMatch 4095 511 s = none) ∧
    (notLater 0 s.frame = true ∧ notLater 1 s.frame = false ∧ notLater 0x8000 s.frame = false ∧ notLater 0x8001 s.frame = true) ∧
    (orderHolds (o 4094) s = false ∧ orderHolds (o 4095) s = true) ∧ s.link.opSwitch = .stopped ∧ s.conn.shutdown = none ∧
    s.texts.send = none ∧ s.mob.actTimer ≠ .due ∧ s.cells.serving = some 0 ∧ (Timer.due).runs = true ∧ (Timer.running 1).runs = true := by
  decide

theorem test_hyps_reestablishment :
    let u (o : Timer) := withConn (fun c => { c with reestTimer := o }) (celled .reestablishing)
    campChoice (celled .connected) true = some 12 ∧ (celled .connected).link.opSwitch = .stopped ∧
    (∀ o ∈ [Timer.stopped, .running 1, .due], Calm (u o)) ∧ callsFree (u .due) = true ∧
    (∀ r : Fin 4, ((u .due).calls.recs[r]).pending = none) ∧ (u .due).texts.send = none ∧ (u .due).cells.reload = [] ∧
    (let w := eventPlaced (event (u .due) .serviceLost .primary 0 0 0 0 0) (leftService (u .due));
      let v := roundBegun { w with cells := { (u .due).cells with paced := true } }
      nextSlot v .serving = some (0, false)) :=
  ⟨by decide, by decide, by
      intro o ho
      simp only [List.mem_cons, List.not_mem_nil, or_false] at ho
      rcases ho with h | h | h <;> subst h <;> exact calm_of (by decide),
    by decide, by decide, by decide, by decide, by decide⟩

theorem test_hyps_reports :
    ((celled .connected).cells.slots[(12 : Fin 13)]).filtered = some (-105) ∧
    Calm (withMob (fun m => { m with reportTimer := .due }) (celled .connected)) ∧ (celled .connected).mob.reportTimer ≠ .due :=
  ⟨by decide, calm_of (by decide), by decide⟩

/-! ## Calls and speech -/

/-- A connected part with two call records. -/
def called (a b : CallRec) : State :=
  let s := part .connected
  withRec 0 a (withRec 1 b { s with conn := { s.conn with inactTimer := .stopped } })

def recIn (st : CallState) (x : Exchange) (t : Timer) : CallRec :=
  { CallRec.initial with state := st, ref := 1, exch := x, timer := t, relMsg := none, relCause := some .locl }

theorem test_calm_called (st : CallState) (x : Exchange) (due : Bool) :
    Calm (called (recIn st x (if due then .due else .stopped)) { active 2 with state := .held }) := by
  cases st <;> cases x <;> cases due <;> exact calm_of (by decide)

theorem test_hyps_requests :
    (let s := part .connected;
      BitVec.ofNat 8 (s.calls.lastRef.toNat % 255 + 1) = 1 ∧ recByRef 1 s = none ∧ claimElsewhere 3 s = false ∧ s.conn.shutdown = none) ∧
    connSeen (part .off) = .off ∧ connSeen (part .noService) = .noService ∧
    claimElsewhere 0 (called (recIn .incoming .none .stopped) { active 2 with state := .held }) = false ∧
    claimElsewhere 0 (called (recIn .held .none .stopped) (active 2)) = true ∧
    Calm (called (recIn .incoming .none .stopped) (active 2)) ∧ claimElsewhere 0 (called (recIn .incoming .none .stopped) (active 2)) = true ∧
    (let s := called (recIn .held .none .stopped) (active 2);
      Calm s ∧ swapPartner 0 s = some 1) ∧
    swapPartner 0 (called (recIn .held .none .stopped) { active 2 with state := .held }) = none ∧
    (6 : Byte).toNat ≤ 6 ∧ 6 < (7 : Byte).toNat :=
  ⟨by decide, by decide, by decide, by decide, by decide, calm_of (by decide), by decide, ⟨calm_of (by decide), by decide⟩, by decide,
    by decide, by decide⟩

theorem test_hyps_messages :
    (∀ st x, st ≠ .free → recByRef 1 (called (recIn st x .stopped) { active 2 with state := .held }) = some 0) ∧
    (let s := called { recIn .active .hold .stopped with partner := some 1 } { active 2 with state := .held, exch := .swapWait, partner := some 0 };
      Calm s ∧ recByRef 1 s = some 0) ∧
    (let s := called (active 1) (active 2);
      recByRef 9 s = none ∧ (s.calls.recs[(2 : Fin 4)]).state = .free ∧
        (∀ q : Fin 4, q < 2 → (s.calls.recs[q]).state ≠ .free) ∧ Calm s) ∧
    (let s := withRec 2 (active 3) (withRec 3 (active 4) (called (active 1) (active 2)));
      (∀ r : Fin 4, (s.calls.recs[r]).state ≠ .free) ∧ Calm s) ∧
    digitsValid 0 [] = true ∧ digitsValid 0 (List.replicate 24 11) = true ∧ recByRef 1 (part .connected) = none ∧
    recByRef 255 (part .camped) = none :=
  ⟨by intro st x h; cases st <;> cases x <;> revert h <;> decide, ⟨calm_of (by decide), by decide⟩,
    ⟨by decide, by decide, by decide, calm_of (by decide)⟩, ⟨by decide, calm_of (by decide)⟩, by decide, by decide, by decide, by decide⟩

/-- A part with a call record that dials, its dial string being read or not, at a setup stage. -/
def dialing (reading : Bool) (g : Stage) (t : Timer) : State :=
  called { recIn .dialing .none t with reading := reading, stage := g } CallRec.initial

/-- The bytes of a call record with a dial string. -/
def dialed (d : List Digit) : List Byte := 0 :: (digitsBytes d ++ List.replicate 50 0)

theorem test_hyps_callTimers :
    Calm (dialing true .notPlaced (.running 9)) ∧ (dialing true .notPlaced (.running 9)).mem.inFlight = [] ∧
    (∀ g ∈ [Stage.notPlaced, .sent], Calm (dialing false g .due)) ∧
    (let u := dialing true .notPlaced (.running 9);
      let line (d : List Digit) := composeLine (fitTo 64 (dialed d)) (upperLayers u.mem 70)
      digitsOf (line [1, 2, 11]) 1 = some [1, 2, 11] ∧ digitsOf (line []) 1 = some [] ∧ digitsOf (line [12]) 1 = none) ∧
    occupancy ((part .connected).events.producer + 1) (part .connected).events.consumer < (part .connected).bind.capacity :=
  ⟨calm_of (by decide), by decide, by
      intro g hg
      simp only [List.mem_cons, List.not_mem_nil, or_false] at hg
      rcases hg with h | h <;> subst h <;> exact calm_of (by decide),
    by decide, by decide⟩

/-- A part with a speaking record, its speech indices and its fetch. -/
def speaking (f : Fetch) (stale : Bool) (down : Byte) : State :=
  let s := called (active 1) CallRec.initial
  { s with speech := { s.speech with speaking := some 0, upProd := 3, fetch := f, fetchStale := stale, downProd := down } }

theorem test_hyps_speech :
    (∀ d ∈ [0, 7, 8], Calm (speaking .idle false d)) ∧ downOccupancy (speaking .idle false 7).speech < 8 ∧
    8 ≤ downOccupancy (speaking .idle false 8).speech ∧ (speaking .idle false 0).speech.speaking ≠ none ∧
    (part .connected).speech.speaking = none ∧ occupancy 8 (speaking .idle false 0).speech.upCons ≤ 8 ∧
    8 < occupancy 9 (speaking .idle false 0).speech.upCons ∧
    (∀ f ∈ [Fetch.idle, .late, .fetching 7], ∀ b, Calm (speaking f b 0) ∧ (speaking f b 0).mem.inFlight = [] ∧ Room 1 (speaking f b 0)) ∧
    (part .connected).speech.upCons = (part .connected).speech.upProd ∧
    (speaking .idle false 0).speech.upCons ≠ (speaking .idle false 0).speech.upProd :=
  ⟨by
      intro d hd
      simp only [List.mem_cons, List.not_mem_nil, or_false] at hd
      rcases hd with h | h | h <;> subst h <;> exact calm_of (by decide),
    by decide, by decide, by decide, by decide, by decide, by decide,
    by
      intro f hf b
      simp only [List.mem_cons, List.not_mem_nil, or_false] at hf
      rcases hf with h | h | h <;> subst h <;> cases b <;> exact ⟨calm_of (by decide), by decide, room_of (by decide)⟩,
    by decide, by decide⟩

/-! ## Texts -/

/-- A part with the first descriptor SENDING as given, the reads and the retry timer as given. -/
def texting (x : Send) (n : Nat) (retry : Timer) : State :=
  let s := withConn (fun c => { c with inactTimer := .stopped }) (part .connected)
  { s with texts := { s.texts with
    send := some x, prod := 1, retryTimer := retry
    descs := s.texts.descs.set 0 { state := .sending, attempts := n, fail := none, ref := 0 } } }

theorem test_hyps_outboxNotices :
    let s := texting sending 0 .stopped
    let q := { s with texts := { s.texts with
      prod := 2, descs := s.texts.descs.set 1 { state := .queued, attempts := 0, fail := none, ref := 0 } } }
    (occupancy 17 s.texts.retire = 17 ∧ occupancy 16 s.texts.retire = 16 ∧ occupancy 0 s.texts.retire < occupancy s.texts.prod s.texts.retire) ∧
    Calm s ∧ s.texts.send = some sending ∧ sending.status = .awaiting ∧ occupancy s.texts.prod s.texts.retire < 16 ∧
    Calm q ∧ (q.texts.descs[(1 : Fin 16)]).state = .queued ∧ q.texts.send.isSome = true ∧
    (part .connected).texts.retryTimer.runs = false ∧ (part .connected).texts.send = none ∧
    ((part .connected).texts.descs[(15 : Fin 16)]).state = .none :=
  ⟨by decide, calm_of (by decide), by decide, by decide, by decide, calm_of (by decide), by decide, by decide, by decide, by decide,
    by decide⟩

/-- The bytes of an outbox descriptor with an address, a length and a destination. -/
def described (address : Word) (length : Half) (d : List Digit) : List Byte :=
  le32 address ++ le16 length ++ [0] ++ digitsBytes d ++ List.replicate 40 0

theorem test_hyps_outboxSending :
    let r := { sending with status := .reading }
    let u := texting r 0 .stopped
    let line (a : Word) (n : Half) (d : List Digit) := composeLine (fitTo 64 (described a n d)) (upperLayers u.mem 90)
    Calm u ∧ u.mem.inFlight = [] ∧ u.texts.send = some r ∧ r.desc = descOf u.texts.retire ∧ u.texts.prod = u.texts.retire + 1 ∧
    (wordOf (line 0x9000 64 [1]) 0 = 0x9000 ∧ halfOf (line 0x9000 64 [1]) 4 = 64 ∧ digitsOf (line 0x9000 64 [1]) 7 = some [1]) ∧
    (digitsOf (line 0x9000 640 []) 7 = some [] ∧ digitsOf (line 0x9000 1 [15]) 7 = none) ∧
    (halfOf (line 0x9000 641 [1]) 4 = 641 ∧ halfOf (line 0x9000 0 [1]) 4 = 0 ∧
      0x100000000 < (wordOf (line 0xFFFFFFFF 2 [1]) 0).toNat + (halfOf (line 0xFFFFFFFF 2 [1]) 4).toNat) ∧
    occupancy (u.events.producer + 1) u.events.consumer < u.bind.capacity ∧ r.lines = [] ∧ 1 ≤ r.length ∧
    r.address.toNat % 64 + r.length ≤ 64 :=
  ⟨calm_of (by decide), by decide, by decide, by decide, by decide, by decide, by decide, by decide, by decide, by decide, by decide,
    by decide⟩

theorem test_hyps_acknowledgement :
    (∀ n ∈ [0, 1, 2], ∀ b, Calm (texting { sending with ackTimer := .due, cancel := b, count := 4 } n .due)) ∧
    (let s := texting { sending with ackTimer := .due, count := 4 } 2 .due;
      s.texts.retryTimer = .due ∧ min 3 ((s.texts.descs[(0 : Fin 16)]).attempts + 1) = 3 ∧ sending.desc = descOf s.texts.retire ∧
        s.texts.prod = s.texts.retire + 1) ∧
    min 3 (((texting sending 1 .stopped).texts.descs[(0 : Fin 16)]).attempts + 1) < 3 ∧ sending.cur + 1 = sending.count ∧
    (0 : Byte).toNat = sending.cur :=
  ⟨by
      intro n hn b
      simp only [List.mem_cons, List.not_mem_nil, or_false] at hn
      rcases hn with h | h | h <;> subst h <;> cases b <;> exact calm_of (by decide),
    by decide, by decide, by decide, by decide⟩

/-- A connected part with reassembly contexts, reservations, a number of delivered texts and the inbox-full flag. -/
def inboxed (c : List Ctx) (r : List Resv) (n : Byte) (full : Bool) : State :=
  let s := withConn (fun x => { x with inactTimer := if c = [] then x.inactTimer else .stopped }) (part .connected)
  { s with texts := { s.texts with ctxs := c, resv := r, inProd := n, full := full, recent := [([9], 9)] } }

/-- A context of a text of four segments. -/
def context (got : List Nat) (ring : Byte) (t : Timer) : Ctx :=
  { sender := [1], ref := ring, count := 4, got := got, length := 160 * got.length, ring := ring, start := 0, timer := t }

def resvOf (ring : Byte) : Resv := { ring := ring, finish := .open_ }

theorem test_hyps_inboxConsumer :
    (∀ b, Calm (inboxed [] [] 8 b)) ∧ occupancy 8 0 ≤ occupancy 8 0 ∧ occupancy 8 0 < occupancy 9 0 ∧
    (8 : Byte) ≠ (inboxed [] [] 8 true).texts.inCons :=
  ⟨by intro b; cases b <;> exact calm_of (by decide), by decide, by decide, by decide⟩

theorem test_hyps_segments :
    let full := (List.range 4).map (fun i => context [0] (BitVec.ofNat 8 i) (.running 9))
    let one := inboxed [context [0] 0 (.running 9)] [resvOf 0] 0 false
    airValid (.textSegment 0 [1] 3 4 [1]) = true ∧ airValid (.textSegment 0 [1] 0 4 (List.replicate 160 1)) = true ∧
    airValid (.textSegment 0 [1] 0 4 [1]) = true ∧
    (Calm (inboxed full (full.map (fun c => resvOf c.ring)) 0 false) ∧ 4 ≤ full.length) ∧
    (∀ b, Calm (inboxed [] [] 8 b) ∧ freeSlots (inboxed [] [] 8 b).texts = 0) ∧
    (Calm one ∧ one.texts.ctxs.find? (fun c => c.sender == [1] && c.ref == 0) = some (context [0] 0 (.running 9)) ∧
      0 ∈ (context [0] 0 .stopped).got) ∧
    (([9], 9) ∈ one.texts.recent ∧ ([1], 0) ∉ one.texts.recent) :=
  ⟨by decide, by decide, by decide, ⟨calm_of (by decide), by decide⟩,
    by intro b; cases b <;> exact ⟨calm_of (by decide), by decide⟩, ⟨calm_of (by decide), by decide, by decide⟩, by decide⟩

theorem test_hyps_reassembly :
    freeSlots (inboxed [] [] 7 false).texts ≠ 0 ∧ Calm (inboxed [] [] 7 false) ∧
    (context [0, 1, 2] 7 .due).got.length + 1 = (context [0, 1, 2] 7 .due).count ∧
    (context [0, 1] 7 .due).got.length + 1 < (context [0, 1] 7 .due).count ∧
    (∀ t ∈ [Timer.running 1, .due], Calm (inboxed [context [0, 1, 2] 7 t] [resvOf 7] 7 false)) ∧
    occupancy ((part .connected).events.producer + 1) (part .connected).events.consumer < (part .connected).bind.capacity :=
  ⟨by decide, calm_of (by decide), by decide, by decide, by
      intro t ht
      simp only [List.mem_cons, List.not_mem_nil, or_false] at ht
      rcases ht with h | h <;> subst h <;> exact calm_of (by decide),
    by decide⟩

/-! ## The radio link -/

/-- A message in the air. -/
def flying (m : AirMsg) (attempts : Nat) : QMsg := { id := 0, msg := m, inFlight := true, place := 0, attempts := attempts }

theorem test_hyps_sigSent :
    let areaWait := withConn (fun c => { c with
      areaMsg := some 0, purposes := [.area], awaited := some 5, inactTimer := .stopped }) (celled .connected)
    let detaching := withConn (fun c => { c with detachMsg := some 0, shutdown := some .locl, shutTimer := .running 9 }) (part .camped)
    let setup := called { recIn .dialing .none (.running 9) with stage := .placed, setupMsg := some 0 } CallRec.initial
    let exch := called { recIn .active .hold .stopped with exchMsg := some 0 } CallRec.initial
    let placed := { sending with status := .placed 0 }
    (Calm areaWait ∧ areaWait.conn.areaMsg = some 0) ∧
    (Calm detaching ∧ detaching.conn.detachMsg = some 0 ∧ detaching.conn.areaMsg ≠ some 0 ∧ detaching.conn.shutdown.isSome = true) ∧
    (Calm setup ∧ recWith CallRec.setupMsg 0 setup = some 0) ∧
    (Calm exch ∧ recWith CallRec.setupMsg 0 exch = none ∧ recWith CallRec.exchMsg 0 exch = some 0) ∧
    (Calm (texting placed 0 .stopped) ∧ placed.msgId = some 0 ∧ segmentIs 0 (part .connected) = false) ∧
    ((part .connected).mob.confirmMsg ≠ some 0 ∧ recWith CallRec.exchMsg 0 (part .connected) = none) ∧
    [AirMsg.levelReport [], .detach, .ringing 1, .inboxFull].map msgJob = [.mob, .conn, .calls, .texts] :=
  ⟨⟨calm_of (by decide), by decide⟩, ⟨calm_of (by decide), by decide, by decide, by decide⟩, ⟨calm_of (by decide), by decide⟩,
    ⟨calm_of (by decide), by decide, by decide⟩, ⟨calm_of (by decide), by decide, by decide⟩, by decide, by decide⟩

theorem test_hyps_timeouts :
    (∀ n ∈ [0, 1, 2], Calm (withLink (fun l => { l with opListen := .due, unanswered := n }) (part .noService))) ∧
    (flying .inboxFull 1).attempts < 2 ∧ msgJob (flying .inboxFull 2).msg = .texts ∧
    segmentIs (flying .inboxFull 2).id (part .noService) = false ∧ (part .noService).link.op .listen ≠ .due :=
  ⟨by
      intro n hn
      simp only [List.mem_cons, List.not_mem_nil, or_false] at hn
      rcases hn with h | h | h <;> subst h <;> exact calm_of (by decide),
    by decide, by decide, by decide, by decide⟩

theorem test_hyps_frames :
    airDecode [] = none ∧ airDecode [0x20, 0, 1, 0, 0, 0, 0] = none ∧ (byteOf [0x80, 0, 1, 2] 0).toNat < 0x81 ∧
    0x88 < (byteOf [0x89, 0, 1, 2] 0).toNat ∧ digitsValid 0 [0, 11] = true ∧ airValid (.textSegment 255 [1] 3 4 [1]) = true := by decide

/-! ## One step of some commands -/

/-- The state a command leaves. -/
def run (c : Instr) (s : State) : State :=
  match exec c s with
  | .next t => t
  | _ => s

theorem test_write_then_accept :
    (run (.processorWrite 3 9 [(63, 7), (0, 5)]) State.reset).mem.accept.map (·.line) = [9] ∧
    (run .hostWriteAccept (withMem (fun m => { m with accept := [writeOf 9 [(0, 5)]] }) State.reset)).out.answers =
      [.writeDone 5 false] := by decide

theorem test_grant : (run (.arbiterGrant false)
    (withMem (fun m => { m with reads := [readOf 9 .needsDram] }) State.reset)).out.mem = [.read 9] := by decide

theorem test_read_answered :
    let s := withMem (fun m => { m with
      reads := [readOf 9 .inFlight], inFlight := [.read 0 9]
      queue := [{ entryAt 9 false with bytes := [(1, 7, .host)] }] }) State.reset
    ((run (.hostReadDone 3 [1, 2, 3] false) s).out.answers.map (fun a => match a with
      | .readData t e d => (t, e, d.take 4)
      | .writeDone t e => (t, e, []))) = [(3, false, [1, 7, 3, 0])] := by decide

theorem test_enable_starts_capture : (run (.enableWordWrite 1) State.reset).bind.state = .capturing ∧
    (run (.enableWordWrite 1) State.reset).mem.reads.length = 4 := by decide

theorem test_radio_on : (run (.radioRequest 1) (celled .off)).conn.state = .noService ∧
    (run (.radioRequest 1) (celled .off)).out.link = [.tuneMon 10] := by decide

theorem test_listen_sent : (run (.frameStrobe 0) { part .camped with frame := 5 }).out.link = [.listen 7 7] ∧
    (run (.frameStrobe 0) { part .camped with frame := 6 }).out.link = [] := by decide

theorem test_offer : ((run (.offer 9 [1, 2]) (part .connected)).calls.recs[(0 : Fin 4)]).state = .incoming ∧
    (run (.offer 0 [1]) (part .connected)).calls = (part .connected).calls := by decide

theorem test_text_acknowledged : ((run (.segmentAck 0 0 .ok) (texting sending 0 .stopped)).texts.descs[(0 : Fin 16)]).state = .sent := by
  decide

theorem test_sleep_request : (run (.sleepRequest 1) (part .camped)).sleep.level = .quiescing ∧
    (run (.sleepRequest 1) busy).sleep.last = some .busyCall := by decide

theorem test_frame_of_page : (frameOf 0x82 [1, 1]).take 4 = [0x82, 2, 1, 1] ∧ (frameOf 0x82 [1, 1]).length = 6 ∧
    frameDecode (frameOf 0x82 [1, 1]) = some (.listenDone .pageCall) := by decide

/-- The spec's binding sequence, steps 2 and 6 (01, A binding sequence). -/
theorem test_spec_binding :
    let c (event : Word) : Captured := { layout with
      capacity := 32, table := (layout.table.set 5 (0x02001000, 6208)).set 6 (event, 576) }
    validate 1 (c 0x02002000) = some (.overlap, some .inbox) ∧ validate 1 (c 0x02003000) = none := by decide

/-- The spec's partial write and read, steps 4, 7 and 9 (02, A partial write and a read). -/
theorem test_spec_partial_write :
    let line := 0x04001240 / 64
    let e (start n : Nat) (b : Byte) (draining : Bool) : QEntry := { entryAt line draining with
      bytes := (List.range n).map (fun k => (start + k, b, .host)), age := 0 }
    let s (r : ReadStatus) (x : QEntry) (ins : List Access) := withMem (fun m => { m with
      reads := [{ readOf line r with for_ := .host 5 }], queue := [x], inFlight := ins, count := 1 }) (part .camped)
    let w (x : QEntry) := withMem (fun m => { m with accept := [writeOf line (bytesAt 4 (List.replicate 8 0xB))] })
      (s .inFlight x [.drain line])
    ((run (.arbiterGrant false) (s .inFlight (e 0 8 0xA false) [.read 0 line])).mem.queue = [e 0 8 0xA true] ∧
      (run (.arbiterGrant false) (s .inFlight (e 0 8 0xA false) [.read 0 line])).mem.count = 0) ∧
    run .hostWriteAccept (w (e 0 8 0xA true)) = w (e 0 8 0xA true) ∧
    (run (.hostReadDone 5 (List.replicate 64 7) true) (s .inFlight (e 4 8 0xB false) [.read 0 line])).out.answers =
      [.readData 5 true (List.replicate 4 0 ++ List.replicate 8 0xB ++ List.replicate 52 0)] := by decide

/-! ## The clauses about the operations behind the commands: states that meet their hypotheses -/

theorem test_hyps_uplink :
    let s := speaking .idle false 0
    let with_ (p : Speech → Speech) := { s with speech := p s.speech }
    (part .camped).speech.speaking = none ∧ ({ s with frame := 1 }).frame.toNat % 2 = 1 ∧ portOpen s = true ∧
    (s.speech.speaking = some 0 ∧ s.frame.toNat % 2 = 0 ∧ (with_ (fun p => { p with switchOn := true })).speech.switchOn = true) ∧
    (s.speech.switchOn = false ∧ s.conn.state = .connected ∧ s.link.up = true ∧ s.speech.fetch = .idle ∧
      s.speech.upProd ≠ s.speech.upCons ∧ headerWaits s = false) ∧
    (speaking .late false 0).speech.fetch ≠ .idle ∧ (with_ (fun p => { p with upProd := 0 })).speech.upProd = 0 ∧
    headerWaits (withMem (fun m => { m with waits := [{ job := .speech, since := 0, acts := [.speechHeader true false] }] }) s) = true ∧
    (withConn (fun c => { c with state := .reestablishing }) s).conn.state ≠ .connected := by decide

theorem test_hyps_completeRead :
    let s (st : ReadStatus) (ins : List Access) := withMem (fun m => { m with reads := [readOf 9 st], inFlight := ins }) (part .camped)
    (readOf 9 (.composed [1])).status = .composed [1] ∧ nextOfLine (s .inFlight [.read 0 9]).mem (.read 0 9) = true ∧
    nextOfLine (s .inFlight [.drain 9, .read 0 9]).mem (.read 0 9) = false ∧ (readOf 9 .waiting).status = .waiting ∧
    (readOf 9 .needsDram).status = .needsDram ∧ dueRead (· == .host 3) 9 (s .inFlight []).mem = some (readOf 9 .inFlight) := by decide

theorem test_hyps_rejectedStatus : internalTakes (statusHead .rejected .rejected).mem (ownOf .rejected 9 [(0, 1)]) = true ∧
    Resting (statusHead .rejected .rejected) ∧ (statusHead .rejected .rejected).mem.reads = [] :=
  ⟨by decide, resting_of (by decide), by decide⟩

theorem test_hyps_turns :
    let a (v : Byte) : Act := .write (writeAt (part .camped) .plan 1 [(0x10, v)])
    let first : Wait := { job := .conn, since := 0, acts := [a 2, a 3] }
    let second : Wait := { job := .cells, since := 1, acts := [a 2] }
    let s (n : Nat) (ws : List Wait) := withMem (fun m => { m with
      clock := 5, waits := ws, accept := List.replicate n (ownOf .none 9 [(0, 1)]) }) (part .camped)
    let t := s 15 [first, second]
    (t.mem.waits.find? (fun v => v.job == .conn) = some first ∧ (∀ v ∈ t.mem.waits, first.since ≤ v.since) ∧
      internalCount t.mem < 16) ∧
    ((a 2).places = true ∧ 16 ≤ internalCount (s 16 []).mem ∧ (∀ v ∈ t.mem.waits, v.job ≠ .sleep) ∧ Act.places .wakeMark = false) ∧
    (steady t = true ∧ t.events.pending = [] ∧ t.events.owed = none ∧ t.link.queue = [] ∧ t.mem.readWaits = [] ∧
      t.sleep.wakeAfter = none ∧ t.sleep.level ≠ .roused ∧ t.conn.inactTimer.runs = connIdle t ∧ second.job ≠ .conn ∧
      second.since < t.mem.clock ∧ first.since ≤ second.since) ∧
    ((writeAt (part .camped) .plan 1 []).bytes = [] ∧ (writeAt (part .camped) .plan 1 [(0x10, 2)]).bytes ≠ [] ∧
      t.mem.waits = [first] ++ second :: [] ∧ ∀ x ∈ [first] ++ ([] : List Wait), x.job ≠ .cells) := by decide

theorem test_hyps_drainWaits :
    let s := withMem (fun m => { m with
      queue := [entryAt 40 true], inFlight := [.drain 40], accept := [writeOf 40 [(0, 1)]]
      stage := [{ line := 40, bytes := [(0, 1)], pub := 0 }] }) (part .camped)
    nextOfLine s.mem (.drain 40) = true ∧ headTakes s = false ∧ s.mem.accept = writeOf 40 [(0, 1)] :: [] ∧
      ((run (.drainDone 40) s).mem.stage, (run (.drainDone 40) s).mem.accept) = ([], []) := by decide

theorem test_hyps_concerned :
    let s (b : BindState) := { part .camped with bind := { (part .camped).bind with state := b } }
    let line := 0x1000 / 64
    let t := withMem (fun m => { m with accept := [writeOf line [(0, 1)]] }) (part .camped)
    (t.bind.locate line = some (.plan, 0) ∧ hostTakes t line [(0, 1)] = true ∧ State.reset.bind.locate line = none) ∧
    ((ignored .anchor 0 [(0, 1)] (s .bound)).events.producer = 1 ∧ (ignored .plan 1 [(4, 1)] (s .bound)).events.producer = 1 ∧
      (ignored .plan 1 [(4, 1)] (s .unbinding)).events.producer = 0 ∧ (ignored .anchor 0 [(4, 1)] (s .unbinding)).events.producer = 1 ∧
      (ignored .anchor 0 [(4, 2), (5, 0), (6, 0), (7, 0)] (s .bound)).events.producer = 1 ∧
      (ignored .anchor 0 [(4, 0), (5, 0), (6, 0), (7, 0)] (s .bound)).events.producer = 0 ∧
      (ignored .anchor 1 [(63, 0)] (s .unbinding)).events.producer = 1 ∧ (ignored .plan 0 [(63, 0)] (s .bound)).events.producer = 0) := by
  decide

theorem test_hyps_regionValues :
    let r : ReadEntry := { readOf 9 .inFlight with for_ := .region 3 }
    let plan1 : List Byte := le16 128 ++ le16 7 ++ le16 200 ++ le16 10 ++ [3, 16, 4, 0] ++ le16 0xFF9C ++ le16 0 ++ List.replicate 48 0
    let cell0 : List Byte := [1, 0] ++ le16 4095 ++ le16 600 ++ le16 9 ++ List.replicate 56 0
    let s := capturing (.region 3) 9 [] ([(1, plan1), (2, cell0)] ++
      (([0] ++ (List.range 15).map (· + 4)).map (fun k => (k, List.replicate 64 0)))) 19
    let t := run (.regionReadDone 3 ⟨9, []⟩ false) s
    dueRead (fun f => f == .region 3) 9 s.mem = some r ∧ nextOfLine s.mem (.read 0 9) = true ∧ s.bind.regionLines.length + 1 = 19 ∧
    (t.sleep.base, t.sleep.ceiling, t.conn.inactTime, t.mob.holdLen) = (128, 256, 200, 10) ∧
    (t.mob.margin, t.mob.reselMargin, t.mob.reselRounds, t.conn.campThr, t.conn.lossThr) = (3, 4, 4, -100, -115) ∧
    (t.cells.slots[(0 : Fin 13)]) = { Slot.initial with inUse := true, carrier := 4095, area := 9 } ∧
    (takeSleepParam .base 7 s.sleep = none ∧ takeConnParam .lossThreshold 0 s.conn = none ∧
      takeMobParam .reselectMargin 16 s.mob = none ∧ cellWordOk .cellCode 512 = false) := by decide

theorem test_hyps_placing :
    let e := event (part .camped) .line .none 0 0 0 0 0
    let s (n : Nat) (p : Byte) (l : List Event) := withMem (fun m => { m with accept := List.replicate n (ownOf .none 9 [(0, 1)]) })
      { part .camped with events := { (part .camped).events with pending := l, producer := p } }
    State.reset.events.running = false ∧ ((s 0 0 (List.replicate 16 e)).events.running = true ∧
      16 ≤ (s 0 0 (List.replicate 16 e)).events.pending.length) ∧ (s 0 0 [e]).events.pending.length < 16 ∧
    mayPlace { part .camped with events := { (part .camped).events with running := false } } = false ∧ (mayPlace (s 16 0 [e]) = true ∧
      16 ≤ internalCount (s 16 0 [e]).mem) ∧
    (mayPlace (s 0 16 [e]) = true ∧ (s 0 16 [e]).mem.waits = [] ∧
      (s 0 16 [e]).bind.capacity ≤ occupancy (s 0 16 [e]).events.producer (s 0 16 [e]).events.consumer) ∧
    (@decide _ (decRoom 2 (s 0 0 [e])) = true ∧ (s 0 0 [e]).events.owed = none ∧
      occupancy (s 0 0 [e]).events.producer (s 0 0 [e]).events.consumer < (s 0 0 [e]).bind.capacity) ∧
    (noticeOpen (s 0 1 []) = true ∧ (1 - 0 : Byte).toNat ≤ ((s 0 1 []).events.producer - 0).toNat) := by decide

theorem test_hyps_primaryCause :
    let s (l : Level) := sleepingAt l .none .active
    ((s .awake).sleep.level = .awake ∧ (s .resuming).sleep.level = .resuming) ∧ (sleepingAt .quiescing .draining .active).sleep.phase = .draining ∧
    (sleepingAt .quiescing .waitingGrant .active).sleep.phase ≠ .draining ∧ (s .deep).sleep.level = .deep ∧ (s .roused).sleep.level = .roused ∧
    (sleepingAt .deep .none .selfRefresh).mem.memState = .selfRefresh ∧ (sleepingAt .roused .none .exiting).mem.memState = .exiting ∧
    portOpen (s .deep) = true ∧ tagBusy 3 (s .deep) = false ∧ jobsRun State.reset = false ∧ jobsRun (s .deep) = true := by decide

theorem test_hyps_writeBack :
    let s (w : WriteBack) (d : List DirtyLine) (n : Nat) (l : List Event) :=
      let t := sleepingAt .awake .none .active
      withMem (fun m => { m with accept := List.replicate n (ownOf .none 9 [(0, 1)]) }) { t with
        sleep := { t.sleep with writeBack := w, dirty := d, wakeAfter := some 3 }
        events := { t.events with pending := l, handed := true } }
    let e := event (part .camped) .line .none 0 0 0 0 0
    let u := s (.lines true) [.slot 3, .plan true] 0 []
    (u.sleep.dirty ≠ [] ∧ DirtyLine.plan true ∈ u.sleep.dirty ∧ u.mem.waits = [] ∧ internalCount u.mem < 16 ∧
      ∀ x ∈ u.sleep.dirty, x ≠ .plan true → ((DirtyLine.plan true).write u).line < (x.write u).line) ∧
    16 ≤ internalCount (s (.lines true) [.header] 16 []).mem ∧
    eventsDone (placeEvents (s (.events true) [] 16 [e])) = false ∧ eventsDone (placeEvents (s (.events false) [] 0 [e])) = true ∧
    eventsDone (placeEvents (s .wakeEvent [] 16 [e])) = false ∧ eventsDone (placeEvents (s .wakeEvent [] 0 [])) = true ∧
    ((∃ w ∈ (s .none [] 1 []).mem.accept, w.isHost = false ∧ w.joined < 3) ∧ ∀ w ∈ (s .none [] 0 []).mem.accept, 3 ≤ w.joined) ∧
    (DirtyLine.header ∉ u.sleep.dirty) := by decide

theorem test_hyps_rounds :
    let s := celled .connected
    let on (c : Option Half) (r : Bool) := withCells (fun x => { x with lastCarrier := c, residue := r }) s
    ((on (some 10) true).cells.lastCarrier = some (s.cells.slots[(0 : Fin 13)]).carrier ∧ (on none false).cells.lastCarrier ≠ some 10) ∧
    (nextSlot s .serving = some (0, true) ∧ nextSlot s (.after (some 0) none) = some (12, false) ∧ nextSlot s (.after none (some 12)) = none) ∧
    (∀ b, let t := withCells (fun x => { x with paced := b }) s;
      roundOpen t = true ∧ t.cells.phase = .idle ∧ t.cells.round = none ∧ t.cells.paced = b) ∧
    (let t := withCells (fun x => { x with round := some (.after (some 0) none) }) s;
      roundOpen t = true ∧ nextSlot t (.after (some 0) none) = some (12, false)) ∧
    ((cell 1 (-80)).samples ≠ [] ∧ Slot.initial.samples = [] ∧ Slot.initial.missed < 2 ∧ 2 ≤ { Slot.initial with missed := 2 }.missed) ∧
    (bestSlot s (fun _ => true) = some 0 ∧ bestSlot (part .camped) (fun _ => true) = none) := by decide

theorem test_hyps_measureResidue :
    let u := celled .noService
    Calm u ∧ nextSlot (withCells (fun c => { c with round := some .serving, roundTimer := .running u.sleep.base }) u) .serving =
      some (0, false) ∧ nextSlot { celled .camped with
        cells := { (celled .camped).cells with round := some .serving } } .serving = some (0, true) ∧
    (celled .camped).sleep.quiet < 15 ∧ (celled .camped).conn.state ≠ .off :=
  ⟨calm_of (by decide), by decide, by decide, by decide, by decide⟩

theorem test_hyps_purposes :
    let s (st : ConnState) := celled st
    (.area ∉ (s .camped).conn.purposes ∧ (s .camped).conn.shutdown = none ∧ (s .off).conn.state = .off) ∧
    (servingSlot (s .camped) = some (cell 10 (-80)) ∧ servingSlot (part .camped) = none) ∧
    ((s .noService).sleep.level ≠ .deep ∧ (sleepingAt .deep .none .selfRefresh).sleep.level = .deep) ∧
    (let p := publication 1 [20];
      stageFits (s .noService).mem p.images = true ∧ (withMem (fun m => { m with pubs := [p] }) (s .noService)).mem.pubs ≠ []) := by decide

theorem test_hyps_switchOutcome :
    let w : SwRec := { kind := .handover, old := some 0, target := 12 }
    let s (st : ConnState) (stale : Bool) := withLink (fun l => { l with opSwitch := .running 4 })
      (withMob (fun m => { m with state := .fallback, switch := some w, stale := stale }) (celled st))
    (linkOpen (s .connected false) = true ∧ (s .connected false).link.opSwitch.runs = true) ∧ (s .connected true).mob.stale = true ∧
    ((s .connected false).mob.stale = false ∧ (s .connected false).mob.switch = some w ∧ (s .connected false).conn.state = .connected ∧
      (s .camped false).conn.state = .camped ∧ (s .noService false).conn.state ≠ .connected) := by decide

theorem test_hyps_reselect :
    let near (l : Int) (k : Nat) := withMob (fun m => { m with slots := m.slots.set 12 { hold := .stopped, matured := false, better := k } })
      (withCells (fun c => { c with slots := c.slots.set 12 (cell 4095 l) }) (celled .camped))
    (bestSlot (setCounts (betterAfter (near (-50) 1)) (near (-50) 1)) (eligible (setCounts (betterAfter (near (-50) 1)) (near (-50) 1))) = some 12 ∧
      bestSlot (setCounts (betterAfter (near (-105) 1)) (near (-105) 1)) (eligible (setCounts (betterAfter (near (-105) 1)) (near (-105) 1))) = none) ∧
    (campChoice (near (-50) 0) true = some 12 ∧ campChoice (part .camped) true = none ∧ (near (-50) 0).mob.resel = false) ∧
    (linkOpen (near (-50) 0) = true ∧ (near (-50) 0).conn.shutdown = none ∧ switchOn (near (-50) 0) = false ∧
      (near (-50) 0).conn.state = .camped ∧ (near (-50) 0).sleep.level ≠ .deep) := by decide

theorem test_hyps_candidates :
    let s (l : Int) (c : Bool) := withCells (fun x => { x with slots := x.slots.set 12 { cell 4095 l with candidate := c } }) (celled .connected)
    (candidateNow (s (-50) false) 12 = true ∧ ((s (-50) false).cells.slots[(12 : Fin 13)]).candidate = false) ∧
    (candidateNow (s (-105) true) 12 = false ∧ ((s (-105) true).cells.slots[(12 : Fin 13)]).candidate = true) ∧
    candidateNow (s (-105) false) 12 = false := by decide

theorem test_hyps_callRequests :
    (let s := part .camped;
      Calm s ∧ s.conn.purposes = [] ∧ BitVec.ofNat 8 (s.calls.lastRef.toNat % 255 + 1) = 1 ∧ recByRef 1 s = none ∧
        claimElsewhere 3 s = false ∧ s.conn.shutdown = none) ∧
    (Calm (dialing false .notPlaced (.running 9)) ∧ ((dialing false .notPlaced (.running 9)).calls.recs[(0 : Fin 4)]).exch = .none ∧
      ((dialing false .sent (.running 9)).calls.recs[(0 : Fin 4)]).stage = .sent) ∧
    noticeOpen (part .camped) = true :=
  ⟨⟨calm_of (by decide), by decide⟩, ⟨calm_of (by decide), by decide⟩, by decide⟩

theorem test_hyps_dropCapture :
    let s := withMem (fun m => { m with reads := [{ readOf 9 .inFlight with for_ := .dial 0 }], inFlight := [.read 0 9] })
      (dialing true .sent (.running 9))
    let t := run (.ringing 1) s
    (linkOpen s = true ∧ recByRef 1 (activity s) = some 0 ∧ (s.calls.recs[(0 : Fin 4)]).state = .dialing ∧
      (s.calls.recs[(0 : Fin 4)]).reading = true) ∧
    (t.mem.reads.map (·.discard) = [true] ∧ (t.calls.recs[(0 : Fin 4)]).reading = false) ∧
    (dueRead (· == .dial 0) 9 t.mem).map (·.discard) = some true ∧ (run (.dialStringCaptured 0 ⟨9, []⟩ false) t).calls = t.calls := by decide

theorem test_hyps_swapTimer :
    let s := called { recIn .active .hold .due with partner := some 1 } { active 2 with state := .held, exch := .swapWait, partner := some 0 }
    Calm s ∧ (s.calls.recs[(0 : Fin 4)]).timer = .due ∧ (s.calls.recs[(0 : Fin 4)]).partner = some 1 :=
  ⟨calm_of (by decide), by decide, by decide⟩

/-! ## The wider clauses: states that meet their hypotheses, and what some steps leave -/

theorem test_hyps_bytesTaken :
    let e (d : Bool) : QEntry := { line := 9, bytes := [(0, 1, .host), (5, 2, .part)], draining := d, age := 0, speech := none }
    let m (q : List QEntry) : MemPath := { (part .camped).mem with
      queue := q, stage := [{ line := 9, bytes := [(0, 7), (6, 8)], pub := 1 }], pubs := [publication 2 [9]] }
    let h := takeHost 9 [(0, 3)] (m [e false])
    let t := takeInternal (ownOf .none 9 [(0, 3)]) (m [e true])
    (QueueLaw (m [e false]).queue ∧ ((m [e false]).stage.map (·.line)).Nodup ∧ queueTakes (m [e false]) 9 = true) ∧
    ((entryOf h 9).map (fun x => [0, 5, 6].map (bytesGet x.bytes)) = some [some (3, .host), some (2, .part), some (8, .part)] ∧
      stageOf h 9 = none) ∧
    (queueTakes (m [e true]) 9 = false ∧ internalTakes (m [e true]) (ownOf .none 9 [(0, 3)]) = true ∧
      (stageOf t 9).map (fun x => [0, 6].map (bytesGet x.bytes)) = some [some 3, some 8] ∧ stageOf (m []) 8 = none) ∧
    (t.pubs.map (·.images) = [[(9, [(0, 3)])]] ∧ internalTakes (m []) (ownOf .none 8 [(0, 3)]) = true) := by
  refine ⟨⟨?_, ?_⟩, ?_⟩
  · exact @of_decide_eq_true _ (by delta QueueLaw; infer_instance) (by decide)
  · decide
  · decide

theorem test_hyps_partOwned :
    partOwned .anchor 2 2 = true ∧ partOwned .anchor 2 3 = false ∧ partOwned .cell 1 0x15 = false ∧ partOwned .cell 1 0x1C = false ∧
    partOwned .outbox 1 0x38 = true ∧ partOwned .event 1 7 = false ∧ partOwned .speech 8 0 = false ∧ partOwned .speech 9 63 = true := by
  decide

theorem test_hyps_idle :
    let s := part .connected
    connIdle s = true ∧ s.conn.inactTimer.runs = true ∧ (withConn (fun c => { c with inactTimer := .stopped }) s).conn.inactTimer.runs = false ∧
    connIdle busy = false ∧ connIdle (part .camped) = false := by decide

theorem test_hyps_wholeText :
    let c1 : Ctx := { context [0, 1, 2] 1 .due with ref := 1 }
    let s := inboxed [context [0] 0 (.running 9), c1] [resvOf 0, resvOf 1] 0 false
    airValid (.textSegment 3 [1] 0 1 [1]) = true ∧ Calm (inboxed [] [] 7 false) ∧ (inboxed [] [] 7 false).texts.ctxs = [] ∧
    freeSlots (inboxed [] [] 7 false).texts ≠ 0 ∧
    (Calm s ∧ s.texts.ctxs.find? (fun c => c.sender == [1] && c.ref == 3) = none ∧ s.texts.ctxs.length < 4 ∧ freeSlots s.texts ≠ 0 ∧
      (∀ x ∈ s.texts.resv, x.ring ≠ s.texts.inProd + BitVec.ofNat 8 s.texts.resv.length) ∧ (resvOf 0).finish = .open_) ∧
    (s.texts.ctxs.find? (fun c => c.sender == [1] && c.ref == 1) = some c1 ∧ (3 : Byte).toNat ∉ c1.got ∧
      c1.got.length + 1 = c1.count ∧ (resvOf 0).ring ≠ c1.ring) ∧
    s.texts.ctxs.find? (fun x => x.ring == 1 && x.timer == .due) = some c1 ∧
    ((run (.textSegment 1 [1] 3 4 [1]) s).texts.inProd = 0 ∧
      (run (.textSegment 1 [1] 3 4 [1]) s).texts.resv.map (·.finish) = [.open_, .complete]) ∧
    { resvOf 0 with finish := .complete }.finish ≠ .open_ :=
  ⟨by decide, calm_of (by decide), by decide, by decide, ⟨calm_of (by decide), by decide⟩, by decide, by decide, by decide, by decide⟩

theorem test_hyps_releases :
    let held : CallRec := { active 2 with state := .held, exch := .swapWait, partner := some 0 }
    let swap := called { recIn .active .hold .stopped with partner := some 1 } held
    let wait := called { recIn .held .swapWait .stopped with partner := some 1 } { active 2 with exch := .hold, partner := some 0 }
    let u := called { recIn .dialing .none (.running 9) with stage := .placed, setupMsg := some 0 } CallRec.initial
    (Calm swap ∧ Calm wait ∧ Calm u) ∧
    ((run (.requestRelease 0) swap).link.queue.map (·.msg) = [.release 1 .locl, .resume 2] ∧
      ((run (.requestRelease 0) wait).calls.recs[(1 : Fin 4)]).partner = none) ∧
    (((run (.requestRelease 0) (onAir (flying (.setup 1 [1]) 0) (.running 2) u)).calls.recs[(0 : Fin 4)]).state = .releasing ∧
      ((u.calls.recs[(0 : Fin 4)]).setupMsg = some 0 ∧ (Timer.running 2).runs = true)) ∧
    ((u.calls.recs[(0 : Fin 4)]).state = .dialing ∧ (u.calls.recs[(0 : Fin 4)]).stage ≠ .sent ∧
      ∀ q ∈ u.link.queue, q.inFlight = true → (u.calls.recs[(0 : Fin 4)]).setupMsg ≠ some q.id) ∧
    ({ active 1 with pending := some .hold, reqCode := 9, result := .refusedUnknown }.free .locl).reqCode = 3 :=
  ⟨⟨calm_of (by decide), calm_of (by decide), calm_of (by decide)⟩, by decide, by decide, by decide, by decide⟩

theorem test_hyps_shutdown :
    let call := called (active 1) CallRec.initial
    let text := texting sending 0 .stopped
    let open_ := inboxed [context [0] 0 (.running 9)] [resvOf 0] 0 false
    (Calm call ∧ (∀ q : Fin 4, q ≠ 0 → (call.calls.recs[q]).state = .free) ∧ call.texts.send = none ∧ call.texts.resv = []) ∧
    (Calm text ∧ callsFree text = true ∧ text.texts.send = some sending ∧ text.texts.resv = []) ∧
    (Calm open_ ∧ callsFree open_ = true ∧ open_.texts.send = none ∧
      occupancy (open_.events.producer + 1) open_.events.consumer < open_.bind.capacity) ∧
    ((run (.radioRequest 0) call).link.queue.map (·.msg) = [.release 1 .locl, .detach] ∧
      (run (.radioRequest 0) call).out.link = [.sendSig .detach]) ∧
    (let lost := leaveService .radioFault true busy;
      (lost.calls.recs[(0 : Fin 4)]).endCause = some .radioFault ∧ (lost.texts.descs[(0 : Fin 16)]).attempts = 1 ∧
        lost.conn.state = .noService) ∧
    (jobsRun (part .reestablishing) = true ∧ (withConn (fun c => { c with reestTimer := .due }) (part .reestablishing)).conn.reestTimer = .due) :=
  ⟨⟨calm_of (by decide), by decide, by decide, by decide⟩, ⟨calm_of (by decide), by decide, by decide, by decide⟩,
    ⟨calm_of (by decide), by decide, by decide, by decide⟩, by decide, by decide, by decide⟩

theorem test_hyps_detachSent :
    let q := flying .detach 0
    let s := part .camped
    let u := withConn (fun c => { c with shutdown := some .unbind, detachMsg := some 0, shutTimer := .running 9 }) { s with
      bind := { s.bind with state := .unbinding, unbindTimer := .running 9 }
      link := { s.link with opSendSig := .running 2, queue := [q] } }
    (Resting u ∧ Room 1 u) ∧ (jobsRun u = true ∧ u.link.opSendSig.runs = true ∧ linkOpen u = true ∧ u.conn.areaMsg = none ∧
      u.link.queue.find? (·.inFlight) = some q ∧ msgJob q.msg = .conn ∧ u.conn.detachMsg = some q.id) ∧
    ((run .sigSent u).bind.ending = true ∧ (run .sigSent u).conn.state = .off) :=
  ⟨⟨resting_of (by decide), room_of (by decide)⟩, by decide, by decide⟩

theorem test_hyps_confirming :
    let q := flying .transferDone 0
    let w : SwRec := { kind := .handover, old := some 0, target := 12 }
    let s (b : Bool) := withMob (fun m => { m with state := .switching, confirming := b, confirmMsg := some 0, switch := some w })
      (celled .connected)
    (msgJob q.msg = .mob ∧ (s true).mob.report = false ∧ (s true).mob.confirmMsg = some q.id ∧ (s true).mob.switch = some w) ∧
    ((toldSent q (s false)).mob.state = .switching ∧ (toldDropped q (s true)).mob.state = .fallback ∧
      (endSwitch (s true)).mob.confirmMsg = none) ∧
    (withMob (fun m => { m with state := .rebuilding }) (s true)).mob.state = .rebuilding := by decide

theorem test_hyps_bodies :
    let x : Send := { sending with status := .reading, length := 100, address := 0x9010, lines := [(1, List.replicate 64 7)] }
    let u := texting x 0 .stopped
    let r (f : ReadFor) (d q : Bool) : ReadEntry := { readOf 70 .inFlight with for_ := f, discard := d, quiet := q }
    let s (e : ReadEntry) := withMem (fun m => { m with reads := [e], inFlight := [.read 0 70] }) u
    (Calm u ∧ u.mem.inFlight = [] ∧ (x.address.toNat + x.length - 1) / 64 - x.address.toNat / 64 + 1 = 2) ∧
    (x.lines ++ [(0, List.replicate 64 5)]).Perm ((List.range 2).zip [List.replicate 64 5, List.replicate 64 7]) ∧
    (((run (.bodyReadDone 0 ⟨70, []⟩ false) (s (r (.body 0) false false))).texts.send.map (·.count)) = some 1 ∧
      (run (.bodyReadDone 0 ⟨70, []⟩ true) (s (r (.body 0) true false))).events.producer = 1 ∧
      (run (.bodyReadDone 0 ⟨70, []⟩ true) (s (r (.body 0) true true))).events.producer = 0) ∧
    (wordOf (composeLine (fitTo 64 (described 0x903F 640 [1])) (upperLayers u.mem 70)) 0 = 0x903F ∧
      { x with lines := [] }.lines.length + 1 < 2 ∧ (0x903F + 640 - 1) / 64 - 0x903F / 64 + 1 = 11) :=
  ⟨⟨calm_of (by decide), by decide, by decide⟩, List.Perm.swap _ _ _, by decide, by decide⟩

theorem test_hyps_heads :
    let queued : Desc := { state := .queued, attempts := 0, fail := none, ref := 0 }
    let two := (let s := texting sending 0 .stopped; { s with texts := { s.texts with prod := 2, descs := s.texts.descs.set 1 queued } })
    let one (st : ConnState) := (let s := part st; { s with texts := { s.texts with descs := s.texts.descs.set 0 queued } })
    let t := textDone 0 { two.texts.descs[(0 : Fin 16)] with state := .sent, fail := none }
      { two with texts := { two.texts with send := none } }
    (Calm two ∧ two.texts.send = some sending ∧ t.texts.retire ≠ t.texts.prod ∧ (t.texts.descs[descOf t.texts.retire]).state = .queued) ∧
    ((run (.segmentAck 0 0 .ok) two).texts.send.map (·.desc) = some 1) ∧
    (∀ st, Calm (one st) ∧ ((one st).texts.descs[descOf (one st).texts.retire]).state = .queued) ∧
    ((1 : Byte) ≠ (one .camped).texts.retire ∧ (one .camped).texts.send = none ∧ .textOut ∉ (one .camped).conn.purposes) ∧
    (noticeOpen (part .camped) = true ∧ occupancy 2 0 ≤ 16 ∧ occupancy 0 0 ≤ occupancy 2 0) :=
  ⟨⟨calm_of (by decide), by decide⟩, by decide, by intro st; cases st <;> exact ⟨calm_of (by decide), by decide⟩, by decide, by decide⟩

theorem test_hyps_turnAgainstFullRing :
    let s (o : Bool) := { part .camped with events := { (part .camped).events with
      producer := 16, overflow := o, pending := [event (part .camped) .line .none 0 0 0 0 0] } }
    (∀ o, mayPlace (s o) = true ∧ (s o).events.owed = none ∧ (s o).events.pending ≠ [] ∧
      (s o).bind.capacity ≤ occupancy (s o).events.producer (s o).events.consumer) ∧
    ((forceEvents (s true)).events.pending = [] ∧ (forceEvents (s false)).mem.accept.length = 1) := by decide

/-- A third timeout that completes a round: the round is reported before the fault (R54, R97, R99). -/
theorem test_thirdTimeoutReports :
    let u := withCells (fun c => { c with
      phase := .sample, measSlot := some 12, measFirst := false, round := some (.after (some 0) none) }) (celled .camped)
    let s := withLink (fun l => { l with opMeasure := .due, unanswered := 2 }) u
    linkOpen s = true ∧ s.link.op .measure = .due ∧ (run (.responseTimeout .measure) s).conn.state = .noService ∧
    ((run (.responseTimeout .measure) s).cells.slots[(12 : Fin 13)]).missed = 1 := by decide

end Sys2Proof.Tests
end

section
/-! SUPPORT. The write queue and the stage: what an entry, a stage line and a read's bytes are after bytes are taken, and after the
stage lines that can leave have left (R24 to R26, R31, R36, R37). -/

namespace Sys2Proof.Machine

/-! ## Bytes taken by the queue -/

theorem takeBytes_pubs (line : Line) (bytes : LineBytes) (o : Origin) (speech : Bool) (m : MemPath) :
    (takeBytes line bytes o speech m).pubs = m.pubs := by
  unfold takeBytes; dsimp only
  split
  · rfl
  · exact (noteOccupancy_frame _).2

theorem takeBytes_length (line : Line) (bytes : LineBytes) (o : Origin) (speech : Bool) (m : MemPath) :
    m.queue.length ≤ (takeBytes line bytes o speech m).queue.length := by
  unfold takeBytes; dsimp only; split <;> simp

theorem queueTakes_entry {m : MemPath} {line : Line} {e : QEntry} (h : entryOf m line = some e) :
    queueTakes m line = !e.draining := by simp [queueTakes, h]

theorem queueTakes_miss {m : MemPath} {line : Line} (h : entryOf m line = none) :
    queueTakes m line = decide (m.queue.length < Config.queueEntries) := by simp [queueTakes, h]

/-- Bytes laid over an entry's, or making one: READY, the new bytes of their origin, the others as they were (R24, R26). -/
def MergedEntry (bytes : LineBytes) (o : Origin) (old new : Option QEntry) : Prop :=
  ∃ e, new = some e ∧ e.draining = false ∧
    ∀ k, bytesGet e.bytes k = ((bytesGet bytes k).map (fun b => (b, o))).or (old.bind (fun x => bytesGet x.bytes k))

theorem takeBytes_entry (line : Line) (bytes : LineBytes) (o : Origin) (speech : Bool) {m : MemPath}
    (h : queueTakes m line = true) :
    MergedEntry bytes o (entryOf m line) (entryOf (takeBytes line bytes o speech m) line) := by
  cases he : entryOf m line with
  | some x =>
    have hx : (x.line == line) = true := List.find?_some (p := fun e : QEntry => e.line == line) he
    have ready : x.draining = false := by simpa [queueTakes, he] using h
    unfold takeBytes
    simp only [he]
    unfold entryOf at he ⊢
    rw [find_entry_map (by intro e; split <;> rfl)]
    rw [he, Option.map_some, if_pos hx]
    refine ⟨_, rfl, ready, fun k => ?_⟩
    rw [bytesGet_over, bytesGet_map (fun b => (b, o))]
    rfl
  | none =>
    unfold takeBytes
    simp only [he]
    refine ⟨{ line := line, bytes := bytesOver (bytes.map (fun p => (p.1, (p.2, o)))) [], draining := false,
              age := m.clock, speech := if speech then some (m.clock + 1) else none }, ?_, rfl, fun k => ?_⟩
    · simp only [entryOf] at he
      simp [entryOf, List.find?_append, he]
    · rw [bytesGet_over, bytesGet_map (fun b => (b, o))]
      rfl

theorem takeBytes_entry_other {line x : Line} (bytes : LineBytes) (o : Origin) (speech : Bool) (m : MemPath)
    (h : x ≠ line) : entryOf (takeBytes line bytes o speech m) x = entryOf m x := by
  cases he : entryOf m line with
  | some y =>
    unfold takeBytes
    simp only [he]
    unfold entryOf
    rw [find_entry_map (by intro e; split <;> rfl)]
    cases hf : m.queue.find? (fun e => e.line == x) with
    | none => rfl
    | some e =>
      have hl : e.line = x := by simpa using List.find?_some hf
      rw [Option.map_some, if_neg (by simpa [hl] using h)]
  | none =>
    unfold takeBytes
    simp only [he]
    have : (line == x) = false := by simpa using Ne.symm h
    simp [entryOf, List.find?_append, this]

theorem queueTakes_other_false {line x : Line} (bytes : LineBytes) (o : Origin) (speech : Bool) {m : MemPath}
    (h : x ≠ line) (q : queueTakes m x = false) : queueTakes (takeBytes line bytes o speech m) x = false := by
  have same := takeBytes_entry_other bytes o speech m h
  cases he : entryOf m x with
  | some e => rw [queueTakes_entry (same.trans he), ← queueTakes_entry he, q]
  | none =>
    rw [queueTakes_miss he] at q
    rw [queueTakes_miss (same.trans he)]
    have := takeBytes_length line bytes o speech m
    simp only [decide_eq_false_iff_not] at q ⊢
    omega

/-! ## One stage line leaves -/

/-- A stage line that leaves: off the stage, its bytes in the queue (R36). -/
def stageLeft (l : StageLine) (m : MemPath) : MemPath :=
  takeBytes l.line l.bytes .part false { m with stage := m.stage.erase l }

theorem stageLineLeave_eq (l : StageLine) (m : MemPath) : stageLineLeave l m =
    if l ∈ m.stage ∧ queueTakes m l.line = true then stageLeft l m else m := by
  simp [stageLineLeave, stageLeft]

/-- No two stage lines are for one line. -/
def StageLaw (m : MemPath) : Prop := (m.stage.map (·.line)).Nodup

theorem stageOf_mem {m : MemPath} {l : StageLine} (hn : StageLaw m) (h : l ∈ m.stage) : stageOf m l.line = some l := by
  have e := stage_find_erase m.stage l hn h l.line
  cases hf : stageOf m l.line with
  | none => simpa using List.find?_eq_none.1 hf l h
  | some y =>
    have hy : y.line = l.line := by simpa using List.find?_some hf
    have := List.inj_on_of_nodup_map hn (List.mem_of_find?_eq_some hf) h hy
    rw [this]

theorem stageLeft_stage (l : StageLine) (m : MemPath) : (stageLeft l m).stage = m.stage.erase l := by
  simp [stageLeft]

theorem stageLeft_stageOf {m : MemPath} {l : StageLine} (hn : StageLaw m) (h : l ∈ m.stage) (x : Line) :
    stageOf (stageLeft l m) x = if x = l.line then none else stageOf m x := by
  unfold stageOf
  rw [stageLeft_stage, stage_find_erase _ _ hn h]

theorem stageLeft_law {m : MemPath} (l : StageLine) (hn : StageLaw m) : StageLaw (stageLeft l m) := by
  unfold StageLaw
  rw [stageLeft_stage]
  exact hn.sublist (List.erase_sublist.map _)

theorem stageLeft_entry {m : MemPath} {l : StageLine} (h : queueTakes m l.line = true) :
    MergedEntry l.bytes .part (entryOf m l.line) (entryOf (stageLeft l m) l.line) :=
  takeBytes_entry (m := { m with stage := m.stage.erase l }) _ _ _ _ h

theorem stageLeft_entry_other {m : MemPath} {l : StageLine} {x : Line} (h : x ≠ l.line) :
    entryOf (stageLeft l m) x = entryOf m x :=
  takeBytes_entry_other _ _ _ _ h

theorem stageLeft_pubs (l : StageLine) (m : MemPath) : (stageLeft l m).pubs = m.pubs := takeBytes_pubs _ _ _ _ _

theorem upperLayers_congr {m n : MemPath} {x : Line} (hs : stageOf n x = stageOf m x) (he : entryOf n x = entryOf m x) :
    upperLayers n x = upperLayers m x := by unfold upperLayers; rw [hs, he]

/-- A line read while its bytes go from the stage to the queue reads the same (R36). -/
theorem stageLeft_reads {m : MemPath} {l : StageLine} (hn : StageLaw m) (h : l ∈ m.stage) (q : queueTakes m l.line = true)
    (x : Line) (k : Nat) : bytesGet (upperLayers (stageLeft l m) x) k = bytesGet (upperLayers m x) k := by
  by_cases hx : x = l.line
  · subst hx
    obtain ⟨e, he, -, hb⟩ := stageLeft_entry q
    rw [bytesGet_upperLayers, bytesGet_upperLayers, stageLeft_stageOf hn h, if_pos rfl, he, stageOf_mem hn h]
    simp only [Option.bind_none, Option.none_or, Option.bind_some, hb]
    cases bytesGet l.bytes k <;> cases entryOf m l.line <;> rfl
  · rw [upperLayers_congr (by rw [stageLeft_stageOf hn h, if_neg hx]) (stageLeft_entry_other hx)]

/-! ## Every stage line that can leave leaves -/

/-- What holds before, and is kept by each line that leaves, holds after. -/
theorem stageLeave_keeps {P : MemPath → Prop} {m : MemPath} (hn : StageLaw m) (h : P m)
    (step : ∀ n l, StageLaw n → l ∈ n.stage → queueTakes n l.line = true → P n → P (stageLeft l n)) :
    P (stageLeave m) := by
  unfold stageLeave
  generalize sortBy stageOrder m.stage = ls
  induction ls generalizing m with
  | nil => exact h
  | cons l ls ih =>
    rw [List.foldl_cons, stageLineLeave_eq]
    split
    · rename_i c
      exact ih (stageLeft_law l hn) (step m l hn c.1 c.2 h)
    · exact ih hn h

theorem stageLeave_pubs {m : MemPath} (hn : StageLaw m) : (stageLeave m).pubs = m.pubs :=
  stageLeave_keeps (P := fun n => n.pubs = m.pubs) hn rfl (fun n l _ _ _ h => (stageLeft_pubs l n).trans h)

theorem stageLeave_reads {m : MemPath} (hn : StageLaw m) (x : Line) (k : Nat) :
    bytesGet (upperLayers (stageLeave m) x) k = bytesGet (upperLayers m x) k :=
  stageLeave_keeps (P := fun n => bytesGet (upperLayers n x) k = bytesGet (upperLayers m x) k) hn rfl
    (fun _ _ hn hl q h => (stageLeft_reads hn hl q x k).trans h)

/-- A line that is not on the stage is not touched. -/
theorem stageLeave_absent {m : MemPath} {x : Line} (hn : StageLaw m) (h : stageOf m x = none) :
    stageOf (stageLeave m) x = none ∧ entryOf (stageLeave m) x = entryOf m x := by
  refine stageLeave_keeps (P := fun n => stageOf n x = none ∧ entryOf n x = entryOf m x) hn ⟨h, rfl⟩ ?_
  rintro n l hn hl - ⟨hs, he⟩
  have hx : x ≠ l.line := by rintro rfl; simp [stageOf_mem hn hl] at hs
  rw [stageLeft_stageOf hn hl, if_neg hx, stageLeft_entry_other hx]
  exact ⟨hs, he⟩

/-- A stage line whose bytes the queue cannot take stays, whatever other lines do. -/
theorem stageLeave_blocked {m : MemPath} {x : Line} {l : StageLine} (hn : StageLaw m) (h : stageOf m x = some l)
    (q : queueTakes m x = false) : stageOf (stageLeave m) x = some l ∧ entryOf (stageLeave m) x = entryOf m x := by
  have P := stageLeave_keeps
    (P := fun n => stageOf n x = some l ∧ entryOf n x = entryOf m x ∧ queueTakes n x = false) hn ⟨h, rfl, q⟩ ?_
  · exact ⟨P.1, P.2.1⟩
  rintro n y hn hy qy ⟨hs, he, hq⟩
  have hx : x ≠ y.line := by rintro rfl; rw [hq] at qy; cases qy
  rw [stageLeft_stageOf hn hy, if_neg hx, stageLeft_entry_other hx]
  exact ⟨hs, he, queueTakes_other_false (m := { n with stage := n.stage.erase y }) _ _ _ hx hq⟩

/-- A stage line that can leave whenever it is still there has left at the end. -/
theorem stageLeave_gone {P : MemPath → Prop} {m : MemPath} {l : StageLine} (hn : StageLaw m) (h : P m)
    (step : ∀ n y, StageLaw n → y ∈ n.stage → queueTakes n y.line = true → P n → P (stageLeft y n))
    (takes : ∀ n, P n → l ∈ n.stage → queueTakes n l.line = true) : l ∉ (stageLeave m).stage := by
  have gone : ∀ (ls : List StageLine) (n : MemPath), StageLaw n → P n → (l ∈ n.stage → l ∈ ls) →
      l ∉ (ls.foldl (fun m y => stageLineLeave y m) n).stage := by
    intro ls
    induction ls with
    | nil => intro n _ _ hl c; exact absurd (hl c) List.not_mem_nil
    | cons y ls ih =>
      intro n hn hp hl
      rw [List.foldl_cons, stageLineLeave_eq]
      split
      · rename_i c
        refine ih _ (stageLeft_law y hn) (step n y hn c.1 c.2 hp) ?_
        rw [stageLeft_stage]
        intro hm
        have ne : l ≠ y := by
          rintro rfl
          exact (List.nodup_iff_count_le_one.1 (List.Nodup.of_map _ hn) l).not_gt (by
            have := List.count_pos_iff.2 hm
            rw [List.count_erase_self] at this
            omega)
        exact (List.mem_cons.1 (hl (List.mem_of_mem_erase hm))).resolve_left ne
      · rename_i c
        refine ih n hn hp ?_
        intro hm
        refine (List.mem_cons.1 (hl hm)).resolve_left ?_
        rintro rfl
        exact c ⟨hm, takes n hp hm⟩
  exact gone _ m hn h (fun c => (sortBy_perm stageOrder m.stage).mem_iff.2 c)

/-- A stage line with a READY entry for its line leaves, its bytes laid over the entry's. -/
theorem stageLeave_ready {m : MemPath} {x : Line} {l : StageLine} {e : QEntry} (hn : StageLaw m)
    (h : stageOf m x = some l) (he : entryOf m x = some e) (ready : e.draining = false) :
    stageOf (stageLeave m) x = none ∧ MergedEntry l.bytes .part (entryOf m x) (entryOf (stageLeave m) x) := by
  have hx : l.line = x := by simpa using List.find?_some h
  subst hx
  let P : MemPath → Prop := fun n => (stageOf n l.line = some l ∧ entryOf n l.line = entryOf m l.line) ∨
    (stageOf n l.line = none ∧ MergedEntry l.bytes .part (entryOf m l.line) (entryOf n l.line))
  have step : ∀ n y, StageLaw n → y ∈ n.stage → queueTakes n y.line = true → P n → P (stageLeft y n) := by
    intro n y hn hy qy hp
    by_cases c : l.line = y.line
    · obtain ⟨hs, hent⟩ := hp.resolve_right (by rintro ⟨hs, -⟩; rw [c, stageOf_mem hn hy] at hs; cases hs)
      obtain rfl : y = l := by rw [c, stageOf_mem hn hy] at hs; exact Option.some.inj hs
      refine .inr ⟨by rw [stageLeft_stageOf hn hy, if_pos rfl], ?_⟩
      rw [← hent]
      exact stageLeft_entry qy
    · simp only [P]
      rw [stageLeft_stageOf hn hy, if_neg c, stageLeft_entry_other c]
      exact hp
  have left : l ∉ (stageLeave m).stage := by
    refine stageLeave_gone (P := fun n => StageLaw n ∧ P n) hn ⟨hn, .inl ⟨h, rfl⟩⟩
      (fun n y hn hy qy hp => ⟨stageLeft_law y hn, step n y hn hy qy hp.2⟩) ?_
    rintro n ⟨hn, hp⟩ hl
    obtain ⟨-, hent⟩ := hp.resolve_right (by rintro ⟨hs, -⟩; rw [stageOf_mem hn hl] at hs; cases hs)
    rw [queueTakes_entry (hent.trans he), ready]
    rfl
  exact (stageLeave_keeps (P := P) hn (.inl ⟨h, rfl⟩) step).resolve_left
    (fun c => left (List.mem_of_find?_eq_some c.1))

/-! ## The bytes of an accepted write -/

/-- Bytes laid over a stage line's (R37). -/
def laidOver (bytes : LineBytes) (l : StageLine) : StageLine := { l with bytes := bytesOver bytes l.bytes }

/-- The images of waiting publications with an internal write's bytes in them (R34). -/
def imagesUpdated (line : Line) (bytes : LineBytes) (pubs : List Publication) : List Publication :=
  pubs.map (fun p => { p with images := p.images.map (fun q =>
    if q.1 = line then (q.1, q.2.map (fun b => (b.1, (bytesGet bytes b.1).getD b.2))) else q) })

theorem updateImages_eq (line : Line) (bytes : LineBytes) (m : MemPath) :
    updateImages line bytes m = { m with pubs := imagesUpdated line bytes m.pubs } := by
  simp [updateImages, imagesUpdated]

/-- The memory path with an internal write's bytes over the stage line of the line, before lines leave. -/
def stageUpdated (w : AccWrite) (m : MemPath) : MemPath :=
  { m with
    pubs := imagesUpdated w.line w.bytes m.pubs
    stage := m.stage.map (fun l => if l.line == w.line then laidOver w.bytes l else l) }

theorem takeInternal_staged {w : AccWrite} {m : MemPath} {l : StageLine} (h : stageOf m w.line = some l) :
    takeInternal w m = stageLeave (stageUpdated w m) := by
  unfold takeInternal
  rw [updateImages_eq]
  have h' : stageOf { m with pubs := imagesUpdated w.line w.bytes m.pubs } w.line = some l := h
  simp only [h']
  rfl

theorem takeInternal_unstaged {w : AccWrite} {m : MemPath} (h : stageOf m w.line = none) :
    takeInternal w m = takeBytes w.line w.bytes .part w.speech
      { m with pubs := imagesUpdated w.line w.bytes m.pubs } := by
  unfold takeInternal
  rw [updateImages_eq]
  have h' : stageOf { m with pubs := imagesUpdated w.line w.bytes m.pubs } w.line = none := h
  simp only [h']

theorem stageUpdated_stageOf (w : AccWrite) (m : MemPath) (x : Line) : stageOf (stageUpdated w m) x =
    (stageOf m x).map (fun l => if x = w.line then laidOver w.bytes l else l) := by
  unfold stageOf stageUpdated
  rw [find_stage_map (by intro l; split <;> rfl)]
  cases h : m.stage.find? (fun l => l.line == x) with
  | none => rfl
  | some l =>
    have hl : l.line = x := by simpa using List.find?_some h
    simp [hl]

theorem stageUpdated_law {w : AccWrite} {m : MemPath} (h : StageLaw m) : StageLaw (stageUpdated w m) := by
  have same : (stageUpdated w m).stage.map (·.line) = m.stage.map (·.line) := by
    simp only [stageUpdated, List.map_map]
    apply List.map_congr_left
    intro l _
    simp only [Function.comp]
    split <;> rfl
  unfold StageLaw
  rwa [same]

theorem takeInternal_pubs {w : AccWrite} {m : MemPath} (h : StageLaw m) :
    (takeInternal w m).pubs = imagesUpdated w.line w.bytes m.pubs := by
  cases hs : stageOf m w.line with
  | some l => rw [takeInternal_staged hs, stageLeave_pubs (stageUpdated_law h)]; rfl
  | none => rw [takeInternal_unstaged hs, takeBytes_pubs]

/-- A read sees an internal write's bytes over what it saw before (R24, R31, R37). -/
theorem takeInternal_reads {w : AccWrite} {m : MemPath} (h : StageLaw m) (t : internalTakes m w = true) (x : Line)
    (k : Nat) : bytesGet (upperLayers (takeInternal w m) x) k =
      (if x = w.line then bytesGet w.bytes k else none).or (bytesGet (upperLayers m x) k) := by
  cases hs : stageOf m w.line with
  | some l =>
    rw [takeInternal_staged hs, stageLeave_reads (stageUpdated_law h), bytesGet_upperLayers, bytesGet_upperLayers,
      stageUpdated_stageOf]
    by_cases hx : x = w.line
    · subst hx
      simp only [hs, if_true, Option.map_some, Option.bind_some, laidOver, bytesGet_over]
      rw [Option.or_assoc]
      rfl
    · simp only [if_neg hx, Option.map_id', Option.none_or]
      rfl
  | none =>
    have q : queueTakes m w.line = true := by simpa [internalTakes, hs] using t
    let m' : MemPath := { m with pubs := imagesUpdated w.line w.bytes m.pubs }
    have hst : ∀ y, stageOf (takeBytes w.line w.bytes .part w.speech m') y = stageOf m y := by
      intro y; unfold stageOf; rw [takeBytes_stage]
    rw [takeInternal_unstaged hs, bytesGet_upperLayers, bytesGet_upperLayers, hst]
    by_cases hx : x = w.line
    · subst hx
      obtain ⟨e, he, -, hb⟩ := takeBytes_entry w.line w.bytes .part w.speech (m := m') q
      rw [he, hs]
      simp only [if_true, Option.bind_none, Option.none_or, Option.bind_some, hb]
      show _ = (bytesGet w.bytes k).or ((entryOf m' w.line).bind _)
      cases bytesGet w.bytes k <;> cases entryOf m' w.line <;> rfl
    · rw [takeBytes_entry_other _ _ _ _ hx, if_neg hx, Option.none_or]
      rfl

theorem takeInternal_entry {w : AccWrite} {m : MemPath} (hs : stageOf m w.line = none) (t : internalTakes m w = true) :
    MergedEntry w.bytes .part (entryOf m w.line) (entryOf (takeInternal w m) w.line) := by
  have q : queueTakes m w.line = true := by simpa [internalTakes, hs] using t
  rw [takeInternal_unstaged hs]
  exact takeBytes_entry (m := { m with pubs := imagesUpdated w.line w.bytes m.pubs }) _ _ _ _ q

theorem takeInternal_blocked {w : AccWrite} {m : MemPath} {l : StageLine} (h : StageLaw m)
    (hs : stageOf m w.line = some l) (q : queueTakes m w.line = false) :
    entryOf (takeInternal w m) w.line = entryOf m w.line ∧
      stageOf (takeInternal w m) w.line = some (laidOver w.bytes l) := by
  have hl : stageOf (stageUpdated w m) w.line = some (laidOver w.bytes l) := by
    rw [stageUpdated_stageOf, hs, Option.map_some, if_pos rfl]
  obtain ⟨a, b⟩ := stageLeave_blocked (stageUpdated_law h) hl q
  rw [takeInternal_staged hs]
  exact ⟨b, a⟩

/-! ## The bytes of an accepted host write -/

/-- A stage line without the bytes that a host write covers (R37). -/
def cutBy (bytes : LineBytes) (l : StageLine) : StageLine := { l with bytes := bytesWithout l.bytes bytes }

/-- The memory path with a host write's bytes in the queue and off the stage, before lines leave. -/
def hostTaken (line : Line) (bytes : LineBytes) (m : MemPath) : MemPath :=
  { takeBytes line bytes .host false m with
    stage := (m.stage.map (fun l => if l.line == line then cutBy bytes l else l)).filter (fun l => !l.bytes.isEmpty) }

theorem takeHost_none (line : Line) (m : MemPath) : takeHost line [] m = m := rfl

theorem takeHost_some {line : Line} {bytes : LineBytes} {m : MemPath} (h : bytes ≠ []) :
    takeHost line bytes m = stageLeave (hostTaken line bytes m) := by
  unfold takeHost
  rw [if_neg (by simpa using h)]
  simp only [takeBytes_stage]
  rfl

theorem find_stage_filter {q : StageLine → Bool} {st : List StageLine} (h : (st.map (·.line)).Nodup) (x : Line) :
    (st.filter q).find? (fun l => l.line == x) = (st.find? (fun l => l.line == x)).filter q := by
  induction st with
  | nil => rfl
  | cons l st ih =>
    obtain ⟨fresh, h⟩ := List.nodup_cons.1 h
    rw [List.find?_cons, List.filter_cons]
    by_cases hx : l.line = x
    · have rest : (st.filter q).find? (fun y => y.line == x) = none := by
        rw [List.find?_eq_none]
        rintro y hy e
        have hy' : y ∈ st := (List.mem_filter.1 hy).1
        exact fresh (List.mem_map.2 ⟨y, hy', (beq_iff_eq.1 e).trans hx.symm⟩)
      have e : (l.line == x) = true := by simpa using hx
      cases hq : q l <;> simp [e, hq, rest, Option.filter]
    · have e : (l.line == x) = false := by simpa using hx
      cases hq : q l <;> simp [e, ih h]

theorem cut_lines (line : Line) (bytes : LineBytes) (st : List StageLine) :
    (st.map (fun l => if l.line == line then cutBy bytes l else l)).map (·.line) = st.map (·.line) := by
  rw [List.map_map]
  apply List.map_congr_left
  intro l _
  simp only [Function.comp]
  split <;> rfl

theorem hostTaken_law {line : Line} {bytes : LineBytes} {m : MemPath} (h : StageLaw m) :
    StageLaw (hostTaken line bytes m) := by
  have h' := h
  unfold StageLaw at h'
  rw [← cut_lines line bytes] at h'
  exact h'.sublist (List.filter_sublist.map _)

theorem hostTaken_stageOf {line : Line} {bytes : LineBytes} {m : MemPath} (h : StageLaw m) (x : Line) :
    stageOf (hostTaken line bytes m) x =
      ((stageOf m x).map (fun l => if x = line then cutBy bytes l else l)).filter (fun l => !l.bytes.isEmpty) := by
  unfold stageOf hostTaken
  rw [find_stage_filter (by rw [cut_lines]; exact h), find_stage_map (by intro l; split <;> rfl)]
  cases hs : m.stage.find? (fun l => l.line == x) with
  | none => rfl
  | some l =>
    have hl : l.line = x := by simpa using List.find?_some hs
    simp [hl]

theorem takeHost_pubs {line : Line} {bytes : LineBytes} {m : MemPath} (h : StageLaw m) :
    (takeHost line bytes m).pubs = m.pubs := by
  by_cases hb : bytes = []
  · rw [hb, takeHost_none]
  · rw [takeHost_some hb, stageLeave_pubs (hostTaken_law h)]
    exact takeBytes_pubs _ _ _ _ _

/-- A host write changes no byte of another line. -/
theorem takeHost_reads_other {line x : Line} {bytes : LineBytes} {m : MemPath} (h : StageLaw m) (hx : x ≠ line) (k : Nat) :
    bytesGet (upperLayers (takeHost line bytes m) x) k = bytesGet (upperLayers m x) k := by
  by_cases hb : bytes = []
  · rw [hb, takeHost_none]
  have he : entryOf (hostTaken line bytes m) x = entryOf m x := takeBytes_entry_other bytes .host false m hx
  rw [takeHost_some hb, stageLeave_reads (hostTaken_law h), bytesGet_upperLayers, bytesGet_upperLayers, he,
    hostTaken_stageOf h]
  congr 1
  cases stageOf m x with
  | none => rfl
  | some l =>
    cases hl : l.bytes with
    | nil => simp [hx, hl, Option.filter, bytesGet]
    | cons b bs => simp [hx, hl, Option.filter]

/-- What a host write leaves of its line: the READY entry holds the host's bytes, then those its stage line keeps, then what it
held before; the stage holds nothing of the line (R24, R26, R37). -/
theorem takeHost_entry {line : Line} {bytes : LineBytes} {m : MemPath} (h : StageLaw m) (hb : bytes ≠ [])
    (q : queueTakes m line = true) :
    stageOf (takeHost line bytes m) line = none ∧
      ∃ e, entryOf (takeHost line bytes m) line = some e ∧ e.draining = false ∧ ∀ k, bytesGet e.bytes k =
        ((bytesGet bytes k).map (fun b => (b, Origin.host))).or
          ((((stageOf m line).bind (fun l => bytesGet l.bytes k)).map (fun b => (b, Origin.part))).or
            ((entryOf m line).bind (fun x => bytesGet x.bytes k))) := by
  rw [takeHost_some hb]
  obtain ⟨e, he, ready, hbytes⟩ := takeBytes_entry line bytes .host false q
  have he' : entryOf (hostTaken line bytes m) line = some e := he
  have hst := hostTaken_stageOf (line := line) (bytes := bytes) h line
  cases hs : stageOf (hostTaken line bytes m) line with
  | none =>
    obtain ⟨gone, same⟩ := stageLeave_absent (hostTaken_law h) hs
    refine ⟨gone, e, same.trans he', ready, fun k => ?_⟩
    rw [hbytes]
    rw [hs] at hst
    cases hm : stageOf m line with
    | none => simp
    | some l =>
      have cut : bytesWithout l.bytes bytes = [] := by simpa [hm, cutBy, Option.filter] using hst.symm
      have covered : bytesGet (bytesWithout l.bytes bytes) k = none := by rw [cut]; rfl
      unfold bytesWithout at covered
      rw [bytesGet_filter (fun x => !bytesCover bytes x), bytesCover_eq] at covered
      cases hk : bytesGet bytes k <;> simp_all
  | some c =>
    obtain ⟨gone, f, hf, fready, fbytes⟩ := stageLeave_ready (hostTaken_law h) hs he' ready
    refine ⟨gone, f, hf, fready, fun k => ?_⟩
    rw [fbytes, he', Option.bind_some, hbytes]
    rw [hs] at hst
    cases hm : stageOf m line with
    | none => simp [hm] at hst
    | some l =>
      obtain ⟨rfl, -⟩ : cutBy bytes l = c ∧ _ := by simpa [hm, Option.filter_eq_some_iff] using hst.symm
      have covered : bytesGet (cutBy bytes l).bytes k = if (bytesGet bytes k).isSome then none else bytesGet l.bytes k := by
        unfold cutBy bytesWithout
        rw [bytesGet_filter (fun x => !bytesCover bytes x), bytesCover_eq]
        cases bytesGet bytes k <;> simp
      rw [covered, Option.bind_some]
      cases hk : bytesGet bytes k <;> simp

end Sys2Proof.Machine
end

section
/-! SUPPORT. The acceptance of a write (R8, R20 to R26, R34, R37). -/

namespace Sys2Proof.Machine

/-! ## The acceptance of an internal write -/

section
variable {s : State} {w : AccWrite} {ws : List AccWrite} {note : WriteNote}

theorem exec_internalWriteAccept (h : s.mem.accept = w :: ws) (hw : w.writer = .part note)
    (t : internalTakes s.mem w = true) : exec .internalWriteAccept s = .next (settle (serveReads (accepted note
      { s with mem := takeInternal w { s.mem with accept := ws } }))) := by
  have host : w.isHost = false := by simp [AccWrite.isHost, hw]
  have takes : (!headIsHost s && headTakes s) = true := by simp [headIsHost, headTakes, h, host, t]
  show runIf _ acceptHead s = _
  rw [runIf_on _ _ takes]
  simp [acceptHead, acceptInternal, h, hw]

theorem exec_internalWriteAccept_waits (h : s.mem.accept = w :: ws) (hw : w.writer = .part note)
    (t : internalTakes s.mem w = false) : exec .internalWriteAccept s = .next s := by
  have host : w.isHost = false := by simp [AccWrite.isHost, hw]
  exact runIf_off _ _ (by simp [headTakes, h, host, t])

theorem exec_internalWriteAccept_host {tag : BitVec 4} {arrived : Nat} (h : s.mem.accept = w :: ws)
    (hw : w.writer = .host tag arrived) : exec .internalWriteAccept s = .next s := by
  have host : w.isHost = true := by simp [AccWrite.isHost, hw]
  exact runIf_off _ _ (by simp [headIsHost, h, host])

/-- The queue can take no bytes for a line: its entry drains, or there is none and no place for one (R26). -/
theorem queueTakes_off {m : MemPath} {line : Line}
    (h : (∃ e, entryOf m line = some e ∧ e.draining = true) ∨ (entryOf m line = none ∧ 32 ≤ m.queue.length)) :
    queueTakes m line = false := by
  rcases h with ⟨e, he, d⟩ | ⟨he, full⟩
  · rw [queueTakes_entry he, d]; rfl
  · rw [queueTakes_miss he]; exact decide_eq_false (Nat.not_lt.2 full)

/-- Rest is kept by what leaves the waiting work as it is. -/
theorem resting_mem {m : MemPath} (h : Resting s) (hw : m.waits = s.mem.waits) (hr : m.readWaits = s.mem.readWaits) :
    Resting { s with mem := m } := by
  obtain ⟨h1, h2, h3, h4, waits, reads, h7⟩ := h
  exact ⟨h1, h2, h3, h4, hw.trans waits, hr.trans reads, h7⟩

theorem serveReads_none (h : s.mem.reads = []) : serveReads s = s :=
  serveReads_served (by intro r hr; rw [h] at hr; cases hr)

end

/-- The held writes as they stand in the acceptance list once they are presented (R20). -/
def heldAccepted (s : State) : List (Writer × Line × LineBytes) :=
  s.port.held.map (fun h => (.host h.tag h.arrived, h.line, h.bytes))

theorem presentHeld_form (s : State) : ∃ m, presentHeld s = { s with port := { s.port with held := [] }, mem := m } ∧
    m.waits = s.mem.waits ∧ m.readWaits = s.mem.readWaits ∧ m.reads = s.mem.reads ∧
    m.accept.map (fun x => (x.writer, x.line, x.bytes)) =
      s.mem.accept.map (fun x => (x.writer, x.line, x.bytes)) ++ heldAccepted s := by
  obtain ⟨m, joined, e, ha, hw, hrw, hr, -, hj⟩ := present_more s.port.held { s with port := { s.port with held := [] } }
  exact ⟨m, e, hw, hrw, hr, by rw [ha, List.map_append, hj]; rfl⟩

/-- Settles O20: the occasion, the bytes taken, and what the note of the write brings about. -/
theorem internalWriteAccepted : Obligations.InternalWriteAccepted := by
  unfold Obligations.InternalWriteAccepted
  refine ⟨?plain, ?bytes, ?waits, ?rejected, ?host⟩
  case plain =>
    intro s w ws h hw t rest reads
    obtain ⟨-, waits, readWaits, hreads, -⟩ := takeInternal_still w { s.mem with accept := ws }
    rw [exec_internalWriteAccept h hw t, accepted, serveReads_none (hreads.trans reads),
      settle_resting (resting_mem rest waits readWaits)]
  case bytes =>
    intro m w _ law t n
    refine ⟨fun x k => ?_, fun hs => ?_, fun l hs q => takeInternal_blocked law hs q, takeInternal_pubs law⟩
    · rw [takeInternal_reads law t]
      split <;> rename_i c
      · subst c; cases bytesGet w.bytes k <;> rfl
      · simp
    · obtain ⟨e, he, ready, hb⟩ := takeInternal_entry hs t
      refine ⟨e, he, ready, fun k => ?_⟩
      rw [hb]
      cases bytesGet w.bytes k <;> rfl
  case waits =>
    intro s w ws note h hw hs q
    exact exec_internalWriteAccept_waits h hw (by simp [internalTakes, hs, queueTakes_off q])
  case rejected =>
    intro s w ws h hw t rest reads
    obtain ⟨haccept, hwaits, hreadWaits, hreads, -⟩ := takeInternal_still w { s.mem with accept := ws }
    obtain ⟨m, e, mwaits, mreadWaits, mreads, maccept⟩ := presentHeld_form
      { s with mem := takeInternal w { s.mem with accept := ws }, port := { s.port with bindHold := false } }
    have rest' : Resting { s with port := { s.port with bindHold := false, held := [] }, mem := m } :=
      resting_mem (s := s) rest (mwaits.trans hwaits) (mreadWaits.trans hreadWaits)
    refine ⟨{ s with port := { s.port with bindHold := false, held := [] }, mem := m }, ?_, rfl, ?_, rfl, rfl⟩
    · rw [exec_internalWriteAccept h hw t, accepted, e, serveReads_none (mreads.trans (hreads.trans reads)),
        settle_resting rest']
    · rw [maccept, haccept]
      rfl
  case host =>
    intro s w ws tag arrived h hw
    exact exec_internalWriteAccept_host h hw

end Sys2Proof.Machine
end

section
/-! SUPPORT. The resets, the notices and the rejection of a binding (R4, R8, R13, R17, R46). -/

namespace Sys2Proof.Machine

/-! ## Resets -/

/-- Settles O10: each block of the power-on state has the values it is defined with. -/
theorem powerOnBlocks : Obligations.PowerOnBlocks := by
  unfold Obligations.PowerOnBlocks
  intro s x
  refine ⟨_, rfl, ?binder, ?link, ?conn, ?cells, ?mob, ?calls, ?speech, ?texts, ?sleep, ?events⟩
  case binder => exact ⟨rfl, rfl, rfl, rfl, rfl⟩
  case link => exact ⟨rfl, rfl, fun op => by cases op <;> rfl, rfl, rfl, rfl, rfl, fun op => by cases op <;> rfl⟩
  case conn => simp [State.powerOn, Conn.initial]
  case cells => simp [State.powerOn, Cells.initial]
  case mob => simp [State.powerOn, Mob.initial]
  case calls => simp [State.powerOn, Calls.initial]
  case speech => simp [State.powerOn, Speech.initial]
  case texts => simp [State.powerOn, Texts.initial]
  case sleep => simp [State.powerOn, Sleep.initial, WakeLine.initial]
  case events => exact ⟨rfl, rfl, rfl, rfl, rfl, rfl, rfl, rfl⟩

theorem execWarmResetEnd_eq (x : BitVec 2) (s : State) : execWarmResetEnd x s = .next (
    if drained s = false ∨ s.resetPhase = .idle then s
    else if s.resetPhase = .draining ∧ s.teardown ≠ [] then placeTeardown s
    else resetDone x s) := by
  unfold execWarmResetEnd
  cases hd : drained s with
  | false => simp
  | true =>
    cases hp : s.resetPhase with
    | idle => simp
    | draining => cases ht : s.teardown <;> simp
    | teardown => simp

theorem execWarmReset_running {s : State} (h : s.resetPhase ≠ .idle) :
    execWarmReset s = .next { s with resetN := true } := if_neg h

/-- Settles O12, by the phases of the sequence. -/
theorem warmResetEnds : Obligations.WarmResetEnds := by
  unfold Obligations.WarmResetEnds
  refine ⟨⟨fun s x => execWarmResetEnd_eq x s, fun s => rfl, fun s h => execWarmReset_running h⟩, ?_⟩
  intro s tag line bytes closed
  exact ⟨runIf_off _ _ closed, runIf_off _ _ closed⟩

/-! ## Notices -/

theorem noticeOpen_iff (s : State) :
    noticeOpen s = true ↔ portOpen s = true ∧ s.bind.state = .bound ∧ s.port.sleepHold = false := by
  simp [noticeOpen, and_assoc]

theorem runIf_noticeOpen (f : State → State) (s : State) : runIf (noticeOpen s) f s =
    .next (if portOpen s = true ∧ s.bind.state = .bound ∧ s.port.sleepHold = false then settle (f s) else s) := by
  unfold runIf
  simp only [noticeOpen_iff]

/-- Settles O27: every notice command is its job's taking of the notice, run under the condition of a notice. -/
theorem noticesAreTakenInBound : Obligations.NoticesAreTakenInBound := by
  unfold Obligations.NoticesAreTakenInBound
  intro s c notice
  cases c with
  | radioRequest | sleepRequest | stopGrant | wakeAck | lineAcknowledge | sleepParameter | connectionParameter
  | mobilityParameter | cellConfigurationNotice | requestOriginate | requestAnswer | requestHold | requestResume
  | requestSwap | requestRelease | requestUnknown | uplinkProducerWrite | downlinkConsumerWrite | outboxProducerWrite
  | cancelWordWrite | inboxConsumerWrite | eventConsumerWrite => exact runIf_noticeOpen _ s
  | _ => exact notice.elim

/-! ## Rejection -/

theorem discardReads_internal {s : State} {r : ReadEntry} (h : r ∈ (discardReads ReadFor.isInternal s).mem.reads)
    (i : r.isHost = false) : r.discard = true := by
  obtain ⟨q, -, rfl⟩ := List.mem_map.1 h
  split at i <;> rename_i c
  · rw [if_pos c]
  · cases hf : q.for_ <;> simp_all [ReadEntry.isHost, ReadFor.isInternal]

theorem rejectBinding_room {s : State} (cause : Cause) (kind : Option Kind) (hw : s.mem.waits = []) (hr : Room 1 s) :
    rejectBinding cause kind s = joinWrite (statusWrite s 2 (some (cause, kind)) .rejected)
      { discardReads ReadFor.isInternal s with bind := { s.bind with
        state := .rejected, rejection := some (cause, kind), captured := none, anchorLines := [], regionLines := []
        nextRegion := 0 } } :=
  emitWrite_room (n := 0) (by simp [discardReads, hw]) hr rfl

/-- Settles O30. -/
theorem rejectionWritesItsCause : Obligations.RejectionWritesItsCause := by
  unfold Obligations.RejectionWritesItsCause
  intro s cause kind hw hr
  rw [rejectBinding_room cause kind hw hr]
  have accepted : ∀ (w : WriteReq) (u : State), (joinWrite w u).mem.accept.map (fun w => (w.line, w.bytes)) =
      u.mem.accept.map (fun w => (w.line, w.bytes)) ++ [(w.line, w.bytes)] := by
    intro w u; simp [joinWrite, tickClock]
  exact ⟨_, rfl, rfl, rfl, rfl, rfl, rfl, fun r hr i => discardReads_internal hr i, accepted _ _, rfl, rfl⟩

end Sys2Proof.Machine
end

section
/-! SUPPORT. The acceptance of a host write: ownership, frozen fields, the enable word and the notices (R5, R11 to R14). -/

namespace Sys2Proof.Machine

/-! ## The occasion -/

section
variable {s : State} {w : AccWrite} {ws : List AccWrite} {tag : BitVec 4} {arrived : Nat}

theorem exec_hostWriteAccept (h : s.mem.accept = w :: ws) (hw : w.writer = .host tag arrived)
    (t : hostTakes s w.line w.bytes = true) : exec .hostWriteAccept s = .next (settle (serveReads (decode w.line w.bytes
      { s with
        mem := takeHost w.line (keptBytes s w.line w.bytes) { s.mem with accept := ws }
        out := { s.out with answers := s.out.answers ++ [.writeDone tag false] } }))) := by
  have host : w.isHost = true := by simp [AccWrite.isHost, hw]
  have takes : (headIsHost s && headTakes s) = true := by simp [headIsHost, headTakes, h, host, t]
  show runIf _ acceptHead s = _
  rw [runIf_on _ _ takes]
  simp [acceptHead, acceptHost, answer, h, hw]

theorem exec_hostWriteAccept_waits (h : s.mem.accept = w :: ws) (hw : w.writer = .host tag arrived)
    (t : hostTakes s w.line w.bytes = false) : exec .hostWriteAccept s = .next s := by
  have host : w.isHost = true := by simp [AccWrite.isHost, hw]
  exact runIf_off _ _ (by simp [headTakes, h, host, t])

theorem exec_hostWriteAccept_part {note : WriteNote} (h : s.mem.accept = w :: ws) (hw : w.writer = .part note) :
    exec .hostWriteAccept s = .next s := by
  have host : w.isHost = false := by simp [AccWrite.isHost, hw]
  exact runIf_off _ _ (by simp [headIsHost, h, host])

end

/-! ## The watched words -/

theorem coversAll_iff (bytes : LineBytes) (a n : Nat) :
    coversAll bytes a n = true ↔ ∀ p, a ≤ p → p < a + n → bytesCover bytes p = true := by
  simp only [coversAll, List.all_eq_true, List.mem_range]
  constructor
  · intro h p hp hpn
    have := h (p - a) (by omega)
    rwa [Nat.add_sub_cancel' hp] at this
  · intro h k hk
    exact h _ (by omega) (by omega)

theorem sum_range_four (f : Nat → Nat) : ((List.range 4).map f).sum = f 0 + (f 1 + (f 2 + f 3)) := by
  simp [List.range_succ]

theorem bytes_toNat (a b c d : Byte) : (d ++ c ++ b ++ a).toNat =
    a.toNat * 256 ^ 0 + (b.toNat * 256 ^ 1 + (c.toNat * 256 ^ 2 + d.toNat * 256 ^ 3)) := by
  simp only [BitVec.toNat_append]
  have ha := a.isLt
  have hb := b.isLt
  have hc := c.isLt
  rw [← Nat.shiftLeft_add_eq_or_of_lt hc, ← Nat.shiftLeft_add_eq_or_of_lt hb, ← Nat.shiftLeft_add_eq_or_of_lt ha]
  simp only [Nat.shiftLeft_eq]
  ring

theorem fieldValue_word (a b c d : Byte) : fieldValue [(4, a), (5, b), (6, c), (7, d)] 4 4 = d ++ c ++ b ++ a := by
  unfold fieldValue
  rw [sum_range_four]
  have h0 : bytesGet [(4, a), (5, b), (6, c), (7, d)] (4 + 0) = some a := rfl
  have h1 : bytesGet [(4, a), (5, b), (6, c), (7, d)] (4 + 1) = some b := rfl
  have h2 : bytesGet [(4, a), (5, b), (6, c), (7, d)] (4 + 2) = some c := rfl
  have h3 : bytesGet [(4, a), (5, b), (6, c), (7, d)] (4 + 3) = some d := rfl
  rw [h0, h1, h2, h3]
  simp only [Option.getD_some]
  rw [← bytes_toNat]
  exact BitVec.ofNat_toNat _ _
/-- Positions and widths decide whether words are apart; their notices play no part. -/
theorem pairwise_extents {ws : List Watched}
    (h : (ws.map (fun w => (w.1, w.2.1))).Pairwise (fun a b => a.1 + a.2 ≤ b.1)) :
    ws.Pairwise (fun a b => a.1 + a.2.1 ≤ b.1) := List.pairwise_map.1 h

theorem watchedWords_disjoint (k : Kind) (i : Nat) :
    List.Pairwise (fun a b : Watched => a.1 + a.2.1 ≤ b.1) (watchedWords k i) := by
  apply pairwise_extents
  unfold watchedWords
  cases k with
  | plan => dsimp only; split <;> decide
  | cell => dsimp only; split <;> simp [slotWatched]
  | call | speech | inbox | event => dsimp only; split <;> simp
  | outbox =>
    dsimp only
    split
    · simp
    · split <;> simp
  | anchor | textBodies => exact .nil

theorem requestNotice_eq (r : Fin 4) (b : Byte) : requestNotice r b = match b.toNat with
    | 1 => .requestOriginate r
    | 2 => .requestAnswer r
    | 3 => .requestHold r
    | 4 => .requestResume r
    | 5 => .requestSwap r
    | 6 => .requestRelease r
    | _ => .requestUnknown r b := by
  unfold requestNotice requestOf
  generalize b.toNat = n
  match n with
  | 0 | 1 | 2 | 3 | 4 | 5 | 6 | n + 7 => rfl

theorem watchedWords_cell (n : Fin 13) : watchedWords .cell (n.val + 1) = slotWatched n := by
  have h : 1 ≤ n.val + 1 ∧ n.val + 1 < 14 := by omega
  exact dif_pos h

theorem watchedWords_call (r : Fin 4) :
    watchedWords .call r.val = [(0, 1, fun v => requestNotice r (lowByte v))] := dif_pos r.isLt

theorem watchedWords_outbox (n : Fin 8) : watchedWords .outbox (n.val + 1) =
    [(0x06, 1, fun v => .cancelWordWrite ⟨2 * n.val, by omega⟩ (lowByte v)),
      (0x26, 1, fun v => .cancelWordWrite ⟨2 * n.val + 1, by omega⟩ (lowByte v))] := by
  have h : n.val + 1 < 9 := by omega
  unfold watchedWords
  dsimp only
  rw [if_neg (Nat.succ_ne_zero _), dif_pos h]
  rfl

theorem acceptNotices_eq (k : Kind) (i : Nat) (bytes : LineBytes) (s : State) :
    acceptNotices k i bytes s = (watchedWords k i).foldl (fun u w =>
      if u.bind.state = .bound ∧ coversAll bytes w.1 w.2.1 = true then takeNotice (w.2.2 (fieldValue bytes w.1 w.2.1)) u
      else u) s := by
  unfold acceptNotices
  simp only [Bool.and_eq_true, beq_iff_eq]

/-- Settles O19: the occasion, the bytes taken, and the watched words of each line. -/
theorem hostWriteAccepted : Obligations.HostWriteAccepted := by
  unfold Obligations.HostWriteAccepted
  refine ⟨?taken, ?bytes, ?waits, ?part, fun _ _ _ => rfl, acceptNotices_eq, coversAll_iff, fieldValue_word,
    watchedWords_disjoint, ?words⟩
  case taken =>
    intro s w ws tag arrived h hw t
    exact exec_hostWriteAccept h hw t
  case bytes =>
    refine fun m line bytes => ⟨rfl, fun hb _ law q => ?_⟩
    obtain ⟨gone, e, he, ready, hbytes⟩ := takeHost_entry law hb q
    refine ⟨⟨e, he, ready, fun k => ?_⟩, gone, takeHost_pubs law, fun x k hx => takeHost_reads_other law hx k⟩
    rw [hbytes]
    cases bytesGet bytes k with
    | some b => rfl
    | none => cases (stageOf m line).bind (fun l => bytesGet l.bytes k) <;> rfl
  case waits =>
    intro s w ws tag arrived h hw some q
    exact exec_hostWriteAccept_waits h hw (by simp [hostTakes, some, queueTakes_off q])
  case part =>
    intro s w ws note h hw
    exact exec_hostWriteAccept_part h hw
  case words =>
    intro v b h words lines
    refine ⟨rfl, rfl, rfl, fun n => ?cell, fun r => ?call, rfl, rfl, fun n => ?outbox, rfl, rfl, fun i => ⟨rfl, rfl, fun hi => ?_⟩⟩
    case cell => simp only [words, watchedWords_cell]; rfl
    case call => simp only [words, watchedWords_call, requestNotice_eq]; rfl
    case outbox => simp only [words, watchedWords_outbox]; rfl
    have hi' : i ≠ 0 := by omega
    simp [words, watchedWords, hi']

/-! ## Ownership -/

theorem filtering_iff (s : State) : filtering s = true ↔ s.bind.state = .bound ∨ s.bind.state = .unbinding := by
  simp [filtering]

theorem filterPlace_on {s : State} {line : Line} {k : Kind} {i : Nat}
    (h : s.bind.state = .bound ∨ s.bind.state = .unbinding) (l : s.bind.locate line = some (k, i)) :
    filterPlace s line = some (k, i) := by
  rw [filterPlace, if_pos ((filtering_iff s).2 h), l]

theorem filterPlace_off {s : State} {line : Line}
    (h : (s.bind.state ≠ .bound ∧ s.bind.state ≠ .unbinding) ∨ s.bind.locate line = none) :
    filterPlace s line = none := by
  unfold filterPlace
  split
  · rename_i f
    exact h.resolve_left (fun n => ((filtering_iff s).1 f).elim n.1 n.2)
  · rfl

theorem mem_keptBytes {s : State} {line : Line} {bytes : LineBytes} {k : Kind} {i : Nat}
    (h : filterPlace s line = some (k, i)) (p : Nat × Byte) :
    p ∈ keptBytes s line bytes ↔ p ∈ bytes ∧ partOwned k i p.1 = false := by
  simp [keptBytes, h]

theorem keptBytes_off {s : State} {line : Line} {bytes : LineBytes} (h : filterPlace s line = none) :
    keptBytes s line bytes = bytes := by simp [keptBytes, h]

/-- The part's bytes by region kind and line, as ranges of positions (R197). -/
theorem partOwned_iff {p : Nat} (i : Nat) (hp : p < 64) :
    (partOwned .anchor i p = true ↔ i = 2 ∧ p < 3) ∧
    (partOwned .plan 0 p = true ↔ 0x20 ≤ p ∧ p < 0x28) ∧
    (0 < i → (partOwned .plan i p = true ↔ 0x10 ≤ p ∧ p < 0x1B)) ∧
    (partOwned .cell 0 p = true ↔ p ∈ [0, 2, 3]) ∧
    (0 < i → (partOwned .cell i p = true ↔ (0x10 ≤ p ∧ p < 0x15) ∨ (0x16 ≤ p ∧ p < 0x1C) ∨ (0x20 ≤ p ∧ p < 0x30))) ∧
    (partOwned .call i p = true ↔ 0x10 ≤ p ∧ p < 0x27) ∧
    (partOwned .speech 0 p = true ↔ p ∈ [1, 2]) ∧ (0 < i → (partOwned .speech i p = true ↔ 9 ≤ i)) ∧
    (partOwned .outbox 0 p = true ↔ p = 1) ∧
    (0 < i → (partOwned .outbox i p = true ↔ (0x18 ≤ p ∧ p < 0x1C) ∨ (0x38 ≤ p ∧ p < 0x3C))) ∧
    (partOwned .inbox 0 p = true ↔ p ∈ [0, 2]) ∧ (0 < i → partOwned .inbox i p = true) ∧
    (partOwned .event 0 p = true ↔ p ∈ [0, 2, 3]) ∧ (0 < i → (partOwned .event i p = true ↔ p % 16 ≠ 3 ∧ p % 16 ≠ 7)) ∧
    partOwned .textBodies i p = false := by
  have pos : 0 < i → i ≠ 0 := Nat.pos_iff_ne_zero.1
  refine ⟨?_, ?_, fun h => ?_, ?_, fun h => ?_, ?_, ?_, fun h => ?_, ?_, fun h => ?_, ?_, fun h => ?_, ?_, fun h => ?_, rfl⟩
  case refine_5 => simp [partOwned, pos h]; omega
  case refine_10 => simp [partOwned, pos h]; omega
  case refine_1 | refine_2 | refine_4 | refine_6 | refine_7 | refine_9 | refine_11 | refine_13 => simp [partOwned, or_assoc]
  all_goals simp [partOwned, pos h]

/-! ## The events of a write -/

theorem breach_none {k : Kind} {i : Nat} {bytes : LineBytes} {s : State}
    (h : ∀ p, p < 64 → bytesCover bytes p = true → partOwned k i p = false) : breach k i bytes s = s := by
  rw [breach, firstByte_none h]

theorem breach_some {k : Kind} {i p : Nat} {bytes : LineBytes} {s : State} (hp : p < 64) (c : bytesCover bytes p = true)
    (o : partOwned k i p = true) (first : ∀ q, q < p → bytesCover bytes q = true → partOwned k i q = false) :
    breach k i bytes s =
      raiseNow (event s .ownershipBreach .none k.code (recordOf k i p).1 0 0 (BitVec.ofNat 32 (recordOf k i p).2)) s := by
  rw [breach, firstByte_some hp c o first]

/-- The test of R14 on a byte of a write: frozen, of a partial watched word, or of a bad enable word. -/
def concerned (s : State) (k : Kind) (i : Nat) (bytes : LineBytes) (p : Nat) : Bool :=
  frozen k i p || partlyWatched s k i bytes p || badEnable s k i bytes p

theorem ignored_eq (k : Kind) (i : Nat) (bytes : LineBytes) (s : State) : ignored k i bytes s =
    (firstByte bytes (concerned s k i bytes)).elim s (fun p =>
      raiseNow (configIgnored s k (recordOf k i p).1 (recordOf k i p).2) s) := by
  show (match firstByte bytes (concerned s k i bytes) with | some p => _ | none => _) = _
  cases firstByte bytes (concerned s k i bytes) <;> rfl

theorem ignored_none {k : Kind} {i : Nat} {bytes : LineBytes} {s : State}
    (h : ∀ p, p < 64 → bytesCover bytes p = true → concerned s k i bytes p = false) : ignored k i bytes s = s := by
  rw [ignored_eq, firstByte_none h, Option.elim_none]

theorem ignored_some {k : Kind} {i p : Nat} {bytes : LineBytes} {s : State} (hp : p < 64) (c : bytesCover bytes p = true)
    (o : concerned s k i bytes p = true) (first : ∀ q, q < p → bytesCover bytes q = true → concerned s k i bytes q = false) :
    ignored k i bytes s = raiseNow (configIgnored s k (recordOf k i p).1 (recordOf k i p).2) s := by
  rw [ignored_eq, firstByte_some hp c o first, Option.elim_some]

theorem frozen_iff (k : Kind) (i p : Nat) : frozen k i p = true ↔
    (k = .anchor ∧ i = 0 ∧ (p < 4 ∨ (8 ≤ p ∧ p < 0x0C) ∨ (0x10 ≤ p ∧ p < 0x18))) ∨ (k = .anchor ∧ i = 1) := by
  cases k <;> simp [frozen, or_assoc]

theorem partlyWatched_iff (s : State) (k : Kind) (i : Nat) (bytes : LineBytes) (p : Nat) :
    partlyWatched s k i bytes p = true ↔
      (k = .anchor ∧ i = 0 ∧ 4 ≤ p ∧ p < 4 + 4 ∧ coversAll bytes 4 4 = false) ∨
      (s.bind.state = .bound ∧ ∃ w ∈ watchedWords k i, w.1 ≤ p ∧ p < w.1 + w.2.1 ∧ coversAll bytes w.1 w.2.1 = false) := by
  unfold partlyWatched enableStart
  simp [and_assoc]

theorem badEnable_iff (s : State) (k : Kind) (i : Nat) (bytes : LineBytes) (p : Nat) :
    badEnable s k i bytes p = true ↔
      k = .anchor ∧ i = 0 ∧ 4 ≤ p ∧ p < 8 ∧ coversAll bytes 4 4 = true ∧ s.bind.state = .bound ∧
        fieldValue bytes 4 4 ≠ 0 ∧ fieldValue bytes 4 4 ≠ 1 := by
  unfold badEnable enableBad enableStart
  simp [and_assoc]

theorem concerned_iff (s : State) (k : Kind) (i : Nat) (bytes : LineBytes) (p : Nat) :
    concerned s k i bytes p = true ↔
      (frozen k i p = true ∨ partlyWatched s k i bytes p = true) ∨ badEnable s k i bytes p = true := by
  simp [concerned]

/-- Settles O26. -/
theorem ownershipFilter : Obligations.OwnershipFilter := by
  unfold Obligations.OwnershipFilter
  refine ⟨⟨?kept, ?all, fun i p hp => partOwned_iff i hp, fun k i bytes s h => breach_none h,
    fun k i p bytes s hp c o first => breach_some hp c o first⟩, ?ignored, ?order⟩
  case kept => exact fun s line bytes k i h l p => mem_keptBytes (filterPlace_on h l) p
  case all => exact fun s line bytes h => keptBytes_off (filterPlace_off h)
  case ignored =>
    intro k i bytes s part Concerned
    have same : ∀ p, concerned s k i bytes p = true ↔ Concerned p := by
      intro p
      rw [concerned_iff, frozen_iff, partlyWatched_iff, badEnable_iff]
      simp only [Concerned, part, or_assoc]
    have off : ∀ p, ¬ Concerned p → concerned s k i bytes p = false :=
      fun p h => Bool.eq_false_iff.2 (fun c => h ((same p).1 c))
    exact ⟨fun p hp c o first => ignored_some hp c ((same p).2 o) (fun q hq cq => off q (first q hq cq)),
      fun h => ignored_none (fun p hp c => off p (h p hp c))⟩
  case order =>
    intro s w ws tag arrived h hw takes t
    refine ⟨fun b k i l => ?_, fun off => ?_⟩
    · have place : filterPlace t w.line = some (k, i) := filterPlace_on b l
      rw [exec_hostWriteAccept h hw takes, decode, place]
    · have place : filterPlace t w.line = none := filterPlace_off off
      rw [exec_hostWriteAccept h hw takes, decode, place]

end Sys2Proof.Machine
end

section
/-! SUPPORT. RESET_N asserted (R17, R46, R64). -/

namespace Sys2Proof.Machine

/-- The end of a fold of placed writes: the writes in the acceptance list, in their order, and nothing else but the moments. -/
theorem joinWrites_form (ws : List WriteReq) (s : State) : ∃ c joined,
    ws.foldl (fun u w => joinWrite w u) s = { s with mem := { s.mem with clock := c, accept := s.mem.accept ++ joined } } ∧
    joined.map (fun w => (w.writer, w.line, w.bytes)) = ws.map (fun w => (.part w.note, w.line, w.bytes)) := by
  induction ws generalizing s with
  | nil => exact ⟨s.mem.clock, [], by simp, rfl⟩
  | cons w ws ih =>
    obtain ⟨c, joined, e, hj⟩ := ih (joinWrite w s)
    refine ⟨c, { writer := .part w.note, line := w.line, bytes := w.bytes, speech := w.speech, joined := s.mem.clock } ::
      joined, ?_, by simp [hj]⟩
    rw [List.foldl_cons, e]
    simp [joinWrite, tickClock]

theorem atReset_part {w v : AccWrite} (h : w.atReset = some v) : v.isHost = false := by
  unfold AccWrite.atReset at h
  split at h
  · cases h
  · cases h
  · cases h; rfl

/-- The state at RESET_N's assertion before the reads it frees are served: self-refresh left (R46, R64). -/
def resetAsserted (s : State) : State :=
  { s with
    resetN := true, resetPhase := .draining, teardown := teardownWrites s, port := Port.initial
    out := { s.out with
      answers := s.out.answers ++ errorAnswers s
      mem := if s.mem.memState = .selfRefresh then s.out.mem ++ [.selfRefreshExit] else s.out.mem }
    mem := { s.mem with
      accept := s.mem.accept.filterMap AccWrite.atReset, readWaits := [], waits := [], pubs := []
      reads := (s.mem.reads.map (fun r => if r.for_.isInternal then { r with discard := true } else r)).map ReadEntry.hush
      memState := if s.mem.memState = .selfRefresh then .exiting else s.mem.memState }
    bind := { s.bind with
      unbindTimer := .stopped, noDetach := false, heldEvents := [], anchorLines := [], regionLines := [] }
    link := { Link.initial with nextId := s.link.nextId }
    conn := Conn.initial, cells := Cells.initial, mob := Mob.initial, calls := Calls.initial, speech := Speech.initial
    texts := Texts.initial, sleep := Sleep.initial, events := Events.initial }

theorem beginWarmReset_eq (s : State) : beginWarmReset s = serveReads (resetAsserted s) := by
  by_cases h : s.mem.memState = .selfRefresh <;>
    simp [beginWarmReset, presentExit, resetAsserted, resetJobs, discardReads, memOut, h]

theorem drained_iff (s : State) : drained s = true ↔ s.mem.accept = [] ∧ s.mem.reads = [] ∧ s.mem.queue = [] ∧
    s.mem.stage = [] ∧ s.mem.inFlight = [] ∧ s.mem.memState = .active := by
  simp [drained, memoryQuiet, and_assoc]

/-- Everything the assertion of RESET_N settles at once, whether the sequence drains or writes the teardown next (R46, R64). -/
structure ResetBegun (s t : State) : Prop where
  resetN : t.resetN = true
  phase : t.resetPhase ≠ .idle
  port : t.port = Port.initial
  accept : ∀ w ∈ t.mem.accept, w.isHost = false
  waits : t.mem.waits = []
  readWaits : t.mem.readWaits = []
  pubs : t.mem.pubs = []
  queue : t.mem.queue = s.mem.queue
  stage : t.mem.stage = s.mem.stage
  inFlight : t.mem.inFlight = s.mem.inFlight
  answers : (s.out.answers ++ errorAnswers s) <+: t.out.answers
  link : t.out.link = s.out.link
  memory : (t.mem.memState, t.out.mem) = (if s.mem.memState = .selfRefresh then
    (.exiting, s.out.mem ++ [.selfRefreshExit]) else (s.mem.memState, s.out.mem))
  jobs : t.link = { Link.initial with nextId := s.link.nextId } ∧ t.conn = Conn.initial ∧ t.cells = Cells.initial ∧
    t.mob = Mob.initial ∧ t.calls = Calls.initial ∧ t.speech = Speech.initial ∧ t.texts = Texts.initial ∧
    t.sleep = Sleep.initial ∧ t.events = Events.initial

theorem beginWarmReset_begun (s : State) : ResetBegun s (beginWarmReset s) := by
  rw [beginWarmReset_eq]
  refine { resetN := rfl, phase := nofun, port := rfl, accept := fun w hw => ?_, waits := rfl, readWaits := rfl, pubs := rfl,
           queue := rfl, stage := rfl, inFlight := rfl, answers := List.prefix_append _ _, link := rfl, memory := ?_,
           jobs := ⟨rfl, rfl, rfl, rfl, rfl, rfl, rfl, rfl, rfl⟩ }
  · obtain ⟨v, -, e⟩ := List.mem_filterMap.1 hw
    exact atReset_part e
  · show ((resetAsserted s).mem.memState, (resetAsserted s).out.mem) = _
    by_cases h : s.mem.memState = .selfRefresh <;> simp [resetAsserted, h]

/-- The teardown writes join an acceptance list that holds no other write. -/
theorem ResetBegun.placeTeardown {s t : State} (h : ResetBegun s t) (empty : t.mem.accept = []) :
    ResetBegun s (placeTeardown t) ∧ (placeTeardown t).resetPhase = .teardown ∧ (placeTeardown t).teardown = [] ∧
      (placeTeardown t).mem.reads = t.mem.reads ∧ (placeTeardown t).mem.accept.map (fun w => (w.writer, w.line, w.bytes)) =
        t.teardown.map (fun w => (.part w.note, w.line, w.bytes)) := by
  obtain ⟨c, joined, e, hj⟩ := joinWrites_form t.teardown { t with resetPhase := .teardown, teardown := [] }
  have e' : Sys2Proof.Machine.placeTeardown t = { t with
      resetPhase := .teardown, teardown := [], mem := { t.mem with clock := c, accept := joined } } := by
    unfold Sys2Proof.Machine.placeTeardown
    rw [e]
    simp [empty]
  rw [e']
  have part : ∀ w ∈ joined, w.isHost = false := by
    intro w hw
    have : (w.writer, w.line, w.bytes) ∈ t.teardown.map (fun w => (Writer.part w.note, w.line, w.bytes)) :=
      hj ▸ List.mem_map_of_mem hw
    obtain ⟨q, -, hq⟩ := List.mem_map.1 this
    simp only [Prod.mk.injEq] at hq
    simp [AccWrite.isHost, ← hq.1]
  exact ⟨{ h with phase := nofun, accept := part }, rfl, rfl, rfl, hj⟩

theorem warmReset_begun (s : State) : ResetBegun s (warmReset s) := by
  have b := beginWarmReset_begun s
  unfold warmReset
  dsimp only
  split
  · rename_i d
    exact (b.placeTeardown ((drained_iff _).1 d).1).1
  · exact b

/-- What RESET_N's assertion leaves: a sequence that drains, or one that writes the teardown already (R17, R46). -/
theorem warmReset_sequence (s : State) :
    ((warmReset s).resetPhase = .draining ∧ drained (warmReset s) = false ∧ (warmReset s).teardown = teardownWrites s ∧
      (warmReset s).mem.accept = s.mem.accept.filterMap AccWrite.atReset) ∨
    ((warmReset s).resetPhase = .teardown ∧ s.mem.accept.filterMap AccWrite.atReset = [] ∧ (warmReset s).mem.reads = [] ∧
      s.mem.queue = [] ∧ s.mem.stage = [] ∧ s.mem.inFlight = [] ∧ s.mem.memState = .active ∧ (warmReset s).teardown = [] ∧
      (warmReset s).mem.accept.map (fun w => (w.writer, w.line, w.bytes)) =
        (teardownWrites s).map (fun w => (.part w.note, w.line, w.bytes))) := by
  have b := beginWarmReset_begun s
  have accept : (beginWarmReset s).mem.accept = s.mem.accept.filterMap AccWrite.atReset := by rw [beginWarmReset_eq]; rfl
  have teardown : (beginWarmReset s).teardown = teardownWrites s := by rw [beginWarmReset_eq]; rfl
  have phase : (beginWarmReset s).resetPhase = .draining := by rw [beginWarmReset_eq]; rfl
  unfold warmReset
  dsimp only
  split
  · rename_i d
    obtain ⟨noWrites, noReads, queue, stage, inFlight, active⟩ := (drained_iff _).1 d
    obtain ⟨-, hp, ht, hr, ha⟩ := b.placeTeardown noWrites
    have mem : s.mem.memState = .active := by
      have m := congrArg Prod.fst b.memory
      by_cases h : s.mem.memState = .selfRefresh
      · simp [h, active] at m
      · simpa [h, active] using m.symm
    exact .inr ⟨hp, accept ▸ noWrites, hr.trans noReads, b.queue ▸ queue, b.stage ▸ stage, b.inFlight ▸ inFlight, mem, ht,
      teardown ▸ ha⟩
  · rename_i d
    exact .inl ⟨phase, Bool.eq_false_iff.2 d, teardown, accept⟩

theorem exec_warmReset_idle {s : State} (h : s.resetPhase = .idle) : exec .warmReset s = .next (warmReset s) := if_pos h

theorem teardownWrites_off {s : State} (h : filtering s = false) : teardownWrites s = [] := by simp [teardownWrites, h]

theorem teardownWrites_on {s : State} (h : filtering s = true) : teardownWrites s =
    ((List.finRange 4).filter (fun r => (s.calls.recs[r]).state != .free)).map (fun r =>
      writeAt s .call r.val [(0x10, CallState.free.code), (0x15, Cause.reset.code)]) ++
    s.texts.send.toList.map (fun x =>
      writeAt s .outbox (descLine x.desc.val) [(32 * (x.desc.val % 2) + 0x18, DescState.interrupted.code)]) ++
    [writeAt s .anchor 2 [(0, 0), (1, 0), (2, 0)]] := by
  have calls : (List.finRange 4).filterMap (fun r => if (s.calls.recs[r]).state == .free then none
        else some (writeAt s .call r.val (fieldBytes [(0x10, [CallState.free.code]), (0x15, [Cause.reset.code])]))) =
      ((List.finRange 4).filter (fun r => (s.calls.recs[r]).state != .free)).map (fun r =>
        writeAt s .call r.val [(0x10, CallState.free.code), (0x15, Cause.reset.code)]) := by
    rw [← List.filterMap_eq_filter, List.map_filterMap]
    congr 1
    funext r
    cases hr : (s.calls.recs[r]).state == .free <;> simp_all [bne, Option.guard, fieldBytes, bytesAt]
  unfold teardownWrites
  rw [if_pos h, calls]
  rfl

/-- Settles O11. -/
theorem warmResetBegins : Obligations.WarmResetBegins := by
  unfold Obligations.WarmResetBegins
  refine ⟨?always, ?begins, ?none, ?writes⟩
  case always =>
    intro s
    by_cases h : s.resetPhase = .idle
    · exact ⟨_, exec_warmReset_idle h, (warmReset_begun s).resetN, (warmReset_begun s).phase⟩
    · exact ⟨_, execWarmReset_running h, rfl, h⟩
  case begins =>
    intro s h
    have b := warmReset_begun s
    exact ⟨_, exec_warmReset_idle h, b.resetN, b.phase, b.port, b.accept, b.waits, b.readWaits, b.pubs, b.queue, b.stage,
      b.inFlight, b.answers, b.link, b.memory, warmReset_sequence s, b.jobs⟩
  case none =>
    intro s h h'
    exact teardownWrites_off (Bool.eq_false_iff.2 (fun f => ((filtering_iff s).1 f).elim h h'))
  case writes =>
    intro s h
    exact teardownWrites_on ((filtering_iff s).2 h)

end Sys2Proof.Machine
end

section
/-! SUPPORT. The enable word and the reads of a binding (R4 to R7, R9, R14, R15). -/

namespace Sys2Proof.Machine

/-! ## Rest, where the binding changes or its reads are placed -/

/-- A change of the region decoder keeps the rest, unless it is an unbinding about to end. -/
theorem resting_bind {s : State} {b : Binder} (h : Resting s) (k : b.state ≠ .unbinding ∨ b.noDetach = false) :
    Resting { s with bind := b } := by
  obtain ⟨steady_s, rest⟩ := h
  refine ⟨?_, rest⟩
  have u : (b.state == .unbinding && b.noDetach) = false := by
    rcases k with k | k
    · simp [k]
    · simp [k]
  simp only [steady, Bool.and_eq_true] at steady_s ⊢
  obtain ⟨⟨⟨⟨⟨⟨refused, shut⟩, -⟩, back⟩, round⟩, arrivals⟩, head⟩ := steady_s
  exact ⟨⟨⟨⟨⟨⟨refused, shut⟩, by rw [u]; rfl⟩, back⟩, round⟩, arrivals⟩, head⟩

/-- Internal reads that find room are placed in their order, and a part at rest stays so (R28). -/
theorem emitReads_resting (fs : List (ReadFor × Line)) {s : State} (rest : Resting s)
    (host : ∀ r ∈ s.mem.reads, r.isHost = true) (room : fs.length ≤ 4) (internal : ∀ f ∈ fs, f.1.isInternal = true) :
    let t := fs.foldl (fun s f => emitRead .binder f.1 f.2 s) s
    Resting t ∧ t.bind = s.bind ∧ t.port = s.port ∧ t.mem.accept = s.mem.accept ∧
      (t.mem.reads.filter (fun r => !r.isHost)).map (fun r => (r.for_, r.line)) = fs := by
  have none : s.mem.reads.filter (fun r => !r.isHost) = [] := by
    rw [List.filter_eq_nil_iff]
    intro r hr
    simp [host r hr]
  obtain ⟨h1, h2, h3, h4, waits, readWaits, h7⟩ := rest
  obtain ⟨reads, placed, ⟨k1, k2, k3, k4, k5, -, k7⟩, b, p, a⟩ := emitReads_joined fs .binder s waits readWaits []
    (by rw [none]; rfl) (by simpa using room) internal
    (fun t => Resting { t with mem := { t.mem with readWaits := [] } } ∧ t.bind = s.bind ∧ t.port = s.port ∧
      t.mem.accept = s.mem.accept)
    (fun _ _ _ h => h) ⟨⟨h1, h2, h3, h4, waits, rfl, h7⟩, rfl, rfl, rfl⟩
  exact ⟨⟨k1, k2, k3, k4, k5, reads, k7⟩, b, p, a, by simpa using placed⟩

/-! ## The enable word -/

section
variable {s : State} {v : Word}

theorem exec_enableWordWrite (v : Word) (o : portOpen s = true) (b : s.port.bindHold = false)
    (h : s.port.sleepHold = false) : exec (.enableWordWrite v) s = .next (settle (enableWritten v s)) :=
  runIf_on _ _ (by simp [o, b, h])

theorem enableWritten_good (h : enableBad v s = false) : enableWritten v s = enableWord v s := by
  simp [enableWritten, h]

theorem enableBad_off (h : s.bind.state ≠ .bound) : enableBad v s = false := by simp [enableBad, h]

/-- Where the enable word has no effect the part at rest is left as it is. -/
theorem exec_enableWordWrite_still (o : portOpen s = true) (b : s.port.bindHold = false) (h : s.port.sleepHold = false)
    (rest : Resting s) (good : enableBad v s = false) (still : enableWord v s = s) :
    exec (.enableWordWrite v) s = .next s := by
  rw [exec_enableWordWrite v o b h, enableWritten_good good, still, settle_resting rest]

/-- The region decoder as a capture begins (R6). -/
def captureBinder (b : Binder) : Binder :=
  { b with state := .capturing, rejection := none, captured := none, anchorLines := [], regionLines := [], nextRegion := 0
           heldEvents := [] }

/-- The hold in force, and no internal read placed yet (R6, R20). -/
def captureHeld (s : State) : State :=
  { s with
    bind := captureBinder s.bind
    port := { s.port with bindHold := true, held := s.mem.accept.filterMap AccWrite.toHeld ++ s.port.held }
    mem := { s.mem with accept := s.mem.accept.filter (fun w => !w.isHost) } }

theorem beginCapture_eq (s : State) : beginCapture s =
    [(ReadFor.anchor 0, s.bind.line .anchor 0), (.anchor 1, s.bind.line .anchor 1), (.anchor 2, s.bind.line .anchor 2),
      (.anchor 3, s.bind.line .anchor 3)].foldl (fun s f => emitRead .binder f.1 f.2 s) (captureHeld s) :=
  fold_lines ReadFor.anchor (fun k => (Kind.anchor, k)) (List.range 4) (captureHeld s) (captureBinder s.bind) rfl

theorem enableWord_begins (h : s.bind.state = .unbound ∨ s.bind.state = .rejected) : enableWord 1 s = beginCapture s := by
  rcases h with h | h <;> simp [enableWord, h]

/-- A rejected binding given up (R5, R8). -/
theorem enableWord_gives_up (rej : s.bind.state = .rejected) (waits : s.mem.waits = []) (room : Room 1 s) :
    enableWord 0 s =
      joinWrite (statusWrite s 0 none .none) { s with bind := { s.bind with state := .unbound, rejection := none } } := by
  unfold enableWord
  rw [rej]
  exact emitWrite_room (w := statusWrite s 0 none .none) (n := 0) waits room rfl

/-- The enable word 1 where no binding stands: the hold, the four anchor reads, and the rest kept (R4 to R6). -/
theorem exec_enableWordWrite_capture (o : portOpen s = true) (b : s.port.bindHold = false) (h : s.port.sleepHold = false)
    (free : s.bind.state = .unbound ∨ s.bind.state = .rejected) (rest : Resting s)
    (host : ∀ r ∈ s.mem.reads, r.isHost = true) :
    ∃ t, exec (.enableWordWrite 1) s = .next t ∧ t.bind = captureBinder s.bind ∧ t.port = (captureHeld s).port ∧
      t.mem.accept = (captureHeld s).mem.accept ∧ (t.mem.reads.filter (fun r => !r.isHost)).map (fun r => (r.for_, r.line)) =
        [(.anchor 0, s.bind.line .anchor 0), (.anchor 1, s.bind.line .anchor 1), (.anchor 2, s.bind.line .anchor 2),
          (.anchor 3, s.bind.line .anchor 3)] := by
  have good : enableBad 1 s = false := by simp [enableBad]
  have rest' : Resting (captureHeld s) := resting_bind (s := { captureHeld s with bind := s.bind }) rest (.inl nofun)
  obtain ⟨rest'', bind, port, accept, reads⟩ := emitReads_resting
    [(ReadFor.anchor 0, s.bind.line .anchor 0), (.anchor 1, s.bind.line .anchor 1), (.anchor 2, s.bind.line .anchor 2),
      (.anchor 3, s.bind.line .anchor 3)] rest' host (Nat.le_refl 4) (by simp [ReadFor.isInternal])
  rw [← beginCapture_eq] at rest'' bind port accept reads
  refine ⟨beginCapture s, ?_, bind, port, accept, reads⟩
  rw [exec_enableWordWrite 1 o b h, enableWritten_good good, enableWord_begins free, settle_resting rest'']

/-- A value the part ignores with an event (R14). -/
theorem exec_enableWordWrite_ignored (o : portOpen s = true) (b : s.port.bindHold = false) (h : s.port.sleepHold = false)
    (rest : Resting s) (st : s.bind.state = .bound) (ne0 : v ≠ 0) (ne1 : v ≠ 1) (clear : EventClear s) :
    exec (.enableWordWrite v) s = .next (eventPlaced (configIgnored s .anchor 0 4) s) := by
  have bad : enableBad v s = true := by
    simp only [enableBad, st, Bool.and_eq_true, bne_iff_ne]
    exact ⟨⟨rfl, ne0⟩, ne1⟩
  have still : enableWritten v s = eventPlaced (configIgnored s .anchor 0 4) s := by
    unfold enableWritten enableWord
    rw [if_pos bad, enableStart, raiseNow_placed rest clear rfl, eventPlaced_get_bind, st]
    exact if_neg ne0
  rw [exec_enableWordWrite v o b h, still, settle_resting (eventPlaced_resting rest)]

/-- The enable word gives up a rejection (R5). -/
theorem exec_enableWordWrite_gives_up (o : portOpen s = true) (b : s.port.bindHold = false) (h : s.port.sleepHold = false)
    (rest : Resting s) (st : s.bind.state = .rejected) (room : Room 1 s) :
    exec (.enableWordWrite 0) s = .next
      (joinWrite (statusWrite s 0 none .none) { s with bind := { s.bind with state := .unbound, rejection := none } }) := by
  have given : Resting { s with bind := { s.bind with state := .unbound, rejection := none } } :=
    resting_bind rest (.inl nofun)
  rw [exec_enableWordWrite 0 o b h, enableWritten_good (enableBad_off (by simp [st])),
    enableWord_gives_up st rest.2.2.2.2.1 room, settle_resting (joinWrite_resting given)]

end

end Sys2Proof.Machine

namespace Sys2Proof
open Machine

/-- Settles O28, by the binding state. -/
theorem enableWord : Obligations.EnableWord := by
  unfold Obligations.EnableWord
  refine ⟨?capture, fun s v o b h rest => ⟨?unbound, ?rejected, ?givenUp, ?again, ?bad, ?busy⟩⟩
  case capture =>
    intro s o b h free rest host
    obtain ⟨t, e, bind, port, accept, reads⟩ := exec_enableWordWrite_capture o b h free rest host
    exact ⟨t, e, by rw [bind]; rfl, by rw [bind]; rfl, by rw [port]; rfl, by rw [port]; rfl, accept, reads⟩
  case unbound =>
    intro st ne
    refine exec_enableWordWrite_still o b h rest (enableBad_off (by simp [st])) ?_
    rw [Machine.enableWord, st]
    exact if_neg ne
  case rejected =>
    intro st ne0 ne1
    refine exec_enableWordWrite_still o b h rest (enableBad_off (by simp [st])) ?_
    rw [Machine.enableWord, st]
    exact (if_neg ne1).trans (if_neg ne0)
  case givenUp => exact exec_enableWordWrite_gives_up o b h rest
  case again =>
    intro st
    exact exec_enableWordWrite_still o b h rest (by simp [enableBad]) (by simp [Machine.enableWord, st])
  case bad =>
    intro st ne0 ne1 clear
    exact exec_enableWordWrite_ignored o b h rest st ne0 ne1 clear
  case busy =>
    intro st
    have off : s.bind.state ≠ .bound := by rcases st with st | st <;> simp [st]
    exact exec_enableWordWrite_still o b h rest (enableBad_off off)
      (by rcases st with st | st <;> simp [Machine.enableWord, st])

end Sys2Proof
end

section
/-! SUPPORT. The validation of a captured copy and the anchor reads (R3, R6, R7, R9). -/

namespace Sys2Proof.Machine

/-! ## The checks of R7 -/

theorem capacityOk_iff (c : Captured) : capacityOk c = true ↔ c.capacity.toNat ∈ [16, 32, 64, 128] := by
  simp [capacityOk]

/-- The sizes of R3 in bytes. -/
def sizeInBytes (c : Captured) : Kind → Nat
  | .plan => 128 | .cell => 896 | .call => 256 | .speech => 1088 | .outbox => 576 | .inbox => 6208
  | .event => 64 + 16 * c.capacity.toNat | _ => 0

theorem requiredSize_eq {c : Captured} (h : c.capacity.toNat ∈ [16, 32, 64, 128]) {k : Kind}
    (hk : k ∈ regionKinds ++ [Kind.textBodies]) : requiredSize c k = sizeInBytes c k := by
  have four : 64 * (1 + c.capacity.toNat / 4) = 64 + 16 * c.capacity.toNat := by
    simp only [List.mem_cons, List.not_mem_nil, or_false] at h
    omega
  cases k with
  | event => exact four
  | anchor => simp [regionKinds] at hk
  | _ => rfl

theorem sizeInBytes_pos {c : Captured} {k : Kind} (hk : k ∈ regionKinds) : 0 < sizeInBytes c k := by
  cases k with
  | event => simp only [sizeInBytes]; omega
  | anchor | textBodies => simp [regionKinds] at hk
  | _ => simp [sizeInBytes]

/-- Two stretches of bytes that are not empty share one exactly when each begins before the other's end. -/
theorem stretches_meet {a n b m : Nat} (hn : 0 < n) (hm : 0 < m) :
    (∃ x, a ≤ x ∧ x < a + n ∧ b ≤ x ∧ x < b + m) ↔ a < b + m ∧ b < a + n := by
  constructor
  · rintro ⟨x, h⟩
    omega
  · intro h
    exact ⟨max a b, by omega⟩

/-- A region's base as R7 has it: on a line, and within the address space. -/
def GoodBase (c : Captured) (k : Kind) : Prop :=
  (c.base k).toNat % 64 = 0 ∧ (c.base k).toNat + sizeInBytes c k ≤ 0x100000000

/-- Two regions share a byte. -/
def RegionsMeet (c : Captured) (j k : Kind) : Prop :=
  j ≠ k ∧ ∃ b : Nat, (c.base j).toNat ≤ b ∧ b < (c.base j).toNat + sizeInBytes c j ∧
    (c.base k).toNat ≤ b ∧ b < (c.base k).toNat + sizeInBytes c k

/-- A region shares a byte with another one or with the anchor block. -/
def RegionClash (x : BitVec 2) (c : Captured) (k : Kind) : Prop :=
  (∃ j ∈ regionKinds, RegionsMeet c k j) ∨ ∃ b : Nat, (c.base k).toNat ≤ b ∧
    b < (c.base k).toNat + sizeInBytes c k ∧ 64 * anchorLine x ≤ b ∧ b < 64 * anchorLine x + 256

section
variable {x : BitVec 2} {c : Captured}

theorem baseOk_iff (h : c.capacity.toNat ∈ [16, 32, 64, 128]) {k : Kind} (hk : k ∈ regionKinds) :
    baseOk c k = true ↔ GoodBase c k := by
  unfold baseOk GoodBase
  rw [requiredSize_eq h (List.mem_append_left _ hk), Bool.and_eq_true, beq_iff_eq, decide_eq_true_eq]

theorem extent_region (h : c.capacity.toNat ∈ [16, 32, 64, 128]) {k : Kind} (hk : k ∈ regionKinds) :
    extent x c k = ((c.base k).toNat, sizeInBytes c k) := by
  rw [← requiredSize_eq h (List.mem_append_left _ hk)]
  cases k with
  | anchor => simp [regionKinds] at hk
  | _ => rfl

theorem overlaps_region (h : c.capacity.toNat ∈ [16, 32, 64, 128]) {j k : Kind} (hj : j ∈ regionKinds)
    (hk : k ∈ regionKinds) : overlaps x c k j = true ↔ RegionsMeet c k j := by
  unfold overlaps RegionsMeet
  rw [extent_region h hj, extent_region h hk, stretches_meet (sizeInBytes_pos hk) (sizeInBytes_pos hj)]
  simp only [Bool.and_eq_true, bne_iff_ne, decide_eq_true_eq, and_assoc]

theorem overlaps_anchor (h : c.capacity.toNat ∈ [16, 32, 64, 128]) {k : Kind} (hk : k ∈ regionKinds) :
    overlaps x c k .anchor = true ↔ ∃ b : Nat, (c.base k).toNat ≤ b ∧ b < (c.base k).toNat + sizeInBytes c k ∧
      64 * anchorLine x ≤ b ∧ b < 64 * anchorLine x + 256 := by
  have ne : k ≠ .anchor := by rintro rfl; simp [regionKinds] at hk
  unfold overlaps
  rw [extent_region h hk, stretches_meet (sizeInBytes_pos hk) (by decide)]
  simp only [extent, Bool.and_eq_true, bne_iff_ne, and_assoc]
  exact (and_iff_right ne).trans (and_congr decide_eq_true_iff decide_eq_true_iff)

theorem clash_iff (h : c.capacity.toNat ∈ [16, 32, 64, 128]) {k : Kind} (hk : k ∈ regionKinds) :
    (Kind.anchor :: regionKinds).any (fun j => overlaps x c k j) = true ↔ RegionClash x c k := by
  rw [List.any_cons, Bool.or_eq_true, overlaps_anchor h hk, List.any_eq_true, or_comm]
  unfold RegionClash
  have same : (∃ j ∈ regionKinds, overlaps x c k j = true) ↔ ∃ j ∈ regionKinds, RegionsMeet c k j :=
    exists_congr (fun j => and_congr_right (fun hj => overlaps_region h hj hk))
  rw [same]

theorem validate_version (h : c.version ≠ 1) : validate x c = some (.badVersion, none) := if_pos h

theorem validate_capacity (v : c.version = 1) (h : c.capacity.toNat ∉ [16, 32, 64, 128]) :
    validate x c = some (.badCapacity, none) := by
  have bad : (!capacityOk c) = true := by simpa [capacityOk] using h
  unfold validate
  rw [if_neg (not_not_intro v), if_pos bad]

/-- With the version and the capacity good, the regions are checked base by base, then size by size, then for overlaps. -/
theorem validate_regions (v : c.version = 1) (h : c.capacity.toNat ∈ [16, 32, 64, 128]) :
    validate x c = match regionKinds.find? (fun k => !baseOk c k) with
    | some k => some (.badBase, some k)
    | none =>
      match (regionKinds ++ [Kind.textBodies]).find? (fun k => (c.size k).toNat != requiredSize c k) with
      | some k => some (.badSize, some k)
      | none =>
        match regionKinds.find? (fun k => (Kind.anchor :: regionKinds).any (fun j => overlaps x c k j)) with
        | some k => some (.overlap, some k)
        | none => none := by
  have ok : ¬ (!capacityOk c) = true := by rw [(capacityOk_iff c).2 h]; decide
  unfold validate
  rw [if_neg (not_not_intro v), if_neg ok] <;> rfl

theorem bases_found (h : c.capacity.toNat ∈ [16, 32, 64, 128]) (good : ∀ k ∈ regionKinds, GoodBase c k) :
    regionKinds.find? (fun k => !baseOk c k) = none := by
  rw [List.find?_eq_none]
  intro k hk
  rw [(baseOk_iff h hk).2 (good k hk)]
  decide

theorem sizes_found (h : c.capacity.toNat ∈ [16, 32, 64, 128])
    (same : ∀ k ∈ regionKinds ++ [Kind.textBodies], (c.size k).toNat = sizeInBytes c k) :
    (regionKinds ++ [Kind.textBodies]).find? (fun k => (c.size k).toNat != requiredSize c k) = none := by
  rw [List.find?_eq_none]
  intro k hk
  rw [requiredSize_eq h hk, same k hk]
  simp

variable (v : c.version = 1) (h : c.capacity.toNat ∈ [16, 32, 64, 128])
include v h

theorem validate_base {pre post : List Kind} {k : Kind} (e : regionKinds = pre ++ k :: post)
    (good : ∀ j ∈ pre, GoodBase c j) (bad : ¬ GoodBase c k) : validate x c = some (.badBase, some k) := by
  have mem : ∀ j ∈ pre, j ∈ regionKinds := fun j hj => by rw [e]; exact List.mem_append_left _ hj
  have hk : k ∈ regionKinds := by rw [e]; simp
  have found : regionKinds.find? (fun k => !baseOk c k) = some k := find_split e
    (fun j hj => by rw [(baseOk_iff h (mem j hj)).2 (good j hj)]; rfl)
    (by rw [Bool.eq_false_iff.2 (fun b => bad ((baseOk_iff h hk).1 b))]; rfl)
  rw [validate_regions v h, found]

theorem validate_size (good : ∀ k ∈ regionKinds, GoodBase c k) {pre post : List Kind} {k : Kind}
    (e : regionKinds ++ [Kind.textBodies] = pre ++ k :: post)
    (same : ∀ j ∈ pre, (c.size j).toNat = sizeInBytes c j) (bad : (c.size k).toNat ≠ sizeInBytes c k) :
    validate x c = some (.badSize, some k) := by
  have mem : ∀ j ∈ pre, j ∈ regionKinds ++ [Kind.textBodies] := fun j hj => by rw [e]; exact List.mem_append_left _ hj
  have hk : k ∈ regionKinds ++ [Kind.textBodies] := by rw [e]; simp
  have found : (regionKinds ++ [Kind.textBodies]).find? (fun k => (c.size k).toNat != requiredSize c k) = some k :=
    find_split e (fun j hj => by rw [requiredSize_eq h (mem j hj), same j hj]; simp)
      (by rw [requiredSize_eq h hk]; simpa using bad)
  rw [validate_regions v h, bases_found h good, found]

theorem validate_overlap (good : ∀ k ∈ regionKinds, GoodBase c k)
    (same : ∀ k ∈ regionKinds ++ [Kind.textBodies], (c.size k).toNat = sizeInBytes c k) {pre post : List Kind} {k : Kind}
    (e : regionKinds = pre ++ k :: post) (apart : ∀ j ∈ pre, ¬ RegionClash x c j) (clash : RegionClash x c k) :
    validate x c = some (.overlap, some k) := by
  have mem : ∀ j ∈ pre, j ∈ regionKinds := fun j hj => by rw [e]; exact List.mem_append_left _ hj
  have hk : k ∈ regionKinds := by rw [e]; simp
  have found : regionKinds.find? (fun k => (Kind.anchor :: regionKinds).any (fun j => overlaps x c k j)) = some k :=
    find_split e (fun j hj => Bool.eq_false_iff.2 (fun b => apart j hj ((clash_iff h (mem j hj)).1 b)))
      ((clash_iff h hk).2 clash)
  rw [validate_regions v h, bases_found h good, sizes_found h same, found]

theorem validate_good (good : ∀ k ∈ regionKinds, GoodBase c k)
    (same : ∀ k ∈ regionKinds ++ [Kind.textBodies], (c.size k).toNat = sizeInBytes c k)
    (apart : ∀ k ∈ regionKinds, ¬ RegionClash x c k) : validate x c = none := by
  have found : regionKinds.find? (fun k => (Kind.anchor :: regionKinds).any (fun j => overlaps x c k j)) = none := by
    rw [List.find?_eq_none]
    intro k hk b
    exact apart k hk ((clash_iff h hk).1 b)
  rw [validate_regions v h, bases_found h good, sizes_found h same, found]

end

/-! ## A read of a binding completes -/

/-- The part without a read that has completed from DRAM. -/
def readTaken (r : ReadEntry) (s : State) : State :=
  { s with mem := { s.mem with
    reads := s.mem.reads.erase r, inFlight := s.mem.inFlight.erase (.read r.arrived r.line) } }

theorem readTaken_resting {s : State} {r : ReadEntry} (h : Resting s) : Resting (readTaken r s) := resting_mem h rfl rfl

/-- A read in flight and wanted, next of its line, is handed over with its error (R38, R44). -/
theorem runRead_inFlight {s : State} {r : ReadEntry} {data : List Byte} (err : Bool) {g : Completed → State → State}
    (fly : r.status = .inFlight) (wanted : r.discard = false) (next : nextOfLine s.mem (.read r.arrived r.line) = true) :
    runRead (some r) data err g s = .next (settle
      (g (composeLine (if err then [] else fitTo 64 data) (upperLayers s.mem r.line), err, false) (readTaken r s))) := by
  have loud : r.silent = false := by simp [ReadEntry.silent, wanted]
  unfold runRead
  rw [Option.bind_some, takeCompleted_found fly next, loud, wanted]
  simp [readTaken]

section
variable {s : State} {k : Fin 4} {line : BitVec 26} {data : List Byte} {r : ReadEntry}

theorem exec_anchorReadDone (err : Bool) (due : dueRead (fun f => f == .anchor k.val) line.toNat s.mem = some r)
    (fly : r.status = .inFlight) (wanted : r.discard = false) (next : nextOfLine s.mem (.read r.arrived r.line) = true) :
    exec (.anchorReadDone k ⟨line, data⟩ err) s = .next (settle (anchorRead k.val
      (composeLine (if err then [] else fitTo 64 data) (upperLayers s.mem r.line), err, false) (readTaken r s))) := by
  show runRead (dueRead (fun f => f == .anchor k.val) line.toNat s.mem) data err (anchorRead k.val) s = _
  rw [due, runRead_inFlight err fly wanted next]

/-- The anchor's lines with one more. -/
def anchorKept (k : Nat) (l : List Byte) (s : State) : State :=
  { s with bind := { s.bind with anchorLines := s.bind.anchorLines ++ [(k, l)] } }

theorem anchorRead_kept {l : List Byte} {k : Nat} (capturing : s.bind.state = .capturing) :
    anchorRead k (l, false, false) s =
      if s.bind.anchorLines.length = 3 then anchorCaptured (anchorKept k l s) else anchorKept k l s := by
  unfold anchorRead
  simp [capturing, anchorKept]

theorem anchorRead_failed {l : List Byte} {k : Nat} (capturing : s.bind.state = .capturing) :
    anchorRead k (l, true, false) s = rejectBinding .memory none s := by
  simp [anchorRead, capturing]

theorem anchorCaptured_rejects {cause : Cause} {kind : Option Kind}
    (h : validate s.bind.straps (captureOf s.bind.anchorLines) = some (cause, kind)) :
    anchorCaptured s = rejectBinding cause kind s := by
  simp [anchorCaptured, h]

/-- The part with the anchor's words captured. -/
def anchorChecked (s : State) : State :=
  { s with bind := { s.bind with captured := some (captureOf s.bind.anchorLines), anchorLines := [] } }

theorem anchorCaptured_reads (h : validate s.bind.straps (captureOf s.bind.anchorLines) = none) :
    anchorCaptured s = readGroup (anchorChecked s) := by
  simp [anchorCaptured, h, anchorChecked]

theorem anchorKept_resting {l : List Byte} {k : Nat} (h : Resting s) (capturing : s.bind.state = .capturing) :
    Resting (anchorKept k l s) := resting_bind h (.inl (by show s.bind.state ≠ _; rw [capturing]; exact nofun))

theorem anchorChecked_resting (h : Resting s) (capturing : s.bind.state = .capturing) : Resting (anchorChecked s) :=
  resting_bind h (.inl (by show s.bind.state ≠ _; rw [capturing]; exact nofun))

/-- With the anchor's words good, the first four regions' lines are read (R9). -/
theorem anchorRead_group {v : State} (rest : Resting v) (capturing : v.bind.state = .capturing) (fresh : v.bind.nextRegion = 0)
    (host : ∀ x ∈ v.mem.reads, x.isHost = true) (ok : validate v.bind.straps (captureOf v.bind.anchorLines) = none) :
    ∃ t, settle (anchorCaptured v) = t ∧ t.bind.state = .capturing ∧
      t.bind.captured = some (captureOf v.bind.anchorLines) ∧ t.bind.nextRegion = 4 ∧
      (t.mem.reads.filter (fun x => !x.isHost)).map (fun x => (x.for_, x.line)) =
        [(.region 0, t.bind.line .plan 0), (.region 1, t.bind.line .plan 1), (.region 2, t.bind.line .cell 1),
          (.region 3, t.bind.line .cell 2)] := by
  obtain ⟨restr, bind, reads⟩ := readGroup_reads (anchorChecked v) (anchorChecked_resting rest capturing) host
  have from0 : (anchorChecked v).bind.nextRegion = 0 := fresh
  rw [anchorCaptured_reads ok, settle_resting restr]
  refine ⟨_, rfl, by rw [bind]; exact capturing, by rw [bind]; rfl, by rw [bind, from0]; rfl, ?_⟩
  rw [reads, bind, from0]
  rfl

end

/-- Settles O29: the checks one after another, then the anchor reads. -/
theorem bindingValidation : Obligations.BindingValidation := by
  unfold Obligations.BindingValidation
  refine ⟨?checks, ?reads⟩
  case checks =>
    intro x c size kinds good meet clash
    have sizes : size = sizeInBytes c := by funext k; cases k <;> rfl
    have hgood : good = GoodBase c := by funext k; simp only [good, sizes]; rfl
    have hclash : clash = RegionClash x c := by funext k; simp only [clash, meet, sizes]; rfl
    rw [hgood, hclash, sizes]
    refine ⟨validate_version, validate_capacity, fun v h => ⟨fun pre k post e g b => validate_base v h e g b,
      fun g => ⟨fun pre k post e s b => validate_size v h g e s b,
        fun s => ⟨fun pre k post e a k => validate_overlap v h g s e a k, validate_good v h g s⟩⟩⟩⟩
  case reads =>
    intro s k line data r rest capturing due fly wanted next
    have restu : Resting (readTaken r s) := readTaken_resting rest
    have capt : (readTaken r s).bind.state = .capturing := capturing
    have kept := exec_anchorReadDone (data := data) false due fly wanted next
    rw [anchorRead_kept capt, if_neg Bool.false_ne_true] at kept
    generalize composeLine (fitTo 64 data) (upperLayers s.mem r.line) = l at kept ⊢
    intro u lines
    have full : s.bind.anchorLines.length = 3 → (readTaken r s).bind.anchorLines.length = 3 := id
    refine ⟨fun few => ?_, fun three cause kind bad => ?_, fun three ok fresh host => ?_, ?_⟩
    · rw [kept, if_neg (show ¬ (readTaken r s).bind.anchorLines.length = 3 from ne_of_lt few), settle_resting (anchorKept_resting restu capt)]
      rfl
    · rw [kept, if_pos (full three),
        anchorCaptured_rejects (s := anchorKept k.val l (readTaken r s)) (cause := cause) (kind := kind) bad]
      rfl
    · obtain ⟨t, e, facts⟩ := anchorRead_group (v := anchorKept k.val l (readTaken r s))
        (anchorKept_resting restu capt) capt fresh host ok
      exact ⟨t, by rw [kept, if_pos (full three), e], facts⟩
    · rw [exec_anchorReadDone true due fly wanted next, anchorRead_failed capt]
      rfl

end Sys2Proof.Machine
end

section
/-! SUPPORT. The beginning and the end of an unbinding (R15, R16, R80). -/

namespace Sys2Proof.Machine

/-! ## The unbinding begins -/

section
variable {s : State}

theorem enableWord_unbinds (h : s.bind.state = .bound) : enableWord 0 s = beginUnbind s := by simp [enableWord, h]

theorem exec_enableWordWrite_unbind (o : portOpen s = true) (b : s.port.bindHold = false) (h : s.port.sleepHold = false)
    (bound : s.bind.state = .bound) : exec (.enableWordWrite 0) s = .next (settle (beginUnbind s)) := by
  have good : enableBad 0 s = false := by simp [enableBad]
  rw [exec_enableWordWrite 0 o b h, enableWritten_good good, enableWord_unbinds bound]

/-- The part with its unbinding's timer running and the status write placed (R15). -/
def unbindingTold (s : State) : State :=
  joinWrite (statusWrite s 3 none .none)
    { s with bind := { s.bind with state := .unbinding, unbindTimer := .running 50, noDetach := false } }

theorem unbindingTold_resting (h : Resting s) : Resting (unbindingTold s) :=
  joinWrite_resting (resting_bind h (.inr rfl))

/-- A shutdown from CAMPED, with nothing else going on, hands its DETACH at once (R80). -/
theorem requestShutdown_camped {cause : Cause} (camped : s.conn.state = .camped) (up : s.conn.shutdown = none)
    (calls : callsFree s = true) (send : s.texts.send = none) (resv : s.texts.resv = []) (still : s.mob.state = .idle)
    (pubs : s.mem.pubs = []) : requestShutdown cause s = emitMsg .detach (shuttingDown cause s) := by
  have serves : (s.conn.state == .noService) = false := by rw [camped]; rfl
  rw [shutdown_plain up (camped ▸ nofun) calls send resv still pubs, serves]
  rfl

theorem beginUnbind_camped (waits : s.mem.waits = []) (room : Room 1 s) (clear : LinkClear s) (camped : s.conn.state = .camped)
    (up : s.conn.shutdown = none) (calls : callsFree s = true) (send : s.texts.send = none) (resv : s.texts.resv = [])
    (still : s.mob.state = .idle) (pubs : s.mem.pubs = []) (pending : s.events.pending = []) (owed : s.events.owed = none) :
    beginUnbind s = emitMsg .detach (shuttingDown .unbind (unbindingTold s)) := by
  obtain ⟨-, queue, outside, -, -⟩ := clear
  let x := { s with bind := { s.bind with state := .unbinding, unbindTimer := .running 50 } }
  let w := statusWrite s 3 none .none
  have placed : emitWrite .binder w x = joinWrite w x := emitWrite_room (n := 0) waits room rfl
  have told := emitMsg_queued (m := .detach) (s := shuttingDown .unbind (joinWrite w x)) waits queue outside
  have bare : (emitMsg .detach (shuttingDown .unbind (joinWrite w x))).conn = (shuttingDown .unbind x).conn := by
    rw [told]; rfl
  have off : (((shuttingDown .unbind x).conn.state == .off) || (shuttingDown .unbind x).conn.shutNoDetach) = false := by
    show (s.conn.state == .off || false) = false
    rw [camped]; rfl
  have bind : (emitMsg .detach (shuttingDown .unbind (joinWrite w x))).bind = x.bind := by rw [told]; rfl
  have asked : requestShutdown .unbind (joinWrite w x) = emitMsg .detach (shuttingDown .unbind (joinWrite w x)) :=
    requestShutdown_camped camped up calls send resv still pubs
  unfold beginUnbind
  show placeEvents { requestShutdown .unbind (emitWrite .binder w x) with
    bind := { (requestShutdown .unbind (emitWrite .binder w x)).bind with
      noDetach := (requestShutdown .unbind (emitWrite .binder w x)).conn.state == .off ||
        (requestShutdown .unbind (emitWrite .binder w x)).conn.shutNoDetach } } = _
  rw [placed, asked, bare, off, bind, told, placeEvents_done (by exact pending) (by exact owed)]
  exact (emitMsg_queued (s := shuttingDown .unbind (unbindingTold s)) waits queue outside).symm

theorem exec_enableWordWrite_camped (o : jobsRun s = true) (bound : s.bind.state = .bound) (b : s.port.bindHold = false)
    (h : s.port.sleepHold = false) (rest : Resting s) (room : Room 1 s) (clear : LinkClear s) (camped : s.conn.state = .camped)
    (up : s.conn.shutdown = none) (calls : callsFree s = true) (send : s.texts.send = none) (resv : s.texts.resv = [])
    (still : s.mob.state = .idle) (pubs : s.mem.pubs = []) :
    exec (.enableWordWrite 0) s = .next (sent .detach (shuttingDown .unbind (unbindingTold s))) := by
  have opens : portOpen s = true := by
    simp only [jobsRun, Bool.and_eq_true] at o
    exact o.1.1
  have near : Near (unbindingTold s) := (unbindingTold_resting rest).near
  have clear' : LinkClear (unbindingTold s) := by
    obtain ⟨lo, link⟩ := clear
    refine ⟨?_, link⟩
    simp only [linkOpen, jobsRun, Bool.and_eq_true] at lo ⊢
    obtain ⟨⟨⟨p, -⟩, e⟩, u⟩ := lo
    exact ⟨⟨⟨p, rfl⟩, e⟩, u⟩
  obtain ⟨-, pending, owed, -, waits, -⟩ := rest
  rw [exec_enableWordWrite_unbind opens b h bound,
    beginUnbind_camped waits room clear camped up calls send resv still pubs pending owed, detach_any (s := unbindingTold s) camped near clear']

end

/-! ## The unbinding ends -/

theorem setMode_eq (mode : ArbMode) (m : MemPath) : ∃ count, setMode mode m = { m with mode := mode, count := count } := by
  unfold setMode
  split <;> rename_i h
  · exact ⟨m.count, by rw [← h]⟩
  · exact ⟨0, rfl⟩

/-- The end of forcing leaves everything of the memory path but the arbiter's mode and its count. -/
theorem endForce_eq (m : MemPath) : ∃ mode forced count,
    endForce m = { m with mode := mode, forced := forced, count := count } := by
  unfold endForce
  split
  · obtain ⟨count, e⟩ := setMode_eq (if Config.readFirstAt < m.queue.length then .drain else .readFirst)
      { m with forced := false }
    exact ⟨_, false, count, e⟩
  · exact ⟨m.mode, m.forced, m.count, rfl⟩

section
variable {s : State}

/-- The part with its jobs at their power-on values, before the status write UNBOUND (R16). -/
def jobsAtRest (s : State) : State :=
  resetJobs { s with
    mem := endForce s.mem, bind := { s.bind with ending := true, unbindTimer := .stopped, noDetach := false } }

theorem unbindEnd_room (waits : s.mem.waits = []) (room : Room 1 s) :
    unbindEnd s = wakeMemory (joinWrite (statusWrite s 0 none .unbound) (jobsAtRest s)) := by
  have placed : emitWrite .binder (statusWrite s 0 none .unbound) (jobsAtRest s) =
      joinWrite (statusWrite s 0 none .unbound) (jobsAtRest s) := by
    obtain ⟨mode, forced, count, e⟩ := endForce_eq s.mem
    refine emitWrite_room (n := 0) rfl ?_ rfl
    simpa [Room, jobsAtRest, resetJobs, discardReads, internalCount, e] using room
  unfold unbindEnd
  rw [waits]
  exact congrArg wakeMemory placed

/-- The jobs at their power-on values are at rest, whatever the memory path and the port have come to. -/
theorem jobsAtRest_resting {p : Port} {m : MemPath} {o : Outputs} (waits : m.waits = []) (readWaits : m.readWaits = []) :
    Resting { jobsAtRest s with port := p, mem := m, out := o } := by
  refine ⟨?_, rfl, rfl, .inl rfl, waits, readWaits, rfl, nofun, rfl⟩
  simp [steady, jobsAtRest, resetJobs, discardReads, Link.initial, Conn.initial, Cells.initial, Sleep.initial, Texts.initial,
    roundDue]

theorem jobsAtRest_silent {r : ReadEntry} (h : r ∈ (jobsAtRest s).mem.reads) (i : r.isHost = false) : r.silent = true := by
  obtain ⟨q, hq, rfl⟩ := List.mem_map.1 h
  have gone : q.discard = true := discardReads_internal hq i
  show (!q.hush.isHost && q.discard && true) = true
  rw [i, gone]
  rfl

theorem presentWrites_places (hs : List HostWrite) (s : State) : ∃ c joined,
    hs.foldl (fun t w => presentWrite w t) s = { s with mem := { s.mem with clock := c, accept := s.mem.accept ++ joined } } ∧
    joined.map (fun w => (w.writer, w.line, w.bytes)) = hs.map (fun h => (.host h.tag h.arrived, h.line, h.bytes)) := by
  induction hs generalizing s with
  | nil => exact ⟨s.mem.clock, [], by simp, rfl⟩
  | cons h hs ih =>
    obtain ⟨c, joined, e, hj⟩ := ih (presentWrite h s)
    refine ⟨c, { writer := .host h.tag h.arrived, line := h.line, bytes := h.bytes, speech := false, joined := s.mem.clock } ::
      joined, ?_, by simp [hj]⟩
    rw [List.foldl_cons, e]
    simp [presentWrite, tickClock]

/-- What the end of the sleep hold and of self-refresh leaves of the part (R20, R41). -/
structure Woken (s t : State) : Prop where
  form : ∃ p m o, t = { s with port := p, mem := m, out := o }
  sleepHold : t.port.sleepHold = false
  memory : (t.mem.memState, t.out.mem) =
    if s.mem.memState = .selfRefresh then (.exiting, s.out.mem ++ [.selfRefreshExit]) else (s.mem.memState, s.out.mem)
  queue : t.mem.queue = s.mem.queue
  stage : t.mem.stage = s.mem.stage
  pubs : t.mem.pubs = s.mem.pubs
  waits : t.mem.waits = s.mem.waits
  readWaits : t.mem.readWaits = s.mem.readWaits
  reads : (∀ r ∈ s.mem.reads, r.isHost = false → r.silent = true) → ∀ r ∈ t.mem.reads, r.isHost = false → r.silent = true
  accept : t.mem.accept.map (fun w => (w.writer, w.line, w.bytes)) =
    s.mem.accept.map (fun w => (w.writer, w.line, w.bytes)) ++ if s.port.sleepHold then heldAccepted s else []

/-- A read that serving keeps is the same read, further on. -/
theorem serveRead_same {r q : ReadEntry} (h : (serveRead s r).1 = some q) :
    q.for_ = r.for_ ∧ q.discard = r.discard ∧ q.quiet = r.quiet := by
  unfold serveRead at h
  dsimp only at h
  split at h
  · cases h; exact ⟨rfl, rfl, rfl⟩
  · split at h
    · split at h
      · cases h
      · cases h; exact ⟨rfl, rfl, rfl⟩
    · cases h; exact ⟨rfl, rfl, rfl⟩

theorem serveReads_silent (h : ∀ r ∈ s.mem.reads, r.isHost = false → r.silent = true) :
    ∀ r ∈ (serveReads s).mem.reads, r.isHost = false → r.silent = true := by
  intro q hq i
  obtain ⟨r, hr, e⟩ := List.mem_filterMap.1 hq
  obtain ⟨forr, discard, quiet⟩ := serveRead_same e
  have host : q.isHost = r.isHost := by simp [ReadEntry.isHost, forr]
  have silent := h r hr (host ▸ i)
  simpa [ReadEntry.silent, host, discard, quiet] using silent

theorem presentExit_eq (s : State) : ∃ x o, presentExit s =
      { s with mem := { s.mem with memState := x }, out := { s.out with mem := o } } ∧
    (x, o) =
      if s.mem.memState = .selfRefresh then (.exiting, s.out.mem ++ [.selfRefreshExit]) else (s.mem.memState, s.out.mem) := by
  unfold presentExit
  split
  · exact ⟨.exiting, _, rfl, rfl⟩
  · exact ⟨s.mem.memState, s.out.mem, rfl, rfl⟩

/-- The sleep hold lifted and the held writes presented, before the reads they free are served (R20). -/
def holdLifted (c : Nat) (joined : List AccWrite) (s : State) : State :=
  { s with
    port := { s.port with sleepHold := false, held := [] }
    mem := { s.mem with clock := c, accept := s.mem.accept ++ joined } }

theorem liftSleepHold_eq (s : State) : ∃ c joined, liftSleepHold s = serveReads (holdLifted c joined s) ∧
    joined.map (fun w => (w.writer, w.line, w.bytes)) = heldAccepted s := by
  obtain ⟨c, joined, e, hj⟩ := presentWrites_places s.port.held { s with port := { s.port with sleepHold := false, held := [] } }
  exact ⟨c, joined, congrArg serveReads e, hj⟩

theorem wakeMemory_woken (s : State) : Woken s (wakeMemory s) := by
  unfold wakeMemory
  split <;> rename_i hold
  · obtain ⟨c, joined, e, hj⟩ := liftSleepHold_eq s
    obtain ⟨x, o, exit, hx⟩ := presentExit_eq (serveReads (holdLifted c joined s))
    rw [e, exit]
    refine ⟨⟨_, _, _, rfl⟩, rfl, hx, rfl, rfl, rfl, rfl, rfl, serveReads_silent (s := holdLifted c joined s), ?_⟩
    rw [if_pos hold, ← hj, ← List.map_append]
    rfl
  · obtain ⟨x, o, exit, hx⟩ := presentExit_eq s
    rw [exit]
    refine ⟨⟨_, _, _, rfl⟩, Bool.eq_false_iff.2 hold, hx, rfl, rfl, rfl, rfl, rfl, fun h => h, ?_⟩
    rw [if_neg hold, List.append_nil]

/-- The jobs' return to their power-on values and the status write leave the memory path's queue and stage as they are. -/
theorem unboundPlaced_mem (s : State) (m : MemPath) (h : m = (joinWrite (statusWrite s 0 none .unbound) (jobsAtRest s)).mem) :
    m.queue = s.mem.queue ∧ m.stage = s.mem.stage ∧ m.memState = s.mem.memState ∧ m.pubs = [] ∧
      m.readWaits = (s.mem.readWaits.map (fun w => { w with reads := w.reads.filter (fun q => !q.1.isInternal) })).filter
        (fun w => !w.reads.isEmpty) ∧
      m.accept.map (fun w => (w.writer, w.line, w.bytes)) = s.mem.accept.map (fun w => (w.writer, w.line, w.bytes)) ++
        [(.part .unbound, s.bind.line .anchor 2, [(0, 0), (1, 0), (2, 0)])] := by
  obtain ⟨mode, forced, count, e⟩ := endForce_eq s.mem
  subst h
  simp only [joinWrite, tickClock, jobsAtRest, resetJobs, discardReads, e, List.map_append]
  exact ⟨trivial, trivial, trivial, trivial, trivial, rfl⟩

/-- What the end of an unbinding leaves, its status write placed (R16, R41). -/
theorem unbindEnd_woken (waits : s.mem.waits = []) (readWaits : s.mem.readWaits = []) (room : Room 1 s) :
    Resting (unbindEnd s) ∧ Woken (joinWrite (statusWrite s 0 none .unbound) (jobsAtRest s)) (unbindEnd s) := by
  rw [unbindEnd_room waits room]
  have woken := wakeMemory_woken (joinWrite (statusWrite s 0 none .unbound) (jobsAtRest s))
  refine ⟨?_, woken⟩
  have noWaits := woken.waits
  have noReadWaits : (wakeMemory (joinWrite (statusWrite s 0 none .unbound) (jobsAtRest s))).mem.readWaits = [] := by
    obtain ⟨-, -, -, -, left, -⟩ := unboundPlaced_mem s _ rfl
    rw [woken.readWaits, left, readWaits]
    rfl
  obtain ⟨p, m, o, e⟩ := woken.form
  rw [e] at noWaits noReadWaits ⊢
  exact jobsAtRest_resting noWaits noReadWaits

theorem exec_unbindTimerExpiry (run : jobsRun s = true) (due : s.bind.unbindTimer = .due) (st : s.bind.state = .unbinding) :
    exec .unbindTimerExpiry s = .next (settle (unbindEnd s)) :=
  runIf_on _ _ (by simp [run, due, st])

theorem joinOutside_nextId (l : Link) : (joinOutside l).nextId = l.nextId := by
  unfold joinOutside
  generalize l.outside = qs
  induction qs generalizing l with
  | nil => rfl
  | cons q qs ih =>
    rw [List.foldl_cons, ih]
    split <;> rfl

/-- The part with a message sent taken from the queue, its operation ended (R54, R59). -/
def sigTaken (q : QMsg) (s : State) : State :=
  { s with link := joinOutside { s.link with
    opSendSig := .stopped, askSendSig := none, unanswered := 0, queue := s.link.queue.filter (fun x => x.id != q.id) } }

theorem exec_sigSent {q : QMsg} (run : linkOpen s = true) (op : s.link.opSendSig.runs = true)
    (air : s.link.queue.find? (·.inFlight) = some q) : exec .sigSent s = .next (settle (toldSent q (sigTaken q s))) := by
  show runAnswer .sendSig sigSent s = _
  unfold runAnswer
  rw [runIf_on _ _ (by simp [run, Link.op, op])]
  unfold sigSent
  have air' : (endOp .sendSig s.link).queue.find? (·.inFlight) = some q := air
  rw [air']
  rfl

/-- The DETACH of a shutdown with cause UNBIND has been sent (R16, R59). -/
theorem toldSent_unbinds {q : QMsg} (job : msgJob q.msg = .conn) (area : s.conn.areaMsg = none)
    (detach : s.conn.detachMsg = some q.id) (unbind : s.conn.shutdown = some .unbind) (st : s.bind.state = .unbinding) :
    toldSent q s = unbindEnd (activity s) := by
  obtain ⟨i, e⟩ := activity_form s
  unfold toldSent
  rw [job, e]
  simp [area, detach, detachSent, unbind, st]

/-- What is left of a part once its unbinding has ended, the status write UNBOUND placed and not yet accepted (R16). -/
def UnbindingEnded (s t : State) : Prop :=
  t.bind.state = .unbinding ∧ t.bind.ending = true ∧
    t.link = { Link.initial with nextId := s.link.nextId } ∧ t.conn = Conn.initial ∧ t.cells = Cells.initial ∧
    t.mob = Mob.initial ∧ t.calls = Calls.initial ∧ t.speech = Speech.initial ∧ t.texts = Texts.initial ∧
    t.sleep = Sleep.initial ∧ t.events = Events.initial ∧ t.frame = s.frame ∧ t.mem.queue = s.mem.queue ∧
    t.mem.stage = s.mem.stage ∧ t.mem.pubs = [] ∧ t.port.sleepHold = false ∧
    (t.mem.memState, t.out.mem) = (if s.mem.memState = .selfRefresh then (.exiting, s.out.mem ++ [.selfRefreshExit])
      else (s.mem.memState, s.out.mem)) ∧
    (∀ r ∈ t.mem.reads, r.isHost = false → r.silent = true) ∧
    t.mem.accept.map (fun w => (w.writer, w.line, w.bytes)) = s.mem.accept.map (fun w => (w.writer, w.line, w.bytes)) ++
      [(.part .unbound, s.bind.line .anchor 2, [(0, 0), (1, 0), (2, 0)])] ++
      (if s.port.sleepHold then s.port.held.map (fun h => (.host h.tag h.arrived, h.line, h.bytes)) else [])

theorem unbindEnd_ended (st : s.bind.state = .unbinding) (waits : s.mem.waits = []) (readWaits : s.mem.readWaits = [])
    (room : Room 1 s) : Resting (unbindEnd s) ∧ UnbindingEnded s (unbindEnd s) := by
  obtain ⟨rest, woken⟩ := unbindEnd_woken waits readWaits room
  refine ⟨rest, ?_⟩
  obtain ⟨⟨p, m, o, e⟩, sleepHold, memory, queue, stage, pubs, -, -, reads, accept⟩ := woken
  obtain ⟨squeue, sstage, sstate, spubs, -, saccept⟩ := unboundPlaced_mem s _ rfl
  have quiet := reads (fun r hr i => jobsAtRest_silent (s := s) hr i)
  rw [squeue] at queue
  rw [sstage] at stage
  rw [spubs] at pubs
  rw [sstate] at memory
  rw [saccept] at accept
  generalize unbindEnd s = t at *
  subst e
  exact ⟨st, rfl, rfl, rfl, rfl, rfl, rfl, rfl, rfl, rfl, rfl, rfl, queue, stage, pubs, sleepHold, memory, quiet, accept⟩

/-- The radio link's and the connection's state before an unbinding's end does not matter to what it leaves. -/
theorem UnbindingEnded.of_link {l : Link} {c : Conn} {t : State} (id : l.nextId = s.link.nextId)
    (h : UnbindingEnded { s with link := l, conn := c } t) : UnbindingEnded s t := by
  obtain ⟨state, ending, link, rest⟩ := h
  exact ⟨state, ending, by rw [link]; exact congrArg (fun n => { Link.initial with nextId := n }) id, rest⟩

theorem exec_unbindEnd {c : Instr} (run : jobsRun s = true) (st : s.bind.state = .unbinding) (rest : Resting s) (room : Room 1 s)
    (ends : (c = .unbindTimerExpiry ∧ s.bind.unbindTimer = .due) ∨ (c = .sigSent ∧ s.link.up = true ∧
      s.link.opSendSig.runs = true ∧ s.conn.shutdown = some .unbind ∧ s.conn.areaMsg = none ∧
      ∃ q, s.link.queue.find? (·.inFlight) = some q ∧ msgJob q.msg = .conn ∧ s.conn.detachMsg = some q.id)) :
    ∃ t, exec c s = .next t ∧ UnbindingEnded s t := by
  obtain ⟨-, -, -, -, waits, readWaits, -⟩ := rest
  rcases ends with ⟨rfl, due⟩ | ⟨rfl, up, op, unbind, area, q, air, job, detach⟩
  · obtain ⟨still, ended⟩ := unbindEnd_ended st waits readWaits room
    exact ⟨_, by rw [exec_unbindTimerExpiry run due st, settle_resting still], ended⟩
  · have run' : linkOpen s = true := by simp [linkOpen, run, up]
    obtain ⟨i, e⟩ := activity_form (sigTaken q s)
    obtain ⟨still, ended⟩ := unbindEnd_ended (s := activity (sigTaken q s)) (by rw [e]; exact st) (by rw [e]; exact waits)
      (by rw [e]; exact readWaits) (by rw [e]; exact room)
    have told : toldSent q (sigTaken q s) = unbindEnd (activity (sigTaken q s)) := toldSent_unbinds job area detach unbind st
    refine ⟨_, by rw [exec_sigSent run' op air, told, settle_resting still], ?_⟩
    rw [e] at ended ⊢
    exact UnbindingEnded.of_link (l := (sigTaken q s).link) (joinOutside_nextId _) ended

end

/-- Settles O33: the beginning of an unbinding, then its end, then the acceptance of the status write UNBOUND. -/
theorem unbinding : Obligations.Unbinding := by
  unfold Obligations.Unbinding
  refine ⟨fun s o b h bound => exec_enableWordWrite_unbind o b h bound, ?camped, ?ends, ?unbound⟩
  case camped =>
    intro s run bound b h rest room clear camped up calls send resv still pubs
    exact exec_enableWordWrite_camped run bound b h rest room clear camped up calls send resv still pubs
  case ends =>
    intro s c run st rest room ends
    exact exec_unbindEnd run st rest room ends
  case unbound =>
    intro s w ws h hw takes rest reads
    obtain ⟨-, waits, readWaits, hreads, -⟩ := takeInternal_still w { s.mem with accept := ws }
    have rest' : Resting { s with mem := takeInternal w { s.mem with accept := ws } } := resting_mem rest waits readWaits
    rw [exec_internalWriteAccept h hw takes, accepted, unbindComplete, serveReads_none (hreads.trans reads),
      settle_resting (resting_bind rest' (.inr rfl))]

end Sys2Proof.Machine
end

section
/-! SUPPORT. The initial writes of a binding and its end (R10, R20, R192). -/

namespace Sys2Proof.Machine

/-! ## The regions of a valid copy lie apart -/

theorem validate_none {x : BitVec 2} {c : Captured} (h : validate x c = none) :
    (∀ k ∈ regionKinds, baseOk c k = true) ∧ ∀ k ∈ regionKinds, ∀ j ∈ regionKinds, overlaps x c k j = false := by
  have version : c.version = 1 := by
    by_contra v
    rw [validate_version v] at h
    cases h
  have capacity : c.capacity.toNat ∈ [16, 32, 64, 128] := by
    by_contra k
    rw [validate_capacity version k] at h
    cases h
  rw [validate_regions version capacity] at h
  split at h
  · cases h
  · rename_i bases
    split at h
    · cases h
    · split at h
      · cases h
      · rename_i clashes
        rw [List.find?_eq_none] at bases clashes
        refine ⟨fun k hk => by simpa using bases k hk, fun k hk j hj => ?_⟩
        have none := clashes k hk
        simp only [List.any_cons, Bool.or_eq_true, List.any_eq_true, not_or, not_exists, not_and] at none
        exact Bool.eq_false_iff.2 (none.2 j hj)

theorem lines_apart {a b m n : Nat} (ha : a % 64 = 0) (hb : b % 64 = 0) (apart : ¬ a < b + 64 * n ∨ ¬ b < a + 64 * m) :
    a / 64 + m ≤ b / 64 ∨ b / 64 + n ≤ a / 64 := by
  omega

theorem line_before {a b i m j n : Nat} (le : a ≤ b) (apart : a + m ≤ b ∨ b + n ≤ a) (hi : i < m) (hj : j < n) :
    a + i < b + j := by
  omega

theorem ne_anchor {k : Kind} (hk : k ∈ regionKinds) : k ≠ .anchor := by
  rintro rfl
  simp [regionKinds] at hk

theorem extent_of_ne {x : BitVec 2} {c : Captured} {k : Kind} (h : k ≠ .anchor) :
    extent x c k = ((c.base k).toNat, requiredSize c k) := by
  cases k with
  | anchor => exact absurd rfl h
  | _ => rfl

theorem firstLine_captured {b : Binder} {c : Captured} (h : b.captured = some c) {k : Kind} (hk : k ≠ .anchor) :
    b.firstLine k = (c.base k).toNat / 64 := by
  cases k with
  | anchor => exact absurd rfl hk
  | _ => simp [Binder.firstLine, h]

theorem capacity_captured {b : Binder} {c : Captured} (h : b.captured = some c) : b.capacity = c.capacity.toNat := by
  simp [Binder.capacity, h]

section
variable {s : State}

theorem initialWrite_some {k : Kind} {i : Nat} {w : WriteReq} (h : initialWrite s k i = some w) :
    w = writeAt s k i (bytesOver (fieldBytes (initialFields s k i)) (partZeros k i)) := by
  unfold initialWrite at h
  dsimp only at h
  split at h
  · cases h
  · exact (Option.some.inj h).symm

theorem initialWrite_covers {k : Kind} {i pos : Nat} (hi : i < k.lines s.bind.capacity) (hp : pos < 64)
    (owned : partOwned k i pos = true) :
    initialWrite s k i = some (writeAt s k i (bytesOver (fieldBytes (initialFields s k i)) (partZeros k i))) := by
  have covers := (over_owned s k i hi).2 pos hp owned
  refine if_neg fun empty => ?_
  rw [List.isEmpty_iff.1 empty] at covers
  cases covers

theorem bytesGet_zeros (l : List Nat) (pos : Nat) :
    bytesGet (l.map (fun p => (p, (0 : Byte)))) pos = if pos ∈ l then some 0 else none := by
  induction l with
  | nil => rfl
  | cons p l ih =>
    rw [List.map_cons, bytesGet_cons, ih]
    by_cases h : p = pos
    · simp [h]
    · simp [h, Ne.symm h]

/-- An owned byte of an initial write holds its field's value, and 0 where it is of no field. -/
theorem bytesGet_initial {f : LineBytes} {k : Kind} {i pos : Nat} (hp : pos < 64) (owned : partOwned k i pos = true) :
    bytesGet (bytesOver f (partZeros k i)) pos = some ((bytesGet f pos).getD 0) := by
  have zero : bytesGet (partZeros k i) pos = some 0 := by
    unfold partZeros
    rw [bytesGet_zeros, if_pos (List.mem_filter.2 ⟨List.mem_range.2 hp, owned⟩)]
  rw [bytesGet_over, zero]
  cases bytesGet f pos <;> rfl

theorem mem_initialWrites {w : WriteReq} : w ∈ initialWrites s ↔
    ∃ k ∈ regionKinds, ∃ i < k.lines s.bind.capacity, initialWrite s k i = some w := by
  simp only [initialWrites, List.mem_flatMap, List.mem_filterMap, List.mem_range, regionsByAddress,
    (sortBy_perm _ regionKinds).mem_iff]

variable {c : Captured} (captured : s.bind.captured = some c) (valid : validate s.bind.straps c = none)
include captured valid

/-- Of two regions one ends before the other begins. -/
theorem regions_apart {j k : Kind} (hj : j ∈ regionKinds) (hk : k ∈ regionKinds) (ne : j ≠ k) :
    s.bind.firstLine j + j.lines s.bind.capacity ≤ s.bind.firstLine k ∨
      s.bind.firstLine k + k.lines s.bind.capacity ≤ s.bind.firstLine j := by
  obtain ⟨bases, overlap⟩ := validate_none valid
  have apart := overlap j hj k hk
  have based := fun {k} (hk : k ∈ regionKinds) => bases k hk
  simp only [baseOk, Bool.and_eq_true, beq_iff_eq, decide_eq_true_eq] at based
  obtain ⟨lineJ, -⟩ := based hj
  obtain ⟨lineK, -⟩ := based hk
  rw [firstLine_captured captured (ne_anchor hj), firstLine_captured captured (ne_anchor hk), capacity_captured captured]
  unfold overlaps at apart
  rw [extent_of_ne (ne_anchor hj), extent_of_ne (ne_anchor hk)] at apart
  simp only [requiredSize, Bool.and_eq_false_iff, bne_eq_false_iff_eq] at apart
  rcases apart with (same | after) | before
  · exact absurd same ne
  · exact lines_apart lineJ lineK (.inl (of_decide_eq_false after))
  · exact lines_apart lineJ lineK (.inr (of_decide_eq_false before))

/-- The initial writes come in ascending order of their lines (R10). -/
theorem initialWrites_ascend : (initialWrites s).Pairwise (fun a b => a.line < b.line) := by
  unfold initialWrites
  rw [List.pairwise_flatMap]
  constructor
  · intro k _
    rw [List.pairwise_filterMap]
    refine List.pairwise_lt_range.imp fun {i j} lt w hw v hv => ?_
    rw [initialWrite_some hw, initialWrite_some hv]
    exact Nat.add_lt_add_left lt _
  · have sorted := sortBy_sorted s.bind.firstLine regionKinds
    have distinct : (regionsByAddress s.bind).Pairwise (· ≠ ·) :=
      (sortBy_perm _ regionKinds).nodup_iff.2 (by decide)
    refine (sorted.and distinct).imp_of_mem fun {j k} hj hk ⟨le, ne⟩ w hw v hv => ?_
    rw [regionsByAddress, (sortBy_perm _ regionKinds).mem_iff] at hj hk
    obtain ⟨i, hi, hw⟩ := List.mem_filterMap.1 hw
    obtain ⟨n, hn, hv⟩ := List.mem_filterMap.1 hv
    rw [List.mem_range] at hi hn
    rw [initialWrite_some hw, initialWrite_some hv]
    show s.bind.firstLine j + i < s.bind.firstLine k + n
    exact line_before le (regions_apart captured valid hj hk ne) hi hn

end

/-- The status write BOUND is accepted where no event is held: the hold ends and the held writes are presented (R20, R192). -/
theorem exec_internalWriteAccept_bound {s : State} {w : AccWrite} {ws : List AccWrite} (h : s.mem.accept = w :: ws)
    (hw : w.writer = .part .bound) (takes : internalTakes s.mem w = true) (rest : Resting s) (none : s.bind.heldEvents = []) :
    ∃ t, exec .internalWriteAccept s = .next t ∧ t.bind = { s.bind with state := .bound, heldEvents := [] } ∧
      t.port = { s.port with bindHold := false, held := [] } ∧
      t.events = { s.events with running := true, published := s.events.producer } ∧
      t.mem.accept.map (fun x => (x.writer, x.line, x.bytes)) =
        ws.map (fun x => (x.writer, x.line, x.bytes)) ++ heldAccepted s := by
  obtain ⟨haccept, hwaits, hreadWaits, -⟩ := takeInternal_still w { s.mem with accept := ws }
  let u : State := { s with
    mem := takeInternal w { s.mem with accept := ws }
    bind := { s.bind with state := .bound, heldEvents := [] }
    events := { s.events with running := true, published := s.events.producer }
    port := { s.port with bindHold := false } }
  obtain ⟨m, e, mwaits, mreadWaits, -, maccept⟩ := presentHeld_form u
  have bound : bindComplete { s with mem := takeInternal w { s.mem with accept := ws } } = presentHeld u := by
    unfold bindComplete
    dsimp only
    rw [none]
    rfl
  have rest' : Resting (serveReads { u with port := { u.port with held := [] }, mem := m }) := by
    obtain ⟨st, pending, owed, link, waits, readWaits, more⟩ :=
      resting_bind (b := { s.bind with state := .bound, heldEvents := [] }) rest (.inl nofun)
    exact ⟨st, pending, owed, link, (mwaits.trans hwaits).trans waits, (mreadWaits.trans hreadWaits).trans readWaits, more⟩
  refine ⟨serveReads { u with port := { u.port with held := [] }, mem := m }, ?_, rfl, rfl, rfl, ?_⟩
  · rw [exec_internalWriteAccept h hw takes, accepted, bound, e, settle_resting rest']
  · show m.accept.map _ = _
    rw [maccept]
    show (takeInternal w { s.mem with accept := ws }).accept.map _ ++ _ = _
    rw [haccept]
    rfl

/-- Settles O32: the initial writes in their order and with their bytes, the initial fields, and the end of the binding. -/
theorem bindingCompletes : Obligations.BindingCompletes := by
  unfold Obligations.BindingCompletes
  refine ⟨?writes, ?fields, ?bound⟩
  case writes =>
    rintro s ⟨c, captured, valid⟩
    refine ⟨initialWrites s, rfl, initialWrites_ascend captured valid, fun k i pos hk hi hp owned => ?_⟩
    obtain ⟨only, covers⟩ := over_owned s k i hi
    exact ⟨_, mem_initialWrites.2 ⟨k, hk, i, hi, initialWrite_covers hi hp owned⟩, rfl, covers pos hp owned, only,
      bytesGet_initial hp owned⟩
  case fields =>
    intro s
    refine ⟨rfl, rfl, rfl, fun n => ?_, fun i => rfl, rfl, rfl, rfl, rfl, fun i hi => ?_⟩
    · have slot : 1 ≤ n.val + 1 ∧ n.val + 1 < 14 := by omega
      exact dif_pos slot
    · have ne : i ≠ 0 := by omega
      exact ⟨if_neg ne, if_neg ne, if_neg ne, if_neg ne⟩
  case bound =>
    intro s w ws h hw takes rest none off
    exact exec_internalWriteAccept_bound h hw takes rest none

end Sys2Proof.Machine
end

section
/-! SUPPORT. The region reads and the values they give (R9, R67, R84, R103, R172). -/

namespace Sys2Proof.Machine

/-! ## The words of a line -/

theorem bytesGet_bytesAt (l : List Byte) (start k : Nat) :
    bytesGet (bytesAt start l) k = if start ≤ k then l[k - start]? else none := by
  induction l generalizing start with
  | nil => simp [bytesAt, bytesGet]
  | cons b l ih =>
    rw [bytesAt, bytesGet_cons, ih]
    rcases lt_trichotomy start k with lt | rfl | gt
    · obtain ⟨n, rfl⟩ := Nat.exists_eq_add_of_lt lt
      rw [if_neg (by omega), if_pos (by omega), if_pos (by omega), show start + n + 1 - start = n + 1 by omega,
        show start + n + 1 - (start + 1) = n by omega, List.getElem?_cons_succ]
    · simp
    · rw [if_neg (by omega), if_neg (by omega), if_neg (by omega)]

theorem bytesGet_lineBytes (l : List Byte) {k : Nat} (h : k < 64) : bytesGet (lineBytes l) k = some (byteOf l k) := by
  simp [lineBytes, bytesGet_bytesAt, fitTo, h]

/-- The byte a watched word of one byte has in a line, and the half one of two bytes has. -/
theorem fieldValue_byte (l : List Byte) {k : Nat} (h : k < 64) : lowHalf (fieldValue (lineBytes l) k 1) = (byteOf l k).setWidth 16 := by
  simp [fieldValue, bytesGet_lineBytes l h, lowHalf]

theorem fieldValue_half (l : List Byte) {k : Nat} (h : k < 63) : lowHalf (fieldValue (lineBytes l) k 2) = halfOf l k := by
  have low : bytesGet (lineBytes l) k = some (byteOf l k) := bytesGet_lineBytes l (by omega)
  have high : bytesGet (lineBytes l) (k + 1) = some (byteOf l (k + 1)) := bytesGet_lineBytes l (by omega)
  have lt := (byteOf l k).isLt
  have lt' := (byteOf l (k + 1)).isLt
  apply BitVec.eq_of_toNat_eq
  rw [halfOf, BitVec.toNat_append, ← Nat.shiftLeft_add_eq_or_of_lt lt, Nat.shiftLeft_eq]
  simp [fieldValue, List.range_succ, low, high, lowHalf]
  omega

/-! ## A vector's elements set one after another -/

theorem foldl_set_get {α : Type} {n : Nat} (f : Fin n → α → α) (l : List (Fin n)) (once : l.Nodup) (v : Vector α n) (m : Fin n) :
    (l.foldl (fun v i => v.set i (f i v[i])) v)[m] = if m ∈ l then f m v[m] else v[m] := by
  induction l generalizing v with
  | nil => rfl
  | cons i l ih =>
    rw [List.nodup_cons] at once
    obtain ⟨out, once⟩ := once
    rw [List.foldl_cons, ih once]
    by_cases e : m = i
    · subst e
      simp [out]
    · have apart : i.val ≠ m.val := fun h => e (Fin.ext h.symm)
      simp [e, apart]

theorem foldl_set_finRange {α : Type} {n : Nat} (f : Fin n → α → α) (v : Vector α n) :
    (List.finRange n).foldl (fun v i => v.set i (f i v[i])) v = Vector.ofFn (fun i => f i v[i]) := by
  apply Vector.ext
  intro i h
  have one := foldl_set_get f (List.finRange n) (List.nodup_finRange n) v ⟨i, h⟩
  rw [if_pos (List.mem_finRange _)] at one
  simpa using one

/-! ## The parameters in force after a notice or a binding (R67, R103, R172) -/

/-- A flag's new value: the one given, if it is one. -/
def flagTaken (x : Byte) (old : Bool) : Bool := if x = 0 then false else if x = 1 then true else old
/-- A number's new value: the one given, if it is in its range. -/
def numTaken (lo hi x old : Nat) : Nat := if lo ≤ x ∧ x ≤ hi then x else old
/-- A threshold's new value: the one given, if it is a level. -/
def levelTaken (x : Half) (old : Int) : Int := if -140 ≤ x.toInt ∧ x.toInt ≤ -30 then x.toInt else old
/-- A cycle's new value: the one given, if it is a listen cycle. -/
def cycleTaken (x : Half) (old : Nat) : Nat := if x.toNat ∈ [64, 128, 256, 512] then x.toNat else old

theorem toNat_zero_iff (x : Byte) : x.toNat = 0 ↔ x = 0 := (BitVec.toNat_eq (y := (0 : Byte))).symm

theorem toNat_one_iff (x : Byte) : x.toNat = 1 ↔ x = 1 := (BitVec.toNat_eq (y := (1 : Byte))).symm

theorem boolOf_taken (x : Byte) (old : Bool) : (boolOf (x.setWidth 16 : Half).toNat).getD old = flagTaken x old := by
  simp only [boolOf, flagTaken, BitVec.toNat_setWidth_of_le (show 8 ≤ 16 by decide), toNat_zero_iff,
    toNat_one_iff]
  split
  · rfl
  · split <;> rfl

theorem natIn_taken (lo hi x old : Nat) : (natIn lo hi x).getD old = numTaken lo hi x old := by
  unfold natIn numTaken
  split <;> rfl

theorem levelIn_taken (x : Half) (old : Int) : (levelIn x).getD old = levelTaken x old := by
  unfold levelIn levelTaken
  dsimp only
  split <;> rfl

theorem cycleIn_taken (x : Half) (old : Nat) : (cycleIn x).getD old = cycleTaken x old := by
  have same : (x.toNat = 64 ∨ x.toNat = 128 ∨ x.toNat = 256 ∨ x.toNat = 512) ↔ x.toNat ∈ [64, 128, 256, 512] := by simp
  unfold cycleIn cycleTaken
  simp only [same]
  split <;> rfl

/-- What a notice leaves of the sleep controller's parameters. -/
def sleepTaken (c : Instr) (p : Sleep) : Sleep :=
  match c with
  | .sleepParameter q v => (takeSleepParam q v p).getD p
  | _ => p

/-- What a notice leaves of the connection's parameters. -/
def connTaken (c : Instr) (p : Conn) : Conn :=
  match c with
  | .connectionParameter q v => (takeConnParam q v p).getD p
  | _ => p

/-- What a notice leaves of the mobility's parameters. -/
def mobTaken (c : Instr) (p : Mob) : Mob :=
  match c with
  | .mobilityParameter q v => (takeMobParam q v p).getD p
  | _ => p

section
variable {s : State} {x : Half}

theorem takeParam_sleep_ignored {q : SleepParam} (h : takeSleepParam q x s.sleep = none) :
    takeParam (.sleepParameter q x) s = holdEvent (configIgnored s .plan 0 (SleepParam.offset q)) s := by simp [takeParam, h]

theorem takeParam_conn_ignored {q : ConnParam} (h : takeConnParam q x s.conn = none) :
    takeParam (.connectionParameter q x) s = holdEvent (configIgnored s .plan 0 (ConnParam.offset q)) s := by simp [takeParam, h]

theorem takeParam_mob_ignored {q : MobParam} (h : takeMobParam q x s.mob = none) :
    takeParam (.mobilityParameter q x) s = holdEvent (configIgnored s .plan 0 (MobParam.offset q)) s := by simp [takeParam, h]

theorem takeSlotWord_ignored {n : Fin 13} {w : CellWord} (h : cellWordOk w x = false) : takeSlotWord n w x s =
    holdEvent (configIgnored s .cell (BitVec.ofNat 16 n.val) (CellWord.offset w)) s := by simp [takeSlotWord, h]

end

theorem takeParam_form (c : Instr) (s : State) : ∃ h, takeParam c s = { s with
    sleep := sleepTaken c s.sleep, conn := connTaken c s.conn, mob := mobTaken c s.mob
    bind := { s.bind with heldEvents := h } } := by
  cases c with
  | sleepParameter q v =>
    cases h : takeSleepParam q v s.sleep with
    | some p => exact ⟨s.bind.heldEvents, by simp [takeParam, sleepTaken, connTaken, mobTaken, h]⟩
    | none => exact ⟨_, by rw [takeParam_sleep_ignored h]; simp [holdEvent, sleepTaken, connTaken, mobTaken, h]; rfl⟩
  | connectionParameter q v =>
    cases h : takeConnParam q v s.conn with
    | some p => exact ⟨s.bind.heldEvents, by simp [takeParam, sleepTaken, connTaken, mobTaken, h]⟩
    | none => exact ⟨_, by rw [takeParam_conn_ignored h]; simp [holdEvent, sleepTaken, connTaken, mobTaken, h]; rfl⟩
  | mobilityParameter q v =>
    cases h : takeMobParam q v s.mob with
    | some p => exact ⟨s.bind.heldEvents, by simp [takeParam, sleepTaken, connTaken, mobTaken, h]⟩
    | none => exact ⟨_, by rw [takeParam_mob_ignored h]; simp [holdEvent, sleepTaken, connTaken, mobTaken, h]; rfl⟩
  | _ => exact ⟨s.bind.heldEvents, rfl⟩

/-- The notice that a line gives of a watched word. -/
def noticeOf (l : List Byte) (w : Watched) : Instr := w.2.2 (fieldValue (lineBytes l) w.1 w.2.1)

theorem takePlanLine_form (ws : List Watched) (l : List Byte) (s : State) : ∃ h, takePlanLine ws l s = { s with
    sleep := ws.foldl (fun p w => sleepTaken (noticeOf l w) p) s.sleep
    conn := ws.foldl (fun p w => connTaken (noticeOf l w) p) s.conn
    mob := ws.foldl (fun p w => mobTaken (noticeOf l w) p) s.mob
    bind := { s.bind with heldEvents := h } } := by
  induction ws generalizing s with
  | nil => exact ⟨s.bind.heldEvents, rfl⟩
  | cons w ws ih =>
    obtain ⟨h, e⟩ := takeParam_form (noticeOf l w) s
    obtain ⟨h', e'⟩ := ih (takeParam (noticeOf l w) s)
    refine ⟨h', ?_⟩
    show takePlanLine ws l (takeParam (noticeOf l w) s) = _
    rw [e', e]
    rfl

/-! ## The plan's parameters -/

/-- A wake line with the four parameters that the first plan line gives it. -/
def lineTaken (l : List Byte) (m : Fin 4) (x : WakeLine) : WakeLine :=
  { x with
    enable := flagTaken (byteOf l (0x08 + m.val)) x.enable, activeLow := flagTaken (byteOf l (0x0C + m.val)) x.activeLow
    edgeLevel := flagTaken (byteOf l (0x10 + m.val)) x.edgeLevel, filter := flagTaken (byteOf l (0x14 + m.val)) x.filter }

/-- A line's parameter is set to the value given, or to the one it had. -/
theorem map_setLine {o : Option Bool} {upd : Bool → WakeLine → WakeLine} {get : WakeLine → Bool} (same : ∀ x, upd (get x) x = x)
    (l : Fin 4) (p : Sleep) :
    (o.map (fun b => setLine l (upd b) p)).getD p = setLine l (fun x => upd (o.getD (get x)) x) p := by
  cases o with
  | some b => rfl
  | none => simp [setLine, same]

/-- Each wake line changed by its own function. -/
def setLines (f : Fin 4 → WakeLine → WakeLine) (p : Sleep) : Sleep :=
  { p with lines := Vector.ofFn (fun m => f m p.lines[m]) }

theorem setLines_setLines (f g : Fin 4 → WakeLine → WakeLine) (p : Sleep) :
    setLines g (setLines f p) = setLines (fun m x => g m (f m x)) p := by
  simp [setLines]

theorem foldl_setLine (f : Fin 4 → WakeLine → WakeLine) (p : Sleep) :
    (List.finRange 4).foldl (fun p i => setLine i (f i) p) p = setLines f p := by
  unfold setLines
  rw [← foldl_set_finRange f p.lines]
  exact List.foldl_hom (fun v => { p with lines := v }) (g₁ := fun v (i : Fin 4) => v.set i (f i v[i]))
    (g₂ := fun p i => setLine i (f i) p) (fun v i => rfl)

/-- A group of per-line words of the first plan line sets its parameter of every line. -/
theorem perLine_sets {start : Nat} {q : Fin 4 → SleepParam} {upd : Bool → WakeLine → WakeLine} {get : WakeLine → Bool}
    {l : List Byte} (inLine : start + 4 ≤ 64) (same : ∀ x, upd (get x) x = x)
    (takes : ∀ i v p, takeSleepParam (q i) v p = (boolOf v.toNat).map (fun b => setLine i (upd b) p)) (p : Sleep) :
    (perLine start (fun i v => .sleepParameter (q i) (lowHalf v))).foldl (fun p w => sleepTaken (noticeOf l w) p) p =
      setLines (fun m x => upd (flagTaken (byteOf l (start + m.val)) (get x)) x) p := by
  rw [← foldl_setLine, perLine, List.foldl_map]
  congr 1
  funext p i
  have one : lowHalf (fieldValue (lineBytes l) (start + i.val) 1) = (byteOf l (start + i.val)).setWidth 16 :=
    fieldValue_byte l (by omega)
  simp only [noticeOf, one, sleepTaken, takes, map_setLine same, boolOf_taken]

theorem sleepTaken_answerMap (x : Byte) (p : Sleep) :
    sleepTaken (.sleepParameter .answerMap (x.setWidth 16)) p = { p with answerMap := flagTaken x p.answerMap } := by
  simp only [sleepTaken, takeSleepParam, ← boolOf_taken]
  cases boolOf (x.setWidth 16 : Half).toNat <;> rfl

theorem noticeOf_answerMap (l : List Byte) : noticeOf l (0x18, 1, fun v => .sleepParameter .answerMap (lowHalf v)) =
    .sleepParameter .answerMap ((byteOf l 0x18).setWidth 16) := by
  simp only [noticeOf, fieldValue_byte l (show 0x18 < 64 by decide)]

theorem planWatched0_sleep (l : List Byte) (p : Sleep) :
    planWatched0.foldl (fun p w => sleepTaken (noticeOf l w) p) p =
      { setLines (lineTaken l) p with answerMap := flagTaken (byteOf l 0x18) p.answerMap } := by
  have enable := fun p => perLine_sets (start := 0x08) (q := .wakeEnable) (upd := fun b x => { x with enable := b })
    (get := (·.enable)) (l := l) (by decide) (fun _ => rfl) (fun _ _ _ => rfl) p
  have polarity := fun p => perLine_sets (start := 0x0C) (q := .polarity) (upd := fun b x => { x with activeLow := b })
    (get := (·.activeLow)) (l := l) (by decide) (fun _ => rfl) (fun _ _ _ => rfl) p
  have mode := fun p => perLine_sets (start := 0x10) (q := .mode) (upd := fun b x => { x with edgeLevel := b })
    (get := (·.edgeLevel)) (l := l) (by decide) (fun _ => rfl) (fun _ _ _ => rfl) p
  have filter := fun p => perLine_sets (start := 0x14) (q := .filter) (upd := fun b x => { x with filter := b })
    (get := (·.filter)) (l := l) (by decide) (fun _ => rfl) (fun _ _ _ => rfl) p
  unfold planWatched0
  simp only [List.foldl_append, enable, polarity, mode, filter, setLines_setLines]
  rw [List.foldl_cons, List.foldl_nil, noticeOf_answerMap, sleepTaken_answerMap]
  rfl

theorem sleepTaken_base (x : Half) (p : Sleep) : ∃ cycle quiet, sleepTaken (.sleepParameter .base x) p =
    { p with base := cycleTaken x p.base, cycle := cycle, quiet := quiet } := by
  simp only [sleepTaken, takeSleepParam, ← cycleIn_taken]
  cases cycleIn x with
  | some c => exact ⟨c, 0, rfl⟩
  | none => exact ⟨p.cycle, p.quiet, rfl⟩

theorem takeCeiling_form (c : Nat) (p : Sleep) : ∃ cycle quiet,
    takeCeiling c p = { p with ceiling := c, cycle := cycle, quiet := quiet } := by
  unfold takeCeiling
  split
  · exact ⟨_, 0, rfl⟩
  · exact ⟨p.cycle, p.quiet, rfl⟩

theorem sleepTaken_ceiling (x : Half) (p : Sleep) : ∃ cycle quiet, sleepTaken (.sleepParameter .ceiling x) p =
    { p with ceiling := cycleTaken x p.ceiling, cycle := cycle, quiet := quiet } := by
  simp only [sleepTaken, takeSleepParam, ← cycleIn_taken]
  cases cycleIn x with
  | some c => exact takeCeiling_form c p
  | none => exact ⟨p.cycle, p.quiet, rfl⟩

theorem planWatched1_sleep (l : List Byte) (p : Sleep) : ∃ cycle quiet,
    planWatched1.foldl (fun p w => sleepTaken (noticeOf l w) p) p = { p with
      base := cycleTaken (halfOf l 0) p.base, ceiling := cycleTaken (halfOf l 2) p.ceiling, cycle := cycle, quiet := quiet } := by
  have base : noticeOf l (0x00, 2, fun v => .sleepParameter .base (lowHalf v)) = .sleepParameter .base (halfOf l 0) := by
    simp only [noticeOf, fieldValue_half l (show 0 < 63 by decide)]
  have ceiling : noticeOf l (0x02, 2, fun v => .sleepParameter .ceiling (lowHalf v)) = .sleepParameter .ceiling (halfOf l 2) := by
    simp only [noticeOf, fieldValue_half l (show 2 < 63 by decide)]
  have two : planWatched1.foldl (fun p w => sleepTaken (noticeOf l w) p) p =
      sleepTaken (.sleepParameter .ceiling (halfOf l 2)) (sleepTaken (.sleepParameter .base (halfOf l 0)) p) := by
    rw [← base, ← ceiling]
    rfl
  obtain ⟨c, q, baseSet⟩ := sleepTaken_base (halfOf l 0) p
  obtain ⟨c', q', ceilingSet⟩ := sleepTaken_ceiling (halfOf l 2) (sleepTaken (.sleepParameter .base (halfOf l 0)) p)
  refine ⟨c', q', ?_⟩
  rw [two, ceilingSet, baseSet]

theorem planWatched0_conn (l : List Byte) (p : Conn) : planWatched0.foldl (fun p w => connTaken (noticeOf l w) p) p = p := rfl

theorem planWatched0_mob (l : List Byte) (p : Mob) : planWatched0.foldl (fun p w => mobTaken (noticeOf l w) p) p = p := rfl

theorem connTaken_inactivity (x : Half) (p : Conn) : connTaken (.connectionParameter .inactivity x) p =
    { p with inactTime := numTaken 100 6000 x.toNat p.inactTime } := by
  simp only [connTaken, takeConnParam, ← natIn_taken]
  cases natIn 100 6000 x.toNat <;> rfl

theorem connTaken_campThreshold (x : Half) (p : Conn) : connTaken (.connectionParameter .campThreshold x) p =
    { p with campThr := levelTaken x p.campThr } := by
  simp only [connTaken, takeConnParam, ← levelIn_taken]
  cases levelIn x <;> rfl

theorem connTaken_lossThreshold (x : Half) (p : Conn) : connTaken (.connectionParameter .lossThreshold x) p =
    { p with lossThr := levelTaken x p.lossThr } := by
  simp only [connTaken, takeConnParam, ← levelIn_taken]
  cases levelIn x <;> rfl

theorem mobTaken_triggerHold (x : Half) (p : Mob) : mobTaken (.mobilityParameter .triggerHold x) p =
    { p with holdLen := numTaken 10 500 x.toNat p.holdLen } := by
  simp only [mobTaken, takeMobParam, ← natIn_taken]
  cases natIn 10 500 x.toNat <;> rfl

theorem mobTaken_handoverMargin (x : Half) (p : Mob) : mobTaken (.mobilityParameter .handoverMargin x) p =
    { p with margin := numTaken 0 15 x.toNat p.margin } := by
  simp only [mobTaken, takeMobParam, ← natIn_taken]
  cases natIn 0 15 x.toNat <;> rfl

theorem mobTaken_reselectMargin (x : Half) (p : Mob) : mobTaken (.mobilityParameter .reselectMargin x) p =
    { p with reselMargin := numTaken 0 15 x.toNat p.reselMargin } := by
  simp only [mobTaken, takeMobParam, ← natIn_taken]
  cases natIn 0 15 x.toNat <;> rfl

theorem mobTaken_reselectRounds (x : Half) (p : Mob) : mobTaken (.mobilityParameter .reselectRounds x) p =
    { p with reselRounds := numTaken 1 4 x.toNat p.reselRounds } := by
  simp only [mobTaken, takeMobParam, ← natIn_taken]
  cases natIn 1 4 x.toNat <;> rfl

theorem planWatched1_conn (l : List Byte) (p : Conn) : planWatched1.foldl (fun p w => connTaken (noticeOf l w) p) p = { p with
    inactTime := numTaken 100 6000 (halfOf l 4).toNat p.inactTime, campThr := levelTaken (halfOf l 0x0C) p.campThr
    lossThr := levelTaken (halfOf l 0x0E) p.lossThr } := by
  have three : planWatched1.foldl (fun p w => connTaken (noticeOf l w) p) p =
      connTaken (.connectionParameter .lossThreshold (lowHalf (fieldValue (lineBytes l) 0x0E 2)))
        (connTaken (.connectionParameter .campThreshold (lowHalf (fieldValue (lineBytes l) 0x0C 2)))
          (connTaken (.connectionParameter .inactivity (lowHalf (fieldValue (lineBytes l) 4 2))) p)) := rfl
  rw [three, fieldValue_half l (by decide), fieldValue_half l (by decide), fieldValue_half l (by decide),
    connTaken_inactivity, connTaken_campThreshold, connTaken_lossThreshold]

theorem planWatched1_mob (l : List Byte) (p : Mob) : planWatched1.foldl (fun p w => mobTaken (noticeOf l w) p) p = { p with
    holdLen := numTaken 10 500 (halfOf l 6).toNat p.holdLen, margin := numTaken 0 15 (byteOf l 8).toNat p.margin
    reselMargin := numTaken 0 15 (byteOf l 9).toNat p.reselMargin
    reselRounds := numTaken 1 4 (byteOf l 0x0A).toNat p.reselRounds } := by
  have four : planWatched1.foldl (fun p w => mobTaken (noticeOf l w) p) p =
      mobTaken (.mobilityParameter .reselectRounds (lowHalf (fieldValue (lineBytes l) 0x0A 1)))
        (mobTaken (.mobilityParameter .reselectMargin (lowHalf (fieldValue (lineBytes l) 9 1)))
          (mobTaken (.mobilityParameter .handoverMargin (lowHalf (fieldValue (lineBytes l) 8 1)))
            (mobTaken (.mobilityParameter .triggerHold (lowHalf (fieldValue (lineBytes l) 6 2))) p))) := rfl
  rw [four, fieldValue_half l (by decide), fieldValue_byte l (by decide), fieldValue_byte l (by decide),
    fieldValue_byte l (by decide), mobTaken_triggerHold, mobTaken_handoverMargin, mobTaken_reselectMargin,
    mobTaken_reselectRounds]
  simp only [BitVec.toNat_setWidth_of_le (show 8 ≤ 16 by decide)]

/-! ## The cell slots' configuration (R9, R84) -/

/-- A slot with a configuration word's value taken, if it is in its range. -/
def slotTaken (w : CellWord) (v : Half) (x : Slot) : Slot := if cellWordOk w v then x.take w v else x

/-- A slot with the four configuration words of its line taken. -/
def configTaken (l : List Byte) (x : Slot) : Slot :=
  slotTaken .areaCode (halfOf l 6) (slotTaken .cellCode (halfOf l 4) (slotTaken .carrier (halfOf l 2)
    (slotTaken .inUse ((byteOf l 0).setWidth 16) x)))

theorem slotTaken_inUse (b : Byte) (x : Slot) : (slotTaken .inUse (b.setWidth 16) x).inUse = flagTaken b x.inUse ∧
    (slotTaken .inUse (b.setWidth 16) x).carrier = x.carrier ∧ (slotTaken .inUse (b.setWidth 16) x).code = x.code := by
  unfold slotTaken flagTaken
  by_cases h0 : b = 0
  · subst h0
    exact ⟨rfl, rfl, rfl⟩
  · by_cases h1 : b = 1
    · subst h1
      exact ⟨rfl, rfl, rfl⟩
    · rw [if_neg h0, if_neg h1, if_neg]
      · exact ⟨rfl, rfl, rfl⟩
      · simp only [cellWordOk, BitVec.toNat_setWidth_of_le (show 8 ≤ 16 by decide), decide_eq_true_eq]
        rw [← toNat_zero_iff] at h0
        rw [← toNat_one_iff] at h1
        omega

theorem slotTaken_carrier (v : Half) (x : Slot) : (slotTaken .carrier v x).inUse = x.inUse ∧
    (slotTaken .carrier v x).carrier = (if v.toNat ≤ 4095 then v else x.carrier) ∧
    (slotTaken .carrier v x).code = x.code := by
  unfold slotTaken
  by_cases h : v.toNat ≤ 4095 <;> simp [cellWordOk, h, Slot.take]

theorem slotTaken_cellCode (v : Half) (x : Slot) : (slotTaken .cellCode v x).inUse = x.inUse ∧
    (slotTaken .cellCode v x).carrier = x.carrier ∧
    (slotTaken .cellCode v x).code = (if v.toNat ≤ 511 then v else x.code) := by
  unfold slotTaken
  by_cases h : v.toNat ≤ 511 <;> simp [cellWordOk, h, Slot.take]

theorem slotTaken_areaCode (v : Half) (x : Slot) :
    slotTaken .areaCode v x = { x with samples := [], missed := 0, barred := false, unusable := false, area := v } := rfl

theorem configTaken_fields (l : List Byte) (x : Slot) : (configTaken l x).inUse = flagTaken (byteOf l 0) x.inUse ∧
    (configTaken l x).carrier = (if (halfOf l 2).toNat ≤ 4095 then halfOf l 2 else x.carrier) ∧
    (configTaken l x).code = (if (halfOf l 4).toNat ≤ 511 then halfOf l 4 else x.code) ∧
    (configTaken l x).area = halfOf l 6 := by
  obtain ⟨use0, carrier0, code0⟩ := slotTaken_inUse (byteOf l 0) x
  obtain ⟨use1, carrier1, code1⟩ := slotTaken_carrier (halfOf l 2) (slotTaken .inUse ((byteOf l 0).setWidth 16) x)
  obtain ⟨use2, carrier2, code2⟩ := slotTaken_cellCode (halfOf l 4) (slotTaken .carrier (halfOf l 2)
    (slotTaken .inUse ((byteOf l 0).setWidth 16) x))
  rw [configTaken, slotTaken_areaCode]
  exact ⟨use2.trans (use1.trans use0), by rw [carrier2, carrier1, carrier0], by rw [code2, code1, code0], rfl⟩

theorem takeSlotWord_form (n : Fin 13) (w : CellWord) (v : Half) (s : State) : ∃ h, takeSlotWord n w v s = { s with
    cells := { s.cells with slots := s.cells.slots.set n (slotTaken w v s.cells.slots[n]) }
    bind := { s.bind with heldEvents := h } } := by
  cases ok : cellWordOk w v with
  | true => exact ⟨s.bind.heldEvents, by simp [takeSlotWord, slotTaken, setSlot, ok]⟩
  | false => exact ⟨_, by rw [takeSlotWord_ignored ok]; simp [holdEvent, slotTaken, ok]; rfl⟩

theorem takeSlotConfig_form (n : Fin 13) (l : List Byte) (s : State) : ∃ h, takeSlotConfig n l s = { s with
    cells := { s.cells with slots := s.cells.slots.set n (configTaken l s.cells.slots[n]) }
    bind := { s.bind with heldEvents := h } } := by
  obtain ⟨h1, e1⟩ := takeSlotWord_form n .inUse ((byteOf l 0).setWidth 16) s
  obtain ⟨h2, e2⟩ := takeSlotWord_form n .carrier (halfOf l 2) (takeSlotWord n .inUse ((byteOf l 0).setWidth 16) s)
  obtain ⟨h3, e3⟩ := takeSlotWord_form n .cellCode (halfOf l 4) (takeSlotWord n .carrier (halfOf l 2)
    (takeSlotWord n .inUse ((byteOf l 0).setWidth 16) s))
  obtain ⟨h4, e4⟩ := takeSlotWord_form n .areaCode (halfOf l 6) (takeSlotWord n .cellCode (halfOf l 4)
    (takeSlotWord n .carrier (halfOf l 2) (takeSlotWord n .inUse ((byteOf l 0).setWidth 16) s)))
  refine ⟨h4, ?_⟩
  rw [takeSlotConfig, e4, e3, e2, e1]
  simp [configTaken]

theorem takeSlots_form (g : Fin 13 → List Byte) (s : State) : ∃ h,
    (List.finRange 13).foldl (fun t n => takeSlotConfig n (g n) t) s = { s with
      cells := { s.cells with slots := Vector.ofFn (fun n => configTaken (g n) s.cells.slots[n]) }
      bind := { s.bind with heldEvents := h } } := by
  rw [← foldl_set_finRange (fun n => configTaken (g n)) s.cells.slots]
  generalize List.finRange 13 = l
  induction l generalizing s with
  | nil => exact ⟨s.bind.heldEvents, rfl⟩
  | cons n l ih =>
    obtain ⟨h, e⟩ := takeSlotConfig_form n (g n) s
    obtain ⟨h', e'⟩ := ih (takeSlotConfig n (g n) s)
    refine ⟨h', ?_⟩
    rw [List.foldl_cons, e', e]
    rfl

/-! ## Every value of a binding (R9) -/

/-- The part with the values of the region lines in force, the events held and the listen cycle as they come out. -/
def valuesTaken (held : List Event) (cycle quiet : Nat) (s : State) : State :=
  let l0 := regionLine s 0
  let l1 := regionLine s 1
  { s with
    bind := { s.bind with heldEvents := held }
    sleep := { setLines (lineTaken l0) s.sleep with
      answerMap := flagTaken (byteOf l0 0x18) s.sleep.answerMap, base := cycleTaken (halfOf l1 0) s.sleep.base
      ceiling := cycleTaken (halfOf l1 2) s.sleep.ceiling, cycle := cycle, quiet := quiet }
    conn := { s.conn with
      inactTime := numTaken 100 6000 (halfOf l1 4).toNat s.conn.inactTime
      campThr := levelTaken (halfOf l1 0x0C) s.conn.campThr, lossThr := levelTaken (halfOf l1 0x0E) s.conn.lossThr }
    mob := { s.mob with
      holdLen := numTaken 10 500 (halfOf l1 6).toNat s.mob.holdLen, margin := numTaken 0 15 (byteOf l1 8).toNat s.mob.margin
      reselMargin := numTaken 0 15 (byteOf l1 9).toNat s.mob.reselMargin
      reselRounds := numTaken 1 4 (byteOf l1 0x0A).toNat s.mob.reselRounds }
    cells := { s.cells with
      slots := Vector.ofFn (fun n => configTaken (regionLine s (2 + n.val)) s.cells.slots[n]) }
    speech := { s.speech with
      upProd := byteOf (regionLine s 15) 0, upCons := byteOf (regionLine s 15) 0
      downProd := byteOf (regionLine s 15) 3, downCons := byteOf (regionLine s 15) 3 }
    texts := { s.texts with
      prod := byteOf (regionLine s 16) 0, retire := byteOf (regionLine s 16) 0
      inProd := byteOf (regionLine s 17) 1, inCons := byteOf (regionLine s 17) 1 }
    events := { s.events with producer := byteOf (regionLine s 18) 1, consumer := byteOf (regionLine s 18) 1 } }

theorem takeValues_form (s : State) : ∃ held cycle quiet, takeValues s = valuesTaken held cycle quiet s := by
  obtain ⟨h0, e0⟩ := takePlanLine_form planWatched0 (regionLine s 0) s
  obtain ⟨h1, e1⟩ := takePlanLine_form planWatched1 (regionLine s 1) (takePlanLine planWatched0 (regionLine s 0) s)
  obtain ⟨h2, e2⟩ := takeSlots_form (fun n => regionLine s (2 + n.val))
    (takePlanLine planWatched1 (regionLine s 1) (takePlanLine planWatched0 (regionLine s 0) s))
  obtain ⟨cycle, quiet, sleep⟩ := planWatched1_sleep (regionLine s 1)
    { setLines (lineTaken (regionLine s 0)) s.sleep with answerMap := flagTaken (byteOf (regionLine s 0) 0x18) s.sleep.answerMap }
  refine ⟨h2, cycle, quiet, ?_⟩
  unfold takeValues
  dsimp only
  rw [e2, e1, e0]
  simp only [planWatched0_sleep, planWatched0_conn, planWatched0_mob, planWatched1_conn, planWatched1_mob, sleep]
  rfl

/-! ## A region read completes -/

/-- The region lines with one more. -/
def regionKept (k : Nat) (l : List Byte) (s : State) : State :=
  { s with bind := { s.bind with regionLines := s.bind.regionLines ++ [(k, l)] } }

section
variable {s : State} {l : List Byte} {k : Nat}

theorem exec_regionReadDone {k : Fin 19} {line : BitVec 26} {data : List Byte} {r : ReadEntry} (err : Bool)
    (due : dueRead (fun f => f == .region k.val) line.toNat s.mem = some r) (fly : r.status = .inFlight)
    (wanted : r.discard = false) (next : nextOfLine s.mem (.read r.arrived r.line) = true) :
    exec (.regionReadDone k ⟨line, data⟩ err) s = .next (settle (regionDone k.val
      (composeLine (if err then [] else fitTo 64 data) (upperLayers s.mem r.line), err, false) (readTaken r s))) := by
  show runRead (dueRead (fun f => f == .region k.val) line.toNat s.mem) data err (regionDone k.val) s = _
  rw [due, runRead_inFlight err fly wanted next]

theorem regionDone_kept (capturing : s.bind.state = .capturing) : regionDone k (l, false, false) s =
    if (regionKept k l s).bind.regionLines.length = 19 then regionsRead (regionKept k l s)
    else if (regionKept k l s).bind.regionLines.length = s.bind.nextRegion then readGroup (regionKept k l s)
    else regionKept k l s := by
  unfold regionDone
  simp [capturing, regionKept]

theorem regionDone_failed (capturing : s.bind.state = .capturing) :
    regionDone k (l, true, false) s = rejectBinding .memory none s := by
  simp [regionDone, capturing]

theorem regionKept_resting (h : Resting s) (capturing : s.bind.state = .capturing) : Resting (regionKept k l s) :=
  resting_bind h (.inl (by show s.bind.state ≠ _; rw [capturing]; exact nofun))

end

/-- A moment that ends with work waiting, nothing else being due: the inactivity timer follows the idleness, and time goes on. -/
theorem settle_waiting {s : State} (st : steady s = true) (pending : s.events.pending = []) (owed : s.events.owed = none)
    (link : s.link.queue = [] ∨ s.link.opSendSig.runs = true) (wake : s.sleep.wakeAfter = none) (level : s.sleep.level ≠ .roused) :
    ∃ i c, settle s = { s with conn := { s.conn with inactTimer := i }, mem := { s.mem with clock := c } } := by
  obtain ⟨i, e⟩ := pumpIdle_form s
  obtain ⟨c, e'⟩ := closeMoment_same { s with conn := { s.conn with inactTimer := i } }
  refine ⟨i, c, ?_⟩
  rw [settle_steady st, e, finish, placeEvents_done (by exact pending) (by exact owed), sendNext_still (by exact link),
    checkWake_still (by exact wake), pumpWindow_still (by exact level), e']

/-- The values of the region lines in force and the lines given up. -/
def bindingValues (held : List Event) (cycle quiet : Nat) (s : State) : State :=
  { valuesTaken held cycle quiet s with
    bind := { s.bind with heldEvents := held, regionLines := [], nextRegion := 0 } }

theorem regionsRead_form (s : State) : ∃ held cycle quiet, regionsRead s =
    (bindingWrites (bindingValues held cycle quiet s)).foldl (fun t w => emitWrite .binder w t)
      (bindingValues held cycle quiet s) := by
  obtain ⟨held, cycle, quiet, e⟩ := takeValues_form s
  refine ⟨held, cycle, quiet, ?_⟩
  unfold regionsRead
  rw [e]
  rfl

/-- The binding's writes do not depend on the memory path or the inactivity timer. -/
theorem bindingWrites_same (s : State) (i : Timer) (m : MemPath) :
    bindingWrites { s with conn := { s.conn with inactTimer := i }, mem := m } = bindingWrites s := rfl

/-- The taken values leave a part at rest with nothing due but the binding's own writes. -/
theorem bindingValues_steady {held : List Event} {cycle quiet : Nat} {s : State} (h : steady s = true)
    (capturing : s.bind.state = .capturing) : steady (bindingValues held cycle quiet s) = true := by
  simp only [steady, Bool.and_eq_true] at h ⊢
  obtain ⟨⟨⟨⟨⟨⟨refused, shut⟩, -⟩, back⟩, round⟩, arrivals⟩, -⟩ := h
  refine ⟨⟨⟨⟨⟨⟨refused, shut⟩, ?_⟩, back⟩, round⟩, arrivals⟩, ?_⟩
  · show (!(s.bind.state == .unbinding && s.bind.noDetach)) = true
    rw [capturing]
    rfl
  · show (s.texts.send.isSome || byteOf (regionLine s 16) 0 == byteOf (regionLine s 16) 0) = true
    simp

theorem settle_regionsRead {s : State} (rest : Resting s) (capturing : s.bind.state = .capturing) :
    ∃ held cycle quiet i m, settle (regionsRead s) =
        { bindingValues held cycle quiet s with
          conn := { (bindingValues held cycle quiet s).conn with inactTimer := i }, mem := m } ∧
      m.accept.map (fun w => (w.line, w.bytes)) = s.mem.accept.map (fun w => (w.line, w.bytes)) ++
        ((bindingWrites (bindingValues held cycle quiet s)).take (16 - internalCount s.mem)).map (fun w => (w.line, w.bytes)) ∧
      m.waits.flatMap (·.acts) = ((bindingWrites (bindingValues held cycle quiet s)).drop (16 - internalCount s.mem)).map
        Act.write := by
  obtain ⟨st, pending, owed, link, waits, -, wake, level, -⟩ := rest
  obtain ⟨held, cycle, quiet, e⟩ := regionsRead_form s
  obtain ⟨m, placed, -, accept, left⟩ := fold_writes (bindingWrites (bindingValues held cycle quiet s))
    (bindingValues held cycle quiet s) (bindingWrites_nonempty _) waits
  have still : steady (bindingValues held cycle quiet s) = true := bindingValues_steady (s := s) st capturing
  obtain ⟨i, c, settled⟩ := settle_waiting (s := { bindingValues held cycle quiet s with mem := m }) still pending owed link
    wake level
  exact ⟨held, cycle, quiet, i, { m with clock := c }, by rw [e, placed, settled], accept, left⟩

/-- Settles O31: the region reads one after another, the values with the last of them, and the values not taken. -/
theorem regionReads : Obligations.RegionReads := by
  unfold Obligations.RegionReads
  intro s k line data r rest capturing due fly wanted next
  have restu : Resting (readTaken r s) := readTaken_resting rest
  have capt : (readTaken r s).bind.state = .capturing := capturing
  have kept := exec_regionReadDone (data := data) false due fly wanted next
  rw [regionDone_kept capt, if_neg Bool.false_ne_true] at kept
  have failed := exec_regionReadDone (data := data) true due fly wanted next
  rw [regionDone_failed capt] at failed
  generalize composeLine (fitTo 64 data) (upperLayers s.mem r.line) = l at kept ⊢
  have restv : Resting (regionKept k.val l (readTaken r s)) := regionKept_resting restu capt
  intro u lines v
  have number : (regionKept k.val l (readTaken r s)).bind.regionLines.length = lines.length := rfl
  rw [number] at kept
  refine ⟨fun few more => ?kept, fun few group host => ?group, fun all => ?values, failed,
    fun q x h => takeParam_sleep_ignored h, fun q x h => takeParam_conn_ignored h, fun q x h => takeParam_mob_ignored h,
    fun n w x h => takeSlotWord_ignored h⟩
  case kept =>
    rw [kept, if_neg (ne_of_lt few), if_neg (show ¬ lines.length = (readTaken r s).bind.nextRegion from ne_of_lt more),
      settle_resting restv]
    rfl
  case group =>
    obtain ⟨restr, bind, reads⟩ := readGroup_reads (regionKept k.val l (readTaken r s)) restv host
    rw [if_neg (ne_of_lt few), if_pos (show lines.length = (readTaken r s).bind.nextRegion from group),
      settle_resting restr] at kept
    have from_ : (regionKept k.val l (readTaken r s)).bind.nextRegion = lines.length := group.symm
    rw [from_] at bind reads
    refine ⟨_, kept, ?_, reads⟩
    rw [bind, show lines.length + min 4 (19 - lines.length) = min 19 (lines.length + 4) by omega]
    rfl
  case values =>
    obtain ⟨held, cycle, quiet, i, m, settled, accept, waits⟩ := settle_regionsRead restv capt
    rw [if_pos all, settled] at kept
    refine ⟨_, kept, capturing, rfl, rfl, rfl, rfl, rfl, rfl, rfl, rfl, rfl, rfl, ?_, ?_⟩
    · intro l0 l1 num level cycle' flag
      refine ⟨rfl, rfl, rfl, rfl, rfl, rfl, rfl, rfl, rfl, rfl, fun j => ?_, fun n => ?_⟩
      · show (Vector.ofFn _)[j] = _
        simp only [Fin.getElem_fin, Vector.getElem_ofFn]
        rfl
      · obtain ⟨use, carrier, code, area⟩ := configTaken_fields (regionLine v (2 + n.val)) s.cells.slots[n]
        have slot : (bindingValues held cycle quiet (regionKept k.val l (readTaken r s))).cells.slots[n] =
            configTaken (regionLine v (2 + n.val)) s.cells.slots[n] := by
          show (Vector.ofFn _)[n] = _
          simp only [Fin.getElem_fin, Vector.getElem_ofFn]
          rfl
        exact ⟨(congrArg Slot.inUse slot).trans use, (congrArg Slot.carrier slot).trans carrier,
          (congrArg Slot.code slot).trans code, (congrArg Slot.area slot).trans area⟩
    · exact ⟨_, accept, waits, rfl⟩

end Sys2Proof.Machine
end

section
/-! SUPPORT. A message sent (R59, R81): a shutdown with cause UNBIND in a bound part. -/

namespace Sys2Proof.Machine

/-- The regions of a valid copy. -/
def boundCopy : Captured :=
  { version := 1, capacity := 16, identity := 0
    table := [(0x1000, 128), (0x2000, 896), (0x3000, 256), (0x4000, 1088), (0x5000, 576), (0x6000, 6208), (0x8000, 320),
      (0x9000, 0)] }

/-- A bound part in CAMPED with nothing under way but a shutdown with cause UNBIND, whose DETACH is the message 7. -/
def boundInUnbindShutdown : State :=
  let s := State.powerOn 0
  { s with
    bind := { s.bind with state := .bound, captured := some boundCopy }
    events := { s.events with running := true }
    conn := { s.conn with state := .camped, shutdown := some .unbind, detachMsg := some 7 } }

/-- The DETACH on the air. -/
def detachOnAir : QMsg := { id := 7, msg := .detach, inFlight := true, place := 0, attempts := 0 }

theorem boundInUnbindShutdown_room : Room 12 boundInUnbindShutdown := by
  unfold Room
  decide

theorem boundInUnbindShutdown_calm : Calm boundInUnbindShutdown :=
  ⟨rfl, rfl, rfl, ⟨rfl, rfl, rfl, .inl rfl, rfl, rfl, rfl, by decide, rfl⟩, ⟨rfl, rfl, rfl, rfl, rfl⟩,
    ⟨rfl, rfl, rfl, boundInUnbindShutdown_room.mono (by decide)⟩, boundInUnbindShutdown_room, rfl, rfl, rfl, rfl, rfl, rfl, rfl,
    by decide, rfl, rfl, rfl, rfl, rfl, rfl, rfl⟩

/-- In a bound part a shutdown with cause UNBIND goes on when its DETACH has been sent: only the end of an unbinding ends it. -/
theorem toldSent_unbind_bound {s : State} {q : QMsg} (job : msgJob q.msg = .conn) (area : s.conn.areaMsg = none)
    (detach : s.conn.detachMsg = some q.id) (unbind : s.conn.shutdown = some .unbind) (bound : s.bind.state = .bound) :
    toldSent q s = activity s := by
  obtain ⟨i, e⟩ := activity_form s
  unfold toldSent
  rw [job, e]
  simp [area, detach, detachSent, unbind, bound]

/-- What the model does with the SIG-SENT of that DETACH: the shutdown stays. -/
theorem exec_sigSent_unbind_bound : ∃ t, exec .sigSent (onAir detachOnAir (.running 3) boundInUnbindShutdown) = .next t ∧
    t.conn.shutdown = some .unbind := by
  let w : State := { boundInUnbindShutdown with
    link := { boundInUnbindShutdown.link with unanswered := 0, askSendSig := none } }
  have calm : Calm (activity w) := activity_calm boundInUnbindShutdown_calm
  refine ⟨activity w, ?_, rfl⟩
  rw [answer_air boundInUnbindShutdown_calm.link rfl rfl, toldSent_unbind_bound rfl rfl rfl rfl rfl, settle_resting calm.rest]

/-- Refutes O57: the DETACH of a shutdown with cause UNBIND has been sent, in CAMPED and in a part that is bound. The connection is not
left OFF: such a shutdown is ended by the end of an unbinding alone (R81; log entry 66), and the part is not unbinding. -/
theorem not_messageSent : ¬ Obligations.MessageSent := by
  unfold Obligations.MessageSent
  rintro ⟨-, -, -, -, told⟩
  obtain ⟨-, -, conn, -⟩ := told boundInUnbindShutdown detachOnAir (.running 3) boundInUnbindShutdown_calm rfl rfl
  obtain ⟨-, -, shut⟩ := conn rfl
  obtain ⟨t, next, stays⟩ := exec_sigSent_unbind_bound
  have ended := shut (by decide) rfl rfl rfl
  rw [next] at ended
  injection ended with ended
  rw [ended] at stays
  exact absurd stays nofun

end Sys2Proof.Machine
end

section
/-! SUPPORT. The outbox (R156, R160): an acknowledgement whose index no air message carries. -/

namespace Sys2Proof.Machine

/-- A text of five segments, the last one of them awaiting its acknowledgement. -/
def fifthSegment : Send :=
  { desc := 0, ref := 0, address := 0, length := 641, dest := [1], lines := [], body := [], count := 5, cur := 4
    status := .awaiting, ackTimer := .stopped, cancel := false }

/-- A bound part in CONNECTED with nothing under way but that text, and another one QUEUED behind it. -/
def sendingFifth : State :=
  let s := State.powerOn 0
  { s with
    bind := { s.bind with state := .bound, captured := some boundCopy }
    events := { s.events with running := true }
    cells := { s.cells with paced := true }
    conn := { s.conn with state := .connected }
    texts := { s.texts with
      prod := 2, send := some fifthSegment
      descs := (s.texts.descs.set 0 { state := .sending, attempts := 0, fail := none, ref := 0 }).set 1
        { state := .queued, attempts := 0, fail := none, ref := 0 } } }

theorem sendingFifth_room : Room 12 sendingFifth := by
  unfold Room
  decide

theorem sendingFifth_calm : Calm sendingFifth :=
  ⟨rfl, rfl, rfl, ⟨rfl, rfl, rfl, .inl rfl, rfl, rfl, rfl, by decide, rfl⟩, ⟨rfl, rfl, rfl, rfl, rfl⟩,
    ⟨rfl, rfl, rfl, sendingFifth_room.mono (by decide)⟩, sendingFifth_room, rfl, rfl, rfl, rfl, rfl, rfl, rfl,
    by decide, rfl, rfl, rfl, rfl, rfl, rfl, rfl⟩

/-- The model discards an acknowledgement whose index lies beyond those of an air message (R61). -/
theorem exec_segmentAck_fifth : exec (.segmentAck 0 4 .ok) sendingFifth = .next sendingFifth := by
  have range : ackInRange 0 4 sendingFifth = true := by decide
  show execSegmentAck 0 4 .ok sendingFifth = _
  unfold execSegmentAck
  rw [if_pos range]
  exact runIf_off _ _ (by decide)

/-- A descriptor's write, a read and the inactivity timer leave the text being sent as it is. -/
theorem send_kept (f : ReadFor) (line : Line) (n : Fin 16) (d : Desc) (s : State) :
    (pumpIdle (joinRead f line (descWritten n d s))).texts.send = s.texts.send := by
  obtain ⟨i, e⟩ := pumpIdle_form (joinRead f line (descWritten n d s))
  rw [e]
  show (descWritten n d s).texts.send = _
  rw [(descWritten_same n d s).mem]
  rfl

/-- Refutes O53: the last segment of a text is acknowledged under the index 4. SEGMENT-ACK carries an index below 4 alone (R61), so the
model discards it and the text stays; the clause on the next text submitted has no bound on the count of segments. -/
theorem not_outboxSending : ¬ Obligations.OutboxSending := by
  unfold Obligations.OutboxSending
  rintro ⟨-, -, -, next, -, -⟩
  have begun := next sendingFifth fifthSegment 4 sendingFifth_calm rfl rfl rfl (by decide) rfl rfl rfl rfl (by decide) (by decide)
  rw [show exec (.segmentAck fifthSegment.ref 4 .ok) sendingFifth = .next sendingFifth from exec_segmentAck_fifth] at begun
  injection begun with begun
  have send := congrArg (fun t : State => t.texts.send) begun
  rw [send_kept] at send
  have status := congrArg (fun x : Option Send => x.map (·.status)) send
  exact absurd status (by decide)

end Sys2Proof.Machine
end

section
/-! SUPPORT. What every step keeps, the memory port out of self-refresh, and the part before a request (R23, R41, R45). -/

namespace Sys2Proof.Machine

/-! ## The limits -/

/-- Settles O5: a step is an idle one or a command's, and every command keeps a state within the limits. -/
theorem limitsKeptByEveryStep : Obligations.LimitsKeptByEveryStep := by
  unfold Obligations.LimitsKeptByEveryStep
  intro s t safe e
  unfold step at e
  cases hp : s.pending with
  | nil =>
    rw [hp] at e
    cases e
    exact safe
  | cons c rest =>
    rw [hp] at e
    exact exec_safe (s := { s with pending := rest }) safe e

/-- Settles O6: the reset state is a power-on state, which is within the limits. -/
theorem limitsHoldAtReset : Obligations.LimitsHoldAtReset := ⟨powerOn_limits 0, Nat.zero_le 6⟩

/-! ## Self-refresh -/

section
variable {s t : State}

theorem warmReset_memPort (s : State) : (warmReset s).out.mem = (beginWarmReset s).out.mem := by
  unfold warmReset
  dsimp only
  split
  · unfold placeTeardown
    rw [joinWrites_memPort]
  · rfl

theorem execWarmResetEnd_undrained (x : BitVec 2) (h : s.mem.memState ≠ .active) : execWarmResetEnd x s = .next s := by
  rw [execWarmResetEnd_eq, if_pos (.inl (by simp [drained, h]))]

/-- A state that is tame towards one with DRAM active has put nothing out on the memory port since. -/
theorem memPort_of_active {b : State} (h : Tame b t) (active : b.mem.memState = .active) : t.out.mem = b.out.mem := by
  obtain ⟨-, -, -, ⟨-, -, quiet⟩, -⟩ := h
  rcases quiet with ⟨-, same⟩ | ⟨refresh, -⟩
  · exact same
  · rw [active] at refresh
    cases refresh

theorem exitDone_tame (h : Limits s) : Tame { s with mem := { s.mem with memState := .active } } (exitDone s) := by
  have k : Limits { s with mem := { s.mem with memState := .active } } := h
  unfold exitDone
  dsimp only
  split
  · exact beginWriteBack_tame k.tame
  · exact beginWriteBack_tame k.tame
  · exact k.tame

/-- Settles O8: a tame command puts out the exit command or nothing; of the others the resets and the strobe put out no more, and
a grant and the entry need DRAM active. -/
theorem selfRefreshLaw : Obligations.SelfRefreshLaw := by
  unfold Obligations.SelfRefreshLaw
  intro c s t safe asleep noPowerOn e
  rcases exec_tame safe e with tame | ⟨x, rfl⟩ | rfl | ⟨x, rfl⟩ | rfl | ⟨p, rfl⟩ | ⟨d, rfl⟩ | rfl | rfl
  · exact memPort_of_tame tame asleep
  · exact absurd rfl (noPowerOn x)
  · replace e : execWarmReset s = .next t := e
    by_cases idle : s.resetPhase = .idle
    · unfold execWarmReset at e
      rw [if_pos idle] at e
      cases e
      rw [warmReset_memPort]
      exact beginWarmReset_memPort s
    · rw [execWarmReset_running idle] at e
      cases e
      exact .inl rfl
  · replace e : execWarmResetEnd x s = .next t := e
    rw [execWarmResetEnd_undrained x asleep] at e
    cases e
    exact .inl rfl
  · cases e
    exact .inl rfl
  · replace e : execFrameStrobe p s = .next t := e
    unfold execFrameStrobe at e
    split at e
    · cases e
      exact .inl rfl
    · cases hr : s.resetN with
      | true =>
        rw [runIf_off _ _ (by simp [hr])] at e
        cases e
        exact .inl rfl
      | false =>
        rw [runIf_on _ _ (by simp [hr])] at e
        injection e with e
        subst e
        have tame := settle_tame (frameStrobe_tame (pins := p) safe.1)
        have quiet := memPort_of_tame tame asleep
        exact quiet
  · cases runIf_closed (by simpa using asleep) e
    exact .inl rfl
  · cases runIf_closed (by simp [enterReady, asleep]) e
    exact .inl rfl
  · replace e : execExitDelayExpiry s = .next t := e
    unfold execExitDelayExpiry at e
    cases exiting : s.mem.memState == .exiting with
    | false =>
      rw [runIf_off _ _ exiting] at e
      cases e
      exact .inl rfl
    | true =>
      rw [runIf_on _ _ exiting] at e
      injection e with e
      subst e
      have tame := settle_tame (exitDone_tame safe.1)
      have quiet := memPort_of_active tame rfl
      exact .inl quiet

end

/-! ## Before a request of the host -/

section
variable {s t : State}

theorem Untouched.mem (h : Untouched s) : s.mem = MemPath.initial := by
  obtain ⟨x, p, n, ph, f, a, k, l, rfl⟩ := h
  rfl

theorem Untouched.out_mem (h : Untouched s) : s.out.mem = [] := by
  obtain ⟨x, p, n, ph, f, a, k, l, rfl⟩ := h
  rfl

theorem Untouched.jobs (h : Untouched s) : jobsRun s = false := by
  obtain ⟨x, p, n, ph, f, a, k, l, rfl⟩ := h
  simp [jobsRun, State.powerOn, Binder.initial]

theorem Untouched.link (h : Untouched s) : linkOpen s = false := by simp [linkOpen, h.jobs]

theorem Untouched.notice (h : Untouched s) : noticeOpen s = false := by
  obtain ⟨x, p, n, ph, f, a, k, l, rfl⟩ := h
  simp [noticeOpen, State.powerOn, Binder.initial]

theorem Untouched.noContext (h : Untouched s) (ring : Byte) : dueContext ring s = none := by
  obtain ⟨x, p, n, ph, f, a, k, l, rfl⟩ := h
  rfl

theorem untouched_framed (h : Untouched s) (f : FrameNo) : Untouched { s with frame := f } := by
  obtain ⟨x, p, n, ph, -, a, k, l, rfl⟩ := h
  exact ⟨x, p, n, ph, f, a, k, l, rfl⟩

theorem untouched_resetAt (h : Untouched s) (n : Bool) : Untouched { s with resetN := n } := by
  obtain ⟨x, p, -, ph, f, a, k, l, rfl⟩ := h
  exact ⟨x, p, n, ph, f, a, k, l, rfl⟩

theorem untouched_resetDone (h : Untouched s) (x : BitVec 2) : Untouched (resetDone x s) := by
  obtain ⟨y, p, n, ph, f, a, k, l, rfl⟩ := h
  exact ⟨x, p, n, .idle, 0, a, k, Sleep.initial.lines, rfl⟩

theorem untouched_exec_warmResetEnd {x : BitVec 2} (h : Untouched s) (e : execWarmResetEnd x s = .next t) : Untouched t := by
  have torn : s.teardown = [] := by
    obtain ⟨x, p, n, ph, f, a, k, l, rfl⟩ := h
    rfl
  rw [execWarmResetEnd_eq] at e
  cases e
  split
  · exact h
  · rw [if_neg (by simp [torn])]
    exact untouched_resetDone h x

theorem untouched_exec_warmReset (h : Untouched s) (e : execWarmReset s = .next t) : Untouched t := by
  unfold execWarmReset at e
  split at e <;> cases e
  · exact warmReset_untouched h
  · exact untouched_resetAt h true

theorem untouched_exec_frameStrobe {p : BitVec 4} (h : Untouched s) (e : execFrameStrobe p s = .next t) : Untouched t := by
  unfold execFrameStrobe at e
  split at e
  · cases e
    exact untouched_framed h _
  · have after := frameStrobe_untouched p h
    unfold runIf at e
    cases e
    split
    · rw [settle_resting (resting_of_untouched after)]
      exact after
    · exact h

/-- With nothing queued and nothing read the arbiter has nothing to grant. -/
theorem untouched_grant {d : Bool} (h : Untouched s) (e : execArbiterGrant d s = .next t) : t = s := by
  have idle : grant d s = s := by simp [grant, grantPlain, speechRead, oldestSpeechDrain, oldestReady, oldestRead,
    h.mem, MemPath.initial]
  unfold execArbiterGrant at e
  rw [runIf_on _ _ (by simp [h.mem, MemPath.initial]), idle, settle_resting (resting_of_untouched h)] at e
  cases e
  rfl

theorem untouched_received {c : Instr} (h : Untouched s) (e : received c s = .next t) : t = s :=
  received_untouched h.link h.jobs e

/-- What a command leaves of a part that no request of a host has reached. -/
theorem untouched_exec {c : Instr} (h : Untouched s) (e : exec c s = .next t) :
    match c with
    | .processorRead .. | .processorWrite .. | .enableWordWrite _ => True
    | _ => Untouched t := by
  have same : t = s → Untouched t := fun k => k ▸ h
  have reads : s.mem.reads = [] := by rw [h.mem]; rfl
  have accept : s.mem.accept = [] := by rw [h.mem]; rfl
  have jobs := h.jobs
  cases c with
  | processorRead | processorWrite | enableWordWrite => trivial
  | powerOnReset x =>
    cases e
    exact ⟨x, s.pending, false, .idle, 0, [], [], Sleep.initial.lines, rfl⟩
  | warmReset => exact untouched_exec_warmReset h e
  | warmResetEnd x => exact untouched_exec_warmResetEnd h e
  | resetNRelease =>
    cases e
    exact untouched_resetAt h false
  | frameStrobe => exact untouched_exec_frameStrobe h e
  | arbiterGrant => exact same (untouched_grant h e)
  | drainDone => exact same (runIf_closed (by simp [nextOfLine, h.mem, MemPath.initial]) e)
  | exitDelayExpiry => exact same (runIf_closed (by rw [h.mem]; rfl) e)
  | hostWriteAccept | internalWriteAccept => exact same (runIf_closed (by simp [headTakes, accept]) e)
  | internalWritePlaceWait j =>
    have none : turnOf j s = none := by simp only [turnOf, h.mem]; rfl
    replace e : execInternalWritePlaceWait j s = .next t := e
    rw [execInternalWritePlaceWait, none] at e
    cases e
    exact h
  | internalReadPlaceWait j =>
    have none : readTurnOf j s = none := by simp only [readTurnOf, h.mem]; rfl
    replace e : execInternalReadPlaceWait j s = .next t := e
    rw [execInternalReadPlaceWait, none] at e
    cases e
    exact h
  | stagePublish =>
    have none : s.mem.pubs = [] := by rw [h.mem]; rfl
    replace e : execStagePublish s = .next t := e
    rw [execStagePublish, none] at e
    cases e
    exact h
  | hostReadDone => exact same (runRead_none (by rw [reads]; rfl) e)
  | anchorReadDone | regionReadDone | dialStringCaptured | speechFetchDone | descriptorReadDone | bodyReadDone =>
    exact same (runRead_none (due_none reads) e)
  | reloadReadDone =>
    replace e : execReloadReadDone _ _ s = .next t := e
    rw [execReloadReadDone, due_none reads] at e
    cases e
    exact h
  | badFrame =>
    replace e : execBadFrame _ s = .next t := e
    unfold execBadFrame at e
    split at e
    · exact same (untouched_received h e)
    · cases e
      exact h
  | airMessageInvalid =>
    replace e : execAirMessageInvalid _ s = .next t := e
    unfold execAirMessageInvalid at e
    split at e
    · exact same (untouched_received h e)
    · cases e
      exact h
  | segmentAck => exact same (untouched_received (c := .segmentAck ..) h e)
  | contextTimerExpiry ring =>
    replace e : execContextTimerExpiry ring s = .next t := e
    rw [execContextTimerExpiry, h.noContext] at e
    cases e
    exact h
  | measureDone | listenDone | sigSent | switchDone => exact same (runAnswer_linkClosed h.link e)
  | connectGrant | connectReject | reestablishAccept | areaAccept | areaReject | offer | ringing | connect | holdAccept
  | resumeAccept | release | releaseDone | textSegment | transferOrder => exact same (runAir_linkClosed h.link e)
  | speechIn | servingLost => exact same (runIf_closed h.link e)
  | responseTimeout => exact same (runIf_closed (by rw [h.link, Bool.false_and]) e)
  | radioRequest | connectionParameter | mobilityParameter | cellConfigurationNotice | requestOriginate | requestAnswer
  | requestHold | requestResume | requestSwap | requestRelease | requestUnknown | uplinkProducerWrite | downlinkConsumerWrite
  | outboxProducerWrite | cancelWordWrite | inboxConsumerWrite | sleepParameter | sleepRequest | stopGrant | wakeAck
  | lineAcknowledge | eventConsumerWrite => exact same (runIf_closed h.notice e)
  | unbindTimerExpiry | selfRefreshEnter | linkReady | shutdownTimerExpiry | connectTimerExpiry | areaAnswerTimerExpiry
  | inactivityTimerExpiry | reestablishmentTimerExpiry | holdTimerExpiry | ackTimerExpiry | quiesceTimerExpiry =>
    exact same (runIf_closed (by simp [jobs]) e)
  | settleDelayExpiry | recoveryTimerExpiry | roundTimerExpiry | reportTimerExpiry | activationTimerExpiry | retryTimerExpiry
  | rouseWindowExpiry | longPressTimerExpiry =>
    simp [exec, execSettleDelayExpiry, execRecoveryTimerExpiry, execRoundTimerExpiry, execReportTimerExpiry,
      execActivationTimerExpiry, execRetryTimerExpiry, execRouseWindowExpiry, execLongPressTimerExpiry, runIf, jobs] at e
    exact same e.symm
  | dialingTimerExpiry | ringingOutTimerExpiry | incomingTimerExpiry | exchangeTimerExpiry | releasingTimerExpiry =>
    exact same (runIf_closed (by simp [callDue, jobs]) e)

/-- Settles O9: power-on reset leaves the part untouched, and every command but a request of the host keeps it so. -/
theorem powerOnMemoryPath : Obligations.PowerOnMemoryPath := by
  unfold Obligations.PowerOnMemoryPath
  constructor
  · intro s x
    have untouched : Untouched { State.powerOn x with pending := s.pending } :=
      ⟨x, s.pending, false, .idle, 0, [], [], Sleep.initial.lines, rfl⟩
    exact ⟨_, rfl, rfl, fun _ => rfl, rfl, rfl, rfl, rfl, rfl, rfl, rfl, rfl, rfl, rfl, rfl, rfl, rfl, untouched⟩
  · intro c s t h e
    have k := untouched_exec h e
    cases c with
    | processorRead | processorWrite | enableWordWrite => trivial
    | _ => exact ⟨k, k.out_mem⟩

end

end Sys2Proof.Machine
end

section
/-! SUPPORT. The processor port and the read path (R18 to R20, R28 to R32, R38, R43). -/

namespace Sys2Proof.Machine

/-! ## Requests -/

section
variable {s : State} {tag : BitVec 4} {line : BitVec 26} {bytes : List (BitVec 6 × Byte)}

theorem exec_processorRead_busy (o : portOpen s = true) (busy : tagBusy tag s = true) :
    exec (.processorRead tag line) s = .next (settle (processorActivity
      (answer (.readData tag true (List.replicate 64 0)) s))) := by
  show runIf (portOpen s) _ s = _
  rw [runIf_on _ _ o, arrive, if_pos busy]

theorem exec_processorWrite_busy (o : portOpen s = true) (busy : tagBusy tag s = true) :
    exec (.processorWrite tag line bytes) s = .next (settle (processorActivity (answer (.writeDone tag true) s))) := by
  show runIf (portOpen s) _ s = _
  rw [runIf_on _ _ o, arrive, if_pos busy]

theorem exec_processorRead_free (o : portOpen s = true) (free : tagBusy tag s = false) :
    exec (.processorRead tag line) s = .next (settle (processorActivity (joinRead (.host tag) line.toNat s))) := by
  show runIf (portOpen s) _ s = _
  rw [runIf_on _ _ o, arrive, if_neg (by simp [free]), recordRead]

theorem exec_processorWrite_free (o : portOpen s = true) (free : tagBusy tag s = false) :
    exec (.processorWrite tag line bytes) s =
      .next (settle (processorActivity (recordWrite tag line.toNat (byteSet bytes) s))) := by
  show runIf (portOpen s) _ s = _
  rw [runIf_on _ _ o, arrive, if_neg (by simp [free])]

end

/-- Settles O14: the answer is put out and the arrival reported; a part at rest in AWAKE stays at rest. -/
theorem tagInUse : Obligations.TagInUse := by
  unfold Obligations.TagInUse
  intro s tag line bytes o busy
  refine ⟨exec_processorRead_busy o busy, exec_processorWrite_busy o busy, fun rest awake => ⟨?_, ?_⟩⟩
  · rw [exec_processorRead_busy o busy, settle_processorActivity (u := answer _ s) awake (answer_resting rest)]
    rfl
  · rw [exec_processorWrite_busy o busy, settle_processorActivity (u := answer _ s) awake (answer_resting rest)]
    rfl

/-! ## A write is recorded -/

/-- The bytes of a WRITE laid over others: a position holds the byte given for it, and else what it held. -/
theorem bytesGet_foldl_over (bytes : List (BitVec 6 × Byte)) (m : LineBytes) (p : BitVec 6) (b : Byte)
    (once : (bytes.map (·.1)).Nodup) :
    bytesGet (bytes.foldl (fun m q => bytesOver [(q.1.toNat, q.2)] m) m) p.toNat = some b ↔
      (p, b) ∈ bytes ∨ (p ∉ bytes.map (·.1) ∧ bytesGet m p.toNat = some b) := by
  induction bytes generalizing m with
  | nil => simp
  | cons q bytes ih =>
    obtain ⟨fresh, once⟩ := List.nodup_cons.1 once
    rw [List.foldl_cons, ih _ once, bytesGet_over, bytesGet_cons]
    by_cases hq : q.1 = p
    · subst hq
      have absent : (q.1, b) ∉ bytes := fun h => fresh (List.mem_map.2 ⟨_, h, rfl⟩)
      have same : (q.1, b) = q ↔ q.2 = b := by simp [Prod.ext_iff, eq_comm]
      simp [absent, fresh, same]
    · have other : ¬ q.1.toNat = p.toNat := fun h => hq (BitVec.eq_of_toNat_eq h)
      have ne : ¬ (p, b) = q := fun h => hq (by rw [← h])
      have ne' : ¬ p = q.1 := fun h => hq h.symm
      simp only [other, ne, ne', List.map_cons, List.mem_cons, if_false, false_or]
      rfl

theorem recordWrite_eq (tag : BitVec 4) (line : Line) (bytes : LineBytes) (s : State) :
    recordWrite tag line bytes s =
      if s.port.bindHold || s.port.sleepHold then
        { s with
          mem := { s.mem with clock := s.mem.clock + 1 }
          port := { s.port with held := s.port.held ++
            [{ tag := tag, line := line, bytes := bytes, arrived := s.mem.clock }] } }
      else
        { s with mem := { s.mem with clock := s.mem.clock + 1 + 1, accept := s.mem.accept ++
          [{ writer := .host tag s.mem.clock, line := line, bytes := bytes, speech := false, joined := s.mem.clock + 1 }] } } := rfl

theorem recordWrite_resting {s : State} (tag : BitVec 4) (line : Line) (bytes : LineBytes) (h : Resting s) :
    Resting (recordWrite tag line bytes s) := by
  rw [recordWrite_eq]
  split <;> exact h

/-- Settles O15: the record made of the write, and its bytes by position. -/
theorem writeRecorded : Obligations.WriteRecorded := by
  unfold Obligations.WriteRecorded
  constructor
  · intro s tag line bytes o free rest awake
    have level : (recordWrite tag line.toNat (byteSet bytes) s).sleep.level = .awake := by
      rw [recordWrite_eq]
      split <;> exact awake
    rw [exec_processorWrite_free o free, settle_processorActivity level (recordWrite_resting _ _ _ rest), recordWrite_eq]
  · intro bytes p b once
    have k := bytesGet_foldl_over bytes [] p b (of_decide_eq_true once)
    rw [byteSet, k]
    simp [bytesGet]

/-! ## A read is recorded -/

/-- What serving makes of a read that waits. -/
theorem serveRead_waiting (s : State) (r : ReadEntry) (h : r.status = .waiting) : serveRead s r =
    if readFree s r = false then (some r, [])
    else if bytesFull (upperLayers s.mem r.line) ([] : LineBytes) = true then
      match r.for_ with
      | .host tag => (none, [.readData tag false (composeLine [] (upperLayers s.mem r.line))])
      | _ => (some { r with status := .composed (composeLine [] (upperLayers s.mem r.line)) }, [])
    else (some { r with status := .needsDram, since := s.mem.clock }, []) := by
  unfold serveRead
  rw [h]
  cases readFree s r <;> rfl

/-- Settles O16: the read joins behind reads that are served already, and is served by itself. -/
theorem readRecorded : Obligations.ReadRecorded := by
  unfold Obligations.ReadRecorded
  intro s tag line o free rest awake served r u
  have joined : joinRead (.host tag) line.toNat s =
      if readFree s r = false then { u with mem := { u.mem with reads := s.mem.reads ++ [r] } }
      else if bytesFull (upperLayers s.mem line.toNat) ([] : LineBytes) = true then
        { u with out := { s.out with answers := s.out.answers ++
          [.readData tag false (composeLine [] (upperLayers s.mem line.toNat))] } }
      else { u with mem := { u.mem with reads := s.mem.reads ++
        [{ r with status := .needsDram, since := s.mem.clock + 1 }] } } := by
    have last := serveReads_last (s := { u with mem := { u.mem with reads := s.mem.reads ++ [r] } }) r s.mem.reads rfl served
    have one := serveRead_waiting { u with mem := { u.mem with reads := s.mem.reads ++ [r] } } r rfl
    replace one : serveRead { u with mem := { u.mem with reads := s.mem.reads ++ [r] } } r =
      if readFree s r = false then (some r, [])
      else if bytesFull (upperLayers s.mem line.toNat) ([] : LineBytes) = true then
        (none, [.readData tag false (composeLine [] (upperLayers s.mem line.toNat))])
      else (some { r with status := .needsDram, since := s.mem.clock + 1 }, []) := one
    replace last : joinRead (.host tag) line.toNat s = _ := last
    rw [last, one]
    split
    · simp [u]
    · split <;> simp [u]
  have kept : Resting (joinRead (.host tag) line.toNat s) ∧ (joinRead (.host tag) line.toNat s).sleep.level = .awake := by
    rw [joined]
    split
    · exact ⟨rest, awake⟩
    · split <;> exact ⟨rest, awake⟩
  rw [exec_processorRead_free o free, settle_processorActivity kept.2 kept.1, joined]

/-! ## The composed line -/

theorem composeLine_get (first : List Byte) (upper : LineBytes) {k : Nat} (h : k < 64) :
    (composeLine first upper)[k]? = some ((bytesGet upper k).getD (byteOf first k)) := by
  simp [composeLine, h]

theorem bytesFull_iff (m : LineBytes) :
    bytesFull m ([] : LineBytes) = true ↔ ∀ k, k < 64 → (bytesGet m k).isSome = true := by
  simp [bytesFull, bytesCover_eq, bytesGet]

/-- Settles O17: the byte at a position of the upper layers is the stage line's or else the queue entry's. -/
theorem compositionLayers : Obligations.CompositionLayers := by
  unfold Obligations.CompositionLayers
  constructor
  · intro m line first k hk
    rw [composeLine_get _ _ hk, bytesGet_upperLayers]
    cases (stageOf m line).bind (fun l => bytesGet l.bytes k) with
    | some b => rfl
    | none => cases entryOf m line with
      | none => rfl
      | some e => cases hb : bytesGet e.bytes k <;> simp [hb, byteOf]
  · intro m line
    rw [bytesFull_iff]
    refine forall₂_congr fun k _ => ?_
    rw [bytesGet_upperLayers]
    cases (stageOf m line).bind (fun l => bytesGet l.bytes k) with
    | some b => simp
    | none => cases entryOf m line with
      | none => simp
      | some e => simp

/-! ## A read completes -/

section
variable {s : State} {r : ReadEntry} {data : List Byte} {err : Bool}

theorem completeRead_composed {line : List Byte} (h : r.status = .composed line) : completeRead r data err s =
    some ((line, false, r.discard), { s with mem := { s.mem with reads := s.mem.reads.erase r } }) := by
  simp [completeRead, h]

theorem completeRead_later (h : r.status = .inFlight) (n : nextOfLine s.mem (.read r.arrived r.line) = false) :
    completeRead r data err s = none := by
  simp [completeRead, h, n]

theorem completeRead_ungranted (h : r.status = .waiting ∨ r.status = .needsDram) : completeRead r data err s = none := by
  rcases h with h | h <;> simp [completeRead, h]

theorem runRead_some {g : Completed → State → State} {c : Completed} {t : State} (h : completeRead r data err s = some (c, t)) :
    runRead (some r) data err g s = .next (settle (g c t)) := by
  unfold runRead
  rw [Option.bind_some, h]

end

theorem dueRead_eq (p : ReadFor → Bool) (line : Line) (m : MemPath) : dueRead p line m =
    match m.reads.find? (fun r => p r.for_ && r.line == line && r.status.isComposed) with
    | some r => some r
    | none => m.reads.find? (fun r => p r.for_ && r.line == line && r.status == .inFlight) := by
  unfold dueRead
  dsimp only
  cases m.reads.find? (fun r => p r.for_ && r.line == line && r.status.isComposed) <;> rfl

/-- Settles O18: the read found is completed, and handed to the host with the error of its memory read. -/
theorem hostReadAnswered : Obligations.HostReadAnswered := by
  unfold Obligations.HostReadAnswered
  refine ⟨?answered, ?none, dueRead_eq, ?completed⟩
  case answered =>
    intro s tag data err r rest found flying next
    have host : r.for_ = .host tag := by simpa using List.find?_some found
    have loud : r.silent = false := by simp [ReadEntry.silent, ReadEntry.isHost, host]
    show runRead _ data err _ s = _
    rw [found, runRead_some (takeCompleted_found flying next), hostReadDone, loud, Bool.not_false, Bool.and_true]
    exact congrArg Host.Outcome.next (settle_resting (answer_resting (resting_mem rest rfl rfl)))
  case none =>
    intro s tag data err none
    show runRead _ data err _ s = _
    rw [none]
    rfl
  case completed =>
    intro r data err s
    exact ⟨fun line h => completeRead_composed h, takeCompleted_found, completeRead_later, completeRead_ungranted⟩

end Sys2Proof.Machine
end

section
/-! SUPPORT. The write queue's mode, publications, and jobs that wait to place (R21, R24, R26, R28, R34 to R36, R39). -/

namespace Sys2Proof.Machine

/-! ## The mode and the entry of a line -/

section
variable {m : MemPath}

/-- The mode that an occupancy gives where DRAIN is not forced (R39). -/
def occupancyMode (n : Nat) (old : ArbMode) : ArbMode :=
  if Config.drainAt ≤ n then .drain else if n ≤ Config.readFirstAt then .readFirst else old

theorem setMode_mode (d : ArbMode) (m : MemPath) : (setMode d m).mode = d := by
  unfold setMode
  split
  · assumption
  · rfl

theorem setMode_count (d : ArbMode) (m : MemPath) : (setMode d m).count = if d = m.mode then m.count else 0 := by
  unfold setMode
  by_cases h : m.mode = d
  · rw [if_pos h, if_pos h.symm]
  · rw [if_neg h, if_neg (Ne.symm h)]

theorem setMode_form (d : ArbMode) (m : MemPath) : setMode d m = { m with mode := d, count := (setMode d m).count } := by
  unfold setMode
  split <;> rename_i h
  · rw [← h]
  · rfl

theorem setMode_self (m : MemPath) : setMode m.mode m = m := if_pos rfl

theorem noteOccupancy_forced (forced : m.forced = true) (h : m.queue ≠ []) : noteOccupancy m = m := by
  simp [noteOccupancy, forced, h]

theorem noteOccupancy_empty (forced : m.forced = true) (h : m.queue = []) :
    noteOccupancy m = setMode .readFirst { m with forced := false } := by
  simp [noteOccupancy, forced, h]

theorem noteOccupancy_free (free : m.forced = false) : noteOccupancy m = setMode (occupancyMode m.queue.length m.mode) m := by
  unfold noteOccupancy occupancyMode
  dsimp only
  rw [if_neg (by simp [free])]
  by_cases high : Config.drainAt ≤ m.queue.length
  · rw [if_pos high, if_pos high]
  · rw [if_neg high, if_neg high]
    by_cases low : m.queue.length ≤ Config.readFirstAt
    · rw [if_pos low, if_pos low]
    · rw [if_neg low, if_neg low, setMode_self]

variable {line : Line} (bytes : LineBytes) (o : Origin) (speech : Bool)

/-- The entry with bytes merged into it (R24). -/
def merged (m : MemPath) (bytes : LineBytes) (o : Origin) (speech : Bool) (x : QEntry) : QEntry :=
  { x with
    bytes := bytesOver (bytes.map (fun p => (p.1, (p.2, o)))) x.bytes
    speech := if speech then some (x.speech.getD (m.clock + 1)) else x.speech }

/-- The entry made of bytes (R26). -/
def fresh (m : MemPath) (line : Line) (bytes : LineBytes) (o : Origin) (speech : Bool) : QEntry :=
  { line := line, bytes := bytesOver (bytes.map (fun p => (p.1, (p.2, o)))) [], draining := false, age := m.clock,
    speech := if speech then some (m.clock + 1) else none }

/-- The queue with that entry at its end, before the mode follows. -/
def entryAdded (m : MemPath) (e : QEntry) : MemPath := { m with queue := m.queue ++ [e], clock := m.clock + 2 }

theorem takeBytes_hit {x : QEntry} (h : entryOf m line = some x) : takeBytes line bytes o speech m = { m with
    queue := m.queue.map (fun e => if e.line == line then merged m bytes o speech e else e), clock := m.clock + 2 } := by
  unfold takeBytes
  rw [h]
  rfl

theorem takeBytes_miss (h : entryOf m line = none) : takeBytes line bytes o speech m =
    noteOccupancy (entryAdded m (fresh m line bytes o speech)) := by
  unfold takeBytes
  rw [h]
  rfl

theorem takeBytes_hit_entry {x : QEntry} (h : entryOf m line = some x) :
    entryOf (takeBytes line bytes o speech m) line = some (merged m bytes o speech x) := by
  have hx : (x.line == line) = true := List.find?_some (p := fun e : QEntry => e.line == line) h
  rw [takeBytes_hit _ _ _ h]
  unfold entryOf at h ⊢
  rw [find_entry_map (by intro e; split <;> rfl), h, Option.map_some, if_pos hx]

theorem takeBytes_miss_entry (h : entryOf m line = none) :
    entryOf (takeBytes line bytes o speech m) line = some (fresh m line bytes o speech) := by
  rw [takeBytes_miss _ _ _ h]
  unfold entryOf at h ⊢
  rw [noteOccupancy_queue]
  simp [entryAdded, List.find?_append, h, fresh]

end

/-- Settles O21: a merge leaves all but the bytes and the speech mark; a miss adds an entry, and the mode follows. -/
theorem queueTakesBytes : Obligations.QueueTakesBytes := by
  unfold Obligations.QueueTakesBytes
  intro m line bytes o speech _ takes n
  refine ⟨fun l hl => takeBytes_entry_other _ _ _ _ hl, ?_⟩
  obtain ⟨e, he, ready, hbytes⟩ := takeBytes_entry line bytes o speech takes
  refine ⟨e, he, ready, fun k => ?_, ?_⟩
  · rw [hbytes]
    cases bytesGet bytes k <;> rfl
  · cases h : entryOf m line with
    | some x =>
      obtain rfl : merged m bytes o speech x = e := Option.some.inj ((takeBytes_hit_entry _ _ _ h).symm.trans he)
      have hn : n = _ := takeBytes_hit bytes o speech h
      rw [hn]
      refine ⟨rfl, List.length_map _, ?_, rfl, rfl⟩
      cases speech <;> simp [merged]
    | none =>
      obtain rfl : fresh m line bytes o speech = e := Option.some.inj ((takeBytes_miss_entry _ _ _ h).symm.trans he)
      have hn : n = _ := takeBytes_miss bytes o speech h
      rw [hn]
      have mark : (fresh m line bytes o speech).speech.isSome = speech := by cases speech <;> rfl
      have count : (entryAdded m (fresh m line bytes o speech)).queue.length = m.queue.length + 1 := List.length_append
      by_cases forced : m.forced = true
      · rw [noteOccupancy_forced (m := entryAdded m _) forced (by simp [entryAdded])]
        exact ⟨rfl, count, mark, rfl, (if_pos forced).symm, (if_pos rfl).symm⟩
      · rw [noteOccupancy_free (m := entryAdded m _) (Bool.eq_false_iff.2 forced)]
        refine ⟨rfl, by rw [setMode_queue, count], mark, ?_, ?_, ?_⟩
        · rw [setMode_form]
          rfl
        · rw [setMode_mode, setMode_queue, if_neg forced]
          rfl
        · rw [setMode_count, setMode_mode]
          rfl

/-! ## Publications -/

section
variable {m : MemPath}

/-- One image of a publication laid on the stage (R35). -/
def imagePlaced (number : Nat) (m : MemPath) (p : Line × LineBytes) : MemPath :=
  if (stageOf m p.1).isSome then
    { m with stage := m.stage.map (fun l =>
        if l.line == p.1 then { l with bytes := bytesOver p.2 l.bytes, pub := number } else l) }
  else { m with stage := m.stage ++ [{ line := p.1, bytes := p.2, pub := number }] }

theorem publishImages_eq (number : Nat) (images : List (Line × LineBytes)) (m : MemPath) :
    publishImages number images m = stageLeave (images.foldl (imagePlaced number) m) := rfl

theorem imagePlaced_queue (number : Nat) (m : MemPath) (p : Line × LineBytes) : (imagePlaced number m p).queue = m.queue := by
  unfold imagePlaced
  split <;> rfl

theorem imagePlaced_law (number : Nat) (p : Line × LineBytes) (h : StageLaw m) : StageLaw (imagePlaced number m p) := by
  unfold imagePlaced
  split <;> rename_i c
  · have lines : (m.stage.map (fun l =>
        if l.line == p.1 then { l with bytes := bytesOver p.2 l.bytes, pub := number } else l)).map (·.line) =
        m.stage.map (·.line) := by
      rw [List.map_map]
      refine List.map_congr_left fun l _ => ?_
      simp only [Function.comp]
      split <;> rfl
    exact (congrArg List.Nodup lines).mpr h
  · have absent : p.1 ∉ m.stage.map (·.line) := by
      intro hp
      obtain ⟨l, hl, e⟩ := List.mem_map.1 hp
      rw [← e, stageOf_mem h hl] at c
      exact c rfl
    have lines : (m.stage ++ [({ line := p.1, bytes := p.2, pub := number } : StageLine)]).map (·.line) =
        m.stage.map (·.line) ++ [p.1] := List.map_append
    refine (congrArg List.Nodup lines).mpr ?_
    exact List.nodup_append.2 ⟨h, by simp, fun a ha b hb e => absent (by simp at hb; rwa [← hb, ← e])⟩

/-- The bytes that the stage holds of a line after an image was laid on it. -/
theorem imagePlaced_stage (number : Nat) (p : Line × LineBytes) (x : Line) (k : Nat) :
    (stageOf (imagePlaced number m p) x).bind (fun l => bytesGet l.bytes k) =
      (if x = p.1 then bytesGet p.2 k else none).or ((stageOf m x).bind (fun l => bytesGet l.bytes k)) := by
  have line : ∀ l, stageOf m x = some l → l.line = x := fun l h => by simpa using List.find?_some h
  unfold imagePlaced
  split <;> rename_i c
  · have found : stageOf { m with stage := m.stage.map (fun l =>
        if l.line == p.1 then { l with bytes := bytesOver p.2 l.bytes, pub := number } else l) } x =
        (stageOf m x).map (fun l => if l.line == p.1 then { l with bytes := bytesOver p.2 l.bytes, pub := number } else l) :=
      find_stage_map (by intro l; split <;> rfl) _ _
    rw [found]
    cases hs : stageOf m x with
    | none =>
      have ne : x ≠ p.1 := by
        rintro rfl
        rw [hs] at c
        cases c
      simp [ne]
    | some l =>
      have hl : l.line = x := line l hs
      by_cases e : x = p.1
      · simp [hl, e, bytesGet_over]
      · simp [hl, e]
  · have found : stageOf { m with stage := m.stage ++ [{ line := p.1, bytes := p.2, pub := number }] } x =
        (stageOf m x).or (if x = p.1 then some { line := p.1, bytes := p.2, pub := number } else none) := by
      unfold stageOf
      rw [List.find?_append]
      congr 1
      by_cases e : x = p.1
      · simp [e]
      · simp [e, Ne.symm e]
    rw [found]
    by_cases e : x = p.1
    · subst e
      have hs : stageOf m p.1 = none := by simpa using c
      simp [hs]
    · simp [e]

theorem imagePlaced_reads (number : Nat) (p : Line × LineBytes) (x : Line) (k : Nat) :
    bytesGet (upperLayers (imagePlaced number m p) x) k =
      (if x = p.1 then bytesGet p.2 k else none).or (bytesGet (upperLayers m x) k) := by
  have entry : entryOf (imagePlaced number m p) x = entryOf m x := entryOf_congr (imagePlaced_queue number m p) x
  rw [bytesGet_upperLayers, bytesGet_upperLayers, imagePlaced_stage, entry, Option.or_assoc]

theorem imagesPlaced_law (number : Nat) (images : List (Line × LineBytes)) (h : StageLaw m) :
    StageLaw (images.foldl (imagePlaced number) m) := by
  induction images generalizing m with
  | nil => exact h
  | cons p images ih => exact ih (imagePlaced_law number p h)

theorem imagesPlaced_reads (number : Nat) (images : List (Line × LineBytes)) (once : (images.map (·.1)).Nodup) (x : Line)
    (k : Nat) : bytesGet (upperLayers (images.foldl (imagePlaced number) m) x) k =
      ((images.find? (fun p => p.1 == x)).bind (fun p => bytesGet p.2 k)).or (bytesGet (upperLayers m x) k) := by
  induction images generalizing m with
  | nil => rfl
  | cons p images ih =>
    obtain ⟨fresh, once⟩ := List.nodup_cons.1 once
    rw [List.foldl_cons, ih once, imagePlaced_reads, List.find?_cons]
    by_cases e : x = p.1
    · subst e
      have none : images.find? (fun q => q.1 == p.1) = none :=
        List.find?_eq_none.2 fun q hq hx => fresh (List.mem_map.2 ⟨q, hq, beq_iff_eq.1 hx⟩)
      simp [none]
    · have off : (p.1 == x) = false := by simpa using Ne.symm e
      simp [off, e]

theorem publishImages_reads (number : Nat) (images : List (Line × LineBytes)) (law : StageLaw m)
    (once : (images.map (·.1)).Nodup) (x : Line) (k : Nat) : bytesGet (upperLayers (publishImages number images m) x) k =
      ((images.find? (fun p => p.1 == x)).bind (fun p => bytesGet p.2 k)).or (bytesGet (upperLayers m x) k) := by
  rw [publishImages_eq, stageLeave_reads (imagesPlaced_law number images law), imagesPlaced_reads number images once]

end

section
variable {s : State} {p : Publication} {rest : List Publication}

theorem exec_stagePublish (h : s.mem.pubs = p :: rest) : exec .stagePublish s =
    runIf (stageFits s.mem p.images) (publishNext p rest) s := by
  show execStagePublish s = _
  rw [execStagePublish, h]

theorem exec_stagePublish_none (h : s.mem.pubs = []) : exec .stagePublish s = .next s := by
  show execStagePublish s = _
  rw [execStagePublish, h]

end

/-- Settles O22: the images laid on the stage are read there, and lines that leave read the same. -/
theorem publications : Obligations.Publications := by
  unfold Obligations.Publications
  refine ⟨fun m number images _ law once line k => ?_, fun s p rest h fits => ?_, fun s p rest h fits => ?_,
    fun s h => exec_stagePublish_none h⟩
  · rw [publishImages_reads number images law once]
    cases (images.find? (fun p => p.1 == line)).bind (fun p => bytesGet p.2 k) <;> rfl
  · rw [exec_stagePublish h, runIf_on _ _ fits]
    rfl
  · rw [exec_stagePublish h, runIf_off _ _ fits]

/-! ## The turn of a waiting job -/

/-- The first of a list that passes a test passes a second one too: it is the first that passes both. -/
theorem find_and {α : Type} {p q : α → Bool} {l : List α} {x : α} (h : l.find? p = some x) (hq : q x = true) :
    l.find? (fun y => p y && q y) = some x := by
  induction l with
  | nil => cases h
  | cons y l ih =>
    rw [List.find?_cons] at h ⊢
    cases hp : p y with
    | false =>
      rw [hp] at h
      rw [Bool.false_and]
      exact ih h
    | true =>
      rw [hp] at h
      injection h with h
      subst h
      rw [hq]
      rfl

/-- Of things with names of their own, one that is named so and one that began earlier: none of that name is first. -/
theorem turn_none {α : Type} {ws : List α} {job : α → Job} {since : α → Nat} {j : Job} {w v : α}
    (once : (ws.map job).Nodup) (hw : w ∈ ws) (hj : job w = j) (hv : v ∈ ws) (earlier : since v < since w) :
    ws.find? (fun x => job x == j && ws.all (fun y => decide (since x ≤ since y))) = none := by
  refine List.find?_eq_none.2 fun x hx c => ?_
  simp only [Bool.and_eq_true, beq_iff_eq, List.all_eq_true, decide_eq_true_eq] at c
  obtain rfl : x = w := List.inj_on_of_nodup_map once hx hw (c.1.trans hj.symm)
  exact absurd (c.2 v hv) (Nat.not_le.2 earlier)

section
variable {s : State} {j : Job}

theorem exec_writeTurn {w : Wait} (h : turnOf j s = some w) : exec (.internalWritePlaceWait j) s =
    runIf (internalCount s.mem < Config.internalWrites) (takeTurn w) s := by
  show execInternalWritePlaceWait j s = _
  rw [execInternalWritePlaceWait, h]

theorem exec_writeTurn_none (h : turnOf j s = none) : exec (.internalWritePlaceWait j) s = .next s := by
  show execInternalWritePlaceWait j s = _
  rw [execInternalWritePlaceWait, h]

theorem exec_writeTurn_full (full : 16 ≤ internalCount s.mem) : exec (.internalWritePlaceWait j) s = .next s := by
  cases h : turnOf j s with
  | none => exact exec_writeTurn_none h
  | some w =>
    rw [exec_writeTurn h]
    exact runIf_off _ _ (decide_eq_false (Nat.not_lt.2 full))

/-- The job that began to wait first takes its turn. -/
theorem exec_writeTurn_first {w : Wait} (h : s.mem.waits.find? (fun v => v.job == j) = some w)
    (first : ∀ v ∈ s.mem.waits, w.since ≤ v.since) (room : internalCount s.mem < 16) :
    exec (.internalWritePlaceWait j) s = .next (settle (takeTurn w s)) := by
  have turn : turnOf j s = some w :=
    find_and (q := fun w : Wait => s.mem.waits.all (fun x => decide (w.since ≤ x.since))) h (by simpa using first)
  rw [exec_writeTurn turn]
  exact runIf_on _ _ (decide_eq_true room)

theorem exec_readTurn {w : ReadWait} (h : readTurnOf j s = some w) : exec (.internalReadPlaceWait j) s =
    runIf (internalReadCount s.mem < Config.internalReads) (takeReadTurn w) s := by
  show execInternalReadPlaceWait j s = _
  rw [execInternalReadPlaceWait, h]

theorem exec_readTurn_none (h : readTurnOf j s = none) : exec (.internalReadPlaceWait j) s = .next s := by
  show execInternalReadPlaceWait j s = _
  rw [execInternalReadPlaceWait, h]

theorem exec_readTurn_full (full : 4 ≤ internalReadCount s.mem) : exec (.internalReadPlaceWait j) s = .next s := by
  cases h : readTurnOf j s with
  | none => exact exec_readTurn_none h
  | some w =>
    rw [exec_readTurn h]
    exact runIf_off _ _ (decide_eq_false (Nat.not_lt.2 full))

/-! ## Work that waits -/

theorem mustWait_of (h : s.mem.waits ≠ [] ∨ 16 ≤ internalCount s.mem) : mustWait s = true := by
  rcases h with h | h
  · simp [mustWait, h]
  · simp [mustWait, Config.internalWrites, h]

theorem mustWait_off (h : s.mem.waits = []) (room : internalCount s.mem < 16) : mustWait s = false := by
  simp [mustWait, h, Nat.not_le.2 (show internalCount s.mem < Config.internalWrites from room)]

/-- A job that does not wait yet begins to. -/
theorem waitActs_new {acts : List Act} (h : ∀ v ∈ s.mem.waits, v.job ≠ j) : waitActs j acts s =
    { s with mem := { s.mem with waits := s.mem.waits ++ [{ job := j, since := s.mem.clock, acts := acts }] } } := by
  have none : s.mem.waits.any (fun w => w.job == j) = false := by simpa using h
  simp [waitActs, addWait, none]

/-- Work of a job that waits joins its list of acts (log entry 9). -/
theorem waitActs_behind {acts : List Act} {pre post : List Wait} {v : Wait} (h : s.mem.waits = pre ++ v :: post)
    (hv : v.job = j) (others : ∀ x ∈ pre ++ post, x.job ≠ j) : waitActs j acts s =
      { s with mem := { s.mem with waits := pre ++ { v with acts := v.acts ++ acts } :: post } } := by
  have waits : s.mem.waits.any (fun w => w.job == j) = true := by simp [h, hv]
  have same : ∀ l : List Wait, (∀ x ∈ l, x ∈ pre ++ post) →
      l.map (fun w => if w.job == j then { w with acts := w.acts ++ acts } else w) = l := by
    intro l hl
    refine (List.map_congr_left fun x hx => if_neg ?_).trans (List.map_id _)
    simpa using others x (hl x hx)
  simp only [waitActs, addWait, waits, if_true]
  rw [h, List.map_append, List.map_cons, same pre (fun x hx => List.mem_append_left _ hx),
    same post (fun x hx => List.mem_append_right _ hx), if_pos (by simpa using hv)]

theorem runActs_waits {a : Act} {rest : List Act} (places : a.places = true) (must : mustWait s = true) :
    runActs j (a :: rest) s = waitActs j (a :: rest) s := by
  simp [runActs, places, must]

theorem runActs_goes {a : Act} {rest : List Act} (h : a.places = false ∨ mustWait s = false) :
    runActs j (a :: rest) s = runActs j rest (doAct a s) := by
  rcases h with h | h <;> simp [runActs, h]

theorem takeTurn_eq (w : Wait) (s : State) : takeTurn w s =
    (let t := { s with mem := { s.mem with waits := s.mem.waits.erase w } }
     match w.acts with
     | [] => t
     | a :: rest => runActs w.job rest (doAct a t)) := rfl

end

/-- What the end of a moment leaves of a steady part whose waiting work is of no concern: the moment itself. -/
theorem settle_moment {t : State} (hs : steady t = true) (hp : t.events.pending = []) (ho : t.events.owed = none)
    (hq : t.link.queue = []) (ha : t.sleep.wakeAfter = none) (hl : t.sleep.level ≠ .roused)
    (hi : t.conn.inactTimer.runs = connIdle t) : settle t = closeMoment t := by
  rw [settle_steady hs, pumpIdle_resting hi, finish, placeEvents_done hp ho, sendNext_still (.inl hq), checkWake_still ha,
    pumpWindow_still hl]

theorem emitWrite_empty {j : Job} {w : WriteReq} {s : State} (h : w.bytes = []) : emitWrite j w s = s := by
  simp [emitWrite, h]

theorem emitWrite_waits {j : Job} {w : WriteReq} {s : State} (h : w.bytes ≠ []) (must : mustWait s = true) :
    emitWrite j w s = waitActs j [.write w] s := by
  simp [emitWrite, h, must]

theorem emitWrite_joins {j : Job} {w : WriteReq} {s : State} (h : w.bytes ≠ []) (free : mustWait s = false) :
    emitWrite j w s = joinWrite w s := by
  simp [emitWrite, h, free]

theorem serveReads_resting {s : State} (h : Resting s) : Resting (serveReads s) := h

/-- Settles O23: the wait of the job named, where it is the oldest, is taken off, its work done; what cannot be placed waits. -/
theorem placedInTurn : Obligations.PlacedInTurn := by
  unfold Obligations.PlacedInTurn
  refine ⟨⟨?one, ?turn, ?acts, ?two, ?later, fun s j full => exec_writeTurn_full full, ?emit⟩, ?read, ?readLater,
    fun s j full => exec_readTurn_full full⟩
  case one =>
    intro s j t0 x waits room rest w
    rw [exec_writeTurn_first (w := { job := j, since := t0, acts := [.write x] }) (by simp [waits]) (by simp [waits]) room]
    have placed : takeTurn { job := j, since := t0, acts := [.write x] } s =
        joinWrite x { s with mem := { s.mem with waits := [] } } := by
      simp [takeTurn, runActs, doAct, waits]
    exact congrArg Host.Outcome.next ((congrArg settle placed).trans (settle_resting (joinWrite_resting rest)))
  case turn =>
    intro s j w found first room
    have hj : w.job = j := by simpa using List.find?_some found
    rw [exec_writeTurn_first found first room, takeTurn_eq, hj] <;> rfl
  case acts =>
    intro j a rest s
    refine ⟨rfl, fun places must new => ?_, fun free => ?_⟩
    · rw [runActs_waits places (mustWait_of must), waitActs_new new]
    · exact runActs_goes (free.imp_right fun h => mustWait_off h.1 h.2)
  case two =>
    intro s j v t0 x y st hp ho hq hr ha hl hi ne began waits older room w
    rw [exec_writeTurn_first (w := { job := j, since := t0, acts := [.write x, .write y] }) (by simp [waits])
      (by simpa [waits] using older) room]
    have placed : takeTurn { job := j, since := t0, acts := [.write x, .write y] } s = { s with mem := { s.mem with
        clock := s.mem.clock + 1, accept := s.mem.accept ++ [w]
        waits := [v, { job := j, since := s.mem.clock + 1, acts := [.write y] }] } } := by
      rw [takeTurn_eq]
      simp only [waits, List.erase_cons_head, doAct]
      rw [runActs_waits rfl (mustWait_of (.inl (List.cons_ne_nil _ _))), waitActs_new (by simpa [joinWrite, tickClock] using ne)]
      rfl
    rw [placed]
    refine congrArg Host.Outcome.next ((settle_moment (by exact st) (by exact hp) (by exact ho) (by exact hq) (by exact ha)
      (by exact hl) (by exact hi)).trans ?_)
    simp [closeMoment, tickClock]
  case later =>
    intro s j w v once hw hj hv earlier
    exact exec_writeTurn_none (turn_none once hw hj hv earlier)
  case emit =>
    intro s j w
    refine ⟨emitWrite_empty, fun h none room => emitWrite_joins h (mustWait_off none room), fun h must new => ?_,
      fun pre v post h waits hv others => ?_, rfl⟩
    · rw [emitWrite_waits h (mustWait_of must), waitActs_new new]
    · rw [emitWrite_waits h (mustWait_of (.inl (by simp [waits]))), waitActs_behind waits hv others]
  case read =>
    intro s j t0 f line waits room rest r
    have turn : readTurnOf j s = some { job := j, since := t0, reads := [(f, line)] } := by simp [readTurnOf, waits]
    have placed : takeReadTurn { job := j, since := t0, reads := [(f, line)] } s =
        serveReads { s with mem := { s.mem with readWaits := [], clock := s.mem.clock + 1, reads := s.mem.reads ++ [r] } } := by
      simp [takeReadTurn, placeReads, waits, joinRead, tickClock, r]
    rw [exec_readTurn turn, runIf_on _ _ (decide_eq_true (show _ < Config.internalReads from room)), placed]
    exact congrArg Host.Outcome.next (settle_resting (serveReads_resting (by exact rest)))
  case readLater =>
    intro s j w v once hw hj hv earlier
    exact exec_readTurn_none (turn_none once hw hj hv earlier)

end Sys2Proof.Machine
end

section
/-! SUPPORT. The arbiter's grants and the end of a drain (R25 to R27, R36, R38 to R40). -/

namespace Sys2Proof.Machine

/-! ## Grants -/

section
variable {s : State}

theorem grantRead_resting (r : ReadEntry) (h : Resting s) : Resting (grantRead r s) := h

theorem grantDrain_resting (e : QEntry) (h : Resting s) : Resting (grantDrain e s) := h

theorem setCount_resting (n : Nat) (h : Resting s) : Resting (setCount n s) := h

/-- A grant that leaves the part at rest has that effect and no other. -/
theorem exec_arbiterGrant {d : Bool} {t : State} (active : s.mem.memState = .active) (e : grant d s = t) (rest : Resting t) :
    exec (.arbiterGrant d) s = .next t := by
  show runIf _ (grant d) s = _
  rw [runIf_on _ _ (by rw [active]; rfl), e, settle_resting rest]

theorem exec_arbiterGrant_asleep {d : Bool} (h : s.mem.memState ≠ .active) : exec (.arbiterGrant d) s = .next s :=
  runIf_off _ _ (by simpa using h)

/-- The grant in ACTIVE, by the speech accesses that wait (R40). -/
theorem grant_active (d : Bool) (active : s.mem.memState = .active) : grant d s =
    match speechRead s.mem, oldestSpeechDrain s.mem with
    | none, none => grantPlain s
    | some r, none => grantRead r s
    | none, some (_, e) => grantDrain e s
    | some r, some (t, e) => if t < r.since || (t == r.since && d) then grantDrain e s else grantRead r s := by
  unfold grant
  exact if_neg (by simp [active])

theorem grantPlain_none (he : oldestReady s.mem = none) (hr : oldestRead s.mem = none) : grantPlain s = s := by
  simp [grantPlain, he, hr]

theorem grantPlain_drain {e : QEntry} (he : oldestReady s.mem = some e) (hr : oldestRead s.mem = none) :
    grantPlain s = setCount 0 (grantDrain e s) := by
  simp [grantPlain, he, hr]

theorem grantPlain_read {r : ReadEntry} (he : oldestReady s.mem = none) (hr : oldestRead s.mem = some r) :
    grantPlain s = grantRead r (setCount 0 s) := by
  simp [grantPlain, he, hr]

theorem grantPlain_both {e : QEntry} {r : ReadEntry} (he : oldestReady s.mem = some e) (hr : oldestRead s.mem = some r) :
    grantPlain s = if s.mem.mode = .drain ∨ 8 ≤ s.mem.count then setCount 0 (grantDrain e s)
      else grantRead r (setCount (s.mem.count + 1) s) := by
  have full : decide (Config.readGrants ≤ s.mem.count) = decide (8 ≤ s.mem.count) := rfl
  simp [grantPlain, he, hr, full]

end

/-- Settles O24: the accesses that wait decide which branch of the grant is taken. -/
theorem arbiterChooses : Obligations.ArbiterChooses := by
  unfold Obligations.ArbiterChooses
  refine ⟨⟨fun s r => rfl, fun s e => rfl⟩, fun s d h => exec_arbiterGrant_asleep h, fun s d active rest => ?_⟩
  have which := grant_active d active
  refine ⟨fun r hr hd => ?_, fun t e hr hd => ?_, fun r t e hr hd => ⟨fun first => ?_, fun first => ?_⟩, fun hr hd => ?_⟩
  · rw [hr, hd] at which
    exact exec_arbiterGrant active which (grantRead_resting r rest)
  · rw [hr, hd] at which
    exact exec_arbiterGrant active which (grantDrain_resting e rest)
  · rw [hr, hd] at which
    refine exec_arbiterGrant active (which.trans (if_neg ?_)) (grantRead_resting r rest)
    rcases first with first | ⟨first, rfl⟩
    · have : t ≠ r.since := by omega
      simp [this, Nat.le_of_lt first]
    · simp [first]
  · rw [hr, hd] at which
    refine exec_arbiterGrant active (which.trans (if_pos ?_)) (grantDrain_resting e rest)
    rcases first with first | ⟨first, rfl⟩
    · simp [first]
    · simp [first]
  · rw [hr, hd] at which
    replace which : grant d s = grantPlain s := which
    refine ⟨fun he hp => ?_, fun e he hp => ?_, fun r he hp => ?_, fun e r he hp => ⟨fun drain => ?_, fun first few => ?_⟩⟩
    · exact exec_arbiterGrant active (which.trans (grantPlain_none he hp)) rest
    · exact exec_arbiterGrant active (which.trans (grantPlain_drain he hp))
        (setCount_resting 0 (grantDrain_resting e rest))
    · exact exec_arbiterGrant active (which.trans (grantPlain_read he hp))
        (grantRead_resting r (setCount_resting 0 rest))
    · exact exec_arbiterGrant active (which.trans ((grantPlain_both he hp).trans (if_pos drain)))
        (setCount_resting 0 (grantDrain_resting e rest))
    · have reads : ¬ (s.mem.mode = .drain ∨ 8 ≤ s.mem.count) := by
        rw [first]
        rintro (h | h)
        · cases h
        · omega
      exact exec_arbiterGrant active (which.trans ((grantPlain_both he hp).trans (if_neg reads)))
        (grantRead_resting r (setCount_resting _ rest))

/-! ## The end of a drain -/

section
variable {s : State} {line : Line}

/-- The memory path with a drained entry freed, before the mode follows (R27). -/
def entryFreed (line : Line) (m : MemPath) : MemPath :=
  { m with queue := m.queue.filter (fun e => !(e.line == line && e.draining)), inFlight := m.inFlight.erase (.drain line) }

theorem freeEntry_eq (line : Line) (m : MemPath) : freeEntry line m = stageLeave (noteOccupancy (entryFreed line m)) := rfl

theorem stageLeave_none {m : MemPath} (h : m.stage = []) : stageLeave m = m := by
  unfold stageLeave
  rw [h]
  rfl

theorem exec_drainDone {line : BitVec 26} (h : nextOfLine s.mem (.drain line.toNat) = true) :
    exec (.drainDone line) s = .next (settle (drainDone line.toNat s)) := runIf_on _ _ h

theorem exec_drainDone_off {line : BitVec 26} (h : nextOfLine s.mem (.drain line.toNat) = false) :
    exec (.drainDone line) s = .next s := runIf_off _ _ h

theorem headTakes_none (h : s.mem.accept = []) : headTakes s = false := by simp [headTakes, h]

/-- Nothing staged, nothing to accept, nothing to read: the entry alone is freed. -/
theorem drainDone_plain (stage : s.mem.stage = []) (accept : s.mem.accept = []) (reads : s.mem.reads = []) :
    drainDone line s = { s with mem := noteOccupancy (entryFreed line s.mem) } := by
  have freed : freeEntry line s.mem = noteOccupancy (entryFreed line s.mem) := by
    rw [freeEntry_eq, stageLeave_none (by rw [noteOccupancy_stage]; exact stage)]
  obtain ⟨c, mode, e⟩ : ∃ c mode, ∃ f, noteOccupancy (entryFreed line s.mem) =
      { entryFreed line s.mem with count := c, mode := mode, forced := f } := by
    unfold noteOccupancy setMode
    dsimp only
    repeat' split
    all_goals exact ⟨_, _, _, rfl⟩
  obtain ⟨f, e⟩ := e
  have served : serveReads { s with mem := freeEntry line s.mem } = { s with mem := freeEntry line s.mem } :=
    serveReads_none (by rw [freed, e]; exact reads)
  unfold drainDone
  dsimp only
  rw [served, headTakes_none (s := { s with mem := freeEntry line s.mem }) (by rw [freed, e]; exact accept), Bool.and_false,
    if_neg (by decide), freed]

end

section
variable {m : MemPath}

theorem noteOccupancy_forced_after (m : MemPath) :
    (noteOccupancy m).forced = (m.forced && !(noteOccupancy m).queue.isEmpty) := by
  rw [noteOccupancy_queue]
  cases forced : m.forced with
  | true =>
    by_cases empty : m.queue = []
    · rw [noteOccupancy_empty forced empty, setMode_form, empty]
      rfl
    · rw [noteOccupancy_forced forced empty, forced]
      simp [empty]
  | false =>
    rw [noteOccupancy_free forced, setMode_form]
    exact forced

/-- A change of mode clears the count, and no other thing does. -/
theorem noteOccupancy_count (m : MemPath) :
    (noteOccupancy m).count = if (noteOccupancy m).mode = m.mode then m.count else 0 := by
  cases forced : m.forced with
  | true =>
    by_cases empty : m.queue = []
    · rw [noteOccupancy_empty forced empty, setMode_count, setMode_mode]
    · rw [noteOccupancy_forced forced empty, if_pos rfl]
  | false => rw [noteOccupancy_free forced, setMode_count, setMode_mode]

/-- What the mode is left to, of the memory path, by the occupancy: the mode, the forcing and the count. -/
theorem noteOccupancy_form (m : MemPath) : noteOccupancy m = { m with
    mode := (noteOccupancy m).mode, forced := (noteOccupancy m).forced, count := (noteOccupancy m).count } := by
  unfold noteOccupancy setMode
  dsimp only
  repeat' split
  all_goals rfl

end

/-- Settles O25: what a drain frees, the order in which stage lines and the head are offered the room, and its occasion. -/
theorem drainFreesItsEntry : Obligations.DrainFreesItsEntry := by
  unfold Obligations.DrainFreesItsEntry
  refine ⟨?plain, ?general, ?order, ?head, fun s line h => exec_drainDone_off h⟩
  case plain =>
    intro s line next rest stage accept reads
    have done := drainDone_plain (line := line.toNat) stage accept reads
    have form := noteOccupancy_form (entryFreed line.toNat s.mem)
    have count := noteOccupancy_count (entryFreed line.toNat s.mem)
    have rest' : Resting { s with mem := noteOccupancy (entryFreed line.toNat s.mem) } :=
      resting_mem rest (by rw [form]; rfl) (by rw [form]; rfl)
    refine ⟨{ s with mem := noteOccupancy (entryFreed line.toNat s.mem) },
      (exec_drainDone next).trans (by rw [done, settle_resting rest']), noteOccupancy_queue _, by rw [form]; rfl,
      noteOccupancy_forced_after _, fun free => ?_, fun same => ?_, fun changed => ?_, rfl⟩
    · dsimp only
      rw [noteOccupancy_free (m := entryFreed line.toNat s.mem) free, setMode_mode, setMode_queue]
      rfl
    · exact count.trans (if_pos same)
    · exact count.trans (if_neg changed)
  case general =>
    intro s line next
    rw [exec_drainDone next]
    unfold drainDone
    dsimp only
    rw [freeEntry_eq]
    unfold entryFreed
    cases headTakes s <;> simp
  case order =>
    intro m
    unfold stageLeave
    simp only [stageLineLeave_eq]
    rfl
  case head =>
    intro s w ws h
    refine ⟨fun note hw => ?_, fun tag arrived hw => ?_⟩
    · simp [headTakes, acceptHead, h, hw, AccWrite.isHost]
    · simp [headTakes, acceptHead, h, hw, AccWrite.isHost]

end Sys2Proof.Machine
end

section
/-! SUPPORT. A sleep request, the stop grant and the abandonment of a sleep entry (R39, R173, R176, R177, R179). -/

namespace Sys2Proof.Machine

variable {s : State}

/-! ## Writes of the plan record's second line -/

theorem wrote_resting {w : WriteReq} (h : Resting s) : Resting (wrote w s) := by
  unfold wrote
  split <;> exact h

/-- The plan's first line unchanged: what changed of the second is written. -/
theorem notePlan_wrote {j : Job} {old t : State} (jobs : jobsRun t = true) (mem : memoryAvailable t = true)
    (same : planFields0 old = planFields0 t) (waits : t.mem.waits = []) (room : Room 1 t) :
    notePlan j old t = wrote (writeAt t .plan 1 (changedBytes (planFields1 old) (planFields1 t))) t := by
  by_cases none : (changedBytes (planFields1 old) (planFields1 t)).isEmpty = true
  · have off : wrote (writeAt t .plan 1 (changedBytes (planFields1 old) (planFields1 t))) t = t := if_pos none
    rw [off]
    simp [notePlan, planLineWrite, jobs, same, changed_same, List.isEmpty_iff.1 none]
  · rw [notePlan_one old t jobs mem same waits room _ rfl (by simpa using none)]
    exact (if_neg none).symm

theorem causeCode_some (c : Cause) : causeCode (some c) = c.code := rfl

/-- The bytes of the plan record that a new last cause changes. -/
def lastChanged (s : State) (c : Cause) : LineBytes := if causeCode s.sleep.last = c.code then [] else [(0x1A, c.code)]

theorem plan_lastChanged (c : Cause) :
    changedBytes (planFields1 s) (planFields1 { s with sleep := { s.sleep with last := some c } }) = lastChanged s c := by
  rw [plan_changed]
  simp [causeCode_some, bytesAt, changed_nil, lastChanged]

/-! ## The request in AWAKE -/

/-- The checks of R176 in their order. -/
theorem sleepRefusal_eq (s : State) : sleepRefusal s =
    if callsFree s = false then some .busyCall
    else if s.texts.send.isSome = true ∨ s.texts.ctxs ≠ [] then some .busyText
    else if (connSeen s ≠ .off ∧ connSeen s ≠ .camped ∧ connSeen s ≠ .noService) ∨ s.conn.purposes ≠ [] then
      some .busyRadio
    else none := by
  unfold sleepRefusal
  generalize connSeen s = x
  cases x <;> simp

theorem dropWakeMark_none (waits : s.mem.waits = []) : dropWakeMark s = s := by
  have same : ({ s.mem with waits := [] } : MemPath) = s.mem := mem_empty waits
  simp [dropWakeMark, waits, same]

theorem askSleep_refused {c : Cause} (h : sleepRefusal s = some c) : askSleep s =
    raise .sleep (event s .sleepRefused .none Kind.plan.code 0 0 c.code 0)
      (notePlan .sleep s { s with sleep := { s.sleep with last := some c } }) := by
  simp [askSleep, h]

theorem askSleep_taken (h : sleepRefusal s = none) (waits : s.mem.waits = []) : askSleep s =
    notePlan .sleep s { s with sleep := { s.sleep with
      level := .quiescing, phase := .waitingGrant, quiesceTimer := .running 100, wake := false, wakeAfter := none } } := by
  simp [askSleep, h, dropWakeMark_none waits, Config.quiesceFrames]

theorem sleepRequest_deep (h : s.sleep.level = .awake) : sleepRequest 1 s = askSleep s := by
  simp [sleepRequest, boolOf, h]

theorem sleepRequest_again (h : s.sleep.level ≠ .awake) : sleepRequest 1 s = s := by
  simp [sleepRequest, boolOf, h]

theorem sleepRequest_none (h : s.sleep.level = .awake) : sleepRequest 0 s = s := by
  simp [sleepRequest, boolOf, h]

theorem sleepRequest_other {v : Byte} (h : 1 < v.toNat) : sleepRequest v s = ignoreConfig .plan 0 0x01 s := by
  have none : boolOf v.toNat = none := by
    unfold boolOf
    rw [if_neg (by omega), if_neg (by omega)]
  simp [sleepRequest, none]

/-! ## The abandonment of an entry that waits for its grant -/

theorem endForce_off {m : MemPath} (h : m.forced = false) : endForce m = m := by simp [endForce, h]

/-- An entry abandoned for another cause than WAKE. -/
theorem abandonSleep_plain {c p : Cause} {l : Nat} (hc : c ≠ .wake) (forced : s.mem.forced = false) : abandonSleep c p l s =
    raise .sleep (event s .sleepAbandoned .none Kind.plan.code 0 0 c.code 0) (notePlan .sleep s { s with sleep :=
      { s.sleep with level := .awake, phase := .none, quiesceTimer := .stopped, last := some c } }) := by
  simp [abandonSleep, hc, wakesHost, endForce_off forced]

theorem plan_abandoned (c : Cause) (h : s.sleep.level = .quiescing) :
    changedBytes (planFields1 s) (planFields1 { s with sleep :=
      { s.sleep with level := .awake, phase := .none, quiesceTimer := .stopped, last := some c } }) =
      [(0x11, 0)] ++ lastChanged s c := by
  rw [plan_changed]
  simp [causeCode_some, bytesAt, changed_nil, lastChanged, h, Level.code]

/-! ## The forcing of DRAIN mode -/

theorem forceDrain_full {m : MemPath} (h : m.queue ≠ []) : forceDrain m = setMode .drain { m with forced := true } := by
  have form := setMode_form .drain { m with forced := true }
  have forced : (setMode .drain { m with forced := true }).forced = true := by rw [form]
  have queue : (setMode .drain { m with forced := true }).queue = m.queue := by rw [form]
  exact noteOccupancy_forced forced (by rwa [queue])

theorem forceDrain_empty {m : MemPath} (h : m.queue = []) :
    forceDrain m = setMode .readFirst { setMode .drain { m with forced := true } with forced := false } := by
  have form := setMode_form .drain { m with forced := true }
  have forced : (setMode .drain { m with forced := true }).forced = true := by rw [form]
  have queue : (setMode .drain { m with forced := true }).queue = m.queue := by rw [form]
  exact noteOccupancy_empty forced (by rwa [queue])

/-- The forcing changes the mode, its mark and the count, and no more. -/
theorem forceDrain_form (m : MemPath) : ∃ d f n, forceDrain m = { m with mode := d, forced := f, count := n } := by
  have form := setMode_form .drain { m with forced := true }
  by_cases h : m.queue = []
  · rw [forceDrain_empty h, setMode_form, form]
    exact ⟨_, _, _, rfl⟩
  · rw [forceDrain_full h, form]
    exact ⟨_, _, _, rfl⟩

theorem forceDrain_resting (r : Resting s) (p : Sleep) (wb : p.writeBack = s.sleep.writeBack) (wake : p.wakeAfter = none)
    (level : p.level ≠ .roused) : Resting { s with sleep := p, mem := forceDrain s.mem } := by
  obtain ⟨d, f, n, form⟩ := forceDrain_form s.mem
  rw [form]
  exact sleep_resting r p wb wake level

theorem stopGrant_ignored {v : Byte} (h : v ≠ 1) : stopGrant v s = ignoreConfig .plan 0 0x02 s := if_pos h

theorem stopGrant_early (h : s.sleep.level ≠ .quiescing) : stopGrant 1 s = s := by simp [stopGrant, h]

theorem stopGrant_granted (level : s.sleep.level = .quiescing) (phase : s.sleep.phase = .waitingGrant) :
    stopGrant 1 s = { s with
      sleep := { s.sleep with quiesceTimer := .stopped, phase := .draining }, mem := forceDrain s.mem } := by
  simp [stopGrant, level, phase]

/-! ## The commands -/

theorem exec_sleepRequest (v : Byte) (h : noticeOpen s = true) :
    exec (.sleepRequest v) s = .next (settle (sleepRequest v s)) := runIf_on _ _ h

theorem exec_stopGrant (v : Byte) (h : noticeOpen s = true) : exec (.stopGrant v) s = .next (settle (stopGrant v s)) :=
  runIf_on _ _ h

theorem exec_wakeAck (v : Byte) (h : noticeOpen s = true) : exec (.wakeAck v) s = .next (settle (wakeAck v s)) :=
  runIf_on _ _ h

theorem exec_quiesceExpiry (jobs : jobsRun s = true) (due : s.sleep.quiesceTimer = .due)
    (phase : s.sleep.phase = .waitingGrant) :
    exec .quiesceTimerExpiry s = .next (settle (abandonSleep .noGrant .noGrant 0 s)) :=
  runIf_on _ _ (by simp [jobs, due, phase])

/-- A refused request, to the end of its moment. -/
theorem exec_sleepRequest_refused {c : Cause} (calm : Calm s) (h : sleepRefusal s = some c) :
    exec (.sleepRequest 1) s = .next (eventPlaced (event s .sleepRefused .none Kind.plan.code 0 0 c.code 0)
      (wrote (writeAt s .plan 1 (lastChanged s c)) { s with sleep := { s.sleep with last := some c } })) := by
  have rest : Resting { s with sleep := { s.sleep with last := some c } } :=
    sleep_resting calm.rest _ rfl calm.rest.2.2.2.2.2.2.1 calm.rest.2.2.2.2.2.2.2.1
  have note : notePlan .sleep s { s with sleep := { s.sleep with last := some c } } =
      wrote (writeAt s .plan 1 (lastChanged s c)) { s with sleep := { s.sleep with last := some c } } := by
    rw [← plan_lastChanged]
    exact notePlan_wrote calm.jobs calm.mem rfl calm.waits (calm.room' (by decide))
  have clear : EventClear (wrote (writeAt s .plan 1 (lastChanged s c)) { s with sleep := { s.sleep with last := some c } }) :=
    EventClear.same (by exact calm.events) (wrote_same _ _) (wrote_room (calm.room' (n := 3) (by decide)))
  have placed := raise_placed (j := .sleep) (e := event s .sleepRefused .none Kind.plan.code 0 0 c.code 0)
    (wrote_resting rest) clear rfl
  rw [exec_sleepRequest 1 calm.notice, sleepRequest_deep calm.awake, askSleep_refused h, note, placed,
    settle_resting (eventPlaced_resting (wrote_resting rest))]

/-- An abandoned entry, to the end of its moment. -/
theorem settle_abandoned {c p : Cause} {l : Nat} (hc : c ≠ .wake) (forced : s.mem.forced = false) (jobs : jobsRun s = true)
    (rest : Resting s) (clear : EventClear s) (room : Room 3 s) (level : s.sleep.level = .quiescing) :
    settle (abandonSleep c p l s) = eventPlaced (event s .sleepAbandoned .none Kind.plan.code 0 0 c.code 0)
      (joinWrite (writeAt s .plan 1 ([(0x11, 0)] ++ lastChanged s c)) { s with sleep :=
        { s.sleep with level := .awake, phase := .none, quiesceTimer := .stopped, last := some c } }) := by
  have awake : Resting { s with sleep :=
      { s.sleep with level := .awake, phase := .none, quiesceTimer := .stopped, last := some c } } :=
    sleep_resting rest _ rfl rest.2.2.2.2.2.2.1 (by simp)
  have open_ : EventClear { s with sleep :=
      { s.sleep with level := .awake, phase := .none, quiesceTimer := .stopped, last := some c } } := by
    obtain ⟨may, full, loss, -⟩ := clear
    refine ⟨?_, full, loss, room.mono (by decide)⟩
    simpa [mayPlace, level] using may
  have note := notePlan_one (j := .sleep) s { s with sleep :=
      { s.sleep with level := .awake, phase := .none, quiesceTimer := .stopped, last := some c } }
    jobs rfl rfl rest.2.2.2.2.1 (room.mono (by decide)) _ (plan_abandoned c level) rfl
  have placed := raise_placed (j := .sleep) (e := event s .sleepAbandoned .none Kind.plan.code 0 0 c.code 0)
    (joinWrite_resting awake) (clear_join (w := writeAt s .plan 1 ([(0x11, 0)] ++ lastChanged s c)) open_ room) rfl
  rw [abandonSleep_plain hc forced, note]
  exact (congrArg settle placed).trans (settle_resting (eventPlaced_resting (joinWrite_resting awake)))

end Sys2Proof.Machine

namespace Sys2Proof
open Machine

/-- Settles O36: the checks in their order, the entry begun, and its end by the grant, by the host or by the timer. -/
theorem sleepRequest : Obligations.SleepRequest := by
  unfold Obligations.SleepRequest
  refine ⟨fun s calm => ?awake, ?quiescing⟩
  case awake =>
    have awakeRest := calm.rest
    obtain ⟨-, -, -, -, -, -, noMark, notRoused, -⟩ := awakeRest
    have ignored : ∀ o, settle (ignoreConfig .plan 0 o s) = eventPlaced (configIgnored s .plan 0 o) s :=
      fun o => ignore_placed calm.rest calm.events
    refine ⟨fun c refused => ?_, fun granted => ?_, ?_, fun v hv => ?_, fun v hv => ?_, ?_, ?_, fun v hv => ?_⟩
    · rw [exec_sleepRequest_refused calm ((sleepRefusal_eq s).trans refused)]
      unfold lastChanged
      by_cases same : causeCode s.sleep.last = c.code
      · simp only [if_pos same]
        rfl
      · simp only [if_neg same]
        rfl
    · have bytes : changedBytes (planFields1 s) (planFields1 { s with sleep := { s.sleep with
          level := .quiescing, phase := .waitingGrant, quiesceTimer := .running 100, wake := false, wakeAfter := none } }) =
          [(0x11, 1)] := by
        rw [plan_changed]
        simp [calm.awake, Level.code, bytesAt, changed_nil]
      have note := notePlan_one (j := .sleep) s { s with sleep := { s.sleep with
          level := .quiescing, phase := .waitingGrant, quiesceTimer := .running 100, wake := false, wakeAfter := none } }
        calm.jobs rfl rfl calm.waits (calm.room' (by decide)) _ bytes rfl
      rw [exec_sleepRequest 1 calm.notice, sleepRequest_deep calm.awake,
        askSleep_taken ((sleepRefusal_eq s).trans granted) calm.waits, note]
      exact congrArg Host.Outcome.next (settle_resting (joinWrite_resting (sleep_resting calm.rest _ rfl rfl (by simp))))
    · rw [exec_sleepRequest 0 calm.notice, sleepRequest_none calm.awake, settle_resting calm.rest]
    · rw [exec_sleepRequest v calm.notice, sleepRequest_other hv, ignored]
    · rw [exec_stopGrant v calm.notice, stopGrant_ignored hv, ignored]
    · rw [exec_stopGrant 1 calm.notice, stopGrant_early (by simp [calm.awake]), settle_resting calm.rest]
    · rw [exec_wakeAck 1 calm.notice]
      exact congrArg Host.Outcome.next (settle_resting (sleep_resting calm.rest _ rfl noMark notRoused))
    · rw [exec_wakeAck v calm.notice, wakeAck, if_neg hv, ignored]
  case quiescing =>
    intro s jobs bound hold rest clear room level phase forced abandoned
    have restCopy := rest
    obtain ⟨-, -, -, -, -, -, noMark, -, -⟩ := restCopy
    have openPort : portOpen s = true := by
      simp only [jobsRun, Bool.and_eq_true] at jobs
      exact jobs.1.1
    have notice : noticeOpen s = true := by simp [noticeOpen, openPort, bound, hold]
    have abandon : ∀ c : Cause, c ≠ .wake → settle (abandonSleep c c 0 s) = abandoned c :=
      fun c hc => settle_abandoned hc forced jobs rest clear room level
    have form := forceDrain_form s.mem
    refine ⟨?_, ?_, ?_, fun due => ?_, fun full => ?_, fun empty => ?_, ?_⟩
    · rw [exec_stopGrant 1 notice, stopGrant_granted level phase]
      exact congrArg Host.Outcome.next (settle_resting (forceDrain_resting rest _ rfl noMark (by simp [level])))
    · rw [exec_sleepRequest 0 notice, ← abandon .activity (by decide)]
      simp [Machine.sleepRequest, boolOf, level, phase]
    · rw [exec_sleepRequest 1 notice, sleepRequest_again (by simp [level]), settle_resting rest]
    · rw [exec_quiesceExpiry jobs due phase, abandon .noGrant (by decide)]
    · rw [forceDrain_full full, setMode_form]
      exact ⟨rfl, rfl⟩
    · rw [forceDrain_empty empty, setMode_form]
      exact ⟨rfl, rfl⟩
    · obtain ⟨d, f, n, e⟩ := form
      rw [e, ← forced]

end Sys2Proof
end

section
/-! SUPPORT. The speech rings: their notices, a frame from the air, the start and stop, the fetch (R144, R145, R147, R149 to R151). -/

namespace Sys2Proof.Machine

variable {s u : State} {v : Byte} {frame : List Byte}

/-! ## The notices of the rings -/

theorem exec_uplinkProducer (h : noticeOpen s = true) :
    exec (.uplinkProducerWrite v) s = .next (settle (uplinkProducer v s)) := runIf_on _ _ h

theorem exec_downlinkConsumer (h : noticeOpen s = true) :
    exec (.downlinkConsumerWrite v) s = .next (settle (downlinkConsumer v s)) := runIf_on _ _ h

theorem exec_speechIn (h : linkOpen s = true) : exec (.speechIn frame) s = .next (settle (speechIn frame s)) :=
  runIf_on _ _ h

theorem speech_resting (p : Speech) (h : Resting s) : Resting { s with speech := p } := h

theorem uplinkProducer_taken (h : s.speech.speaking = none ∨ occupancy v s.speech.upCons ≤ 8) :
    uplinkProducer v s = { s with speech := { s.speech with upProd := v } } := by
  unfold uplinkProducer
  exact if_pos (by simpa using h)

theorem uplinkProducer_ignored (speaks : s.speech.speaking ≠ none) (ahead : 8 < occupancy v s.speech.upCons) :
    uplinkProducer v s = ignoreConfig .speech 0xFFFF 0x00 s := by
  unfold uplinkProducer
  exact if_neg (by simp [speaks, ahead])

theorem downlinkConsumer_taken (h : occupancy s.speech.downProd v ≤ 8) :
    downlinkConsumer v s = { s with speech := { s.speech with downCons := v } } := if_pos h

theorem downlinkConsumer_ignored (h : 8 < occupancy s.speech.downProd v) :
    downlinkConsumer v s = ignoreConfig .speech 0xFFFF 0x03 s := if_neg (Nat.not_le.2 h)

/-! ## Activity touches the inactivity timer alone -/

theorem activity_speech (p : Speech) (s : State) : activity { s with speech := p } = { activity s with speech := p } := by
  unfold activity
  show (if connIdle s = true then _ else _) = _
  split <;> rfl

theorem activity_event (e : Event) (s : State) : activity (eventPlaced e s) = eventPlaced e (activity s) := by
  unfold activity
  show (if connIdle s = true then _ else _) = _
  split <;> rfl

/-! ## A frame from the air -/

theorem speechIn_silent (h : s.speech.speaking = none) : speechIn frame s = s := by simp [speechIn, h]

theorem speechIn_full (speaks : s.speech.speaking ≠ none) (full : 8 ≤ downOccupancy s.speech) :
    speechIn frame s = activity s := by
  simp [speechIn, speaks, full]

theorem speechIn_stored (calm : Calm s) (speaks : s.speech.speaking ≠ none) (free : downOccupancy s.speech < 8) :
    speechIn frame s = placeDown frame false (activity s) := by
  have act := activity_calm calm
  simp [speechIn, speaks, Nat.not_le.2 free, jobWaits_none act.waits, mustWait_room act.waits (act.room' (n := 1) (by decide))]

/-- With room, a downlink frame is stored and the producer written. -/
theorem placeDown_room (waits : s.mem.waits = []) (room : Room 2 s) (whole : frame.length = 64) : placeDown frame false s =
    joinWrite (writeAt s .speech 0 [(2, s.speech.downProd + 1)]) (joinWrite
      { line := s.bind.line .speech (9 + s.speech.downProd.toNat % 8), bytes := bytesAt 0 frame, speech := true, note := .none }
      { s with speech := { s.speech with downProd := s.speech.downProd + 1, heldFrame := none } }) := by
  unfold placeDown downSlotReq
  rw [fitTo_same whole]
  exact writeHeader_room waits (room_join room)

/-! ## Start and stop -/

theorem speechStart_still {r : Fin 4} (h : s.speech.upCons = s.speech.upProd) : speechStart r s = { s with speech :=
    { s.speech with speaking := some r, upCons := s.speech.upProd, fetchStale := s.speech.fetchStale || s.speech.fetch != .idle } } := by
  simp [speechStart, h]

theorem speechStart_moved {r : Fin 4} (waits : s.mem.waits = []) (room : Room 1 s) (h : s.speech.upCons ≠ s.speech.upProd) :
    speechStart r s = joinWrite (writeAt s .speech 0 [(1, s.speech.upProd)]) { s with speech :=
      { s.speech with speaking := some r, upCons := s.speech.upProd, fetchStale := s.speech.fetchStale || s.speech.fetch != .idle } } := by
  unfold speechStart
  dsimp only
  rw [if_pos (by simpa using h)]
  exact writeHeader_room (by exact waits) (by exact room)

/-! ## The fetch -/

theorem advanceUp_room (waits : s.mem.waits = []) (room : Room 1 s) : advanceUp s =
    joinWrite (writeAt s .speech 0 [(1, s.speech.upCons + 1)]) { s with speech := { s.speech with upCons := s.speech.upCons + 1 } } :=
  writeHeader_room (by exact waits) (by exact room)

/-- A speech frame leaves, and the uplink consumer rises. -/
theorem advanceUp_sent (up : s.link.up = true) (waits : s.mem.waits = []) (room : Room 1 s) :
    advanceUp (sendSpeech frame s) = joinWrite (writeAt s .speech 0 [(1, s.speech.upCons + 1)]) (activity { s with
      speech := { s.speech with upCons := s.speech.upCons + 1 }
      out := { s.out with link := s.out.link ++ [.sendSpeech frame] } }) := by
  have left : sendSpeech frame s = activity { s with out := { s.out with link := s.out.link ++ [.sendSpeech frame] } } := by
    rw [sendSpeech, send_up up]
    rfl
  obtain ⟨i, form⟩ := activity_form { s with out := { s.out with link := s.out.link ++ [.sendSpeech frame] } }
  have moved := activity_speech { s.speech with upCons := s.speech.upCons + 1 }
    { s with out := { s.out with link := s.out.link ++ [.sendSpeech frame] } }
  rw [form] at moved
  rw [left, form, advanceUp_room (by exact waits) (by exact room)]
  exact congrArg (joinWrite _) moved.symm

/-- The one fetch in flight completes. -/
theorem exec_speechFetchDone {e : ReadEntry} {l : BitVec 26} {data : List Byte} {err : Bool} (calm : Calm u)
    (flight : u.mem.inFlight = []) (for_ : e.for_ = .speech) (line : e.line = l.toNat) (status : e.status = .inFlight)
    (wanted : e.discard = false) :
    exec (.speechFetchDone ⟨l, data⟩ err) { u with mem := { u.mem with reads := [e], inFlight := [.read e.arrived e.line] } } =
      .next (settle (speechFetched e.line
        (composeLine (if err then [] else fitTo 64 data) (upperLayers u.mem e.line), err, false) u)) := by
  have loud : e.silent = false := by simp [ReadEntry.silent, wanted]
  have done := complete_one (data := data) (err := err) calm flight status
  rw [loud, wanted, Bool.not_false, Bool.and_true] at done
  have due : dueRead (· == .speech) l.toNat ({ u.mem with reads := [e], inFlight := [.read e.arrived e.line] } : MemPath) =
      some e := by
    rw [← line]
    exact due_one rfl (by simp [for_]) status
  show runRead (dueRead (· == .speech) l.toNat _) data err (speechFetched l.toNat) _ = _
  rw [due, ← line]
  exact runRead_some done

/-- A fetch that is not stale, and in time. -/
theorem speechFetched_inTime {l : Line} {data : List Byte} {k : Byte} (on : s.speech.switchOn = false)
    (fresh : s.speech.fetchStale = false) (fetching : s.speech.fetch = .fetching k) : speechFetched l (data, false, false) s =
    advanceUp (sendSpeech data { s with speech := { s.speech with fetch := .idle, fetchStale := false } }) := by
  simp [speechFetched, fetchInTime, on, fresh, fetching]

theorem speechFetched_error {l : Line} {data : List Byte} {k : Byte} (on : s.speech.switchOn = false)
    (fresh : s.speech.fetchStale = false) (fetching : s.speech.fetch = .fetching k) (rest : Resting s) (clear : EventClear s) :
    speechFetched l (data, true, false) s = advanceUp (sendSpeech silence (eventPlaced
      (event s .memoryError .none (Job.code .speech) 0 0 0 (BitVec.ofNat 32 (64 * l)))
      { s with speech := { s.speech with fetch := .idle, fetchStale := false } })) := by
  have placed : memoryError .speech l s =
      eventPlaced (event s .memoryError .none (Job.code .speech) 0 0 0 (BitVec.ofNat 32 (64 * l))) s :=
    raiseNow_placed rest clear rfl
  have run : speechFetched l (data, true, false) s = advanceUp (sendSpeech silence {
      eventPlaced (event s .memoryError .none (Job.code .speech) 0 0 0 (BitVec.ofNat 32 (64 * l))) s with
      speech := { s.speech with fetch := .idle, fetchStale := false } }) := by
    simp [speechFetched, fetchInTime, placed, fresh, fetching, on]
  exact run

theorem speechFetched_late {l : Line} {data : List Byte} (fresh : s.speech.fetchStale = false)
    (late : s.speech.fetch = .late) : speechFetched l (data, false, false) s =
    advanceUp { s with speech := { s.speech with fetch := .idle, fetchStale := false } } := by
  simp [speechFetched, fresh, late]

theorem speechFetched_stale {l : Line} {data : List Byte} (stale : s.speech.fetchStale = true) :
    speechFetched l (data, false, false) s = { s with speech := { s.speech with fetch := .idle, fetchStale := false } } := by
  simp [speechFetched, stale]

end Sys2Proof.Machine

namespace Sys2Proof
open Machine

/-- Settles O51: the notices, the frames from the air, the start and the stop, and the fetch by the state it is in. -/
theorem speech : Obligations.Speech := by
  unfold Obligations.Speech
  refine ⟨⟨fun s v calm => ?notices, fun s frame calm => ?air, fun s r waits room => ?start⟩,
    fun u e l data calm flight for_ at_ status wanted busy => ?fetch⟩
  case notices =>
    refine ⟨fun h => ?_, fun speaks ahead => ?_, fun h => ?_, fun h => ?_⟩
    · rw [exec_uplinkProducer calm.notice, uplinkProducer_taken h, settle_resting (speech_resting _ calm.rest)]
    · rw [exec_uplinkProducer calm.notice, uplinkProducer_ignored speaks ahead, ignore_placed calm.rest calm.events]
    · rw [exec_downlinkConsumer calm.notice, downlinkConsumer_taken h, settle_resting (speech_resting _ calm.rest)]
    · rw [exec_downlinkConsumer calm.notice, downlinkConsumer_ignored h, ignore_placed calm.rest calm.events]
  case air =>
    have act := activity_calm calm
    refine ⟨fun h => ?_, fun speaks full => ?_, fun speaks free whole => ?_⟩
    · rw [exec_speechIn calm.open_, speechIn_silent h, settle_resting calm.rest]
    · rw [exec_speechIn calm.open_, speechIn_full speaks full, settle_resting act.rest]
    · rw [exec_speechIn calm.open_, speechIn_stored calm speaks free, placeDown_room act.waits (act.room' (by decide)) whole]
      refine congrArg Host.Outcome.next
        ((settle_resting (joinWrite_resting (joinWrite_resting (speech_resting _ act.rest)))).trans ?_)
      obtain ⟨i, form⟩ := activity_form s
      rw [form]
      rfl
  case start => exact ⟨speechStart_still, speechStart_moved waits room, speechStop_plain waits⟩
  case fetch =>
    intro s line idle out header
    have restOut : ∀ frame, Resting (out frame) := fun frame => activity_rest (by exact calm.rest)
    have waits := calm.waits
    have room : Room 3 u := calm.room' (by decide)
    refine ⟨fun k fresh fetching => ⟨?_, ?_⟩, fun fresh late => ?_, fun stale => ?_⟩
    · rw [exec_speechFetchDone calm flight for_ at_ status wanted, speechFetched_inTime calm.ssw fresh fetching,
        advanceUp_sent (by exact calm.up) (by exact waits) (by exact room.mono (by decide))]
      exact congrArg Host.Outcome.next (settle_resting (joinWrite_resting (restOut _)))
    · rw [exec_speechFetchDone calm flight for_ at_ status wanted,
        speechFetched_error calm.ssw fresh fetching calm.rest calm.events,
        advanceUp_sent (by exact calm.up) (by exact waits) (event_room (by exact room))]
      have raised := activity_event
        (event u .memoryError .none (Job.code .speech) 0 0 0 (BitVec.ofNat 32 (64 * e.line)))
        { idle (u.speech.upCons + 1) with out := { u.out with link := u.out.link ++ [.sendSpeech silence] } }
      refine congrArg Host.Outcome.next ((congrArg (fun t => settle (joinWrite header t)) (by exact raised)).trans ?_)
      exact settle_resting (joinWrite_resting (eventPlaced_resting (restOut _)))
    · rw [exec_speechFetchDone calm flight for_ at_ status wanted, speechFetched_late fresh late,
        advanceUp_room (by exact waits) (by exact room.mono (by decide))]
      exact congrArg Host.Outcome.next (settle_resting (joinWrite_resting (speech_resting _ calm.rest)))
    · rw [exec_speechFetchDone calm flight for_ at_ status wanted, speechFetched_stale stale]
      exact congrArg Host.Outcome.next (settle_resting (speech_resting _ calm.rest))

end Sys2Proof
end

section
/-! SUPPORT. Configuration notices and reload reads of the cell table (R84 to R88, R91, R100). -/

namespace Sys2Proof.Machine

variable {s u : State} {n : Fin 13} {w : CellWord} {v : Half}

/-! ## Notices -/

theorem involved_off (h : switchOn s = false) : involved s n = false := by simp [involved, h]

theorem cellNotice_involved (h : involved s n = true) (new : n ∉ s.cells.reload) :
    cellNotice n w v s = { s with cells := { s.cells with reload := s.cells.reload ++ [n] } } := by
  simp [cellNotice, h, new]

theorem cellNotice_frozen (h : involved s n = false) (frozen : slotFrozen s n = true) :
    cellNotice n w v s = ignoreConfig .cell (BitVec.ofNat 16 n.val) (CellWord.offset w) s := by
  simp [cellNotice, h, frozen]

theorem cellNotice_free (h : involved s n = false) (free : slotFrozen s n = false) :
    cellNotice n w v s = takeConfig n w v s := by
  simp [cellNotice, h, free]

theorem takeConfig_bad (h : cellWordOk w v = false) :
    takeConfig n w v s = ignoreConfig .cell (BitVec.ofNat 16 n.val) (CellWord.offset w) s := by
  simp [takeConfig, h]

theorem slotWritten_resting {x : Slot} (h : Resting s) : Resting (slotWritten n x s) := h

/-- A slot involved in a switch in progress (R87). -/
theorem involved_of {m : Mob} (on : m.state = .switching ∨ m.state = .fallback ∨ m.state = .rebuilding ∨ m.state = .committing)
    (h : ∃ r, m.switch = some r ∧ (r.old = some n ∨ r.target = n)) : involved { s with mob := m } n = true := by
  obtain ⟨r, switch, slot⟩ := h
  have progress : switchOn { s with mob := m } = true := by
    rcases on with e | e | e | e <;> simp [switchOn, e]
  simp [involved, progress, switch, slot]

/-! ## Taking one word after another -/

/-- Outside CONNECTED, with the monitor receiver idle and nothing to reload, a slot that is not frozen takes k words more. -/
structure TakesWords (n : Fin 13) (k : Nat) (s : State) : Prop where
  mem : memoryAvailable s = true
  waits : s.mem.waits = []
  room : Room k s
  phase : s.cells.phase = .idle
  round : s.cells.round = none
  reload : s.cells.reload = []
  noRead : s.cells.reloadRead = none
  conn : s.conn.state ≠ .connected
  cand : ∀ m : Fin 13, (s.cells.slots[m]).candidate = false
  noSwitch : switchOn s = false
  free : slotFrozen s n = false

theorem take_candidate (x : Slot) : (Slot.take w v x).candidate = x.candidate := by cases w <;> rfl

theorem TakesWords.notice {k : Nat} (h : TakesWords n (k + 1) s) (ok : cellWordOk w v = true) :
    cellNotice n w v s = slotWritten n (Slot.take w v s.cells.slots[n]) s := by
  rw [cellNotice_free (involved_off h.noSwitch) h.free]
  exact take_plain h.mem h.waits h.room ok h.phase h.round (by simp [h.reload]) (by simp [h.noRead]) h.conn h.cand

theorem TakesWords.written {k : Nat} {x : Slot} (h : TakesWords n (k + 1) s) (hx : x.candidate = false) :
    TakesWords n k (slotWritten n x s) where
  mem := h.mem
  waits := h.waits
  room := room_join (by exact h.room)
  phase := h.phase
  round := h.round
  reload := h.reload
  noRead := h.noRead
  conn := h.conn
  cand := slot_candidate h.cand hx
  noSwitch := h.noSwitch
  free := h.free

/-- Words in range are written one after another. -/
theorem TakesWords.fold {ws : List (CellWord × Half)} {k : Nat} {s : State} (h : TakesWords n (ws.length + k) s)
    (ok : ∀ p ∈ ws, cellWordOk p.1 p.2 = true) : ws.foldl (fun t p => cellNotice n p.1 p.2 t) s =
      ws.foldl (fun t p => slotWritten n (Slot.take p.1 p.2 t.cells.slots[n]) t) s ∧
      TakesWords n k (ws.foldl (fun t p => cellNotice n p.1 p.2 t) s) := by
  induction ws generalizing s with
  | nil => exact ⟨rfl, by simpa using h⟩
  | cons p ws ih =>
    have h' : TakesWords n (ws.length + k + 1) s := by
      have count : (p :: ws).length + k = ws.length + k + 1 := by simp; omega
      rwa [count] at h
    rw [List.foldl_cons, List.foldl_cons, h'.notice (ok p (by simp))]
    exact ih (h'.written ((take_candidate _).trans (h'.cand n))) (fun q hq => ok q (by simp [hq]))

theorem wordsWritten_resting (ws : List (CellWord × Half)) {s : State} (h : Resting s) :
    Resting (ws.foldl (fun t p => slotWritten n (Slot.take p.1 p.2 t.cells.slots[n]) t) s) := by
  induction ws generalizing s with
  | nil => exact h
  | cons p ws ih => exact ih (slotWritten_resting h)

/-! ## Reload reads -/

theorem reloadNext_none (h : s.cells.reload = []) : reloadNext s = s := by
  unfold reloadNext
  have noMember : (List.finRange 13).find? (fun n => s.cells.reload.contains n) = none := by simp [h]
  rw [noMember]
  exact ite_self _

/-- The one reload read in flight completes. -/
theorem exec_reloadReadDone {e : ReadEntry} {l : BitVec 26} {data : List Byte} {err : Bool} (calm : Calm u)
    (flight : u.mem.inFlight = []) (for_ : e.for_ = .reload n) (line : e.line = l.toNat) (status : e.status = .inFlight)
    (wanted : e.discard = false) :
    exec (.reloadReadDone ⟨l, data⟩ err) { u with mem := { u.mem with reads := [e], inFlight := [.read e.arrived e.line] } } =
      .next (settle (reloadDone n
        (composeLine (if err then [] else fitTo 64 data) (upperLayers u.mem e.line), err, false) u)) := by
  have loud : e.silent = false := by simp [ReadEntry.silent, wanted]
  have done := complete_one (data := data) (err := err) calm flight status
  rw [loud, wanted, Bool.not_false, Bool.and_true] at done
  have due : dueRead ReadFor.isReload l.toNat ({ u.mem with reads := [e], inFlight := [.read e.arrived e.line] } : MemPath) =
      some e := by
    rw [← line]
    exact due_one rfl (by simp [for_, ReadFor.isReload]) status
  show execReloadReadDone ⟨l, data⟩ err _ = _
  unfold execReloadReadDone
  dsimp only
  rw [due]
  dsimp only
  rw [for_]
  exact runRead_some done

/-- The slot's own read, the one member of the reload set, is taken. -/
theorem reloadDone_taken {line : List Byte} {err : Bool} (noSwitch : switchOn s = false) (reload : s.cells.reload = [n]) :
    reloadDone n (line, err, false) s =
      reloadNext (if err then reloadFailed n { s with cells := { s.cells with reload := [], reloadRead := none } }
        else takeSlotLine n line { s with cells := { s.cells with reload := [], reloadRead := none } }) := by
  have off : involved { s with cells := { s.cells with reloadRead := none } } n = false := involved_off noSwitch
  have filtered : s.cells.reload.filter (fun m => m != n) = [] := by simp [reload]
  unfold reloadDone
  dsimp only
  rw [if_neg (by rw [off]; simp), filtered]

/-- A change of one slot outside CONNECTED, with no candidate, is mirrored and brings no more (R77, R100, R104). -/
theorem slotEvent_mirror {old : State} (conn : s.conn.state ≠ .connected)
    (cand : ∀ m : Fin 13, (s.cells.slots[m]).candidate = false) (others : ∀ m, m ≠ n → slotDiffers old s m = false) :
    slotEvent n old s = mirror n s := by
  have kept : levelLost n s = false := by simp [levelLost, conn]
  have sorted : sortCandidates s = s := sort_still (fun m => ⟨cand m, candidate_off conn⟩)
  unfold slotEvent
  rw [kept, sorted]
  simp only [Bool.and_false, Bool.false_eq_true, if_false]
  exact mirror_one (by simp) (fun m h => by simp [h, others m h])

/-- A failed reload, to the mirrored slot. -/
theorem reloadFailed_written (rest : Resting s) (clear : EventClear s) (h : TakesWords n 3 s) : reloadFailed n s =
    slotWritten n { s.cells.slots[n] with samples := [], unusable := true } (eventPlaced
      (event s .memoryError .none (Job.code .cells) 0 0 0 (BitVec.ofNat 32 (64 * s.bind.line .cell (1 + n.val)))) s) := by
  have placed : memoryError .cells (s.bind.line .cell (1 + n.val)) s = eventPlaced
      (event s .memoryError .none (Job.code .cells) 0 0 0 (BitVec.ofNat 32 (64 * s.bind.line .cell (1 + n.val)))) s :=
    raiseNow_placed rest clear rfl
  unfold reloadFailed
  rw [placed, slotEvent_mirror (by exact h.conn) (by exact slot_candidate h.cand (h.cand n))
    (fun m hm => by exact differs_set hm)]
  exact change_slot (k := 0) h.mem h.waits (event_room h.room)

end Sys2Proof.Machine

namespace Sys2Proof
open Machine

/-- Settles O39: a notice by what freezes, involves or admits the slot; the reload's words one after another, or its failure. -/
theorem cellConfiguration : Obligations.CellConfiguration := by
  unfold Obligations.CellConfiguration
  refine ⟨fun s n w v calm conn => ?notice, fun u n e l data calm flight conn free reload reading for_ at_ status wanted => ?read⟩
  case notice =>
    have alone : involved s n = false := involved_off calm.notSwitch
    have ignored := ignore_placed (k := .cell) (r := BitVec.ofNat 16 n.val) (o := CellWord.offset w) calm.rest calm.events
    refine ⟨fun frozen => ?_, fun free bad => ?_, fun free ok new idle => ?_, fun m on slot new => ?_⟩
    · rw [exec_cellNotice calm.notice, cellNotice_frozen alone frozen, ignored]
    · rw [exec_cellNotice calm.notice, cellNotice_free alone free, takeConfig_bad bad, ignored]
    · rw [exec_cellNotice calm.notice, cellNotice_free alone free, take_plain calm.mem calm.waits (calm.room' (n := 1) (by decide))
        ok calm.phase calm.round new idle conn calm.cand, settle_resting (slotWritten_resting calm.rest)]
    · rw [exec_cellNotice (by exact calm.notice), cellNotice_involved (involved_of on slot) new]
      exact congrArg Host.Outcome.next (settle_resting (by exact calm.rest))
  case read =>
    intro s line x t words
    have takes : ∀ k ≤ 12, TakesWords n k t := fun k hk => ⟨calm.mem, calm.waits, calm.room' hk, calm.phase, calm.round, rfl, rfl,
      conn, calm.cand, calm.notSwitch, free⟩
    have rest : Resting t := calm.rest
    constructor
    · intro ok
      obtain ⟨written, after⟩ := TakesWords.fold (ws := words) (k := 0) (takes 4 (by decide)) ok
      have taken : takeSlotLine n line t = words.foldl (fun t p => cellNotice n p.1 p.2 t) t := rfl
      rw [exec_reloadReadDone calm flight for_ at_ status wanted, reloadDone_taken calm.notSwitch reload]
      refine congrArg Host.Outcome.next ((congrArg settle ((reloadNext_none ?_).trans (taken.trans written))).trans ?_)
      · exact after.reload
      · exact settle_resting (wordsWritten_resting words rest)
    · rw [exec_reloadReadDone calm flight for_ at_ status wanted, reloadDone_taken calm.notSwitch reload]
      have failed : reloadFailed n t = _ := reloadFailed_written rest calm.events (takes 3 (by decide))
      refine congrArg Host.Outcome.next ((congrArg settle ((reloadNext_none ?_).trans failed)).trans ?_)
      · rw [failed]
        rfl
      · exact settle_resting (slotWritten_resting (eventPlaced_resting rest))

end Sys2Proof
end

section
/-! SUPPORT. Connects, the inactivity timer, purposes, camping and publications (R69 to R73, R75, R83). -/

namespace Sys2Proof.Machine

variable {s : State} {p : Purpose} {n : Fin 13}

/-! ## The inactivity timer (R75) -/

theorem callsFree_iff (s : State) : callsFree s = true ↔ ∀ r : Fin 4, (s.calls.recs[r]).state = .free := by
  simp only [callsFree, List.all_eq_true, beq_iff_eq, Vector.mem_toList_iff]
  constructor
  · intro h r
    exact h _ (Vector.getElem_mem r.isLt)
  · intro h c hc
    obtain ⟨i, hi, e⟩ := Vector.mem_iff_getElem.1 hc
    exact e ▸ h ⟨i, hi⟩

theorem connIdle_iff (s : State) : connIdle s = true ↔ s.conn.state = .connected ∧ s.conn.shutdown = none ∧
    (∀ r : Fin 4, (s.calls.recs[r]).state = .free) ∧ s.texts.send = none ∧ s.texts.ctxs = [] ∧ s.conn.purposes = [] := by
  rw [← callsFree_iff]
  simp [connIdle, and_assoc]

theorem pumpIdle_loads (idle : connIdle s = true) (off : s.conn.inactTimer.runs = false) :
    pumpIdle s = { s with conn := { s.conn with inactTimer := .running s.conn.inactTime } } := by
  simp [pumpIdle, idle, off]

theorem pumpIdle_stops (idle : connIdle s = false) : pumpIdle s = { s with conn := { s.conn with inactTimer := .stopped } } := by
  cases h : s.conn.inactTimer with
  | stopped =>
    have same : ({ s.conn with inactTimer := .stopped } : Conn) = s.conn := by rw [← h]
    simp [pumpIdle, idle, h, Timer.runs, same]
  | running k => simp [pumpIdle, idle, h, Timer.runs]
  | due => simp [pumpIdle, idle, h, Timer.runs]

theorem pumpIdle_idle (s : State) : connIdle (pumpIdle s) = connIdle s := by
  obtain ⟨i, e⟩ := pumpIdle_form s
  rw [e]
  rfl

theorem pumpIdle_runs (s : State) : (pumpIdle s).conn.inactTimer.runs = connIdle (pumpIdle s) := by
  rw [pumpIdle_idle]
  cases idle : connIdle s with
  | false => rw [pumpIdle_stops idle]; rfl
  | true =>
    cases runs : s.conn.inactTimer.runs with
    | false => rw [pumpIdle_loads idle runs]; rfl
    | true => rw [pumpIdle_resting (runs.trans idle.symm), runs]

/-- At the end of every command the inactivity timer runs exactly while the connection is idle. -/
theorem settle_runs (s : State) : (settle s).conn.inactTimer.runs = connIdle (settle s) := by
  have kept : ∀ t : State, (finish t).conn.inactTimer.runs = t.conn.inactTimer.runs ∧ connIdle (finish t) = connIdle t :=
    fun t => by simp [connIdle, callsFree]
  unfold settle
  dsimp only
  rw [(kept _).1, (kept _).2]
  exact pumpIdle_runs _

theorem activity_loads (idle : connIdle s = true) :
    activity s = { s with conn := { s.conn with inactTimer := .running s.conn.inactTime } } := if_pos idle

theorem activity_state (s : State) : (activity s).conn.state = s.conn.state := by
  obtain ⟨i, e⟩ := activity_form s
  rw [e]

/-! ## Purposes (R70, R71, R73) -/

theorem addPurpose_refused (h : s.conn.state = .off ∨ s.conn.shutdown.isSome = true ∨ p ∈ s.conn.purposes) :
    addPurpose p s = s := by
  unfold addPurpose
  exact if_pos (by simpa [or_assoc] using h)

theorem addPurpose_added (on : s.conn.state ≠ .off) (up : s.conn.shutdown = none) (new : p ∉ s.conn.purposes) :
    addPurpose p s =
      let t := { s with conn := { s.conn with purposes := s.conn.purposes ++ [p] } }
      match s.conn.state with
      | .camped => connectStart p t
      | .connected => if p = .area then placeAreaUpdate t else s
      | _ => t := by
  unfold addPurpose
  exact if_neg (by simp [on, up, new])

theorem placeAreaUpdate_some {x : Slot} (h : servingSlot s = some x) : placeAreaUpdate s = emitMsg (.areaUpdate x.area)
    { s with conn := { s.conn with awaited := some x.area, areaMsg := some s.link.nextId } } := by
  simp [placeAreaUpdate, h]

theorem placeAreaUpdate_none (h : servingSlot s = none) : placeAreaUpdate s = s := by simp [placeAreaUpdate, h]

theorem areaCheck_some {x : Slot} (h : servingSlot s = some x) :
    areaCheck s = if s.conn.area = some x.area then s else addPurpose .area s := by simp [areaCheck, h]

theorem areaCheck_none (h : servingSlot s = none) : areaCheck s = s := by simp [areaCheck, h]

/-! ## Camping and publications (R33, R34, R69, R83) -/

theorem camp_awake (h : s.sleep.level ≠ .deep) : camp n s = publish (.camping n)
    ([headerImage n s, targetImage n s] ++ planImage (some .camped) none s)
    { s with conn := { s.conn with camping := true } } := by
  simp [camp, memoryAvailable, h]

theorem camp_deep (h : s.sleep.level = .deep) :
    camp n s = camped n (addDirty (.plan true) (addDirty (.slot n) (addDirty .header s))) := by
  simp [camp, memoryAvailable, h, dirtyServing]

theorem publish_now {kind : PubKind} {images : List Image} (first : s.mem.pubs = []) (fits : stageFits s.mem images = true) :
    publish kind images s = published kind true (serveReads { s with
      mem := publishImages s.mem.nextPub images { s.mem with nextPub := s.mem.nextPub + 1 } }) := by
  have now : (s.mem.pubs.isEmpty && stageFits { s.mem with nextPub := s.mem.nextPub + 1 } images) = true := by
    rw [first]
    exact fits
  unfold publish makePub
  dsimp only
  rw [if_pos now]

theorem publish_later {kind : PubKind} {images : List Image} (h : s.mem.pubs ≠ [] ∨ stageFits s.mem images = false) :
    publish kind images s = { s with mem := { s.mem with
      nextPub := s.mem.nextPub + 1
      pubs := s.mem.pubs ++ [{ number := s.mem.nextPub, kind := kind, live := true, images := images }] } } := by
  have later : ¬ (s.mem.pubs.isEmpty && stageFits { s.mem with nextPub := s.mem.nextPub + 1 } images) = true := by
    rw [show stageFits { s.mem with nextPub := s.mem.nextPub + 1 } images = stageFits s.mem images from rfl]
    rcases h with h | h <;> simp [h]
  unfold publish makePub
  dsimp only
  rw [if_neg later]

theorem clearTarget_slot (n m : Fin 13) (s : State) : (clearTarget n s).cells.slots[m] =
    if m = n then { s.cells.slots[n] with candidate := false, since := none } else s.cells.slots[m] := by
  by_cases h : m = n
  · subst h
    simp [clearTarget, setSlot, setMobSlot]
  · have apart : n.val ≠ m.val := fun e => h (Fin.ext e.symm)
    simp [clearTarget, setSlot, setMobSlot, h, apart]

theorem clearTarget_mob (n m : Fin 13) (s : State) : (clearTarget n s).mob.slots[m] =
    if m = n then { s.mob.slots[n] with hold := .stopped, matured := false } else s.mob.slots[m] := by
  by_cases h : m = n
  · subst h
    simp [clearTarget, setSlot, setMobSlot]
  · have apart : n.val ≠ m.val := fun e => h (Fin.ext e.symm)
    simp [clearTarget, setSlot, setMobSlot, h, apart]

/-- A round's report, by the state the reselection leaves. -/
theorem reportRound_eq (s : State) : reportRound s =
    let t := roundReselect s
    if t.conn.state = .noService ∧ t.conn.camping = false ∧ t.conn.shutdown = none then
      match campChoice t false with
      | some n => camp n t
      | none => t
    else if t.conn.state = .camped then areaCheck t else t := by
  unfold reportRound
  dsimp only
  generalize roundReselect s = t
  cases h : t.conn.state with
  | noService => cases t.conn.camping <;> cases t.conn.shutdown <;> simp <;> rfl
  | _ => simp

/-! ## A grant (R71, R73) -/

/-- The state that a grant in CONNECTING makes CONNECTED. -/
def granted (s : State) : State := connWritten .connected { s with
  texts := { s.texts with retryTimer := .stopped }
  cells := { s.cells with paced := true }
  conn := { s.conn with
    attempts := 0, opening := none, reqMsg := none, connectTimer := .stopped
    purposes := s.conn.purposes.filter (· == Purpose.area) } }

/-- The state in which an attempt has been given up. -/
def requestDropped (s : State) : State := { s with conn := { s.conn with reqMsg := none, connectTimer := .stopped } }

theorem connectGrant_connecting (up : s.conn.shutdown = none) (h : s.conn.state = .connecting) : connectGrant s =
    serveConnected (setConn .connected
      { dropRequests s with conn := { (dropRequests s).conn with attempts := 0, opening := none } }) := by
  simp [connectGrant, up, h]

theorem serveConnected_eq (h : ∀ r : Fin 4, (s.calls.recs[r]).state ≠ .dialing) : serveConnected s =
    (let t := { s with
      conn := { s.conn with purposes := s.conn.purposes.filter (· == .area) }
      texts := { s.texts with retryTimer := .stopped } }
    evaluateCandidates (if t.conn.purposes.contains .area then placeAreaUpdate t else t)) := by
  unfold serveConnected
  dsimp only
  rw [placeSetups_none (by exact h)]

/-- A grant in CONNECTING: CONNECTED is written and the purposes are served. -/
theorem connectGrant_served (calm : Calm s) (up : s.conn.shutdown = none) (h : s.conn.state = .connecting)
    (noDial : ∀ r : Fin 4, (s.calls.recs[r]).state ≠ .dialing) : connectGrant s =
    evaluateCandidates (if .area ∈ s.conn.purposes then placeAreaUpdate (granted s) else granted s) := by
  have moved : setConn .connected { requestDropped s with conn :=
      { (requestDropped s).conn with attempts := 0, opening := none } } =
      (let t := connWritten .connected { requestDropped s with conn :=
        { (requestDropped s).conn with attempts := 0, opening := none } }
      { t with cells := { t.cells with paced := true } }) := by
    rw [setConn_plain (by exact calm.jobs) (by exact calm.mem) (by exact calm.waits) (by exact calm.room' (n := 1) (by decide))
      (by simp [requestDropped, h])]
    simp [afterConn, requestDropped, h]
  rw [connectGrant_connecting up h, dropRequests_plain calm.queue calm.outside calm.waits]
  refine (congrArg serveConnected moved).trans ((serveConnected_eq (by exact noDial)).trans (congrArg evaluateCandidates ?_))
  by_cases m : Purpose.area ∈ s.conn.purposes
  · exact (if_pos (by simpa [connWritten, requestDropped] using m)).trans (if_pos m).symm
  · exact (if_neg (by simpa [connWritten, requestDropped] using m)).trans (if_neg m).symm

theorem granted_candidates (calm : Calm s)
    (h : ∀ n, candidateNow { s with conn := { s.conn with state := .connected } } n = false) :
    evaluateCandidates (granted s) = granted s :=
  evaluate_still (fun n => ⟨calm.cand n, h n⟩)

/-! ## Calm states whose connection changes -/

/-- A change of the connection leaves nothing due but what its idleness brings. -/
theorem Calm.near_conn (calm : Calm s) {c : Conn} {paced : Bool} {timer : Timer} (up : c.shutdown = none)
    (held : c.state = .connected → paced = true) : Near { s with
      conn := c, cells := { s.cells with paced := paced }, texts := { s.texts with retryTimer := timer } } := by
  have due : roundDue { s with
      conn := c, cells := { s.cells with paced := paced }, texts := { s.texts with retryTimer := timer } } = false := by
    unfold roundDue
    split
    · next h => simp [held h]
    · exact calm.noRound
  exact near_of calm rfl (by simp [up]) rfl rfl (round_still calm.round due) rfl rfl rfl rfl calm.near.ended

/-- Outside CONNECTED it brings nothing at all. -/
theorem Calm.rest_conn (calm : Calm s) {c : Conn} (up : c.shutdown = none) (off : c.state ≠ .connected)
    (stopped : c.inactTimer.runs = false) : Resting { s with conn := c } := by
  obtain ⟨steady, pending, owed, queue, waits, readWaits, mark, roused⟩ :=
    calm.near_conn (paced := s.cells.paced) (timer := s.texts.retryTimer) up (fun h => absurd h off)
  exact ⟨steady, pending, owed, queue, waits, readWaits, mark, roused, stopped.trans (not_connected (by exact off)).symm⟩

/-- A connection just granted that waits for the answer to its AREA-UPDATE. -/
def areaAwaited (a : Half) (s : State) : State :=
  { granted s with conn := { (granted s).conn with awaited := some a, areaMsg := some s.link.nextId } }

theorem areaAwaited_near {a : Half} (calm : Calm s) (up : s.conn.shutdown = none) : Near (areaAwaited a s) :=
  Near.join (writeAt s .plan 1 [(0x10, ConnState.connected.code)])
    (calm.near_conn (c := (areaAwaited a s).conn) (paced := true) (by exact up) (fun _ => rfl))

theorem areaAwaited_busy {a : Half} (area : .area ∈ s.conn.purposes) : connIdle (areaAwaited a s) = false := by
  rw [Bool.eq_false_iff, ne_eq, connIdle_iff]
  rintro ⟨-, -, -, -, -, none⟩
  have left : Purpose.area ∈ (areaAwaited a s).conn.purposes := by
    simpa [areaAwaited, granted, connWritten] using area
  simp [none] at left

/-- The AREA-UPDATE of a connection just granted, to the end of the moment. -/
theorem settle_areaUpdate {a : Half} (calm : Calm s) (up : s.conn.shutdown = none) (off : s.conn.state ≠ .connected)
    (cand : ∀ n, candidateNow { s with conn := { s.conn with state := .connected } } n = false)
    (area : .area ∈ s.conn.purposes) :
    settle (evaluateCandidates (emitMsg (.areaUpdate a) (areaAwaited a s))) = sent (.areaUpdate a) (areaAwaited a s) := by
  have kept : evaluateCandidates (emitMsg (.areaUpdate a) (areaAwaited a s)) = emitMsg (.areaUpdate a) (areaAwaited a s) := by
    rw [emitMsg_queued (by exact calm.waits) (by exact calm.queue) (by exact calm.outside)]
    exact evaluate_still (fun n => ⟨calm.cand n, cand n⟩)
  rw [kept, settle_msg (areaAwaited_near calm up) (by exact calm.link)]
  exact pumpIdle_resting ((inactTimer_off calm off).trans (areaAwaited_busy (a := a) area).symm)

/-! ## Attempts that fail (R72) -/

theorem connectFail_again (calm : Calm s) (opening : s.conn.opening = some p) (few : s.conn.attempts < 3) :
    connectFail s = placeRequest p (s.conn.attempts + 1) (requestDropped s) := by
  unfold connectFail
  rw [dropRequest_plain calm.queue calm.outside calm.waits]
  simp [opening, few, requestDropped]

theorem connectFail_last (calm : Calm s) (many : 3 ≤ s.conn.attempts) : connectFail s = failConnect (requestDropped s) := by
  unfold connectFail
  rw [dropRequest_plain calm.queue calm.outside calm.waits]
  cases h : s.conn.opening <;> simp [h, Nat.not_lt.2 many, requestDropped]

theorem failConnect_plain (call : .callOut ∉ s.conn.purposes) (text : .textOut ∉ s.conn.purposes) : failConnect s =
    setConn .camped { s with conn := { s.conn with
      purposes := [], attempts := 0, opening := none, connectTimer := .stopped, reqMsg := none } } := by
  simp [failConnect, call, text]

/-- The attempt is made again. -/
theorem settle_connectFail_again (calm : Calm s) (up : s.conn.shutdown = none) (h : s.conn.state = .connecting)
    (opening : s.conn.opening = some p) (few : s.conn.attempts < 3) : settle (connectFail s) =
    sent (.connectRequest p) { s with conn := { s.conn with
      attempts := s.conn.attempts + 1, opening := some p, connectTimer := .running 200, reqMsg := some s.link.nextId
      reqOld := s.conn.reqOld ++ [s.link.nextId] } } := by
  have off : s.conn.state ≠ .connected := by simp [h]
  rw [connectFail_again calm opening few]
  exact settle_sent (calm.rest_conn (by exact up) (by exact off) (by exact inactTimer_off calm off)) calm.link

/-- The connect has failed. -/
theorem settle_connectFail_last (calm : Calm s) (up : s.conn.shutdown = none) (h : s.conn.state = .connecting)
    (call : .callOut ∉ s.conn.purposes) (text : .textOut ∉ s.conn.purposes) (many : 3 ≤ s.conn.attempts) :
    settle (connectFail s) = connWritten .camped { s with conn := { s.conn with
      purposes := [], attempts := 0, opening := none, connectTimer := .stopped, reqMsg := none } } := by
  have off : s.conn.state ≠ .connected := by simp [h]
  rw [connectFail_last calm many, failConnect_plain (by exact call) (by exact text),
    setConn_move (by exact calm.jobs) (by exact calm.mem) (by exact calm.waits) (by exact calm.room' (n := 1) (by decide))
      (by simp [requestDropped, h]) (by simp [requestDropped, h]) (by decide) (by decide) (by simp [requestDropped, calm.idle])
      (by exact calm.cand)]
  exact settle_resting (joinWrite_resting (calm.rest_conn (by exact up) (by simp) (by exact inactTimer_off calm off)))

/-! ## The commands -/

theorem connectReject_off (h : s.conn.state ≠ .connecting) : connectReject s = s := by simp [connectReject, h]

theorem connectReject_fails (h : s.conn.state = .connecting) (up : s.conn.shutdown = none) : connectReject s = connectFail s := by
  simp [connectReject, h, up]

theorem connectGrant_off (h : s.conn.state ≠ .connecting) (h' : s.conn.state ≠ .camped) : connectGrant s = s := by
  unfold connectGrant
  cases c : s.conn.state <;> simp_all

theorem connectGrant_camped (h : s.conn.state = .camped) (up : s.conn.shutdown = none) : connectGrant s = emitMsg .leave s := by
  simp [connectGrant, h, up]

theorem exec_connectTimer (jobs : jobsRun s = true) (due : s.conn.connectTimer = .due) (h : s.conn.state = .connecting) :
    exec .connectTimerExpiry s = .next (settle (connectFail s)) := runIf_on _ _ (by simp [jobs, due, h])

theorem exec_connectTimer_off (h : s.conn.connectTimer ≠ .due) : exec .connectTimerExpiry s = .next s :=
  runIf_off _ _ (by simp [h])

theorem exec_inactivity (jobs : jobsRun s = true) (due : s.conn.inactTimer = .due) (h : s.conn.state = .connected) :
    exec .inactivityTimerExpiry s = .next (settle (leaveIdle s)) := runIf_on _ _ (by simp [jobs, due, h])

theorem exec_inactivity_off (h : s.conn.inactTimer ≠ .due) : exec .inactivityTimerExpiry s = .next s :=
  runIf_off _ _ (by simp [h])

/-- An idle connection is left: CAMPED is written and LEAVE sent (R76). -/
theorem leaveIdle_eq (calm : Calm s) (h : s.conn.state = .connected) : leaveIdle s =
    emitMsg .leave (connWritten .camped { s with conn := { s.conn with inactTimer := .stopped } }) := by
  unfold leaveIdle
  rw [emitMsg_queued (by exact calm.waits) (by exact calm.queue) (by exact calm.outside),
    emitMsg_queued (by exact calm.waits) (by exact calm.queue) (by exact calm.outside),
    setConn_move (by exact calm.jobs) (by exact calm.mem) (by exact calm.waits) (by exact calm.room' (n := 1) (by decide))
      (by simp [h]) (by simp [h]) (by decide) (by decide) (by simp [calm.idle]) (by exact calm.cand)]
  rfl

end Sys2Proof.Machine

namespace Sys2Proof
open Machine

/-- Settles O43: the outcomes of a connect by its state, then the timer, the purposes, camping and publications. -/
theorem connectOutcomes : Obligations.ConnectOutcomes := by
  unfold Obligations.ConnectOutcomes
  refine ⟨fun s calm up => ?calm, fun s => ?timer, fun p s => ?purpose, fun s n awake => camp_awake awake,
    fun s n deep => camp_deep deep, fun kind images s => ⟨publish_now, publish_later⟩, fun s n => ⟨rfl, rfl⟩,
    fun s n m => ⟨rfl, rfl, clearTarget_slot n m _, ?taken⟩, reportRound_eq⟩
  case timer =>
    exact ⟨connIdle_iff s, fun idle runs => pumpIdle_resting (runs.trans idle.symm), pumpIdle_loads, pumpIdle_stops,
      activity_loads, activity_off, settle_runs s⟩
  case purpose =>
    refine ⟨addPurpose_refused, fun on free new => ⟨fun h => ?_, fun h => ?_, fun h h' => ?_⟩, rfl, fun x => placeAreaUpdate_some,
      fun x => areaCheck_some, fun h => ⟨placeAreaUpdate_none h, areaCheck_none h⟩⟩
    · rw [addPurpose_added on free new, h]
    · rw [addPurpose_added on free new, h]
    · rw [addPurpose_added on free new]
      cases c : s.conn.state <;> simp_all
  case taken =>
    rw [show (takeServing n s).mob.slots[m] = _ from clearTarget_mob n m _]
    simp
  case calm =>
    intro c
    have quiet : s.conn.state ≠ .connected → activity s = s := fun h => activity_off (not_connected h)
    have still : ∀ t, t = activity s → settle t = activity s := by
      rintro t rfl
      exact settle_resting (activity_rest calm.rest)
    refine ⟨fun h cand => ?granted, fun h => ?left, fun h h' => ?_, fun h => ?_, fun h => ⟨fun p opening few => ?again,
      fun call text many => ?last⟩, exec_connectTimer_off, fun h due => ?idle, exec_inactivity_off⟩
    case granted =>
      intro t noDial
      have off : s.conn.state ≠ .connected := by simp [show s.conn.state = .connecting from h]
      have near : Near (granted s) := Near.join _ (calm.near_conn (paced := true) (by exact up) (fun _ => rfl))
      refine ⟨fun none => ?_, fun x area serving => ?_⟩
      · rw [exec_connectGrant calm.open_, quiet off, connectGrant_served calm up h noDial, if_neg none,
          granted_candidates calm cand]
        exact congrArg Host.Outcome.next (settle_near near)
      · rw [exec_connectGrant calm.open_, quiet off, connectGrant_served calm up h noDial, if_pos area,
          placeAreaUpdate_some (s := granted s) (x := x) serving]
        exact congrArg Host.Outcome.next (settle_areaUpdate calm up (by simp [show s.conn.state = .connecting from h]) cand area)
    case left =>
      have off : s.conn.state ≠ .connected := by simp [show s.conn.state = .camped from h]
      rw [exec_connectGrant calm.open_, quiet off, connectGrant_camped h up, settle_sent calm.rest calm.link]
    case again =>
      have off : s.conn.state ≠ .connected := by simp [show s.conn.state = .connecting from h]
      have failed := settle_connectFail_again calm up h opening few
      refine ⟨?_, fun due => ?_⟩
      · rw [exec_connectReject calm.open_, quiet off, connectReject_fails h up, failed]
      · rw [exec_connectTimer calm.jobs due h, failed]
    case last =>
      have off : s.conn.state ≠ .connected := by simp [show s.conn.state = .connecting from h]
      have failed := settle_connectFail_last calm up h call text many
      refine ⟨?_, fun due => ?_⟩
      · rw [exec_connectReject calm.open_, quiet off, connectReject_fails h up, failed]
      · rw [exec_connectTimer calm.jobs due h, failed]
    case idle =>
      rw [exec_inactivity calm.jobs due h, leaveIdle_eq calm h]
      have rest : Resting { s with conn := { s.conn with inactTimer := .stopped, state := .camped } } :=
        calm.rest_conn (by exact up) (by simp) rfl
      exact congrArg Host.Outcome.next (settle_sent (joinWrite_resting (by exact rest)) (by exact calm.link))
    · rw [exec_connectGrant calm.open_]
      exact congrArg Host.Outcome.next (still _ (connectGrant_off (by rwa [activity_state]) (by rwa [activity_state])))
    · rw [exec_connectReject calm.open_]
      exact congrArg Host.Outcome.next (still _ (connectReject_off (by rwa [activity_state])))

end Sys2Proof
end

section
/-! SUPPORT. The deep level: entry, exit delay, write-back, causes and the plan record's dirty lines (R41, R66, R175, R177 to R187). -/

namespace Sys2Proof.Machine

variable {s : State}

/-! ## The dirty set and the writes of the plan record (R66, R100, R175) -/

theorem addDirty_in {d : DirtyLine} (h : d ∈ s.sleep.dirty) : addDirty d s = s := by simp [addDirty, h]

theorem addDirty_new {d : DirtyLine} (h : d ∉ s.sleep.dirty) :
    addDirty d s = { s with sleep := { s.sleep with dirty := s.sleep.dirty ++ [d] } } := by simp [addDirty, h]

theorem mirror_eq (n : Fin 13) (s : State) : mirror n s = if s.sleep.level = .deep then addDirty (.slot n) s
    else emitWrite .cells (writeAt s .cell (1 + n.val) (fieldBytes (slotFields s.cells.slots[n]))) s := by
  by_cases deep : s.sleep.level = .deep <;> simp [mirror, memoryAvailable, deep]

theorem planLineWrite_eq (j : Job) (i : Nat) (d : DirtyLine) (bytes : LineBytes) (s : State) : planLineWrite j i d bytes s =
    if bytes = [] then s else if s.sleep.level = .deep then addDirty d s else emitWrite j (writeAt s .plan i bytes) s := by
  by_cases none : bytes = []
  · simp [planLineWrite, none]
  · by_cases deep : s.sleep.level = .deep <;> simp [planLineWrite, memoryAvailable, none, deep]

theorem notePlan_off {j : Job} {old : State} (h : jobsRun s = false) : notePlan j old s = s := by simp [notePlan, h]

theorem notePlan_on {j : Job} {old : State} (h : jobsRun s = true) : notePlan j old s =
    planLineWrite j 1 (.plan true) (changedBytes (planFields1 old) (planFields1 s))
      (planLineWrite j 0 (.plan false) (changedBytes (planFields0 old) (planFields0 s)) s) := by simp [notePlan, h]

/-! ## WAKE (R186) -/

theorem checkWake_waits {t : Nat} (mark : s.sleep.wakeAfter = some t)
    (before : ∃ w ∈ s.mem.accept, w.isHost = false ∧ w.joined < t) : checkWake s = s := by
  have waits : s.mem.accept.any (fun w => !w.isHost && decide (w.joined < t)) = true := by simpa using before
  simp only [checkWake, mark, waits, if_true]

theorem checkWake_done {t : Nat} (mark : s.sleep.wakeAfter = some t)
    (passed : ∀ w ∈ s.mem.accept, w.isHost = false → t ≤ w.joined) :
    checkWake s = { s with sleep := { s.sleep with wake := true, wakeAfter := none } } := by
  have free : s.mem.accept.any (fun w => !w.isHost && decide (w.joined < t)) = false := by simpa using passed
  simp only [checkWake, mark, free, Bool.false_eq_true, if_false]

/-! ## The write-back (R175, R183, R185) -/

variable {n : Nat} {b : Bool} {d : DirtyLine}

theorem firstDirty_lowest (h : d ∈ s.sleep.dirty) (lowest : ∀ e ∈ s.sleep.dirty, e ≠ d → (d.write s).line < (e.write s).line) :
    firstDirty s = some d := by
  unfold firstDirty
  have perm := sortBy_perm (fun a b => decide ((a.write s).line ≤ (b.write s).line)) s.sleep.dirty
  have sorted := sortBy_sorted (fun a => (a.write s).line) s.sleep.dirty
  have inside := perm.mem_iff.2 h
  cases e : sortBy (fun a b => decide ((a.write s).line ≤ (b.write s).line)) s.sleep.dirty with
  | nil => simp [e] at inside
  | cons x xs =>
    have hx : x ∈ s.sleep.dirty := perm.mem_iff.1 (by simp [e])
    by_contra ne
    have apart : x ≠ d := by simpa using ne
    rw [e, List.pairwise_cons] at sorted
    have later : d ∈ xs := by
      rw [e] at inside
      rcases List.mem_cons.1 inside with same | later
      · exact absurd same.symm apart
      · exact later
    exact absurd (sorted.1 d later) (Nat.not_le.2 (lowest x hx apart))

theorem pumpWriteBack_lines_done (h : s.sleep.writeBack = .lines b) (none : s.sleep.dirty = []) : pumpWriteBack (n + 1) s =
    pumpWriteBack n { s with
      sleep := { s.sleep with writeBack := .events b }, events := { s.events with handed := true } } := by
  rw [pumpWriteBack_succ, h]
  dsimp only
  rw [if_pos (by simp [none])]
  rfl

theorem pumpWriteBack_line (h : s.sleep.writeBack = .lines b) (hd : d ∈ s.sleep.dirty)
    (lowest : ∀ e ∈ s.sleep.dirty, e ≠ d → (d.write s).line < (e.write s).line) (free : mustWait s = false) :
    pumpWriteBack (n + 1) s =
      pumpWriteBack n (joinWrite (d.write s) { s with sleep := { s.sleep with dirty := s.sleep.dirty.erase d } }) := by
  have some_ : s.sleep.dirty ≠ [] := List.ne_nil_of_mem hd
  rw [pumpWriteBack_succ, h]
  dsimp only
  rw [if_neg (by simpa using some_), if_neg (by simp [free]), placeDirty, firstDirty_lowest hd lowest]

theorem pumpWriteBack_waits (h : s.sleep.writeBack = .lines b) (some_ : s.sleep.dirty ≠ []) (waits : s.mem.waits = [])
    (full : 16 ≤ internalCount s.mem) : pumpWriteBack (n + 1) s = { s with mem := { s.mem with
      waits := [{ job := .sleep, since := s.mem.clock, acts := [.writeBack] }] } } := by
  rw [pumpWriteBack_succ, h]
  dsimp only
  rw [if_neg (by simpa using some_), if_pos (mustWait_of (.inr full)), jobWaits_none waits, if_neg (by simp),
    waitActs_new (by simp [waits]), waits]
  rfl

theorem pumpWriteBack_events (h : s.sleep.writeBack = .events b) (left : eventsDone (placeEvents s) = false) :
    pumpWriteBack (n + 1) s = placeEvents s := by
  rw [pumpWriteBack_succ, h]
  dsimp only
  rw [if_neg (by simp [left])]

theorem pumpWriteBack_events_roused (h : s.sleep.writeBack = .events false) (done : eventsDone (placeEvents s) = true) :
    pumpWriteBack (n + 1) s = setWriteBack .none (placeEvents s) := by
  rw [pumpWriteBack_succ, h]
  dsimp only
  rw [if_pos done, if_neg (by simp)]

theorem pumpWriteBack_events_resumed (h : s.sleep.writeBack = .events true) (done : eventsDone (placeEvents s) = true) :
    pumpWriteBack (n + 1) s = pumpWriteBack n (raiseNow (event (placeEvents s) .wake .none Kind.plan.code 0
      (BitVec.ofNat 8 (if (placeEvents s).sleep.wakeCause = some .line then (placeEvents s).sleep.wakeLine else 0))
      (causeCode (placeEvents s).sleep.wakeCause) 0) (setWriteBack .wakeEvent (placeEvents s))) := by
  rw [pumpWriteBack_succ, h]
  dsimp only
  rw [if_pos done, if_pos rfl]

theorem pumpWriteBack_wakeEvent (h : s.sleep.writeBack = .wakeEvent) (left : eventsDone (placeEvents s) = false) :
    pumpWriteBack (n + 1) s = placeEvents s := by
  rw [pumpWriteBack_succ, h]
  dsimp only
  rw [if_neg (by simp [left])]

theorem pumpWriteBack_wakeEvent_done (h : s.sleep.writeBack = .wakeEvent) (done : eventsDone (placeEvents s) = true) :
    pumpWriteBack (n + 1) s = liftSleepHold (let t := placeEvents s
      { t with sleep := { t.sleep with
        writeBack := .none, wakeAfter := if t.sleep.wakeCause = some .host then none else some t.mem.clock } }) := by
  rw [pumpWriteBack_succ, h]
  dsimp only
  rw [if_pos done]

theorem writeBack_none (h : s.sleep.writeBack = .none) : writeBack s = s := by
  unfold writeBack
  rw [pumpWriteBack_succ, h]

theorem liftSleepHold_held (s : State) : liftSleepHold s = serveReads (s.port.held.foldl (fun u w => presentWrite w u)
    { s with port := { s.port with sleepHold := false, held := [] } }) := rfl

/-! ## Causes and levels (R177 to R187) -/

theorem presentExit_asleep (h : s.mem.memState = .selfRefresh) : presentExit s = { s with
    mem := { s.mem with memState := .exiting }, out := { s.out with mem := s.out.mem ++ [.selfRefreshExit] } } := if_pos h

theorem presentExit_awake (h : s.mem.memState ≠ .selfRefresh) : presentExit s = s := if_neg h

theorem rouse_deep (h : s.sleep.level = .deep) : rouse s = presentExit (notePlan .sleep s { s with
    sleep := { s.sleep with level := .roused, reentry := false, rouseTimer := .stopped, busy := true }
    events := { s.events with handed := false } }) := if_pos h

theorem primaryCause_awake {c : Cause} {line : Nat} (h : s.sleep.level = .awake ∨ s.sleep.level = .resuming) :
    primaryCause c line s = notePlan .sleep s { s with sleep := { s.sleep with cycle := s.sleep.base, quiet := 0 } } := by
  rcases h with h | h <;> simp [primaryCause, h, baseCycle]

theorem primaryCause_quiescing {c : Cause} {line : Nat} (h : s.sleep.level = .quiescing) :
    primaryCause c line s = abandonSleep .wake c line s := by simp [primaryCause, h]

theorem primaryCause_deep {c : Cause} {line : Nat} (h : s.sleep.level = .deep ∨ s.sleep.level = .roused) :
    primaryCause c line s = resume c line s := by rcases h with h | h <;> simp [primaryCause, h]

theorem notePlanBack_eq (old s : State) : notePlanBack old s =
    if old.sleep.writeBack = .lines true ∨ old.sleep.writeBack = .lines false then addDirty (.plan true) s
    else notePlan .sleep old s := by
  unfold notePlanBack
  cases old.sleep.writeBack with
  | lines r => cases r <;> simp
  | _ => simp

theorem resume_eq (c : Cause) (line : Nat) (s : State) : resume c line s =
    (let u := notePlanBack s { s with sleep := { s.sleep with
      level := .resuming, wakeCause := some c, wakeLine := line, reentry := false, rouseTimer := .stopped
      cycle := s.sleep.base, quiet := 0 } }
    if s.mem.memState = .active then beginWriteBack true u else presentExit u) := by
  unfold resume
  cases s.mem.memState <;> rfl

theorem abandonSleep_eq (cause primary : Cause) (line : Nat) (s : State) : abandonSleep cause primary line s =
    let waking := cause = .wake ∧ s.sleep.phase = .draining
    let p := { s.sleep with level := .awake, phase := .none, quiesceTimer := .stopped, last := some cause }
    let q := if cause = .wake then { p with cycle := p.base, quiet := 0 } else p
    let t := notePlan .sleep s { s with
      sleep := if waking then { q with wakeCause := some primary, wakeLine := line } else q, mem := endForce s.mem }
    raise .sleep (event s .sleepAbandoned .none Kind.plan.code 0 0 cause.code 0) (if waking then wakeMark t else t) := by
  by_cases wake : cause = .wake <;> by_cases draining : s.sleep.phase = .draining <;>
    simp [abandonSleep, wakesHost, baseCycle, wake, draining]

theorem exec_exitDelay (h : s.mem.memState = .exiting) : exec .exitDelayExpiry s = .next (settle (exitDone s)) :=
  runIf_on _ _ (by simp [h])

theorem exec_exitDelay_off (h : s.mem.memState ≠ .exiting) : exec .exitDelayExpiry s = .next s := runIf_off _ _ (by simpa using h)

theorem exitDone_eq (s : State) : exitDone s =
    (let t := { s with mem := { s.mem with memState := .active } }
    if s.sleep.level = .resuming then beginWriteBack true t
    else if s.sleep.level = .roused then beginWriteBack false t else t) := by
  unfold exitDone
  dsimp only
  cases s.sleep.level <;> simp

theorem exec_rouseWindow (jobs : jobsRun s = true) (due : s.sleep.rouseTimer = .due) (level : s.sleep.level = .roused) :
    exec .rouseWindowExpiry s =
      .next (settle { s with sleep := { s.sleep with rouseTimer := .stopped, reentry := true } }) := by
  show execRouseWindowExpiry s = _
  unfold execRouseWindowExpiry
  rw [runIf_on _ _ (by simp [jobs, due, level])]

/-- The rouse window goes on in ROUSED while no memory work begins (R184). -/
theorem pumpWindow_idle (level : s.sleep.level = .roused) (busy : s.sleep.busy = false) (idle : memoryWork s = false) :
    pumpWindow s = s := by
  simp [pumpWindow, level, busy, idle]

/-! ## The entry (R41, R178) -/

theorem addDirty_eq (d : DirtyLine) (s : State) : addDirty d s = { s with sleep := { s.sleep with
    dirty := if s.sleep.dirty.contains d then s.sleep.dirty else s.sleep.dirty ++ [d] } } := by
  by_cases h : d ∈ s.sleep.dirty
  · rw [addDirty_in h, if_pos (by simpa using h)]
  · rw [addDirty_new h, if_neg (by simpa using h)]

/-- In DEEP a change of the plan record's second line makes it dirty. -/
theorem notePlan_deep {j : Job} {old t : State} (jobs : jobsRun t = true) (deep : t.sleep.level = .deep)
    (same : planFields0 old = planFields0 t) (moved : changedBytes (planFields1 old) (planFields1 t) ≠ []) :
    notePlan j old t = addDirty (.plan true) t := by
  rw [notePlan_on jobs, same, changed_same, planLineWrite_eq, planLineWrite_eq, if_pos rfl, if_neg moved, if_pos deep]

/-- The part at the grant of SELF-REFRESH-ENTER, its plan line not yet noted. -/
def deepEntered (s : State) : State := memOut .selfRefreshEnter { s with
  mem := { s.mem with memState := .selfRefresh }
  sleep := { s.sleep with
    level := .deep, phase := .none, quiesceTimer := .stopped, rouseTimer := .stopped, reentry := false, busy := false }
  events := { s.events with handed := false }
  port := { s.port with sleepHold := true } }

theorem enterDeep_eq (jobs : jobsRun s = true) (level : s.sleep.level = .quiescing) (phase : s.cells.phase = .idle)
    (up : s.link.up = true) : enterDeep s = { s with
      mem := { s.mem with memState := .selfRefresh }
      port := { s.port with sleepHold := true }
      events := { s.events with handed := false }
      cells := { s.cells with round := none, roundWaits := s.cells.roundWaits && s.conn.state == .noService }
      sleep := { s.sleep with
        level := .deep, phase := .none, quiesceTimer := .stopped, rouseTimer := .stopped, reentry := false, busy := false
        dirty := if s.sleep.dirty.contains (.plan true) then s.sleep.dirty else s.sleep.dirty ++ [.plan true] }
      out := { s.out with mem := s.out.mem ++ [.selfRefreshEnter], link := s.out.link ++ [.standby] } } := by
  have moved : changedBytes (planFields1 s) (planFields1 (deepEntered s)) ≠ [] := by
    rw [plan_changed]
    simp [deepEntered, memOut, level, Level.code, bytesAt, changed_nil]
  have noted := notePlan_deep (j := .sleep) (old := s) (t := deepEntered s) jobs rfl rfl moved
  show sendFrame .standby (abortRound (notePlan .sleep s (deepEntered s))) = _
  rw [noted, addDirty_eq, abort_idle (by exact phase), send_up (by exact up)]
  rfl

theorem exec_enter (jobs : jobsRun s = true) (ready : enterReady s = true) :
    exec .selfRefreshEnter s = .next (settle (enterDeep s)) := runIf_on _ _ (by simp [jobs, ready])

theorem exec_enter_off (h : enterReady s = false) : exec .selfRefreshEnter s = .next s := runIf_off _ _ (by simp [h])

/-- Memory work that bars the entry (R178). -/
theorem enterReady_off (h : memoryQuiet s.mem = false ∨ s.link.queue ≠ [] ∨ s.link.outside ≠ [] ∨ s.mem.memState ≠ .active) :
    enterReady s = false := by
  rcases h with h | h | h | h <;> simp [enterReady, memoryWork, signallingQuiet, h]

theorem enterReady_drained (rest : Resting s) (level : s.sleep.level = .quiescing) (phase : s.sleep.phase = .draining)
    (active : s.mem.memState = .active) (quiet : memoryQuiet s.mem = true) (queue : s.link.queue = [])
    (outside : s.link.outside = []) (free : s.link.opSendSig = .stopped) (pubs : s.mem.pubs = []) (ctxs : s.texts.ctxs = [])
    (purposes : s.conn.purposes = []) (reload : s.cells.reload = []) (reading : s.cells.reloadRead = none) :
    enterReady s = true := by
  obtain ⟨steady, -, -, -, waits, readWaits, -, -, -⟩ := rest
  obtain ⟨-, -, -, written⟩ := steady_still steady
  have noWork : memoryWork s = false := by
    simp [memoryWork, inboxWork, ctxs, purposes, reload, reading, quiet, waits, readWaits, jobWaits]
  simp [enterReady, enterWanted, noWork, signallingQuiet, level, phase, active, queue, outside, free, pubs, written, Timer.runs]

/-- A part at rest whose round is aborted stays at rest, whatever memory, the sleep controller and the outputs became. -/
theorem aborted_resting (rest : Resting s) (conn : s.conn.state ≠ .connected) (phase : s.cells.phase = .idle) {m : MemPath}
    {p : Sleep} (q : Port) (o : Outputs) (waits : m.waits = []) (readWaits : m.readWaits = [])
    (written : p.writeBack = s.sleep.writeBack) (mark : p.wakeAfter = none) (level : p.level ≠ .roused) : Resting { s with
      mem := m, port := q, events := { s.events with handed := false }
      cells := { s.cells with round := none, roundWaits := s.cells.roundWaits && s.conn.state == .noService }
      sleep := p, out := o } := by
  obtain ⟨steady_, pending, owed, queue, -, -, -, -, idle⟩ := rest
  have quiet : s.cells.roundWaits = false := by
    simp only [steady, Bool.and_eq_true] at steady_
    obtain ⟨⟨⟨-, round⟩, -⟩, -⟩ := steady_
    cases h : s.cells.round with
    | none => simpa [h, roundDue, conn] using round
    | some x => simp [h, phase] at round
  refine ⟨?_, pending, owed, queue, waits, readWaits, mark, level, idle⟩
  simp only [steady, Bool.and_eq_true] at steady_ ⊢
  obtain ⟨⟨⟨⟨⟨⟨refused, shut⟩, unbind⟩, back⟩, -⟩, arrivals⟩, texts⟩ := steady_
  exact ⟨⟨⟨⟨⟨⟨refused, shut⟩, unbind⟩, by rwa [written]⟩, by simp [roundDue, conn, quiet]⟩, arrivals⟩, texts⟩

/-! ## The end of the exit delay in RESUMING (R185) -/

/-- Where WAKE waits for what was placed (R186). -/
def resumeMark (s : State) : Option Nat := if s.sleep.wakeCause = some .host then none else some (s.mem.clock + 3)

/-- The sleep controller once the write-back of a resume has ended. -/
def resumedSleep (s : State) : Sleep :=
  { s.sleep with level := .awake, dirty := [], writeBack := .none, wakeAfter := resumeMark s }

/-- What a resume with no other line dirty and no event pending places: the plan line, WAKE's record and the ring's header. -/
def resumeWrites (s : State) : List (WriteNote × Line × LineBytes) :=
  let r := s.events.producer.toNat % s.bind.capacity
  let e := event s .wake .none Kind.plan.code 0 0 (causeCode s.sleep.wakeCause) 0
  [(.none, s.bind.line .plan 1, fieldBytes (planFields1 { s with sleep := { s.sleep with level := .awake } })),
    (.none, s.bind.line .event (1 + r / 4), fieldBytes (eventFields (16 * (r % 4)) e)),
    (.eventHeader (s.events.producer + 1), s.bind.line .event 0, [(0, s.events.producer + 1)])]

/-- The write-back of a resume at its plan line, and then at a later stage, the memory path having become m. -/
def resumeStart (s : State) : State :=
  { s with sleep := { s.sleep with level := .awake, writeBack := .lines true, dirty := [.plan true] } }

def resumeAt (w : WriteBack) (m : MemPath) (s : State) : State := { s with
  mem := m, events := { s.events with handed := true }
  sleep := { s.sleep with level := .awake, dirty := [], writeBack := w } }

theorem beginWriteBack_start (dirty : s.sleep.dirty = []) : beginWriteBack true s = pumpWriteBack 20 (resumeStart s) := by
  have noted : addDirty (.plan true) { s with sleep := { s.sleep with level := .awake, writeBack := .lines true } } =
      resumeStart s := by
    rw [addDirty_new (by simp [dirty]), resumeStart]
    simp [dirty]
  exact congrArg (pumpWriteBack 20) noted

/-- The ring can take WAKE in a resume whose lines are written. -/
theorem resumeAt_clear {m : MemPath} (running : s.events.running = true) (loss : s.events.lossPending = false)
    (ring : s.bind.capacity > occupancy s.events.producer s.events.consumer) (room : internalCount m + 2 ≤ 16) :
    EventClear (resumeAt .wakeEvent m s) := by
  refine ⟨by simp [resumeAt, mayPlace, running], ?_, loss, room⟩
  exact decide_eq_false (Nat.not_le.2 ring)

/-- The resume's write-back, to the lifting of the hold. -/
theorem writeBack_resumed (pending : s.events.pending = []) (owed : s.events.owed = none) (waits : s.mem.waits = [])
    (accept : s.mem.accept = []) (running : s.events.running = true) (loss : s.events.lossPending = false)
    (ring : s.bind.capacity > occupancy s.events.producer s.events.consumer) (dirty : s.sleep.dirty = [])
    (cause : s.sleep.wakeCause ≠ some .line) :
    ∃ m, Joined s.mem m (resumeWrites s) ∧ beginWriteBack true s = liftSleepHold { s with
      mem := m, events := { s.events with producer := s.events.producer + 1, handed := true }, sleep := resumedSleep s } := by
  have empty : internalCount s.mem = 0 := by simp [internalCount, accept]
  obtain ⟨m, lineForm, lineJoined⟩ := join_form ((DirtyLine.plan true).write (resumeStart s))
    { resumeStart s with sleep := { (resumeStart s).sleep with dirty := [], writeBack := .events true } }
  have count : internalCount m = 1 := by
    obtain ⟨-, -, -, -, -, count, -, -⟩ := lineJoined
    rw [count]
    simp [resumeStart, empty]
  obtain ⟨m', eventForm, eventJoined⟩ := event_form (event s .wake .none Kind.plan.code 0 0 (causeCode s.sleep.wakeCause) 0)
    (resumeAt .wakeEvent m s)
  have joined : Joined s.mem m' (resumeWrites s) := lineJoined.trans eventJoined
  have line : pumpWriteBack 20 (resumeStart s) = pumpWriteBack 18 (resumeAt (.events true) m s) := by
    rw [writeBack_line (n := 18) (d := .plan true) rfl rfl (mustWait_off (by exact waits) (by simp [resumeStart, empty])),
      lineForm]
    rfl
  have waits' : m.waits = [] := by
    obtain ⟨-, kept, -⟩ := lineJoined
    exact kept.trans waits
  have wake : pumpWriteBack 18 (resumeAt (.events true) m s) = pumpWriteBack 17
      { resumeAt .wakeEvent m' s with events := { (resumeAt .wakeEvent m' s).events with producer := s.events.producer + 1 } } :=
    (writeBack_events (s := resumeAt (.events true) m s) (n := 17) rfl pending owed waits'
      (resumeAt_clear (m := m) running loss ring (by omega)) cause).trans (congrArg (pumpWriteBack 17) eventForm)
  have clock : m'.clock = s.mem.clock + 3 := by
    obtain ⟨-, -, -, -, -, -, clock, -⟩ := joined
    exact clock
  refine ⟨m', joined, ?_⟩
  rw [beginWriteBack_start dirty, line, wake, writeBack_wake (n := 16) rfl (by exact pending) (by exact owed)]
  simp only [resumedSleep, resumeMark, ← clock]
  rfl

/-- The hold lifted with no read outstanding: the held writes are presented, and no more. -/
theorem liftSleepHold_form (reads : s.mem.reads = []) : ∃ m, liftSleepHold s = { s with
      port := { s.port with sleepHold := false, held := [] }, mem := m } ∧
    m.waits = s.mem.waits ∧ m.readWaits = s.mem.readWaits ∧ m.memState = s.mem.memState ∧
    (∃ joined, m.accept = s.mem.accept ++ joined) ∧ m.accept.map (fun x => (x.writer, x.line, x.bytes)) =
      s.mem.accept.map (fun x => (x.writer, x.line, x.bytes)) ++
        s.port.held.map (fun h => (.host h.tag h.arrived, h.line, h.bytes)) := by
  obtain ⟨m, joined, form, accept, waits, readWaits, reads', memState, mapped⟩ :=
    present_more s.port.held { s with port := { s.port with sleepHold := false, held := [] } }
  refine ⟨m, ?_, waits, readWaits, memState, ⟨joined, accept⟩, by rw [accept, List.map_append, mapped]⟩
  rw [liftSleepHold_held, form]
  exact serveReads_none (reads'.trans reads)

/-- The part that has resumed, the memory path having become m. -/
def resumed (m : MemPath) (s : State) : State := { s with
  mem := m, port := { s.port with sleepHold := false, held := [] }
  events := { s.events with producer := s.events.producer + 1, handed := true }, sleep := resumedSleep s }

/-- The writes of a resume are all placed before the mark that WAKE waits for. -/
theorem joined_before {m n : MemPath} {x : WriteNote × Line × LineBytes} {ws : List (WriteNote × Line × LineBytes)}
    (h : Joined m n (x :: ws)) (empty : m.accept = []) : ∃ w ∈ n.accept, w.isHost = false ∧ w.joined < n.clock := by
  obtain ⟨written, -, -, -, -, -, -, before⟩ := h
  rw [empty] at written
  cases e : n.accept with
  | nil => simp [e] at written
  | cons w rest =>
    have head : w.writer = .part x.1 := by
      simp [e] at written
      exact written.1.1
    rcases before w (by simp [e]) with old | early
    · simp [empty] at old
    · exact ⟨w, by simp, by simp [AccWrite.isHost, head], early⟩

/-- The end of the exit delay in RESUMING, with room for what it places. -/
theorem exitDone_resumed (rest : Resting s) (resuming : s.sleep.level = .resuming) (running : s.events.running = true)
    (loss : s.events.lossPending = false) (ring : s.bind.capacity > occupancy s.events.producer s.events.consumer)
    (dirty : s.sleep.dirty = []) (accept : s.mem.accept = []) (reads : s.mem.reads = [])
    (cause : s.sleep.wakeCause ≠ some .line) : ∃ m, exitDone s = resumed m s ∧ m.waits = [] ∧ m.readWaits = [] ∧
      m.memState = .active ∧ (∃ w ∈ m.accept, w.isHost = false ∧ w.joined < s.mem.clock + 3) ∧
      m.accept.map (fun x => (x.writer, x.line, x.bytes)) = (resumeWrites s).map (fun w => (.part w.1, w.2)) ++
        s.port.held.map (fun h => (.host h.tag h.arrived, h.line, h.bytes)) := by
  obtain ⟨-, pending, owed, -, waits, readWaits, -, -, -⟩ := rest
  obtain ⟨m, joined, form⟩ := writeBack_resumed (s := { s with mem := { s.mem with memState := .active } })
    pending owed waits accept running loss ring dirty cause
  obtain ⟨w, inside, part, early⟩ := joined_before joined accept
  obtain ⟨written, waits', readWaits', reads', active, -, clock, -⟩ := joined
  obtain ⟨m', lifted, waits'', readWaits'', active', ⟨hosts, more⟩, mapped⟩ := liftSleepHold_form (s := { s with
    mem := m, events := { s.events with producer := s.events.producer + 1, handed := true }, sleep := resumedSleep s })
    (reads'.trans reads)
  refine ⟨m', ?_, waits''.trans (waits'.trans waits), readWaits''.trans (readWaits'.trans readWaits), active'.trans active,
    ⟨w, by rw [more]; simp [inside], part, by rw [clock] at early; exact early⟩, ?_⟩
  · rw [exitDone_eq, if_pos resuming]
    exact form.trans lifted
  · rw [mapped]
    show m.accept.map _ ++ _ = _
    rw [written, accept]
    rfl

/-- The moment in which a resume ends: WAKE waits for what was placed, and nothing else is due. -/
theorem settle_resumed (rest : Resting s) {m : MemPath} (waits : m.waits = []) (readWaits : m.readWaits = [])
    (before : ∃ w ∈ m.accept, w.isHost = false ∧ w.joined < s.mem.clock + 3) : settle (resumed m s) = resumed m s := by
  obtain ⟨steady_, pending, owed, queue, -, -, -, -, timer⟩ := rest
  have same : steady (resumed m s) = true := by
    obtain ⟨-, -, -, written⟩ := steady_still steady_
    unfold steady at steady_ ⊢
    rw [written] at steady_
    exact steady_
  have waiting : checkWake (resumed m s) = resumed m s := by
    by_cases host : s.sleep.wakeCause = some .host
    · exact checkWake_still (if_pos host)
    · exact checkWake_waits (t := s.mem.clock + 3) (if_neg host) before
  rw [settle_steady same, pumpIdle_resting (by exact timer), finish, placeEvents_done (by exact pending) (by exact owed),
    sendNext_still (by exact queue), waiting, pumpWindow_still (by simp [resumed, resumedSleep]), closeMoment_still waits readWaits]

end Sys2Proof.Machine

namespace Sys2Proof
open Machine

/-- Settles O37: the entry and the exit delay on states, then the operations of the levels, equation by equation. -/
theorem deepSleep : Obligations.DeepSleep := by
  unfold Obligations.DeepSleep
  refine ⟨⟨?enter, fun s h => exec_enter_off (enterReady_off h)⟩, ⟨?awake, fun s => exec_exitDelay_off, ?resumed⟩, ?window, ?causes,
    fun cause primary line s => abandonSleep_eq cause primary line s, ?activity,
    fun s tag line bytes o free => ⟨exec_processorRead_free o free, exec_processorWrite_free o free⟩, ?levels, ?back,
    liftSleepHold_held, fun s t mark => ⟨checkWake_waits mark, checkWake_done mark⟩, ?record⟩
  case enter =>
    intro s jobs rest up conn cells level phase forced active quiet queue outside free pubs ctxs purposes reload reading
    have ready := enterReady_drained rest level phase active quiet queue outside free pubs ctxs purposes reload reading
    obtain ⟨-, -, -, -, waits, readWaits, mark, -, -⟩ := id rest
    rw [exec_enter jobs ready, enterDeep_eq jobs level cells up]
    exact congrArg Host.Outcome.next
      (settle_resting (aborted_resting rest conn cells _ _ (by exact waits) (by exact readWaits) rfl mark (by simp)))
  case awake =>
    intro s exiting awake rest
    have plain : exitDone s = { s with mem := { s.mem with memState := .active } } := by
      rw [exitDone_eq, awake]
      rfl
    rw [exec_exitDelay exiting, plain]
    exact congrArg Host.Outcome.next (settle_resting (by exact rest))
  case resumed =>
    intro s exiting resuming rest running loss ring dirty accept reads bindHold cause
    obtain ⟨m, done, waits, readWaits, active, before, written⟩ :=
      exitDone_resumed rest resuming running loss ring dirty accept reads cause
    refine ⟨resumed m s, ?_, active, rfl, rfl, rfl, rfl, rfl, fun host => ⟨rfl, if_pos host⟩, fun other => ?_, rfl, ?_⟩
    · rw [exec_exitDelay exiting, done, settle_resumed rest waits readWaits before]
    · exact congrArg Option.isSome (if_neg other)
    · exact written
  case window =>
    intro s jobs level due busy idle rest
    obtain ⟨steady, pending, owed, queue, waits, readWaits, mark, -, timer⟩ := rest
    have still : pumpWindow { s with sleep := { s.sleep with rouseTimer := .stopped, reentry := true } } =
        { s with sleep := { s.sleep with rouseTimer := .stopped, reentry := true } } :=
      pumpWindow_idle (by exact level) (by exact busy) (by exact idle)
    rw [exec_rouseWindow jobs due level]
    exact congrArg Host.Outcome.next (settle_quiet (by exact steady) (by exact timer) (by exact pending) (by exact owed)
      (by exact queue) (by exact mark) still (by exact waits) (by exact readWaits))
  case causes =>
    intro c line s
    refine ⟨primaryCause_awake, primaryCause_quiescing, fun h => ?_⟩
    rw [primaryCause_deep h, resume_eq, notePlanBack_eq]
  case activity =>
    intro s
    refine ⟨fun h h' => by simp [processorActivity, h, h'], fun h h' => by simp [processorActivity, h, h'],
      fun h => ?_, fun h => ?_⟩
    · rcases h with h | h <;> simp [processorActivity, h]
    · rcases h with h | h <;> simp [processorActivity, h]
  case levels =>
    intro s
    refine ⟨fun h => if_neg h, rouse_deep, presentExit_asleep, presentExit_awake, fun h => ?_, rfl, rfl, writeBack_none⟩
    rw [exec_exitDelay h, exitDone_eq]
  case back =>
    intro n b s
    refine ⟨pumpWriteBack_lines_done, fun d h hd lowest waits room => pumpWriteBack_line h hd lowest (mustWait_off waits room),
      pumpWriteBack_waits, fun h => ⟨pumpWriteBack_events h, fun done roused => ?_, fun done resumed => ?_⟩,
      fun h => ⟨pumpWriteBack_wakeEvent h, pumpWriteBack_wakeEvent_done h⟩⟩
    · exact pumpWriteBack_events_roused (roused ▸ h) done
    · exact pumpWriteBack_events_resumed (resumed ▸ h) done
  case record =>
    intro s old j i n d bytes
    exact ⟨addDirty_in, addDirty_new, mirror_eq n s, planLineWrite_eq j i d bytes s, notePlan_off, notePlan_on⟩

end Sys2Proof
end

section
/-! SUPPORT. Frames and air messages: what fails a check is discarded, what is well formed carries its operands (R50, R61, R198,
R199). -/

namespace Sys2Proof.Machine

/-! ## Payloads of an unknown type, air messages of an unknown kind -/

theorem payloadDecode_unknown {t : Nat} (p : List Byte) (h : t < 0x81 ∨ 0x88 < t) : payloadDecode t p = none := by
  unfold payloadDecode
  split
  case h_9 => rfl
  all_goals omega

/-- Bytes that are too short, of the wrong length, of the wrong check or of an unknown type are no frame (R50). -/
theorem frameDecode_none {l : List Byte} (h : l.length < 4 ∨ (byteOf l 1).toNat ≠ l.length - 4 ∨
    frameCheck (l.take (l.length - 2)) ≠ ((byteOf l (l.length - 2)).toNat, (byteOf l (l.length - 1)).toNat) ∨
    (byteOf l 0).toNat < 0x81 ∨ 0x88 < (byteOf l 0).toNat) : frameDecode l = none := by
  unfold frameDecode
  dsimp only
  split
  next ok =>
    obtain ⟨long, length, first, second⟩ := ok
    rcases h with short | wrong | wrong | type
    · omega
    · exact absurd length wrong
    · exact absurd (Prod.ext first.symm second.symm) wrong
    · exact payloadDecode_unknown _ type
  next => rfl

/-- The kinds of the air messages that the network sends (R61, R199). -/
def airKinds : List Nat := [0x02, 0x03, 0x07, 0x09, 0x0A, 0x11, 0x12, 0x13, 0x16, 0x18, 0x19, 0x1A, 0x20, 0x21, 0x31]

theorem airLayout_unknown {l : List Byte} (h : (byteOf l 0).toNat ∉ airKinds) : airLayout l = none := by
  unfold airLayout
  dsimp only
  split
  case h_16 => rfl
  all_goals
    next kind => exact absurd (kind ▸ by decide) h

theorem airDecode_unknown {l : List Byte} (h : (byteOf l 0).toNat ∉ airKinds) : airDecode l = none := by
  unfold airDecode
  rw [airLayout_unknown h]

/-! ## A frame is its payload of its type -/

theorem toNat_ofNat_check {n : Nat} (h : n < 255) : (BitVec.ofNat 8 n).toNat = n := by
  rw [BitVec.toNat_ofNat]
  omega

/-- The two check sums are below 255 (R50). -/
theorem frameCheck_lt (l : List Byte) : (frameCheck l).1 < 255 ∧ (frameCheck l).2 < 255 :=
  check_lt l (0, 0) ⟨by decide, by decide⟩

theorem frameDecode_frameOf (t : Byte) {p : List Byte} (h : p.length ≤ 255) :
    frameDecode (frameOf t p) = payloadDecode t.toNat p := by
  obtain ⟨first, second⟩ := frameCheck_lt (t :: BitVec.ofNat 8 p.length :: p)
  have length : (frameOf t p).length = p.length + 4 := by simp [frameOf]
  have body : (frameOf t p).take (p.length + 4 - 2) = t :: BitVec.ofNat 8 p.length :: p := by simp [frameOf]
  have typeByte : byteOf (frameOf t p) 0 = t := by simp [frameOf, byteOf]
  have lengthByte : (byteOf (frameOf t p) 1).toNat = p.length + 4 - 4 := by
    simp [frameOf, byteOf]
    omega
  have check1 : byteOf (frameOf t p) (p.length + 4 - 2) =
      BitVec.ofNat 8 (frameCheck (t :: BitVec.ofNat 8 p.length :: p)).1 := by simp [frameOf, byteOf]
  have check2 : byteOf (frameOf t p) (p.length + 4 - 1) =
      BitVec.ofNat 8 (frameCheck (t :: BitVec.ofNat 8 p.length :: p)).2 := by
    simp [frameOf, byteOf]
  unfold frameDecode
  dsimp only
  rw [length, body, typeByte, lengthByte, check1, check2, toNat_ofNat_check first, toNat_ofNat_check second,
    if_pos ⟨by omega, rfl, rfl, rfl⟩]
  rfl

/-! ## The fields of a message -/

theorem airDecode_layout {l : List Byte} {c : Instr} (layout : airLayout l = some c) (filled : l ≠ []) (valid : airValid c = true) :
    airDecode l = some c := by
  unfold airDecode
  rw [layout]
  exact if_pos ⟨filled, valid⟩

theorem digitsValid_iff {lo : Nat} {d : List Digit} :
    digitsValid lo d = true ↔ lo ≤ d.length ∧ d.length ≤ 24 ∧ ∀ x ∈ d, x.toNat < 12 := by
  simp [digitsValid, and_assoc]

/-! ## Each air message of the network is the command with its operands (R61, R199) -/

theorem airDecode_areaAccept (a : Half) : airDecode (airBytes (.areaAccept a)) = some (.areaAccept a) :=
  airDecode_layout (congrArg (some ∘ Instr.areaAccept) (halfOf_le16 a [0x09] [] rfl)) nofun rfl

theorem airDecode_areaReject (a : Half) : airDecode (airBytes (.areaReject a)) = some (.areaReject a) :=
  airDecode_layout (congrArg (some ∘ Instr.areaReject) (halfOf_le16 a [0x0A] [] rfl)) nofun rfl

theorem airDecode_offer {r : Byte} {d : List Digit} (hr : r ≠ 0) (hd : digitsValid 0 d = true) :
    airDecode (airBytes (.offer r d)) = some (.offer r d) := by
  have named : (r != 0) = true := by simpa using hr
  obtain ⟨-, short, digits⟩ := digitsValid_iff.1 hd
  have caller : digitsOf (0x11 :: r :: digitsBytes d) 2 = some d := by
    simpa using digit_back d short digits [0x11, r] [] rfl
  have layout : airLayout (airBytes (.offer r d)) = (digitsOf (0x11 :: r :: digitsBytes d) 2).map (.offer r) := rfl
  refine airDecode_layout (layout.trans ?_) nofun (Bool.and_eq_true_iff.2 ⟨named, hd⟩)
  rw [caller, Option.map_some]

theorem airDecode_textSegment (r : Byte) {d : List Digit} {i n : Byte} {p : List Byte}
    (valid : airValid (.textSegment r d i n p) = true) :
    airDecode (airBytes (.textSegment r d i n p)) = some (.textSegment r d i n p) := by
  have fields := valid
  simp only [airValid, Bool.and_eq_true, decide_eq_true_eq, digitsValid_iff] at fields
  obtain ⟨⟨⟨⟨⟨⟨-, short, digits⟩, -⟩, -⟩, -⟩, filled⟩, -⟩ := fields
  have bytes : airBytes (.textSegment r d i n p) = [0x20, r] ++ (digitsBytes d ++ i :: n :: p) := rfl
  have sender : digitsOf ([0x20, r] ++ (digitsBytes d ++ i :: n :: p)) 2 = some d := digit_back d short digits _ _ rfl
  have layout : airLayout ([0x20, r] ++ (digitsBytes d ++ i :: n :: p)) = if 18 ≤ 17 + p.length then
      (digitsOf ([0x20, r] ++ (digitsBytes d ++ i :: n :: p)) 2).map (fun d => .textSegment r d i n p) else none := by
    have length : ([0x20, r] ++ (digitsBytes d ++ i :: n :: p)).length = 17 + p.length := by
      simp [digitsBytes_len]
      omega
    rw [← length]
    rfl
  refine airDecode_layout ?_ nofun valid
  rw [bytes, layout, if_pos (by omega), sender, Option.map_some]

theorem airDecode_segmentAck (r : Byte) {i : Byte} {a : AckResult} (h : i.toNat < 4) :
    airDecode (airBytes (.segmentAck r i a)) = some (.segmentAck r i a) := by
  refine airDecode_layout ?_ nofun (by simpa [airValid] using h)
  cases a <;> rfl

theorem airDecode_transferOrder {c d : Half} (f : Half) (hc : c.toNat ≤ 4095) (hd : d.toNat ≤ 511) :
    airDecode (airBytes (.transferOrder c d f)) = some (.transferOrder c d f) := by
  have carrier : halfOf (airBytes (.transferOrder c d f)) 1 = c := halfOf_le16 c [0x31] (le16 d ++ le16 f) rfl
  have code : halfOf (airBytes (.transferOrder c d f)) 3 = d := halfOf_le16 d (0x31 :: le16 c) (le16 f) rfl
  have activation : halfOf (airBytes (.transferOrder c d f)) 5 = f := halfOf_le16 f (0x31 :: le16 c ++ le16 d) [] rfl
  have layout : airLayout (airBytes (.transferOrder c d f)) = some (.transferOrder (halfOf (airBytes (.transferOrder c d f)) 1)
    (halfOf (airBytes (.transferOrder c d f)) 3) (halfOf (airBytes (.transferOrder c d f)) 5)) := rfl
  rw [carrier, code, activation] at layout
  exact airDecode_layout layout nofun (by simp [airValid, hc, hd])

/-- The messages of a call with a reference carry it, a RELEASE with its cause too. -/
theorem airDecode_callMessages {r : Byte} (hr : r ≠ 0) :
    airDecode (airBytes (.ringing r)) = some (.ringing r) ∧ airDecode (airBytes (.connect r)) = some (.connect r) ∧
      airDecode (airBytes (.holdAccept r)) = some (.holdAccept r) ∧
      airDecode (airBytes (.resumeAccept r)) = some (.resumeAccept r) ∧
      airDecode (airBytes (.releaseDone r)) = some (.releaseDone r) ∧
      (∀ c, airDecode (airBytes (.release r c)) = some (.release r c.code)) ∧
      ∀ d, digitsValid 0 d = true → airDecode (airBytes (.offer r d)) = some (.offer r d) := by
  have named : (r != 0) = true := by simpa using hr
  exact ⟨airDecode_layout rfl nofun named, airDecode_layout rfl nofun named, airDecode_layout rfl nofun named,
    airDecode_layout rfl nofun named, airDecode_layout rfl nofun named, fun _ => airDecode_layout rfl nofun named,
    fun _ => airDecode_offer hr⟩

end Sys2Proof.Machine

namespace Sys2Proof
open Machine

/-- Settles O59: bytes that decode to no frame, or to no air message, change nothing. -/
theorem failedFramesAreDiscarded : Obligations.FailedFramesAreDiscarded := by
  unfold Obligations.FailedFramesAreDiscarded
  exact ⟨fun bytes s failed => exec_badFrame_none (frameDecode_none failed),
    fun k rest s unknown => exec_airMessageInvalid_none (airDecode_unknown unknown),
    fun p s none => exec_airMessageInvalid_none none⟩

/-- Settles O60: the length and the check of a frame come off again, then each payload and each air message in turn. -/
theorem framesCarryTheirOperands : Obligations.FramesCarryTheirOperands := by
  unfold Obligations.FramesCarryTheirOperands
  refine ⟨fun t p h => frameDecode_frameOf t h, fun v => ?level, rfl, rfl, rfl, rfl, fun p => rfl, fun p h => ?speech, rfl, rfl, rfl,
    rfl, airDecode_layout rfl nofun rfl, airDecode_layout rfl nofun rfl, airDecode_layout rfl nofun rfl,
    fun a => ⟨airDecode_areaAccept a, airDecode_areaReject a⟩, fun r hr => airDecode_callMessages hr,
    fun r d i n p => airDecode_textSegment r, fun r i a => airDecode_segmentAck r, fun c d f => airDecode_transferOrder f⟩
  case level => exact congrArg (some ∘ Instr.measureDone) (halfOf_le16 v [] [] rfl)
  case speech => exact if_pos h

end Sys2Proof
end

section
/-! SUPPORT. The frame number: what a strobe, a reset and every other command make of it (R46, R47). -/

namespace Sys2Proof.Machine

variable {s t : State}

theorem settle_frameNumber (h : Limits s) : (settle s).frame = s.frame := (settle_tame h.tame).2.1

/-- A command whose effect keeps the limits and the frame number keeps the frame number. -/
theorem runIf_frameNumber {o : Bool} {f : State → State} (limits : Limits (f s)) (kept : (f s).frame = s.frame)
    (e : runIf o f s = .next t) : t.frame = s.frame := by
  cases o with
  | false =>
    rw [runIf_off _ _ rfl] at e
    cases e
    rfl
  | true =>
    rw [runIf_on _ _ rfl] at e
    have ended := Host.Outcome.next.inj e
    rw [← ended, settle_frameNumber limits, kept]

theorem enterDeep_frameNumber (s : State) : (enterDeep s).frame = s.frame := by
  unfold enterDeep
  dsimp only
  rw [(sendFrame_frame _ _).2.2.2.2.1]
  simp

/-- A strobe counts one frame, but after the end of the warm-reset sequence while RESET_N is asserted (R46, R47). -/
theorem execFrameStrobe_frameNumber {pins : BitVec 4} (h : Limits s) (e : execFrameStrobe pins s = .next t) :
    t.frame = if s.resetPhase = .idle ∧ s.resetN = true then s.frame else s.frame + 1 := by
  unfold execFrameStrobe at e
  by_cases phase : s.resetPhase = .idle
  · rw [if_neg (not_not_intro phase)] at e
    cases asserted : s.resetN with
    | true =>
      rw [runIf_off _ _ (by simp [asserted])] at e
      cases e
      exact (if_pos ⟨phase, rfl⟩).symm
    | false =>
      rw [runIf_on _ _ (by simp [asserted])] at e
      have tame := settle_tame (frameStrobe_tame (pins := pins) h)
      have ended := Host.Outcome.next.inj e
      rw [← ended, tame.2.1, if_neg (by simp)]
  · rw [if_pos phase] at e
    cases e
    exact (if_neg fun idle => phase idle.1).symm

theorem execWarmReset_frameNumber (e : execWarmReset s = .next t) : t.frame = s.frame := by
  unfold execWarmReset at e
  split at e
  · have begun := Host.Outcome.next.inj e
    rw [← begun, (warmReset_queue_frame s).2]
  · cases e
    rfl

/-- The end of the warm-reset sequence either leaves the frame number or sets it to 0 (R46). -/
theorem execWarmResetEnd_frameNumber {straps : BitVec 2} (e : execWarmResetEnd straps s = .next t) :
    t.frame = s.frame ∨ t.frame = 0 := by
  have torn : (placeTeardown s).frame = s.frame := (placeTeardown_queue_frame s).2
  unfold execWarmResetEnd at e
  split at e
  · cases e
    exact .inl rfl
  · split at e
    · cases e
      exact .inl rfl
    · split at e <;> cases e
      · exact .inr rfl
      · exact .inl torn
    · cases e
      exact .inr rfl

end Sys2Proof.Machine

namespace Sys2Proof
open Machine

/-- Settles O7: a tame command keeps the frame number; of the others only the strobe counts it and only the resets clear it. -/
theorem frameNumberOnlyByStrobe : Obligations.FrameNumberOnlyByStrobe := by
  unfold Obligations.FrameNumberOnlyByStrobe
  intro c s t safe e
  rcases exec_tame safe e with tame | ⟨x, rfl⟩ | rfl | ⟨x, rfl⟩ | rfl | ⟨p, rfl⟩ | ⟨d, rfl⟩ | rfl | rfl
  case inl =>
    have kept : t.frame = s.frame := tame.2.1
    split
    case h_1 =>
      cases e
      rfl
    case h_2 => exact execFrameStrobe_frameNumber safe.1 e
    case h_3 => exact .inl kept
    case h_4 => exact kept
  case inr.inl =>
    cases e
    rfl
  · exact execWarmReset_frameNumber e
  · exact execWarmResetEnd_frameNumber e
  · cases e
    rfl
  · exact execFrameStrobe_frameNumber safe.1 e
  · exact runIf_frameNumber (grant_limits safe.1) (grant_frame d s).2.2.2.2.1 e
  · exact runIf_frameNumber (enterDeep_limits safe.1) (enterDeep_frameNumber s) e
  · exact runIf_frameNumber (exitDone_limits safe.1) (exitDone_tame safe.1).2.1 e

end Sys2Proof
end

section
/-! SUPPORT. Response timeouts, the fault of the radio unit and its recovery (R54 to R59, R79, R182). -/

namespace Sys2Proof.Machine

variable {s u : State} {op : RadioOp} {q : QMsg} {l : Link}

/-! ## A response timeout -/

theorem responseTimeout_counted (h : s.link.unanswered < 2) : responseTimeout op s =
    (let t := timedOut op { s with link := endOp op s.link }
     { t with link := { t.link with unanswered := s.link.unanswered + 1 } }) := by
  unfold responseTimeout
  exact if_neg (Nat.not_le.2 (Nat.succ_lt_succ h))

theorem responseTimeout_third (h : 2 ≤ s.link.unanswered) : responseTimeout op s =
    declareFault op (pumpRound 6 (timedOut op { s with link := endOp op s.link })) := by
  unfold responseTimeout
  exact if_pos (Nat.succ_le_succ h)

theorem listenOutcome_timeout (h : s.conn.state = .noService) :
    listenOutcome none s = { s with sleep := { s.sleep with lineSince := false } } := by
  unfold listenOutcome listenTaken
  rw [if_neg (by simp [h])]
  dsimp only
  rw [h]

/-! ## The message of a SEND-SIG -/

/-- The one message on the air goes back to WAITING (R59). -/
theorem sendTimedOut_again (queue : s.link.queue = [q]) (flight : q.inFlight = true) (stays : q.left = false)
    (again : q.attempts < 2) : sendTimedOut s =
      { s with link := { s.link with queue := [{ q with inFlight := false, attempts := q.attempts + 1 }] } } := by
  have found : s.link.queue.find? (·.inFlight) = some q := by simp [queue, flight]
  unfold sendTimedOut
  rw [found]
  dsimp only
  rw [if_neg (by simp [stays, again]), queue]
  simp

/-- At its third attempt, or left by a shutdown, it leaves the queue, and its job is told (R58, R59). -/
theorem sendTimedOut_dropped (queue : s.link.queue = [q]) (outside : s.link.outside = []) (flight : q.inFlight = true)
    (last : q.attempts = 2 ∨ q.left = true) :
    sendTimedOut s = toldDropped q { s with link := { s.link with queue := [] } } := by
  have found : s.link.queue.find? (·.inFlight) = some q := by simp [queue, flight]
  have gone : (q.left || 2 ≤ q.attempts) = true := by
    rcases last with h | h <;> simp [h]
  unfold sendTimedOut
  rw [found]
  dsimp only
  rw [if_pos gone, joinOutside_none (by exact outside), queue]
  simp

theorem toldDropped_text (job : msgJob q.msg = .texts) (other : segmentIs q.id s = false) : toldDropped q s = s := by
  unfold toldDropped
  rw [job]
  dsimp only
  rw [other]
  rfl

/-- The end of a moment that leaves one message WAITING at a clear link: it is sent (R59). -/
theorem settle_resends {m : AirMsg} {id place attempts : Nat} (rest : Resting u) (refused : l.refused = u.link.refused)
    (up : linkOpen { u with link := l } = true)
    (queue : l.queue = [{ id := id, msg := m, inFlight := false, place := place, attempts := attempts }])
    (free : l.opSendSig = .stopped) (hold : l.hold = false) : settle { u with link := l } = { u with
      link := { l with
        opSendSig := .running 4, askSendSig := some (.sendSig m)
        queue := [{ id := id, msg := m, inFlight := true, place := place, attempts := attempts }] }
      out := { u.out with link := u.out.link ++ [.sendSig m] } } := by
  obtain ⟨steadiness, pending, owed, -, waits, readWaits, mark, level, timer⟩ := rest
  have same : steady { u with link := l } = steady u := by
    unfold steady
    rw [refused]
    rfl
  rw [settle_steady (same.trans steadiness), pumpIdle_resting (by exact timer), finish,
    placeEvents_done (by exact pending) (by exact owed), sendNext_one up queue free hold, checkWake_still (by exact mark),
    pumpWindow_still (by exact level), closeMoment_still (by exact waits) (by exact readWaits)]

theorem link_silent (queue : l.queue = []) (outside : l.outside = []) (free : l.opSendSig = .stopped) :
    ({ l with queue := [], outside := [], opSendSig := .stopped } : Link) = l := by
  cases l
  cases queue
  cases outside
  cases free
  rfl

theorem link_freed {n : Nat} {a : Option LinkFrame} (queue : l.queue = []) (free : l.opSendSig = .stopped) :
    ({ l with queue := [], opSendSig := .stopped, unanswered := n, askSendSig := a } : Link) =
      { l with unanswered := n, askSendSig := a } := by
  cases l
  cases queue
  cases free
  rfl

/-- A part at rest stays so when its queue is emptied and the operation of its message ends. -/
theorem dropped_resting {n : Nat} {a : Option LinkFrame} (h : Resting u) :
    Resting { u with link := { u.link with queue := [], opSendSig := .stopped, unanswered := n, askSendSig := a } } := by
  obtain ⟨steadiness, pending, owed, -, rest⟩ := h
  exact ⟨steadiness, pending, owed, .inl rfl, rest⟩

/-! ## The fault -/

/-- The link with every operation ended and the recovery timer running, LINK-RESET sent (R56). -/
def linkFallen (s : State) : State :=
  { s with
    link := { s.link with
      up := false, unanswered := 0, opMeasure := .stopped, opListen := .stopped, opSwitch := .stopped, refused := []
      askMeasure := none, askListen := none, askSendSig := none, askSwitch := none, recovery := .running 100 }
    out := { s.out with link := s.out.link ++ [.linkReset] }
    cells := { s.cells with residue := false } }

theorem mob_unreported {m : Mob} (report : m.report = false) (stale : m.stale = false) :
    ({ m with report := false, stale := false } : Mob) = m := by
  cases m
  simp_all

/-- With no message and no stale switch the fall of the link takes nothing else along. -/
theorem linkDown_clear (link : LinkClear s) (waits : s.mem.waits = []) (report : s.mob.report = false)
    (stale : s.mob.stale = false) : linkDown s = linkFallen s := by
  obtain ⟨-, queue, outside, free, -⟩ := link
  have emptied := link_silent (l := (linkFallen s).link) queue outside free
  unfold linkDown linkOut
  rw [waits, List.map_nil, mem_empty waits, mob_unreported report stale]
  exact congrArg (fun l => { linkFallen s with link := l }) emptied

theorem raisePrimary_placed {j : Job} {e : Event} {c : Cause} (quiet : Quiet s) (clear : EventClear s) (awake : s.sleep.level = .awake)
    (cycle : s.sleep.cycle = s.sleep.base) (loss : e.loss = false) : raisePrimary j e c s =
      eventPlaced e { s with sleep := { s.sleep with quiet := 0 } } := by
  obtain ⟨pending, owed, waits⟩ := quiet
  unfold raisePrimary
  rw [jobWaits_none waits, raiseNow_first pending owed waits clear loss]
  exact primary_calm (by exact awake) (by exact cycle)

/-- In NO-SERVICE without a camping the connection controller has nothing to leave (R79). -/
theorem connFault_noService (conn : s.conn.state = .noService) (camping : s.conn.camping = false) : connFault s = s := by
  simp [connFault, conn, camping]

/-- In NO-SERVICE it cancels a camping under way, and writes NO-SERVICE again (R69, R79). -/
theorem connFault_camping (conn : s.conn.state = .noService) (alive : s.conn.shutdown = none) (camping : s.conn.camping = true)
    (pubs : s.mem.pubs = []) (memory : memoryAvailable s = true) (waits : s.mem.waits = []) (room : Room 1 s) :
    connFault s = joinWrite (writeAt s .plan 1 [(0x10, 1)]) { s with conn := { s.conn with camping := false } } := by
  unfold connFault
  rw [conn]
  dsimp only
  rw [if_neg (by simp [alive, camping]), unlivePubs_none (by exact pubs)]
  exact (if_pos (by exact memory)).trans (emitWrite_room (n := 0) (by exact waits) (by exact room) rfl)

/-- What the fault makes of a part at rest, before its event (R56, R182). -/
def faulted (s : State) : State :=
  { linkFallen s with conn := { s.conn with camping := false }, sleep := { s.sleep with quiet := 0 } }

theorem faulted_resting (h : Resting s) : Resting (faulted s) := by
  have refused : s.link.refused = [] := (steady_still h.1).1
  unfold faulted linkFallen
  rw [← refused]
  exact h

/-- With no switch in progress RADIO-FAULT is the last of the fault's effects (R56). -/
theorem declareFault_noSwitch (calm : Calm s) {t : State} (left : connFault (linkFallen s) = t) (noSwitch : switchOn t = false) :
    declareFault op s = raisePrimary .link (event t .radioFault .primary (Job.code .link) 0 (RadioOp.code op) 0 0) .radioFault t := by
  unfold declareFault
  rw [linkDown_clear calm.link calm.waits calm.report calm.stale,
    abort_none (t := linkFallen s) calm.phase calm.round calm.noRound, left]
  exact congrArg (fun u => raisePrimary .link (event u .radioFault .primary (Job.code .link) 0 (RadioOp.code op) 0 0) .radioFault u)
    (if_neg (by simp [noSwitch]))

theorem declareFault_noService (calm : Calm s) (conn : s.conn.state = .noService) (camping : s.conn.camping = false) :
    declareFault op s = eventPlaced (event s .radioFault .primary (Job.code .link) 0 (RadioOp.code op) 0 0) (faulted s) := by
  have same : ({ s.conn with camping := false } : Conn) = s.conn := by rw [← camping]
  have left : connFault (linkFallen s) = linkFallen s := connFault_noService conn camping
  rw [declareFault_noSwitch calm left calm.notSwitch,
    raisePrimary_placed (s := linkFallen s) calm.near.quiet calm.events calm.awake calm.cycle rfl]
  unfold faulted
  rw [same]
  rfl

theorem declareFault_camping (calm : Calm s) (conn : s.conn.state = .noService) (alive : s.conn.shutdown = none)
    (camping : s.conn.camping = true) : declareFault op s =
      eventPlaced (event s .radioFault .primary (Job.code .link) 0 (RadioOp.code op) 0 0)
        (joinWrite (writeAt s .plan 1 [(0x10, 1)]) (faulted s)) := by
  have left := connFault_camping (s := linkFallen s) conn alive camping calm.pubs calm.mem calm.waits (calm.room' (by decide))
  rw [declareFault_noSwitch calm left calm.notSwitch, raisePrimary_placed (by exact calm.near.quiet)
    (clear_join (by exact calm.events) (by exact calm.room' (n := 3) (by decide))) (by exact calm.awake) (by exact calm.cycle) rfl]
  rfl

theorem exec_thirdListen (calm : Calm s) (conn : s.conn.state = .noService) (third : s.link.unanswered = 2)
    (due : s.link.opListen = .due) : exec (.responseTimeout .listen) s = .next (settle (declareFault .listen { s with
      link := { s.link with opListen := .stopped, askListen := none }, sleep := { s.sleep with lineSince := false } })) := by
  rw [exec_responseTimeout (op := .listen) calm.open_ due, responseTimeout_third (Nat.le_of_eq third.symm)]
  dsimp only [timedOut]
  rw [listenOutcome_timeout (by exact conn), pump_rest 6 (by exact calm.round) (by exact roundDue_off calm (by simp [conn]))]
  rfl

end Sys2Proof.Machine

namespace Sys2Proof
open Machine

/-- Settles O58: a timeout that is not the third, the block's and the count's parts of any, the third of a LISTEN, and the recovery. -/
theorem linkTimeouts : Obligations.LinkTimeouts := by
  unfold Obligations.LinkTimeouts
  refine ⟨fun u calm few => ⟨fun due conn => ?listen, fun q flight stays again => ?again, fun q flight last job other => ?dropped,
    fun op s h => exec_responseTimeout_off h⟩, fun op s up due => ⟨fun few => ?counted, fun third => ?third⟩,
    fun u calm two due conn alive => ⟨fun camping => ?fault, fun camping => ?cancelled⟩, fun u t calm =>
    ⟨fun due => ?resent, fun h => exec_recoveryTimer_off h, fun conn => ?recovered, exec_linkReady_up calm.up⟩⟩
  case listen =>
    rw [exec_responseTimeout (op := .listen) calm.open_ due, responseTimeout_counted few]
    dsimp only [timedOut]
    rw [listenOutcome_timeout (by exact conn)]
    exact congrArg Host.Outcome.next (settle_resting (by exact calm.rest))
  case again =>
    obtain ⟨-, -, -, -, hold⟩ := calm.link
    obtain ⟨id, m, inFlight, place, attempts, left⟩ := q
    dsimp only at flight stays
    subst flight stays
    rw [exec_responseTimeout (by exact calm.open_) rfl, responseTimeout_counted (by exact few)]
    dsimp only [timedOut]
    rw [if_neg (by exact Nat.not_le.2 few), sendTimedOut_again rfl rfl rfl again]
    exact congrArg Host.Outcome.next (settle_resends (u := u) calm.rest rfl calm.open_ rfl rfl hold)
  case dropped =>
    rw [exec_responseTimeout (by exact calm.open_) rfl, responseTimeout_counted (by exact few)]
    dsimp only [timedOut]
    rw [if_neg (by exact Nat.not_le.2 few), sendTimedOut_dropped rfl (by exact calm.outside) flight last,
      toldDropped_text job (by exact other)]
    obtain ⟨-, queue, -, free, -⟩ := calm.link
    rw [settle_resting (by exact dropped_resting (u := u) calm.rest)]
    exact congrArg (fun l => Host.Outcome.next { u with link := l }) (link_freed queue free)
  case counted =>
    rw [exec_responseTimeout up due, responseTimeout_counted few]
    cases op <;> rfl
  case third =>
    rw [exec_responseTimeout up due, responseTimeout_third third]
    cases op <;> rfl
  case fault =>
    rw [exec_thirdListen calm conn two due, declareFault_noService (by exact calm) (by exact conn) (by exact camping)]
    exact congrArg Host.Outcome.next (settle_resting (eventPlaced_resting (faulted_resting (by exact calm.rest))))
  case cancelled =>
    rw [exec_thirdListen calm conn two due, declareFault_camping (by exact calm) (by exact conn) (by exact alive) (by exact camping)]
    exact congrArg Host.Outcome.next
      (settle_resting (eventPlaced_resting (joinWrite_resting (faulted_resting (by exact calm.rest)))))
  case resent =>
    rw [exec_recoveryTimer (by exact calm.jobs) rfl due]
    exact congrArg Host.Outcome.next (settle_resting (by exact calm.rest))
  case recovered =>
    have up : ({ u.link with up := true, recovery := .stopped, unanswered := 0 } : Link) =
        { u.link with recovery := .stopped, unanswered := 0 } := by rw [← calm.up]
    refine (exec_linkReady (s := { u with link := { u.link with up := false, recovery := t } }) calm.jobs rfl conn).trans ?_
    rw [raise_placed (by exact calm.rest) (by exact calm.events) rfl, settle_resting (by exact calm.rest)]
    exact congrArg (fun l => Host.Outcome.next (eventPlaced (event u .radioRecovered .none (Job.code .link) 0 0 0 0)
      { u with link := l, cells := { u.cells with lastCarrier := none } })) up

end Sys2Proof
end

section
/-! SUPPORT. Samples, levels, the choice of a slot, the order of a round, the monitor receiver and the rounds' moments (R57, R68, R69,
R89, R90, R93 to R98). -/

namespace Sys2Proof.Machine

variable {s : State} {ok : Fin 13 → Bool} {n : Fin 13} {l : Int}

/-! ## Samples and levels -/

theorem addSample_samples (x : Slot) (l : Int) (f : FrameNo) : (x.addSample l f).samples =
    (x.samples ++ [({ level := l, frame := f } : Sample)]).drop (x.samples.length + 1 - 4) := by
  simp [Slot.addSample]

theorem miss_early {x : Slot} (h : x.missed < 2) : x.miss = { x with missed := x.missed + 1 } := if_neg (Nat.not_le.2 h)

theorem miss_third {x : Slot} (h : 2 ≤ x.missed) : x.miss = { x with missed := 3, samples := [] } := if_pos h

theorem filtered_none {x : Slot} (h : x.samples = []) : x.filtered = none := by simp [Slot.filtered, filteredLevel, h]

/-- The filtered level is the mean of the samples, rounded down (R89). -/
theorem filtered_mean {x : Slot} (h : x.samples ≠ []) : ∃ m : Int, x.filtered = some m ∧
    m * x.samples.length ≤ (x.samples.map (·.level)).sum ∧
      (x.samples.map (·.level)).sum < (m + 1) * x.samples.length := by
  have count : (0 : Int) < x.samples.length := by exact_mod_cast List.length_pos_iff.2 h
  refine ⟨(x.samples.map Sample.level).sum.fdiv x.samples.length, ?_, ?_, ?_⟩
  · simp [Slot.filtered, filteredLevel, h]
  · rw [Int.fdiv_eq_ediv_of_nonneg _ count.le]
    exact Int.ediv_mul_le _ count.ne'
  · rw [Int.fdiv_eq_ediv_of_nonneg _ count.le]
    exact Int.lt_ediv_add_one_mul_self _ count

/-! ## The slot with the highest level (R69) -/

/-- One slot against the best of those before it. -/
def betterSlot (s : State) (ok : Fin 13 → Bool) (best : Option (Fin 13 × Int)) (n : Fin 13) : Option (Fin 13 × Int) :=
  if ok n then
    match (s.cells.slots[n]).filtered, best with
    | none, _ => best
    | some l, none => some (n, l)
    | some l, some (m, k) => if k < l then some (n, l) else some (m, k)
  else best

theorem bestSlot_fold (s : State) (ok : Fin 13 → Bool) :
    bestSlot s ok = ((List.finRange 13).foldl (betterSlot s ok) none).map (·.1) := rfl

/-- What the best of some slots is: the first of the highest level among those that pass, or none where none has a level. -/
def IsBest (s : State) (ok : Fin 13 → Bool) (ns : List (Fin 13)) : Option (Fin 13 × Int) → Prop
  | none => ∀ m ∈ ns, ok m = true → (s.cells.slots[m]).filtered = none
  | some (n, l) => n ∈ ns ∧ ok n = true ∧ (s.cells.slots[n]).filtered = some l ∧
      ∀ m ∈ ns, ∀ k, ok m = true → (s.cells.slots[m]).filtered = some k → k < l ∨ (k = l ∧ n ≤ m)

theorem IsBest.step {ns : List (Fin 13)} {b : Option (Fin 13 × Int)} (h : IsBest s ok ns b) (later : ∀ m ∈ ns, m < n) :
    IsBest s ok (ns ++ [n]) (betterSlot s ok b n) := by
  have kept : ∀ b, (ok n = true → (s.cells.slots[n]).filtered = none) → IsBest s ok ns b → IsBest s ok (ns ++ [n]) b := by
    intro b silent h
    match b, h with
    | none, h =>
      intro m hm pass
      rcases List.mem_append.1 hm with hm | hm
      · exact h m hm pass
      · exact List.mem_singleton.1 hm ▸ silent (List.mem_singleton.1 hm ▸ pass)
    | some (x, l), ⟨mem, pass, level, top⟩ =>
      refine ⟨List.mem_append_left _ mem, pass, level, fun m hm k okm hk => ?_⟩
      rcases List.mem_append.1 hm with hm | hm
      · exact top m hm k okm hk
      · obtain rfl := List.mem_singleton.1 hm
        cases hk.symm.trans (silent okm)
  unfold betterSlot
  by_cases pass : ok n = true
  · rw [if_pos pass]
    cases level : (s.cells.slots[n]).filtered with
    | none => exact kept b (fun _ => level) h
    | some l =>
      match b, h with
      | none, h =>
        refine ⟨by simp, pass, level, fun m hm k okm hk => ?_⟩
        rcases List.mem_append.1 hm with hm | hm
        · cases hk.symm.trans (h m hm okm)
        · obtain rfl := List.mem_singleton.1 hm
          exact .inr ⟨Option.some.inj (hk.symm.trans level), le_refl m⟩
      | some (x, k), ⟨mem, passx, levelx, top⟩ =>
        dsimp only
        split
        next higher =>
          refine ⟨by simp, pass, level, fun m hm j okm hj => ?_⟩
          rcases List.mem_append.1 hm with hm | hm
          · rcases top m hm j okm hj with below | ⟨same, -⟩ <;> exact .inl (by omega)
          · obtain rfl := List.mem_singleton.1 hm
            exact .inr ⟨Option.some.inj (hj.symm.trans level), le_refl m⟩
        next lower =>
          refine ⟨List.mem_append_left _ mem, passx, levelx, fun m hm j okm hj => ?_⟩
          rcases List.mem_append.1 hm with hm | hm
          · exact top m hm j okm hj
          · obtain rfl := List.mem_singleton.1 hm
            obtain rfl : l = j := Option.some.inj (level.symm.trans hj)
            have before := later x mem
            omega
  · rw [if_neg pass]
    exact kept b (fun h => absurd h pass) h

theorem IsBest.fold {ls : List (Fin 13)} : ∀ {ns : List (Fin 13)} {b : Option (Fin 13 × Int)}, IsBest s ok ns b →
    (ns ++ ls).Pairwise (· < ·) → IsBest s ok (ns ++ ls) (ls.foldl (betterSlot s ok) b) := by
  induction ls with
  | nil =>
    intro ns b h _
    simpa using h
  | cons n ls ih =>
    intro ns b h sorted
    have later : ∀ m ∈ ns, m < n := fun m hm => (List.pairwise_append.1 sorted).2.2 m hm n (by simp)
    have split : ns ++ n :: ls = ns ++ [n] ++ ls := by simp
    rw [split] at sorted ⊢
    exact ih (h.step later) sorted

theorem bestSlot_isBest (s : State) (ok : Fin 13 → Bool) :
    ∃ b, bestSlot s ok = b.map (·.1) ∧ IsBest s ok (List.finRange 13) b :=
  ⟨_, bestSlot_fold s ok, IsBest.fold (ns := []) (b := none) (by intro m hm; cases hm) (List.pairwise_lt_finRange 13)⟩

/-- The slot with the highest level, the lowest number among equals, is the choice. -/
theorem bestSlot_highest (pass : ok n = true) (level : (s.cells.slots[n]).filtered = some l)
    (top : ∀ m k, ok m = true → (s.cells.slots[m]).filtered = some k → k < l ∨ (k = l ∧ n ≤ m)) : bestSlot s ok = some n := by
  obtain ⟨b, chosen, best⟩ := bestSlot_isBest s ok
  match b, best with
  | none, best => cases level.symm.trans (best n (List.mem_finRange n) pass)
  | some (m, k), ⟨_, passm, levelm, topm⟩ =>
    have mine := top m k passm levelm
    have others := topm n (List.mem_finRange n) l pass level
    have same : m = n := by omega
    rw [chosen, same]
    rfl

theorem bestSlot_none (silent : ∀ m, ok m = true → (s.cells.slots[m]).filtered = none) : bestSlot s ok = none := by
  obtain ⟨b, chosen, best⟩ := bestSlot_isBest s ok
  match b, best with
  | none, _ => exact chosen
  | some (m, k), ⟨_, passm, levelm, _⟩ => cases levelm.symm.trans (silent m passm)

/-! ## The order of a round (R97) -/

theorem find_least {k : Nat} {p : Fin k → Bool} {n : Fin k} (hit : p n = true) (least : ∀ m < n, p m = false) :
    (List.finRange k).find? p = some n := by
  rw [List.find?_eq_some_iff_getElem]
  refine ⟨hit, n.val, by simp, by simp, fun j hj => ?_⟩
  simpa using least ⟨j, by omega⟩ hj

theorem servingFirst_iff (c : ConnState) : servingFirst c = true ↔ c = .camped ∨ c = .connecting ∨ c = .connected := by
  cases c <;> simp [servingFirst]

/-- The slot stands behind the round's position: not the slot taken first, and above the last of the others. -/
def RoundPos.before : RoundPos → Fin 13 → Bool
  | .serving, _ => true
  | .after f last, n => f != some n && (match last with
    | some m => decide (m < n)
    | none => true)

/-- A slot that the round may take next, not as the serving slot. -/
def roundFits (s : State) (pos : RoundPos) (n : Fin 13) : Bool :=
  (s.cells.slots[n]).usable && pos.before n && !(servingFirst s.conn.state && s.cells.serving == some n)

theorem RoundPos.before_iff (pos : RoundPos) (n : Fin 13) : pos.before n = true ↔ match pos with
    | .serving => True
    | .after f last => f ≠ some n ∧ ∀ m, last = some m → m < n := by
  rcases pos with _ | ⟨f, _ | m⟩ <;> simp [RoundPos.before]

theorem roundFits_iff {pos : RoundPos} : roundFits s pos n = true ↔ (s.cells.slots[n]).usable = true ∧
    ¬ ((s.conn.state = .camped ∨ s.conn.state = .connecting ∨ s.conn.state = .connected) ∧ s.cells.serving = some n) ∧
    match pos with
    | .serving => True
    | .after f last => f ≠ some n ∧ ∀ m, last = some m → m < n := by
  rw [← RoundPos.before_iff, ← servingFirst_iff]
  simp only [roundFits, Bool.and_eq_true, Bool.not_eq_true', Bool.and_eq_false_iff, beq_eq_false_iff_ne, not_and_or, ne_eq,
    Bool.not_eq_true]
  tauto

theorem nextSlot_lead (held : servingFirst s.conn.state = true) (serving : s.cells.serving = some n)
    (usable : (s.cells.slots[n]).usable = true) : nextSlot s .serving = some (n, true) := by
  unfold nextSlot
  dsimp only
  rw [serving]
  dsimp only
  rw [if_pos (by rw [held, usable]; rfl)]

theorem nextSlot_plain {pos : RoundPos} (noLead : ∀ n, pos = .serving → servingFirst s.conn.state = true →
    s.cells.serving = some n → (s.cells.slots[n]).usable = false) :
    nextSlot s pos = ((List.finRange 13).find? (roundFits s pos)).map (fun n => (n, false)) := by
  unfold nextSlot
  dsimp only
  cases pos with
  | after f last => rfl
  | serving =>
    cases serving : s.cells.serving with
    | none =>
      dsimp only
      unfold roundFits
      rw [serving]
      rfl
    | some n =>
      have passed : (servingFirst s.conn.state && (s.cells.slots[n]).usable) = false := by
        cases held : servingFirst s.conn.state with
        | false => rfl
        | true => exact noLead n rfl held serving
      dsimp only
      rw [passed, if_neg (by simp)]
      unfold roundFits
      rw [serving]
      rfl

theorem noLead_unusable {pos : RoundPos} (noLead : ∀ n, ¬ (pos = .serving ∧
    (s.conn.state = .camped ∨ s.conn.state = .connecting ∨ s.conn.state = .connected) ∧ s.cells.serving = some n ∧
    (s.cells.slots[n]).usable = true)) (n : Fin 13) (at_ : pos = .serving) (held : servingFirst s.conn.state = true)
    (serving : s.cells.serving = some n) : (s.cells.slots[n]).usable = false :=
  Bool.eq_false_iff.2 fun usable => noLead n ⟨at_, (servingFirst_iff _).1 held, serving, usable⟩

/-! ## The monitor receiver (R93 to R96) -/

/-- MEASURE leaves where the link is UP and no MEASURE is outstanding (R51, R93). -/
theorem startMeasure_tuned {first : Bool} (tuned : s.cells.lastCarrier = some (s.cells.slots[n]).carrier) :
    startMeasure n first s = sendMeasure { s with cells := { s.cells with
      measSlot := some n, measFirst := first, measStray := false, phase := .sample } } := if_pos tuned

theorem startMeasure_tunes {first : Bool} (tunes : s.cells.lastCarrier ≠ some (s.cells.slots[n]).carrier) :
    startMeasure n first s = sendFrame (.tuneMon (s.cells.slots[n]).carrier) { s with cells := { s.cells with
      measSlot := some n, measFirst := first, measStray := false, phase := .settle, settle := true
      lastCarrier := some (s.cells.slots[n]).carrier } } := if_neg tunes

theorem sendMeasure_residue (residue : s.cells.residue = true) : sendMeasure s = s := by
  unfold sendMeasure
  split
  · exact if_pos residue
  · rfl

theorem sendMeasure_request (slot : s.cells.measSlot = some n) (residue : s.cells.residue = false) :
    sendMeasure s = if s.link.up = true ∧ s.link.opMeasure.runs = false then { s with
        link := { s.link with opMeasure := .running 5, askMeasure := some (.measure (s.cells.slots[n]).code) }
        out := { s.out with link := s.out.link ++ [.measure (s.cells.slots[n]).code] } }
      else s := by
  unfold sendMeasure
  rw [slot]
  dsimp only
  rw [residue]
  simp [request, Link.op, setOp, linkOut, Config.responseFrames]

/-! ## Moments of a round in NO-SERVICE (R57, R94, R96 to R98) -/

/-- A state in NO-SERVICE that has of a calm state all that a moment looks at but the rounds. -/
structure RoundMoment (u t : State) : Prop where
  calm : Calm u
  off : u.conn.state ≠ .connected
  conn : t.conn.state = .noService
  still : Still t
  ended : Ended t
  arrivals : t.texts.arrivals = []
  texts : (t.texts.send.isSome || t.texts.retire == t.texts.prod) = true
  timer : t.conn.inactTimer = u.conn.inactTimer
  open_ : roundOpen t = true
  phase : t.cells.phase = .idle

/-- Writes, events, a new connection state and what the link and the cell table count leave a calm state such. -/
theorem Calm.roundMoment {u : State} (calm : Calm u) (off : u.conn.state ≠ .connected) {m : MemPath} {l : Link} {st : ConnState}
    {c : Cells} {e : Events} (waits : m.waits = u.mem.waits) (readWaits : m.readWaits = u.mem.readWaits) (up : l.up = true)
    (refused : l.refused = u.link.refused) (queue : l.queue = u.link.queue) (conn : st = .noService) (phase : c.phase = .idle)
    (pending : e.pending = u.events.pending) (owed : e.owed = u.events.owed) :
    RoundMoment u { u with mem := m, link := l, conn := { u.conn with state := st }, cells := c, events := e } where
  calm := calm
  off := off
  conn := conn
  still := ⟨refused.trans calm.near.still.1, calm.near.still.2⟩
  ended := by
    obtain ⟨noEvent, noHeader, -, noWait, noRead, mark, level⟩ := calm.near.ended
    exact ⟨pending.trans noEvent, owed.trans noHeader, .inl (queue.trans calm.queue), waits.trans noWait, readWaits.trans noRead, mark,
      level⟩
  arrivals := (steady_texts calm.steady).1
  texts := (steady_texts calm.steady).2
  timer := rfl
  open_ := by
    refine open_calm calm ?_ ?_ rfl rfl rfl up calm.idle (waits.trans calm.waits) <;> simp [conn]
  phase := phase

namespace RoundMoment
variable {u t : State} {pos : RoundPos} {n : Fin 13} {first : Bool}

theorem next (h : RoundMoment u t) (round : t.cells.round = some pos) (slot : nextSlot t pos = some (n, first)) :
    settle t = startMeasure n first t :=
  settle_next h.calm h.off (by simp [h.conn]) h.still h.ended h.arrivals h.texts h.timer h.open_ h.phase round slot

theorem ends (h : RoundMoment u t) (round : t.cells.round = some pos) (single : t.cells.roundWaits = false)
    (slot : nextSlot t pos = none) (choice : campChoice t false = none) :
    settle t = setCounts (fun _ => 0) { t with cells := { t.cells with round := none, paced := true } } :=
  settle_end h.calm h.off h.conn h.still h.ended h.arrivals h.texts h.timer h.open_ h.phase round single slot choice

theorem begins (h : RoundMoment u t) (round : t.cells.round = none) (due : t.cells.roundWaits = true)
    (slot : nextSlot (beginRound t) .serving = some (n, first)) : settle t = startMeasure n first (beginRound t) :=
  settle_begin h.calm h.off (by simp [h.conn]) h.still h.ended h.arrivals h.texts h.timer h.open_ h.phase round due slot

theorem begins_ends (h : RoundMoment u t) (round : t.cells.round = none) (due : t.cells.roundWaits = true)
    (slot : nextSlot (beginRound t) .serving = none) (choice : campChoice t false = none) :
    settle t = setCounts (fun _ => 0) { beginRound t with cells := { (beginRound t).cells with round := none, paced := true } } :=
  settle_begin_end h.calm h.off h.conn h.still h.ended h.arrivals h.texts h.timer h.open_ h.phase round due slot choice

end RoundMoment

/-- A round begun in NO-SERVICE: its timer runs anew for the base cycle (R98). -/
theorem beginRound_noService {t : State} (conn : t.conn.state = .noService) : beginRound t = { t with cells := { t.cells with
    round := some .serving, roundWaits := false, roundTimer := .running t.sleep.base } } := by
  unfold beginRound
  rw [if_pos conn]

/-- A part at rest whose monitor receiver measures a slot of a round stays at rest. -/
theorem measuring_resting {u : State} {l : Link} {o : Outputs} {c : Cells} (rest : Resting u) (refused : l.refused = u.link.refused)
    (queue : l.queue = u.link.queue) (send : l.opSendSig = u.link.opSendSig) (round : ∃ pos, c.round = some pos)
    (phase : c.phase ≠ .idle) : Resting { u with link := l, out := o, cells := c } := by
  obtain ⟨steadiness, pending, owed, sending, others⟩ := rest
  obtain ⟨pos, round⟩ := round
  refine ⟨?_, pending, owed, ?_, others⟩
  · simp only [steady, Bool.and_eq_true] at steadiness ⊢
    obtain ⟨⟨⟨⟨⟨⟨none, shut⟩, unbind⟩, back⟩, -⟩, arrivals⟩, texts⟩ := steadiness
    refine ⟨⟨⟨⟨⟨⟨?_, shut⟩, unbind⟩, back⟩, ?_⟩, arrivals⟩, texts⟩
    · rw [refused]
      exact none
    · rw [round]
      simpa using phase
  · rw [queue, send]
    exact sending

/-! ## A measurement's answer (R89, R90, R94, R97, R100) -/

/-- A slot with the outcome of its measurement: a sample, or a miss. -/
def measured (v : Option Int) (f : FrameNo) (x : Slot) : Slot :=
  match v with
  | some l => x.addSample l f
  | none => x.miss

theorem measured_candidate (v : Option Int) (f : FrameNo) (x : Slot) : (measured v f x).candidate = x.candidate := by
  cases v with
  | some l => rfl
  | none =>
    show x.miss.candidate = _
    unfold Slot.miss
    split <;> rfl

/-- The position behind a slot that was not taken as the serving one (R97). -/
def RoundPos.past (pos : RoundPos) (n : Fin 13) : RoundPos :=
  .after (match pos with
    | .after a _ => a
    | .serving => none) (some n)

theorem roundMoves_past {pos : RoundPos} (stray : s.cells.measStray = false) (first : s.cells.measFirst = false)
    (round : s.cells.round = some pos) (slot : s.cells.measSlot = some n) :
    roundMoves s = { s with cells := { s.cells with round := some (pos.past n) } } := by
  unfold roundMoves
  rw [stray, first, round, slot]
  cases pos <;> rfl

theorem mirror_room (memory : memoryAvailable s = true) (waits : s.mem.waits = []) (room : Room 1 s) :
    mirror n s = joinWrite (writeAt s .cell (1 + n.val) (fieldBytes (slotFields s.cells.slots[n]))) s := by
  unfold mirror
  rw [if_pos memory]
  exact emitWrite_room (n := 0) waits room rfl

/-- The answer taken on its slot, the receiver idle, the round moved on, before the slot's mirror write. -/
def answered (v : Option Int) (n : Fin 13) (pos : RoundPos) (s : State) : State :=
  { s with cells := { s.cells with
    slots := s.cells.slots.set n (measured v s.frame s.cells.slots[n])
    phase := .idle, measSlot := none, measStray := false, paced := true, round := some (pos.past n) } }

theorem measureOutcome_taken {v : Option Int} {pos : RoundPos} (residue : s.cells.residue = false) (phase : s.cells.phase = .sample)
    (slot : s.cells.measSlot = some n) (stray : s.cells.measStray = false) (first : s.cells.measFirst = false)
    (round : s.cells.round = some pos) (conn : s.conn.state ≠ .connected) (memory : memoryAvailable s = true)
    (waits : s.mem.waits = []) (room : Room 1 s) (cand : ∀ m : Fin 13, (s.cells.slots[m]).candidate = false) :
    measureOutcome v s = slotWritten n (measured v s.frame s.cells.slots[n]) { s with cells := { s.cells with
      phase := .idle, measSlot := none, measStray := false, paced := true, round := some (pos.past n) } } := by
  have moved := roundMoves_past (s := setSlot n (measured v s.frame) s) (n := n) stray first round slot
  have outcome : measureOutcome v s = if ((answered v n pos s).cells.slots[n]).filtered = (s.cells.slots[n]).filtered then
      mirror n (answered v n pos s) else slotEvent n s (answered v n pos s) := by
    unfold measureOutcome
    rw [if_neg (by simp [residue]), phase, slot]
    exact congrArg (fun t : State =>
      let u := { t with cells := { t.cells with phase := .idle, measSlot := none, measStray := false, paced := true } }
      if (u.cells.slots[n]).filtered = (s.cells.slots[n]).filtered then mirror n u else slotEvent n s u) moved
  have kept : ∀ m : Fin 13, ((answered v n pos s).cells.slots[m]).candidate = false :=
    slot_candidate cand ((measured_candidate _ _ _).trans (cand n))
  have alone : slotEvent n s (answered v n pos s) = mirror n (answered v n pos s) :=
    slotEvent_mirror (by exact conn) kept (fun m other => differs_set (f := measured v s.frame) other)
  have own : (answered v n pos s).cells.slots[n] = measured v s.frame s.cells.slots[n] := by simp [answered]
  rw [outcome, alone, ite_self, mirror_room (by exact memory) (by exact waits) (by exact room), own]
  rfl

/-- The answer of a residue is no sample; a measurement in SAMPLE sends its MEASURE behind it (R96). -/
theorem measureOutcome_residue {v : Option Int} (residue : s.cells.residue = true) : measureOutcome v s =
    (let t := { s with cells := { s.cells with residue := false } }
     if s.cells.phase = .sample then sendMeasure t else t) := if_pos residue

/-! ## A round in CONNECTED (R98) -/

theorem beginRound_connected (conn : s.conn.state = .connected) :
    beginRound s = { s with cells := { s.cells with round := some .serving, roundWaits := false } } := by
  unfold beginRound
  rw [if_neg (by simp [conn])]

theorem roundDue_connected (conn : s.conn.state = .connected) : roundDue s = !s.cells.paced := if_pos conn

theorem heldBack_connected (conn : s.conn.state = .connected) : heldBack s = s.cells.paced := by simp [heldBack, conn]

theorem pumpRound_held {k : Nat} {pos : RoundPos} {first : Bool} (open_ : roundOpen s = true) (phase : s.cells.phase = .idle)
    (round : s.cells.round = some pos) (slot : nextSlot s pos = some (n, first)) (held : heldBack s = true) :
    pumpRound (k + 1) s = s := by
  unfold pumpRound
  rw [open_, round]
  dsimp only
  rw [if_neg (by simp), if_neg (by simp [phase]), slot]
  dsimp only
  rw [held, if_pos rfl]

/-! ## A round begins (R57, R68, R97, R98) -/

section
variable {u : State} {first : Bool}

theorem beginRound_begun {t : State} (conn : t.conn.state = .noService) :
    beginRound t = roundBegun { t with cells := { t.cells with roundWaits := false } } := by
  rw [beginRound_noService conn]
  rfl

theorem beginRound_eventPlaced (e : Event) (t : State) : beginRound (eventPlaced e t) = eventPlaced e (beginRound t) := rfl

theorem exec_roundTimer_begins (calm : Calm u) (conn : u.conn.state = .noService) (due : u.cells.roundTimer = .due)
    (slot : nextSlot (roundBegun u) .serving = some (n, first)) :
    exec .roundTimerExpiry u = .next (startMeasure n first (roundBegun u)) := by
  have moment : RoundMoment u { u with cells := { u.cells with roundTimer := .stopped, roundWaits := true } } :=
    calm.roundMoment (by simp [conn]) rfl rfl calm.up rfl rfl conn calm.phase rfl rfl
  have began : beginRound { u with cells := { u.cells with roundTimer := .stopped, roundWaits := true } } = roundBegun u := by
    rw [beginRound_noService (by exact conn), ← calm.noRound]
    rfl
  rw [exec_roundTimer calm.jobs due conn, ← began]
  exact congrArg Host.Outcome.next (moment.begins calm.round rfl (by rw [began]; exact slot))

theorem exec_roundTimer_ends (calm : Calm u) (conn : u.conn.state = .noService) (due : u.cells.roundTimer = .due)
    (slot : nextSlot (roundBegun u) .serving = none) (choice : campChoice u false = none) :
    exec .roundTimerExpiry u = .next (setCounts (fun _ => 0)
      { u with cells := { u.cells with paced := true, roundTimer := .running u.sleep.base } }) := by
  have moment : RoundMoment u { u with cells := { u.cells with roundTimer := .stopped, roundWaits := true } } :=
    calm.roundMoment (by simp [conn]) rfl rfl calm.up rfl rfl conn calm.phase rfl rfl
  have began : beginRound { u with cells := { u.cells with roundTimer := .stopped, roundWaits := true } } = roundBegun u := by
    rw [beginRound_noService (by exact conn), ← calm.noRound]
    rfl
  have ended : ({ (roundBegun u).cells with round := none, paced := true } : Cells) =
      { u.cells with paced := true, roundTimer := .running u.sleep.base } := by
    unfold roundBegun
    rw [← calm.round]
  rw [exec_roundTimer calm.jobs due conn]
  refine congrArg Host.Outcome.next ((moment.begins_ends calm.round rfl (by rw [began]; exact slot) choice).trans ?_)
  rw [began]
  exact congrArg (fun c => setCounts (fun _ => 0) { u with cells := c }) ended

/-- The link recovered in NO-SERVICE, before its event: the monitor receiver's carrier is unknown (R57). -/
def linkRecovered (u : State) : State :=
  { u with link := { u.link with recovery := .stopped, unanswered := 0 }, cells := { u.cells with lastCarrier := none } }

theorem exec_linkReady_begins {e : Event} {r : Timer} (calm : Calm u) (conn : u.conn.state = .noService)
    (he : e = event u .radioRecovered .none (Job.code .link) 0 0 0 0)
    (slot : nextSlot (roundBegun u) .serving = some (n, first)) :
    exec .linkReady { u with link := { u.link with up := false, recovery := r } } =
      .next (startMeasure n first (eventPlaced e (roundBegun (linkRecovered u)))) := by
  have ready : exec .linkReady { u with link := { u.link with up := false, recovery := r } } =
      .next (settle (raise .link e { linkRecovered u with cells := { (linkRecovered u).cells with roundWaits := true } })) := by
    have up : ({ u.link with up := true, recovery := .stopped, unanswered := 0 } : Link) = (linkRecovered u).link := by
      unfold linkRecovered
      rw [← calm.up]
    refine (exec_linkReady_round (s := { u with link := { u.link with up := false, recovery := r } }) calm.jobs rfl conn).trans ?_
    subst he
    exact congrArg (fun l => Host.Outcome.next (settle (raise .link (event u .radioRecovered .none (Job.code .link) 0 0 0 0)
      { linkRecovered u with link := l, cells := { (linkRecovered u).cells with roundWaits := true } }))) up
  have loss : e.loss = false := by rw [he]; rfl
  have moment : RoundMoment u (eventPlaced e { linkRecovered u with
      cells := { (linkRecovered u).cells with roundWaits := true } }) :=
    calm.roundMoment (by simp [conn]) rfl rfl calm.up rfl rfl conn calm.phase rfl rfl
  have began : beginRound (eventPlaced e { linkRecovered u with cells := { (linkRecovered u).cells with roundWaits := true } }) =
      eventPlaced e (roundBegun (linkRecovered u)) := by
    have recovered : beginRound { linkRecovered u with cells := { (linkRecovered u).cells with roundWaits := true } } =
        roundBegun (linkRecovered u) := by
      have single : (linkRecovered u).cells.roundWaits = false := calm.noRound
      rw [beginRound_begun (by exact conn), ← single]
    rw [beginRound_eventPlaced, recovered]
  rw [ready, raise_near (by exact calm.near.quiet) (by exact calm.events) loss,
    moment.begins calm.round rfl (by rw [began]; exact slot), began]

theorem radioRequest_begins (calm : Calm u) (off : u.conn.state = .off) (alive : u.conn.shutdown = none)
    (slot : nextSlot (roundBegun (connWritten .noService u)) .serving = some (n, first)) :
    exec (.radioRequest 1) u = .next (startMeasure n first (roundBegun (connWritten .noService u))) := by
  have changed : setConn .noService u = connWritten .noService u := by
    rw [setConn_plain calm.jobs calm.mem calm.waits (calm.room' (by decide)) (by simp [off]), off]
    rfl
  have moment : RoundMoment u (wantRound (connWritten .noService u)) :=
    calm.roundMoment (by simp [off]) rfl rfl calm.up rfl rfl rfl calm.phase rfl rfl
  have began : beginRound (wantRound (connWritten .noService u)) = roundBegun (connWritten .noService u) := by
    have single : (connWritten .noService u).cells.roundWaits = false := calm.noRound
    rw [beginRound_begun rfl]
    unfold roundBegun wantRound
    rw [← single]
  rw [radioRequest_on calm.notice off alive, changed, moment.begins calm.round rfl (by rw [began]; exact slot), began]
end

end Sys2Proof.Machine

namespace Sys2Proof
open Machine

/-- Settles O40: the commands of a measurement and of a round's beginning in NO-SERVICE, then the operations one by one. -/
theorem measurement : Obligations.Measurement := by
  unfold Obligations.Measurement
  refine ⟨fun u n pos calm conn free => ⟨⟨fun clean => ?sent, fun residue => ?waits⟩, fun v o runs clean => ?answer⟩,
    fun u calm alive => ?rounds, fun u n v o calm conn runs => ⟨?settling, ?sampling⟩,
    fun s n first => ⟨fun tuned residue => ?held, fun tuned clean => ?asked, fun tunes => ?tuned⟩,
    fun s pos => ⟨fun n lead => ?lead, fun noLead => ⟨fun n fit least => ?fit, fun unfit => ?unfit⟩⟩,
    fun s k open_ conn phase => ?paced,
    fun x l f => ⟨addSample_samples x l f, rfl, miss_early, miss_third, filtered_none, filtered_mean⟩,
    fun s ok => ⟨fun n l => bestSlot_highest, bestSlot_none⟩, fun s b => rfl⟩
  case sent =>
    rw [exec_settleDelay (by exact calm.jobs) rfl]
    unfold enterSample
    rw [sendMeasure_request (n := n) rfl (by exact clean), if_pos ⟨calm.up, by exact congrArg Timer.runs free⟩]
    exact congrArg Host.Outcome.next
      (settle_resting (measuring_resting (u := u) calm.rest rfl rfl rfl ⟨pos, rfl⟩ (by simp)))
  case waits =>
    rw [exec_settleDelay (by exact calm.jobs) rfl]
    unfold enterSample
    rw [sendMeasure_residue (by exact residue)]
    exact congrArg Host.Outcome.next
      (settle_resting (measuring_resting (u := u) calm.rest rfl rfl rfl ⟨pos, rfl⟩ (by simp)))
  case answer =>
    intro s x' pos' t
    have off : u.conn.state ≠ .connected := by simp [conn]
    have link : ({ u.link with opMeasure := .stopped, askMeasure := none, unanswered := 0 } : Link) =
        { u.link with unanswered := 0, askMeasure := none } := by rw [← free]
    have cells : ({ u.cells with
        phase := .idle, measSlot := none, measFirst := false, measStray := false, paced := true, round := some pos' } : Cells) =
        { u.cells with measSlot := none, measFirst := false, measStray := false, paced := true, round := some pos' } := by
      rw [← calm.phase]
    have taken : exec (.measureDone v) s = .next (settle t) := by
      rw [exec_measureDone (by exact calm.open_) runs, measureOutcome_taken (n := n) (pos := pos) (by exact clean) rfl rfl rfl rfl rfl
        (by exact off) (by exact calm.mem) (by exact calm.waits) (by exact calm.room' (n := 1) (by decide))
        (by exact calm.cand)]
      exact congrArg₂ (fun l c => Host.Outcome.next (settle (slotWritten n x' { u with link := l, cells := c }))) link cells
    have moment : RoundMoment u t := calm.roundMoment off rfl rfl calm.up rfl rfl conn calm.phase rfl rfl
    exact ⟨fun m f slot => by rw [taken, moment.next rfl slot],
      fun slot choice => by
        rw [taken, moment.ends rfl calm.noRound slot choice]
        rfl⟩
  case rounds =>
    exact ⟨fun conn => ⟨fun due => ⟨fun n f => exec_roundTimer_begins calm conn due, exec_roundTimer_ends calm conn due⟩,
      exec_roundTimer_off, fun n f r => exec_linkReady_begins calm conn rfl⟩, fun off n f => radioRequest_begins calm off alive⟩
  case settling =>
    rw [exec_measureDone (by exact calm.open_) runs, measureOutcome_residue rfl, if_neg (by simp)]
    exact congrArg Host.Outcome.next
      (settle_resting (measuring_resting (u := u) calm.rest rfl rfl rfl ⟨.serving, rfl⟩ (by simp)))
  case sampling =>
    rw [exec_measureDone (by exact calm.open_) runs, measureOutcome_residue rfl, if_pos rfl,
      sendMeasure_request (n := n) rfl rfl, if_pos ⟨calm.up, rfl⟩]
    exact congrArg Host.Outcome.next
      (settle_resting (measuring_resting (u := u) calm.rest rfl rfl rfl ⟨.serving, rfl⟩ (by simp)))
  case held =>
    rw [startMeasure_tuned tuned, sendMeasure_residue (by exact residue)]
  case asked =>
    rw [startMeasure_tuned tuned, sendMeasure_request (n := n) rfl (by exact clean)]
  case tuned =>
    rw [startMeasure_tunes tunes]
    rfl
  case lead =>
    obtain ⟨rfl, held, serving, usable⟩ := lead
    exact nextSlot_lead ((servingFirst_iff _).2 held) serving usable
  case fit =>
    have passed : roundFits s pos n = true := roundFits_iff.2 fit
    have others : ∀ m < n, roundFits s pos m = false := fun m below =>
      Bool.eq_false_iff.2 fun h => least m below (roundFits_iff.1 h)
    rw [nextSlot_plain (noLead_unusable noLead), find_least passed others]
    rfl
  case unfit =>
    have none : (List.finRange 13).find? (roundFits s pos) = none :=
      List.find?_eq_none.2 fun n _ passed => unfit n (roundFits_iff.1 passed)
    rw [nextSlot_plain (noLead_unusable noLead), none]
    rfl
  case paced =>
    intro begun
    refine ⟨fun none paced => ?_, fun none free n f slot => ?_, fun pos n f round slot => ⟨fun paced => ?_, fun free => ?_⟩,
      fun pos round slot => pump_end open_ phase round slot⟩
    · exact pump_rest _ none (by rw [roundDue_connected conn, paced]; rfl)
    · rw [pump_begin open_ none (by rw [roundDue_connected conn, free]; rfl), beginRound_connected conn]
      exact pump_next (by exact open_) phase rfl slot ((heldBack_connected conn).trans free)
    · exact pumpRound_held open_ phase round slot ((heldBack_connected conn).trans paced)
    · exact pump_next open_ phase round slot ((heldBack_connected conn).trans free)

end Sys2Proof
end

section
/-! SUPPORT. Frame timers, the wake lines at a strobe, the strobe's frame activities and the uplink frame due (R47, R48, R62, R98, R146,
R148, R151, R180, R188 to R190). -/

namespace Sys2Proof.Machine

variable {s : State} {l : Fin 4} {pin : Bool} {pins : BitVec 4}

/-! ## Frame timers (R48) -/

theorem tick_running {n : Nat} (h : 1 < n) : Timer.tick (.running n) = .running (n - 1) := if_neg (Nat.not_le.2 h)

theorem tick_last {n : Nat} (h : n ≤ 1) : Timer.tick (.running n) = .due := if_pos h

theorem ticks_running {n : Nat} (h : 0 < n) (k : Nat) :
    (Timer.tick^[k]) (.running n) = if k < n then .running (n - k) else .due := by
  induction k with
  | zero => simp [h]
  | succ k ih =>
    rw [Function.iterate_succ_apply', ih]
    by_cases more : k + 1 < n
    · rw [if_pos (by omega), if_pos more, tick_running (by omega), Nat.sub_sub]
    · rw [if_neg more]
      split
      · exact tick_last (by omega)
      · rfl

theorem ticks_stopped (k : Nat) : (Timer.tick^[k]) .stopped = .stopped := Function.iterate_fixed rfl k

/-! ## The wake lines (R188 to R190) -/

/-- A wake line replaced. -/
def withLine (l : Fin 4) (x : WakeLine) (s : State) : State := { s with sleep := { s.sleep with lines := s.sleep.lines.set l x } }

/-- An edge that is no active one cancels the long-press timer of the power line (R189, R190). -/
def pressEnded (l : Fin 4) (s : State) : State :=
  if l = 0 then { s with sleep := { s.sleep with longPress := .stopped } } else s

theorem withLine_get (x : WakeLine) : (withLine l x s).sleep.lines[l] = x := by simp [withLine]

theorem withLine_withLine (x y : WakeLine) : withLine l y (withLine l x s) = withLine l y s := by simp [withLine]

/-- A line changed by a function is the line replaced by its value. -/
theorem setLine_eq (f : WakeLine → WakeLine) : { s with sleep := setLine l f s.sleep } = withLine l (f s.sleep.lines[l]) s := rfl

theorem pressEnded_val (s : State) :
    (if l.val = 0 then { s with sleep := { s.sleep with longPress := .stopped } } else s) = pressEnded l s :=
  if_congr (Fin.ext_iff (b := 0)).symm rfl rfl

theorem invertLine_eq : invertLine l s = notePlan .sleep s (pressEnded l (withLine l
    { s.sleep.lines[l] with active := !(s.sleep.lines[l]).active, change := 0 } s)) :=
  congrArg (notePlan .sleep s) (pressEnded_val _)

theorem inactiveEdge_eq : inactiveEdge l s = notePlan .sleep s (pressEnded l (withLine l
    { s.sleep.lines[l] with active := false, change := 0 } s)) :=
  congrArg (notePlan .sleep s) (pressEnded_val _)

/-- The line as a strobe finds it, before its sample is compared (R188). -/
def sampled (x : WakeLine) (pin : Bool) : WakeLine :=
  { x with raw := pin, polIn := x.activeLow, filtIn := x.filter, change := if x.filter = x.filtIn then x.change else 0 }

theorem sampled_eq (x : WakeLine) (pin : Bool) : ({ x with
    raw := pin, polIn := x.activeLow, filtIn := x.filter, change := if x.filter != x.filtIn then 0 else x.change } : WakeLine) =
    sampled x pin := by
  unfold sampled
  by_cases same : x.filter = x.filtIn <;> simp [same]

theorem sense (low pin : Bool) : (if low then !pin else pin) = (pin != low) := by cases low <;> cases pin <;> rfl

/-- A pin sampled against its line: an inversion, no change, a first sample of a filtered change, or an edge (R188). -/
theorem sampleLine_eq : sampleLine l pin s =
    (let x := s.sleep.lines[l]
     let y := sampled x pin
     if x.activeLow ≠ x.polIn then
       notePlan .sleep (withLine l y s) (pressEnded l (withLine l { y with active := !x.active, change := 0 } s))
     else if (pin != x.activeLow) = x.active then withLine l { y with change := 0 } s
     else if x.filter = true ∧ y.change = 0 then withLine l { y with change := 1 } s
     else if (pin != x.activeLow) = true then activeEdge l (withLine l y s)
     else notePlan .sleep (withLine l y s) (pressEnded l (withLine l { y with active := false, change := 0 } s))) := by
  obtain ⟨x, hx⟩ : ∃ x, x = s.sleep.lines[l] := ⟨_, rfl⟩
  obtain ⟨y, hy⟩ : ∃ y, y = sampled x pin := ⟨_, rfl⟩
  have raw : sampleLine l pin s =
      (if x.activeLow != x.polIn then invertLine l (withLine l y s)
       else if (if x.activeLow then !pin else pin) = y.active then
         withLine l { (withLine l y s).sleep.lines[l] with change := 0 } (withLine l y s)
       else if y.filter && y.change == 0 then
         withLine l { (withLine l y s).sleep.lines[l] with change := 1 } (withLine l y s)
       else if (if x.activeLow then !pin else pin) then activeEdge l (withLine l y s)
       else inactiveEdge l (withLine l y s)) := by
    rw [hy, ← sampled_eq, hx]
    rfl
  have same : y.active = x.active := by rw [hy]; rfl
  have filter : y.filter = x.filter := by rw [hy]; rfl
  rw [raw, invertLine_eq, inactiveEdge_eq, withLine_get, sense, same, filter]
  simp only [withLine_withLine, bne_iff_ne, Bool.and_eq_true, beq_iff_eq, same, ← hx, ← hy]

theorem activeEdge_eq : activeEdge l s = if jobsRun s = true then
      (let t := notePlan .sleep s (withLine l { s.sleep.lines[l] with active := true, change := 0, flag := true } s)
       let on := (t.sleep.lines[l]).enable
       let u := raise .sleep (event t .line (if on then .primary else .none) Kind.plan.code (BitVec.ofNat 16 l.val) 1 0 0)
         { t with sleep := { t.sleep with lineSince := true } }
       lineDuty l (if on then primaryCause .line l.val u else u))
    else withLine l { s.sleep.lines[l] with active := true, change := 0 } s := by
  obtain ⟨on, hon⟩ : ∃ on : WakeLine, on = { s.sleep.lines[l] with active := true, change := 0 } := ⟨_, rfl⟩
  have raw : activeEdge l s = if jobsRun s then
      lineDuty l (raiseLine l 1 (notePlan .sleep s
        (withLine l { (withLine l on s).sleep.lines[l] with flag := true } (withLine l on s))))
      else withLine l on s := by
    rw [hon]
    rfl
  rw [raw, withLine_get, withLine_withLine, hon]
  rfl

/-! ## The uplink frame due (R146, R148, R151) -/

theorem uplinkDue_none (h : s.speech.speaking = none ∨ s.frame.toNat % 2 = 1) : uplinkDue s = s := by
  unfold uplinkDue
  rw [if_pos]
  rcases h with silent | odd
  · simp [silent]
  · simp [BitVec.getLsbD, Nat.testBit_zero, odd]

theorem even_frame {f : FrameNo} (h : f.toNat % 2 = 0) : f.getLsbD 0 = false := by
  simp [BitVec.getLsbD, Nat.testBit_zero, h]

theorem upOccupancy_zero {p : Speech} : upOccupancy p = 0 ↔ p.upProd = p.upCons := by
  unfold upOccupancy occupancy
  bv_omega

/-- A frame due that neither an odd frame nor an idle uplink withholds. -/
theorem uplinkDue_due (speaks : s.speech.speaking ≠ none) (even : s.frame.toNat % 2 = 0) : uplinkDue s =
    if s.speech.switchOn then speechGap s
    else if s.conn.state != .connected || !s.link.up then s
    else if s.speech.fetch != .idle then sendSpeech silence { s with speech := { s.speech with fetch := .late } }
    else if upOccupancy s.speech = 0 || headerWaits s then sendSpeech silence s
    else placeFetch s := by
  refine if_neg ?_
  rw [even_frame even, Bool.or_false, Option.isNone_iff_eq_none]
  exact speaks

theorem countGap_speaking {r : Fin 4} (h : s.speech.speaking = some r) :
    countGap s = setRec r (fun c => { c with gaps := min 65535 (c.gaps + 1) }) s := by
  unfold countGap
  rw [h]

theorem advanceUp_speaking : (advanceUp s).speech.speaking = s.speech.speaking := by simp [advanceUp]

theorem speechGap_speaking {r : Fin 4} (h : s.speech.speaking = some r) : speechGap s =
    setRec r (fun c => { c with gaps := min 65535 (c.gaps + 1) }) (if s.speech.upProd = s.speech.upCons then s else advanceUp s) := by
  unfold speechGap
  rw [if_congr upOccupancy_zero rfl rfl]
  refine countGap_speaking ?_
  split
  · exact h
  · exact advanceUp_speaking.trans h

theorem sendSpeech_up {frame : List Byte} (up : s.link.up = true) :
    sendSpeech frame s = activity { s with out := { s.out with link := s.out.link ++ [.sendSpeech frame] } } :=
  congrArg activity (send_up up)

section
variable (speaks : s.speech.speaking ≠ none) (even : s.frame.toNat % 2 = 0)
include speaks even

theorem uplinkDue_switch (on : s.speech.switchOn = true) : uplinkDue s = speechGap s := by
  rw [uplinkDue_due speaks even, if_pos on]

variable (off : s.speech.switchOn = false)
include off

theorem uplinkDue_unconnected (out : s.conn.state ≠ .connected ∨ s.link.up = false) : uplinkDue s = s := by
  rw [uplinkDue_due speaks even, if_neg (by simp [off]), if_pos (by simpa using out)]

variable (on : s.conn.state = .connected) (up : s.link.up = true)
include on up

theorem uplinkDue_connected : uplinkDue s =
    if s.speech.fetch != .idle then sendSpeech silence { s with speech := { s.speech with fetch := .late } }
    else if upOccupancy s.speech = 0 || headerWaits s then sendSpeech silence s
    else placeFetch s := by
  rw [uplinkDue_due speaks even, if_neg (by simp [off]), if_neg (by simp [on, up])]

theorem uplinkDue_late (busy : s.speech.fetch ≠ .idle) :
    uplinkDue s = { activity { s with out := { s.out with link := s.out.link ++ [.sendSpeech silence] } } with
      speech := { s.speech with fetch := .late } } := by
  rw [uplinkDue_connected speaks even off on up, if_pos (bne_iff_ne.2 busy)]
  exact (sendSpeech_up (s := { s with speech := { s.speech with fetch := .late } }) up).trans (activity_speech
    { s.speech with fetch := .late } { s with out := { s.out with link := s.out.link ++ [.sendSpeech silence] } })

variable (idle : s.speech.fetch = .idle)
include idle

theorem uplinkDue_silence (empty : s.speech.upProd = s.speech.upCons ∨ headerWaits s = true) :
    uplinkDue s = activity { s with out := { s.out with link := s.out.link ++ [.sendSpeech silence] } } := by
  rw [uplinkDue_connected speaks even off on up, if_neg (by simp [idle]), if_pos (by simpa [upOccupancy_zero] using empty),
    sendSpeech_up up]

theorem uplinkDue_fetch (waits : s.speech.upProd ≠ s.speech.upCons) (clear : headerWaits s = false) :
    uplinkDue s = placeFetch s := by
  rw [uplinkDue_connected speaks even off on up, if_neg (by simp [idle]), if_neg (by simp [upOccupancy_zero, waits, clear])]

end

/-! ## A strobe's frame activities (R47, R62, R98, R180) -/

/-- The state a strobe leaves its timers and its frame number in. -/
def ticked (s : State) : State := tickTimers { s with frame := s.frame + 1 }

/-- The frame activities are no longer paced (R98). -/
def unpaced (s : State) : State := { s with cells := { s.cells with paced := false } }

theorem strobe_reset (h : s.resetPhase ≠ .idle) : exec (.frameStrobe pins) s = .next { s with frame := s.frame + 1 } := if_pos h

theorem strobe_held (idle : s.resetPhase = .idle) (held : s.resetN = true) : exec (.frameStrobe pins) s = .next s :=
  (if_neg (not_not.2 idle)).trans (runIf_off _ _ (by simp [held]))

theorem open_of_jobs (h : jobsRun s = true) : portOpen s = true := by
  simp only [jobsRun, Bool.and_eq_true] at h
  exact h.1.1

/-- With the wake lines still a strobe ticks, and the jobs do their frame activities. -/
theorem strobe_still (opened : portOpen s = true) (still : LinesStill pins s) : exec (.frameStrobe pins) s = .next (settle (
    if jobsRun (ticked s) then frameWork (ticked s) else ticked s)) := by
  have lines : sampleLines pins (ticked s) = ticked s := lines_still (by exact still)
  rw [strobe_exec opened]
  exact congrArg (fun u => Host.Outcome.next (settle (if jobsRun u then frameWork u else u))) lines

theorem strobe_jobless (opened : portOpen s = true) (jobless : jobsRun s = false) (rest : Resting s) (still : LinesStill pins s) :
    exec (.frameStrobe pins) s = .next (ticked s) := by
  have still_jobless : jobsRun (ticked s) = false := jobless
  rw [strobe_still opened still, if_neg (by simp [still_jobless])]
  exact congrArg Host.Outcome.next (settle_resting (tick_resting (by exact rest)))

/-- A LISTEN requested, where a listening processor keeps the slot (R62, R180). -/
def listened (s : State) : State :=
  if listening s && listenSlot s (s.frame + 1) then
    let f := LinkFrame.listen (s.frame + 1) ((s.bind.captured.map (·.identity)).getD 0)
    { s with
      link := { s.link with opListen := .running 2, askListen := some f }
      out := { s.out with link := s.out.link ++ [f] } }
  else s

theorem sendListen_eq : sendListen s = listened s := by
  unfold sendListen listened
  by_cases due : (listening s && listenSlot s (s.frame + 1)) = true
  · rw [if_pos due, if_pos due]
    have clear : (s.link.up && !(s.link.op .listen).runs) = true := by
      simp only [listening, Bool.and_eq_true] at due
      exact Bool.and_eq_true_iff.2 ⟨due.1.1.1.2, due.1.1.2⟩
    exact if_pos clear
  · rw [if_neg due, if_neg due]

/-- Nothing that a LISTEN changes is looked at by the end of a moment. -/
theorem listened_resting (rest : Resting s) : Resting (listened s) := by
  unfold listened
  split
  · exact rest
  · exact rest

/-- Without a connection the pace of the rounds withholds nothing (R98). -/
theorem unpaced_resting (off : s.conn.state ≠ .connected) (rest : Resting s) : Resting (unpaced s) := by
  have due : roundDue (unpaced s) = roundDue s := by
    unfold roundDue
    rw [if_neg off]
    exact if_neg off
  obtain ⟨quiet, others⟩ := rest
  refine ⟨?_, others⟩
  rw [← quiet]
  unfold steady
  rw [due]
  rfl

theorem frameWork_silent (silent : s.speech.speaking = none) : frameWork s = listened (unpaced s) := by
  have still : (sendListen s).speech.speaking = none := by
    rw [sendListen_eq, listened]
    split
    · exact silent
    · exact silent
  unfold frameWork
  rw [uplinkDue_none (.inl still), sendListen_eq]
  unfold listened
  by_cases due : (listening s && listenSlot s (s.frame + 1)) = true
  · rw [if_pos due]
    exact (if_pos due).symm
  · rw [if_neg due]
    exact (if_neg due).symm

theorem strobe_working (runs : jobsRun s = true) (rest : Resting s) (still : LinesStill pins s) (off : s.conn.state ≠ .connected)
    (silent : s.speech.speaking = none) : exec (.frameStrobe pins) s = .next (listened (unpaced (ticked s))) := by
  have still_runs : jobsRun (ticked s) = true := runs
  have calm : Resting (unpaced (ticked s)) := unpaced_resting (by exact off) (tick_resting (by exact rest))
  rw [strobe_still (open_of_jobs runs) still, if_pos still_runs, frameWork_silent (by exact silent)]
  exact congrArg Host.Outcome.next (settle_resting (listened_resting calm))


/-! ## The four lines' duties (R139, R189, R190) -/

theorem lineDuty_power : lineDuty 0 s = { s with sleep := { s.sleep with longPress := .running 600 } } := rfl

theorem lineDuty_card : lineDuty 1 s = lineShutdown .card s := rfl

theorem lineDuty_accessory : lineDuty 2 s = if s.sleep.answerMap then accessoryAnswer s else s := rfl

theorem lineDuty_charger : lineDuty 3 s = notePlan .sleep s { s with sleep := baseCycle s.sleep } := rfl

end Sys2Proof.Machine

namespace Sys2Proof
open Machine

/-- Settles O13: a timer's strobes by induction on their number, then a strobe as its ticks, its samples and its frame activities;
with still lines the samples leave all as it is, and the state they leave rests. -/
theorem frameTime : Obligations.FrameTime := by
  unfold Obligations.FrameTime
  refine ⟨⟨fun n k positive => ticks_running positive k, ticks_stopped⟩, fun s => rfl,
    ⟨fun s pins => strobe_reset, fun s pins => strobe_held, ?strobe, ?jobless, ?working⟩,
    fun s l => ⟨?sample, ?edge, ?power, ?card, ?accessory, ?charger⟩,
    fun s => ⟨?none, fun speaks even => ⟨?gap, fun off => ⟨?unconnected, fun on up => ⟨?late, ?silence, ?fetch⟩⟩⟩⟩⟩
  case strobe =>
    intro s pins opened
    rw [strobe_exec opened]
    unfold frameStrobe sampleLines
    generalize List.foldl _ (tickTimers _) (List.finRange 4) = t
    rfl
  case jobless => exact fun s pins => strobe_jobless
  case working => exact fun s pins => strobe_working
  case sample => exact fun pin => sampleLine_eq
  case edge => exact activeEdge_eq
  case none => exact uplinkDue_none
  case unconnected => exact uplinkDue_unconnected speaks even off
  case late => exact uplinkDue_late speaks even off on up
  case silence => exact uplinkDue_silence speaks even off on up
  case fetch => exact uplinkDue_fetch speaks even off on up
  case power => rintro rfl; exact lineDuty_power
  case card => rintro rfl; exact lineDuty_card
  case accessory => rintro rfl; exact lineDuty_accessory
  case charger => rintro rfl; exact lineDuty_charger
  case gap =>
    intro r speaking switching
    rw [uplinkDue_switch speaks even switching]
    exact speechGap_speaking speaking

end Sys2Proof
end

section
/-! SUPPORT. The parameters of the plan record, in range and out of range (R14, R67, R103, R172). -/

namespace Sys2Proof.Machine

variable {s : State} {v : Half}

/-! ## The values of a range -/

theorem natIn_in {lo hi n : Nat} (low : lo ≤ n) (high : n ≤ hi) : natIn lo hi n = some n := if_pos ⟨low, high⟩

theorem natIn_out {lo hi n : Nat} (out : n < lo ∨ hi < n) : natIn lo hi n = none := if_neg (by omega)

theorem levelIn_in (low : -140 ≤ v.toInt) (high : v.toInt ≤ -30) : levelIn v = some v.toInt := if_pos ⟨low, high⟩

theorem levelIn_out (out : v.toInt < -140 ∨ -30 < v.toInt) : levelIn v = none := if_neg (by omega)

theorem cycleIn_in (h : v.toNat = 64 ∨ v.toNat = 128 ∨ v.toNat = 256 ∨ v.toNat = 512) : cycleIn v = some v.toNat := if_pos h

theorem cycleIn_out (out : v.toNat ∉ [64, 128, 256, 512]) : cycleIn v = none := if_neg (by simpa using out)

theorem boolOf_out {n : Nat} (out : 1 < n) : boolOf n = none := by
  unfold boolOf
  rw [if_neg (by omega), if_neg (by omega)]

/-! ## The parameters of the connection and mobility controllers -/

theorem exec_connectionParameter_taken {p : ConnParam} {c : Conn} (calm : Calm s) (h : takeConnParam p v s.conn = some c)
    (rest : Resting { s with conn := c }) : exec (.connectionParameter p v) s = .next { s with conn := c } :=
  runIf_settle _ calm.notice (by rw [connectionParameter, h]; exact settle_resting rest)

theorem exec_connectionParameter_ignored {p : ConnParam} (calm : Calm s) (h : takeConnParam p v s.conn = none) :
    exec (.connectionParameter p v) s = .next (eventPlaced (configIgnored s .plan 0 (ConnParam.offset p)) s) :=
  runIf_settle _ calm.notice (by rw [connectionParameter, h]; exact ignore_placed calm.rest calm.events)

/-- The handover margin is compared anew at once (R104), which outside CONNECTED begins and ends no candidate. -/
theorem exec_mobilityParameter_taken {p : MobParam} {m : Mob} (calm : Calm s) (h : takeMobParam p v s.mob = some m)
    (off : p = .handoverMargin → s.conn.state ≠ .connected) :
    exec (.mobilityParameter p v) s = .next { s with mob := m } := by
  refine runIf_settle _ calm.notice ?_
  rw [mobilityParameter, h]
  dsimp only
  split
  · next margin =>
    rw [evaluate_off (by exact off margin) (by exact calm.cand)]
    exact settle_resting calm.rest
  · exact settle_resting calm.rest

theorem exec_mobilityParameter_ignored {p : MobParam} (calm : Calm s) (h : takeMobParam p v s.mob = none) :
    exec (.mobilityParameter p v) s = .next (eventPlaced (configIgnored s .plan 0 (MobParam.offset p)) s) :=
  runIf_settle _ calm.notice (by rw [mobilityParameter, h]; exact ignore_placed calm.rest calm.events)

/-! ## The parameters of the sleep controller -/

theorem exec_sleepParameter_ignored {q : SleepParam} (calm : Calm s) (h : takeSleepParam q v s.sleep = none) :
    exec (.sleepParameter q v) s = .next (eventPlaced (configIgnored s .plan 0 (SleepParam.offset q)) s) :=
  runIf_settle _ calm.notice (by rw [sleepParameter, h]; exact ignore_placed calm.rest calm.events)

/-- A parameter that shows in no field of the plan record is taken without a write. -/
theorem exec_sleepParameter_silent {q : SleepParam} {p : Sleep} (calm : Calm s) (h : takeSleepParam q v s.sleep = some p)
    (flags : planFields0 s = planFields0 { s with sleep := p }) (status : planFields1 s = planFields1 { s with sleep := p })
    (rest : Resting { s with sleep := p }) : exec (.sleepParameter q v) s = .next { s with sleep := p } := by
  refine runIf_settle _ calm.notice ?_
  rw [sleepParameter, h]
  dsimp only
  rw [notePlan_none _ _ flags status, settle_resting rest]

/-- A wake line's parameters show in none of its fields. -/
theorem exec_sleepParameter_line {q : SleepParam} {l : Fin 4} {f : WakeLine → WakeLine} (calm : Calm s)
    (h : takeSleepParam q v s.sleep = some (setLine l f s.sleep)) (flag : ∀ x, (f x).flag = x.flag)
    (active : ∀ x, (f x).active = x.active) : exec (.sleepParameter q v) s =
    .next { s with sleep := { s.sleep with lines := s.sleep.lines.set l (f s.sleep.lines[l]) } } :=
  exec_sleepParameter_silent calm h (lines_set_still (flag _) (active _)) rfl (resting_lines _ calm.rest)

theorem le16_injective {a b : Half} (h : le16 a = le16 b) : a = b := by
  have back : ∀ x : Half, halfOf (le16 x) 0 = x := fun x => by simpa using halfOf_le16 x [] [] rfl
  rw [← back a, h, back b]

/-- The write that a change of the listen cycle alone makes. -/
theorem changedBytes_cycle {t : State} (area : t.conn = s.conn) (level : t.sleep.level = s.sleep.level)
    (cause : t.sleep.wakeCause = s.sleep.wakeCause) (line : t.sleep.wakeLine = s.sleep.wakeLine)
    (last : t.sleep.last = s.sleep.last) : changedBytes (planFields1 s) (planFields1 t) =
    if BitVec.ofNat 16 s.sleep.cycle = BitVec.ofNat 16 t.sleep.cycle then []
    else bytesAt 0x12 (le16 (BitVec.ofNat 16 t.sleep.cycle)) := by
  unfold changedBytes planFields1
  rw [area, level, cause, line, last]
  by_cases h : BitVec.ofNat 16 s.sleep.cycle = BitVec.ofNat 16 t.sleep.cycle
  · rw [if_pos h, h]
    simp [fieldBytes]
  · rw [if_neg h]
    have bytes : le16 (BitVec.ofNat 16 t.sleep.cycle) ≠ le16 (BitVec.ofNat 16 s.sleep.cycle) := fun e => h (le16_injective e).symm
    simp [bytes, fieldBytes]

/-- A new listen cycle is written where it differs from the one in force (R66, R172, R174). -/
theorem notePlan_cycle {j : Job} {p : Sleep} (calm : Calm s) (lines : p.lines = s.sleep.lines) (level : p.level = s.sleep.level)
    (cause : p.wakeCause = s.sleep.wakeCause) (line : p.wakeLine = s.sleep.wakeLine) (last : p.last = s.sleep.last) :
    notePlan j s { s with sleep := p } =
      if BitVec.ofNat 16 s.sleep.cycle = BitVec.ofNat 16 p.cycle then { s with sleep := p }
      else joinWrite (writeAt s .plan 1 (bytesAt 0x12 (le16 (BitVec.ofNat 16 p.cycle)))) { s with sleep := p } := by
  have flags : planFields0 s = planFields0 { s with sleep := p } := by unfold planFields0; rw [lines]
  have memory : memoryAvailable { s with sleep := p } = true := by simp [memoryAvailable, level, calm.awake]
  have bytes := changedBytes_cycle (s := s) (t := { s with sleep := p }) rfl level cause line last
  rw [notePlan_wrote (by exact calm.jobs) memory flags (by exact calm.waits) (by exact calm.room' (n := 1) (by decide)), bytes]
  split <;> rfl

/-- A new base takes the listen cycle with it (R172). -/
theorem exec_sleepParameter_base (calm : Calm s) (h : v.toNat = 64 ∨ v.toNat = 128 ∨ v.toNat = 256 ∨ v.toNat = 512) :
    exec (.sleepParameter .base v) s = .next (
      let t := { s with sleep := { s.sleep with base := v.toNat, cycle := v.toNat, quiet := 0 } }
      if BitVec.ofNat 16 s.sleep.cycle = v then t
      else joinWrite (writeAt s .plan 1 [(0x12, v.extractLsb' 0 8), (0x13, v.extractLsb' 8 8)]) t) := by
  have value : BitVec.ofNat 16 v.toNat = v := by simp
  have taken : takeSleepParam .base v s.sleep = some (takeBase v.toNat s.sleep) := by simp [takeSleepParam, cycleIn_in h]
  have rest : Resting { s with sleep := takeBase v.toNat s.sleep } :=
    sleep_resting calm.rest _ rfl calm.rest.2.2.2.2.2.2.1 (by simp [takeBase, calm.awake])
  refine runIf_settle _ calm.notice ?_
  rw [sleepParameter, taken]
  dsimp only
  rw [notePlan_cycle (p := takeBase v.toNat s.sleep) calm rfl rfl rfl rfl rfl,
    show (takeBase v.toNat s.sleep).cycle = v.toNat from rfl, value]
  split
  · exact settle_resting rest
  · exact settle_resting (joinWrite_resting rest)

/-- A ceiling cuts no cycle that stands at its base (R172). -/
theorem exec_sleepParameter_ceiling (calm : Calm s) (h : v.toNat = 64 ∨ v.toNat = 128 ∨ v.toNat = 256 ∨ v.toNat = 512) :
    exec (.sleepParameter .ceiling v) s = .next { s with sleep := { s.sleep with ceiling := v.toNat } } := by
  have uncut : ¬ max s.sleep.base v.toNat < s.sleep.cycle := by rw [calm.cycle]; omega
  have taken : takeCeiling v.toNat s.sleep = { s.sleep with ceiling := v.toNat } := if_neg uncut
  exact exec_sleepParameter_silent calm (by simp [takeSleepParam, cycleIn_in h, taken]) rfl rfl
    (sleep_resting calm.rest _ rfl calm.rest.2.2.2.2.2.2.1 (by simp [calm.awake]))

end Sys2Proof.Machine
namespace Sys2Proof
open Machine

/-- Settles O34: by whether the value lies in the parameter's range. -/
theorem parameters : Obligations.Parameters := by
  unfold Obligations.Parameters
  refine ⟨fun s calm => ⟨?inactivity, ?thresholds, ?margin, ?hold, ?reselect, ?rounds, ?cycles, ?lines⟩,
    fun s v calm => ⟨?_, ?_, ?_, ?_, ?_, ?_, ?_⟩⟩
  case inactivity =>
    intro v low high
    exact exec_connectionParameter_taken calm (by simp [takeConnParam, natIn_in low high]) calm.rest
  case thresholds =>
    intro v low high
    exact ⟨exec_connectionParameter_taken calm (by simp [takeConnParam, levelIn_in low high]) calm.rest,
      exec_connectionParameter_taken calm (by simp [takeConnParam, levelIn_in low high]) calm.rest⟩
  case margin =>
    intro v high off
    exact exec_mobilityParameter_taken calm (by simp [takeMobParam, natIn_in (Nat.zero_le _) high]) (fun _ => off)
  case hold =>
    intro v low high
    exact exec_mobilityParameter_taken calm (by simp [takeMobParam, natIn_in low high]) (by simp)
  case reselect =>
    intro v high
    exact exec_mobilityParameter_taken calm (by simp [takeMobParam, natIn_in (Nat.zero_le _) high]) (by simp)
  case rounds =>
    intro v low high
    exact exec_mobilityParameter_taken calm (by simp [takeMobParam, natIn_in low high]) (by simp)
  case cycles => exact fun v h => ⟨exec_sleepParameter_base calm h, exec_sleepParameter_ceiling calm h⟩
  case lines =>
    intro l v bit
    have value := boolOf_bit true v bit
    refine ⟨?_, ?_, ?_, ?_, ?_⟩
    · exact exec_sleepParameter_line (f := fun x => { x with enable := v == 1 }) calm (by simp [takeSleepParam, value])
        (fun _ => rfl) (fun _ => rfl)
    · exact exec_sleepParameter_line (f := fun x => { x with activeLow := v == 1 }) calm (by simp [takeSleepParam, value])
        (fun _ => rfl) (fun _ => rfl)
    · exact exec_sleepParameter_line (f := fun x => { x with edgeLevel := v == 1 }) calm (by simp [takeSleepParam, value])
        (fun _ => rfl) (fun _ => rfl)
    · exact exec_sleepParameter_line (f := fun x => { x with filter := v == 1 }) calm (by simp [takeSleepParam, value])
        (fun _ => rfl) (fun _ => rfl)
    · exact exec_sleepParameter_silent calm (by simp [takeSleepParam, value]) rfl rfl
        (sleep_resting calm.rest _ rfl calm.rest.2.2.2.2.2.2.1 (by simp [calm.awake]))
  · exact fun out => exec_connectionParameter_ignored calm (by simp [takeConnParam, natIn_out out])
  · exact fun out => ⟨exec_connectionParameter_ignored calm (by simp [takeConnParam, levelIn_out out]),
      exec_connectionParameter_ignored calm (by simp [takeConnParam, levelIn_out out])⟩
  · exact fun out => ⟨exec_mobilityParameter_ignored calm (by simp [takeMobParam, natIn_out (.inr out)]),
      exec_mobilityParameter_ignored calm (by simp [takeMobParam, natIn_out (.inr out)])⟩
  · exact fun out => exec_mobilityParameter_ignored calm (by simp [takeMobParam, natIn_out out])
  · exact fun out => exec_mobilityParameter_ignored calm (by simp [takeMobParam, natIn_out out])
  · exact fun out => ⟨exec_sleepParameter_ignored calm (by simp [takeSleepParam, cycleIn_out out]),
      exec_sleepParameter_ignored calm (by simp [takeSleepParam, cycleIn_out out])⟩
  · intro out l
    have none := boolOf_out out
    exact ⟨exec_sleepParameter_ignored calm (by simp [takeSleepParam, none]),
      exec_sleepParameter_ignored calm (by simp [takeSleepParam, none]),
      exec_sleepParameter_ignored calm (by simp [takeSleepParam, none]),
      exec_sleepParameter_ignored calm (by simp [takeSleepParam, none]),
      exec_sleepParameter_ignored calm (by simp [takeSleepParam, none])⟩

end Sys2Proof
end

section
/-! SUPPORT. The outcomes of a listen slot (R98, R180 to R182). -/

namespace Sys2Proof.Machine

variable {s u : State}

/-! ## The quiet-cycle count (R181) -/

/-- The charger has been present since the last listen slot (R189). -/
def chargerSeen (s : State) : Prop := s.sleep.lineSince = true ∨ (s.sleep.lines[(3 : Fin 4)]).active = true

/-- The sleep controller with the quiet-cycle count given. -/
def withQuiet (n : Nat) (s : State) : State := { s with sleep := { s.sleep with quiet := n } }

theorem notePlan_quiet (n : Nat) (s : State) : notePlan .sleep s (withQuiet n s) = withQuiet n s := notePlan_none _ _ rfl rfl

theorem quietCycle_charger (h : chargerSeen s) : quietCycle s = withQuiet 0 s := by
  have zero : (s.sleep.lineSince || (s.sleep.lines[(3 : Fin 4)]).active) = true := by simpa [chargerSeen] using h
  unfold quietCycle
  dsimp only
  rw [if_pos zero]
  exact notePlan_quiet 0 s

/-- Without the charger, by the count that the NO-PAGE makes. -/
theorem quietCycle_counted (h : ¬ chargerSeen s) : quietCycle s =
    if s.sleep.quiet < 15 then withQuiet (s.sleep.quiet + 1) s
    else if s.sleep.cycle < effectiveCeiling s then
      notePlan .sleep s { s with sleep := { s.sleep with quiet := 0, cycle := 2 * s.sleep.cycle } }
    else withQuiet 0 s := by
  have one : (s.sleep.lineSince || (s.sleep.lines[(3 : Fin 4)]).active) = false := by simpa [chargerSeen] using h
  unfold quietCycle
  simp only [one, Bool.false_eq_true, if_false, show s.sleep.quiet + 1 < 16 ↔ s.sleep.quiet < 15 by omega]
  split
  · exact notePlan_quiet _ s
  · split
    · rfl
    · exact notePlan_quiet 0 s

/-- The sixteenth NO-PAGE in a row doubles a cycle below the ceiling, and the new cycle is written. -/
theorem quietCycle_stretch (calm : Calm s) (h : ¬ chargerSeen s) (many : 15 ≤ s.sleep.quiet)
    (low : s.sleep.base < effectiveCeiling s) (base : s.sleep.base ∈ [64, 128, 256]) : quietCycle s =
    joinWrite (writeAt s .plan 1 (bytesAt 0x12 (le16 (BitVec.ofNat 16 (2 * s.sleep.base)))))
      { s with sleep := { s.sleep with quiet := 0, cycle := 2 * s.sleep.base } } := by
  have new : BitVec.ofNat 16 s.sleep.cycle ≠ BitVec.ofNat 16 (2 * s.sleep.base) := by
    rw [calm.cycle]
    simp only [List.mem_cons, List.not_mem_nil, or_false] at base
    rcases base with h | h | h <;> rw [h] <;> decide
  rw [quietCycle_counted h, if_neg (by omega), calm.cycle, if_pos low]
  exact (notePlan_cycle (p := { s.sleep with quiet := 0, cycle := 2 * s.sleep.base }) calm rfl rfl rfl rfl rfl).trans (if_neg new)

/-! ## The outcome (R98, R180) -/

theorem listenOutcome_off {x : Option ListenOutcome} (h : s.conn.state = .off) : listenOutcome x s = s := if_pos h

/-- What an outcome makes, but for the mark of a LINE event and the round (R181, R182). -/
def outcomeHeard (x : Option ListenOutcome) (s : State) : State :=
  match x with
  | some .noPage => quietCycle s
  | some .pageCall => addPurpose .callIn (primaryCause .pageCall 0 s)
  | some .pageText =>
    let w := rouse (addPurpose .textIn s)
    notePlan .sleep w { w with sleep := { w.sleep with cycle := w.sleep.base, quiet := 0 } }
  | none => s

/-- The mark of a LINE event cleared. -/
def unmarked (s : State) : State := { s with sleep := { s.sleep with lineSince := false } }

/-- The mark of a LINE event goes with every outcome, and in CAMPED and CONNECTING a round is due. -/
theorem listenOutcome_on {x : Option ListenOutcome} (on : s.conn.state ≠ .off) : listenOutcome x s =
    let w := unmarked (outcomeHeard x s)
    if w.conn.state = .camped ∨ w.conn.state = .connecting then wantRound w else w := by
  have due : ∀ w : State, (match w.conn.state with
      | .camped | .connecting => wantRound w
      | _ => w) = if w.conn.state = .camped ∨ w.conn.state = .connecting then wantRound w else w := by
    intro w
    cases w.conn.state <;> rfl
  exact (if_neg on).trans (due (unmarked (outcomeHeard x s)))

/-- In NO-SERVICE no round follows. -/
theorem listenOutcome_noService {x : Option ListenOutcome} {w : State} (h : s.conn.state = .noService)
    (heard : outcomeHeard x s = w) (conn : w.conn.state = .noService) : listenOutcome x s = unmarked w := by
  rw [listenOutcome_on (by simp [h]), heard]
  exact if_neg (by simp [unmarked, conn])

/-- A purpose of a page noted, the cycle at its base. -/
def pagedFor (p : Purpose) (s : State) : State :=
  withQuiet 0 { s with conn := { s.conn with purposes := s.conn.purposes ++ [p] } }

theorem outcomeHeard_pageCall (calm : Calm s) (h : s.conn.state = .noService) (up : s.conn.shutdown = none)
    (new : .callIn ∉ s.conn.purposes) : outcomeHeard (some .pageCall) s = pagedFor .callIn s := by
  unfold outcomeHeard
  dsimp only
  rw [primary_calm calm.awake calm.cycle]
  exact purpose_off (by exact h) (by exact up) (by exact new)

theorem outcomeHeard_pageText (calm : Calm s) (h : s.conn.state = .noService) (up : s.conn.shutdown = none)
    (new : .textIn ∉ s.conn.purposes) : outcomeHeard (some .pageText) s = pagedFor .textIn s := by
  have cycle : ({ s.sleep with cycle := s.sleep.base, quiet := 0 } : Sleep) = { s.sleep with quiet := 0 } := by
    rw [← calm.cycle]
  unfold outcomeHeard
  dsimp only
  rw [purpose_off h up new, rouse_awake (by exact calm.awake), cycle]
  exact notePlan_quiet 0 _

/-! ## The moment -/

/-- The LISTEN answered. -/
def listenEnded (s : State) : State :=
  { s with link := { s.link with opListen := .stopped, askListen := none, unanswered := 0 } }

theorem listenEnded_calm (calm : Calm s) : Calm (listenEnded s) := calm

theorem exec_listenDone_ends {o : Timer} {x : ListenOutcome} (calm : Calm u) (runs : o.runs = true) :
    exec (.listenDone x) { u with link := { u.link with opListen := o } } =
    .next (settle (listenOutcome (some x) (listenEnded u))) :=
  exec_listenDone (by exact calm.open_) runs

/-- A calm part outside CONNECTED whose sleep controller and purposes have changed is at rest. -/
theorem Calm.rest_heard (calm : Calm s) (up : s.conn.shutdown = none) (off : s.conn.state ≠ .connected)
    {n : Nat} {c : Nat} {b : Bool}
    (ps : List Purpose) : Resting { s with
      sleep := { s.sleep with quiet := n, cycle := c, lineSince := b }, conn := { s.conn with purposes := ps } } := by
  have conn : Resting { s with conn := { s.conn with purposes := ps } } :=
    calm.rest_conn (by exact up) (by exact off) (by exact inactTimer_off calm off)
  exact sleep_resting conn _ rfl (by exact conn.2.2.2.2.2.2.1) (by simp [calm.awake])

/-- A NO-PAGE after which a round begins. -/
theorem settle_roundAfter {n : Fin 13} {f : Bool} {k : Nat} (calm : Calm s)
    (h : s.conn.state = .camped ∨ s.conn.state = .connecting) :
    let v := { unmarked (withQuiet k s) with cells := { s.cells with round := some .serving } }
    nextSlot v .serving = some (n, f) → settle (wantRound (unmarked (withQuiet k s))) = startMeasure n f v := by
  intro v next
  have off : s.conn.state ≠ .connected := by rcases h with h | h <;> simp [h]
  have quiet : s.conn.state ≠ .noService := by rcases h with h | h <;> simp [h]
  have begun : beginRound (wantRound (unmarked (withQuiet k s))) = v := by
    have cells : ({ s.cells with round := some .serving, roundWaits := false } : Cells) =
        { s.cells with round := some .serving } := by
      rw [← calm.noRound]
    unfold beginRound
    dsimp only
    rw [if_neg (by exact quiet)]
    exact congrArg (fun c => ({ unmarked (withQuiet k s) with cells := c } : State)) cells
  obtain ⟨arrivals, texts⟩ := steady_texts calm.steady
  have opened : roundOpen (wantRound (unmarked (withQuiet k s))) = true :=
    open_calm calm (by rcases h with h | h <;> simp [wantRound, unmarked, withQuiet, h])
      (by rcases h with h | h <;> simp [wantRound, unmarked, withQuiet, h]) rfl rfl rfl (by exact calm.up) (by exact calm.idle)
      (by exact calm.waits)
  rw [settle_begin (t := wantRound (unmarked (withQuiet k s))) calm off (by exact off) (by exact calm.near.still)
    (by exact calm.near.ended) (by exact arrivals)
    (by exact texts) rfl opened (by exact calm.phase) (by exact calm.round) rfl (by rw [begun]; exact next), begun]

end Sys2Proof.Machine

namespace Sys2Proof
open Machine

/-- Settles O41: by the connection state, on the state in which the LISTEN has been answered. -/
theorem listenOutcomes : Obligations.ListenOutcomes := by
  unfold Obligations.ListenOutcomes
  intro u o calm up runs s t woken paged
  have ended := listenEnded_calm calm
  have exec_ : ∀ x, exec (.listenDone x) s = .next (settle (listenOutcome (some x) (listenEnded u))) :=
    fun x => exec_listenDone_ends calm runs
  have settles : ∀ {x : ListenOutcome} {w v : State}, listenOutcome (some x) (listenEnded u) = w → w = v → Resting v →
      exec (.listenDone x) s = .next v := by
    rintro x w v heard rfl rest
    rw [exec_, heard, settle_resting rest]
  refine ⟨fun x off => ?off, fun h => ?noService, fun n f h still few => ?round, exec_, fun x v on => ?outcome,
    fun x stopped => exec_listenDone_none stopped⟩
  case off => exact settles (listenOutcome_off off) rfl ended.rest
  case outcome =>
    rw [listenOutcome_on on]
    rfl
  case round =>
    intro v next
    have off : u.conn.state ≠ .off := by rcases h with h | h <;> simp [h]
    have heard : listenOutcome (some .noPage) (listenEnded u) =
        wantRound (unmarked (withQuiet (u.sleep.quiet + 1) (listenEnded u))) := by
      have counted : outcomeHeard (some .noPage) (listenEnded u) = withQuiet (u.sleep.quiet + 1) (listenEnded u) :=
        (quietCycle_counted (by exact still)).trans (if_pos few)
      rw [listenOutcome_on (by exact off), counted]
      exact if_pos h
    rw [exec_, heard]
    exact congrArg Host.Outcome.next (settle_roundAfter ended h next)
  case noService =>
    have off : u.conn.state ≠ .connected := by simp [h]
    have noPage : ∀ {w : State}, quietCycle (listenEnded u) = w → w.conn.state = .noService → Resting (unmarked w) →
        exec (.listenDone .noPage) s = .next (unmarked w) :=
      fun heard conn rest => settles (listenOutcome_noService (x := some .noPage) h heard conn) rfl rest
    have rest : ∀ n c, Resting { listenEnded u with sleep := { u.sleep with quiet := n, cycle := c, lineSince := false } } :=
      fun n c => ended.rest_heard up off u.conn.purposes
    have counted : ¬ woken → quietCycle (listenEnded u) = _ := quietCycle_counted (s := listenEnded u)
    refine ⟨fun charger => ?_, fun still few => ?_, fun still many high => ?_, fun still many low base => ?_, fun new => ?_,
      fun new => ?_⟩
    · exact noPage (quietCycle_charger charger) h (rest 0 u.sleep.cycle)
    · exact noPage ((counted still).trans (if_pos few)) h (rest (u.sleep.quiet + 1) u.sleep.cycle)
    · have full : ¬ (listenEnded u).sleep.cycle < effectiveCeiling (listenEnded u) := by
        rw [ended.cycle]
        exact Nat.not_lt.2 high
      exact noPage ((counted still).trans ((if_neg (Nat.not_lt.2 many)).trans (if_neg full))) h (rest 0 u.sleep.cycle)
    · exact noPage (quietCycle_stretch ended still many low base) h (rest 0 (2 * u.sleep.base))
    · exact settles (listenOutcome_noService (x := some .pageCall) h (outcomeHeard_pageCall ended h up new) h) rfl
        (ended.rest_heard (c := u.sleep.cycle) up off _)
    · exact settles (listenOutcome_noService (x := some .pageText) h (outcomeHeard_pageText ended h up new) h) rfl
        (ended.rest_heard (c := u.sleep.cycle) up off _)

end Sys2Proof
end

section
/-! SUPPORT. The answers to AREA-UPDATE (R73, R74, R79). -/

namespace Sys2Proof.Machine

variable {s u L : State} {a : Half} {n : Fin 13}

/-! ## Writes among other changes -/

theorem wrote_conn (w : WriteReq) (s : State) (c : Conn) : wrote w { s with conn := c } = { wrote w s with conn := c } := by
  unfold wrote
  split <;> rfl

/-- A round of CONNECTED waits for a strobe in a part at rest (R98). -/
theorem Calm.paced (calm : Calm s) (connected : s.conn.state = .connected) : s.cells.paced = true := by
  have still := calm.near.round
  simpa [roundStill, calm.round, roundDue, connected] using still

/-! ## The answers -/

theorem areaAnswered_other (other : s.conn.awaited ≠ some a) : areaAnswered a s = false := by simp [areaAnswered, other]

theorem areaAnswered_taken (connected : s.conn.state = .connected) (up : s.conn.shutdown = none)
    (purpose : s.conn.purposes = [.area]) (awaited : s.conn.awaited = some a) : areaAnswered a s = true := by
  simp [areaAnswered, connected, up, purpose, awaited]

/-- AREA, the only purpose, has left the set (R73). -/
def areaLeft (s : State) : State :=
  { s with conn := { s.conn with purposes := [], awaited := none, areaTimer := .stopped, areaMsg := none } }

theorem areaServed_alone (purpose : s.conn.purposes = [.area]) : areaServed s = areaLeft s := by
  have none : s.conn.purposes.filter (· != Purpose.area) = [] := by rw [purpose]; rfl
  unfold areaServed
  rw [none]
  rfl

theorem areaLeft_near (calm : Calm s) (connected : s.conn.state = .connected) (up : s.conn.shutdown = none) :
    Near (areaLeft s) :=
  calm.near_conn (paced := s.cells.paced) (timer := s.texts.retryTimer) (by exact up) (fun _ => calm.paced connected)

theorem exec_areaAccept (o : linkOpen s = true) : exec (.areaAccept a) s = .next (settle (areaAccept a (activity s))) :=
  runAir_on o rfl

theorem exec_areaReject (o : linkOpen s = true) : exec (.areaReject a) s = .next (settle (areaReject a (activity s))) :=
  runAir_on o rfl

theorem exec_areaTimer (jobs : jobsRun s = true) (due : s.conn.areaTimer = .due) :
    exec .areaAnswerTimerExpiry s = .next (settle (areaServed s)) := runIf_on _ _ (by simp [jobs, due])

theorem exec_areaTimer_off (h : s.conn.areaTimer ≠ .due) : exec .areaAnswerTimerExpiry s = .next s :=
  runIf_off _ _ (by simp [h])

/-- The registered area with what its change writes (R66, R73). -/
def areaWritten (a : Half) (s : State) : State :=
  let t := { s with conn := { s.conn with area := some a } }
  wrote (writeAt s .plan 1 (changedBytes (planFields1 s) (planFields1 t))) t

/-- AREA-ACCEPT to the end of the moment: the area registered, AREA served, the host told. -/
theorem settle_areaAccept (calm : Calm s) (up : s.conn.shutdown = none) (connected : s.conn.state = .connected)
    (purpose : s.conn.purposes = [.area]) (awaited : s.conn.awaited = some a) : settle (areaAccept a s) =
    pumpIdle (eventPlaced (event s .areaUpdated .secondary Kind.plan.code 0 0 0 (a.setWidth 32)) (areaLeft (areaWritten a s))) := by
  have written : setArea (some a) s = areaWritten a s :=
    notePlan_wrote (by exact calm.jobs) (by exact calm.mem) rfl (by exact calm.waits) (by exact calm.room' (n := 1) (by decide))
  generalize e : event s .areaUpdated .secondary Kind.plan.code 0 0 0 (a.setWidth 32) = told
  have conn : (areaWritten a s).conn = { s.conn with area := some a } := by
    unfold areaWritten
    rw [(wrote_same _ _).mem]
  have left : areaServed (areaWritten a s) = areaLeft (areaWritten a s) := areaServed_alone (by rw [conn]; exact purpose)
  have moved : areaLeft (areaWritten a s) = wrote (writeAt s .plan 1 (changedBytes (planFields1 s)
      (planFields1 { s with conn := { s.conn with area := some a } })))
      { s with conn := { s.conn with
        area := some a, purposes := [], awaited := none, areaTimer := .stopped, areaMsg := none } } := by
    unfold areaLeft
    rw [conn]
    exact (wrote_conn _ _ _).symm
  have near : Near (areaLeft (areaWritten a s)) := by
    rw [moved]
    exact Near.wrote _ (calm.near_conn (paced := s.cells.paced) (timer := s.texts.retryTimer) (by exact up)
      (fun _ => calm.paced connected))
  have clear : EventClear (areaLeft (areaWritten a s)) := by
    rw [moved]
    exact EventClear.same (by exact calm.events) (wrote_same _ _) (wrote_room (by exact calm.room' (n := 3) (by decide)))
  rw [areaAccept, if_pos (areaAnswered_taken connected up purpose awaited), written, left, e,
    raise_near near.quiet clear (by rw [← e]; rfl), settle_near (near.event told)]

/-! ## Leaving service (R74, R79) -/

/-- A calm part that has left service, the round it begins with its first measurement. `L` is the state left, whose memory path,
sleep controller, cell slots and such have changed on the way. -/
theorem settle_restarted {m : Fin 13} {f : Bool} (calm : Calm u) (conn : L.conn.state = .noService) (up : L.conn.shutdown = none)
    (stopped : L.conn.inactTimer = .stopped) (resetN : L.resetN = u.resetN) (resetPhase : L.resetPhase = u.resetPhase)
    (bind : L.bind = u.bind) (link : L.link = u.link) (texts : L.texts = u.texts) (idle : L.mob.state = .idle)
    (phase : L.cells.phase = .idle) (round : L.cells.round = none) (noRound : L.cells.roundWaits = false)
    (writeBack : L.sleep.writeBack = u.sleep.writeBack) (ended : Ended L) (next : nextSlot (roundBegun L) .serving = some (m, f)) :
    settle (restartRound L) = startMeasure m f (roundBegun L) := by
  obtain ⟨refused, -, unbinding, noWriteBack⟩ := calm.near.still
  obtain ⟨arrivals, submitted⟩ := steady_texts calm.steady
  have still : Still L := ⟨by rw [link]; exact refused, by simp [up], by rw [bind]; exact unbinding,
    writeBack.trans noWriteBack⟩
  have opened : roundOpen L = true :=
    open_calm calm (by simp [conn]) (by simp [conn]) resetN resetPhase bind (by rw [link]; exact calm.up) idle ended.2.2.2.1
  rw [restart_form phase round, round_after conn still ended (by rw [texts]; exact arrivals) (by rw [texts]; exact submitted)
    (by rw [stopped]; rfl) opened phase round noRound next]

/-- The serving slot barred and the host told (R74). -/
def areaBarred (a : Half) (n : Fin 13) (s : State) : State :=
  let u := eventPlaced (event s .areaRejected .primary Kind.plan.code 0 0 0 (a.setWidth 32))
    (slotWritten n { s.cells.slots[n] with barred := true } s)
  { u with sleep := { u.sleep with quiet := 0 } }

/-- It writes, places an event and counts the quiet cycles anew; nothing else moves. -/
theorem areaBarred_form (calm : Calm s) (a : Half) (n : Fin 13) : ∃ m, areaBarred a n s = { s with
      mem := m
      cells := { s.cells with slots := s.cells.slots.set n { s.cells.slots[n] with barred := true } }
      sleep := { s.sleep with quiet := 0 }
      events := { s.events with producer := s.events.producer + 1 } } ∧
    m.waits = [] ∧ m.readWaits = [] ∧ m.pubs = [] ∧ internalCount m + 1 ≤ Config.internalWrites := by
  let told := event s .areaRejected .primary Kind.plan.code 0 0 0 (a.setWidth 32)
  let w := slotWritten n { s.cells.slots[n] with barred := true } s
  obtain ⟨m, form, joined⟩ := event_form told w
  have room : Room 1 (eventPlaced told w) := event_room (room_join (by exact calm.room' (n := 4) (by decide)))
  have pubs : (eventPlaced told w).mem.pubs = [] := calm.pubs
  rw [form] at room pubs
  refine ⟨m, ?_, joined.2.1.trans calm.waits, joined.2.2.1.trans calm.near.2.2.2.2.2.1, pubs, room⟩
  unfold areaBarred
  rw [show eventPlaced (event s .areaRejected .primary Kind.plan.code 0 0 0 (a.setWidth 32)) _ = _ from form]
  rfl

theorem areaBarred_raised (calm : Calm s) : raisePrimary .conn
    (event s .areaRejected .primary Kind.plan.code 0 0 0 (a.setWidth 32)) .areaRejected
    (slotWritten n { s.cells.slots[n] with barred := true } s) = areaBarred a n s :=
  raisePrimary_placed (by exact calm.near.quiet) (clear_join (by exact calm.events) (by exact calm.room' (n := 3) (by decide)))
    (by exact calm.awake) (by exact calm.cycle) rfl

theorem slotWritten_conn (x : Slot) (s : State) (c : Conn) :
    slotWritten n x { s with conn := c } = { slotWritten n x s with conn := c } := by rfl

theorem eventPlaced_conn (e : Event) (s : State) (c : Conn) :
    eventPlaced e { s with conn := c } = { eventPlaced e s with conn := c } := by rfl

theorem areaBarred_conn (a : Half) (n : Fin 13) (s : State) (c : Conn) :
    areaBarred a n { s with conn := c } = { areaBarred a n s with conn := c } := by
  unfold areaBarred
  rw [slotWritten_conn, eventPlaced_conn]
  rfl

/-- Leaving service stops the area answer timer, running or not. -/
theorem leftService_areaTimer (s : State) (t : Timer) :
    leftService { s with conn := { s.conn with areaTimer := t } } = leftService s := by rfl

theorem areaReject_taken (answered : areaAnswered a s = true) (serving : s.cells.serving = some n) : areaReject a s =
    (let t := changeSlot n (fun x => { x with barred := true }) { s with conn := { s.conn with areaTimer := .stopped } }
    leaveService .radioLoss true
      (raisePrimary .conn (event t .areaRejected .primary Kind.plan.code 0 0 0 (a.setWidth 32)) .areaRejected t)) := by
  unfold areaReject
  rw [if_pos answered]
  dsimp only
  rw [serving]

theorem areaReject_leaves (calm : Calm s) (up : s.conn.shutdown = none) (connected : s.conn.state = .connected)
    (purpose : s.conn.purposes = [.area]) (awaited : s.conn.awaited = some a) (serving : s.cells.serving = some n)
    (free : callsFree s = true) (unsent : s.texts.send = none) :
    areaReject a s = restartRound (leftService (areaBarred a n s)) := by
  let t : State := { s with conn := { s.conn with areaTimer := .stopped } }
  have barred : changeSlot n (fun x => { x with barred := true }) t = slotWritten n { s.cells.slots[n] with barred := true } t :=
    change_slot (by exact calm.mem) (by exact calm.waits) (k := 11) (by exact calm.room)
  obtain ⟨m, form, waits, -, pubs, room⟩ := areaBarred_form calm a n
  have told := (areaBarred_raised (a := a) (n := n) (s := t) calm).trans (areaBarred_conn a n s t.conn)
  rw [form] at told
  rw [areaReject_taken (areaAnswered_taken connected up purpose awaited) serving, barred, form,
    ← leftService_areaTimer _ .stopped]
  exact (congrArg (leaveService .radioLoss true) told).trans
    (leave_plain (by exact calm.jobs) (by exact calm.mem) waits room (by exact connected) pubs (by exact free) (by exact unsent)
      (by exact calm.idle) (slot_candidate calm.cand (calm.cand n)))

end Sys2Proof.Machine

namespace Sys2Proof
open Machine

/-- Settles O44: AREA is the one purpose, so that the connection is not idle while its answer is awaited. -/
theorem areaAnswers : Obligations.AreaAnswers := by
  unfold Obligations.AreaAnswers
  intro s a calm up connected purpose served
  have busy : activity s = s := activity_off (by simp [connIdle, purpose])
  refine ⟨fun other => ⟨?_, ?_⟩, fun awaited => ⟨?accept, fun n serving free unsent => ?reject⟩,
    fun due => ?timer, exec_areaTimer_off⟩
  · rw [exec_areaAccept calm.open_, busy, areaAccept, areaAnswered_other other]
    exact congrArg Host.Outcome.next (settle_resting calm.rest)
  · rw [exec_areaReject calm.open_, busy, areaReject, areaAnswered_other other]
    exact congrArg Host.Outcome.next (settle_resting calm.rest)
  case accept =>
    rw [exec_areaAccept calm.open_, busy, settle_areaAccept calm up connected purpose awaited]
    rfl
  case reject =>
    intro t u v m f next
    obtain ⟨k, form, waits, readWaits, -⟩ := areaBarred_form calm a n
    obtain ⟨pending, owed, queue, -, -, mark, level⟩ := calm.near.ended
    have begun : v = roundBegun (leftService (areaBarred a n s)) := rfl
    rw [exec_areaReject calm.open_, busy, areaReject_leaves calm up connected purpose awaited serving free unsent, begun]
    rw [begun] at next
    rw [form] at next ⊢
    exact congrArg Host.Outcome.next (settle_restarted calm rfl (by exact up) rfl rfl rfl rfl rfl rfl (by exact calm.idle)
      (by exact calm.phase) (by exact calm.round) (by exact calm.noRound) rfl
      ⟨pending, owed, queue, waits, readWaits, mark, level⟩ next)
  case timer =>
    rw [exec_areaTimer calm.jobs due, areaServed_alone purpose, settle_near (areaLeft_near calm connected up)]
    rfl

end Sys2Proof
end

section
/-! SUPPORT. Reestablishment and reselection (R77 to R79, R109, R113, R116, R117, R121 to R123). -/

namespace Sys2Proof.Machine

variable {s u : State} {n : Fin 13}

/-! ## The serving cell is lost (R77, R116, R123) -/

theorem servingLost_out (h : s.conn.state = .off ∨ s.conn.state = .noService) : servingLost s = s := by
  unfold servingLost
  rcases h with h | h <;> simp [h]

theorem servingLost_connected (up : s.conn.shutdown = none) (still : switchOn s = false) (h : s.conn.state = .connected) :
    servingLost s = loseServing false s := by simp [servingLost, up, still, h]

theorem servingLost_camped (up : s.conn.shutdown = none) (still : switchOn s = false) (h : s.conn.state = .camped) :
    servingLost s = forcedReselect s := by simp [servingLost, up, still, h]

/-- The connection in REESTABLISHING, its timers stopped, before the mobility controller has a cell to go to. -/
def cellLost (s : State) : State := connWritten .reestablishing { s with
  mob := { s.mob with reestWaits := false }
  conn := { s.conn with
    connectTimer := .stopped, areaTimer := .stopped, inactTimer := .stopped, reestTimer := .stopped, areaMsg := none } }

theorem campChoice_mob (s : State) (b : Bool) :
    campChoice { s with mob := { s.mob with reestWaits := b } } true = campChoice s true := by rfl

theorem startReestablish_begins (fresh : s.mob.stale = false) (choice : campChoice s true = some n) :
    startReestablish false s =
      switchStart .reestablishment .rebuilding n { s with mob := { s.mob with reestWaits := false } } := by
  unfold startReestablish
  rw [if_neg (by simp [fresh])]
  simp only [campChoice_mob, choice, Bool.false_eq_true, if_false]

/-- With a cell to go to, the loss begins a switch to it. -/
theorem loseServing_begins (calm : Calm s) (h : s.conn.state = .connected) (unsent : s.texts.send = none)
    (free : s.link.opSwitch = .stopped) (choice : campChoice s true = some n) :
    loseServing false s = switchBegun .reestablishment .rebuilding n (cellLost s) := by
  have moved : setConn .reestablishing { s with conn := stopConnTimers s.conn } =
      connWritten .reestablishing { s with conn := stopConnTimers s.conn } :=
    setConn_move (by exact calm.jobs) (by exact calm.mem) (by exact calm.waits) (by exact calm.room' (n := 1) (by decide))
      (by simp [stopConnTimers, h]) (by simp [stopConnTimers, h]) (by decide) (by decide) (by simp [calm.idle]) (by exact calm.cand)
  have begins := startReestablish_begins (s := connWritten .reestablishing { s with conn := stopConnTimers s.conn })
    (by exact calm.stale) (by exact choice)
  obtain ⟨-, -, -, idle, -⟩ := calm.link
  obtain ⟨-, -, -, -, readWaits, -⟩ := calm.near.ended
  have plain : switchStart .reestablishment .rebuilding n (cellLost s) =
      switchBegun .reestablishment .rebuilding n (cellLost s) :=
    switch_plain (by exact calm.phase) (by exact calm.round) (by exact calm.noRound) (by exact calm.cand) (by exact calm.report)
      (by exact unsent) (by exact calm.up) (by exact idle) (by exact free) (by exact calm.reads) (by exact calm.waits)
      (by exact readWaits)
  rw [loseServing, moved, begins]
  exact plain

theorem cellLost_switch_resting (calm : Calm s) (up : s.conn.shutdown = none) :
    Resting (switchBegun .reestablishment .rebuilding n (cellLost s)) := by
  have rest : Resting { s with conn := { stopConnTimers s.conn with state := .reestablishing } } :=
    calm.rest_conn (by exact up) (by simp) rfl
  exact rest

/-! ## A reestablishment switch under way (R78, R109, R117) -/

theorem switchUnder_resting {kind : SwKind} {st : SwState} {op : Timer} (calm : Calm u) :
    Resting (switchUnder kind st n op u) := calm.rest

theorem reestablishAccept_late (h : s.conn.reestTimer.runs = false) : reestablishAccept s = s := by
  unfold reestablishAccept
  split
  · simp [h]
  · rfl

theorem reestablishAccept_commits {w : SwRec} (h : s.conn.state = .reestablishing) (rebuilding : s.mob.state = .rebuilding)
    (switch : s.mob.switch = some w) (runs : s.conn.reestTimer.runs = true) (up : s.conn.shutdown = none) :
    reestablishAccept s = commitReestablish w { s with conn := { s.conn with reestTimer := .stopped } } := by
  simp [reestablishAccept, h, rebuilding, switch, runs, up]

theorem commit_awake {w : SwRec} {st : Option ConnState} {kind : Option Half → PubKind} (awake : s.sleep.level ≠ .deep) :
    commit w st kind s = (let t := { s with mob := { s.mob with state := .committing } }
      publish (kind (newArea w.target s)) ([headerImage w.target t] ++ (w.old.toList.map (fun o => slotImage o t)) ++
        [targetImage w.target t] ++ callImage t ++ planImage st (newArea w.target s) t) (gapsCarried t)) := by
  unfold commit
  exact if_pos (by simp [memoryAvailable, awake])

/-- A reestablishment committed behind a publication that waits: its publication waits too (R34, R117). -/
theorem commitReestablish_later (w : SwRec) (awake : s.sleep.level ≠ .deep) (pubs : s.mem.pubs ≠ []) :
    commitReestablish w s = { s with
      mob := { s.mob with state := .committing }
      calls := { s.calls with gapHeld := false, gapOwed := [] }
      mem := { s.mem with
        nextPub := s.mem.nextPub + 1
        pubs := s.mem.pubs ++ [{
          number := s.mem.nextPub, kind := .reestablishment w.target w.old (newArea w.target s), live := true
          images := [headerImage w.target s] ++ (w.old.toList.map (fun o => slotImage o s)) ++ [targetImage w.target s] ++
            callImage s ++ planImage (some .connected) (newArea w.target s) s }] } } := by
  rw [commitReestablish, commit_awake awake]
  exact publish_later (.inl pubs)

theorem exec_reestablishAccept (o : linkOpen s = true) :
    exec .reestablishAccept s = .next (settle (reestablishAccept (activity s))) := runAir_on o rfl

theorem exec_reestTimer (jobs : jobsRun s = true) (due : s.conn.reestTimer = .due) (h : s.conn.state = .reestablishing) :
    exec .reestablishmentTimerExpiry s = .next (settle (leaveService .radioLoss false s)) :=
  runIf_on _ _ (by simp [jobs, due, h])

theorem exec_reestTimer_off (h : s.conn.reestTimer ≠ .due) : exec .reestablishmentTimerExpiry s = .next s :=
  runIf_off _ _ (by simp [h])

/-- The publication of a reestablishment that its maker still waits for is served as a connect is, and ends the switch (R117,
R119). -/
theorem rebuilt_live {area : Option Half} : rebuilt n area true s =
    (let t := takeServing n s
    let u := { t with conn := { t.conn with area := area.orElse (fun _ => t.conn.area) } }
    switchDone n 0x100 (serveConnected (setConnQuiet .connected u))) := by
  unfold rebuilt
  exact if_pos rfl

theorem area_orElse (area old : Option Half) :
    area.orElse (fun _ => old) = match area with | some a => some a | none => old := by cases area <;> rfl

/-! ## Rounds in CAMPED (R121, R122) -/

theorem betterAfter_eq (s : State) (n : Fin 13) : betterAfter s n =
    if (s.cells.slots[n]).usable = true ∧ s.cells.serving ≠ some n then
      match servingLevel s, (s.cells.slots[n]).filtered with
      | some a, some b => if a + s.mob.reselMargin ≤ b then min 4 ((s.mob.slots[n]).better + 1) else 0
      | _, _ => 0
    else 0 := by
  unfold betterAfter
  by_cases h : (s.cells.slots[n]).usable = true ∧ s.cells.serving ≠ some n
  · exact (if_pos (by simpa using h)).trans (if_pos h).symm
  · exact (if_neg (by simpa using h)).trans (if_neg h).symm

theorem eligible_iff (s : State) (n : Fin 13) : eligible s n = true ↔ campable s n = true ∧ s.cells.serving ≠ some n ∧
    (s.mob.reselRounds ≤ (s.mob.slots[n]).better ∨ servingLevel s = none ∨ ∃ l, servingLevel s = some l ∧ l < s.conn.campThr) := by
  unfold eligible
  cases servingLevel s <;> simp [and_assoc]

theorem roundReselect_off (h : s.conn.state ≠ .camped) : roundReselect s = setCounts (fun _ => 0) s := if_pos (by simpa using h)

theorem roundReselect_commits (h : s.conn.state = .camped) (resel : s.mob.resel = true) : roundReselect s = s := by
  simp [roundReselect, h, resel]

theorem roundReselect_chooses (h : s.conn.state = .camped) (resel : s.mob.resel = false)
    (best : bestSlot (setCounts (betterAfter s) s) (eligible (setCounts (betterAfter s) s)) = some n) :
    roundReselect s = reselect n (setCounts (betterAfter s) s) := by
  unfold roundReselect
  rw [if_neg (by simp [h]), if_neg (by simp [resel])]
  dsimp only
  rw [best]

theorem roundReselect_stays (h : s.conn.state = .camped) (resel : s.mob.resel = false)
    (best : bestSlot (setCounts (betterAfter s) s) (eligible (setCounts (betterAfter s) s)) = none) :
    roundReselect s = setCounts (betterAfter s) s := by
  unfold roundReselect
  rw [if_neg (by simp [h]), if_neg (by simp [resel])]
  dsimp only
  rw [best]

theorem forcedReselect_commits (resel : s.mob.resel = true) : forcedReselect s = s := if_pos resel

theorem forcedReselect_chooses (resel : s.mob.resel = false) (choice : campChoice s true = some n) :
    forcedReselect s = reselect n s := by
  unfold forcedReselect
  rw [if_neg (by simp [resel]), choice]

theorem forcedReselect_leaves (resel : s.mob.resel = false) (choice : campChoice s true = none) :
    forcedReselect s = leaveService .radioLoss false s := by
  unfold forcedReselect
  rw [if_neg (by simp [resel]), choice]

theorem reselect_awake (h : s.sleep.level ≠ .deep) : reselect n s = publish (.reselection n s.cells.serving)
    ([headerImage n s] ++ (s.cells.serving.toList.map (fun o => slotImage o s)) ++ [targetImage n s])
    { s with mob := { s.mob with resel := true } } := if_pos (by simp [memoryAvailable, h])

theorem reselect_deep (h : s.sleep.level = .deep) :
    reselect n s = reselected n s.cells.serving (dirtyServing n s.cells.serving false s) := if_neg (by simp [memoryAvailable, h])

end Sys2Proof.Machine

namespace Sys2Proof
open Machine

/-- Settles O46: a reestablishment by its steps, then reselection equation by equation. -/
theorem reestablishment : Obligations.Reestablishment := by
  unfold Obligations.Reestablishment
  refine ⟨fun u calm => ⟨?out, ?lost, ?under⟩, ?published, betterAfter_eq, eligible_iff, ?rounds, ?reselect⟩
  case out =>
    intro out
    have still : servingLost u = u := by
      rcases out with off | out | down
      · exact servingLost_out (.inl off)
      · exact servingLost_out (.inr out)
      · exact servingLost_ignored (by simp [down])
    rw [exec_servingLost calm.open_, still, settle_resting calm.rest]
  case lost =>
    intro n h up unsent free choice
    rw [exec_servingLost calm.open_, servingLost_connected up calm.notSwitch h, loseServing_begins calm h unsent free choice]
    exact congrArg Host.Outcome.next (settle_resting (cellLost_switch_resting calm up))
  case under =>
    intro n o h timer up free s
    have rest : Resting s := switchUnder_resting calm
    have quiet : ∀ m, activity { s with mem := m } = { s with mem := m } :=
      fun m => activity_off (not_connected (s := { s with mem := m }) (by simp [s, switchUnder, switchBegun, h]))
    refine ⟨?_, fun off => exec_reestTimer_off (by rw [← timer] at off; exact off), fun off => ?late, fun p runs => ?accept,
      fun due recs pending unsent reload => ?expiry⟩
    · rw [exec_servingLost (by exact calm.open_), servingLost_ignored (by simp [s, switchUnder, switchBegun, switchOn])]
      exact congrArg Host.Outcome.next (settle_resting rest)
    case late =>
      have out : s.conn.reestTimer.runs = false := by
        rw [show s.conn.reestTimer = o from timer, off]
        rfl
      rw [exec_reestablishAccept (by exact calm.open_), show activity s = s from quiet s.mem, reestablishAccept_late out,
        settle_resting rest]
    case accept =>
      have running : s.conn.reestTimer.runs = true := by
        rw [show s.conn.reestTimer = o from timer]
        exact runs
      have taken := reestablishAccept_commits (s := { s with mem := { u.mem with pubs := [p] } }) (by exact h) rfl rfl running
        (by exact up)
      rw [exec_reestablishAccept (by exact calm.open_), quiet, taken,
        commitReestablish_later _ (by simp [s, switchUnder, switchBegun, calm.awake]) (List.cons_ne_nil p [])]
      exact congrArg Host.Outcome.next (settle_resting (by exact rest))
    case expiry =>
      intro w v m f next
      obtain ⟨k, form, joined⟩ := event_form (event u .serviceLost .primary 0 0 0 0 0) (leftService u)
      obtain ⟨noEvent, noOwed, queue, -, readWaits, mark, level⟩ := calm.near.ended
      have room : Room 1 (eventPlaced (event u .serviceLost .primary 0 0 0 0 0) (leftService u)) :=
        event_room (room_join (by exact calm.room' (n := 4) (by decide)))
      obtain ⟨-, -, -, -, hold⟩ := calm.link
      have left := leave_rebuilding (n := n) calm.jobs calm.mem calm.waits (calm.room' (by decide)) h calm.pubs recs unsent
        calm.cand reload pending calm.events noEvent noOwed calm.awake calm.cycle hold
        calm.gap calm.csw calm.ssw calm.tsw rfl free
      rw [exec_reestTimer (s := s) (by exact calm.jobs) (timer.trans due) h, left]
      have begun : v = roundBegun { w with
          sleep := { u.sleep with quiet := 0 }
          calls := { u.calls with gapOwed := [] }
          cells := { u.cells with paced := true }
          mob := { s.mob with state := .idle, reestWaits := false, switch := none, confirmMsg := none } } := rfl
      rw [begun] at next ⊢
      dsimp only [w] at next ⊢
      rw [form] at next ⊢
      exact congrArg Host.Outcome.next (settle_restarted calm rfl (by exact up) rfl rfl rfl rfl rfl rfl rfl
        (by exact calm.phase) (by exact calm.round) (by exact calm.noRound) rfl
        ⟨noEvent, noOwed, queue, joined.2.1.trans calm.waits, joined.2.2.1.trans readWaits, mark, level⟩ next)
  case published =>
    intro s n old area t w v
    refine ⟨?_, ?_⟩
    · rw [published, rebuilt, area_orElse]
      cases area <;> rfl
    · rw [published, rebuilt_live]
      simp only [area_orElse]
      rfl
  case rounds =>
    exact fun s => ⟨roundReselect_off, roundReselect_commits,
      fun h resel => ⟨fun n => roundReselect_chooses h resel, roundReselect_stays h resel⟩,
      forcedReselect_commits, fun resel => ⟨fun n => forcedReselect_chooses resel, forcedReselect_leaves resel⟩,
      fun open_ up still h => by rw [exec_servingLost open_, servingLost_camped up still h]⟩
  case reselect => exact fun s n old => ⟨reselect_awake, reselect_deep, fun live => rfl, rfl⟩

end Sys2Proof
end

section
/-! SUPPORT. Moments in which one of several messages in the queue is sent (R58, R59), and calls released (R140, R141). -/

namespace Sys2Proof.Machine

variable {s t u : State} {m k : AirMsg} {q x : QMsg} {r : Fin 4} {c : CallRec} {cause : Cause}

/-! ## The queue (R58, R59) -/

/-- A message handed and not yet sent. -/
def waiting (id place : Nat) (m : AirMsg) : QMsg := { id := id, msg := m, inFlight := false, place := place, attempts := 0 }

/-- A message handed to the queue behind another one. -/
theorem emitMsg_second (waits : s.mem.waits = []) (queue : s.link.queue = [q]) (outside : s.link.outside = [])
    (two : msgJob m ≠ .texts) : emitMsg m s = { s with link := { s.link with
      nextId := s.link.nextId + 1, nextPlace := s.link.nextPlace + 1
      queue := [q, waiting s.link.nextId s.link.nextPlace m] } } := by
  have limit : jobLimit (msgJob m) = 2 := by
    revert two
    cases msgJob m <;> simp [jobLimit]
  have few : [q].countP (fun x => msgJob x.msg == msgJob m) < 2 := Nat.lt_of_le_of_lt List.countP_le_length (Nat.lt_succ_self 1)
  have room : queueRoom { s.link with nextId := s.link.nextId + 1 } m = true := by
    simp only [queueRoom, queue, limit, few, decide_true, Bool.and_true, List.length_singleton]
    decide
  rw [emit_eq waits]
  unfold handMsg
  rw [room, outside]
  simp [joinQueue, queue, waiting]

/-- The eligible one of two messages: of the higher class, in one class the one with the lower place (R59). -/
theorem nextMsg_two {l : Link} {a b : QMsg} (queue : l.queue = [a, b]) (first : a.inFlight = false) (second : b.inFlight = false)
    (hold : l.hold = false) : nextMsg l =
      some (if msgClass b.msg < msgClass a.msg ∨ msgClass b.msg = msgClass a.msg ∧ b.place < a.place then b else a) := by
  have both : [a, b].filter (fun q => !q.inFlight && (!l.hold || msgJob q.msg == .mob)) = [a, b] := by simp [first, second, hold]
  unfold nextMsg
  rw [queue, both]
  by_cases higher : msgClass b.msg < msgClass a.msg ∨ msgClass b.msg = msgClass a.msg ∧ b.place < a.place
  · simp [higher]
  · simp [higher]

theorem nextMsg_one {l : Link} (queue : l.queue = [q]) (still : q.inFlight = false) (hold : l.hold = false) :
    nextMsg l = some q := by
  simp [nextMsg, queue, hold, still]

/-- A message of the queue sent: IN-FLIGHT, the operation outstanding, the frame on the link (R54, R59). -/
def sentQueued (q : QMsg) (s : State) : State := { s with
  link := { s.link with
    opSendSig := .running 4, askSendSig := some (.sendSig q.msg)
    queue := s.link.queue.map (fun x => if x.id == q.id then { x with inFlight := true } else x) }
  out := { s.out with link := s.out.link ++ [.sendSig q.msg] } }

theorem sentQueued_first {a b : QMsg} (queue : s.link.queue = [a, b]) (apart : b.id ≠ a.id) : sentQueued a s = { s with
    link := { s.link with
      opSendSig := .running 4, askSendSig := some (.sendSig a.msg), queue := [{ a with inFlight := true }, b] }
    out := { s.out with link := s.out.link ++ [.sendSig a.msg] } } := by
  simp [sentQueued, queue, apart]

theorem sentQueued_second {a b : QMsg} (queue : s.link.queue = [a, b]) (apart : a.id ≠ b.id) : sentQueued b s = { s with
    link := { s.link with
      opSendSig := .running 4, askSendSig := some (.sendSig b.msg), queue := [a, { b with inFlight := true }] }
    out := { s.out with link := s.out.link ++ [.sendSig b.msg] } } := by
  simp [sentQueued, queue, apart]

theorem sendNext_queued (open_ : linkOpen s = true) (free : s.link.opSendSig = .stopped) (next : nextMsg s.link = some q) :
    sendNext s = sentQueued q s := by
  obtain ⟨jobs, up⟩ : jobsRun s = true ∧ s.link.up = true := by simpa [linkOpen] using open_
  simp [sendNext, jobs, up, free, next, request, Timer.runs, Link.op, setOp, linkOut, Config.responseFrames, sentQueued]

/-- A state with nothing in the queue. -/
def unqueued (s : State) : State := { s with link := { s.link with queue := [] } }

/-- A moment ends with a message sent from the queue. -/
theorem settle_queued (still : Still s) (round : pumpRound 6 s = s) (arrivals : s.texts.arrivals = []) (text : pumpText s = s)
    (ended : Ended (unqueued s)) (open_ : linkOpen s = true) (free : s.link.opSendSig = .stopped)
    (next : nextMsg s.link = some q) : settle s = pumpIdle (sentQueued q s) := by
  obtain ⟨pending, owed, -, waits, readWaits, mark, level⟩ := ended
  obtain ⟨i, idle⟩ := pumpIdle_form s
  have same : pumpIdle (sentQueued q s) = sentQueued q (pumpIdle s) := by
    unfold pumpIdle sentQueued connIdle callsFree
    dsimp only
    split <;> rfl
  have none : pumpArrivals [] s = s := rfl
  rw [settle_open still, round]
  dsimp only
  rw [arrivals, none, text, refused_none still.1, same, idle]
  rw [finish, placeEvents_done (by exact pending) (by exact owed), sendNext_queued (by exact open_) (by exact free) (by exact next),
    checkWake_still (by exact mark), pumpWindow_still (by exact level), closeMoment_still (by exact waits) (by exact readWaits)]

/-- The same where, but for the queue, nothing is due. -/
theorem settle_nearQueued (near : Near (unqueued s)) (open_ : linkOpen s = true) (free : s.link.opSendSig = .stopped)
    (next : nextMsg s.link = some q) : settle s = pumpIdle (sentQueued q s) := by
  obtain ⟨arrivals, texts⟩ := steady_texts near.1
  exact settle_queued (by exact near.still) (pumpRound_still 6 (by exact near.round)) (by exact arrivals)
    (pumpText_still (by exact texts)) near.ended open_ free next

theorem pumpIdle_down (down : s.conn.shutdown.isSome = true) (stopped : s.conn.inactTimer = .stopped) : pumpIdle s = s := by
  have busy : connIdle s = false := by
    cases h : s.conn.shutdown with
    | none => simp [h] at down
    | some _ => simp [connIdle, h]
  exact pumpIdle_resting (by rw [stopped, busy]; rfl)

/-! ## A call record that stops being ACTIVE, or was not (R127, R145) -/

/-- A record's change to a state that is not ACTIVE: its write, its event and, of the ACTIVE one, the end of speech. -/
def recEnded (r : Fin 4) (c : CallRec) (s : State) : State :=
  let t := recMoved r c s
  if (s.calls.recs[r]).state = .active then speechStop t else t

theorem changeState_ended {f : CallRec → CallRec} (gap : s.calls.gapHeld = false) (quiet : Quiet s) (clear : EventClear s)
    (room : Room 3 s) (still : (f s.calls.recs[r]).state ≠ .active) : changeState r f s = recEnded r (f s.calls.recs[r]) s := by
  rw [change_room gap quiet clear room]
  simp only [recEnded, still, false_and, ne_eq, not_false_eq_true, and_true, if_false]

theorem recMoved_pubs (r : Fin 4) (c : CallRec) (s : State) : (recMoved r c s).mem.pubs = s.mem.pubs :=
  (recWritten_same r c s).pubs

theorem recEnded_form (r : Fin 4) (c : CallRec) (s : State) (waits : s.mem.waits = []) : ∃ m p,
    recEnded r c s = { withRec r c s with
      mem := m, speech := p, events := { s.events with producer := s.events.producer + 1 } } ∧
    m.waits = s.mem.waits ∧ m.readWaits = s.mem.readWaits ∧ m.pubs = s.mem.pubs ∧
    internalCount m = internalCount (recMoved r c s).mem := by
  obtain ⟨m, form, w, rw', -⟩ := moved_form r c s
  have pubs := recMoved_pubs r c s
  unfold recEnded
  dsimp only
  rw [form] at pubs ⊢
  split
  · rw [speechStop_plain (by exact w.trans waits)]
    exact ⟨m, _, rfl, w, rw', pubs, rfl⟩
  · exact ⟨m, s.speech, rfl, w, rw', pubs, rfl⟩

theorem recEnded_emit (waits : s.mem.waits = []) : recEnded r c (emitMsg m s) = emitMsg m (recEnded r c s) := by
  have same : (emitMsg m s).calls = s.calls := by rw [emit_eq waits]
  obtain ⟨n, form, w, -⟩ := moved_form r c s
  unfold recEnded
  dsimp only
  rw [same, emit_moved waits, form]
  split
  · rw [emit_eq (by exact w.trans waits), speechStop_plain (by exact w.trans waits), speechStop_plain (by exact w.trans waits),
      emit_eq (by exact w.trans waits)]
  · rfl

theorem Near.recEnded (near : Near s) : Near (recEnded r c s) := by
  obtain ⟨m, p, form, waits, readWaits, -⟩ := recEnded_form r c s near.quiet.2.2
  obtain ⟨steady, pending, owed, queue, waits', readWaits', mark, level⟩ := near
  rw [form]
  exact ⟨steady, pending, owed, queue, waits.trans waits', readWaits.trans readWaits', mark, level⟩

/-! ## A call record FREE again (R140, R141) -/

/-- A record released locally. -/
def recFreed (r : Fin 4) (cause : Cause) (s : State) : State := recEnded r ((s.calls.recs[r]).free cause) s

theorem recFreed_form (r : Fin 4) (cause : Cause) (s : State) (waits : s.mem.waits = []) : ∃ m p,
    recFreed r cause s = { withRec r ((s.calls.recs[r]).free cause) s with
      mem := m, speech := p, events := { s.events with producer := s.events.producer + 1 } } ∧
    m.waits = s.mem.waits ∧ m.pubs = s.mem.pubs := by
  obtain ⟨m, p, form, w, -, pubs, -⟩ := recEnded_form r ((s.calls.recs[r]).free cause) s waits
  exact ⟨m, p, form, w, pubs⟩

theorem freeRec_freed (gap : s.calls.gapHeld = false) (quiet : Quiet s) (clear : EventClear s) (room : Room 3 s)
    (reading : (s.calls.recs[r]).reading = false) : freeRec r cause s = recFreed r cause s := by
  have kept : dropCapture r s = s := if_neg (by rw [reading]; decide)
  rw [freeRec, kept]
  exact changeState_ended gap quiet clear room nofun

theorem recFreed_emit (waits : s.mem.waits = []) : recFreed r cause (emitMsg m s) = emitMsg m (recFreed r cause s) := by
  have same : (emitMsg m s).calls = s.calls := by rw [emit_eq waits]
  unfold recFreed
  rw [same, recEnded_emit waits]

end Sys2Proof.Machine
end

section
/-! SUPPORT. The radio request, a shutdown with what it ends, and leaving service (R68, R79 to R81). -/

namespace Sys2Proof.Machine

variable {s t u : State} {m : AirMsg} {q x : QMsg} {r : Fin 4} {c : CallRec} {cause : Cause}

/-! ## The request (R68) -/

theorem radioRequest_ignored {v : Byte} (h : 1 < v.toNat) : radioRequest v s = ignoreConfig .plan 0 0x00 s := by
  have no : boolOf v.toNat = none := by
    unfold boolOf
    rw [if_neg (by omega), if_neg (by omega)]
  unfold radioRequest
  rw [no]

theorem radioRequest_still (h : s.conn.state ≠ .off ∨ s.conn.shutdown.isSome = true) : radioRequest 1 s = s := by
  have kept : (s.conn.state == .off && s.conn.shutdown.isNone) = false := by
    rcases h with h | h
    · simp [h]
    · cases d : s.conn.shutdown <;> simp [d] at h ⊢
  show (if s.conn.state == .off && s.conn.shutdown.isNone then wantRound (setConn .noService s) else s) = s
  rw [kept]
  rfl

theorem radioRequest_down : radioRequest 0 s = requestShutdown .locl s := rfl

/-! ## A shutdown (R80) -/

theorem requestShutdown_still (h : s.conn.state = .off ∨ s.conn.shutdown.isSome = true) : requestShutdown cause s = s :=
  if_pos (by simpa using h)

/-- A shutdown begun, before its steps. -/
def downBegun (cause : Cause) (s : State) : State :=
  { s with conn := { s.conn with shutdown := some cause, shutNoDetach := decide (s.conn.state = .noService) } }

/-- The steps of a shutdown in their order (R80). -/
theorem requestShutdown_steps (on : s.conn.state ≠ .off) (up : s.conn.shutdown = none) : requestShutdown cause s =
    let t := (List.finRange 4).foldl (fun t r => shutdownRec r cause t) { s with conn := { s.conn with
      shutdown := some cause, shutNoDetach := decide (s.conn.state = .noService) } }
    let u := unlivePubs PubKind.isCamping (dropSwitch (abandonAll (endSend .failed (some cause) t)))
    let v := { u with conn := { u.conn with
      connectTimer := .stopped, areaTimer := .stopped, inactTimer := .stopped, reestTimer := .stopped, areaMsg := none
      camping := false, purposes := [], attempts := 0, opening := none, awaited := none, reqMsg := none } }
    if v.conn.shutNoDetach then v
    else emitMsg .detach { v with conn := { v.conn with detachMsg := some v.link.nextId, shutTimer := .running 50 } } := by
  have detached : (s.conn.state == .noService) = decide (s.conn.state = .noService) := rfl
  unfold requestShutdown shutdownCalls
  rw [if_neg (by simp [on, up]), detached]
  dsimp only
  generalize unlivePubs PubKind.isCamping _ = u
  rfl

/-- In service, once its calls, its text and its contexts have ended, a shutdown hands DETACH. -/
theorem requestShutdown_serving (on : s.conn.state ≠ .off) (up : s.conn.shutdown = none) (serving : s.conn.state ≠ .noService)
    (ended : abandonAll (endSend .failed (some cause) (shutdownCalls cause (downBegun cause s))) = downBegun cause t)
    (same : t.conn.state = s.conn.state) (still : t.mob.state = .idle) (pubs : t.mem.pubs = []) :
    requestShutdown cause s = emitMsg .detach (shuttingDown cause t) := by
  have detached : decide (t.conn.state = .noService) = false := by simp [same, serving]
  unfold shutdownCalls downBegun at ended
  rw [requestShutdown_steps on up]
  dsimp only at ended ⊢
  rw [ended, dropSwitch_idle (by exact still), unlivePubs_none (by exact pubs), detached]
  rfl

theorem abandonAll_none (none : s.texts.resv = []) : abandonAll s = s := by
  unfold abandonAll
  rw [none]
  rfl

theorem endSend_none {st : DescState} {cause : Option Cause} (none : s.texts.send = none) : endSend st cause s = s := by
  unfold endSend
  rw [none]

/-! ## Its end (R81) -/

theorem exec_shutdownTimer (jobs : jobsRun s = true) (due : s.conn.shutTimer = .due) (down : s.conn.shutdown.isSome = true) :
    exec .shutdownTimerExpiry s = .next (settle (shutdownEnd s)) := runIf_on _ _ (by simp [jobs, due, down])

theorem exec_shutdownTimer_off (h : s.conn.shutTimer ≠ .due) : exec .shutdownTimerExpiry s = .next s :=
  runIf_off _ _ (by simp [h])

/-! ## Records and texts of a shutdown (R141, R162, R169) -/

theorem msgInFlight_iff {id : Option Nat} : msgInFlight id s = true ↔
    ∃ q ∈ s.link.queue, q.inFlight = true ∧ id = some q.id := by
  simp only [msgInFlight, List.any_eq_true, Bool.and_eq_true, beq_iff_eq]
  exact exists_congr fun q => ⟨fun ⟨h, e, f⟩ => ⟨h, f, e.symm⟩, fun ⟨h, f, e⟩ => ⟨h, e.symm, f⟩⟩

theorem setupKnown_iff : setupKnown c s = true ↔ c.state ≠ .dialing ∨ c.stage = .sent ∨
    (c.stage = .placed ∧ ∃ q ∈ s.link.queue, q.inFlight = true ∧ c.setupMsg = some q.id) := by
  simp only [setupKnown, Bool.or_eq_true, Bool.and_eq_true, bne_iff_ne, beq_iff_eq, msgInFlight_iff, or_assoc, ne_eq]

theorem shutdownRec_free (free : (s.calls.recs[r]).state = .free) : shutdownRec r cause s = s :=
  if_pos (by rw [free]; rfl)

theorem localRelease_free (free : (s.calls.recs[r]).state = .free) : localRelease r cause s = s :=
  if_pos (by rw [free]; rfl)

theorem shutdownRec_used (used : (s.calls.recs[r]).state ≠ .free) : shutdownRec r cause s =
    let w := withdrawCall (s.calls.recs[r]).ref s
    freeRec r cause (if setupKnown s.calls.recs[r] s then emitMsg (.release (s.calls.recs[r]).ref cause) w else w) :=
  if_neg (by simpa using used)

theorem localRelease_used (used : (s.calls.recs[r]).state ≠ .free) : localRelease r cause s =
    freeRec r cause (withdrawCall (s.calls.recs[r]).ref s) := if_neg (by simpa using used)

theorem localReleaseAll_used : localReleaseAll (fun c => c.state != .free) cause s =
    (List.finRange 4).foldl (fun s r => localRelease r cause s) s := by
  unfold localReleaseAll
  congr
  funext t r
  by_cases free : (t.calls.recs[r]).state = .free
  · rw [localRelease_free free, ite_self]
  · exact if_pos (by simpa using free)

theorem sendReads_iff (f : ReadFor) : sendReads f = true ↔ f = .descriptor ∨ ∃ k, f = .body k := by
  cases f <;> simp [sendReads]

theorem dropSend_some {x : Send} (send : s.texts.send = some x) : dropSend s =
    { discardReads sendReads (withdrawOpt x.msgId s) with texts := { s.texts with send := none } } := by
  unfold dropSend
  rw [send]

theorem endSend_some {x : Send} {st : DescState} {cause : Option Cause} (send : s.texts.send = some x) :
    endSend st cause s = finishDesc x.desc st cause (s.texts.descs[x.desc]).attempts (dropSend s) := by
  unfold endSend
  rw [send]

theorem attemptsAfter_few {n : Fin 16} (few : (s.texts.descs[n]).attempts < 2) :
    attemptsAfter n s = (s.texts.descs[n]).attempts + 1 := Nat.min_eq_right (by omega)

theorem attemptsAfter_last {n : Fin 16} (many : 2 ≤ (s.texts.descs[n]).attempts) : attemptsAfter n s = 3 :=
  Nat.min_eq_left (by omega)

theorem textLost_some {x : Send} (send : s.texts.send = some x) : textLost cause s =
    if 3 ≤ attemptsAfter x.desc s then finishDesc x.desc .failed (some cause) (attemptsAfter x.desc s) (dropSend s)
    else setDesc x.desc (fun d => { d with state := .queued, attempts := attemptsAfter x.desc s }) (dropSend s) := by
  unfold textLost
  rw [send]

theorem leaveService_steps {told : Bool} : leaveService cause told s =
    let t := unlivePubs PubKind.isCamping { s with
      mob := { s.mob with reestWaits := false }
      conn := { s.conn with
        connectTimer := .stopped, areaTimer := .stopped, inactTimer := .stopped, reestTimer := .stopped, areaMsg := none
        camping := false, reqMsg := none } }
    let u := textLost cause ((List.finRange 4).foldl (fun u r => localRelease r cause u) t)
    let v := setConn .noService { u with conn := { u.conn with purposes := [], attempts := 0, opening := none, awaited := none } }
    let w := if told then v else raisePrimary .conn (event v .serviceLost .primary 0 0 0 0 0) .serviceLost v
    let x := if w.mob.state = .rebuilding then endSwitch w else w
    if cause = .radioLoss then restartRound x else x := by
  simp only [leaveService, localReleaseAll_used, stopConnTimers]

end Sys2Proof.Machine
end

section
/-! SUPPORT. The moments of a shutdown: in NO-SERVICE, of a call, of a text, of an inbox context (R80, R81, R141, R162, R169). -/

namespace Sys2Proof.Machine

variable {s t u : State} {m : AirMsg} {q x : QMsg} {r : Fin 4} {c : CallRec} {cause : Cause}

/-! ## The end of the moment during a shutdown -/

/-- No text begins during a shutdown (R156). -/
theorem pumpText_down (down : s.conn.shutdown.isSome = true) : pumpText s = s := by
  have off : s.conn.shutdown.isNone = false := by
    cases h : s.conn.shutdown <;> simp [h] at down ⊢
  have held : headReady s = false := by
    unfold headReady
    split
    · rfl
    · simp [off]
  simp [pumpText, held]

/-- A shutdown under way whose moment ends with a message of the queue sent. The texts may hold one that is ready. -/
theorem settle_down {x : Texts} (down : s.conn.shutdown.isSome = true) (stopped : s.conn.inactTimer = .stopped)
    (near : Near { unqueued s with texts := x }) (arrivals : s.texts.arrivals = []) (open_ : linkOpen s = true)
    (free : s.link.opSendSig = .stopped) (next : nextMsg s.link = some q) : settle s = sentQueued q s := by
  rw [settle_queued (by exact near.still) (pumpRound_still 6 (by exact near.round)) arrivals (pumpText_down down)
    (by exact near.ended) open_ free next]
  exact pumpIdle_down down stopped

theorem Near.down (near : Near t) : Near (shuttingDown cause t) := by
  obtain ⟨steady, ended⟩ := near
  refine ⟨?_, ended⟩
  simp only [Machine.steady, Bool.and_eq_true] at steady ⊢
  obtain ⟨⟨⟨⟨⟨⟨refused, -⟩, unbinding⟩, writeBack⟩, round⟩, arrived⟩, texts⟩ := steady
  exact ⟨⟨⟨⟨⟨⟨refused, rfl⟩, unbinding⟩, writeBack⟩, round⟩, arrived⟩, texts⟩

theorem Near.begun (near : Near t) (serving : t.conn.state ≠ .noService) : Near (downBegun cause t) := by
  have detached : decide (t.conn.state = .noService) = false := by simp [serving]
  obtain ⟨steady, ended⟩ := near
  refine ⟨?_, ended⟩
  simp only [Machine.steady, Bool.and_eq_true] at steady ⊢
  obtain ⟨⟨⟨⟨⟨⟨refused, -⟩, unbinding⟩, writeBack⟩, round⟩, arrived⟩, texts⟩ := steady
  exact ⟨⟨⟨⟨⟨⟨refused, by simp [downBegun, detached]⟩, unbinding⟩, writeBack⟩, round⟩, arrived⟩, texts⟩

/-- A shutdown that hands nothing but its DETACH. -/
theorem settle_detach {x : Texts} (near : Near { t with texts := x }) (arrivals : t.texts.arrivals = []) (clear : LinkClear t) :
    settle (emitMsg .detach (shuttingDown cause t)) = sent .detach (shuttingDown cause t) := by
  obtain ⟨open_, queue, outside, free, hold⟩ := clear
  have handed := emitMsg_queued (m := .detach) (s := shuttingDown cause t) near.quiet.2.2 queue outside
  obtain ⟨steady, pending, owed, -, waits, readWaits, mark, level⟩ := near.down (cause := cause)
  have quiet : Near { unqueued (emitMsg .detach (shuttingDown cause t)) with texts := x } := by
    rw [handed]
    exact ⟨steady, pending, owed, .inl rfl, waits, readWaits, mark, level⟩
  rw [handed] at quiet ⊢
  rw [settle_down (by rfl) rfl quiet arrivals open_ free (nextMsg_one rfl rfl hold)]
  simp [sentQueued, sent]

/-! ## In NO-SERVICE (R81) -/

/-- A shutdown begun in NO-SERVICE: no DETACH is placed (R80). -/
def downUnplaced (cause : Cause) (s : State) : State := { s with
  mob := { s.mob with reestWaits := false }
  conn := { s.conn with
    shutdown := some cause, shutNoDetach := true
    connectTimer := .stopped, areaTimer := .stopped, inactTimer := .stopped, reestTimer := .stopped, areaMsg := none
    camping := false, purposes := [], attempts := 0, opening := none, awaited := none, reqMsg := none } }

/-- The end of it: OFF, written (R81). -/
def downEnded (s : State) : State := connWritten .off { s with
  mob := { s.mob with reestWaits := false }
  cells := { s.cells with roundTimer := .stopped }
  conn := { s.conn with
    shutdown := none, connectTimer := .stopped, areaTimer := .stopped, inactTimer := .stopped, reestTimer := .stopped
    shutTimer := .stopped, shutNoDetach := false, detachMsg := none, areaMsg := none, camping := false, purposes := []
    attempts := 0, opening := none, awaited := none, reqMsg := none } }

theorem shutdownEnd_unplaced (calm : Calm s) (out : s.conn.state = .noService) :
    shutdownEnd (downUnplaced cause s) = downEnded s := by
  have moved : setConn .off { downUnplaced cause s with conn := { (downUnplaced cause s).conn with
      shutdown := none, shutTimer := .stopped, detachMsg := none, shutNoDetach := false } } = downEnded s := by
    rw [setConn_plain (by exact calm.jobs) (by exact calm.mem) (by exact calm.waits) (by exact calm.room' (n := 1) (by decide))
      (by simp [downUnplaced, out])]
    unfold afterConn
    rw [show (downUnplaced cause s).conn.state = .noService from out]
    simp only [reduceCtorEq, if_false, if_true, ne_eq, not_false_eq_true, and_true]
    rw [abort_none (by exact calm.phase) (by exact calm.round) (by exact calm.noRound)]
    rfl
  rw [shutdownEnd_some rfl (by simp [downUnplaced, calm.bound]), moved,
    emptyQueue_plain (by exact calm.queue) (by exact calm.outside) (by exact calm.waits) (by exact calm.report)]

theorem pumpShutdown_up (up : s.conn.shutdown = none) (bound : s.bind.state ≠ .unbinding) : pumpShutdown s = s := by
  simp [pumpShutdown, up, bound]

theorem pumpShutdown_unplaced (calm : Calm s) (out : s.conn.state = .noService) (known : cause ≠ .unbind) :
    pumpShutdown (downUnplaced cause s) = downEnded s := by
  have placed : shutdownPlaced (downUnplaced cause s) = true := by
    simp [shutdownPlaced, jobWaits, downUnplaced, calm.waits]
  have bound : (downEnded s).bind.state ≠ .unbinding := by simp [downEnded, connWritten, joinWrite, calm.bound]
  unfold pumpShutdown
  rw [placed, shutdownEnd_unplaced calm out]
  simp [downUnplaced, known, bound]

theorem downEnded_resting (calm : Calm s) : Resting (downEnded s) := by
  have rest : Resting { s with conn := { (downEnded s).conn with state := .off } } :=
    calm.rest_conn (by rfl) (by simp) (by rfl)
  exact rest

/-- In NO-SERVICE a shutdown ends with its last write (R81). -/
theorem settle_shutdown_noService (calm : Calm s) (out : s.conn.state = .noService) (up : s.conn.shutdown = none)
    (free : callsFree s = true) (unsent : s.texts.send = none) (resv : s.texts.resv = []) (known : cause ≠ .unbind) :
    settle (requestShutdown cause s) = downEnded s := by
  have begun : requestShutdown cause s = downUnplaced cause s := by
    rw [shutdown_plain up (by simp [out]) free unsent resv calm.idle calm.pubs, out]
    exact if_pos rfl
  have refused : s.link.refused = [] := calm.near.still.1
  have same : settle (downUnplaced cause s) = settle (downEnded s) := by
    unfold settle
    rw [refused_none (by exact refused), pumpShutdown_unplaced calm out known, refused_none (by exact refused),
      pumpShutdown_up rfl (by simp [downEnded, connWritten, joinWrite, calm.bound])]
  rw [begun, same, settle_resting (downEnded_resting calm)]

theorem downEnded_eq (up : s.conn.shutdown = none) : downEnded s = connWritten .off { s with
    mob := { s.mob with reestWaits := false }
    cells := { s.cells with roundTimer := .stopped }
    conn := { s.conn with
      connectTimer := .stopped, areaTimer := .stopped, inactTimer := .stopped, reestTimer := .stopped, shutTimer := .stopped
      shutNoDetach := false, detachMsg := none, areaMsg := none, camping := false, purposes := [], attempts := 0
      opening := none, awaited := none, reqMsg := none } } := by
  unfold downEnded
  rw [← up]

/-! ## Changes of the connection among other changes -/

theorem recMoved_conn (r : Fin 4) (c : CallRec) (s : State) (k : Conn) :
    recMoved r c { s with conn := k } = { recMoved r c s with conn := k } := by
  unfold recMoved recWritten
  rw [← eventPlaced_conn, ← wrote_conn]
  rfl

theorem recEnded_conn (waits : s.mem.waits = []) (k : Conn) :
    recEnded r c { s with conn := k } = { recEnded r c s with conn := k } := by
  obtain ⟨n, form, w, -⟩ := moved_form r c s
  unfold recEnded
  dsimp only
  rw [recMoved_conn, form]
  split
  · rw [speechStop_plain (by exact w.trans waits), speechStop_plain (by exact w.trans waits)]
  · rfl

theorem descWritten_conn (n : Fin 16) (d : Desc) (s : State) (k : Conn) :
    descWritten n d { s with conn := k } = { descWritten n d s with conn := k } :=
  wrote_conn (writeAt s .outbox (descLine n.val) (changedBytes (descFields n.val s.texts.descs[n]) (descFields n.val d)))
    (withDesc n d s) k

theorem textDone_conn (n : Fin 16) (d : Desc) (s : State) (k : Conn) :
    textDone n d { s with conn := k } = { textDone n d s with conn := k } := by
  let told := event s .textDone .none Kind.outbox.code (BitVec.ofNat 16 n.val) d.state.code (causeCode d.fail) 0
  let t := descWritten n d s
  let i := retireTo t.texts 16 t.texts.retire
  unfold textDone
  rw [descWritten_conn]
  dsimp only
  split
  · exact eventPlaced_conn told t k
  · exact eventPlaced_conn told (joinWrite (writeAt s .outbox 0 [(1, i)]) { t with texts := { t.texts with retire := i } }) k

/-! ## A call (R141) -/

theorem shutdownRecs_free {l : List (Fin 4)} (free : ∀ q ∈ l, (s.calls.recs[q]).state = .free) :
    l.foldl (fun s q => shutdownRec q cause s) s = s := by
  induction l with
  | nil => rfl
  | cons q l ih =>
    rw [List.foldl_cons, shutdownRec_free (free q List.mem_cons_self)]
    exact ih fun x h => free x (List.mem_cons_of_mem q h)

/-- Of one used record among FREE ones, a shutdown ends that one. -/
theorem shutdownCalls_one (before : ∀ q, q ≠ r → (s.calls.recs[q]).state = .free)
    (after : ∀ q, q ≠ r → ((shutdownRec r cause s).calls.recs[q]).state = .free) :
    shutdownCalls cause s = shutdownRec r cause s := by
  obtain ⟨l, l', split⟩ := List.append_of_mem (List.mem_finRange r)
  have once : (l ++ r :: l').Nodup := split ▸ List.nodup_finRange 4
  rw [List.nodup_append, List.nodup_cons] at once
  obtain ⟨-, ⟨behind, -⟩, front⟩ := once
  unfold shutdownCalls
  rw [split, List.foldl_append, List.foldl_cons,
    shutdownRecs_free (l := l) fun q h => before q fun e => front q h r List.mem_cons_self e,
    shutdownRecs_free (l := l') fun q h => after q fun e => behind (e ▸ h)]

theorem withRec_get_ne {c : CallRec} {q : Fin 4} (ne : q ≠ r) : (withRec r c s).calls.recs[q] = s.calls.recs[q] := by
  have apart : r.val ≠ q.val := fun e => ne (Fin.ext e.symm)
  simp [withRec, apart]

/-- A record that the network may know of ends with its RELEASE (R141). -/
theorem shutdownRec_told (near : Near s) (gap : s.calls.gapHeld = false) (clear : EventClear s) (room : Room 3 s)
    (queue : s.link.queue = []) (outside : s.link.outside = []) (used : (s.calls.recs[r]).state ≠ .free)
    (known : (s.calls.recs[r]).state = .dialing → (s.calls.recs[r]).stage = .sent) (reading : (s.calls.recs[r]).reading = false) :
    shutdownRec r cause s = emitMsg (.release (s.calls.recs[r]).ref cause) (recFreed r cause s) := by
  obtain ⟨pending, owed, waits⟩ := near.quiet
  have setup : setupKnown s.calls.recs[r] s = true := by
    rw [setupKnown_iff]
    by_cases dialing : (s.calls.recs[r]).state = .dialing
    · exact .inr (.inl (known dialing))
    · exact .inl dialing
  have freed : freeRec r cause (emitMsg (.release (s.calls.recs[r]).ref cause) s) =
      recFreed r cause (emitMsg (.release (s.calls.recs[r]).ref cause) s) := by
    rw [emit_eq waits]
    exact freeRec_freed (by exact gap) (by exact ⟨pending, owed, waits⟩) (by exact clear) (by exact room) (by exact reading)
  rw [shutdownRec_used used, withdrawCall_none queue outside waits, setup]
  exact freed.trans (recFreed_emit waits)

theorem downBegun_recFreed (waits : s.mem.waits = []) :
    recFreed r cause (downBegun cause s) = downBegun cause (recFreed r cause s) := by
  obtain ⟨m, p, form, -⟩ := recEnded_form r ((s.calls.recs[r]).free cause) s waits
  unfold downBegun recFreed
  rw [recEnded_conn waits, form]
  rfl

theorem downBegun_emit (waits : s.mem.waits = []) : emitMsg m (downBegun cause s) = downBegun cause (emitMsg m s) := by
  rw [emit_eq waits, emit_eq (by exact waits)]
  rfl

/-- A shutdown in CONNECTED with one call: its RELEASE handed, its record FREE, then DETACH handed (R80, R141). -/
theorem requestShutdown_call (calm : Calm s) (connected : s.conn.state = .connected) (up : s.conn.shutdown = none)
    (others : ∀ q, q ≠ r → (s.calls.recs[q]).state = .free) (used : (s.calls.recs[r]).state ≠ .free)
    (known : (s.calls.recs[r]).state = .dialing → (s.calls.recs[r]).stage = .sent) (reading : (s.calls.recs[r]).reading = false)
    (unsent : s.texts.send = none) (resv : s.texts.resv = []) : requestShutdown cause s =
      emitMsg .detach (shuttingDown cause (emitMsg (.release (s.calls.recs[r]).ref cause) (recFreed r cause s))) := by
  have told := shutdownRec_told (s := downBegun cause s) (r := r) (cause := cause) (calm.near.begun (by simp [connected]))
    calm.gap calm.events (calm.room' (n := 3) (by decide)) calm.queue calm.outside used known reading
  obtain ⟨m, p, form, waits, pubs⟩ := recFreed_form r cause s calm.waits
  have ended : shutdownRec r cause (downBegun cause s) =
      downBegun cause (emitMsg (.release (s.calls.recs[r]).ref cause) (recFreed r cause s)) := by
    rw [told, downBegun_recFreed calm.waits]
    exact downBegun_emit (by rw [form]; exact waits.trans calm.waits)
  have handed : emitMsg (.release (s.calls.recs[r]).ref cause) (recFreed r cause s) = _ :=
    emit_eq (by rw [form]; exact waits.trans calm.waits)
  rw [form] at handed ended ⊢
  have calls : shutdownCalls cause (downBegun cause s) = shutdownRec r cause (downBegun cause s) := by
    refine shutdownCalls_one others fun q ne => ?_
    rw [ended, handed]
    exact (congrArg CallRec.state (withRec_get_ne ne)).trans (others q ne)
  rw [handed] at ended ⊢
  refine requestShutdown_serving (by simp [connected]) up (by simp [connected]) ?_ rfl (by exact calm.idle) (pubs.trans calm.pubs)
  rw [calls, ended, endSend_none (by exact unsent), abandonAll_none (by exact resv)]

/-- Its moment: DETACH goes first, its class before that of RELEASE (R58, R59). -/
theorem settle_shutdown_call (calm : Calm s) (ref : Byte) :
    let u := shuttingDown cause (recFreed r cause s)
    settle (emitMsg .detach (shuttingDown cause (emitMsg (.release ref cause) (recFreed r cause s)))) = { u with
      conn := { u.conn with detachMsg := some (s.link.nextId + 1) }
      link := { s.link with
        nextId := s.link.nextId + 2, nextPlace := s.link.nextPlace + 2, opSendSig := .running 4
        askSendSig := some (.sendSig .detach)
        queue := [waiting s.link.nextId s.link.nextPlace (.release ref cause),
          { waiting (s.link.nextId + 1) (s.link.nextPlace + 1) .detach with inFlight := true }] }
      out := { u.out with link := s.out.link ++ [.sendSig .detach] } } := by
  intro u
  obtain ⟨m, p, form, waits, -⟩ := recFreed_form r cause s calm.waits
  obtain ⟨open_, -, -, idle, hold⟩ := calm.link
  have near : Near (recFreed r cause s) := calm.near.recEnded
  have link : (recFreed r cause s).link = s.link := by rw [form]; rfl
  have first := emitMsg_queued (m := .release ref cause) (s := recFreed r cause s) near.quiet.2.2 (by rw [link]; exact calm.queue)
    (by rw [link]; exact calm.outside)
  rw [form] at near first
  rw [show u = shuttingDown cause _ from congrArg (shuttingDown cause) form, form, first,
    emitMsg_second (by exact near.quiet.2.2) rfl (by exact calm.outside) (by decide)]
  obtain ⟨steady, pending, owed, -, waits', readWaits', mark, level⟩ := near.down (cause := cause)
  rw [settle_down (x := s.texts) (by rfl) rfl (by exact ⟨steady, pending, owed, .inl rfl, waits', readWaits', mark, level⟩)
    (by exact (steady_texts calm.steady).1) (by exact open_) (by exact idle)
    (nextMsg_two rfl rfl rfl (by exact hold))]
  exact sentQueued_second rfl (Nat.ne_of_lt (Nat.lt_succ_self _))

/-! ## A text (R162) -/

theorem textDone_kept (n : Fin 16) (d : Desc) (s : State) :
    (textDone n d s).texts.resv = s.texts.resv ∧ (textDone n d s).mem.pubs = s.mem.pubs := by
  obtain ⟨m, form, -, -, -, pubs, -⟩ := wrote_form
    (writeAt s .outbox (descLine n.val) (changedBytes (descFields n.val s.texts.descs[n]) (descFields n.val d))) (withDesc n d s)
  have written : descWritten n d s = { withDesc n d s with mem := m } := form
  unfold textDone
  rw [written]
  dsimp only
  split
  · exact ⟨rfl, pubs⟩
  · exact ⟨rfl, pubs⟩

/-- The text being sent, given up with a cause. -/
def textFailed (cause : Cause) (x : Send) (s : State) : State := textDone x.desc
  { s.texts.descs[x.desc] with state := .failed, fail := some cause } { s with texts := { s.texts with send := none } }

theorem textFailed_form (cause : Cause) (x : Send) (s : State) : ∃ m t, textFailed cause x s = { s with
      mem := m, texts := t, events := { s.events with producer := s.events.producer + 1 } } ∧
    m.waits = s.mem.waits ∧ m.readWaits = s.mem.readWaits ∧ m.pubs = s.mem.pubs ∧ t.arrivals = s.texts.arrivals ∧
    t.resv = s.texts.resv := by
  obtain ⟨m, t, form, waits, readWaits, -, -, arrivals, -⟩ := textDone_form x.desc
    { s.texts.descs[x.desc] with state := .failed, fail := some cause } { s with texts := { s.texts with send := none } }
  obtain ⟨resv, pubs⟩ := textDone_kept x.desc { s.texts.descs[x.desc] with state := .failed, fail := some cause }
    { s with texts := { s.texts with send := none } }
  rw [form] at resv pubs
  exact ⟨m, t, form, waits, readWaits, pubs, arrivals, resv⟩

theorem requestShutdown_text {x : Send} (calm : Calm s) (connected : s.conn.state = .connected) (up : s.conn.shutdown = none)
    (free : callsFree s = true) (resv : s.texts.resv = []) (send : s.texts.send = some x) :
    requestShutdown cause s = emitMsg .detach (shuttingDown cause (textFailed cause x s)) := by
  obtain ⟨m, t, form, -, -, pubs, -, unreserved⟩ := textFailed_form cause x s
  have ended : endSend .failed (some cause) (downBegun cause s) = downBegun cause (textFailed cause x s) := by
    rw [endSend_plain (x := x) (by exact send) (calm.near.begun (by simp [connected])) (by exact calm.queue) (by exact calm.outside)
      (by exact calm.reads) (by exact calm.events) (by exact calm.room' (n := 4) (by decide))]
    have same : _ = { textFailed cause x s with conn := (downBegun cause s).conn } :=
      textDone_conn x.desc { s.texts.descs[x.desc] with state := .failed, fail := some cause }
        { s with texts := { s.texts with send := none } } (downBegun cause s).conn
    refine Eq.trans same ?_
    rw [form]
    rfl
  rw [form] at ended ⊢
  refine requestShutdown_serving (by simp [connected]) up (by simp [connected]) ?_ rfl (by exact calm.idle) (pubs.trans calm.pubs)
  rw [shutdownCalls_free (by exact free), ended]
  exact abandonAll_none (unreserved.trans resv)

/-- Its moment: TEXT-DONE, and DETACH sent. The next text, ready though it may be, does not begin. -/
theorem settle_shutdown_text {x : Send} (calm : Calm s) :
    settle (emitMsg .detach (shuttingDown cause (textFailed cause x s))) =
      sent .detach (shuttingDown cause (textFailed cause x s)) := by
  obtain ⟨m, t, form, waits, readWaits, -, arrivals, -⟩ := textFailed_form cause x s
  obtain ⟨steady, pending, owed, queue, waits', readWaits', mark, level⟩ := calm.near
  rw [form]
  exact settle_detach (x := s.texts) ⟨steady, pending, owed, queue, waits.trans waits', readWaits.trans readWaits', mark, level⟩
    (arrivals.trans (steady_texts calm.steady).1) calm.link

/-! ## An inbox context (R169) -/

/-- The header of a context abandoned, and INBOX-ABANDONED. -/
def ctxClosed (c : Ctx) (s : State) : State :=
  eventPlaced (event s .inboxAbandoned .none Kind.inbox.code (BitVec.ofNat 16 (c.ring.toNat % 8)) 0 0 (c.ref.setWidth 32))
    (wrote (writeAt s .inbox (inboxSlotLine c.ring) (changedBytes (ctxFields c 1) (ctxFields c 3))) s)

/-- Its slot delivered, TEXT-ARRIVED; `s` is the state before, `u` the one with the header written. -/
def ctxDelivered (c : Ctx) (s u : State) : State :=
  eventPlaced (event s .textArrived .primary Kind.inbox.code (BitVec.ofNat 16 (c.ring.toNat % 8)) 3 0 0)
    (joinWrite (writeAt s .inbox 0 [(0, s.texts.inProd + 1)]) { u with
      sleep := { s.sleep with quiet := 0 }
      texts := { s.texts with
        ctxs := [], resv := [], inProd := s.texts.inProd + 1
        recent := (s.texts.recent ++ [(c.sender, c.ref)]).drop (s.texts.recent.length + 1 - 4) } })

/-- The one open context abandoned. -/
def ctxAbandoned (c : Ctx) (s : State) : State := ctxDelivered c s (ctxClosed c s)

theorem abandonAll_one {c : Ctx} (ctxs : s.texts.ctxs = [c]) (resv : s.texts.resv = [{ ring := c.ring, finish := .open_ }]) :
    abandonAll s = abandonCtx c s := by
  simp [abandonAll, resv, ctxs]

theorem abandonCtx_one {c : Ctx} (near : Near s) (clear : EventClear s) (room : Room 6 s) (awake : s.sleep.level = .awake)
    (cycle : s.sleep.cycle = s.sleep.base) (ctxs : s.texts.ctxs = [c])
    (resv : s.texts.resv = [{ ring := c.ring, finish := .open_ }])
    (space : occupancy (s.events.producer + 1) s.events.consumer < s.bind.capacity) : abandonCtx c s = ctxAbandoned c s := by
  let header := writeAt s .inbox (inboxSlotLine c.ring) (changedBytes (ctxFields c 1) (ctxFields c 3))
  have written : writeSlotHeader c (changedBytes (ctxFields c 1) (ctxFields c 3)) s = wrote header s :=
    emit_wrote (n := 5) near.quiet.2.2 room
  have left : Room 5 (wrote header s) := wrote_room room
  obtain ⟨m, form, waits, -⟩ := wrote_form header s
  rw [form] at left written
  have closed : closeCtx c .abandoned { s with mem := m } = { s with
      mem := m
      texts := { s.texts with
        ctxs := [], resv := [{ ring := c.ring, finish := .abandoned }]
        recent := (s.texts.recent ++ [(c.sender, c.ref)]).drop (s.texts.recent.length + 1 - 4) } } := by
    simp [closeCtx, ctxs, resv]
  obtain ⟨places, full, lossless, -⟩ := clear
  obtain ⟨pending, owed, unheld⟩ := near.quiet
  unfold abandonCtx ctxAbandoned ctxDelivered ctxClosed
  rw [written, closed]
  dsimp only
  rw [raise_near (by exact ⟨pending, owed, waits.trans unheld⟩)
      (by exact ⟨places, full, lossless, left.mono (by decide)⟩) rfl,
    deliver_one (ring := c.ring) (f := .abandoned) (by decide) rfl (by exact ⟨pending, owed, waits.trans unheld⟩)
      (by exact ⟨places, by simpa [ringFull] using space, lossless, event_room (left.mono (by decide))⟩) (event_room (by exact left))
      (by exact awake) (by exact cycle)]
  rw [show wrote (writeAt s .inbox (inboxSlotLine c.ring) (changedBytes (ctxFields c 1) (ctxFields c 3))) s = _ from form]
  rfl

theorem ctxClosed_conn (c : Ctx) (s : State) (k : Conn) :
    ctxClosed c { s with conn := k } = { ctxClosed c s with conn := k } := by
  unfold ctxClosed
  rw [wrote_conn]
  exact eventPlaced_conn (event s .inboxAbandoned .none Kind.inbox.code (BitVec.ofNat 16 (c.ring.toNat % 8)) 0 0
    (c.ref.setWidth 32)) (wrote (writeAt s .inbox (inboxSlotLine c.ring) (changedBytes (ctxFields c 1) (ctxFields c 3))) s) k

theorem ctxDelivered_conn (c : Ctx) (s u : State) (k : Conn) :
    ctxDelivered c { s with conn := k } { u with conn := k } = { ctxDelivered c s u with conn := k } := by rfl

theorem ctxAbandoned_conn (c : Ctx) (s : State) (k : Conn) :
    ctxAbandoned c { s with conn := k } = { ctxAbandoned c s with conn := k } := by
  unfold ctxAbandoned
  rw [ctxClosed_conn, ctxDelivered_conn]

theorem ctxClosed_form (c : Ctx) (s : State) : ∃ m,
    ctxClosed c s = { s with mem := m, events := { s.events with producer := s.events.producer + 1 } } ∧
    m.waits = s.mem.waits ∧ m.readWaits = s.mem.readWaits ∧ m.pubs = s.mem.pubs := by
  obtain ⟨m, form, waits, readWaits, -, pubs, -⟩ :=
    wrote_form (writeAt s .inbox (inboxSlotLine c.ring) (changedBytes (ctxFields c 1) (ctxFields c 3))) s
  unfold ctxClosed
  rw [form]
  exact ⟨_, rfl, waits, readWaits, pubs⟩

theorem ctxDelivered_form (c : Ctx) (s u : State) : ∃ m, ctxDelivered c s u = { u with
      mem := m
      sleep := { s.sleep with quiet := 0 }
      events := { u.events with producer := u.events.producer + 1 }
      texts := { s.texts with
        ctxs := [], resv := [], inProd := s.texts.inProd + 1
        recent := (s.texts.recent ++ [(c.sender, c.ref)]).drop (s.texts.recent.length + 1 - 4) } } ∧
    m.waits = u.mem.waits ∧ m.readWaits = u.mem.readWaits ∧ m.pubs = u.mem.pubs := ⟨_, rfl, rfl, rfl, rfl⟩

theorem ctxAbandoned_form (c : Ctx) (s : State) : ∃ m, ctxAbandoned c s = { s with
      mem := m
      sleep := { s.sleep with quiet := 0 }
      events := { s.events with producer := s.events.producer + 1 + 1 }
      texts := { s.texts with
        ctxs := [], resv := [], inProd := s.texts.inProd + 1
        recent := (s.texts.recent ++ [(c.sender, c.ref)]).drop (s.texts.recent.length + 1 - 4) } } ∧
    m.waits = s.mem.waits ∧ m.readWaits = s.mem.readWaits ∧ m.pubs = s.mem.pubs := by
  obtain ⟨m, closed, waits, readWaits, pubs⟩ := ctxClosed_form c s
  obtain ⟨n, delivered, waits', readWaits', pubs'⟩ := ctxDelivered_form c s (ctxClosed c s)
  unfold ctxAbandoned
  rw [delivered]
  rw [closed] at waits' readWaits' pubs' ⊢
  exact ⟨n, rfl, waits'.trans waits, readWaits'.trans readWaits, pubs'.trans pubs⟩

theorem requestShutdown_ctx {c : Ctx} (calm : Calm s) (connected : s.conn.state = .connected) (up : s.conn.shutdown = none)
    (free : callsFree s = true) (unsent : s.texts.send = none) (ctxs : s.texts.ctxs = [c])
    (resv : s.texts.resv = [{ ring := c.ring, finish := .open_ }])
    (space : occupancy (s.events.producer + 1) s.events.consumer < s.bind.capacity) :
    requestShutdown cause s = emitMsg .detach (shuttingDown cause (ctxAbandoned c s)) := by
  obtain ⟨m, form, -, -, pubs⟩ := ctxAbandoned_form c s
  have one : abandonCtx c (downBegun cause s) = ctxAbandoned c (downBegun cause s) :=
    abandonCtx_one (calm.near.begun (by simp [connected])) (by exact calm.events) (by exact calm.room' (n := 6) (by decide))
      (by exact calm.awake) (by exact calm.cycle) (by exact ctxs) (by exact resv) (by exact space)
  have ended : ctxAbandoned c (downBegun cause s) = downBegun cause (ctxAbandoned c s) := by
    refine (ctxAbandoned_conn c s (downBegun cause s).conn).trans ?_
    unfold downBegun
    rw [form]
  refine requestShutdown_serving (by simp [connected]) up (by simp [connected]) ?_ (by rw [form]) (by rw [form]; exact calm.idle)
    (by rw [form]; exact pubs.trans calm.pubs)
  rw [shutdownCalls_free (by exact free), endSend_none (by exact unsent), abandonAll_one (by exact ctxs) (by exact resv),
    one, ended]

theorem settle_shutdown_ctx {c : Ctx} (calm : Calm s) :
    settle (emitMsg .detach (shuttingDown cause (ctxAbandoned c s))) = sent .detach (shuttingDown cause (ctxAbandoned c s)) := by
  obtain ⟨m, form, waits, readWaits, -⟩ := ctxAbandoned_form c s
  obtain ⟨steady, pending, owed, queue, waits', readWaits', mark, level⟩ := calm.near
  rw [form]
  exact settle_detach (x := s.texts) ⟨steady, pending, owed, queue, waits.trans waits', readWaits.trans readWaits', mark, level⟩
    (by exact (steady_texts calm.steady).1) calm.link

end Sys2Proof.Machine

namespace Sys2Proof
open Machine

/-- Settles O42: a shutdown by what it ends first, and leaving service step by step. -/
theorem radioRequests : Obligations.RadioRequests := by
  unfold Obligations.RadioRequests
  refine ⟨fun s calm => ⟨fun h => ?_, fun h => ?_, fun v h => ?_,
      fun free unsent resv up => ⟨fun camped => ?camped, fun out => ?out⟩,
      fun camped down due => ?timer, exec_shutdownTimer_off,
      fun connected up => ⟨fun r others => ?call, fun x free resv send awaiting => ?text,
        fun c free unsent ctxs resv space => ?ctx⟩⟩,
    fun s o => exec_radioRequest o, fun s cause => ⟨requestShutdown_still, fun on up => ?steps⟩, ?records, fun s r cause => rfl,
    fun s => ?contexts, sendReads_iff, ?text', fun s cause told => leaveService_steps, fun s => exec_reestTimer⟩
  · rw [exec_radioRequest calm.notice, radioRequest_still h, settle_resting calm.rest]
  · rw [exec_radioRequest calm.notice, radioRequest_down, requestShutdown_still h, settle_resting calm.rest]
  · rw [exec_radioRequest calm.notice, radioRequest_ignored h, ignore_placed calm.rest calm.events]
  case camped =>
    rw [exec_radioRequest calm.notice, radioRequest_down, requestShutdown_camped camped up free unsent resv calm.idle calm.pubs,
      detach_near calm camped]
  case out =>
    rw [exec_radioRequest calm.notice, radioRequest_down, settle_shutdown_noService calm out up free unsent resv (by decide),
      downEnded_eq up]
  case timer =>
    rw [exec_shutdownTimer calm.jobs due down, shutdownEnd_camped calm camped down, settle_shutdown calm camped]
  case call =>
    intro c used known reading unsent resv t u
    rw [exec_radioRequest calm.notice, radioRequest_down,
      requestShutdown_call calm connected up others used known reading unsent resv, settle_shutdown_call calm]
    rfl
  case text =>
    rw [exec_radioRequest calm.notice, radioRequest_down,
      requestShutdown_text calm connected up free resv send, settle_shutdown_text calm]
    rfl
  case ctx =>
    rw [exec_radioRequest calm.notice, radioRequest_down, requestShutdown_ctx calm connected up free unsent ctxs resv space,
      settle_shutdown_ctx calm]
    rfl
  case records =>
    intro s r cause c w known
    refine ⟨fun free => ⟨shutdownRec_free free, localRelease_free free⟩,
      fun used => ⟨fun k => ?_, fun k => ?_, localRelease_used used⟩⟩
    · rw [shutdownRec_used used, setupKnown_iff.mpr k]
      rfl
    · rw [shutdownRec_used used, Bool.eq_false_iff.mpr (fun h => k (setupKnown_iff.mp h))]
      rfl
  case steps => exact requestShutdown_steps on up
  case contexts => rfl
  case text' =>
    refine fun s st cause lost => ⟨fun none => ⟨endSend_none none, textLost_none none⟩, fun x send => ?_⟩
    intro n
    refine ⟨?_, endSend_some send, fun last => ?_, fun few => ?_⟩
    · rw [dropSend_some send]
      unfold Send.msgId
      cases x.status <;> rfl
    · rw [textLost_some send, attemptsAfter_last last]
      exact if_pos (Nat.le_refl 3)
    · rw [textLost_some send, attemptsAfter_few few]
      exact if_neg (by omega)

end Sys2Proof
end

section
/-! SUPPORT. Host requests of a call record: how each is taken or refused (R128 to R135, R138). -/

namespace Sys2Proof.Machine

variable {s t u : State} {m : AirMsg} {q : QMsg} {r x y : Fin 4} {c : CallRec} {cause : Cause} {k : Request} {res : ReqResult}

/-! ## Requests taken and refused (R128) -/

theorem originate_refusedState (h : (s.calls.recs[r]).state ≠ .free) :
    takeRequest r .originate s = writeResult r .originate .refusedState s := if_pos (by simpa using h)

theorem originate_refusedNoService (h : (s.calls.recs[r]).state = .free) (out : connSeen s = .off ∨ connSeen s = .noService) :
    takeRequest r .originate s = writeResult r .originate .refusedNoService s :=
  (if_neg (by rw [h]; decide)).trans (if_pos (by simpa using out))

theorem originate_taken (h : (s.calls.recs[r]).state = .free) (on : connSeen s ≠ .off) (served : connSeen s ≠ .noService)
    (claim : claimElsewhere r s = false) : takeRequest r .originate s = originate r s :=
  (if_neg (by rw [h]; decide)).trans ((if_neg (by simp [on, served])).trans (if_neg (by simp [claim])))

theorem answer_refusedState (h : (s.calls.recs[r]).state ≠ .incoming) :
    takeRequest r .answer s = writeResult r .answer .refusedState s := if_pos (by simpa using h)

theorem answer_refusedActive (h : (s.calls.recs[r]).state = .incoming) (claim : claimElsewhere r s = true) :
    takeRequest r .answer s = writeResult r .answer .refusedActive s := (if_neg (by rw [h]; decide)).trans (if_pos claim)

theorem answer_taken (h : (s.calls.recs[r]).state = .incoming) (claim : claimElsewhere r s = false) :
    takeRequest r .answer s = answerCall r s := (if_neg (by rw [h]; decide)).trans (if_neg (by simp [claim]))

theorem hold_refusedState (h : (s.calls.recs[r]).state ≠ .active ∨ (s.calls.recs[r]).exch ≠ .none) :
    takeRequest r .hold s = writeResult r .hold .refusedState s := if_pos (by simpa using h)

theorem hold_taken (h : (s.calls.recs[r]).state = .active) (exch : (s.calls.recs[r]).exch = .none) :
    takeRequest r .hold s = placeHold r none (writeResult r .hold .accepted s) := if_neg (by rw [h, exch]; decide)

theorem resume_refusedState (h : (s.calls.recs[r]).state ≠ .held ∨ (s.calls.recs[r]).exch ≠ .none) :
    takeRequest r .resume s = writeResult r .resume .refusedState s := if_pos (by simpa using h)

theorem resume_refusedActive (h : (s.calls.recs[r]).state = .held) (exch : (s.calls.recs[r]).exch = .none)
    (claim : claimElsewhere r s = true) : takeRequest r .resume s = writeResult r .resume .refusedActive s :=
  (if_neg (by rw [h, exch]; decide)).trans (if_pos claim)

theorem resume_taken (h : (s.calls.recs[r]).state = .held) (exch : (s.calls.recs[r]).exch = .none)
    (claim : claimElsewhere r s = false) : takeRequest r .resume s = placeResume r (writeResult r .resume .accepted s) :=
  (if_neg (by rw [h, exch]; decide)).trans (if_neg (by simp [claim]))

theorem swap_taken (h : (s.calls.recs[r]).state = .held) (exch : (s.calls.recs[r]).exch = .none)
    (partner : swapPartner r s = some y) : takeRequest r .swap s = swapCalls r y s := by
  refine (if_neg (by rw [h, exch]; decide)).trans ?_
  rw [partner]

theorem swap_refusedState (h : (s.calls.recs[r]).state ≠ .held ∨ (s.calls.recs[r]).exch ≠ .none ∨ swapPartner r s = none) :
    takeRequest r .swap s = writeResult r .swap .refusedState s := by
  by_cases held : (s.calls.recs[r]).state ≠ .held ∨ (s.calls.recs[r]).exch ≠ .none
  · exact if_pos (by simpa using held)
  · have partner : swapPartner r s = none := by
      rcases h with h | h | h
      · exact absurd (.inl h) held
      · exact absurd (.inr h) held
      · exact h
    refine (if_neg (by simpa using held)).trans ?_
    rw [partner]

theorem release_refusedState (h : (s.calls.recs[r]).state = .free) :
    takeRequest r .release s = writeResult r .release .refusedState s := if_pos (by rw [h]; rfl)

theorem release_taken (h : (s.calls.recs[r]).state ≠ .free) :
    takeRequest r .release s = releaseRec r .locl (writeResult r .release .accepted s) := if_neg (by simpa using h)

/-! ## A release (R135) -/

theorem releaseRec_still (h : (s.calls.recs[r]).state = .free ∨ (s.calls.recs[r]).state = .releasing) :
    releaseRec r cause s = s := by
  unfold releaseRec
  dsimp only
  rcases h with h | h
  · rw [h]
  · rw [h]

theorem releaseRec_used (h : (s.calls.recs[r]).state ≠ .free) (h' : (s.calls.recs[r]).state ≠ .releasing) :
    releaseRec r cause s = if setupKnown s.calls.recs[r] s then placeRelease r cause s else localReleaseOne r cause s := by
  unfold releaseRec
  dsimp only
  split
  case h_1 free => exact absurd free h
  case h_2 releasing => exact absurd releasing h'
  case h_3 => rfl

/-- The SETUP of a DIALING record has not gone out: the network knows nothing of the call. -/
def setupGone (c : CallRec) (s : State) : Prop := c.state = .dialing ∧ c.stage ≠ .sent ∧
  (c.stage = .placed → ∀ q ∈ s.link.queue, q.inFlight = true → c.setupMsg ≠ some q.id)

theorem setupGone_iff : setupGone c s ↔ setupKnown c s = false := by
  rw [← Bool.not_eq_true, setupKnown_iff]
  simp only [setupGone, not_or, not_and, not_exists, ne_eq, not_not]

theorem releaseRec_gone (gone : setupGone s.calls.recs[r] s) : releaseRec r cause s = partnerLeft s.calls.recs[r]
    (changeState r (CallRec.free cause) (dropCapture r (withdrawCall (s.calls.recs[r]).ref s))) := by
  have dialing := gone.1
  rw [releaseRec_used (by rw [dialing]; decide) (by rw [dialing]; decide), setupGone_iff.mp gone]
  exact congrArg (partnerLeft s.calls.recs[r]) (localRelease_used (by rw [dialing]; decide))

theorem releaseRec_known (h : (s.calls.recs[r]).state ≠ .free) (h' : (s.calls.recs[r]).state ≠ .releasing)
    (known : ¬ setupGone s.calls.recs[r] s) : releaseRec r cause s = placeRelease r cause s := by
  rw [setupGone_iff, Bool.not_eq_false] at known
  rw [releaseRec_used h h', known]
  rfl

/-! ## The messages that a release withdraws, a record FREE, requests stored (R135, R136, R138) -/

/-- The WAITING messages of a record, by its reference (log entry 82). -/
def withdrawn (ref : Byte) (q : QMsg) : Bool := !q.inFlight && (match q.msg with
  | .setup n _ | .answer n | .hold n | .resume n | .release n _ => n == ref
  | _ => false)

/-- Work behind a write that a withdrawal leaves. -/
def actKept (ref : Byte) (a : Act) : Bool := match a with
  | .msg i m => !withdrawn ref { id := i, msg := m, inFlight := false, place := 0, attempts := 0 }
  | _ => true

theorem withdrawn_callRef (ref : Byte) (q : QMsg) : (callRef q.msg == some ref && !q.inFlight) = withdrawn ref q := by
  unfold withdrawn
  rw [Bool.and_comm]
  cases q.msg <;> rfl

/-- Messages withdrawn from the queue, from outside it and from the work behind a write. -/
def withdrawBy (gone : QMsg → Bool) (kept : Act → Bool) (s : State) : State := { s with
  link := joinOutside { s.link with
    queue := s.link.queue.filter (fun q => !gone q), outside := s.link.outside.filter (fun q => !gone q) }
  mem := { s.mem with waits := s.mem.waits.map (fun w => { w with acts := w.acts.filter kept }) } }

theorem withdrawCall_eq (ref : Byte) (s : State) : withdrawCall ref s = withdrawBy (withdrawn ref) (actKept ref) s := by
  have messages : (fun q : QMsg => callRef q.msg == some ref && !q.inFlight) = withdrawn ref := funext (withdrawn_callRef ref)
  have work : (fun a : Act => match a with | .msg _ m => callRef m != some ref | _ => true) = actKept ref := by
    funext a
    cases a
    case msg j m => cases m <;> rfl
    all_goals rfl
  exact congrArg₂ (fun gone kept => withdrawBy gone kept s) messages work

theorem free_eq (c : CallRec) (cause : Cause) : c.free cause = { c with
    state := .free, endCause := some cause, timer := .stopped, exch := .none, partner := none, exchMsg := none, setupMsg := none
    relMsg := none, relCause := none, dial := none, reading := false, stage := .notPlaced, pending := none
    reqCode := match c.pending with | some q => q.code | none => c.reqCode
    result := if c.pending.isSome then .refusedState else c.result } := by
  unfold CallRec.free CallRec.dropPending CallRec.clear
  cases c.pending <;> rfl

theorem callRequest_switch (on : s.calls.switchOn = true) : callRequest r k s = storePending r k s := if_pos on

theorem callRequest_free (off : s.calls.switchOn = false) : callRequest r k s = takeRequest r k s := if_neg (by simp [off])

theorem requestOf_some {code : Byte} (h : code ≠ 0) (known : code.toNat ≤ 6) : (requestOf code).isSome = true := by
  have positive : 0 < code.toNat := Nat.pos_of_ne_zero fun e => h (BitVec.eq_of_toNat_eq e)
  unfold requestOf
  generalize code.toNat = n at positive known
  interval_cases n <;> rfl

theorem requestOf_none {code : Byte} (unknown : 6 < code.toNat) : requestOf code = none := by
  unfold requestOf
  split
  case h_7 => rfl
  all_goals omega

/-- A notice of no request or of a known one under the unknown one's command is nothing (log entry 3). -/
theorem requestUnknown_known {code : Byte} (h : code = 0 ∨ code.toNat ≤ 6) : requestUnknown r code s = s := by
  unfold requestUnknown
  by_cases zero : code = 0
  · exact if_pos (.inl zero)
  · exact if_pos (.inr (requestOf_some zero (h.resolve_left zero)))

theorem requestUnknown_unknown {code : Byte} (h : 6 < code.toNat) : requestUnknown r code s =
    setRec r (fun c => { c with reqCode := code, result := .refusedUnknown }) s := by
  refine if_neg ?_
  rintro (zero | known)
  · rw [zero] at h
    exact absurd h (by decide)
  · rw [requestOf_none h] at known
    exact absurd known (by decide)

theorem connSeen_up (up : s.conn.shutdown = none) : connSeen s = s.conn.state := by simp [connSeen, up]

end Sys2Proof.Machine
end

section
/-! SUPPORT. The moments of a host request of a call record (R129 to R135). -/

namespace Sys2Proof.Machine

variable {s t u : State} {m : AirMsg} {q : QMsg} {r x y : Fin 4} {c d : CallRec} {cause : Cause} {k : Request} {res : ReqResult}

/-! ## The result written (R128) -/

theorem recWritten_link (r : Fin 4) (c : CallRec) (s : State) : (recWritten r c s).link = s.link := by
  rw [(recWritten_same r c s).mem]
  rfl

theorem recWritten_get_ne (ne : x ≠ r) : (recWritten r c s).calls.recs[x] = s.calls.recs[x] := by
  rw [recWritten_rec]
  exact withRec_get_ne ne

theorem writeResult_written (gap : s.calls.gapHeld = false) (waits : s.mem.waits = []) (room : Room 1 s) :
    writeResult r k res s = recWritten r ((s.calls.recs[r]).answered k res) s := setRec_room (n := 0) gap waits room

theorem settle_recWritten (calm : Calm s) (same : c.state = .free ↔ (s.calls.recs[r]).state = .free) :
    settle (recWritten r c s) = recWritten r c s :=
  settle_same calm calm.near.rec (connIdle_recWritten same) (by rw [(recWritten_same r c s).mem]; rfl)

/-- A refusal: the result and its code, written. -/
theorem settle_refused (calm : Calm s) :
    settle (writeResult r k res s) = recWritten r ((s.calls.recs[r]).answered k res) s := by
  rw [writeResult_written calm.gap calm.waits (calm.room' (by decide))]
  exact settle_recWritten calm Iff.rfl

theorem settle_requestUnknown {code : Byte} (calm : Calm s) (unknown : 6 < code.toNat) : settle (requestUnknown r code s) =
    recWritten r { s.calls.recs[r] with reqCode := code, result := .refusedUnknown } s := by
  rw [requestUnknown_unknown unknown, setRec_room (n := 0) calm.gap calm.waits (calm.room' (by decide))]
  exact settle_recWritten calm Iff.rfl

/-! ## Exchanges (R133, R134) -/

theorem placeHold_eq {partner : Option (Fin 4)} (gap : s.calls.gapHeld = false) (waits : s.mem.waits = []) (room : Room 1 s) :
    placeHold r partner s = emitMsg (.hold (s.calls.recs[r]).ref)
      (withRec r { s.calls.recs[r] with exch := .hold, partner := partner, exchMsg := some s.link.nextId } s) := by
  unfold placeHold
  dsimp only
  rw [setRec_same gap waits room rfl]

theorem placeResume_eq (gap : s.calls.gapHeld = false) (waits : s.mem.waits = []) (room : Room 1 s) :
    placeResume r s = emitMsg (.resume (s.calls.recs[r]).ref)
      (withRec r { s.calls.recs[r] with exch := .resume, partner := none, exchMsg := some s.link.nextId } s) := by
  unfold placeResume
  dsimp only
  rw [setRec_same gap waits room rfl]

/-- A record written, then an exchange of one of the records placed. -/
theorem settle_exchange (calm : Calm s) (same : c.state = .free ↔ (s.calls.recs[r]).state = .free)
    (same' : d.state = .free ↔ ((recWritten r c s).calls.recs[y]).state = .free) :
    settle (emitMsg m (withRec y d (recWritten r c s))) = sent m (withRec y d (recWritten r c s)) :=
  settle_told calm (by exact calm.near.rec (r := r) (c := c))
    (by exact LinkClear.same (s := withRec r c s) (t := recWritten r c s) calm.link (recWritten_same r c s))
    ((connIdle_withRec same').trans (connIdle_recWritten same)) (by
      show (recWritten r c s).conn.inactTimer = s.conn.inactTimer
      rw [(recWritten_same r c s).mem]
      rfl)

theorem settle_hold (calm : Calm s) : settle (placeHold r none (writeResult r .hold .accepted s)) =
    sent (.hold (s.calls.recs[r]).ref) (withRec r { (s.calls.recs[r]).answered .hold .accepted with
      exch := .hold, partner := none, exchMsg := some s.link.nextId }
      (recWritten r ((s.calls.recs[r]).answered .hold .accepted) s)) := by
  rw [writeResult_written calm.gap calm.waits (calm.room' (by decide)),
    placeHold_eq (by rw [recWritten_rec]; exact calm.gap) ((recWritten_same r _ s).waits.trans calm.waits)
      (recWritten_room (calm.room' (by decide))), recWritten_get, recWritten_link]
  exact settle_exchange calm Iff.rfl (by rw [recWritten_get])

theorem settle_resume (calm : Calm s) : settle (placeResume r (writeResult r .resume .accepted s)) =
    sent (.resume (s.calls.recs[r]).ref) (withRec r { (s.calls.recs[r]).answered .resume .accepted with
      exch := .resume, partner := none, exchMsg := some s.link.nextId }
      (recWritten r ((s.calls.recs[r]).answered .resume .accepted) s)) := by
  rw [writeResult_written calm.gap calm.waits (calm.room' (by decide)),
    placeResume_eq (by rw [recWritten_rec]; exact calm.gap) ((recWritten_same r _ s).waits.trans calm.waits)
      (recWritten_room (calm.room' (by decide))), recWritten_get, recWritten_link]
  exact settle_exchange calm Iff.rfl (by rw [recWritten_get])

theorem swapPartner_ne (partner : swapPartner r s = some y) : y ≠ r := by
  have found := List.find?_some partner
  simp only [Bool.and_eq_true, bne_iff_ne] at found
  exact found.1.1

theorem settle_swap (calm : Calm s) (partner : swapPartner r s = some y) : settle (swapCalls r y s) =
    sent (.hold (s.calls.recs[y]).ref) (withRec y
      { s.calls.recs[y] with exch := .hold, partner := some r, exchMsg := some s.link.nextId }
      (recWritten r { (s.calls.recs[r]).answered .swap .accepted with exch := .swapWait, partner := some y } s)) := by
  have other := swapPartner_ne partner
  unfold swapCalls
  rw [setRec_room (n := 0) calm.gap calm.waits (calm.room' (by decide)),
    placeHold_eq (by rw [recWritten_rec]; exact calm.gap) ((recWritten_same r _ s).waits.trans calm.waits)
      (recWritten_room (calm.room' (by decide))), recWritten_get_ne other, recWritten_link]
  exact settle_exchange calm Iff.rfl (by rw [recWritten_get_ne other])

/-! ## ANSWER (R132) -/

theorem settle_answer (calm : Calm s) (incoming : (s.calls.recs[r]).state = .incoming) : settle (answerCall r s) =
    pumpIdle (sent (.answer (s.calls.recs[r]).ref) (speechStart r (recMoved r
      { (s.calls.recs[r]).answered .answer .accepted with state := .active, timer := .stopped } s))) := by
  let m := AirMsg.answer (s.calls.recs[r]).ref
  let f := fun c : CallRec => { c.answered .answer .accepted with state := .active, timer := .stopped }
  let t := recMoved r (f s.calls.recs[r]) s
  have room : Room 1 t := moved_room (calm.room' (by decide))
  obtain ⟨n, form, waits, -⟩ := moved_form r (f s.calls.recs[r]) s
  have unheld : t.mem.waits = [] := by
    show (recMoved r (f s.calls.recs[r]) s).mem.waits = []
    rw [form]
    exact waits.trans calm.waits
  have changed : changeState r f (emitMsg m s) = emitMsg m (speechStart r t) := by
    have same : (emitMsg m s).calls = s.calls := by rw [emit_eq calm.waits]
    rw [change_room (by rw [same]; exact calm.gap) (by rw [emit_eq calm.waits]; exact calm.near.quiet)
      (by rw [emit_eq calm.waits]; exact calm.events) (by rw [emit_eq calm.waits]; exact calm.room' (n := 3) (by decide)), same]
    refine (if_pos ⟨rfl, by rw [incoming]; decide⟩).trans ?_
    rw [emit_moved calm.waits, emit_start unheld room]
  obtain ⟨p, n', form', -⟩ := speechStart_form r t unheld room
  have link : LinkClear (speechStart r t) := by
    rw [form']
    show LinkClear { recMoved r (f s.calls.recs[r]) s with speech := p, mem := n' }
    rw [form]
    exact calm.link
  exact (congrArg settle changed).trans (settle_msg (calm.near.moved.start room) link)

/-! ## ORIGINATE (R70, R71, R129, R130) -/

/-- A record DIALING with a reference. -/
def dialed (r : Fin 4) (n : Byte) (s : State) : State := recMoved r
  { (s.calls.recs[r]).answered .originate .accepted with
    state := .dialing, ref := n, dir := .outgoing, start := s.frame, gaps := 0, endCause := none, caller := []
    stage := .notPlaced, dial := none, reading := true, timer := .running 3000 }
  { s with calls := { s.calls with lastRef := n } }

theorem nextRef_first {n : Byte} (next : n = BitVec.ofNat 8 (s.calls.lastRef.toNat % 255 + 1)) (unused : recByRef n s = none) :
    nextRef s 5 s.calls.lastRef = n := by
  unfold nextRef
  dsimp only
  rw [← next, unused]
  rfl

theorem originate_dialed {n : Byte} (calm : Calm s) (free : (s.calls.recs[r]).state = .free)
    (first : nextRef s 5 s.calls.lastRef = n) : originate r s = emitRead .calls (.dial r) (s.bind.line .call r.val) (addPurpose .callOut (dialed r n s)) := by
  unfold originate
  rw [if_neg (by simp [calm.awake])]
  dsimp only
  rw [first, change_room (by exact calm.gap) (by exact calm.near.quiet) (by exact calm.events)
    (by exact calm.room' (n := 3) (by decide))]
  dsimp only
  rw [if_neg (by simp), if_neg fun h => absurd (free.symm.trans h.1) (by decide)]
  rfl

theorem dialed_form (r : Fin 4) (n : Byte) (s : State) : ∃ m c, dialed r n s = { s with
      calls := c, mem := m, events := { s.events with producer := s.events.producer + 1 } } ∧
    m.waits = s.mem.waits ∧ m.readWaits = s.mem.readWaits ∧ m.reads = s.mem.reads := by
  obtain ⟨m, form, waits, readWaits, reads⟩ := moved_form r
    { (s.calls.recs[r]).answered .originate .accepted with
      state := .dialing, ref := n, dir := .outgoing, start := s.frame, gaps := 0, endCause := none, caller := []
      stage := .notPlaced, dial := none, reading := true, timer := .running 3000 }
    { s with calls := { s.calls with lastRef := n } }
  exact ⟨m, _, form, waits, readWaits, reads⟩

theorem dialed_room {k : Nat} {n : Byte} (room : Room (k + 3) s) : Room k (dialed r n s) := moved_room (by exact room)

theorem addPurpose_callOut_connected (connected : s.conn.state = .connected) : addPurpose .callOut s = s := by
  unfold addPurpose
  split
  · rfl
  · rw [connected]
    rfl

/-- In CONNECTED an ORIGINATE reads the dial string. -/
theorem settle_originate_connected {n : Byte} (calm : Calm s) (free : (s.calls.recs[r]).state = .free)
    (connected : s.conn.state = .connected) (first : nextRef s 5 s.calls.lastRef = n) :
    settle (originate r s) = pumpIdle (joinRead (.dial r) (s.bind.line .call r.val) (dialed r n s)) := by
  obtain ⟨m, c, form, waits, readWaits, reads⟩ := dialed_form r n s
  obtain ⟨steady, pending, owed, queue, waits', readWaits', mark, level⟩ := calm.near
  have none : m.reads = [] := reads.trans calm.reads
  rw [originate_dialed calm free first, form, addPurpose_callOut_connected (by exact connected),
    (emit_join .calls (.dial r) (s.bind.line .call r.val) _ (by exact waits.trans waits') (by exact readWaits.trans readWaits')
      (by simp [internalReadCount, none]) rfl).1]
  exact settle_near (by exact ⟨steady, pending, owed, queue, waits.trans waits', readWaits.trans readWaits', mark, level⟩)

/-- In CAMPED it also starts a connect (R70, R71). -/
theorem addPurpose_callOut_camped (camped : s.conn.state = .camped) (up : s.conn.shutdown = none) (alone : s.conn.purposes = []) :
    addPurpose .callOut s = connectStart .callOut { s with conn := { s.conn with purposes := [.callOut] } } := by
  have new : (s.conn.state == .off || s.conn.shutdown.isSome || s.conn.purposes.contains .callOut) = false := by
    simp [camped, up, alone]
  unfold addPurpose
  rw [new, alone, camped]
  rfl

/-- A connect under way with its first CONNECT-REQUEST. -/
def connectBegun (p : Purpose) (id : Nat) (s : State) : State := connWritten .connecting { s with conn := { s.conn with
  attempts := 1, opening := some p, connectTimer := .running 200, reqMsg := some id, reqOld := [id] } }

theorem joinRead_emit {f : ReadFor} {l : Line} (waits : s.mem.waits = []) :
    joinRead f l (emitMsg m s) = emitMsg m (joinRead f l s) := by
  rw [emit_eq waits, emit_eq (by exact waits)]
  rfl

theorem connectStart_begun {p : Purpose} (jobs : jobsRun s = true) (mem : memoryAvailable s = true) (waits : s.mem.waits = [])
    (room : Room 1 s) (camped : s.conn.state = .camped) (armed : s.mob.state ≠ .armed)
    (cand : ∀ n : Fin 13, (s.cells.slots[n]).candidate = false) :
    connectStart p s = emitMsg (.connectRequest p) (connectBegun p s.link.nextId s) := by
  unfold connectStart placeRequest
  rw [emit_eq (by exact waits)]
  rw [setConn_move (by exact jobs) (by exact mem) (by exact waits) (by exact room) (by simp [camped]) (by simp [camped]) (by decide)
    (by decide) (by exact armed) (by exact cand)]
  exact (emit_eq (s := connectBegun p s.link.nextId s) waits).symm

theorem settle_originate_camped {n : Byte} (calm : Calm s) (free : (s.calls.recs[r]).state = .free)
    (camped : s.conn.state = .camped) (up : s.conn.shutdown = none) (alone : s.conn.purposes = [])
    (first : nextRef s 5 s.calls.lastRef = n) : settle (originate r s) =
      sent (.connectRequest .callOut) (joinRead (.dial r) (s.bind.line .call r.val)
        (connectBegun .callOut s.link.nextId { dialed r n s with conn := { s.conn with purposes := [.callOut] } })) := by
  obtain ⟨m, c, form, waits, readWaits, reads⟩ := dialed_form r n s
  obtain ⟨steady, pending, owed, queue, waits', readWaits', mark, level⟩ := calm.near_conn (paced := s.cells.paced)
    (timer := s.texts.retryTimer)
    (c := (connectBegun .callOut s.link.nextId { s with conn := { s.conn with purposes := [.callOut] } }).conn)
    (by exact up) (fun h => nomatch (h : ConnState.connecting = .connected))
  have few : internalReadCount m < 4 := by simp [internalReadCount, reads.trans calm.reads]
  have room : Room 1 (dialed r n s) := dialed_room (calm.room' (by decide))
  rw [originate_dialed calm free first]
  rw [form] at room ⊢
  rw [addPurpose_callOut_camped (by exact camped) (by exact up) (by exact alone),
    connectStart_begun (by exact calm.jobs) (by exact calm.mem) (by exact waits.trans waits') (by exact room) (by exact camped)
      (by simp [calm.idle]) (by exact calm.cand),
    (emit_join .calls (.dial r) (s.bind.line .call r.val) _
      (by rw [emit_eq (by exact waits.trans waits')]; exact waits.trans waits')
      (by rw [emit_eq (by exact waits.trans waits')]; exact readWaits.trans readWaits')
      (by rw [emit_eq (by exact waits.trans waits')]; exact few) rfl).1,
    joinRead_emit (by exact waits.trans waits'),
    settle_msg (by exact ⟨steady, pending, owed, queue, waits.trans waits', readWaits.trans readWaits', mark, level⟩)
      (by exact calm.link)]
  exact idle_off calm (by simp [camped]) (by exact (by decide : ConnState.connecting ≠ .connected)) rfl

end Sys2Proof.Machine
end

section
/-! SUPPORT. RELEASE requested, and what becomes of the exchange (R134, R135). -/

namespace Sys2Proof.Machine

variable {s t u : State} {m : AirMsg} {q : QMsg} {r x y : Fin 4} {c d : CallRec} {cause : Cause} {k : Request} {res : ReqResult}

/-! ## A released record (R135) -/

/-- The record once its RELEASE is placed. -/
def releasing (cause : Cause) (id : Nat) (c : CallRec) : CallRec :=
  { c.clear with state := .releasing, relCause := some cause, relMsg := some id, timer := .running 400 }

/-- RELEASE is handed, the record RELEASING, its exchange passed on. -/
theorem placeRelease_eq (near : Near s) (gap : s.calls.gapHeld = false) (clear : EventClear s) (room : Room 3 s)
    (withdrawn : withdrawCall (s.calls.recs[r]).ref s = s) (reading : (s.calls.recs[r]).reading = false) :
    placeRelease r cause s = partnerLeft s.calls.recs[r] (emitMsg (.release (s.calls.recs[r]).ref cause)
      (recEnded r (releasing cause s.link.nextId s.calls.recs[r]) s)) := by
  obtain ⟨pending, owed, waits⟩ := near.quiet
  have kept : dropCapture r s = s := if_neg (by rw [reading]; decide)
  have same : (emitMsg (.release (s.calls.recs[r]).ref cause) s).calls = s.calls := by rw [emit_eq waits]
  have changed : changeState r (releasing cause s.link.nextId) (emitMsg (.release (s.calls.recs[r]).ref cause) s) =
      recEnded r (releasing cause s.link.nextId s.calls.recs[r]) (emitMsg (.release (s.calls.recs[r]).ref cause) s) := by
    rw [changeState_ended (by rw [same]; exact gap) (by rw [emit_eq waits]; exact ⟨pending, owed, waits⟩)
      (by rw [emit_eq waits]; exact clear) (by rw [emit_eq waits]; exact room)
      (show CallState.releasing ≠ .active by decide), same]
  unfold placeRelease
  dsimp only
  rw [withdrawn, kept]
  exact congrArg (partnerLeft s.calls.recs[r]) (changed.trans (recEnded_emit waits))

theorem partnerLeft_alone (h : c.exch = .none ∨ c.exch = .resume ∨ c.partner = none) : partnerLeft c s = s := by
  unfold partnerLeft
  rcases h with h | h | h
  · rw [h]
  · rw [h]
  · rw [h]
    cases c.exch <;> rfl

theorem partnerLeft_hold (h : c.exch = .hold) (partner : c.partner = some x) : partnerLeft c s = placeResume x s := by
  unfold partnerLeft
  rw [h, partner]

theorem partnerLeft_swapWait (h : c.exch = .swapWait) (partner : c.partner = some x) :
    partnerLeft c s = setRec x (fun y => { y with partner := none }) s := by
  unfold partnerLeft
  rw [h, partner]

theorem recEnded_get_ne (ne : x ≠ r) (waits : s.mem.waits = []) : (recEnded r c s).calls.recs[x] = s.calls.recs[x] := by
  obtain ⟨m, p, form, -⟩ := recEnded_form r c s waits
  rw [form]
  exact withRec_get_ne ne

theorem recEnded_used (used : c.state ≠ .free) (waits : s.mem.waits = []) :
    ((recEnded r c s).calls.recs[r]).state ≠ .free := by
  obtain ⟨m, p, form, -⟩ := recEnded_form r c s waits
  rw [form]
  rw [show (withRec r c s).calls.recs[r] = c from withRec_get r c s]
  exact used

theorem recEnded_room {n : Nat} (waits : s.mem.waits = []) (room : Room (n + 3) s) : Room n (recEnded r c s) := by
  obtain ⟨m, p, form, -, -, -, count⟩ := recEnded_form r c s waits
  have left : Room n (recMoved r c s) := moved_room room
  unfold Room at left ⊢
  rw [form]
  exact count ▸ left

/-- A request RELEASE taken: its result written, then the record RELEASING. -/
def releasePlaced (r : Fin 4) (s : State) : State :=
  recEnded r (releasing .locl s.link.nextId ((s.calls.recs[r]).answered .release .accepted))
    (recWritten r ((s.calls.recs[r]).answered .release .accepted) s)

theorem releasePlaced_eq : releasePlaced r s =
    (let t := recMoved r (releasing .locl s.link.nextId ((s.calls.recs[r]).answered .release .accepted))
      (recWritten r ((s.calls.recs[r]).answered .release .accepted) s)
    if (s.calls.recs[r]).state = .active then speechStop t else t) := by
  unfold releasePlaced recEnded
  rw [recWritten_get]
  rfl

theorem releasePlaced_form (r : Fin 4) (s : State) (waits : s.mem.waits = []) : ∃ m p c, releasePlaced r s = { s with
      mem := m, speech := p, calls := c, events := { s.events with producer := s.events.producer + 1 } } ∧
    m.waits = s.mem.waits ∧ m.readWaits = s.mem.readWaits ∧ c.gapHeld = s.calls.gapHeld := by
  let taken := (s.calls.recs[r]).answered .release .accepted
  have written := recWritten_same r taken s
  obtain ⟨m, p, form, w, rw', -⟩ := recEnded_form r (releasing .locl s.link.nextId taken) (recWritten r taken s)
    (written.waits.trans waits)
  have placed : releasePlaced r s = _ := form
  refine ⟨m, p, (withRec r (releasing .locl s.link.nextId taken) (withRec r taken s)).calls, ?_, w.trans written.waits,
    rw'.trans written.readWaits, rfl⟩
  rw [placed, written.mem]
  rfl

theorem releasePlaced_room {n : Nat} (waits : s.mem.waits = []) (room : Room (n + 4) s) : Room n (releasePlaced r s) :=
  recEnded_room ((recWritten_same r _ s).waits.trans waits) (recWritten_room room)

theorem releasePlaced_get_ne (ne : x ≠ r) (waits : s.mem.waits = []) :
    (releasePlaced r s).calls.recs[x] = s.calls.recs[x] :=
  (recEnded_get_ne ne ((recWritten_same r _ s).waits.trans waits)).trans (recWritten_get_ne ne)

theorem releasePlaced_busy (waits : s.mem.waits = []) : connIdle (releasePlaced r s) = false :=
  notFree_idle (recEnded_used (show CallState.releasing ≠ .free by decide) ((recWritten_same r _ s).waits.trans waits))

theorem Near.releasePlaced (near : Near s) : Near (releasePlaced r s) := near.rec.recEnded

/-- The record that RELEASE finds is as it was, but for the result. -/
theorem setupGone_written : setupGone ((s.calls.recs[r]).answered k res) (recWritten r ((s.calls.recs[r]).answered k res) s) ↔
    setupGone s.calls.recs[r] s := by
  unfold setupGone
  rw [recWritten_link]
  exact Iff.rfl

/-- RELEASE requested of a record that the network may know of (R135). -/
theorem takeRelease_placed (near : Near s) (gap : s.calls.gapHeld = false) (clear : EventClear s) (room : Room 4 s)
    (used : (s.calls.recs[r]).state ≠ .free) (fresh : (s.calls.recs[r]).state ≠ .releasing)
    (known : ¬ setupGone s.calls.recs[r] s) (reading : (s.calls.recs[r]).reading = false)
    (withdrawn : ∀ t : State, t.link = s.link → t.mem.waits = [] → withdrawCall (s.calls.recs[r]).ref t = t) :
    takeRequest r .release s = partnerLeft s.calls.recs[r]
      (emitMsg (.release (s.calls.recs[r]).ref .locl) (releasePlaced r s)) := by
  let taken := (s.calls.recs[r]).answered .release .accepted
  have waits := near.quiet.2.2
  have written : writeResult r .release .accepted s = recWritten r taken s := writeResult_written gap waits (room.mono (by decide))
  have found : (recWritten r taken s).calls.recs[r] = taken := recWritten_get r taken s
  have placed := placeRelease_eq (s := recWritten r taken s) (r := r) (cause := .locl) near.rec (by rw [recWritten_rec]; exact gap)
    (clear_rec clear (room.mono (by decide))) (recWritten_room room)
    (by rw [found]; exact withdrawn _ (recWritten_link r taken s) ((recWritten_same r taken s).waits.trans waits))
    (by rw [found]; exact reading)
  rw [release_taken used, written, releaseRec_known (by rw [found]; exact used) (by rw [found]; exact fresh)
    (by rw [found, setupGone_written]; exact known), placed, found, recWritten_link]
  rfl

/-! ## The moments of a RELEASE requested (R134, R135) -/

theorem withdrawCall_calm (calm : Calm s) (ref : Byte) (t : State) (link : t.link = s.link) (waits : t.mem.waits = []) :
    withdrawCall ref t = t :=
  withdrawCall_none (by rw [link]; exact calm.queue) (by rw [link]; exact calm.outside) waits

theorem releasePlaced_link (calm : Calm s) : LinkClear (releasePlaced r s) := by
  obtain ⟨m, p, c, form, -⟩ := releasePlaced_form r s calm.waits
  rw [form]
  exact calm.link

/-- With no exchange to pass on, RELEASE is sent. -/
theorem settle_release (calm : Calm s) (used : (s.calls.recs[r]).state ≠ .free) :
    settle (emitMsg m (releasePlaced r s)) = sent m (releasePlaced r s) :=
  settle_told calm calm.near.releasePlaced (releasePlaced_link calm)
    ((releasePlaced_busy calm.waits).trans (notFree_idle used).symm) (by
      obtain ⟨m, p, c, form, -⟩ := releasePlaced_form r s calm.waits
      rw [form])

/-- A record's change with no field of its line is one before a message as after it. -/
theorem withRec_emit (waits : s.mem.waits = []) : withRec x c (emitMsg m s) = emitMsg m (withRec x c s) := by
  rw [emit_eq waits, emit_eq (by exact waits)]
  rfl

/-- Two messages of a class handed, the first is sent (R59). -/
theorem settle_two {a b : AirMsg} (near : Near s) (clear : LinkClear s) (same : msgClass b = msgClass a)
    (two : msgJob b ≠ .texts) :
    settle (emitMsg b (emitMsg a s)) = pumpIdle { sent a s with link := { (sent a s).link with
      nextId := s.link.nextId + 2, nextPlace := s.link.nextPlace + 2
      queue := (sent a s).link.queue ++ [waiting (s.link.nextId + 1) (s.link.nextPlace + 1) b] } } := by
  obtain ⟨open_, queue, outside, free, hold⟩ := clear
  obtain ⟨steady, pending, owed, -, waits, readWaits, mark, level⟩ := near
  have first : ¬ (msgClass b < msgClass a ∨ msgClass b = msgClass a ∧ s.link.nextPlace + 1 < s.link.nextPlace) := by omega
  rw [emitMsg_queued waits queue outside, emitMsg_second (by exact waits) rfl (by exact outside) two,
    settle_nearQueued (q := waiting s.link.nextId s.link.nextPlace a)
      (by exact ⟨steady, pending, owed, .inl rfl, waits, readWaits, mark, level⟩) (by exact open_) (by exact free)
      ((nextMsg_two rfl rfl rfl (by exact hold)).trans (congrArg some (if_neg first))),
    sentQueued_first rfl (Nat.succ_ne_self _)]
  rfl

theorem Near.withRec (near : Near s) : Near (withRec x c s) := near

/-- RELEASE handed, then RESUME for another record behind it. -/
theorem settle_resumeBehind (near : Near s) (clear : LinkClear s) (gap : s.calls.gapHeld = false) (room : Room 1 s)
    (busy : connIdle s = false) (stopped : s.conn.inactTimer.runs = false) (ref : Byte) :
    let v := sent (.release ref cause) (withRec x
      { s.calls.recs[x] with exch := .resume, partner := none, exchMsg := some (s.link.nextId + 1) } s)
    settle (placeResume x (emitMsg (.release ref cause) s)) = { v with link := { v.link with
      nextId := s.link.nextId + 2, nextPlace := s.link.nextPlace + 2
      queue := v.link.queue ++ [waiting (s.link.nextId + 1) (s.link.nextPlace + 1) (.resume (s.calls.recs[x]).ref)] } } := by
  intro v
  have waits := near.quiet.2.2
  have handed := emitMsg_queued (m := .release ref cause) waits clear.2.1 clear.2.2.1
  have still : connIdle (withRec x { s.calls.recs[x] with exch := .resume, partner := none, exchMsg := some (s.link.nextId + 1) }
      s) = false := (connIdle_withRec (by exact Iff.rfl)).trans busy
  have placed : placeResume x (emitMsg (.release ref cause) s) = emitMsg (.resume (s.calls.recs[x]).ref)
      (withRec x { s.calls.recs[x] with exch := .resume, partner := none, exchMsg := some (s.link.nextId + 1) }
        (emitMsg (.release ref cause) s)) := by
    rw [handed]
    exact placeResume_eq (by exact gap) (by exact waits) (by exact room)
  rw [placed, withRec_emit waits, settle_two (a := .release ref cause) (b := .resume (s.calls.recs[x]).ref) near.withRec
    (by exact clear) rfl nofun]
  exact pumpIdle_resting (by exact stopped.trans still.symm)

theorem releasePlaced_conn (waits : s.mem.waits = []) : (releasePlaced r s).conn = s.conn := by
  obtain ⟨m, p, c, form, -⟩ := releasePlaced_form r s waits
  rw [form]

theorem releasePlaced_id (waits : s.mem.waits = []) : (releasePlaced r s).link = s.link := by
  obtain ⟨m, p, c, form, -⟩ := releasePlaced_form r s waits
  rw [form]

theorem releasePlaced_gap (waits : s.mem.waits = []) : (releasePlaced r s).calls.gapHeld = s.calls.gapHeld := by
  obtain ⟨m, p, c, form, -, -, gap⟩ := releasePlaced_form r s waits
  rw [form]
  exact gap

/-- In a calm part the inactivity timer is stopped while a record is used. -/
theorem Calm.used_stopped (calm : Calm s) (used : (s.calls.recs[r]).state ≠ .free) : s.conn.inactTimer.runs = false := by
  obtain ⟨-, -, -, -, -, -, -, -, idle⟩ := calm.rest
  exact idle.trans (notFree_idle used)

/-- A swap partner that a HOLD was running for goes on: its RESUME is handed behind RELEASE (R134). -/
theorem settle_release_hold (calm : Calm s) (used : (s.calls.recs[r]).state ≠ .free) (ne : x ≠ r) (ref : Byte) :
    let v := sent (.release ref .locl) (withRec x
      { s.calls.recs[x] with exch := .resume, partner := none, exchMsg := some (s.link.nextId + 1) } (releasePlaced r s))
    settle (placeResume x (emitMsg (.release ref .locl) (releasePlaced r s))) = { v with link := { v.link with
      nextId := s.link.nextId + 2, nextPlace := s.link.nextPlace + 2
      queue := v.link.queue ++ [waiting (s.link.nextId + 1) (s.link.nextPlace + 1) (.resume (s.calls.recs[x]).ref)] } } := by
  have behind := settle_resumeBehind (cause := .locl) (x := x) calm.near.releasePlaced (releasePlaced_link calm)
    ((releasePlaced_gap calm.waits).trans calm.gap) (releasePlaced_room (r := r) calm.waits (calm.room' (by decide)))
    (releasePlaced_busy calm.waits) (by rw [releasePlaced_conn calm.waits]; exact calm.used_stopped used) ref
  rw [releasePlaced_get_ne ne calm.waits, releasePlaced_id calm.waits] at behind
  exact behind

/-- A swap partner that waited for the HOLD waits no more (R134). -/
theorem setRec_partner_emit (near : Near s) (gap : s.calls.gapHeld = false) (room : Room 1 s) :
    setRec x (fun y => { y with partner := none }) (emitMsg m s) =
      emitMsg m (withRec x { s.calls.recs[x] with partner := none } s) := by
  have waits := near.quiet.2.2
  rw [← withRec_emit waits, emit_eq waits]
  exact setRec_same (by exact gap) (by exact waits) (by exact room) rfl

theorem settle_partnerFreed (near : Near s) (clear : LinkClear s) (gap : s.calls.gapHeld = false) (room : Room 1 s)
    (busy : connIdle s = false) (stopped : s.conn.inactTimer.runs = false) :
    settle (setRec x (fun y => { y with partner := none }) (emitMsg m s)) =
      sent m (withRec x { s.calls.recs[x] with partner := none } s) := by
  have still : connIdle (withRec x { s.calls.recs[x] with partner := none } s) = false :=
    (connIdle_withRec (by exact Iff.rfl)).trans busy
  rw [setRec_partner_emit near gap room, settle_msg near.withRec (by exact clear)]
  exact pumpIdle_resting (by exact stopped.trans still.symm)

theorem settle_release_swap (calm : Calm s) (used : (s.calls.recs[r]).state ≠ .free) (ne : x ≠ r) :
    settle (setRec x (fun y => { y with partner := none }) (emitMsg m (releasePlaced r s))) =
      sent m (withRec x { s.calls.recs[x] with partner := none } (releasePlaced r s)) := by
  have freed := settle_partnerFreed (m := m) (x := x) calm.near.releasePlaced (releasePlaced_link calm)
    ((releasePlaced_gap calm.waits).trans calm.gap) (releasePlaced_room (r := r) calm.waits (calm.room' (by decide)))
    (releasePlaced_busy calm.waits) (by rw [releasePlaced_conn calm.waits]; exact calm.used_stopped used)
  rw [releasePlaced_get_ne ne calm.waits] at freed
  exact freed

/-- A DIALING record whose SETUP has not been placed is FREE at once. -/
theorem settle_release_unplaced (calm : Calm s) (dialing : (s.calls.recs[r]).state = .dialing)
    (stage : (s.calls.recs[r]).stage = .notPlaced) (exch : (s.calls.recs[r]).exch = .none)
    (reading : (s.calls.recs[r]).reading = false) : settle (takeRequest r .release s) =
      pumpIdle (recMoved r (((s.calls.recs[r]).answered .release .accepted).free .locl)
        (recWritten r ((s.calls.recs[r]).answered .release .accepted) s)) := by
  let taken := (s.calls.recs[r]).answered .release .accepted
  have found : (recWritten r taken s).calls.recs[r] = taken := recWritten_get r taken s
  have waits : (recWritten r taken s).mem.waits = [] := (recWritten_same r taken s).waits.trans calm.waits
  have written : writeResult r .release .accepted s = recWritten r taken s :=
    writeResult_written calm.gap calm.waits (calm.room' (by decide))
  have gone : setupGone taken s := ⟨dialing, by rw [show taken.stage = .notPlaced from stage]; decide,
    fun placed => absurd (stage.symm.trans placed) (by decide)⟩
  have freed : freeRec r .locl (recWritten r taken s) = recMoved r (taken.free .locl) (recWritten r taken s) := by
    rw [freeRec_freed (by rw [recWritten_rec]; exact calm.gap) calm.near.rec.quiet (clear_rec calm.events (calm.room' (by decide)))
      (recWritten_room (calm.room' (by decide))) (by rw [found]; exact reading)]
    unfold recFreed recEnded
    rw [found]
    exact if_neg (fun active => absurd (dialing.symm.trans active) (by decide))
  have released := releaseRec_gone (s := recWritten r taken s) (r := r) (cause := .locl)
    (by rw [found]; exact setupGone_written.mpr gone)
  rw [found, withdrawCall_calm calm _ _ (recWritten_link r taken s) waits] at released
  rw [release_taken (by rw [dialing]; decide), written, released]
  refine Eq.trans (congrArg settle (partnerLeft_alone (.inl exch))) ?_
  exact (congrArg settle freed).trans (settle_near calm.near.rec.moved)

/-! ## A SETUP in flight (R135) -/

theorem onAir_near {o : Timer} (calm : Calm s) (runs : o.runs = true) : Near (onAir q o s) := by
  obtain ⟨steady, pending, owed, -, waits, readWaits, mark, level⟩ := calm.near
  exact ⟨steady, pending, owed, .inr runs, waits, readWaits, mark, level⟩

/-- A message in flight is not withdrawn. -/
theorem withdrawCall_inFlight {ref : Byte} (queue : s.link.queue = [q]) (flight : q.inFlight = true) (outside : s.link.outside = [])
    (waits : s.mem.waits = []) : withdrawCall ref s = s := by
  have link : ({ s.link with queue := [q], outside := [] } : Link) = s.link := by rw [← queue, ← outside]
  unfold withdrawCall
  rw [queue, outside, waits]
  simp only [flight, Bool.not_true, Bool.and_false, Bool.not_false, List.filter_cons_of_pos, List.filter_nil, List.map_nil]
  rw [mem_empty waits, link, joinOutside_none outside]

/-- A message handed behind one that is on the air waits. -/
theorem settle_behind (near : Near s) (queue : s.link.queue = [q]) (runs : s.link.opSendSig.runs = true)
    (outside : s.link.outside = []) (two : msgJob m ≠ .texts) (busy : connIdle s = false)
    (stopped : s.conn.inactTimer.runs = false) : settle (emitMsg m s) = { s with link := { s.link with
      nextId := s.link.nextId + 1, nextPlace := s.link.nextPlace + 1
      queue := [q, waiting s.link.nextId s.link.nextPlace m] } } := by
  obtain ⟨steady, pending, owed, -, waits, readWaits, mark, level⟩ := near
  rw [emitMsg_second waits queue outside two,
    settle_near (by exact ⟨steady, pending, owed, .inr runs, waits, readWaits, mark, level⟩)]
  exact pumpIdle_resting (by exact stopped.trans busy.symm)

/-- RELEASE waits behind the SETUP in flight. -/
theorem settle_release_onAir {o : Timer} (calm : Calm s) (flight : q.inFlight = true) (runs : o.runs = true)
    (dialing : (s.calls.recs[r]).state = .dialing) (stage : (s.calls.recs[r]).stage = .placed)
    (setup : (s.calls.recs[r]).setupMsg = some q.id) (exch : (s.calls.recs[r]).exch = .none)
    (reading : (s.calls.recs[r]).reading = false) :
    let t := recMoved r (releasing .locl s.link.nextId ((s.calls.recs[r]).answered .release .accepted))
      (recWritten r ((s.calls.recs[r]).answered .release .accepted) s)
    settle (takeRequest r .release (onAir q o s)) = { t with link := { s.link with
      nextId := s.link.nextId + 1, nextPlace := s.link.nextPlace + 1, opSendSig := o, askSendSig := some (.sendSig q.msg)
      queue := [q, waiting s.link.nextId s.link.nextPlace (.release (s.calls.recs[r]).ref .locl)] } } := by
  intro t
  have known : ¬ setupGone (s.calls.recs[r]) (onAir q o s) :=
    fun gone => gone.2.2 stage q (List.mem_singleton.mpr rfl) flight setup
  have placed := takeRelease_placed (s := onAir q o s) (r := r) (onAir_near calm runs) calm.gap calm.events
    (calm.room' (n := 4) (by decide)) (by exact dialing ▸ nofun) (by exact dialing ▸ nofun) known reading
    (fun t link waits => withdrawCall_inFlight (by rw [link]; rfl) flight (by rw [link]; exact calm.outside) waits)
  let link := (onAir q o s).link
  have moved : releasePlaced r (onAir q o s) = { t with link := link } := by
    rw [releasePlaced_eq]
    refine (if_neg (fun active => absurd (dialing.symm.trans active) (by decide))).trans ?_
    exact (congrArg (recMoved r _) (written_link link)).trans (moved_link link)
  have near : Near (releasePlaced r (onAir q o s)) := (onAir_near calm runs).releasePlaced
  have busy : connIdle (releasePlaced r (onAir q o s)) = false := releasePlaced_busy calm.waits
  have stopped : (releasePlaced r (onAir q o s)).conn = s.conn := releasePlaced_conn calm.waits
  rw [placed, moved, partnerLeft_alone (c := (onAir q o s).calls.recs[r]) (.inl exch)]
  rw [moved] at near busy stopped
  clear_value t
  exact settle_behind near rfl runs calm.outside nofun busy
    (by rw [stopped]; exact calm.used_stopped (r := r) (by rw [dialing]; decide))

end Sys2Proof.Machine

namespace Sys2Proof
open Machine

/-- Settles O48: a host request taken or refused, then what a release does, then requests stored during a switch. -/
theorem callRequests : Obligations.CallRequests := by
  unfold Obligations.CallRequests
  refine ⟨fun s r calm => ?moments, fun s r cause => ?release, fun s ref => ?withdrawn, free_eq, fun s r q on => ?stored,
    fun s r q off => callRequest_free off, ?execs, fun s => rfl⟩
  case moments =>
    intro c told refused
    have request : ∀ (k : Request) (t : State), settle (takeRequest r k s) = t →
        runIf (noticeOpen s) (callRequest r k) s = .next t := fun k t e => by
      rw [runIf_on _ _ calm.notice, callRequest_free calm.csw, e]
    have refuse : ∀ (k : Request) (x : ReqResult), takeRequest r k s = writeResult r k x s →
        runIf (noticeOpen s) (callRequest r k) s = .next (refused k x) := fun k x e =>
      request k _ (e ▸ settle_refused calm)
    refine ⟨fun n next unused free claim connected up => ?originate,
      fun n next unused free claim camped up alone => ?originateCamped,
      fun used => refuse _ _ (originate_refusedState used), fun free out => refuse _ _ (originate_refusedNoService free out),
      fun incoming claim => request _ _ ((congrArg settle (answer_taken incoming claim)).trans (settle_answer calm incoming)),
      fun incoming claim => refuse _ _ (answer_refusedActive incoming claim), fun other => refuse _ _ (answer_refusedState other),
      fun active exch => request _ _ ((congrArg settle (hold_taken active exch)).trans (settle_hold calm)),
      fun other => refuse _ _ (hold_refusedState other),
      fun held exch claim => request _ _ ((congrArg settle (resume_taken held exch claim)).trans (settle_resume calm)),
      fun held exch claim => refuse _ _ (resume_refusedActive held exch claim), fun other => refuse _ _ (resume_refusedState other),
      fun y held exch partner => request _ _ ((congrArg settle (swap_taken held exch partner)).trans (settle_swap calm partner)),
      fun other => refuse _ _ (swap_refusedState other),
      fun dialing stage exch reading => request _ _ (settle_release_unplaced calm dialing stage exch reading),
      fun used fresh sentStage reading => ?placed,
      fun q o flight runs dialing stage setup exch reading => ?onAir,
      fun free => refuse _ _ (release_refusedState free), fun releasing => ?releasing, ?none,
      fun code => ⟨fun unknown => ?unknown, fun known => ?known⟩⟩
    case originate =>
      exact request _ _ ((congrArg settle (originate_taken free (by rw [connSeen_up up, connected]; decide)
        (by rw [connSeen_up up, connected]; decide) claim)).trans
        (settle_originate_connected calm free connected (nextRef_first next unused)))
    case originateCamped =>
      intro t
      have moment := settle_originate_camped calm free camped up alone (nextRef_first next unused)
      have begun : dialed r n s = t := rfl
      rw [begun] at moment
      clear begun
      clear_value t
      exact request _ _ ((congrArg settle (originate_taken free (by rw [connSeen_up up, camped]; decide)
        (by rw [connSeen_up up, camped]; decide) claim)).trans moment)
    case placed =>
      intro left t u
      have placed := takeRelease_placed calm.near calm.gap calm.events (calm.room' (by decide)) used fresh
        (fun gone => gone.2.1 (sentStage gone.1)) reading (withdrawCall_calm calm _)
      have released : releasePlaced r s = u := releasePlaced_eq
      refine ⟨fun alone => ?_, fun x exch partner ne => ?_, fun x exch partner ne => ?_⟩
      · refine request _ _ ?_
        rw [placed, partnerLeft_alone (c := s.calls.recs[r]) alone, settle_release calm used, released]
      · intro y
        refine request _ _ ?_
        rw [placed, partnerLeft_hold (c := s.calls.recs[r]) exch partner, settle_release_hold calm used ne, released]
        rfl
      · refine request _ _ ?_
        rw [placed, partnerLeft_swapWait (c := s.calls.recs[r]) exch partner, settle_release_swap calm used ne, released]
    case onAir =>
      intro t
      refine (runIf_on _ _ calm.notice).trans (congrArg Host.Outcome.next ?_)
      rw [callRequest_free (by exact calm.csw), settle_release_onAir calm flight runs dialing stage setup exch reading]
      rfl
    case releasing =>
      refine request _ _ ((congrArg settle (release_taken (by exact releasing ▸ nofun))).trans ?_)
      rw [writeResult_written calm.gap calm.waits (calm.room' (by decide)),
        releaseRec_still (.inr (by rw [recWritten_get]; exact releasing))]
      exact settle_recWritten calm Iff.rfl
    case none =>
      exact (runIf_on _ _ calm.notice).trans (congrArg Host.Outcome.next
        ((congrArg settle (requestUnknown_known (.inl rfl))).trans (settle_resting calm.rest)))
    case unknown =>
      exact (runIf_on _ _ calm.notice).trans (congrArg Host.Outcome.next (settle_requestUnknown calm unknown))
    case known =>
      exact (runIf_on _ _ calm.notice).trans (congrArg Host.Outcome.next
        ((congrArg settle (requestUnknown_known (.inr known))).trans (settle_resting calm.rest)))
  case release =>
    intro c w partner gone
    exact ⟨release_taken, releaseRec_still, fun g => releaseRec_gone g,
      fun used fresh known => releaseRec_known used fresh known⟩
  case withdrawn =>
    intro gone
    exact withdrawCall_eq ref s
  case stored =>
    rw [callRequest_switch on]
    rfl
  case execs =>
    exact fun s r o => ⟨runIf_on _ _ o, runIf_on _ _ o, runIf_on _ _ o, runIf_on _ _ o, runIf_on _ _ o, runIf_on _ _ o⟩

end Sys2Proof
end

section
/-! SUPPORT. Candidates, their hold timers and the level reports (R104 to R106). -/

namespace Sys2Proof.Machine

variable {s u : State} {n : Fin 13} {l : Int}

/-! ## Candidates (R104) -/

theorem candidateNow_iff (s : State) (n : Fin 13) : candidateNow s n = true ↔ s.conn.state = .connected ∧ switchOn s = false ∧
    (s.cells.slots[n]).usable = true ∧ s.cells.serving ≠ some n ∧
    ∃ a b, servingLevel s = some a ∧ (s.cells.slots[n]).filtered = some b ∧ a + s.mob.margin ≤ b := by
  unfold candidateNow
  cases servingLevel s <;> cases (s.cells.slots[n]).filtered <;> simp [and_assoc]

/-- A slot is or is no candidate, since a frame, its hold timer as told and not matured (R104). -/
def candidatePut (n : Fin 13) (is : Bool) (since : Option FrameNo) (hold : Timer) (s : State) : State :=
  { s with
    cells := { s.cells with slots := s.cells.slots.set n { s.cells.slots[n] with candidate := is, since := since } }
    mob := { s.mob with slots := s.mob.slots.set n { s.mob.slots[n] with hold := hold, matured := false } } }

theorem evaluateSlot_same (same : (s.cells.slots[n]).candidate = candidateNow s n) : evaluateSlot s n = s := by
  unfold evaluateSlot
  rw [same]
  cases candidateNow s n <;> rfl

theorem evaluateSlot_begins (was : (s.cells.slots[n]).candidate = false) (now : candidateNow s n = true) :
    evaluateSlot s n = candidatePut n true (some s.frame) (.running s.mob.holdLen) s := by
  unfold evaluateSlot
  rw [was, now]
  rfl

theorem evaluateSlot_ends (was : (s.cells.slots[n]).candidate = true) (now : candidateNow s n = false) :
    evaluateSlot s n = candidatePut n false none .stopped s := by
  unfold evaluateSlot
  rw [was, now]
  rfl

/-- Of the slots evaluated together, those that changed are mirrored, each once (R100, R104; log entry 75). -/
theorem evaluateCandidates_mirrors (s : State) : evaluateCandidates s = (List.finRange 13).foldl (fun (u : State) (n : Fin 13) =>
    if (sortCandidates s).cells.slots[n] = s.cells.slots[n] then u else mirror n u) (sortCandidates s) := by
  have step : (fun (u : State) (n : Fin 13) => if slotDiffers s (sortCandidates s) n = true then mirror n u else u) =
      fun u n => if (sortCandidates s).cells.slots[n] = s.cells.slots[n] then u else mirror n u := by
    funext u n
    by_cases same : (sortCandidates s).cells.slots[n] = s.cells.slots[n]
    · rw [if_pos same, if_neg (by simp [slotDiffers, same])]
    · rw [if_neg same, if_pos (by simpa [slotDiffers] using same)]
  unfold evaluateCandidates mirrorSlots
  rw [step]

/-! ## Level reports (R106) -/

theorem considerReport_places (candidate : (s.cells.slots[n]).candidate = true) (matured : (s.mob.slots[n]).matured = true)
    (idle : s.mob.state = .idle) (free : s.mob.report = false) (off : s.mob.reportTimer.runs = false) :
    considerReport s = emitMsg (.levelReport (reportEntries s))
      { s with mob := { s.mob with report := true, reportMsg := some s.link.nextId } } := by
  have some_ : (List.finRange 13).any (fun m => (s.cells.slots[m]).candidate && (s.mob.slots[m]).matured) = true :=
    List.any_eq_true.2 ⟨n, List.mem_finRange n, by rw [candidate, matured]; rfl⟩
  unfold considerReport
  rw [some_]
  exact if_pos (by simp [idle, free, off])

theorem considerReport_paused (runs : s.mob.reportTimer.runs = true) : considerReport s = s := if_neg (by simp [runs])

theorem considerReport_none (h : ∀ m : Fin 13, (s.cells.slots[m]).candidate = false) : considerReport s = s := by
  have none_ : (List.finRange 13).any (fun m => (s.cells.slots[m]).candidate && (s.mob.slots[m]).matured) = false :=
    List.any_eq_false.2 (fun m _ => by simp only [h m, Bool.false_and, Bool.false_eq_true, not_false_eq_true])
  unfold considerReport
  rw [none_]
  exact if_neg (by simp)

/-- The report of the one candidate: its carrier, its cell code and its level. -/
theorem reportEntries_one (candidate : (s.cells.slots[n]).candidate = true)
    (others : ∀ m, m ≠ n → (s.cells.slots[m]).candidate = false) (level : (s.cells.slots[n]).filtered = some l) :
    reportEntries s = [((s.cells.slots[n]).carrier, (s.cells.slots[n]).code, l)] := by
  have one := filter_one (p := fun m => (s.cells.slots[m]).candidate) others candidate
  unfold reportEntries
  dsimp only
  rw [one]
  exact congrArg (fun v => [((s.cells.slots[n]).carrier, (s.cells.slots[n]).code, Option.getD v (-141))]) level

/-! ## One candidate, in a part otherwise calm -/

/-- A slot made a candidate, its hold timer and whether it has matured, and the report timer. -/
def candidateUnder (n : Fin 13) (k : MobSlot) (r : Timer) (u : State) : State :=
  { u with
    cells := { u.cells with slots := u.cells.slots.set n { u.cells.slots[n] with candidate := true } }
    mob := { u.mob with slots := u.mob.slots.set n k, reportTimer := r } }

/-- A LEVEL-REPORT sent, with the report flag (R106). -/
def reportSent (entries : List (Half × Half × Int)) (s : State) : State :=
  sent (.levelReport entries) { s with mob := { s.mob with report := true, reportMsg := some s.link.nextId } }

section
variable {k : MobSlot} {r : Timer}

theorem candidateUnder_slot : (candidateUnder n k r u).cells.slots[n] = { u.cells.slots[n] with candidate := true } := by
  simp [candidateUnder]

theorem candidateUnder_mobSlot : (candidateUnder n k r u).mob.slots[n] = k := by simp [candidateUnder]

theorem candidateUnder_other (calm : Calm u) (m : Fin 13) (ne : m ≠ n) :
    ((candidateUnder n k r u).cells.slots[m]).candidate = false := by
  have apart : n.val ≠ m.val := fun h => ne (Fin.ext h.symm)
  have plain := calm.cand m
  simpa [candidateUnder, Vector.getElem_set, apart] using plain

theorem candidateUnder_resting (calm : Calm u) : Resting (candidateUnder n k r u) := calm.rest

/-- A matured candidate is reported at once where no report timer runs. -/
theorem settle_candidateReport (calm : Calm u) (level : (u.cells.slots[n]).filtered = some l) (matured : k.matured = true)
    (off : r.runs = false) : settle (considerReport (candidateUnder n k r u)) =
    reportSent [((u.cells.slots[n]).carrier, (u.cells.slots[n]).code, l)] (candidateUnder n k r u) := by
  have slot := candidateUnder_slot (u := u) (n := n) (k := k) (r := r)
  have entries := reportEntries_one (s := candidateUnder n k r u) (n := n) (l := l) (by rw [slot])
    (candidateUnder_other calm) (by rw [slot]; exact level)
  rw [considerReport_places (n := n) (by rw [slot]) (by rw [candidateUnder_mobSlot]; exact matured) (by exact calm.idle)
    (by exact calm.report) (by exact off), entries, slot]
  exact settle_told calm (by exact calm.near) (by exact calm.link) rfl rfl

/-- The hold timer's expiry stops it and marks the candidate matured (R105). -/
theorem candidateMatures_under : candidateMatures n (candidateUnder n k r u) =
    considerReport (candidateUnder n { k with hold := .stopped, matured := true } r u) := by
  have matures : setMobSlot n (fun m => { m with hold := .stopped, matured := true }) (candidateUnder n k r u) =
      candidateUnder n { k with hold := .stopped, matured := true } r u := by
    unfold setMobSlot
    rw [candidateUnder_mobSlot]
    simp [candidateUnder]
  rw [candidateMatures, matures]

theorem exec_holdTimer (jobs : jobsRun s = true) (due : (s.mob.slots[n]).hold = .due) :
    exec (.holdTimerExpiry n) s = .next (settle (candidateMatures n s)) :=
  runIf_on _ _ (by rw [jobs, due]; rfl)

theorem exec_holdTimer_off (h : (s.mob.slots[n]).hold ≠ .due) : exec (.holdTimerExpiry n) s = .next s :=
  runIf_off _ _ (by simpa using fun _ => h)

theorem exec_reportTimer (jobs : jobsRun s = true) (due : s.mob.reportTimer = .due) :
    exec .reportTimerExpiry s = .next (settle (considerReport { s with mob := { s.mob with reportTimer := .stopped } })) := by
  show execReportTimerExpiry s = _
  exact runIf_on _ _ (by simp [jobs, due])

theorem exec_reportTimer_off (h : s.mob.reportTimer ≠ .due) : exec .reportTimerExpiry s = .next s := by
  show execReportTimerExpiry s = _
  exact runIf_off _ _ (by simp [h])

end

end Sys2Proof.Machine

namespace Sys2Proof
open Machine

/-- Settles O47: the timers of one candidate in a calm part, then the evaluation of the slots. -/
theorem levelReports : Obligations.LevelReports := by
  unfold Obligations.LevelReports
  refine ⟨fun u n l calm level => ⟨fun k due => ⟨?reported, fun r runs => ?paused⟩, fun k r early => ?early,
    fun k matured => ?timer, fun due => ?unheard, exec_reportTimer_off⟩, candidateNow_iff,
    fun s n => ⟨evaluateSlot_same, evaluateSlot_begins, evaluateSlot_ends⟩, fun s t sorted => ?mirrored⟩
  case reported =>
    refine (exec_holdTimer (s := candidateUnder n k .stopped u) (by exact calm.jobs)
      (by rw [candidateUnder_mobSlot]; exact due)).trans ?_
    rw [candidateMatures_under, settle_candidateReport calm level rfl rfl]
    rfl
  case paused =>
    refine (exec_holdTimer (s := candidateUnder n k r u) (by exact calm.jobs)
      (by rw [candidateUnder_mobSlot]; exact due)).trans ?_
    rw [candidateMatures_under, considerReport_paused (by exact runs), settle_resting (candidateUnder_resting calm)]
    rfl
  case early => exact exec_holdTimer_off (s := candidateUnder n k r u) (by rw [candidateUnder_mobSlot]; exact early)
  case timer =>
    have stopped : { candidateUnder n k .due u with mob := { (candidateUnder n k .due u).mob with reportTimer := .stopped } } =
      candidateUnder n k .stopped u := rfl
    refine (exec_reportTimer (s := candidateUnder n k .due u) (by exact calm.jobs) rfl).trans ?_
    rw [stopped, settle_candidateReport calm level matured rfl]
    rfl
  case unheard =>
    rw [exec_reportTimer calm.jobs due, considerReport_none (by exact calm.cand)]
    exact congrArg Host.Outcome.next (settle_resting (by exact calm.rest))
  case mirrored =>
    have now : t = sortCandidates s := sorted
    rw [now]
    exact evaluateCandidates_mirrors s

end Sys2Proof
end

section
/-! SUPPORT. Transfer orders, the handover's switch, its fallback and its ends (R107 to R109, R111 to R115, R118, R119). -/

namespace Sys2Proof.Machine

variable {s : State} {n m : Fin 13} {c d f : Half} {o : Order} {b : Bool} {w : SwRec}

/-! ## A transfer order (R107, R118) -/

/-- The order that a transfer order arms. -/
def orderFor (n : Fin 13) (c d f : Half) : Order := { target := n, carrier := c, code := d, activation := f }

/-- An order armed, with its activation timer and the mark that it is due. -/
def orderArmed (o : Order) (timer : Timer) (due : Bool) (s : State) : State :=
  { s with mob := { s.mob with state := .armed, order := some o, actTimer := timer, orderDue := due } }

/-- An order refused: TRANSFER-FAIL with cause UNKNOWN sent, none armed. -/
def orderRefused (s : State) : State :=
  sent (.transferFail .unknown)
    { s with mob := { s.mob with state := .idle, order := none, actTimer := .stopped, orderDue := false } }

theorem transferOrder_switching (on : switchOn s = true) : transferOrder c d f s =
    raise .mob (event s .transferRefused .none 0 d s.mob.state.code 0 0) s := if_pos on

theorem transferOrder_out (still : switchOn s = false) (out : s.conn.state ≠ .connected) : transferOrder c d f s = s := by
  simp [transferOrder, still, out]

theorem transferOrder_connected (still : switchOn s = false) (up : s.conn.shutdown = none)
    (connected : s.conn.state = .connected) : transferOrder c d f s = matchOrder c d f s := by
  simp [transferOrder, still, up, connected]

theorem matchOrder_none (unknown : orderMatch c d s = none) : matchOrder c d f s = refuseOrder s := by
  unfold matchOrder
  rw [unknown]

theorem matchOrder_later (known : orderMatch c d s = some n) (later : notLater f s.frame = false) :
    matchOrder c d f s = orderArmed (orderFor n c d f) (.running (f - s.frame).toNat) false s := by
  unfold matchOrder
  rw [known]
  exact if_neg (by simp [later])

theorem matchOrder_due (known : orderMatch c d s = some n) (due : notLater f s.frame = true) :
    matchOrder c d f s = orderDue (orderArmed (orderFor n c d f) .stopped false s) := by
  unfold matchOrder
  rw [known]
  exact if_pos due

/-- A slot that an order names is the usable one it is armed for. -/
theorem orderMatch_holds (known : orderMatch c d s = some n) : orderHolds (orderFor n c d f) s = true := by
  have found := List.find?_some known
  simp only [Bool.and_eq_true] at found
  obtain ⟨⟨⟨usable, -⟩, carrier⟩, code⟩ := found
  unfold orderHolds orderFor
  simp only [Bool.and_eq_true]
  exact ⟨⟨usable, carrier⟩, code⟩

theorem settle_refuseOrder (calm : Calm s) : settle (refuseOrder s) = orderRefused s :=
  settle_told calm (by exact calm.near) (by exact calm.link) rfl rfl

/-! ## An armed order that is due (R108, R109) -/

theorem orderDue_holds (order : s.mob.order = some o) (fresh : s.mob.stale = false) (holds : orderHolds o s = true) :
    orderDue s = switchStart .handover .switching o.target s := by
  unfold orderDue
  rw [order]
  exact (if_neg (by simp [fresh])).trans (if_pos holds)

theorem orderDue_fails (order : s.mob.order = some o) (fresh : s.mob.stale = false) (fails : orderHolds o s = false) :
    orderDue s = refuseOrder s := by
  unfold orderDue
  rw [order]
  exact (if_neg (by simp [fresh])).trans (if_neg (by simp [fails]))

section
variable {timer : Timer}

/-- An armed order whose target still is as ordered begins its switch, which leaves no order armed. -/
theorem orderArmed_begins (calm : Calm s) (unsent : s.texts.send = none) (free : s.link.opSwitch = .stopped)
    (holds : orderHolds o s = true) :
    orderDue (orderArmed o timer b s) = switchBegun .handover .switching o.target s := by
  obtain ⟨-, -, -, idle, -⟩ := calm.link
  obtain ⟨-, -, -, -, readWaits, -⟩ := calm.near.ended
  have begins := orderDue_holds (s := orderArmed o timer b s) rfl (by exact calm.stale) (by exact holds)
  have plain : switchStart .handover .switching o.target (orderArmed o timer b s) =
      switchBegun .handover .switching o.target (orderArmed o timer b s) :=
    switch_plain (by exact calm.phase) (by exact calm.round) (by exact calm.noRound) (by exact calm.cand)
      (by exact calm.report) (by exact unsent) (by exact calm.up) (by exact idle) (by exact free) (by exact calm.reads)
      (by exact calm.waits) (by exact readWaits)
  rw [begins, plain]
  rfl

theorem orderArmed_refused (calm : Calm s) (fails : orderHolds o s = false) :
    orderDue (orderArmed o timer b s) = refuseOrder s := by
  rw [orderDue_fails (s := orderArmed o timer b s) rfl (by exact calm.stale) (by exact fails)]
  rfl

theorem settle_armed (calm : Calm s) : settle (orderArmed o timer b s) = orderArmed o timer b s :=
  settle_resting (by exact calm.rest)

/-- A due order's switch, to the end of the moment. -/
theorem settle_armedBegins (calm : Calm s) (unsent : s.texts.send = none) (free : s.link.opSwitch = .stopped)
    (holds : orderHolds o s = true) :
    settle (orderDue (orderArmed o timer b s)) = switchBegun .handover .switching o.target s := by
  rw [orderArmed_begins calm unsent free holds]
  exact settle_resting (by exact calm.rest)

end

theorem exec_transferOrder (opened : linkOpen s = true) (carrier : c.toNat ≤ 4095) (code : d.toNat ≤ 511) :
    exec (.transferOrder c d f) s = .next (settle (transferOrder c d f (activity s))) :=
  runAir_on opened (by simp [airValid, carrier, code])

theorem exec_activationTimer (jobs : jobsRun s = true) (due : s.mob.actTimer = .due) (armed : s.mob.state = .armed) :
    exec .activationTimerExpiry s = .next (settle (orderDue { s with mob := { s.mob with actTimer := .stopped } })) := by
  show execActivationTimerExpiry s = _
  exact runIf_on _ _ (by simp [jobs, due, armed])

theorem exec_activationTimer_off (h : s.mob.actTimer ≠ .due) : exec .activationTimerExpiry s = .next s := by
  show execActivationTimerExpiry s = _
  exact runIf_off _ _ (by simp [h])

/-- An armed order's activation timer expires: the order is due, its timer stopped. -/
theorem exec_activationTimer_armed (jobs : jobsRun s = true) :
    exec .activationTimerExpiry (orderArmed o .due b s) = .next (settle (orderDue (orderArmed o .stopped b s))) :=
  exec_activationTimer (s := orderArmed o .due b s) (by exact jobs) rfl rfl

/-! ## A transfer order in a calm part, signalling activity first (R61, R75, R107) -/

theorem activity_match (s : State) : orderMatch c d (activity s) = orderMatch c d s := by
  rw [activity_conn]
  rfl

theorem activity_frame_texts_link (s : State) : (activity s).frame = s.frame ∧ (activity s).texts = s.texts ∧
    (activity s).link = s.link := by
  rw [activity_conn]
  exact ⟨rfl, rfl, rfl⟩

section
variable (calm : Calm s) (carrier : c.toNat ≤ 4095) (code : d.toNat ≤ 511)
include calm carrier code

theorem exec_transferOrder_out (out : s.conn.state ≠ .connected) : exec (.transferOrder c d f) s = .next (activity s) := by
  have still := activity_calm calm
  obtain ⟨-, state, -, -⟩ := activity_conn_same s
  rw [exec_transferOrder calm.open_ carrier code, transferOrder_out still.notSwitch (by rw [state]; exact out),
    settle_resting still.rest]

variable (up : s.conn.shutdown = none) (connected : s.conn.state = .connected)
include up connected

theorem exec_transferOrder_matches :
    exec (.transferOrder c d f) s = .next (settle (matchOrder c d f (activity s))) := by
  obtain ⟨-, state, shutdown, -⟩ := activity_conn_same s
  rw [exec_transferOrder calm.open_ carrier code, transferOrder_connected (activity_calm calm).notSwitch (shutdown.trans up)
    (state.trans connected)]

theorem exec_transferOrder_unknown (unknown : orderMatch c d s = none) :
    exec (.transferOrder c d f) s = .next (orderRefused (activity s)) := by
  rw [exec_transferOrder_matches calm carrier code up connected, matchOrder_none ((activity_match s).trans unknown),
    settle_refuseOrder (activity_calm calm)]

theorem exec_transferOrder_later (known : orderMatch c d s = some n) (later : notLater f s.frame = false) :
    exec (.transferOrder c d f) s =
      .next (orderArmed (orderFor n c d f) (.running (f - s.frame).toNat) false (activity s)) := by
  obtain ⟨frame, -, -⟩ := activity_frame_texts_link s
  rw [exec_transferOrder_matches calm carrier code up connected,
    matchOrder_later ((activity_match s).trans known) (by rw [frame]; exact later), settle_armed (activity_calm calm), frame]

theorem exec_transferOrder_due (unsent : s.texts.send = none) (free : s.link.opSwitch = .stopped)
    (known : orderMatch c d s = some n) (due : notLater f s.frame = true) :
    exec (.transferOrder c d f) s = .next (switchBegun .handover .switching n (activity s)) := by
  obtain ⟨frame, texts, link⟩ := activity_frame_texts_link s
  have matched := (activity_match (c := c) (d := d) s).trans known
  rw [exec_transferOrder_matches calm carrier code up connected, matchOrder_due matched (by rw [frame]; exact due),
    settle_armedBegins (activity_calm calm) (by rw [texts]; exact unsent) (by rw [link]; exact free) (orderMatch_holds matched)]
  rfl

end

/-! ## The outcome of a SWITCH (R111, R114, R115, R119) -/

/-- The SWITCH is answered: its operation is over, and the unit answers again (R54, R55). -/
def switchAnswered (s : State) : State :=
  { s with link := { s.link with opSwitch := .stopped, askSwitch := none, unanswered := 0 } }

theorem exec_switchDone (opened : linkOpen s = true) (runs : s.link.opSwitch.runs = true) :
    exec (.switchDone b) s = .next (settle (switchOutcome b (switchAnswered s))) := by
  show runAnswer .switch (switchOutcome b) s = _
  unfold runAnswer
  rw [runIf_on _ _ (by show (linkOpen s && s.link.opSwitch.runs) = true; simp [opened, runs])]
  rfl

theorem switchOutcome_stale (stale : s.mob.stale = true) : switchOutcome b s = clearStale s := if_pos stale

theorem switchOutcome_synced (fresh : s.mob.stale = false) (switching : s.mob.state = .switching)
    (unconfirmed : s.mob.confirming = false) (switch : s.mob.switch = some w) : switchOutcome true s =
    emitMsg .transferDone { s with mob := { s.mob with confirming := true, confirmMsg := some s.link.nextId } } := by
  simp [switchOutcome, fresh, switching, unconfirmed, switch]

theorem switchOutcome_failed (fresh : s.mob.stale = false) (switching : s.mob.state = .switching)
    (unconfirmed : s.mob.confirming = false) (switch : s.mob.switch = some w) :
    switchOutcome false s = beginFallback w s := by
  simp [switchOutcome, fresh, switching, unconfirmed, switch]

theorem beginFallback_sends (old : w.old = some m) : beginFallback w s =
    sendSwitch m { s with mob := { s.mob with state := .fallback, confirming := false, confirmMsg := none } } := by
  unfold beginFallback
  rw [old]

theorem switchOutcome_fellBack (fresh : s.mob.stale = false) (fallback : s.mob.state = .fallback)
    (switch : s.mob.switch = some w) :
    switchOutcome true s = endSwitch (handoverFailed w (emitMsg (.transferFail .sync) s)) := by
  simp [switchOutcome, fresh, fallback, switch]

theorem switchOutcome_lostBoth (fresh : s.mob.stale = false) (fallback : s.mob.state = .fallback)
    (switch : s.mob.switch = some w) : switchOutcome false s = fallbackFailed w s := by
  simp [switchOutcome, fresh, fallback, switch]

theorem fallbackFailed_connected (h : s.conn.state = .connected) :
    fallbackFailed w s = loseServing true (handoverFailed w s) := by simp [fallbackFailed, h]

theorem fallbackFailed_camped (h : s.conn.state = .camped) :
    fallbackFailed w s = forcedReselect (endSwitch (handoverFailed w s)) := by simp [fallbackFailed, h]

theorem fallbackFailed_other (notConnected : s.conn.state ≠ .connected) (notCamped : s.conn.state ≠ .camped) :
    fallbackFailed w s = endSwitch (handoverFailed w s) := by
  cases h : s.conn.state with
  | connected => exact absurd h notConnected
  | camped => exact absurd h notCamped
  | off | noService | connecting | reestablishing => simp [fallbackFailed, h]

/-! ## A handover's switch under way -/

section
variable {op : Timer}

/-- The switch of a handover, its SWITCH outstanding. -/
abbrev handoverUnder (n : Fin 13) (op : Timer) (s : State) : State := switchUnder .handover .switching n op s

theorem handoverUnder_activity : activity (handoverUnder n op s) = { handoverUnder n op s with conn := (activity s).conn } := by
  have idle : connIdle (handoverUnder n op s) = connIdle s := rfl
  unfold activity
  rw [idle]
  split <;> rfl

theorem handoverUnder_active_resting (calm : Calm s) :
    Resting { handoverUnder n op s with conn := (activity s).conn } := by
  have rest := activity_rest calm.rest
  rw [activity_conn] at rest
  exact rest

/-- An order during the switch is reported and not taken (R107). -/
theorem settle_orderInSwitch (calm : Calm s) : settle (transferOrder c d f (activity (handoverUnder n op s))) =
    eventPlaced (event s .transferRefused .none 0 d SwState.switching.code 0 0)
      { handoverUnder n op s with conn := (activity s).conn } := by
  have rest := handoverUnder_active_resting (n := n) (op := op) calm
  rw [handoverUnder_activity, transferOrder_switching rfl, raise_placed rest (by exact calm.events) rfl,
    settle_resting (eventPlaced_resting rest)]
  rfl

/-- SYNCED places TRANSFER-DONE, which the hold of the switch lets through (R60, R111). -/
theorem settle_transferDone (calm : Calm s) :
    settle (switchOutcome true (switchAnswered (handoverUnder n op s))) =
    sent .transferDone { switchAnswered (handoverUnder n op s) with
      mob := { (handoverUnder n op s).mob with confirming := true, confirmMsg := some s.link.nextId } } := by
  obtain ⟨opened, queue, outside, idle, -⟩ := calm.link
  obtain ⟨-, -, -, -, -, -, -, -, timer⟩ := calm.rest
  rw [switchOutcome_synced (by exact calm.stale) rfl rfl rfl]
  exact emit_held rfl (by exact calm.near) (by exact opened) (by exact queue) (by exact outside) (by exact idle) (by exact timer)

/-- FAILED sends SWITCH to the cell left (R111, R114). -/
theorem settle_fallback (calm : Calm s) (unsent : s.texts.send = none) (serving : s.cells.serving = some m) :
    settle (switchOutcome false (switchAnswered (handoverUnder n op s))) =
    { switchAnswered (handoverUnder n op s) with
      mob := { (handoverUnder n op s).mob with state := .fallback, confirming := false, confirmMsg := none }
      link := { (switchAnswered (handoverUnder n op s)).link with
        opSwitch := .running 15, askSwitch := some (.switch (s.cells.slots[m]).carrier (s.cells.slots[m]).code) }
      out := { s.out with link := s.out.link ++ [.switch (s.cells.slots[m]).carrier (s.cells.slots[m]).code] } } := by
  obtain ⟨-, -, -, idle, -⟩ := calm.link
  rw [switchOutcome_failed (by exact calm.stale) rfl rfl rfl, beginFallback_sends (by exact serving),
    sendSwitch_plain (by exact idle) (by exact calm.report) (by exact unsent) (by exact calm.up) rfl]
  exact settle_resting (by exact calm.rest)

end

/-! ## The commit and the publication of a handover (R112, R113, R118) -/

theorem handedOver_eq {old : Option (Fin 13)} {area : Option Half} {live : Bool} : handedOver n old area live s =
    (let t := takeServing n s
    let u := { t with conn := { t.conn with area := match area with | some a => some a | none => t.conn.area } }
    if live then endSwitch (raise .mob (event u .handoverDone .none Kind.cell.code (BitVec.ofNat 16 n.val) 0 0
      ((slotCode old).setWidth 32)) u) else u) := by
  cases area with
  | none => rfl
  | some a => rfl

end Sys2Proof.Machine

namespace Sys2Proof
open Machine

/-- Settles O45: an order and its switch in a calm part, then the outcomes, the commit and the end equation by equation. -/
theorem transferOrders : Obligations.TransferOrders := by
  unfold Obligations.TransferOrders
  refine ⟨fun s c d f calm up unsent free carrier code => ?orders, fun s b opened runs => exec_switchDone opened runs,
    fun s b w => ⟨switchOutcome_stale, fun fresh fallback switch => ⟨?fellBack, ?lost, ?camped, ?other⟩⟩,
    fun s w awake => commit_awake awake, fun s n old area live => handedOver_eq, fun s => rfl⟩
  case orders =>
    refine ⟨exec_transferOrder_out calm carrier code, fun connected =>
      ⟨exec_transferOrder_unknown calm carrier code up connected, fun n known =>
        ⟨exec_transferOrder_later calm carrier code up connected known,
          exec_transferOrder_due calm carrier code up connected unsent free known, ?expiry⟩⟩,
      exec_activationTimer_off, fun n o target moved => ?moved, fun n m o serving runs => ⟨?refused, ?synced, ?failed⟩⟩
    case expiry =>
      refine (exec_activationTimer_armed (o := orderFor n c d f) (b := s.mob.orderDue) calm.jobs).trans ?_
      rw [settle_armedBegins calm unsent free (orderMatch_holds known)]
      rfl
    case moved =>
      refine (exec_activationTimer_armed (o := o) (b := s.mob.orderDue) calm.jobs).trans ?_
      rw [orderArmed_refused calm moved, settle_refuseOrder calm]
      rfl
    case refused =>
      refine (exec_transferOrder (s := handoverUnder n o s) (by exact calm.open_) carrier code).trans ?_
      rw [settle_orderInSwitch calm]
    case synced =>
      refine (exec_switchDone (s := handoverUnder n o s) (by exact calm.open_) (by exact runs)).trans ?_
      rw [settle_transferDone calm]
      rfl
    case failed =>
      refine (exec_switchDone (s := handoverUnder n o s) (by exact calm.open_) (by exact runs)).trans ?_
      rw [settle_fallback calm unsent serving]
      rfl
  case fellBack =>
    rintro rfl
    exact switchOutcome_fellBack fresh fallback switch
  case lost =>
    rintro rfl connected
    rw [switchOutcome_lostBoth fresh fallback switch, fallbackFailed_connected connected]
    rfl
  case camped =>
    rintro rfl camped
    rw [switchOutcome_lostBoth fresh fallback switch, fallbackFailed_camped camped]
    rfl
  case other =>
    rintro rfl notConnected notCamped
    rw [switchOutcome_lostBoth fresh fallback switch, fallbackFailed_other notConnected notCamped]
    rfl

end Sys2Proof
end

section
/-! SUPPORT. The network's messages about a call (R130, R131, R133 to R136). -/

namespace Sys2Proof.Machine

variable {s t : State} {m : AirMsg} {r x : Fin 4} {c : CallRec} {ref : Byte} {cause : Cause} {f : CallRec → CallRec}
  {caller : List Digit}

/-! ## A capture read that is not taken (R130) -/

theorem dropCapture_unread (h : (s.calls.recs[r]).reading = false) : dropCapture r s = s := if_neg (by rw [h]; decide)

theorem dropCapture_reading (h : (s.calls.recs[r]).reading = true) : dropCapture r s = discardReads (· == .dial r) s := if_pos h

theorem discardReads_none {p : ReadFor → Bool} (reads : s.mem.reads = []) (waits : s.mem.waits = [])
    (readWaits : s.mem.readWaits = []) : discardReads p s = s := by
  have mem : ({ s.mem with reads := [], waits := [], readWaits := [] } : MemPath) = s.mem := by rw [← reads, ← waits, ← readWaits]
  unfold discardReads
  rw [reads, waits, readWaits]
  exact congrArg (fun m => { s with mem := m }) mem

theorem Calm.readWaits (calm : Calm s) : s.mem.readWaits = [] := by
  obtain ⟨-, -, -, -, -, none, -⟩ := calm.rest
  exact none

/-- With no read placed or waiting, there is none to discard. -/
theorem dropCapture_calm (calm : Calm s) : dropCapture r s = s := by
  cases reading : (s.calls.recs[r]).reading with
  | false => exact dropCapture_unread reading
  | true => rw [dropCapture_reading reading, discardReads_none calm.reads calm.waits calm.readWaits]

theorem dropCapture_mem : dropCapture r s = { s with mem := { s.mem with
    reads := (dropCapture r s).mem.reads, waits := (dropCapture r s).mem.waits
    readWaits := (dropCapture r s).mem.readWaits } } := by
  cases reading : (s.calls.recs[r]).reading with
  | false => rw [dropCapture_unread reading]
  | true =>
    rw [dropCapture_reading reading]
    rfl

theorem dropCapture_reads (reading : (s.calls.recs[r]).reading = true) : (dropCapture r s).mem.reads =
    s.mem.reads.map (fun e => if e.for_ = .dial r then { e with discard := true } else e) := by
  rw [dropCapture_reading reading]
  unfold discardReads
  simp only [beq_iff_eq]

theorem completeRead_discard {e : ReadEntry} {data : List Byte} {err : Bool} {done : Completed}
    (h : completeRead e data err s = some (done, t)) : done.2.2 = e.discard := by
  cases status : e.status with
  | waiting => rw [completeRead_ungranted (.inl status)] at h; exact nomatch h
  | needsDram => rw [completeRead_ungranted (.inr status)] at h; exact nomatch h
  | composed line =>
    rw [completeRead_composed status] at h
    injection h with h
    injection h with h
    rw [← h]
  | inFlight =>
    cases next : nextOfLine s.mem (.read e.arrived e.line) with
    | false => rw [completeRead_later status next] at h; exact nomatch h
    | true =>
      rw [takeCompleted_found status next] at h
      injection h with h
      injection h with h
      rw [← h]

theorem dialCaptured_discarded {done : Completed} (h : done.2.2 = true) : dialCaptured r done s = s := if_pos h

/-! ## What each message does (R131, R133, R135, R136) -/

theorem ringing_dialing (found : recByRef ref s = some r) (dialing : (s.calls.recs[r]).state = .dialing) :
    ringing ref s = changeState r (fun c => { c with state := .ringingOut, reading := false, timer := .running 6000 })
      (dropCapture r s) := by
  unfold ringing
  rw [found]
  exact if_pos dialing

theorem ringing_other (found : recByRef ref s = some r) (other : (s.calls.recs[r]).state ≠ .dialing) : ringing ref s = s := by
  unfold ringing
  rw [found]
  exact if_neg other

theorem connected_calling (found : recByRef ref s = some r)
    (calling : (s.calls.recs[r]).state = .dialing ∨ (s.calls.recs[r]).state = .ringingOut) :
    connected ref s = changeState r (fun c => { c with state := .active, reading := false, timer := .stopped })
      (dropCapture r s) := by
  unfold connected
  rw [found]
  exact if_pos calling

theorem connected_other (found : recByRef ref s = some r) (dialing : (s.calls.recs[r]).state ≠ .dialing)
    (ringing : (s.calls.recs[r]).state ≠ .ringingOut) : connected ref s = s := by
  unfold connected
  rw [found]
  exact if_neg (not_or.mpr ⟨dialing, ringing⟩)

/-- A record once its HOLD is accepted. -/
def holdTaken (c : CallRec) : CallRec :=
  { c with state := .held, exch := .none, partner := none, exchMsg := none, timer := .stopped }

theorem holdAccept_alone (found : recByRef ref s = some r) (active : (s.calls.recs[r]).state = .active)
    (exch : (s.calls.recs[r]).exch = .hold) (alone : (s.calls.recs[r]).partner = none) :
    holdAccept ref s = changeState r holdTaken s := by
  unfold holdAccept
  rw [found]
  refine (if_pos ⟨active, exch⟩).trans ?_
  rw [alone]
  rfl

theorem holdAccept_swap (found : recByRef ref s = some r) (active : (s.calls.recs[r]).state = .active)
    (exch : (s.calls.recs[r]).exch = .hold) (partner : (s.calls.recs[r]).partner = some x) :
    holdAccept ref s = placeResume x (changeState r holdTaken s) := by
  unfold holdAccept
  rw [found]
  refine (if_pos ⟨active, exch⟩).trans ?_
  rw [partner]
  rfl

theorem holdAccept_other (found : recByRef ref s = some r)
    (other : (s.calls.recs[r]).state ≠ .active ∨ (s.calls.recs[r]).exch ≠ .hold) : holdAccept ref s = s := by
  unfold holdAccept
  rw [found]
  exact if_neg (not_and_or.mpr other)

theorem resumeAccept_held (found : recByRef ref s = some r) (held : (s.calls.recs[r]).state = .held)
    (exch : (s.calls.recs[r]).exch = .resume) : resumeAccept ref s =
      changeState r (fun c => { c with state := .active, exch := .none, exchMsg := none, timer := .stopped }) s := by
  unfold resumeAccept
  rw [found]
  exact if_pos ⟨held, exch⟩

theorem resumeAccept_other (found : recByRef ref s = some r)
    (other : (s.calls.recs[r]).state ≠ .held ∨ (s.calls.recs[r]).exch ≠ .resume) : resumeAccept ref s = s := by
  unfold resumeAccept
  rw [found]
  exact if_neg (not_and_or.mpr other)

theorem networkRelease_known (found : recByRef ref s = some r) : networkRelease ref cause s =
    partnerLeft s.calls.recs[r] (freeRec r cause (emitMsg (.releaseDone ref) (withdrawCall ref s))) := by
  unfold networkRelease
  rw [found]

theorem networkRelease_unknown (unknown : recByRef ref s = none) :
    networkRelease ref cause s = emitMsg (.releaseDone ref) s := by
  unfold networkRelease
  rw [unknown]

theorem releaseDone_releasing (found : recByRef ref s = some r) (releasing : (s.calls.recs[r]).state = .releasing) :
    releaseDone ref s = freeRec r ((s.calls.recs[r]).relCause.getD .locl) s := by
  unfold releaseDone
  rw [found]
  exact if_pos releasing

theorem releaseDone_other (found : recByRef ref s = some r) (other : (s.calls.recs[r]).state ≠ .releasing) :
    releaseDone ref s = s := by
  unfold releaseDone
  rw [found]
  exact if_neg other

/-- A record that an OFFER makes INCOMING. -/
def offered (ref : Byte) (caller : List Digit) (now : FrameNo) (c : CallRec) : CallRec :=
  { c with
    state := .incoming, ref := ref, dir := .incoming, caller := caller, start := now, gaps := 0, endCause := none
    timer := .running 6000 }

theorem newOffer_free (free : (s.calls.recs[r]).state = .free) (first : ∀ q : Fin 4, q < r → (s.calls.recs[q]).state ≠ .free) :
    newOffer ref caller s = changeState r (offered ref caller s.frame) s := by
  have parts : ∀ r : Fin 4, List.finRange 4 = (List.finRange 4).take r.val ++ r :: (List.finRange 4).drop (r.val + 1) := by
    decide
  have lower : ∀ r q : Fin 4, q ∈ (List.finRange 4).take r.val → q < r := by decide
  have found : (List.finRange 4).find? (fun q => (s.calls.recs[q]).state == .free) = some r :=
    List.find?_eq_some_iff_append.mpr ⟨beq_iff_eq.mpr free, _, _, parts r,
      fun q before => bne_iff_ne.mpr (first q (lower r q before))⟩
  unfold newOffer
  rw [found]
  rfl

theorem newOffer_busy (used : ∀ r : Fin 4, (s.calls.recs[r]).state ≠ .free) :
    newOffer ref caller s = emitMsg (.release ref .busy) s := by
  have none : (List.finRange 4).find? (fun q => (s.calls.recs[q]).state == .free) = none :=
    List.find?_eq_none.mpr fun q _ h => used q (beq_iff_eq.mp h)
  unfold newOffer
  rw [none]

/-- With the part awake and a connection, an OFFER with a reference that no record holds is a new one. -/
theorem offer_connected (connected : s.conn.state = .connected) (up : s.conn.shutdown = none) (awake : s.sleep.level = .awake)
    (unknown : recByRef ref s = none) : offer ref caller s = newOffer ref caller s := by
  unfold offer
  rw [connected, up, awake]
  simp [unknown]

theorem offer_out (connected : s.conn.state ≠ .connected) (reestablishing : s.conn.state ≠ .reestablishing) :
    offer ref caller s = s := by
  unfold offer
  exact if_neg (by simp [connected, reestablishing])

theorem recByRef_activity (ref : Byte) (s : State) : recByRef ref (activity s) = recByRef ref s := by
  obtain ⟨i, form⟩ := activity_form s
  rw [form]
  rfl

/-! ## A record's change in a calm part (R127, R145) -/

theorem recEnded_active (h : (s.calls.recs[r]).state = .active) : recEnded r c s = speechStop (recMoved r c s) := if_pos h

theorem recEnded_inactive (h : (s.calls.recs[r]).state ≠ .active) : recEnded r c s = recMoved r c s := if_neg h

theorem recEnded_idle (waits : s.mem.waits = []) (same : c.state = .free ↔ (s.calls.recs[r]).state = .free) :
    connIdle (recEnded r c s) = connIdle s := by
  obtain ⟨m, p, form, -⟩ := recEnded_form r c s waits
  rw [form]
  exact connIdle_withRec same

theorem recEnded_sameConn (waits : s.mem.waits = []) : (recEnded r c s).conn = s.conn := by
  obtain ⟨m, p, form, -⟩ := recEnded_form r c s waits
  rw [form]
  rfl

theorem recEnded_link (waits : s.mem.waits = []) : (recEnded r c s).link = s.link := by
  obtain ⟨m, p, form, -⟩ := recEnded_form r c s waits
  rw [form]
  rfl

theorem recEnded_clear (calm : Calm s) : LinkClear (recEnded r c s) := by
  obtain ⟨m, p, form, -⟩ := recEnded_form r c s calm.waits
  rw [form]
  exact calm.link

theorem recEnded_gap (waits : s.mem.waits = []) : (recEnded r c s).calls.gapHeld = s.calls.gapHeld := by
  obtain ⟨m, p, form, -⟩ := recEnded_form r c s waits
  rw [form]
  rfl

theorem recEnded_waits (waits : s.mem.waits = []) : (recEnded r c s).mem.waits = [] := by
  obtain ⟨m, p, form, kept, -⟩ := recEnded_form r c s waits
  rw [form]
  exact kept.trans waits

/-- A record's change to a state that is not ACTIVE. -/
theorem changeState_calm (calm : Calm s) (still : (f s.calls.recs[r]).state ≠ .active) :
    changeState r f s = recEnded r (f s.calls.recs[r]) s :=
  changeState_ended calm.gap calm.near.quiet calm.events (calm.room' (by decide)) still

/-- A record becomes ACTIVE. -/
theorem changeState_started (calm : Calm s) (was : (s.calls.recs[r]).state ≠ .active)
    (now : (f s.calls.recs[r]).state = .active) : changeState r f s = speechStart r (recMoved r (f s.calls.recs[r]) s) := by
  rw [change_room calm.gap calm.near.quiet calm.events (calm.room' (by decide))]
  exact if_pos ⟨now, was⟩

theorem settle_recEnded (calm : Calm s) (same : c.state = .free ↔ (s.calls.recs[r]).state = .free) :
    settle (recEnded r c s) = recEnded r c s :=
  settle_same calm calm.near.recEnded (recEnded_idle calm.waits same) (by rw [recEnded_sameConn calm.waits])

theorem settle_started (calm : Calm s) (same : c.state = .free ↔ (s.calls.recs[r]).state = .free) :
    settle (speechStart r (recMoved r c s)) = speechStart r (recMoved r c s) := by
  have room : Room 1 (recMoved r c s) := moved_room (calm.room' (by decide))
  obtain ⟨m, form, waits, -⟩ := moved_form r c s
  rw [settle_near (calm.near.moved.start room)]
  refine start_idle calm.rest ?_ ?_ ?_ room
  · rw [form]
    exact connIdle_withRec same
  · rw [form]
    rfl
  · rw [form]
    exact waits.trans calm.waits

/-! ## The moments of the messages -/

theorem settle_ringing (calm : Calm s) (found : recByRef ref s = some r) (dialing : (s.calls.recs[r]).state = .dialing) :
    settle (ringing ref s) =
      recMoved r { s.calls.recs[r] with state := .ringingOut, reading := false, timer := .running 6000 } s := by
  rw [ringing_dialing found dialing, dropCapture_calm calm, changeState_calm calm (by exact nofun),
    settle_recEnded calm (iff_of_false (by exact nofun) (byRef_state found)), recEnded_inactive (by rw [dialing]; decide)]

theorem settle_connected (calm : Calm s) (found : recByRef ref s = some r)
    (calling : (s.calls.recs[r]).state = .dialing ∨ (s.calls.recs[r]).state = .ringingOut) :
    settle (connected ref s) =
      speechStart r (recMoved r { s.calls.recs[r] with state := .active, reading := false, timer := .stopped } s) := by
  have inactive : (s.calls.recs[r]).state ≠ .active := by
    rcases calling with h | h
    · rw [h]; decide
    · rw [h]; decide
  rw [connected_calling found calling, dropCapture_calm calm, changeState_started calm inactive rfl,
    settle_started calm (iff_of_false (by exact nofun) (byRef_state found))]

theorem settle_holdAlone (calm : Calm s) (found : recByRef ref s = some r) (active : (s.calls.recs[r]).state = .active)
    (exch : (s.calls.recs[r]).exch = .hold) (alone : (s.calls.recs[r]).partner = none) :
    settle (holdAccept ref s) = speechStop (recMoved r (holdTaken s.calls.recs[r]) s) := by
  rw [holdAccept_alone found active exch alone, changeState_calm calm (by exact nofun),
    settle_recEnded calm (iff_of_false (by exact nofun) (byRef_state found)), recEnded_active active]

/-- The HOLD of a swap: the partner's RESUME follows (R134). -/
theorem settle_holdSwap (calm : Calm s) (found : recByRef ref s = some r) (active : (s.calls.recs[r]).state = .active)
    (exch : (s.calls.recs[r]).exch = .hold) (partner : (s.calls.recs[r]).partner = some x) (ne : x ≠ r) :
    settle (holdAccept ref s) = sent (.resume (s.calls.recs[x]).ref) (withRec x
      { s.calls.recs[x] with exch := .resume, partner := none, exchMsg := some s.link.nextId }
      (speechStop (recMoved r (holdTaken s.calls.recs[r]) s))) := by
  have waits := calm.waits
  have kept : (recEnded r (holdTaken s.calls.recs[r]) s).calls.recs[x] = s.calls.recs[x] := recEnded_get_ne ne waits
  rw [holdAccept_swap found active exch partner, changeState_calm calm (by exact nofun),
    placeResume_eq ((recEnded_gap waits).trans calm.gap) (recEnded_waits waits) (recEnded_room waits (calm.room' (by decide))),
    kept, recEnded_link waits, ← recEnded_active active]
  refine settle_told calm calm.near.recEnded.withRec (by exact recEnded_clear calm) ?_ ?_
  · rw [connIdle_withRec (by rw [kept]), recEnded_idle waits (iff_of_false (by exact nofun) (byRef_state found))]
  · exact congrArg Conn.inactTimer (recEnded_sameConn waits)

theorem settle_resumeTaken (calm : Calm s) (found : recByRef ref s = some r) (held : (s.calls.recs[r]).state = .held)
    (exch : (s.calls.recs[r]).exch = .resume) : settle (resumeAccept ref s) = speechStart r (recMoved r
      { s.calls.recs[r] with state := .active, exch := .none, exchMsg := none, timer := .stopped } s) := by
  rw [resumeAccept_held found held exch, changeState_started calm (by rw [held]; decide) rfl,
    settle_started calm (iff_of_false (by exact nofun) (byRef_state found))]

/-- A network RELEASE with no exchange to pass on: RELEASE-DONE, and the record FREE (R136). -/
theorem settle_networkRelease (calm : Calm s) (found : recByRef ref s = some r) (exch : (s.calls.recs[r]).exch = .none)
    (reading : (s.calls.recs[r]).reading = false) :
    settle (networkRelease ref cause s) = pumpIdle (sent (.releaseDone ref) (recFreed r cause s)) := by
  have handed := emit_eq (m := .releaseDone ref) calm.waits
  have freed : freeRec r cause (emitMsg (.releaseDone ref) s) = recFreed r cause (emitMsg (.releaseDone ref) s) := by
    rw [handed]
    exact freeRec_freed (by exact calm.gap) (by exact calm.near.quiet) (by exact calm.events)
      (by exact calm.room' (n := 3) (by decide)) (by exact reading)
  rw [networkRelease_known found, partnerLeft_alone (.inl exch), withdrawCall_calm calm ref s rfl calm.waits, freed,
    recFreed_emit calm.waits]
  exact settle_msg calm.near.recEnded (recEnded_clear calm)

theorem settle_releaseDone (calm : Calm s) (found : recByRef ref s = some r) (releasing : (s.calls.recs[r]).state = .releasing)
    (reading : (s.calls.recs[r]).reading = false) :
    settle (releaseDone ref s) = pumpIdle (recFreed r ((s.calls.recs[r]).relCause.getD .locl) s) := by
  rw [releaseDone_releasing found releasing,
    freeRec_freed calm.gap calm.near.quiet calm.events (calm.room' (by decide)) reading]
  exact settle_near calm.near.recEnded

theorem settle_offer (calm : Calm s) (connected : s.conn.state = .connected) (up : s.conn.shutdown = none)
    (unknown : recByRef ref s = none) (free : (s.calls.recs[r]).state = .free)
    (first : ∀ q : Fin 4, q < r → (s.calls.recs[q]).state ≠ .free) :
    settle (offer ref caller s) = pumpIdle (recMoved r (offered ref caller s.frame s.calls.recs[r]) s) := by
  rw [offer_connected connected up calm.awake unknown, newOffer_free free first, changeState_calm calm (by exact nofun),
    recEnded_inactive (by rw [free]; decide), settle_moved calm]

theorem settle_offerBusy (calm : Calm s) (connected : s.conn.state = .connected) (up : s.conn.shutdown = none)
    (unknown : recByRef ref s = none) (used : ∀ r : Fin 4, (s.calls.recs[r]).state ≠ .free) :
    settle (offer ref caller s) = sent (.release ref .busy) s := by
  rw [offer_connected connected up calm.awake unknown, newOffer_busy used, settle_sent calm.rest calm.link]

end Sys2Proof.Machine

namespace Sys2Proof
open Machine

/-- Settles O49: a message by the state of its record, then an OFFER and a RELEASE that no record holds, then the capture. -/
theorem callMessages : Obligations.CallMessages := by
  unfold Obligations.CallMessages
  refine ⟨fun s r ref calm given found => ?known, fun s ref caller calm given digits unknown => ?unknown,
    fun s r ref opened given found => ?moved, fun s r => ⟨dropCapture_unread, dropCapture_reads, dropCapture_mem⟩,
    fun s t r l e data err done due wanted completes => ?captured⟩
  case known =>
    intro c ended freed
    have message : ∀ (i : Instr) (f : State → State) (t : State), airValid i = true → settle (f s) = t →
        runAir i f s = .next t := fun i f t valid e => by
      rw [runAir_on calm.open_ valid, activity_off (notFree_idle (byRef_state found)), e]
    have ignored : ∀ (i : Instr) (f : State → State), airValid i = true → f s = s → runAir i f s = .next s :=
      fun i f valid e => message i f s valid (e.symm ▸ settle_resting calm.rest)
    have valid : (ref != 0) = true := bne_iff_ne.mpr given
    exact ⟨fun dialing => message _ _ _ valid (settle_ringing calm found dialing),
      fun other => ignored _ _ valid (ringing_other found other),
      fun calling => message _ _ _ valid (settle_connected calm found calling),
      fun dialing ringing => ignored _ _ valid (connected_other found dialing ringing),
      fun active exch alone => message _ _ _ valid (settle_holdAlone calm found active exch alone),
      fun x active exch partner ne => message _ _ _ valid (settle_holdSwap calm found active exch partner ne),
      fun other => ignored _ _ valid (holdAccept_other found other),
      fun held exch => message _ _ _ valid (settle_resumeTaken calm found held exch),
      fun other => ignored _ _ valid (resumeAccept_other found other),
      fun code exch reading => message _ _ _ valid (settle_networkRelease calm found exch reading),
      fun releasing reading => message _ _ _ valid (settle_releaseDone calm found releasing reading),
      fun other => ignored _ _ valid (releaseDone_other found other)⟩
  case unknown =>
    have valid : (ref != 0) = true := bne_iff_ne.mpr given
    have active := activity_calm calm
    have same : (activity s).calls = s.calls ∧ (activity s).frame = s.frame ∧ (activity s).conn.shutdown = s.conn.shutdown := by
      obtain ⟨i, form⟩ := activity_form s
      rw [form]
      exact ⟨rfl, rfl, rfl⟩
    obtain ⟨calls, frame, shutdown⟩ := same
    have still : recByRef ref (activity s) = none := (recByRef_activity ref s).trans unknown
    have offers : exec (.offer ref caller) s = .next (settle (offer ref caller (activity s))) :=
      runAir_on (c := .offer ref caller) calm.open_ (Bool.and_eq_true_iff.mpr ⟨valid, digits⟩)
    refine ⟨fun r connected up free first => ?_, fun connected up used => ?_, fun connected reestablishing => ?_, fun code => ?_⟩
    · rw [offers, settle_offer active (by rw [activity_state]; exact connected) (shutdown.trans up) still
        (by rw [calls]; exact free) (by rw [calls]; exact first), calls, frame]
      rfl
    · have off : activity s = s := activity_off (notFree_idle (used 0))
      rw [offers, off, settle_offerBusy calm connected up unknown used]
    · have off : activity s = s := activity_off (not_connected connected)
      rw [offers, off, offer_out connected reestablishing, settle_resting calm.rest]
    · refine (runAir_on (c := .release ref code) calm.open_ valid).trans ?_
      rw [networkRelease_unknown still, settle_sent active.rest active.link]
  case moved =>
    intro u c
    have valid : (ref != 0) = true := bne_iff_ne.mpr given
    refine ⟨fun dialing => (runAir_on (c := .ringing ref) opened valid).trans ?_,
      fun calling => (runAir_on (c := .connect ref) opened valid).trans ?_⟩
    · rw [ringing_dialing found dialing]
    · rw [connected_calling found calling]
  case captured =>
    show runRead (dueRead (· == .dial r) l.toNat s.mem) data err (dialCaptured r) s = _
    rw [due, runRead_some completes, dialCaptured_discarded ((completeRead_discard completes).trans wanted)]

end Sys2Proof
end

section
/-! SUPPORT. The capture of a dial string (R130): a DIALING record that has an exchange. -/

namespace Sys2Proof.Machine

/-- A DIALING record whose dial string is being read, and whose HOLD is for the record 1. -/
def dialingInHold : CallRec :=
  { CallRec.initial with state := .dialing, ref := 1, reading := true, exch := .hold, partner := some 1 }

/-- A bound part in CONNECTED with nothing under way but that record. -/
def capturingInHold : State :=
  let s := State.powerOn 0
  { s with
    bind := { s.bind with state := .bound, captured := some boundCopy }
    events := { s.events with running := true }
    cells := { s.cells with paced := true }
    conn := { s.conn with state := .connected }
    calls := { s.calls with recs := s.calls.recs.set 0 dialingInHold } }

theorem capturingInHold_room : Room 12 capturingInHold := by
  unfold Room
  decide

theorem capturingInHold_calm : Calm capturingInHold :=
  ⟨rfl, rfl, rfl, ⟨rfl, rfl, rfl, .inl rfl, rfl, rfl, rfl, by decide, rfl⟩, ⟨rfl, rfl, rfl, rfl, rfl⟩,
    ⟨rfl, rfl, rfl, capturingInHold_room.mono (by decide)⟩, capturingInHold_room, rfl, rfl, rfl, rfl, rfl, rfl, rfl,
    by decide, rfl, rfl, rfl, rfl, rfl, rfl, rfl⟩

/-- The read of its dial string, in flight. -/
def captureRead : ReadEntry :=
  { for_ := .dial 0, line := 9, arrived := 0, since := 0, status := .inFlight, discard := false }

/-- The part while the read is in flight. -/
def captureInFlight : State :=
  { capturingInHold with mem := { capturingInHold.mem with
    reads := [captureRead], inFlight := [.read captureRead.arrived captureRead.line] } }

/-- What the model does with an empty number: the record that goes passes its exchange on, and RESUME leaves for the record 1 (R134). -/
theorem exec_dialStringCaptured_inHold : ∃ t, exec (.dialStringCaptured 0 ⟨9, []⟩ false) captureInFlight = .next t ∧
    t.out.link = [.sendSig (.resume 0)] := ⟨_, rfl, by decide⟩

/-- A record's change and its event put nothing on the link. -/
theorem recMoved_out (r : Fin 4) (c d : CallRec) (s : State) :
    (pumpIdle (recMoved r c (withRec r d s))).out = s.out := by
  obtain ⟨i, idle⟩ := pumpIdle_form (recMoved r c (withRec r d s))
  obtain ⟨m, form, -⟩ := moved_form r c (withRec r d s)
  rw [idle, form]
  rfl

/-- Refutes O50: the number of a DIALING record is empty while a HOLD for the record 1 is its exchange. The record that leaves the
exchange passes it on, so that RESUME goes out (R134). The clause on a number without a digit has no condition on the exchange, where
those on the timers say that there is none; the part itself gives an exchange to ACTIVE and HELD records alone (R133, R134). -/
theorem not_callTimers : ¬ Obligations.CallTimers := by
  unfold Obligations.CallTimers
  rintro ⟨captured, -⟩
  obtain ⟨-, freed, -⟩ := captured capturingInHold 0 captureRead 9 [] capturingInHold_calm rfl rfl rfl rfl rfl rfl rfl rfl rfl
  have moment := freed (.inr (by decide))
  obtain ⟨t, next, resumes⟩ := exec_dialStringCaptured_inHold
  have same := next.symm.trans moment
  injection same with same
  rw [same, recMoved_out] at resumes
  exact absurd resumes nofun

end Sys2Proof.Machine
end

section
/-! SUPPORT. The inbox: the consumer's notices, and the segments that write nothing (R164 to R167). -/

namespace Sys2Proof.Machine

variable {s : State} {v : Byte} {g : Segment} {c : Ctx}

/-! ## The consumer (R164) -/

theorem exec_inboxConsumer (h : noticeOpen s = true) :
    exec (.inboxConsumerWrite v) s = .next (settle (inboxConsumer v s)) := runIf_on _ _ h

theorem inboxConsumer_taken (between : occupancy v s.texts.inCons ≤ delivered s.texts)
    (still : s.texts.full = false ∨ v = s.texts.inCons) :
    inboxConsumer v s = { s with texts := { s.texts with inCons := v } } := by
  unfold inboxConsumer
  rw [if_pos between]
  exact if_neg (by rcases still with h | h <;> simp [h])

theorem inboxConsumer_freed (between : occupancy v s.texts.inCons ≤ delivered s.texts) (full : s.texts.full = true)
    (moved : v ≠ s.texts.inCons) :
    inboxConsumer v s = emitMsg .inboxReady (setFull false { s with texts := { s.texts with inCons := v } }) := by
  unfold inboxConsumer
  rw [if_pos between]
  exact if_pos (by simp [full, moved])

theorem inboxConsumer_ignored (beyond : delivered s.texts < occupancy v s.texts.inCons) :
    inboxConsumer v s = ignoreConfig .inbox 0xFFFF 0x01 s := if_neg (Nat.not_le.2 beyond)

theorem setFull_same {b : Bool} (h : s.texts.full = b) : setFull b s = s := if_pos h

theorem setFull_room {b : Bool} (changed : s.texts.full ≠ b) (waits : s.mem.waits = []) (room : Room 1 s) : setFull b s =
    joinWrite (writeAt s .inbox 0 [(2, flagCode b)]) { s with texts := { s.texts with full := b } } := by
  unfold setFull
  rw [if_neg changed]
  exact emitWrite_room (n := 0) (by exact waits) (by exact room) rfl

/-! ## A segment arrives, and is checked (R165) -/

theorem exec_textSegment (link : linkOpen s = true)
    (valid : airValid (.textSegment g.ref g.sender g.index g.count g.payload) = true) :
    exec (.textSegment g.ref g.sender g.index g.count g.payload) s = .next (settle (textSegment g (activity s))) :=
  runAir_on link valid

theorem textSegment_down (out : s.conn.state ≠ .connected) (lost : s.conn.state ≠ .reestablishing) : textSegment g s = s := by
  simp [textSegment, segmentIn, segmentUp, out, lost]

theorem textSegment_up (calm : Calm s) (connected : s.conn.state = .connected) (up : s.conn.shutdown = none) :
    textSegment g s = checkSegment g s := by
  simp [textSegment, segmentIn, segmentUp, connected, up, calm.mem, jobWaits_none calm.waits,
    (steady_texts calm.steady).1]

theorem activity_texts (s : State) : (activity s).texts = s.texts := (activity_frame_texts_link s).2.1

/-- The moment of a segment in CONNECTED. -/
theorem exec_segment_up (calm : Calm s) (connected : s.conn.state = .connected) (up : s.conn.shutdown = none)
    (valid : airValid (.textSegment g.ref g.sender g.index g.count g.payload) = true) :
    exec (.textSegment g.ref g.sender g.index g.count g.payload) s = .next (settle (checkSegment g (activity s))) := by
  obtain ⟨-, state, shutdown, -⟩ := activity_conn_same s
  rw [exec_textSegment calm.open_ valid, textSegment_up (activity_calm calm) (state.trans connected) (shutdown.trans up)]

theorem checkSegment_malformed (early : g.index.toNat + 1 < g.count.toNat) (short : g.payload.length ≠ 160) :
    checkSegment g s = s := if_pos (by simp [early, short])

/-- The last segment, or one of full length, passes the first check. -/
theorem malformed_whole (whole : g.index.toNat + 1 = g.count.toNat ∨ g.payload.length = 160) :
    (decide (g.index.toNat + 1 < g.count.toNat) && g.payload.length != 160) = false := by
  rcases whole with h | h <;> simp [h]

theorem checkSegment_repeated (whole : g.index.toNat + 1 = g.count.toNat ∨ g.payload.length = 160)
    (old : (g.sender, g.ref) ∈ s.texts.recent) : checkSegment g s = ackMsg g.ref g.index .ok s := by
  have listed : s.texts.recent.contains (g.sender, g.ref) = true := by simpa using old
  unfold checkSegment
  rw [malformed_whole whole, listed]
  rfl

theorem checkSegment_known (whole : g.index.toNat + 1 = g.count.toNat ∨ g.payload.length = 160)
    (new : (g.sender, g.ref) ∉ s.texts.recent)
    (known : s.texts.ctxs.find? (fun c => c.sender == g.sender && c.ref == g.ref) = some c) :
    checkSegment g s = takeSegment c g s := by
  have unlisted : s.texts.recent.contains (g.sender, g.ref) = false := by simpa using new
  unfold checkSegment
  rw [malformed_whole whole, unlisted, known]
  rfl

theorem checkSegment_first (whole : g.index.toNat + 1 = g.count.toNat ∨ g.payload.length = 160)
    (new : (g.sender, g.ref) ∉ s.texts.recent)
    (unknown : s.texts.ctxs.find? (fun c => c.sender == g.sender && c.ref == g.ref) = none) :
    checkSegment g s = openSegment g s := by
  have unlisted : s.texts.recent.contains (g.sender, g.ref) = false := by simpa using new
  unfold checkSegment
  rw [malformed_whole whole, unlisted, unknown]
  rfl

/-! ## Segments that write nothing (R166, R167) -/

theorem takeSegment_other (other : g.count.toNat ≠ c.count) : takeSegment c g s = s := if_pos (by simpa using other)

theorem takeSegment_again (same : g.count.toNat = c.count) (got : g.index.toNat ∈ c.got) :
    takeSegment c g s = ackMsg g.ref g.index .ok s := by
  unfold takeSegment
  rw [if_neg (by simpa using same)]
  exact if_pos (by simpa using got)

theorem openSegment_busy (open_ : 4 ≤ s.texts.ctxs.length) : openSegment g s = ackMsg g.ref g.index .busy s := if_pos open_

theorem openSegment_full (few : s.texts.ctxs.length < 4) (none : freeSlots s.texts = 0) (told : s.texts.full = true) :
    openSegment g s = ackMsg g.ref g.index .inboxFull s := by
  unfold openSegment
  rw [if_neg (Nat.not_le.2 few), if_pos none, setFull_same told]
  exact if_pos told

theorem openSegment_fills (few : s.texts.ctxs.length < 4) (none : freeSlots s.texts = 0) (untold : s.texts.full = false) :
    openSegment g s = emitMsg .inboxFull (ackMsg g.ref g.index .inboxFull (setFull true s)) := by
  unfold openSegment
  rw [if_neg (Nat.not_le.2 few), if_pos none]
  exact if_neg (by simp [untold])

theorem settle_acked {res : AckResult} (calm : Calm s) :
    settle (ackMsg g.ref g.index res (activity s)) = sent (.segmentAck g.ref g.index res) (activity s) :=
  settle_sent (activity_calm calm).rest (activity_calm calm).link

/-- The inbox fills up: INBOX-FULL waits outside the queue behind the refusal, which leaves. -/
theorem settle_filled (calm : Calm s) (untold : s.texts.full = false) :
    settle (emitMsg .inboxFull (ackMsg g.ref g.index .inboxFull (setFull true s))) =
      let t := sent (.segmentAck g.ref g.index .inboxFull) s
      let u := joinWrite (writeAt t .inbox 0 [(2, 1)]) { t with texts := { t.texts with full := true } }
      { u with link := { u.link with nextId := u.link.nextId + 1, outside :=
        [{ id := s.link.nextId + 1, msg := .inboxFull, inFlight := false, place := 0, attempts := 0 }] } } := by
  rw [setFull_room (by simp [untold]) calm.waits (calm.room' (by decide))]
  refine (two_msgs (by exact calm.near) (by exact calm.link) rfl).trans ?_
  exact idle_of calm.rest (by rfl) (by rfl)

end Sys2Proof.Machine

namespace Sys2Proof
open Machine

/-- Settles O54: the consumer taken, taken with the full flag cleared, ignored. -/
theorem inboxConsumer : Obligations.InboxConsumer := by
  unfold Obligations.InboxConsumer
  refine fun s v calm => ⟨fun between => ⟨fun still => ?_, fun full moved => ?_⟩, fun beyond => ?_⟩
  · rw [exec_inboxConsumer calm.notice, inboxConsumer_taken between still]
    exact congrArg Host.Outcome.next (settle_resting calm.rest)
  · rw [exec_inboxConsumer calm.notice, inboxConsumer_freed between full moved,
      setFull_room (by simp [full]) (by exact calm.waits) (by exact calm.room' (n := 1) (by decide))]
    exact congrArg Host.Outcome.next (settle_sent (by exact calm.rest) (by exact calm.link))
  · rw [exec_inboxConsumer calm.notice, inboxConsumer_ignored beyond, ignore_placed calm.rest calm.events]

/-- Settles O55: the segments in the order of R165's checks; INBOX-FULL waits behind the refusal. -/
theorem segmentsWithoutWrites : Obligations.SegmentsWithoutWrites := by
  unfold Obligations.SegmentsWithoutWrites
  intro s g calm valid run acked known
  have texts := activity_texts s
  refine ⟨fun out lost => ?out, fun connected up => ?up⟩
  case out =>
    have quiet : activity s = s := activity_off (not_connected out)
    rw [show run = _ from exec_textSegment calm.open_ valid, quiet, textSegment_down out lost, settle_resting calm.rest]
  have check : run = .next (settle (checkSegment g (activity s))) := exec_segment_up calm connected up valid
  have rest := settle_resting (activity_calm calm).rest
  have answered : ∀ res, settle (ackMsg g.ref g.index res (activity s)) = acked res := fun _ => settle_acked calm
  rw [check]
  refine ⟨fun early short => ?_, fun whole => ⟨fun old => ?_, fun new => ⟨fun c found other => ?_, fun c found same got => ?_,
    fun unknown many => ?_, fun unknown few none told => ?_, fun unknown few none untold => ?_⟩⟩⟩
  · rw [checkSegment_malformed early short, rest]
  · rw [checkSegment_repeated whole (by rwa [texts]), answered]
  · rw [checkSegment_known whole (by rwa [texts]) (by rwa [texts]), takeSegment_other other, rest]
  · rw [checkSegment_known whole (by rwa [texts]) (by rwa [texts]), takeSegment_again same got, answered]
  · rw [checkSegment_first whole (by rwa [texts]) (by rwa [texts]), openSegment_busy (by rwa [texts]), answered]
  · rw [checkSegment_first whole (by rwa [texts]) (by rwa [texts]),
      openSegment_full (by rwa [texts]) (by rwa [texts]) (by rwa [texts]), answered]
  · have link : s.link = (activity s).link := (activity_frame_texts_link s).2.2.symm
    rw [checkSegment_first whole (by rwa [texts]) (by rwa [texts]),
      openSegment_fills (by rwa [texts]) (by rwa [texts]) (by rwa [texts]),
      settle_filled (activity_calm calm) (by rwa [texts]), link]

end Sys2Proof
end

section
/-! SUPPORT. The outbox: the notices of its producer and of its cancel words (R154 to R157). -/

namespace Sys2Proof.Machine

variable {s : State} {v : Byte} {n : Fin 16} {x : Send}

/-! ## The producer (R155) -/

theorem exec_outboxProducer (h : noticeOpen s = true) :
    exec (.outboxProducerWrite v) s = .next (settle (outboxProducer v s)) := runIf_on _ _ h

/-- A descriptor as it is submitted. -/
abbrev queuedDesc : Desc := { state := .queued, attempts := 0, fail := none, ref := 0 }

/-- The descriptors submitted by one notice become QUEUED in ring order. -/
theorem submit_eq_foldl (k : Nat) (i : Byte) (s : State) : submit k i s =
    (List.range k).foldl (fun t j => setDesc (descOf (i + BitVec.ofNat 8 j)) (fun _ => queuedDesc) t) s := by
  induction k generalizing i s with
  | zero => rfl
  | succ k ih =>
    have next : ∀ j : Nat, i + 1 + BitVec.ofNat 8 j = i + BitVec.ofNat 8 j.succ := fun j => by
      rw [Nat.succ_eq_one_add, BitVec.ofNat_add, ← BitVec.add_assoc]
      rfl
    have first : i + BitVec.ofNat 8 0 = i := BitVec.add_zero i
    rw [List.range_succ_eq_map, List.foldl_cons, List.foldl_map, submit, ih, first]
    simp only [next]

theorem outboxProducer_overrun (high : 16 < occupancy v s.texts.retire) : outboxProducer v s =
    raiseNow (event s .outboxOverrun .none Kind.outbox.code 0xFFFF 0 0 (BitVec.ofNat 32 (occupancy v s.texts.retire))) s :=
  if_pos high

theorem outboxProducer_back (holds : occupancy v s.texts.retire ≤ 16)
    (back : occupancy v s.texts.retire < occupancy s.texts.prod s.texts.retire) :
    outboxProducer v s = ignoreConfig .outbox 0xFFFF 0x00 s := by
  unfold outboxProducer
  exact (if_neg (Nat.not_lt.2 holds)).trans (if_pos back)

/-- The new producer captured, past the descriptors submitted. -/
def produced (v : Byte) (s : State) : State := { s with texts := { s.texts with prod := v } }

theorem outboxProducer_taken (holds : occupancy v s.texts.retire ≤ 16)
    (ahead : occupancy s.texts.prod s.texts.retire ≤ occupancy v s.texts.retire) : outboxProducer v s =
    produced v (submit (occupancy v s.texts.retire - occupancy s.texts.prod s.texts.retire) s.texts.prod s) := by
  unfold outboxProducer
  exact (if_neg (Nat.not_lt.2 holds)).trans (if_neg (Nat.not_lt.2 ahead))

/-- The occupancy grows by one with its producer, while it is below 256. -/
theorem occupancy_succ {p c : Byte} (h : occupancy p c < 16) : occupancy (p + 1) c = occupancy p c + 1 := by
  unfold occupancy at *
  bv_omega

/-- One text submitted by a notice. -/
theorem outboxProducer_one (few : occupancy s.texts.prod s.texts.retire < 16) (waits : s.mem.waits = []) (room : Room 1 s) :
    outboxProducer (s.texts.prod + 1) s = produced (s.texts.prod + 1) (descWritten (descOf s.texts.prod) queuedDesc s) := by
  have more := occupancy_succ few
  rw [outboxProducer_taken (by omega) (by omega), more, Nat.add_sub_cancel_left, submit_one]
  exact congrArg _ (setDesc_room waits room)

/-! ## The send that a submission begins (R156, R158) -/

/-- A descriptor written: the text controller's copy and the memory path change, and no read. -/
theorem descWritten_form (n : Fin 16) (d : Desc) (s : State) : ∃ m, descWritten n d s = { withDesc n d s with mem := m } ∧
    m.waits = s.mem.waits ∧ m.readWaits = s.mem.readWaits ∧ m.reads = s.mem.reads := by
  obtain ⟨m, form, waits, readWaits, reads, -⟩ := wrote_form
    (writeAt s .outbox (descLine n.val) (changedBytes (descFields n.val s.texts.descs[n]) (descFields n.val d))) (withDesc n d s)
  exact ⟨m, form, waits, readWaits, reads⟩

theorem headDesc_some (more : s.texts.retire ≠ s.texts.prod) : headDesc s = some (descOf s.texts.retire) := if_neg more

theorem headReady_head (more : s.texts.retire ≠ s.texts.prod) (queued : (s.texts.descs[descOf s.texts.retire]).state = .queued)
    (unsent : s.texts.send = none) (awake : s.sleep.level = .awake) (up : s.conn.shutdown = none)
    (still : s.texts.retryTimer.runs = false) (waits : s.mem.waits = []) : headReady s = true := by
  unfold headReady
  rw [headDesc_some more]
  dsimp only
  rw [queued, unsent, awake, up, still, jobWaits_none waits]
  simp

/-- In CONNECTED a ready head is sent. -/
theorem pumpText_connected (more : s.texts.retire ≠ s.texts.prod) (ready : headReady s = true) (jobs : jobsRun s = true)
    (connected : s.conn.state = .connected) : pumpText s = beginSend (descOf s.texts.retire) s := by
  unfold pumpText
  rw [ready, jobs, headDesc_some more, connected]
  exact if_pos rfl

/-- The send record as it begins, with the reference given. -/
def sendHeld (n : Fin 16) (ref : Byte) (s : State) : State :=
  let x : Send := { desc := n, ref := ref, address := 0, length := 0, dest := [], lines := [], body := [], count := 0, cur := 0
                    status := .reading, ackTimer := .stopped, cancel := false }
  { s with texts := { s.texts with send := some x, lastRef := ref } }

/-- The descriptor of a send as it begins. -/
abbrev sendingDesc (n : Fin 16) (s : State) : Desc := { s.texts.descs[n] with state := .sending, ref := s.texts.lastRef + 1 }

/-- A send begun: the descriptor SENDING, with its reference, and its line read. -/
def sendBegun (n : Fin 16) (s : State) : State := joinRead .descriptor (s.bind.line .outbox (descLine n.val))
  (descWritten n (sendingDesc n s) (sendHeld n (s.texts.lastRef + 1) s))

theorem beginSend_room (waits : s.mem.waits = []) (readWaits : s.mem.readWaits = []) (reads : s.mem.reads = [])
    (room : Room 1 s) : beginSend n s = sendBegun n s := by
  have written : setDesc n (fun d => { d with state := .sending, ref := s.texts.lastRef + 1 })
      (sendHeld n (s.texts.lastRef + 1) s) = descWritten n (sendingDesc n s) (sendHeld n (s.texts.lastRef + 1) s) :=
    setDesc_room (k := 0) (by exact waits) (by exact room)
  obtain ⟨m, form, waits', readWaits', reads'⟩ := descWritten_form n
    (sendingDesc n s) (sendHeld n (s.texts.lastRef + 1) s)
  have few : internalReadCount m < 4 := by simp [internalReadCount, reads'.trans reads]
  refine (congrArg (emitRead .texts .descriptor (s.bind.line .outbox (descLine n.val))) written).trans ?_
  unfold sendBegun
  rw [form]
  exact (emit_join _ _ _ _ (waits'.trans waits) (readWaits'.trans readWaits) (by exact few) rfl).1

/-- The end of a moment in CONNECTED with a ready head: its send begins. -/
theorem settle_headReady (still : Still s) (round : roundStill s = true) (ended : Ended s) (arrivals : s.texts.arrivals = [])
    (more : s.texts.retire ≠ s.texts.prod) (ready : headReady s = true) (jobs : jobsRun s = true)
    (connected : s.conn.state = .connected) (reads : s.mem.reads = []) (room : Room 1 s) :
    settle s = pumpIdle (sendBegun (descOf s.texts.retire) s) := by
  obtain ⟨pending, owed, queue, waits, readWaits, mark, level⟩ := ended
  have none : pumpArrivals [] s = s := rfl
  have begun : pumpText s = sendBegun (descOf s.texts.retire) s := by
    rw [pumpText_connected more ready jobs connected, beginSend_room waits readWaits reads room]
  obtain ⟨m, form, waits', readWaits', -⟩ := descWritten_form (descOf s.texts.retire)
    (sendingDesc (descOf s.texts.retire) s) (sendHeld (descOf s.texts.retire) (s.texts.lastRef + 1) s)
  have ended : Ended (sendBegun (descOf s.texts.retire) s) := by
    unfold sendBegun
    rw [form]
    exact ⟨pending, owed, queue, waits'.trans waits, readWaits'.trans readWaits, mark, level⟩
  have refused : (sendBegun (descOf s.texts.retire) s).link.refused = [] := by
    unfold sendBegun
    rw [form]
    exact still.1
  rw [settle_open still, pumpRound_still 6 round]
  dsimp only
  rw [arrivals, none, begun, refused_none refused, finish_idle ended]

theorem descWritten_get (n : Fin 16) (d : Desc) (s : State) : (descWritten n d s).texts.descs[n] = d := by
  rw [(descWritten_same n d s).mem]
  simp [withDesc]

/-- A text submitted in CONNECTED with the outbox empty is sent at once. -/
theorem settle_submitted (calm : Calm s) (empty : s.texts.retire = s.texts.prod) (unsent : s.texts.send = none)
    (still : s.texts.retryTimer.runs = false) (connected : s.conn.state = .connected) (up : s.conn.shutdown = none) :
    settle (produced (s.texts.prod + 1) (descWritten (descOf s.texts.retire) queuedDesc s)) = pumpIdle
      (sendBegun (descOf s.texts.retire) (produced (s.texts.prod + 1) (descWritten (descOf s.texts.retire) queuedDesc s))) := by
  have next : s.texts.retire ≠ s.texts.prod + 1 := by rw [empty]; exact byte_ne_succ _
  have got := descWritten_get (descOf s.texts.retire) queuedDesc s
  have room : Room 1 (descWritten (descOf s.texts.retire) queuedDesc s) := descWritten_room (calm.room' (by decide))
  obtain ⟨m, form, waits, readWaits, reads⟩ := descWritten_form (descOf s.texts.retire) queuedDesc s
  obtain ⟨pending, owed, queue, waits', readWaits', mark, level⟩ := calm.near.ended
  rw [form] at got room ⊢
  exact settle_headReady calm.near.still (by exact calm.near.round)
    ⟨pending, owed, queue, waits.trans waits', readWaits.trans readWaits', mark, level⟩ (by exact (steady_texts calm.steady).1)
    (by exact next)
    (headReady_head (by exact next) (by exact congrArg Desc.state got) (by exact unsent) (by exact calm.awake) (by exact up)
      (by exact still) (by exact waits.trans waits'))
    (by exact calm.jobs) (by exact connected) (by exact reads.trans calm.reads) (by exact room)

/-- What is sent then, in terms of the state before. -/
theorem sendBegun_submitted {p : Byte} : sendBegun n (produced p (descWritten n queuedDesc s)) =
    joinRead .descriptor (s.bind.line .outbox (descLine n.val))
      (descWritten n { state := .sending, attempts := 0, fail := none, ref := s.texts.lastRef + 1 }
        (sendHeld n (s.texts.lastRef + 1) (produced p (descWritten n queuedDesc s)))) := by
  have got := descWritten_get n queuedDesc s
  obtain ⟨m, form, -⟩ := descWritten_form n queuedDesc s
  rw [form] at got ⊢
  have sending : { (withDesc n queuedDesc s).texts.descs[n] with state := .sending, ref := s.texts.lastRef + 1 } =
      ({ state := .sending, attempts := 0, fail := none, ref := s.texts.lastRef + 1 } : Desc) := by
    rw [show (withDesc n queuedDesc s).texts.descs[n] = queuedDesc from got]
  exact congrArg (fun d => joinRead .descriptor (s.bind.line .outbox (descLine n.val)) (descWritten n d
    (sendHeld n (s.texts.lastRef + 1) (produced p { withDesc n queuedDesc s with mem := m })))) sending

/-! ## The cancel words (R157) -/

theorem exec_cancelWord (h : noticeOpen s = true) : exec (.cancelWordWrite n v) s = .next (settle (cancelWord n v s)) :=
  runIf_on _ _ h

theorem cancelWord_none : cancelWord n 0 s = s := if_pos rfl

theorem cancelWord_cancel : cancelWord n 1 s = cancelDesc n s := rfl

theorem cancelWord_unknown (unknown : 1 < v.toNat) :
    cancelWord n v s = ignoreConfig .outbox (BitVec.ofNat 16 n.val) 0x06 s := by
  have none : v ≠ 0 := by rintro rfl; exact absurd unknown (by decide)
  have cancel : v ≠ 1 := by rintro rfl; exact absurd unknown (by decide)
  exact (if_neg none).trans (if_neg cancel)

theorem cancelDesc_queued (queued : (s.texts.descs[n]).state = .queued) :
    cancelDesc n s = finishDesc n .cancelled none (s.texts.descs[n]).attempts s := by
  unfold cancelDesc
  rw [queued]

theorem cancelDesc_awaiting (sending : (s.texts.descs[n]).state = .sending) (send : s.texts.send = some x)
    (awaiting : x.status = .awaiting) :
    cancelDesc n s = { s with texts := { s.texts with send := some { x with cancel := true } } } := by
  unfold cancelDesc setSend
  rw [sending, send]
  simp [awaiting]

theorem cancelDesc_other (unqueued : (s.texts.descs[n]).state ≠ .queued) (unsent : (s.texts.descs[n]).state ≠ .sending) :
    cancelDesc n s = s := by
  unfold cancelDesc
  split
  · rename_i queued
    exact absurd queued unqueued
  · rename_i sending _
    exact absurd sending unsent
  · rfl

/-! ## While a text is being sent -/

theorem connIdle_sending (busy : s.texts.send.isSome = true) : connIdle s = false := by
  have some : s.texts.send.isNone = false := by rw [Option.isSome_iff_exists] at busy; obtain ⟨x, h⟩ := busy; rw [h]; rfl
  simp [connIdle, some]

/-- While a text is being sent, the other fields of the texts leave the part at rest. -/
theorem texts_resting {x : Texts} (rest : Resting s) (busy : s.texts.send.isSome = true) (still : x.send.isSome = true)
    (arrivals : x.arrivals = s.texts.arrivals) : Resting { s with texts := x } := by
  obtain ⟨steady, pending, owed, queue, waits, readWaits, mark, level, timer⟩ := rest
  refine ⟨?_, pending, owed, queue, waits, readWaits, mark, level, ?_⟩
  · simp only [Machine.steady, Bool.and_eq_true] at steady ⊢
    rw [arrivals, still]
    exact ⟨steady.1, rfl⟩
  · exact timer.trans ((connIdle_sending busy).trans (connIdle_sending (by exact still)).symm)

theorem textDone_resting {d : Desc} (rest : Resting s) (busy : s.texts.send.isSome = true) : Resting (textDone n d s) := by
  obtain ⟨m, t, form, waits', readWaits', send, -, arrivals, -⟩ := textDone_form n d s
  obtain ⟨steady, pending, owed, queue, waits, readWaits, mark, level, timer⟩ := rest
  rw [form]
  exact texts_resting (s := { s with mem := m, events := { s.events with producer := s.events.producer + 1 } })
    ⟨steady, pending, owed, queue, waits'.trans waits, readWaits'.trans readWaits, mark, level, timer⟩ busy
    (by rw [send]; exact busy) arrivals

theorem submitted_resting {d : Desc} (rest : Resting s) (busy : s.texts.send.isSome = true) :
    Resting (produced v (descWritten n d s)) := by
  obtain ⟨m, form, waits', readWaits', -⟩ := descWritten_form n d s
  obtain ⟨steady, pending, owed, queue, waits, readWaits, mark, level, timer⟩ := rest
  rw [form]
  exact texts_resting (s := { s with mem := m })
    ⟨steady, pending, owed, queue, waits'.trans waits, readWaits'.trans readWaits, mark, level, timer⟩ busy busy rfl

end Sys2Proof.Machine

namespace Sys2Proof
open Machine

/-- Settles O52: the producer's notice by how far it goes, and the cancel by the descriptor's state. -/
theorem outboxNotices : Obligations.OutboxNotices := by
  unfold Obligations.OutboxNotices
  refine ⟨fun s v open_ holds ahead => ?several, fun s calm => ⟨fun v high => ?_, fun v holds back => ?_,
    fun busy few => ?behind, fun unsent still connected up => ?first, fun n => ⟨?_, fun v unknown => ?_,
      fun queued busy => ?_, fun x send sending awaiting => ?_, fun unqueued unsent => ?_⟩⟩⟩
  case several =>
    rw [exec_outboxProducer open_, outboxProducer_taken holds ahead, submit_eq_foldl]
    rfl
  · rw [exec_outboxProducer calm.notice, outboxProducer_overrun high, raiseNow_placed calm.rest calm.events rfl,
      settle_resting (eventPlaced_resting calm.rest)]
  · rw [exec_outboxProducer calm.notice, outboxProducer_back holds back, ignore_placed calm.rest calm.events]
  case behind =>
    rw [exec_outboxProducer calm.notice, outboxProducer_one few calm.waits (calm.room' (by decide)),
      settle_resting (submitted_resting calm.rest busy)]
    dsimp only
    generalize descWritten (descOf s.texts.prod) queuedDesc s = t
    rfl
  case first =>
    have empty : s.texts.retire = s.texts.prod := by
      have none := (steady_texts calm.steady).2
      simpa [unsent] using none
    have head : descOf s.texts.prod = descOf s.texts.retire := by rw [empty]
    rw [exec_outboxProducer calm.notice,
      outboxProducer_one (by rw [empty]; simp [occupancy]) calm.waits (calm.room' (by decide)), head,
      settle_submitted calm empty unsent still connected up, sendBegun_submitted]
    dsimp only
    generalize descWritten (descOf s.texts.retire) queuedDesc s = t
    rfl
  · rw [exec_cancelWord calm.notice, cancelWord_none, settle_resting calm.rest]
  · rw [exec_cancelWord calm.notice, cancelWord_unknown unknown, ignore_placed calm.rest calm.events]
  · rw [exec_cancelWord calm.notice, cancelWord_cancel, cancelDesc_queued queued,
      finish_done calm.near.quiet calm.events (calm.room' (by decide)), settle_resting (textDone_resting calm.rest busy)]
  · rw [exec_cancelWord calm.notice, cancelWord_cancel, cancelDesc_awaiting sending send awaiting]
    exact congrArg Host.Outcome.next (settle_resting (texts_resting calm.rest (by rw [send]; rfl) (by exact rfl) (by exact rfl)))
  · rw [exec_cancelWord calm.notice, cancelWord_cancel, cancelDesc_other unqueued unsent, settle_resting calm.rest]

end Sys2Proof
end

section
/-! SUPPORT. Reassembly: a segment stored, a text completed and delivered, a context opened (R166 to R168). -/

namespace Sys2Proof.Machine

variable {b s t : State} {g : Segment} {c : Ctx}

/-! ## The texts change beside a write -/

theorem wrote_texts (w : WriteReq) (s : State) (x : Texts) :
    wrote w { s with texts := x } = { wrote w s with texts := x } := by
  unfold wrote
  split <;> rfl

theorem wroteAll_texts (ws : List WriteReq) (s : State) (x : Texts) : ws.foldl (fun u w => wrote w u) { s with texts := x } =
    { ws.foldl (fun u w => wrote w u) s with texts := x } := by
  induction ws generalizing s with
  | nil => rfl
  | cons w ws ih => rw [List.foldl_cons, List.foldl_cons, wrote_texts, ih]

theorem Same.texts (same : Same s t) (x : Texts) : Same { s with texts := x } { t with texts := x } :=
  ⟨by rw [same.mem], same.waits, same.readWaits, same.reads, same.pubs, same.state⟩

theorem Room.texts {n : Nat} (room : Room n s) (x : Texts) : Room n { s with texts := x } := room

/-- A message handed beside writes and a change of the texts that leaves nothing due. -/
theorem settle_written {x : Texts} {m : AirMsg} (same : Same s t) (near : Near { s with texts := x }) (clear : LinkClear s) :
    settle (emitMsg m { t with texts := x }) = pumpIdle (sent m { t with texts := x }) :=
  settle_msg (near.same (same.texts x)) (LinkClear.same (by exact clear) (same.texts x))

/-! ## A segment stored (R167) -/

/-- A context with one segment more. -/
def Ctx.with (g : Segment) (c : Ctx) : Ctx :=
  { c with got := c.got ++ [g.index.toNat], length := c.length + g.payload.length }

theorem Ctx.with_ring (g : Segment) (c : Ctx) : (c.with g).ring = c.ring := rfl

theorem Ctx.with_key (g : Segment) (c : Ctx) : ((c.with g).sender, (c.with g).ref) = (c.sender, c.ref) := rfl

/-- The payload and the header's changed fields written; the regions lie where those of `b` do. -/
def segmentStored (b : State) (g : Segment) (c : Ctx) (s : State) : State :=
  wrote (writeAt b .inbox (inboxSlotLine c.ring) (changedBytes (ctxFields c 1) (ctxFields (c.with g) 1)))
    ((payloadWrites b c.ring g.index.toNat g.payload).foldl (fun u w => wrote w u) s)

/-- The contexts once the segment is theirs. -/
def Texts.take (g : Segment) (c : Ctx) (x : Texts) : Texts :=
  { x with ctxs := x.ctxs.map (fun x => if x.ring == c.ring then c.with g else x) }

theorem segmentStored_texts (b : State) (g : Segment) (c : Ctx) (s : State) (x : Texts) :
    segmentStored b g c { s with texts := x } = { segmentStored b g c s with texts := x } := by
  unfold segmentStored
  rw [wroteAll_texts, wrote_texts]

theorem segmentStored_get_texts (b : State) (g : Segment) (c : Ctx) (s : State) : (segmentStored b g c s).texts = s.texts := by
  have kept := congrArg State.texts (segmentStored_texts b g c s s.texts)
  exact kept

/-- The segment stored, and its context with it. -/
def segmentTaken (b : State) (g : Segment) (c : Ctx) (s : State) : State :=
  let u := segmentStored b g c s
  { u with texts := { u.texts with ctxs := s.texts.ctxs.map (fun x => if x.ring == c.ring then c.with g else x) } }

theorem segmentTaken_eq (b : State) (g : Segment) (c : Ctx) (s : State) :
    segmentTaken b g c s = { segmentStored b g c s with texts := s.texts.take g c } := by
  unfold segmentTaken
  dsimp only
  rw [segmentStored_get_texts]
  rfl

/-- A segment of an open context, stored with room. -/
theorem takeSegment_stored (bind : s.bind = b.bind) (waits : s.mem.waits = []) (room : Room 8 s)
    (valid : airValid (.textSegment g.ref g.sender g.index g.count g.payload) = true) (count : g.count.toNat = c.count)
    (new : g.index.toNat ∉ c.got) :
    let t := { segmentStored b g c s with texts := s.texts.take g c }
    takeSegment c g s = (if c.got.length + 1 = c.count then finishCtx (c.with g) (ackMsg g.ref g.index .ok t)
      else ackMsg g.ref g.index .ok t) ∧ Same s (segmentStored b g c s) ∧ Room 4 (segmentStored b g c s) := by
  obtain ⟨taken, same, left⟩ := take_form c g s waits room valid count new
  have place : segmentStored b g c s = segmentStored s g c s := by
    unfold segmentStored
    rw [payload_bind b s _ _ _ bind.symm, writeAt_bind b s _ _ _ bind.symm]
  have same' : Same s (segmentStored s g c s) := same
  have texts : (segmentStored s g c s).texts = s.texts := by rw [same'.mem]
  rw [place]
  refine ⟨taken.trans ?_, same, left⟩
  rw [← texts, List.length_append]
  rfl

/-- A segment that is not the last one missing. -/
theorem settle_taken (bind : s.bind = b.bind) (near : Near s) (clear : LinkClear s) (room : Room 8 s)
    (valid : airValid (.textSegment g.ref g.sender g.index g.count g.payload) = true) (count : g.count.toNat = c.count)
    (new : g.index.toNat ∉ c.got) (more : c.got.length + 1 ≠ c.count) : settle (takeSegment c g s) =
      pumpIdle (sent (.segmentAck g.ref g.index .ok) { segmentStored b g c s with texts := s.texts.take g c }) := by
  obtain ⟨taken, same, -⟩ := takeSegment_stored bind near.quiet.2.2 room valid count new
  rw [taken, if_neg more]
  exact settle_written same (by exact near) clear

/-! ## A context closed (R168, R169) -/

/-- What the end of a context leaves of the texts: its reservation finished, its key among the recent ones. -/
def Texts.close (c : Ctx) (f : Finish) (x : Texts) : Texts := { x with
  ctxs := x.ctxs.filter (fun x => x.ring != c.ring)
  resv := x.resv.map (fun x => if x.ring = c.ring then { x with finish := f } else x)
  recent := (x.recent ++ [(c.sender, c.ref)]).drop (x.recent.length + 1 - 4) }

theorem closeCtx_eq (c : Ctx) (f : Finish) (s : State) : closeCtx c f s = { s with texts := s.texts.close c f } := by
  unfold closeCtx Texts.close
  simp only [beq_iff_eq, List.length_append, List.length_singleton]

/-- Contexts replaced at a ring index that is filtered out. -/
theorem filter_replaced {l : List Ctx} {d : Ctx} {ring : Byte} (same : d.ring = ring) :
    (l.map (fun x => if x.ring == ring then d else x)).filter (fun x => x.ring != ring) =
      l.filter (fun x => x.ring != ring) := by
  induction l with
  | nil => rfl
  | cons x xs ih =>
    rw [List.map_cons, List.filter_cons, List.filter_cons, ih]
    by_cases h : x.ring = ring <;> simp [h, same]

theorem close_take (g : Segment) (c : Ctx) (f : Finish) (x : Texts) :
    Texts.close (c.with g) f (x.take g c) = x.close c f := by
  simp only [Texts.close, Texts.take, Ctx.with_ring, Ctx.with_key, filter_replaced (Ctx.with_ring g c)]
  rfl

/-! ## A text completed behind an earlier reservation (R168) -/

/-- The write of the header that makes a text COMPLETE. -/
def completeReq (b : State) (c : Ctx) : WriteReq :=
  writeAt b .inbox (inboxSlotLine c.ring) (changedBytes (ctxFields c 1) (ctxFields c 2))

theorem completeReq_with : completeReq b (c.with g) = writeAt b .inbox (inboxSlotLine c.ring)
    (changedBytes (ctxFields (c.with g) 1) (ctxFields (c.with g) 2)) := rfl

/-- No delivery before the head of the list has ended. -/
theorem deliverAll_open {e : Resv} {rest : List Resv} (resv : s.texts.resv = e :: rest) (open_ : e.finish = .open_) :
    deliverAll s = s := by
  unfold deliverAll
  rw [resv, deliver, open_]
  rfl

/-- The acknowledgement, handed first, is a message handed last. -/
theorem finishCtx_behind {e : Resv} {rest : List Resv} {ref index : Byte} {x : Texts} (bind : s.bind = b.bind)
    (waits : s.mem.waits = []) (room : Room 1 s) (resv : (x.close c .complete).resv = e :: rest) (open_ : e.finish = .open_) :
    finishCtx c (ackMsg ref index .ok { s with texts := x }) =
      ackMsg ref index .ok { wrote (completeReq b c) s with texts := x.close c .complete } := by
  obtain ⟨m, form, kept, -⟩ := wrote_form (completeReq b c) s
  have header : ∀ l, writeSlotHeader c (changedBytes (ctxFields c 1) (ctxFields c 2)) { s with texts := x, link := l } =
      { s with texts := x, link := l, mem := m } := fun l => by
    refine (emit_wrote (n := 0) (by exact waits) (by exact room)).trans ?_
    rw [writeAt_bind _ b _ _ _ (by exact bind)]
    refine (wrote_link _ { s with texts := x } l).trans ?_
    rw [wrote_texts, show wrote (writeAt b .inbox (inboxSlotLine c.ring) (changedBytes (ctxFields c 1) (ctxFields c 2))) s = _
      from form]
  unfold ackMsg finishCtx
  rw [form, emit_eq (by exact waits), emit_eq (by exact kept.trans waits), header, closeCtx_eq]
  exact deliverAll_open (by exact resv) open_

/-- The last segment of a text, its reservation behind one that is OPEN: the text waits. -/
theorem settle_completedBehind {e : Resv} {rest : List Resv} (bind : s.bind = b.bind) (near : Near s) (clear : LinkClear s)
    (room : Room 8 s) (valid : airValid (.textSegment g.ref g.sender g.index g.count g.payload) = true)
    (count : g.count.toNat = c.count) (new : g.index.toNat ∉ c.got) (last : c.got.length + 1 = c.count)
    (resv : s.texts.resv = e :: rest) (open_ : e.finish = .open_) (other : e.ring ≠ c.ring) :
    settle (takeSegment c g s) = pumpIdle (sent (.segmentAck g.ref g.index .ok)
      { wrote (completeReq b (c.with g)) (segmentStored b g c s) with texts := s.texts.close c .complete }) := by
  obtain ⟨taken, same, left⟩ := takeSegment_stored bind near.quiet.2.2 room valid count new
  have place : (segmentStored b g c s).bind = b.bind := by rw [same.mem]; exact bind
  have head : ((s.texts.take g c).close (c.with g) .complete).resv =
      e :: rest.map (fun x => if x.ring = c.ring then { x with finish := .complete } else x) := by
    rw [close_take]
    simp [Texts.close, resv, other]
  rw [taken, if_pos last, finishCtx_behind place (same.waits.trans near.quiet.2.2) (left.mono (by decide)) head open_, close_take]
  exact settle_written (same.trans (wrote_same _ _)) (by exact near) clear

/-! ## A text completed and delivered (R168) -/

/-- The one reservation delivered: the producer written, TEXT-ARRIVED. The texts `x` are those before. -/
def textDelivered (b : State) (c : Ctx) (x : Texts) (s : State) : State :=
  eventPlaced (event b .textArrived .primary Kind.inbox.code (BitVec.ofNat 16 (c.ring.toNat % 8)) 2 0 0)
    (joinWrite (writeAt b .inbox 0 [(0, x.inProd + 1)]) { s with
      sleep := { b.sleep with quiet := 0 }
      texts := { x with
        ctxs := [], resv := [], inProd := x.inProd + 1
        recent := (x.recent ++ [(c.sender, c.ref)]).drop (x.recent.length + 1 - 4) } })

theorem textDelivered_empty {x : Texts} (ctxs : x.ctxs = []) (resv : x.resv = []) : textDelivered b c x s =
    eventPlaced (event b .textArrived .primary Kind.inbox.code (BitVec.ofNat 16 (c.ring.toNat % 8)) 2 0 0)
      (joinWrite (writeAt b .inbox 0 [(0, x.inProd + 1)]) { s with
        sleep := { b.sleep with quiet := 0 }
        texts := { x with
          inProd := x.inProd + 1, recent := (x.recent ++ [(c.sender, c.ref)]).drop (x.recent.length + 1 - 4) } }) := by
  unfold textDelivered
  rw [← ctxs, ← resv]

/-- The last segment of a text alone in the inbox: the text is delivered. -/
theorem settle_completedAlone {x : Texts} (bind : s.bind = b.bind) (frame : s.frame = b.frame) (sleep : s.sleep = b.sleep)
    (near : Near s) (clear : LinkClear s) (events : EventClear s) (room : Room 8 s) (awake : b.sleep.level = .awake)
    (cycle : b.sleep.cycle = b.sleep.base)
    (valid : airValid (.textSegment g.ref g.sender g.index g.count g.payload) = true) (count : g.count.toNat = c.count)
    (new : g.index.toNat ∉ c.got) (last : c.got.length + 1 = c.count)
    (texts : s.texts = { x with ctxs := [c], resv := [{ ring := c.ring, finish := .open_ }] }) :
    settle (takeSegment c g s) = pumpIdle (sent (.segmentAck g.ref g.index .ok)
      (textDelivered b c x (wrote (completeReq b (c.with g)) (segmentStored b g c s)))) := by
  obtain ⟨taken, same, left⟩ := takeSegment_stored bind near.quiet.2.2 room valid count new
  have same' := same.texts (s.texts.take g c)
  have place : (segmentStored b g c s).bind = b.bind := by rw [same.mem]; exact bind
  have frame' : (segmentStored b g c s).frame = b.frame := by rw [same.mem]; exact frame
  have sleep' : (segmentStored b g c s).sleep = b.sleep := by rw [same.mem]; exact sleep
  rw [taken, if_pos last]
  refine (complete_form (Near.same (by exact near) same') (LinkClear.same (by exact clear) same')
    (EventClear.same (by exact events) same' ((left.mono (by decide)).texts _)) (left.texts _)
    (by rw [sleep']; exact awake) (by rw [sleep']; exact cycle) (by rw [texts]; simp [Texts.take]) (by rw [texts]; rfl)).trans ?_
  generalize segmentStored b g c s = u at place frame' sleep'
  have placed : ∀ k i l, writeAt { u with texts := s.texts.take g c } k i l = writeAt b k i l :=
    fun k i l => writeAt_bind _ b k i l (by exact place)
  have told : event { u with texts := s.texts.take g c } .textArrived .primary Kind.inbox.code
      (BitVec.ofNat 16 ((c.with g).ring.toNat % 8)) 2 0 0 = event b .textArrived .primary Kind.inbox.code
      (BitVec.ofNat 16 (c.ring.toNat % 8)) 2 0 0 := by
    unfold event
    rw [frame']
    rfl
  rw [told, placed, placed, wrote_texts]
  unfold textDelivered
  rw [show writeAt b .inbox (inboxSlotLine (c.with g).ring) (changedBytes (ctxFields (c.with g) 1) (ctxFields (c.with g) 2)) =
    completeReq b (c.with g) from rfl]
  generalize wrote (completeReq b (c.with g)) u = w
  rw [sleep', texts]
  rfl

/-! ## A context opened (R166) -/

/-- The context of a new text, at the next ring index. -/
def Ctx.first (g : Segment) (s : State) : Ctx :=
  { sender := g.sender, ref := g.ref, count := g.count.toNat, got := [], length := 0
    ring := s.texts.inProd + BitVec.ofNat 8 s.texts.resv.length, start := s.frame, timer := .running 3000 }

/-- The texts with a context opened, and its reservation. -/
def Texts.opened (c : Ctx) (x : Texts) : Texts :=
  { x with ctxs := x.ctxs ++ [c], resv := x.resv ++ [{ ring := c.ring, finish := .open_ }] }

/-- Its header written. -/
def headerWritten (b : State) (c : Ctx) (s : State) : State :=
  wrote (writeAt b .inbox (inboxSlotLine c.ring) (fieldBytes (ctxFields c 1))) s

theorem headerWritten_texts (b : State) (c : Ctx) (s : State) (x : Texts) :
    headerWritten b c { s with texts := x } = { headerWritten b c s with texts := x } := wrote_texts _ s x

/-- The part with the context of a new text open. -/
def ctxOpened (g : Segment) (s : State) : State :=
  { headerWritten s (Ctx.first g s) (activity s) with texts := s.texts.opened (Ctx.first g s) }

theorem Ctx.first_one (one : g.count.toNat = 1) : Ctx.first g s = { Ctx.first g s with count := 1 } := by
  unfold Ctx.first
  rw [one]

theorem headerWritten_opened (g : Segment) (s : State) : headerWritten s (Ctx.first g s)
    { activity s with texts := s.texts.opened (Ctx.first g s) } = ctxOpened g s := headerWritten_texts _ _ _ _

/-- With a free slot and less than 4 contexts open, a segment of a new text opens one and is taken. -/
theorem openSegment_opens (calm : Calm s) (few : s.texts.ctxs.length < 4) (free : freeSlots s.texts ≠ 0) :
    openSegment g (activity s) = takeSegment (Ctx.first g s) g (ctxOpened g s) := by
  obtain ⟨i, form⟩ := activity_form s
  have header := emit_wrote (j := .texts) (w := writeAt s .inbox (inboxSlotLine (Ctx.first g s).ring)
    (fieldBytes (ctxFields (Ctx.first g s) 1))) (n := 0)
    (s := { activity s with texts := s.texts.opened (Ctx.first g s) })
    (by rw [form]; exact calm.waits) (by rw [form]; exact calm.room' (n := 1) (by decide))
  unfold ctxOpened
  rw [← headerWritten_texts]
  rw [form] at header ⊢
  unfold openSegment
  rw [if_neg (by exact Nat.not_le.2 few), if_neg (by exact free)]
  exact congrArg (takeSegment (Ctx.first g s) g) header

/-- That part is ready to take the segment. -/
theorem ctxOpened_same (g : Segment) (s : State) :
    Same { activity s with texts := s.texts.opened (Ctx.first g s) } (ctxOpened g s) := (wrote_same _ _).texts _

theorem ctxOpened_near (calm : Calm s) : Near (ctxOpened g s) := by
  have same := ctxOpened_same g s
  have near := (activity_calm calm).near
  obtain ⟨i, form⟩ := activity_form s
  rw [form] at same near
  exact Near.same (by exact near) same

theorem ctxOpened_clear (calm : Calm s) : LinkClear (ctxOpened g s) :=
  LinkClear.same (by exact (activity_calm calm).link) (ctxOpened_same g s)

theorem ctxOpened_room (calm : Calm s) : Room 8 (ctxOpened g s) :=
  (wrote_room ((activity_calm calm).room' (n := 9) (by decide))).texts _

theorem ctxOpened_events (calm : Calm s) : EventClear (ctxOpened g s) :=
  EventClear.same (by exact (activity_calm calm).events) (ctxOpened_same g s) ((ctxOpened_room calm).mono (by decide))

theorem ctxOpened_kept (g : Segment) (s : State) :
    (ctxOpened g s).bind = s.bind ∧ (ctxOpened g s).frame = s.frame ∧ (ctxOpened g s).sleep = s.sleep := by
  have same := ctxOpened_same g s
  obtain ⟨i, form⟩ := activity_form s
  rw [form] at same
  rw [same.mem]
  exact ⟨rfl, rfl, rfl⟩

/-! ## The moment of a segment (R165 to R168) -/

/-- A context is open: the connection is not idle, and the segment is no activity on an idle one. -/
theorem connIdle_context (open_ : c ∈ s.texts.ctxs) : connIdle s = false := by
  have some : s.texts.ctxs.isEmpty = false := by
    rw [List.isEmpty_eq_false_iff]
    exact List.ne_nil_of_mem open_
  simp [connIdle, some]

theorem exec_segment_known (calm : Calm s) (connected : s.conn.state = .connected) (up : s.conn.shutdown = none)
    (valid : airValid (.textSegment g.ref g.sender g.index g.count g.payload) = true)
    (whole : g.index.toNat + 1 = g.count.toNat ∨ g.payload.length = 160) (new : (g.sender, g.ref) ∉ s.texts.recent)
    (known : s.texts.ctxs.find? (fun c => c.sender == g.sender && c.ref == g.ref) = some c) :
    exec (.textSegment g.ref g.sender g.index g.count g.payload) s = .next (settle (takeSegment c g s)) := by
  rw [exec_segment_up calm connected up valid, activity_off (connIdle_context (List.mem_of_find?_eq_some known)),
    checkSegment_known whole new known]

theorem exec_segment_first (calm : Calm s) (connected : s.conn.state = .connected) (up : s.conn.shutdown = none)
    (valid : airValid (.textSegment g.ref g.sender g.index g.count g.payload) = true)
    (whole : g.index.toNat + 1 = g.count.toNat ∨ g.payload.length = 160) (new : (g.sender, g.ref) ∉ s.texts.recent)
    (unknown : s.texts.ctxs.find? (fun c => c.sender == g.sender && c.ref == g.ref) = none)
    (few : s.texts.ctxs.length < 4) (free : freeSlots s.texts ≠ 0) :
    exec (.textSegment g.ref g.sender g.index g.count g.payload) s =
      .next (settle (takeSegment (Ctx.first g s) g (ctxOpened g s))) := by
  have texts := activity_texts s
  rw [exec_segment_up calm connected up valid, checkSegment_first whole (by rwa [texts]) (by rwa [texts]),
    openSegment_opens calm few free]

/-- A segment of a context that stays open. -/
theorem settle_more (calm : Calm s) (valid : airValid (.textSegment g.ref g.sender g.index g.count g.payload) = true)
    (count : g.count.toNat = c.count) (new : g.index.toNat ∉ c.got) (more : c.got.length + 1 ≠ c.count) :
    settle (takeSegment c g s) = sent (.segmentAck g.ref g.index .ok) { segmentStored s g c s with texts := s.texts.take g c } := by
  obtain ⟨-, same, -⟩ := takeSegment_stored (b := s) rfl calm.waits (calm.room' (by decide)) valid count new
  rw [settle_taken (b := s) rfl calm.near calm.link (calm.room' (by decide)) valid count new more, same.mem]
  exact idle_of calm.rest (by simp [connIdle, sent, Texts.take, callsFree]) rfl

theorem opened_empty {x : Texts} (ctxs : x.ctxs = []) (resv : x.resv = []) :
    x.opened c = { x with ctxs := [c], resv := [{ ring := c.ring, finish := .open_ }] } := by
  unfold Texts.opened
  rw [ctxs, resv]
  rfl

/-- A context at a ring index of its own, opened and closed. -/
theorem opened_close {x : Texts} (ctxs : ∀ d ∈ x.ctxs, d.ring ≠ c.ring) (resv : ∀ e ∈ x.resv, e.ring ≠ c.ring) :
    (x.opened c).close c .complete = { x with
      resv := x.resv ++ [{ ring := c.ring, finish := .complete }]
      recent := (x.recent ++ [(c.sender, c.ref)]).drop (x.recent.length + 1 - 4) } := by
  have kept : (x.ctxs ++ [c]).filter (fun d => d.ring != c.ring) = x.ctxs := by
    rw [List.filter_append, List.filter_eq_self.2 (by simpa using ctxs)]
    simp
  have finished : (x.resv ++ [({ ring := c.ring, finish := .open_ } : Resv)]).map
      (fun e => if e.ring = c.ring then { e with finish := .complete } else e) =
      x.resv ++ [{ ring := c.ring, finish := .complete }] := by
    have still : x.resv.map (fun e => if e.ring = c.ring then { e with finish := .complete } else e) = x.resv :=
      (List.map_congr_left fun e h => if_neg (resv e h)).trans (List.map_id _)
    rw [List.map_append, still]
    simp
  unfold Texts.opened Texts.close
  rw [kept, finished]

/-! ## Contexts that end, and the delivery (R168, R169) -/

theorem deliver_ended {e : Resv} {rest : List Resv} (ended : e.finish ≠ .open_) : deliver (e :: rest) s = deliver rest (
    let t := emitWrite .texts (writeAt s .inbox 0 [(0, s.texts.inProd + 1)])
      { s with texts := { s.texts with inProd := s.texts.inProd + 1, resv := rest } }
    raisePrimary .texts (event t .textArrived .primary Kind.inbox.code (BitVec.ofNat 16 (e.ring.toNat % 8))
      (if e.finish = .complete then 2 else 3) 0 0) .textArrived t) := by
  have status : resvStatus e.finish = if e.finish = .complete then 2 else 3 := by
    cases h : e.finish with
    | open_ => exact absurd h ended
    | complete => rfl
    | abandoned => rfl
  rw [deliver, if_neg (by simpa using ended), status]

theorem exec_contextTimer {ring : Byte} (jobs : jobsRun s = true)
    (due : s.texts.ctxs.find? (fun x => x.ring == ring && x.timer == .due) = some c) :
    exec (.contextTimerExpiry ring) s = .next (settle (abandonCtx c s)) := by
  show execContextTimerExpiry ring s = _
  unfold execContextTimerExpiry dueContext
  rw [due]
  exact runIf_on _ _ jobs

/-- The one open context abandoned at its timer, and delivered. -/
theorem settle_ctxAbandoned (calm : Calm s) (ctxs : s.texts.ctxs = [c])
    (resv : s.texts.resv = [{ ring := c.ring, finish := .open_ }])
    (space : occupancy (s.events.producer + 1) s.events.consumer < s.bind.capacity) :
    settle (abandonCtx c s) = pumpIdle (ctxAbandoned c s) := by
  obtain ⟨m, form, waits, readWaits, -⟩ := ctxAbandoned_form c s
  obtain ⟨steady, pending, owed, queue, waits', readWaits', mark, level⟩ := calm.near
  rw [abandonCtx_one calm.near calm.events (calm.room' (by decide)) calm.awake calm.cycle ctxs resv space, form]
  exact settle_near ⟨steady, pending, owed, queue, waits.trans waits', readWaits.trans readWaits', mark, level⟩

end Sys2Proof.Machine

namespace Sys2Proof
open Machine

/-- Settles O56: the segment by whether its context is open already and whether it is the last one missing; then the ends of a context,
the delivery, and the timer of a context alone in the inbox. -/
theorem reassembly : Obligations.Reassembly := by
  unfold Obligations.Reassembly
  refine ⟨fun s g calm connected up valid whole new => ?segment, fun s ring c jobs due => ?timer, fun s c => ?close,
    fun s => ⟨rfl, rfl⟩, fun s e rest => ?deliver, fun s c calm ctxs resv due space => ?abandoned⟩
  case segment =>
    intro run known got stored taken
    have stored_eq : stored = segmentStored s g := rfl
    have got_eq : got = Ctx.with g := rfl
    clear_value stored got
    subst stored_eq got_eq
    have first := exec_segment_first calm connected up valid whole new
    have further := fun {c} => exec_segment_known (c := c) calm connected up valid whole new
    obtain ⟨bind, frame, sleep⟩ := ctxOpened_kept g s
    have near := ctxOpened_near (g := g) calm
    have clear := ctxOpened_clear (g := g) calm
    have room := ctxOpened_room (g := g) calm
    refine ⟨fun unknown few free more => ?opens, fun c open_ count fresh more => ?stores, fun unknown few free one => ?whole,
      fun c e rest open_ resv waits other count fresh last => ?completes, fun c open_ ctxs resv count fresh last => ?delivers⟩
    case opens =>
      rw [show run = _ from first unknown few free,
        settle_taken bind near clear room valid rfl List.not_mem_nil (by show 0 + 1 ≠ g.count.toNat; omega),
        ← segmentTaken_eq, ← headerWritten_opened]
      rfl
    case stores =>
      rw [show run = _ from further open_, settle_more calm valid count fresh (Nat.ne_of_lt more),
        ← segmentTaken_eq]
      rfl
    case whole =>
      intro ring c recent complete
      have last : (Ctx.first g s).got.length + 1 = (Ctx.first g s).count := one.symm
      have ctx : Ctx.first g s = c := Ctx.first_one one
      have written : wrote (completeReq s (c.with g)) (segmentStored s g c (headerWritten s c (activity s))) = complete := rfl
      clear_value complete
      refine ⟨fun ctxs resv => ?alone, fun e rest resv open_ others apart => ?behind⟩
      case alone =>
        rw [show run = _ from first unknown few free,
          settle_completedAlone (x := s.texts) bind frame sleep near clear (ctxOpened_events calm) room calm.awake calm.cycle valid
            rfl List.not_mem_nil last (opened_empty ctxs resv), textDelivered_empty ctxs resv]
        unfold ctxOpened
        rw [segmentStored_texts, wrote_texts, ctx, written]
      case behind =>
        have head : (ctxOpened g s).texts.resv = e :: (rest ++ [{ ring := (Ctx.first g s).ring, finish := .open_ }]) := by
          show s.texts.resv ++ _ = _
          rw [resv]
          rfl
        have texts : (ctxOpened g s).texts.close (Ctx.first g s) .complete = _ := opened_close apart others
        rw [show run = _ from first unknown few free,
          settle_completedBehind bind near clear room valid rfl List.not_mem_nil last head open_
            (others e (by rw [resv]; exact List.mem_cons_self)), texts]
        unfold ctxOpened
        rw [segmentStored_texts, wrote_texts, ctx, written]
    case completes =>
      rw [show run = _ from further open_, settle_completedBehind (b := s) rfl calm.near calm.link (calm.room' (by decide)) valid
        count fresh last resv waits other, completeReq_with]
      generalize wrote _ (segmentStored s g c s) = u
      rfl
    case delivers =>
      rw [show run = _ from further open_, settle_completedAlone (b := s) (x := s.texts) rfl rfl rfl calm.near calm.link calm.events
        (calm.room' (by decide)) calm.awake calm.cycle valid count fresh last (by rw [← ctxs, ← resv]), completeReq_with]
      generalize wrote _ (segmentStored s g c s) = u
      rfl
  case timer => exact exec_contextTimer jobs due
  case close =>
    intro close header
    unfold finishCtx abandonCtx
    rw [closeCtx_eq, closeCtx_eq]
    constructor
    · rfl
    · rfl
  case deliver => exact ⟨fun open_ => by rw [deliver, open_]; rfl, deliver_ended⟩
  case abandoned =>
    rw [exec_contextTimer (c := c) calm.jobs (by simp [ctxs, due]), settle_ctxAbandoned calm ctxs resv space]
    rfl

end Sys2Proof
end

section
/-! SUPPORT. The acknowledge of a wake line and the long press (R66, R173, R189, R190). -/

namespace Sys2Proof.Machine

variable {s : State} {l : Fin 4} {v : Byte}

/-! ## The flag of a line (R66, R189) -/

/-- The plan's second line unchanged: what changed of the first is written. -/
theorem notePlan_wroteFlags {j : Job} {old t : State} (jobs : jobsRun t = true) (mem : memoryAvailable t = true)
    (same : planFields1 old = planFields1 t) (waits : t.mem.waits = []) (room : Room 1 t) :
    notePlan j old t = wrote (writeAt t .plan 0 (changedBytes (planFields0 old) (planFields0 t))) t := by
  have unchanged (u : State) : planLineWrite j 1 (.plan true) [] u = u := if_pos rfl
  unfold notePlan
  rw [if_pos jobs, same, changed_same, unchanged]
  unfold planLineWrite
  split
  · next empty => exact (if_pos empty).symm
  · exact emit_wrote waits room

/-- A line with its flag cleared. -/
def unflagged (l : Fin 4) (s : State) : State := withLine l { s.sleep.lines[l] with flag := false } s

theorem unflagged_eq : { s with sleep := setLine l (fun x => { x with flag := false }) s.sleep } = unflagged l s := setLine_eq _

theorem unflagged_resting (rest : Resting s) : Resting (unflagged l s) := resting_lines _ rest

/-- A line's flag cleared shows in the flag's byte alone, and not at all where it was clear. -/
theorem notePlan_unflagged (calm : Calm s) : notePlan .sleep s (unflagged l s) =
    if (s.sleep.lines[l]).flag then joinWrite (writeAt s .plan 0 [(0x20 + l.val, 0)]) (unflagged l s) else unflagged l s := by
  have note := notePlan_wroteFlags (j := .sleep) (old := s) (t := unflagged l s) calm.jobs calm.mem rfl calm.waits
    (calm.room' (n := 1) (by decide))
  have bytes := planFields0_flag s l
  rw [unflagged_eq] at bytes
  rw [note, bytes]
  cases (s.sleep.lines[l]).flag with
  | true => rfl
  | false => rfl

/-! ## LINE raised (R189) -/

/-- LINE, placed at once in AWAKE; with its wake enable ON the line is the primary cause, which sets the count of quiet cycles to
0 (R181). -/
theorem raiseLine_placed (calm : Calm s) (detail : Byte) : raiseLine l detail s =
    let x := s.sleep.lines[l]
    let t := eventPlaced (event s .line (if x.enable then .primary else .none) Kind.plan.code (BitVec.ofNat 16 l.val) detail 0 0) s
    { t with sleep := { t.sleep with lineSince := true, quiet := if x.enable then 0 else s.sleep.quiet } } := by
  have placed := raise_placed (s := { s with sleep := { s.sleep with lineSince := true } }) (j := .sleep)
    (e := event s .line (if (s.sleep.lines[l]).enable then .primary else .none) Kind.plan.code (BitVec.ofNat 16 l.val) detail 0 0)
    calm.rest calm.events rfl
  unfold raiseLine
  dsimp only at placed ⊢
  rw [placed]
  cases (s.sleep.lines[l]).enable with
  | true => exact primary_calm (by exact calm.awake) (by exact calm.cycle)
  | false => rfl

/-! ## The acknowledge (R173, R189) -/

theorem exec_lineAcknowledge (h : noticeOpen s = true) :
    exec (.lineAcknowledge l v) s = .next (settle (lineAcknowledge l v s)) := runIf_on _ _ h

theorem lineAcknowledge_ignored (other : v ≠ 1) : lineAcknowledge l v s = ignoreConfig .plan 0 (0x04 + l.val) s := if_pos other

theorem lineAcknowledge_taken : lineAcknowledge l 1 s =
    if ((s.sleep.lines[l]).edgeLevel && (s.sleep.lines[l]).active) = true then raiseLine l 2 s
    else notePlan .sleep s (unflagged l s) := by
  unfold lineAcknowledge
  exact if_neg (not_not_intro rfl)

theorem lineAcknowledge_clears (quiet : (s.sleep.lines[l]).edgeLevel = false ∨ (s.sleep.lines[l]).active = false) :
    lineAcknowledge l 1 s = notePlan .sleep s (unflagged l s) := by
  rw [lineAcknowledge_taken, Bool.and_eq_false_iff.2 quiet]
  rfl

theorem lineAcknowledge_repeats (level : (s.sleep.lines[l]).edgeLevel = true) (active : (s.sleep.lines[l]).active = true) :
    lineAcknowledge l 1 s = raiseLine l 2 s := by
  rw [lineAcknowledge_taken, level, active]
  rfl

/-! ## The long press (R190) -/

theorem exec_longPress_early (early : s.sleep.longPress ≠ .due) : exec .longPressTimerExpiry s = .next s := by
  show execLongPressTimerExpiry s = .next s
  unfold execLongPressTimerExpiry
  exact runIf_off _ _ (by simp [early])

theorem exec_longPress_due (jobs : jobsRun s = true) (due : s.sleep.longPress = .due) : exec .longPressTimerExpiry s =
    .next (settle (lineShutdown .shutdown { s with sleep := { s.sleep with longPress := .stopped } })) := by
  show execLongPressTimerExpiry s = _
  unfold execLongPressTimerExpiry
  rw [runIf_on _ _ (by simp [jobs, due])]

end Sys2Proof.Machine

namespace Sys2Proof
open Machine

/-- Settles O38: an acknowledge by its value and by the line's mode and state, each to the end of its moment; the long press is
the shutdown of a part in CAMPED whose long-press timer has stopped. -/
theorem lineCommands : Obligations.LineCommands := by
  unfold Obligations.LineCommands
  refine fun s calm => ⟨fun l v => ⟨?ignored, ?cleared, ?repeated⟩, exec_longPress_early, ?pressed⟩
  case ignored =>
    intro other
    rw [exec_lineAcknowledge calm.notice, lineAcknowledge_ignored other, ignore_placed calm.rest calm.events]
  case cleared =>
    intro quiet
    have rest : Resting (unflagged l s) := unflagged_resting calm.rest
    rw [exec_lineAcknowledge calm.notice, lineAcknowledge_clears quiet, notePlan_unflagged calm]
    split
    · exact congrArg Host.Outcome.next (settle_resting (joinWrite_resting rest))
    · exact congrArg Host.Outcome.next (settle_resting rest)
  case repeated =>
    intro level active
    obtain ⟨-, -, -, -, -, -, noMark, notRoused, -⟩ := calm.rest
    rw [exec_lineAcknowledge calm.notice, lineAcknowledge_repeats level active, raiseLine_placed calm]
    exact congrArg Host.Outcome.next
      (settle_resting (sleep_resting (eventPlaced_resting calm.rest) _ rfl noMark notRoused))
  case pressed =>
    intro due camped up calls send resv
    have still : Calm { s with sleep := { s.sleep with longPress := .stopped } } := calm
    rw [exec_longPress_due calm.jobs due, press_plain still camped up calls send resv]
    rfl

end Sys2Proof
end

section
/-! SUPPORT. The event ring: an event accepted or lost, the list against a full ring, a record and its header write, the writer's
waiting, and the consumer (R192, R194, R195). -/

namespace Sys2Proof.Machine

variable {s : State} {e : Event} {v : Byte}

/-! ## One write of the event writer (R194) -/

theorem placeOne_owed {h : HeaderOwed} (owed : s.events.owed = some h) : placeOne s =
    joinWrite (owedReq s h) { s with events := { s.events with
      owed := none, producer := h.producer.getD s.events.producer, overflow := h.flag.getD s.events.overflow } } := by
  unfold placeOne
  rw [owed]

/-- The oldest event's record in the ring. -/
def recordReq (e : Event) (s : State) : WriteReq :=
  let r := s.events.producer.toNat % s.bind.capacity
  writeAt s .event (1 + r / 4) (fieldBytes (eventFields (16 * (r % 4)) e))

/-- The header write owed behind a record: the producer, and the flag cleared behind a marked one. -/
def recordOwes (e : Event) (s : State) : HeaderOwed :=
  { producer := some (s.events.producer + 1), flag := if e.loss then some false else none }

theorem recordOwes_flag (e : Event) (s : State) (old : Bool) :
    (recordOwes e s).flag.getD old = if e.loss then false else old := by
  unfold recordOwes
  cases e.loss with
  | true => rfl
  | false => rfl

theorem owedReq_record (e : Event) (s : State) : owedReq s (recordOwes e s) =
    { writeAt s .event 0 ([(0, s.events.producer + 1)] ++ (if e.loss then [(3, 0)] else [])) with
      note := .eventHeader (s.events.producer + 1) } := by
  unfold owedReq recordOwes
  cases e.loss with
  | true => rfl
  | false => rfl

theorem placeOne_record {rest : List Event} (owed : s.events.owed = none) (pending : s.events.pending = e :: rest) :
    placeOne s = joinWrite (recordReq e s)
      { s with events := { s.events with pending := rest, owed := some (recordOwes e s) } } := by
  unfold placeOne
  rw [owed, pending]
  rfl

/-! ## The list against a full ring (R194) -/

/-- The pending list discarded, with no header write owed: the overflow flag set, and a loss for the next event accepted to
mark. -/
def listDiscarded (s : State) : State :=
  { s with events := { s.events with pending := [], overflow := true, lossPending := true, owed := none } }

theorem listDiscarded_eq (owed : s.events.owed = none) : listDiscarded s =
    { s with events := { s.events with pending := [], overflow := true, lossPending := true } } := by
  rw [listDiscarded, ← owed]

/-- The list discarded with the flag clear before: its header write is owed. -/
def discardOwing (s : State) : State :=
  { s with events := { (listDiscarded s).events with owed := some { producer := none, flag := some true } } }

theorem eventsLeft_pending (left : s.events.pending ≠ []) : eventsLeft s = true := by simp [eventsLeft, left]

theorem discardFull_full (full : ringFull s = true) (left : s.events.pending ≠ []) (owed : s.events.owed = none) :
    discardFull s = if s.events.overflow then listDiscarded s else discardOwing s := by
  unfold discardFull
  rw [if_pos (by simp [full, left, owed])]
  cases flag : s.events.overflow with
  | true => rfl
  | false => rfl

theorem placeOne_discardOwing : placeOne (discardOwing s) = joinWrite (writeAt s .event 0 [(3, 1)]) (listDiscarded s) :=
  placeOne_owed (h := { producer := none, flag := some true }) rfl

/-! ## The writer places (R21, R194) -/

theorem placeEvents_shut (shut : mayPlace s = false) : placeEvents s = s := by
  unfold placeEvents pumpEvents
  rw [shut]
  rfl

theorem pumpEvents_waits {n : Nat} (may : mayPlace s = true) (left : eventsLeft s = true) (must : mustWait s = true)
    (first : jobWaits .events s = false) : pumpEvents (n + 1) s = waitActs .events [.placeEvents] s := by
  unfold pumpEvents
  rw [may, left, must, first]
  rfl

theorem placeEvents_waits (may : mayPlace s = true) (left : s.events.pending ≠ []) (waits : s.mem.waits = [])
    (many : 16 ≤ internalCount s.mem) : placeEvents s =
      { s with mem := { s.mem with waits := [{ job := .events, since := s.mem.clock, acts := [.placeEvents] }] } } := by
  have must : mustWait s = true := by simp [mustWait, Config.internalWrites, many]
  rw [placeEvents, pumpEvents_waits may (eventsLeft_pending left) must (jobWaits_none waits), waitActs, waits]
  rfl

/-- One round of the writer that need not wait: it discards against a full ring, and places what is left. -/
theorem pumpEvents_step {n : Nat} (may : mayPlace s = true) (left : eventsLeft s = true) (free : mustWait s = false) :
    pumpEvents (n + 1) s =
      if eventsLeft (discardFull s) then pumpEvents n (placeOne (discardFull s)) else discardFull s := by
  conv => lhs; unfold pumpEvents
  rw [may, left, free]
  rfl

theorem placeEvents_full (may : mayPlace s = true) (owed : s.events.owed = none) (waits : s.mem.waits = []) (room : Room 1 s)
    (left : s.events.pending ≠ []) (full : ringFull s = true) : placeEvents s =
      if s.events.overflow then listDiscarded s else joinWrite (writeAt s .event 0 [(3, 1)]) (listDiscarded s) := by
  rw [placeEvents, pumpEvents_step may (eventsLeft_pending left) (mustWait_room waits room), discardFull_full full left owed]
  cases s.events.overflow with
  | true => rfl
  | false =>
    show pumpEvents _ (placeOne (discardOwing s)) = _
    rw [placeOne_discardOwing]
    exact pumpEvents_done _ rfl rfl

/-- The writer's turn after a wait: the flag's header write, where it is owed, takes the place without another wait. -/
theorem forceEvents_full (may : mayPlace s = true) (owed : s.events.owed = none) (left : s.events.pending ≠ [])
    (full : ringFull s = true) : forceEvents s =
      if s.events.overflow then listDiscarded s
      else placeEvents (joinWrite (writeAt s .event 0 [(3, 1)]) (listDiscarded s)) := by
  unfold forceEvents
  rw [may, discardFull_full full left owed]
  cases s.events.overflow with
  | true => rfl
  | false => exact congrArg placeEvents placeOne_discardOwing

/-- One event against a ring that is not full: its record, and then its header write. -/
theorem placeEvents_record (may : mayPlace s = true) (owed : s.events.owed = none) (waits : s.mem.waits = []) (room : Room 2 s)
    (pending : s.events.pending = [e]) (space : ringFull s = false) : placeEvents s =
      joinWrite (owedReq s (recordOwes e s)) (joinWrite (recordReq e s) { s with events := { s.events with
        producer := s.events.producer + 1, pending := []
        overflow := if e.loss then false else s.events.overflow } }) := by
  have left : eventsLeft s = true := eventsLeft_pending (by simp [pending])
  have record := placeOne_record owed pending
  have still : discardFull (placeOne s) = placeOne s := by rw [record]; exact discardFull_room space
  have again : eventsLeft (placeOne s) = true := by rw [record]; rfl
  have free : mustWait (placeOne s) = false := by rw [record]; exact mustWait_room waits (room_join room)
  rw [placeEvents, pumpEvents_step may left (mustWait_room waits room), discardFull_room space, if_pos left,
    pumpEvents_step (by rw [record]; exact may) again free, still, if_pos again, record,
    placeOne_owed (h := recordOwes e s) rfl, pumpEvents_done _ rfl rfl]
  show joinWrite (owedReq s (recordOwes e s)) (joinWrite (recordReq e s) { s with events := { s.events with
    producer := s.events.producer + 1, pending := [], owed := none
    overflow := (recordOwes e s).flag.getD s.events.overflow } }) = _
  rw [recordOwes_flag, ← owed]

/-! ## An event handed to the writer (R192, R194) -/

theorem raiseNow_off (off : s.events.running = false) : raiseNow e s = s := if_pos (by simp [off])

theorem raiseNow_lost (run : s.events.running = true) (many : 16 ≤ s.events.pending.length) :
    raiseNow e s = { s with events := { s.events with overflow := true, lossPending := true } } := by
  unfold raiseNow
  rw [if_neg (by simp [run]), if_pos (by exact many)]

/-- An event accepted onto the pending list, with the mark of a loss before it. -/
def eventListed (e : Event) (s : State) : State :=
  { s with events := { s.events with
    pending := s.events.pending ++ [{ e with loss := s.events.lossPending }], lossPending := false } }

theorem rouse_undeep (h : s.sleep.level ≠ .deep) : rouse s = s := if_neg h

theorem raiseNow_listed (run : s.events.running = true) (few : s.events.pending.length < 16) : raiseNow e s =
    placeEvents (if 12 ≤ (eventListed e s).events.pending.length ∧ s.sleep.level = .deep then rouse (eventListed e s)
      else eventListed e s) := by
  unfold raiseNow
  rw [if_neg (by simp [run]), if_neg (by exact Nat.not_le.2 few)]
  show placeEvents (if 12 ≤ (eventListed e s).events.pending.length then rouse (eventListed e s) else eventListed e s) = _
  by_cases deep : s.sleep.level = .deep
  · simp only [deep, and_true]
  · rw [rouse_undeep (s := eventListed e s) deep, ite_self, if_neg fun h => deep h.2]

theorem mayPlace_running (may : mayPlace s = true) : s.events.running = true := by
  simp only [mayPlace, Bool.and_eq_true] at may
  exact may.1

/-- The first event of an empty list against a full ring is lost with it. -/
theorem raiseNow_full (may : mayPlace s = true) (pending : s.events.pending = []) (owed : s.events.owed = none)
    (waits : s.mem.waits = []) (room : Room 1 s) (full : ringFull s = true) : raiseNow e s =
      if s.events.overflow then listDiscarded s else joinWrite (writeAt s .event 0 [(3, 1)]) (listDiscarded s) := by
  have one : (eventListed e s).events.pending.length = 1 := by simp [eventListed, pending]
  rw [raiseNow_listed (mayPlace_running may) (by simp [pending]), if_neg (by omega),
    placeEvents_full (s := eventListed e s) may owed waits room (List.ne_nil_of_length_pos (by omega)) full]
  rfl

theorem listDiscarded_empty (pending : s.events.pending = []) (owed : s.events.owed = none) :
    listDiscarded s = { s with events := { s.events with overflow := true, lossPending := true } } := by
  rw [listDiscarded_eq owed, ← pending]

/-! ## ATTN and the consumer (R195, R196) -/

theorem attn_iff : attn s = true ↔
    s.events.running = true ∧ s.sleep.level = .awake ∧ s.events.published ≠ s.events.consumer := by
  simp [attn, and_assoc]

theorem exec_eventConsumer (h : noticeOpen s = true) :
    exec (.eventConsumerWrite v) s = .next (settle (eventConsumer v s)) := runIf_on _ _ h

theorem eventConsumer_taken
    (within_ : occupancy v s.events.consumer ≤ occupancy s.events.producer s.events.consumer) :
    eventConsumer v s = placeEvents { s with events := { s.events with consumer := v } } := if_pos within_

theorem eventConsumer_ignored
    (beyond : occupancy s.events.producer s.events.consumer < occupancy v s.events.consumer) :
    eventConsumer v s = ignoreConfig .event 0xFFFF 0x01 s := if_neg (Nat.not_le.2 beyond)

theorem consumer_resting (rest : Resting s) : Resting { s with events := { s.events with consumer := v } } := rest

end Sys2Proof.Machine

namespace Sys2Proof
open Machine

/-- Settles O35: the consumer's notices, the published producer, ATTN, an event accepted or lost, and the writer's placing by
whether it may place, must wait, or finds the ring full. -/
theorem eventRingRules : Obligations.EventRingRules := by
  unfold Obligations.EventRingRules
  refine ⟨fun s v calm => ⟨fun within_ => ?consumer, fun beyond => ?ignored⟩, ?published, fun s => attn_iff, ?againstFull,
    fun e s => ⟨raiseNow_off, raiseNow_lost, raiseNow_listed⟩,
    fun s => ⟨?nothing, placeEvents_waits, ?discards, ?places⟩, ?turn, ?resumes⟩
  case consumer =>
    obtain ⟨-, pending, owed, -⟩ := calm.rest
    rw [exec_eventConsumer calm.notice, eventConsumer_taken within_, placeEvents_done (by exact pending) (by exact owed)]
    exact congrArg Host.Outcome.next (settle_resting (consumer_resting calm.rest))
  case ignored =>
    rw [exec_eventConsumer calm.notice, eventConsumer_ignored beyond, ignore_placed calm.rest calm.events]
  case published =>
    intro s w ws p rest reads accept writer takes
    obtain ⟨-, waits, readWaits, kept, -⟩ := takeInternal_still w { s.mem with accept := ws }
    have rest' : Resting { s with mem := takeInternal w { s.mem with accept := ws } } := resting_mem rest waits readWaits
    rw [exec_internalWriteAccept accept writer takes, accepted, serveReads_none (kept.trans reads)]
    exact congrArg Host.Outcome.next (settle_resting rest')
  case againstFull =>
    intro s e rest may full room
    obtain ⟨-, pending, owed, -, waits, -⟩ := rest
    rw [raiseNow_full may pending owed waits room (decide_eq_true full), listDiscarded_empty pending owed]
  case nothing =>
    rintro (shut | ⟨pending, owed⟩)
    · exact placeEvents_shut shut
    · exact placeEvents_done pending owed
  case discards =>
    intro may owed waits room left full
    rw [placeEvents_full may owed waits room left (decide_eq_true full), listDiscarded_eq owed]
  case places =>
    intro e may owed waits room pending space
    rw [placeEvents_record may owed waits room pending (decide_eq_false (Nat.not_le.2 space)), owedReq_record, recordReq]
  case turn =>
    intro s may owed left full
    have force := forceEvents_full may owed left (decide_eq_true full)
    rw [listDiscarded_eq owed] at force
    exact ⟨fun flag => by rw [force, flag]; rfl, fun flag => by rw [force, flag]; rfl⟩
  case resumes =>
    intro s v open_ within_
    rw [exec_eventConsumer open_, eventConsumer_taken within_]

end Sys2Proof
end

section
/-! SUPPORT. A step and the queue of waiting commands: the command at the front is carried out, whatever the state, and leaves the
queue as it is. -/

namespace Sys2Proof.Machine

variable {s t : State}

/-! ## A step -/

theorem step_front {c : Instr} {rest : List Instr} (front : s.pending = c :: rest) :
    step s = exec c { s with pending := rest } := by
  unfold step
  rw [front]

theorem step_empty (empty : s.pending = []) : step s = .next s := by
  unfold step
  rw [empty]

/-! ## Every command is carried out

A command given by `runIf` has a next state by definition, on its occasion or not; so has every frame of the radio unit
(`received_next`) and every completed read (`runRead_next`). The other commands choose by the state what to run. -/

theorem execReloadReadDone_next (data : ReadData) (err : Bool) (s : State) : ∃ t, execReloadReadDone data err s = .next t := by
  unfold execReloadReadDone
  split
  · split
    · exact runRead_next ..
    · exact ⟨s, rfl⟩
  · exact ⟨s, rfl⟩

theorem execContextTimerExpiry_next (ring : Byte) (s : State) : ∃ t, execContextTimerExpiry ring s = .next t := by
  unfold execContextTimerExpiry
  split
  · exact runIf_next ..
  · exact ⟨s, rfl⟩

theorem execInternalWritePlaceWait_next (j : Job) (s : State) : ∃ t, execInternalWritePlaceWait j s = .next t := by
  unfold execInternalWritePlaceWait
  split
  · exact runIf_next ..
  · exact ⟨s, rfl⟩

theorem execInternalReadPlaceWait_next (j : Job) (s : State) : ∃ t, execInternalReadPlaceWait j s = .next t := by
  unfold execInternalReadPlaceWait
  split
  · exact runIf_next ..
  · exact ⟨s, rfl⟩

theorem execStagePublish_next (s : State) : ∃ t, execStagePublish s = .next t := by
  unfold execStagePublish
  split
  · exact runIf_next ..
  · exact ⟨s, rfl⟩

theorem execBadFrame_next (bytes : List Byte) (s : State) : ∃ t, execBadFrame bytes s = .next t := by
  unfold execBadFrame
  split
  · exact received_next ..
  · exact ⟨s, rfl⟩

theorem execAirMessageInvalid_next (payload : List Byte) (s : State) : ∃ t, execAirMessageInvalid payload s = .next t := by
  unfold execAirMessageInvalid
  split
  · exact received_next ..
  · exact ⟨s, rfl⟩

theorem execFrameStrobe_next (pins : BitVec 4) (s : State) : ∃ t, execFrameStrobe pins s = .next t := by
  unfold execFrameStrobe
  split
  · exact ⟨_, rfl⟩
  · exact runIf_next ..

theorem execWarmReset_next (s : State) : ∃ t, execWarmReset s = .next t := by
  unfold execWarmReset
  split
  · exact ⟨warmReset s, rfl⟩
  · exact ⟨_, rfl⟩

theorem exec_next (c : Instr) (s : State) : ∃ t, exec c s = .next t := by
  have frame : ∃ t, received c s = .next t := received_next c s
  cases c with
  | powerOnReset | resetNRelease => exact ⟨_, rfl⟩
  | warmReset => exact execWarmReset_next s
  | warmResetEnd straps => exact ⟨_, execWarmResetEnd_eq straps s⟩
  | frameStrobe pins => exact execFrameStrobe_next pins s
  | internalWritePlaceWait j => exact execInternalWritePlaceWait_next j s
  | internalReadPlaceWait j => exact execInternalReadPlaceWait_next j s
  | stagePublish => exact execStagePublish_next s
  | contextTimerExpiry ring => exact execContextTimerExpiry_next ring s
  | badFrame bytes => exact execBadFrame_next bytes s
  | airMessageInvalid payload => exact execAirMessageInvalid_next payload s
  | reloadReadDone data err => exact execReloadReadDone_next data err s
  | hostReadDone | anchorReadDone | regionReadDone | dialStringCaptured | speechFetchDone | descriptorReadDone | bodyReadDone =>
    exact runRead_next ..
  | measureDone | listenDone | sigSent | speechIn | switchDone | servingLost | linkReady | connectGrant | connectReject
  | reestablishAccept | areaAccept | areaReject | offer | ringing | connect | holdAccept | resumeAccept | release | releaseDone
  | textSegment | segmentAck | transferOrder => exact frame
  | processorRead | processorWrite | enableWordWrite | radioRequest | connectionParameter | cellConfigurationNotice
  | mobilityParameter | requestOriginate | requestAnswer | requestHold | requestResume | requestSwap | requestRelease
  | requestUnknown | uplinkProducerWrite | downlinkConsumerWrite | outboxProducerWrite | cancelWordWrite | inboxConsumerWrite
  | sleepParameter | sleepRequest | stopGrant | wakeAck | lineAcknowledge | eventConsumerWrite => exact ⟨_, rfl⟩
  | hostWriteAccept | internalWriteAccept | arbiterGrant | drainDone | selfRefreshEnter | exitDelayExpiry => exact ⟨_, rfl⟩
  | unbindTimerExpiry | settleDelayExpiry | responseTimeout | recoveryTimerExpiry | shutdownTimerExpiry | connectTimerExpiry
  | areaAnswerTimerExpiry | inactivityTimerExpiry | reestablishmentTimerExpiry | roundTimerExpiry | holdTimerExpiry
  | reportTimerExpiry | activationTimerExpiry | dialingTimerExpiry | ringingOutTimerExpiry | incomingTimerExpiry
  | exchangeTimerExpiry | releasingTimerExpiry | ackTimerExpiry | retryTimerExpiry | quiesceTimerExpiry | rouseWindowExpiry
  | longPressTimerExpiry => exact ⟨_, rfl⟩

/-! ## What the commands that are not tame make of the queue -/

/-- A command whose effect keeps the limits and the queue of commands keeps that queue. -/
theorem runIf_queue {o : Bool} {f : State → State} (limits : Limits (f s)) (kept : (f s).pending = s.pending)
    (e : runIf o f s = .next t) : t.pending = s.pending := by
  have settled : (settle (f s)).pending = (f s).pending := (settle_tame limits.tame).1
  cases o with
  | false =>
    rw [runIf_off _ _ rfl] at e
    cases e
    rfl
  | true =>
    rw [runIf_on _ _ rfl] at e
    rw [← Host.Outcome.next.inj e, settled, kept]

theorem enterDeep_queue (s : State) : (enterDeep s).pending = s.pending := by
  unfold enterDeep
  dsimp only
  rw [(sendFrame_frame _ _).1]
  simp

theorem execFrameStrobe_queue {pins : BitVec 4} (limits : Limits s) (e : execFrameStrobe pins s = .next t) :
    t.pending = s.pending := by
  have tame := frameStrobe_tame (pins := pins) limits
  unfold execFrameStrobe at e
  split at e
  · cases e
    rfl
  · exact runIf_queue tame.limits tame.1 e

theorem execWarmReset_queue (e : execWarmReset s = .next t) : t.pending = s.pending := by
  unfold execWarmReset at e
  split at e <;> cases e
  · exact (warmReset_queue_frame s).1
  · rfl

theorem execWarmResetEnd_queue {straps : BitVec 2} (e : execWarmResetEnd straps s = .next t) : t.pending = s.pending := by
  rw [execWarmResetEnd_eq] at e
  cases e
  split
  · rfl
  · split
    · exact (placeTeardown_queue_frame s).1
    · rfl

end Sys2Proof.Machine

namespace Sys2Proof
open Machine

/-- Settles O1: a command put at the front leaves the state it was put on as the queue's rest. -/
theorem stepRunsTheFrontCommand : Obligations.StepRunsTheFrontCommand :=
  ⟨fun _ _ _ front => step_front front, fun s c => step_front (s := s.withCommand c) rfl⟩

/-- Settles O2. -/
theorem emptyQueueIdles : Obligations.EmptyQueueIdles := fun _ empty => step_empty empty

/-- Settles O3, by the shapes that the commands' meanings share. -/
theorem noCommandStops : Obligations.NoCommandStops := exec_next

/-- Settles O4: a tame command keeps the queue; of the others each reset, the strobe, the grants and the exit delay's expiry do. -/
theorem execKeepsTheQueue : Obligations.ExecKeepsTheQueue := by
  unfold Obligations.ExecKeepsTheQueue
  intro c s t safe e
  rcases exec_tame safe e with tame | ⟨x, rfl⟩ | rfl | ⟨x, rfl⟩ | rfl | ⟨p, rfl⟩ | ⟨d, rfl⟩ | rfl | rfl
  · exact tame.1
  · cases e
    rfl
  · exact execWarmReset_queue e
  · exact execWarmResetEnd_queue e
  · cases e
    rfl
  · exact execFrameStrobe_queue safe.1 e
  · exact runIf_queue (grant_limits safe.1) (grant_frame d s).1 e
  · exact runIf_queue (enterDeep_limits safe.1) (enterDeep_queue s) e
  · exact runIf_queue (exitDone_limits safe.1) (exitDone_tame safe.1).1 e

end Sys2Proof
end
